-- ==== Sys2Proof/Word.lean ====
section
/-! DEFINITION. The word types of the Vyolter V3 and their plainest arithmetic. -/

namespace Sys2Proof

/-- One byte. -/
abbrev Byte := BitVec 8

/-- One vector register of one thread, or one instruction word (03 R67, 02 R32). -/
abbrev W32 := BitVec 32

/-- One uniform register, address or literal. -/
abbrev W64 := BitVec 64

/-- One bit of a Bool, as a number. -/
def bit (b : Bool) : Nat := if b then 1 else 0

end Sys2Proof
end

