-- ==== Sys2Proof/Syntax.lean ====
section
/-! DEFINITION. The instruction syntax of the Vyolter V3: one constructor for every row of spec/opcode_table.json,
that is the 192 assigned opcodes (02 R55), the unassigned ones (R57), and the 76 events of the device.
Encodings are read and written in Decode.lean; meanings stand in Machine/. -/

namespace Sys2Proof

/-- The fields of word 1 and word 2 of the extended form (02 R38, R39), by the manual's names. -/
structure Ext where
  /-- opcode-specific modifier, MOD -/
  mod : BitVec 6
  rc : Bool
  rb : Bool
  ra : Bool
  /-- bit 3 of the guard predicate number, GX -/
  gx : Bool
  rm : BitVec 3
  t : BitVec 5
  c : BitVec 8
  bx : BitVec 2
  ax : BitVec 2
  dx : BitVec 2
  /-- IMM16 -/
  imm : BitVec 16
  kd : Bool
  ka : Bool
  kb : Bool
  kc : Bool
  mc : BitVec 2
  mb : BitVec 2
  ma : BitVec 2
  bw : BitVec 3
  bh : BitVec 3
  deriving DecidableEq, Repr

/-- One encoded instruction but for its opcode: the fields of the first word (02 R35), the extended words when L names
them, and the literal when L names it (R32).  The length field L is what `ext` and `lit` hold. -/
structure Enc where
  b : BitVec 6
  a : BitVec 6
  d : BitVec 6
  /-- guard negate, GN -/
  gn : Bool
  /-- low three bits of the guard predicate number, G -/
  g : BitVec 3
  ext : Option Ext
  lit : Option (BitVec 64)
  deriving DecidableEq, Repr

/-- What a Hjelpex peer asks of a home quay (17 R496). -/
inductive LinkOp where
  | read
  | write
  /-- an atomic update with the operation code of 10 R286; the old value goes back over the link -/
  | atom (op : BitVec 3)
  /-- the same with no value going back -/
  | red (op : BitVec 3)
  deriving DecidableEq, Repr

/-- A request of a peer: the operation, the R41 type code and size of the item, its HBM address, the operand, the
compare value of .cas, and the poison bit of the flit header (17 R496). -/
structure LinkReq where
  op : LinkOp
  ty : Nat
  size : Nat
  pa : Nat
  val : BitVec 128
  cmp : BitVec 128
  poison : Bool
  deriving DecidableEq, Repr

/-- The instructions and events of the device, one constructor for each row of spec/opcode_table.json. -/
inductive Instr where
  /-- R118: Does nothing; the thread continues in sequence. -/
  | nop (e : Enc)
  /-- R116: Branches each thread of the execution mask to pc plus a signed offset. -/
  | bra (e : Enc)
  /-- R116: Branches each thread to the 64-bit target held in a register pair or uniform register. -/
  | brx (e : Enc)
  /-- R116: Pushes the return address and branches to pc plus a signed offset. -/
  | call (e : Enc)
  /-- R116: Pushes the return address and branches to a register target. -/
  | callReg (e : Enc)
  /-- R116: Pops the call stack and returns each thread, trapping on an empty stack. -/
  | ret (e : Enc)
  /-- R104: Holds threads at a reconvergence point until no thread of the pack lies below it. -/
  | conv (e : Enc)
  /-- R117: Ends the threads of the execution mask, ending the pack and crew when the last exit. -/
  | exit (e : Enc)
  /-- R108: Pushes a loop-stack entry with a count from a uniform register. -/
  | loop (e : Enc)
  /-- R108: Pushes a loop-stack entry with an immediate count. -/
  | loopImm (e : Enc)
  /-- R111: Pops the top loop-stack entry without branching. -/
  | lbrk (e : Enc)
  /-- R118: Lets other packs of the core issue before this pack next cycle. -/
  | yield (e : Enc)
  /-- R119: Takes SWTRAP with an immediate code. -/
  | trap (e : Enc)
  /-- R119: Takes SWTRAP with the code held in a uniform register. -/
  | trapReg (e : Enc)
  /-- R450: Returns from the trap handler by replay, skip or resume and releases held subsets. -/
  | tret (e : Enc)
  /-- R452: Sets one entry of the tensor bound table on every sett. -/
  | tbnd (e : Enc)
  /-- R466: Reads %sflag into a uniform register and optionally clears bits. -/
  | sflg (e : Enc)
  /-- R469: Reads a system register chosen by a uniform selector. -/
  | sysr (e : Enc)
  /-- R469: Reads a core system register of the own core named by immediate. -/
  | sysrImm (e : Enc)
  /-- R469: Writes a system register chosen by a uniform selector. -/
  | sysw (e : Enc)
  /-- R469: Writes a core system register of the own core named by immediate. -/
  | syswImm (e : Enc)
  /-- R407: Enters a device launch into the package device-launch table. -/
  | lnch (e : Enc)
  /-- R149: Copies a register or literal into the destination. -/
  | mov (e : Enc)
  /-- R149: Copies a sign-extended immediate into the destination. -/
  | movImm (e : Enc)
  /-- R150: Copies the lowest active thread's vector value into a uniform register. -/
  | movs (e : Enc)
  /-- R151: Integer add with optional saturation or carry. -/
  | iadd (e : Enc)
  /-- R151: Integer add of a sign-extended immediate. -/
  | iaddImm (e : Enc)
  /-- R151: Integer subtract with optional saturation or borrow. -/
  | isub (e : Enc)
  /-- R151: Integer subtract of a sign-extended immediate. -/
  | isubImm (e : Enc)
  /-- R152: Integer multiply, low or high half. -/
  | imul (e : Enc)
  /-- R152: Integer multiply by a sign-extended immediate. -/
  | imulImm (e : Enc)
  /-- R152: Integer multiply-add, optionally widening. -/
  | imad (e : Enc)
  /-- R153: Integer divide or remainder, rounding toward zero, never trapping. -/
  | idiv (e : Enc)
  /-- R154: Integer minimum. -/
  | imin (e : Enc)
  /-- R154: Integer minimum with an immediate. -/
  | iminImm (e : Enc)
  /-- R154: Integer maximum. -/
  | imax (e : Enc)
  /-- R154: Integer maximum with an immediate. -/
  | imaxImm (e : Enc)
  /-- R154: Integer absolute value, wrapping or saturating. -/
  | iabs (e : Enc)
  /-- R154: Integer negation, wrapping or saturating. -/
  | ineg (e : Enc)
  /-- R155: Applies a bitwise function of three sources given by a table. -/
  | bfn (e : Enc)
  /-- R156: Shifts or rotates by a register amount. -/
  | shf (e : Enc)
  /-- R156: Shifts or rotates by an immediate amount. -/
  | shfImm (e : Enc)
  /-- R157: Extracts a bit field, sign- or zero-extended. -/
  | bfx (e : Enc)
  /-- R157: Inserts low bits of B into a field of A. -/
  | bfi (e : Enc)
  /-- R158: Counts set bits. -/
  | popc (e : Enc)
  /-- R158: Counts leading zeros. -/
  | clz (e : Enc)
  /-- R158: Reverses bit order. -/
  | brev (e : Enc)
  /-- R159: Integer compare into a predicate. -/
  | icmp (e : Enc)
  /-- R159: Integer compare with an immediate into a predicate. -/
  | icmpImm (e : Enc)
  /-- R160: Selects A or B per thread by a predicate. -/
  | sel (e : Enc)
  /-- R161: Forms a 64-bit address A plus shifted B. -/
  | lea (e : Enc)
  /-- R161: Forms a 64-bit address A plus a shifted immediate. -/
  | leaImm (e : Enc)
  /-- R162: Marks vector registers as kept in the register file. -/
  | rkeep (e : Enc)
  /-- R163: Writes back and frees the lines of named registers. -/
  | rflush (e : Enc)
  /-- R175: Floating-point add in 32-bit or narrower lane formats. -/
  | faddF32 (e : Enc)
  /-- R175: Floating-point add in binary64. -/
  | faddF64 (e : Enc)
  /-- R175: Floating-point multiply in 32-bit or narrower formats. -/
  | fmulF32 (e : Enc)
  /-- R175: Floating-point multiply in binary64. -/
  | fmulF64 (e : Enc)
  /-- R175: Fused multiply-add in 32-bit or narrower formats. -/
  | ffmaF32 (e : Enc)
  /-- R175: Fused multiply-add in binary64. -/
  | ffmaF64 (e : Enc)
  /-- R176: Correctly rounded division. -/
  | fdiv (e : Enc)
  /-- R176: Correctly rounded square root. -/
  | fsqrt (e : Enc)
  /-- R177: Reciprocal. -/
  | frcp (e : Enc)
  /-- R177: Reciprocal square root. -/
  | frsq (e : Enc)
  /-- R177: Base-2 exponential. -/
  | fex2 (e : Enc)
  /-- R177: Base-2 logarithm. -/
  | flg2 (e : Enc)
  /-- R177: Sine, with Zynilo-2 table values under version 2. -/
  | fsin (e : Enc)
  /-- R177: Cosine, with Zynilo-2 table values under version 2. -/
  | fcos (e : Enc)
  /-- R178: IEEE minimum or minimumNumber. -/
  | fmin (e : Enc)
  /-- R178: IEEE maximum or maximumNumber. -/
  | fmax (e : Enc)
  /-- R179: Floating-point compare into a predicate. -/
  | fcmp (e : Enc)
  /-- R180: Writes a one-hot class mask of a value. -/
  | fclass (e : Enc)
  /-- R181: Rounds to an integral value of the same format. -/
  | frnd (e : Enc)
  /-- R182: Scales by a power of two. -/
  | fscb (e : Enc)
  /-- R183: Writes floor of log2 of the magnitude as an integer. -/
  | flgb (e : Enc)
  /-- R184: Changes only the sign bit. -/
  | fcsg (e : Enc)
  /-- R185: Converts float to integer with clamping. -/
  | f2i (e : Enc)
  /-- R186: Converts integer to float. -/
  | i2f (e : Enc)
  /-- R187: Converts between lane floating-point formats. -/
  | f2f (e : Enc)
  /-- R188: Converts binary32 sources and packs narrow results, optionally under a scale word. -/
  | cvtpk (e : Enc)
  /-- R190: Widens packed narrow values exactly to binary32. -/
  | cvtup (e : Enc)
  /-- R191: Computes a quantisation scale word for cvtpk. -/
  | qscl (e : Enc)
  /-- R193: Returns the residual that slicing drops. -/
  | slres (e : Enc)
  /-- R194: Reads, clears or sets the thread's sticky flags. -/
  | fflg (e : Enc)
  /-- R195: Writes %rm or the default rounding mode and returns the old value. -/
  | frm (e : Enc)
  /-- R122: Writes the AND of a predicate over the execution mask. -/
  | voteAll (e : Enc)
  /-- R122: Writes the OR of a predicate over the execution mask. -/
  | voteAny (e : Enc)
  /-- R122: Writes the mask of threads whose predicate is set. -/
  | voteBallot (e : Enc)
  /-- R123: Applies any function of three predicates. -/
  | pfn (e : Enc)
  /-- R124: Moves predicates, or packs and unpacks them to a vector. -/
  | pmov (e : Enc)
  /-- R120: Reads a special register. -/
  | srd (e : Enc)
  /-- R120: Writes a special register. -/
  | swr (e : Enc)
  /-- R125: Reads a value from a thread given by a vector index. -/
  | shflIdx (e : Enc)
  /-- R125: Reads a value from a thread given by an immediate. -/
  | shflIdxImm (e : Enc)
  /-- R125: Reads from thread t minus a uniform amount. -/
  | shflUp (e : Enc)
  /-- R125: Reads from thread t minus an immediate. -/
  | shflUpImm (e : Enc)
  /-- R125: Reads from thread t plus a uniform amount. -/
  | shflDown (e : Enc)
  /-- R125: Reads from thread t plus an immediate. -/
  | shflDownImm (e : Enc)
  /-- R125: Reads from thread t xor a uniform amount. -/
  | shflXor (e : Enc)
  /-- R125: Reads from thread t xor an immediate. -/
  | shflXorImm (e : Enc)
  /-- R126: Broadcasts one thread's value, the lane given by a uniform register. -/
  | bcst (e : Enc)
  /-- R126: Broadcasts one thread's value, the lane given by an immediate. -/
  | bcstImm (e : Enc)
  /-- R127: Reduces by wrapping addition into a uniform register. -/
  | lredAdd (e : Enc)
  /-- R127: Reduces by minimum into a uniform register. -/
  | lredMin (e : Enc)
  /-- R127: Reduces by maximum into a uniform register. -/
  | lredMax (e : Enc)
  /-- R127: Reduces by bitwise AND. -/
  | lredAnd (e : Enc)
  /-- R127: Reduces by bitwise OR. -/
  | lredOr (e : Enc)
  /-- R127: Reduces by bitwise XOR. -/
  | lredXor (e : Enc)
  /-- R128: Sums binary32 values over the pack through the accumulation chain. -/
  | radd (e : Enc)
  /-- R128: Inclusive binary32 scan through the accumulation chain. -/
  | rscanInc (e : Enc)
  /-- R128: Exclusive binary32 scan through the accumulation chain. -/
  | rscanExc (e : Enc)
  /-- R129: Writes the mask of threads with an equal value. -/
  | matchAny (e : Enc)
  /-- R129: Sets a predicate if the value is equal in every thread. -/
  | matchAll (e : Enc)
  /-- R130: Writes the mask of non-exited threads of the pack. -/
  | actv (e : Enc)
  /-- R246: Loads per-thread data or capabilities through a capability. -/
  | ldVector (e : Enc)
  /-- R247: Loads one uniform value through a per-pack capability. -/
  | ldUniform (e : Enc)
  /-- R246: Stores per-thread data or capabilities through a capability. -/
  | stVector (e : Enc)
  /-- R247: Stores one uniform value through a per-pack capability. -/
  | stUniform (e : Enc)
  /-- R248: Gathers with out-of-bounds threads returning zero and a predicate. -/
  | ldg (e : Enc)
  /-- R248: Scatters with out-of-bounds threads skipped and a predicate. -/
  | stg (e : Enc)
  /-- R249: Derives a narrower capability by bounds or permissions from a register. -/
  | cder (e : Enc)
  /-- R249: Derives a narrower capability with an immediate length. -/
  | cderImm (e : Enc)
  /-- R250: Reads one field of a capability. -/
  | cget (e : Enc)
  /-- R251: Sets a capability's cursor. -/
  | cset (e : Enc)
  /-- R251: Adds a register to a capability's cursor. -/
  | cadd (e : Enc)
  /-- R251: Adds an immediate to a capability's cursor. -/
  | caddImm (e : Enc)
  /-- R252: Tests a capability's tag or subset relation into a predicate. -/
  | ctst (e : Enc)
  /-- R252: Copies a capability with its tag cleared. -/
  | cclr (e : Enc)
  /-- R253: Warms translation and optionally compression metadata. -/
  | pgprf (e : Enc)
  /-- R275: Adds a berth bound to a launch mooring. -/
  | bind (e : Enc)
  /-- R276: Removes a berth when no pack holds or waits for its mooring. -/
  | unbind (e : Enc)
  /-- R277: Requests a berth's mooring, plain, try or counted. -/
  | acq (e : Enc)
  /-- R278: Commits interval stores and releases the pack's hold on a mooring. -/
  | rel (e : Enc)
  /-- R279: Release, acquire or cross-path fence at a scope. -/
  | fence (e : Enc)
  /-- R287: Integer atomic read-modify-write at the home quay returning the old value. -/
  | atomInt (e : Enc)
  /-- R287: Floating-point atomic add, min or max at the home quay. -/
  | atomFloat (e : Enc)
  /-- R289: Integer reduction sent to the cluster gather buffer. -/
  | redInt (e : Enc)
  /-- R289: Floating-point reduction sent to the cluster gather buffer. -/
  | redFloat (e : Enc)
  /-- R296: Loads an item and sets the pack's reservation on its granule. -/
  | lr (e : Enc)
  /-- R297: Stores only if the reservation still holds, then clears it. -/
  | sc (e : Enc)
  /-- R298: Waits until a masked comparison on a memory item holds. -/
  | waitc (e : Enc)
  /-- R302: Subscribes a standing slot in SPM1 to a memory item. -/
  | stand (e : Enc)
  /-- R308: Ends a standing subscription, waiting for the quay's acknowledgement. -/
  | unstand (e : Enc)
  /-- R309: Reads a standing slot, optionally waiting for its SEQ to change. -/
  | stq (e : Enc)
  /-- R211: Defines a tile over a scratchpad window. -/
  | tdef (e : Enc)
  /-- R213: Renames a tile handle or defines a view. -/
  | tmov (e : Enc)
  /-- R215: Stalls until a tile is ready, or its fill count is zero. -/
  | twait (e : Enc)
  /-- R216: Writes a snapshot of a tile entry. -/
  | tstat (e : Enc)
  /-- R217: Waits for a tile to be ready and makes it empty. -/
  | trel (e : Enc)
  /-- R218: Fills every row of a tile with a repeated element pattern. -/
  | tfill (e : Enc)
  /-- R316: Issues an N-dimensional copy from a 16-word descriptor. -/
  | cpy (e : Enc)
  /-- R327: Issues a copy carrying a follow-on matrix command. -/
  | cpyMm (e : Enc)
  /-- R328: Issues a reduce-copy combining source elements into the destination. -/
  | cpyr (e : Enc)
  /-- R340: Issues a copy that pushes its element stream into a stream queue. -/
  | cpyq (e : Enc)
  /-- R334: Sets a named barrier's expected count from a register. -/
  | bari (e : Enc)
  /-- R334: Sets a named barrier's expected count from an immediate. -/
  | bariImm (e : Enc)
  /-- R336: Arrives at a named barrier given in a register. -/
  | barr (e : Enc)
  /-- R336: Arrives at a named barrier given by immediate. -/
  | barrImm (e : Enc)
  /-- R336: Waits on a named barrier given in a register. -/
  | barw (e : Enc)
  /-- R336: Waits on a named barrier given by immediate. -/
  | barwImm (e : Enc)
  /-- R336: Arrives at and then waits on a named barrier given in a register. -/
  | barx (e : Enc)
  /-- R336: Arrives at and then waits on a named barrier given by immediate. -/
  | barxImm (e : Enc)
  /-- R338: Pushes a data entry or end marker into a stream queue. -/
  | qpush (e : Enc)
  /-- R339: Pops the head entry of a stream queue. -/
  | qpop (e : Enc)
  /-- R341: Writes a queue's status word without waiting. -/
  | qpeek (e : Enc)
  /-- R345: Starts the fox slot's stream micro-program. -/
  | foxgo (e : Enc)
  /-- R345: Stops a running fox slot at its next instruction boundary. -/
  | foxhalt (e : Enc)
  /-- R360: Loads a B operand into a group of CIM macros. -/
  | mldb (e : Enc)
  /-- R362: Empties the macros of a loaded group. -/
  | mrel (e : Enc)
  /-- R363: Integer-family matrix multiply-accumulate into a tile. -/
  | mmaInt (e : Enc)
  /-- R363: Floating-point-family matrix multiply-accumulate into a tile. -/
  | mmaFloat (e : Enc)
  /-- R370: Sliced floating-point matrix multiply with exact recombination. -/
  | mms (e : Enc)
  /-- R373: Converts an accumulator tile into a destination tile. -/
  | maccTile (e : Enc)
  /-- R374: Converts accumulator elements into the pack's registers. -/
  | maccRegs (e : Enc)
  /-- R376: Zeroes a tile and clears its matrix flag word. -/
  | mzero (e : Enc)
  /-- R382: Reads matrix flags, loss bits, the loss record or a macro record. -/
  | mstat (e : Enc)
  /-- R377: Quantises a tile into block-format data and scales. -/
  | mxq (e : Enc)
  /-- R377: Dequantises a block-format tile. -/
  | mxdq (e : Enc)
  /-- R378: Transposes a tile. -/
  | mtr (e : Enc)
  /-- R414: Allots the lowest free graph record, waiting on an empty pool. -/
  | grec (e : Enc)
  /-- R414: Emits a record into a node's open batch, launching a full batch. -/
  | gemit (e : Enc)
  /-- R414: Marks a record for freeing at the crew's next commit. -/
  | gfree (e : Enc)
  /-- R414: Writes pool or node status. -/
  | gpool (e : Enc)
  /-- R426: Queues a cut selection or object validation on the sett engine. -/
  | cutsel (e : Enc)
  /-- R440: Loads a cluster's vertices and triangles into registers. -/
  | clfetch (e : Enc)
  /-- R431: Submits list entries or records to the raster unit. -/
  | rsub (e : Enc)
  /-- R439: Stalls until outstanding geometry operations number n or fewer. -/
  | rwait (e : Enc)
  /-- R435: Starts a ray query per thread. -/
  | rayq (e : Enc)
  /-- R436: Delivers the next, committed or no ray candidate. -/
  | raynx (e : Enc)
  /-- R441: Splits a visibility word into its fields. -/
  | visd (e : Enc)
  /-- R491: Reads the store hash or commit index, or mixes a value into the hash. -/
  | dhash (e : Enc)
  /-- R492: Appends or checks a Track-mode mark entry. -/
  | dmark (e : Enc)
  /-- R57: A fetched instruction with an unassigned OP traps ILLOP subcode 1. -/
  | unassignedOpcode (op : BitVec 8) (e : Enc)
  /-- R445: Delivers the oldest pending deferred trap at the pack's next selection. -/
  | deferredTrapDelivery (pack : Nat)
  /-- R99: A pack passed over for 256 cycles is raised to class 4. -/
  | issueStarvation (pack : Nat)
  /-- R101: A thread whose age reaches 1,024 is selected first. -/
  | subsetAgeLimit (pack : Nat)
  /-- R134: A missing register-file line is refilled and the stalled instruction issues. -/
  | lineRefill (pack row : Nat)
  /-- R140: A forwarding-table entry drains onto the lane path. -/
  | spillDrain (core : Nat)
  /-- R231: A page walk completes, succeeding or faulting. -/
  | translationWalk (core asid va kind space : Nat)
  /-- R499: Writes a waiting fault record once the fault ring has room. -/
  | faultRecordPost
  /-- R233: Host response that retranslates every stalled requester of a page. -/
  | faultRetry (asid page : Nat)
  /-- R233: Host response that makes stalled requesters of a page take XLATE. -/
  | faultFatal (asid page : Nat)
  /-- R26: A quay starts a new 64-quay-cycle grant window. -/
  | quayGrantWindow (quay : Nat)
  /-- R258: The quay grants waiting mooring requests after a state change or arrival. -/
  | mooringGrant (launch moor : Nat)
  /-- R298: A committed write satisfies an armed monitor and wakes the waiting pack. -/
  | monitorWake (pack : Nat)
  /-- R300: Every 4,096 quay cycles the re-poll list is re-evaluated. -/
  | repoll (quay : Nat)
  /-- R291: The home quay recalls and combines gathered partials of a granule. -/
  | recall (gran : Nat)
  /-- R291: A subscribed granule's partials are recalled 4,096 quay cycles after a red. -/
  | recallTimeout (gran : Nat)
  /-- R304: A standing-load push lands in its slot and the pending push is sent. -/
  | pushDelivery (sub : Nat)
  /-- R308: The quay acknowledges an unstand after its last push lands. -/
  | unstandAck (sub : Nat)
  /-- R324: A copy's last byte lands; tile counts fall and the barrier arrival is counted. -/
  | copyComplete (cp : Nat)
  /-- R325: A copy meeting a fault or integrity error is abandoned for replay. -/
  | copyAbandon (cp cause : Nat)
  /-- R327: The copy engine hands a follow-on matrix command to the sequencer. -/
  | followOnHandover (cp : Nat)
  /-- R328: A staged reduce-copy applies its elements atomically. -/
  | cpyrApply (cp : Nat)
  /-- R340: A queue copy pushes its entries when the queue has room. -/
  | cpyqPush (cp : Nat)
  /-- R368: The macro sequencer completes one step of a matrix instruction. -/
  | sequencerStep (core : Nat)
  /-- R367: A matrix instruction completes and lowers its tile counts. -/
  | matrixComplete (core : Nat)
  /-- R430: A cut selection completes and writes its status word. -/
  | cutselComplete (geo : Nat)
  /-- R433: A raster operation completes its visibility writes. -/
  | rsubComplete (geo : Nat)
  /-- R453: A b0 phase completes and the crew's interval commits. -/
  | checkpoint (crew : Nat)
  /-- R458: A crew consumes an uncorrectable error and rolls back or aborts. -/
  | uceConsume (crew sub : Nat)
  /-- R464: A pack's idle count reaches the limit and it takes WDOG. -/
  | watchdogExpire (pack : Nat)
  /-- R478: A replay order gate admits the access of the head chunk's pack. -/
  | gateAdmit (launch quay : Nat)
  /-- R389: A 64-byte write to a queue's NOTIFY register offers a new write index. -/
  | notify (queue off size : Nat) (nwidx : BitVec 64)
  /-- R388: Writing 1 to STATUS HALT clears HALT and ERRC and resumes the queue. -/
  | haltClear (queue : Nat)
  /-- R498: A write to a register with no behaviour of its own. -/
  | registerWrite (addr size : Nat) (val : BitVec 64)
  /-- R396: A LAUNCH packet reads and checks its header and starts placement. -/
  | launch (queue : Nat)
  /-- R408: A GRAPH packet starts a graph launch. -/
  | graph (queue : Nat)
  /-- R392: A COPY packet starts a host-class copy. -/
  | copy (queue : Nat)
  /-- R392: A SIGNAL packet stores or adds to a target as a system release. -/
  | signal (queue : Nat)
  /-- R392: A WAIT packet holds later packets until its condition holds. -/
  | wait (queue : Nat)
  /-- R392: A MARK packet enters the next Track launch's dispatch track. -/
  | mark (queue : Nat)
  /-- R392: A WAIT packet's condition holds and later packets proceed. -/
  | waitComplete (queue : Nat)
  /-- R392: A COPY packet's last byte is written and its DONE word is written. -/
  | copyPacketComplete (queue idx : Nat)
  /-- R392: Every crew of a launch has ended and its completion word is written. -/
  | launchComplete (launch : Nat)
  /-- R412: A graph launch with no crews and no batched records completes. -/
  | graphComplete (launch : Nat)
  /-- R394: The queue mapper gives a pending queue an active slot. -/
  | slotGrant (queue : Nat)
  /-- R394: Each full 2 ms pending raises a queue's effective priority. -/
  | priorityAgeing (queue : Nat)
  /-- R394: A slot held 200 µs becomes takeable by an equal-priority queue. -/
  | slotSliceExpire (queue : Nat)
  /-- R399: The dispatcher places a gang's crews on cores. -/
  | crewPlace (launch : Nat)
  /-- R401: A pre-empted or swapped crew is placed again and its subscriptions rebound. -/
  | crewReturn (crew : Nat)
  /-- R403: A gang's issue quantum ends and it is pre-empted or the quantum restarts. -/
  | quantumEnd (gang : Nat)
  /-- R404: A crew whose packs all wait is swapped out. -/
  | swapOut (crew : Nat)
  /-- R405: After 50 µs without a checkpoint the crew is saved mid-interval. -/
  | preemptWindowExpire (crew : Nat)
  /-- R407: A device-launch table entry starts its launch. -/
  | deviceLaunchStart
  /-- R411: A partly filled batch launches TOUT µs after its first record. -/
  | batchTimeout (launch node : Nat)
  /-- R411: A partly filled batch launches when every graph crew waits in grec or none exists. -/
  | batchQuiescentLaunch (launch node : Nat)
  /-- R235: Management command that invalidates translations of an ASID range. -/
  | invalidate
  /-- R405: Management command that pre-empts every crew of a queue. -/
  | preempt
  /-- R500: Management command that runs a supervisor launch. -/
  | launchSv
  /-- R488: Management command that writes a signed manifest. -/
  | makeManifest
  /-- R489: Management command that compares two manifests. -/
  | compareManifest
  /-- R503: Management command that sets the package power cap. -/
  | setCap
  /-- R502: Management command that writes a signed attestation report. -/
  | attest
  /-- R387: QUEUE-CTL action that reads a ring descriptor and enables the queue. -/
  | queueEnable
  /-- R387: QUEUE-CTL action that disables a queue once its work drains. -/
  | queueDisable
  /-- R500: Writes a waiting event once the event ring has room. -/
  | eventPost
  /-- R501: Kaltia verifies firmware, trains links, clears tables and sets READY. -/
  | powerOnReset (bootErr : Nat) (cxl : List (Nat × Nat)) (asidt : Nat) (ports : List (Nat × Nat))
  /-- R501: Aborts every launch and clears ring indices, queue state and quay tables. -/
  | functionLevelReset
  /-- R503: Each 1 ms average draw is held at the cap by lowering or stopping clocks. -/
  | powerCapWindow (watts : Nat)
  /-- R504: A die reaching 105 °C lowers the clocks. -/
  | thermalThrottle
  /-- R504: A die reaching 115 °C stops every clock and sets THERM. -/
  | thermalTrip
  /-- R504: Clocks restart when every die falls to 95 °C. -/
  | thermalRestart
  /-- R504: Coolant flow below 2.0 L/min caps the package at 2,000 W. -/
  | coolantFlowLow
  /-- R494: A flit failing its check is replayed from the sender's buffer. -/
  | flitReplay (port : Nat) (ok : Bool)
  /-- R496: A request from a Hjelpex peer executes at its home quay. -/
  | linkRequest (req : LinkReq)
  /-- R391: A taken packet whose TYPE lies outside 1 to 6 sets HALT with ERRC 2 and does nothing else. -/
  | badPacket (queue : Nat)
  /-- R500: A management command with an unassigned opcode completes with an event of status 1. -/
  | badCommand
  /-- R504: Coolant flow returning to at least 2.0 L/min lifts the 2,000 W cap on the module. -/
  | coolantFlowRestored
  deriving DecidableEq, Repr

end Sys2Proof
end

