-- ==== Sys2Proof/WellFormed.lean ====
section
/-! DEFINITION. Which instructions are terms of this hardware: an unassigned opcode is really unassigned (02 R55), and an
event names units that exist (01 R18, R19).  The encoding rules of R57 are no matter of well-formedness: an instruction
that breaks them is fetched and traps ILLOP (Machine/Illop.lean). -/

namespace Sys2Proof

/-- The opcode values that the map of R55 leaves unassigned. -/
def opUnassigned (op : Nat) : Bool :=
  (0x16 ≤ op && op ≤ 0x1F) || op == 0x5F || (0x7D ≤ op && op ≤ 0x7F) || op == 0x9E || op == 0x9F ||
    (0xB7 ≤ op && op ≤ 0xBF) || (0xD9 ≤ op)

/-- Core numbers (01 R18). -/
def coreOk (n : Nat) : Bool := n < 1024
/-- Package quay numbers (01 R18). -/
def quayOk (n : Nat) : Bool := n < 256
/-- Queue numbers (13 R386). -/
def queueOk (n : Nat) : Bool := n < 1024
/-- Address-space identifiers (08 R229). -/
def asidOk (n : Nat) : Bool := n < 4096
/-- Numbers of 64 KiB pages of the 54-bit address space (17 R498). -/
def pageOk (n : Nat) : Bool := n < 2 ^ 38
/-- Granules of the 56-bit physical space (00 R8). -/
def granOk (n : Nat) : Bool := n < 2 ^ 50
/-- Nodes of a work graph (13 R408). -/
def nodeOk (n : Nat) : Bool := 0 < n && n < 256

/-- Well-formed instructions and events. -/
def WellFormed : Instr → Bool
  | .unassignedOpcode op _ => opUnassigned op.toNat
  | .nop _ => true
  | .bra _ => true
  | .brx _ => true
  | .call _ => true
  | .callReg _ => true
  | .ret _ => true
  | .conv _ => true
  | .exit _ => true
  | .loop _ => true
  | .loopImm _ => true
  | .lbrk _ => true
  | .yield _ => true
  | .trap _ => true
  | .trapReg _ => true
  | .tret _ => true
  | .tbnd _ => true
  | .sflg _ => true
  | .sysr _ => true
  | .sysrImm _ => true
  | .sysw _ => true
  | .syswImm _ => true
  | .lnch _ => true
  | .mov _ => true
  | .movImm _ => true
  | .movs _ => true
  | .iadd _ => true
  | .iaddImm _ => true
  | .isub _ => true
  | .isubImm _ => true
  | .imul _ => true
  | .imulImm _ => true
  | .imad _ => true
  | .idiv _ => true
  | .imin _ => true
  | .iminImm _ => true
  | .imax _ => true
  | .imaxImm _ => true
  | .iabs _ => true
  | .ineg _ => true
  | .bfn _ => true
  | .shf _ => true
  | .shfImm _ => true
  | .bfx _ => true
  | .bfi _ => true
  | .popc _ => true
  | .clz _ => true
  | .brev _ => true
  | .icmp _ => true
  | .icmpImm _ => true
  | .sel _ => true
  | .lea _ => true
  | .leaImm _ => true
  | .rkeep _ => true
  | .rflush _ => true
  | .faddF32 _ => true
  | .faddF64 _ => true
  | .fmulF32 _ => true
  | .fmulF64 _ => true
  | .ffmaF32 _ => true
  | .ffmaF64 _ => true
  | .fdiv _ => true
  | .fsqrt _ => true
  | .frcp _ => true
  | .frsq _ => true
  | .fex2 _ => true
  | .flg2 _ => true
  | .fsin _ => true
  | .fcos _ => true
  | .fmin _ => true
  | .fmax _ => true
  | .fcmp _ => true
  | .fclass _ => true
  | .frnd _ => true
  | .fscb _ => true
  | .flgb _ => true
  | .fcsg _ => true
  | .f2i _ => true
  | .i2f _ => true
  | .f2f _ => true
  | .cvtpk _ => true
  | .cvtup _ => true
  | .qscl _ => true
  | .slres _ => true
  | .fflg _ => true
  | .frm _ => true
  | .voteAll _ => true
  | .voteAny _ => true
  | .voteBallot _ => true
  | .pfn _ => true
  | .pmov _ => true
  | .srd _ => true
  | .swr _ => true
  | .shflIdx _ => true
  | .shflIdxImm _ => true
  | .shflUp _ => true
  | .shflUpImm _ => true
  | .shflDown _ => true
  | .shflDownImm _ => true
  | .shflXor _ => true
  | .shflXorImm _ => true
  | .bcst _ => true
  | .bcstImm _ => true
  | .lredAdd _ => true
  | .lredMin _ => true
  | .lredMax _ => true
  | .lredAnd _ => true
  | .lredOr _ => true
  | .lredXor _ => true
  | .radd _ => true
  | .rscanInc _ => true
  | .rscanExc _ => true
  | .matchAny _ => true
  | .matchAll _ => true
  | .actv _ => true
  | .ldVector _ => true
  | .ldUniform _ => true
  | .stVector _ => true
  | .stUniform _ => true
  | .ldg _ => true
  | .stg _ => true
  | .cder _ => true
  | .cderImm _ => true
  | .cget _ => true
  | .cset _ => true
  | .cadd _ => true
  | .caddImm _ => true
  | .ctst _ => true
  | .cclr _ => true
  | .pgprf _ => true
  | .bind _ => true
  | .unbind _ => true
  | .acq _ => true
  | .rel _ => true
  | .fence _ => true
  | .atomInt _ => true
  | .atomFloat _ => true
  | .redInt _ => true
  | .redFloat _ => true
  | .lr _ => true
  | .sc _ => true
  | .waitc _ => true
  | .stand _ => true
  | .unstand _ => true
  | .stq _ => true
  | .tdef _ => true
  | .tmov _ => true
  | .twait _ => true
  | .tstat _ => true
  | .trel _ => true
  | .tfill _ => true
  | .cpy _ => true
  | .cpyMm _ => true
  | .cpyr _ => true
  | .cpyq _ => true
  | .bari _ => true
  | .bariImm _ => true
  | .barr _ => true
  | .barrImm _ => true
  | .barw _ => true
  | .barwImm _ => true
  | .barx _ => true
  | .barxImm _ => true
  | .qpush _ => true
  | .qpop _ => true
  | .qpeek _ => true
  | .foxgo _ => true
  | .foxhalt _ => true
  | .mldb _ => true
  | .mrel _ => true
  | .mmaInt _ => true
  | .mmaFloat _ => true
  | .mms _ => true
  | .maccTile _ => true
  | .maccRegs _ => true
  | .mzero _ => true
  | .mstat _ => true
  | .mxq _ => true
  | .mxdq _ => true
  | .mtr _ => true
  | .grec _ => true
  | .gemit _ => true
  | .gfree _ => true
  | .gpool _ => true
  | .cutsel _ => true
  | .clfetch _ => true
  | .rsub _ => true
  | .rwait _ => true
  | .rayq _ => true
  | .raynx _ => true
  | .visd _ => true
  | .dhash _ => true
  | .dmark _ => true
  | .deferredTrapDelivery _ => true
  | .issueStarvation _ => true
  | .subsetAgeLimit _ => true
  | .lineRefill _ row => row < 2368
  | .spillDrain core => coreOk core
  | .translationWalk core asid va kind space => coreOk core && asidOk asid && va < 2 ^ 54 && kind < 3 && space < 10
  | .faultRecordPost => true
  | .faultRetry asid page => asidOk asid && pageOk page
  | .faultFatal asid page => asidOk asid && pageOk page
  | .quayGrantWindow quay => quayOk quay
  | .mooringGrant _ moor => moor < 65536
  | .monitorWake _ => true
  | .repoll quay => quayOk quay
  | .recall gran => granOk gran
  | .recallTimeout gran => granOk gran
  | .pushDelivery _ => true
  | .unstandAck _ => true
  | .copyComplete _ => true
  | .copyAbandon _ cause => cause < 512
  | .followOnHandover _ => true
  | .cpyrApply _ => true
  | .cpyqPush _ => true
  | .sequencerStep core => coreOk core
  | .matrixComplete core => coreOk core
  | .cutselComplete _ => true
  | .rsubComplete _ => true
  | .checkpoint _ => true
  | .uceConsume _ code => 0 < code % 16 && code % 16 < 13
  | .watchdogExpire _ => true
  | .gateAdmit _ quay => quayOk quay
  | .notify queue off _ _ => queueOk queue && off < 4096
  | .haltClear queue => queueOk queue
  | .registerWrite addr _ _ => addr < 65536
  | .launch queue => queueOk queue
  | .graph queue => queueOk queue
  | .copy queue => queueOk queue
  | .signal queue => queueOk queue
  | .wait queue => queueOk queue
  | .mark queue => queueOk queue
  | .waitComplete queue => queueOk queue
  | .copyPacketComplete queue _ => queueOk queue
  | .launchComplete _ => true
  | .graphComplete _ => true
  | .slotGrant queue => queueOk queue
  | .priorityAgeing queue => queueOk queue
  | .slotSliceExpire queue => queueOk queue
  | .crewPlace _ => true
  | .crewReturn _ => true
  | .quantumEnd _ => true
  | .swapOut _ => true
  | .preemptWindowExpire _ => true
  | .deviceLaunchStart => true
  | .batchTimeout _ node => nodeOk node
  | .batchQuiescentLaunch _ node => nodeOk node
  | .invalidate => true
  | .preempt => true
  | .launchSv => true
  | .makeManifest => true
  | .compareManifest => true
  | .setCap => true
  | .attest => true
  | .queueEnable => true
  | .queueDisable => true
  | .eventPost => true
  | .powerOnReset bootErr cxl asidt ports => (ports.all fun x => x.1 < 128 && x.2 < 512) && bootErr < 6 && (cxl.all fun x => x.1 < 16) && asidt % 16 == 0 && asidt + 65536 ≤ 2 ^ 40
  | .functionLevelReset => true
  | .powerCapWindow _ => true
  | .thermalThrottle => true
  | .thermalTrip => true
  | .thermalRestart => true
  | .coolantFlowLow => true
  | .flitReplay port _ => port < 128
  | .linkRequest req => req.pa < 2 ^ 40 && (req.size == 1 || req.size == 2 || req.size == 4 || req.size == 8 || req.size == 16) && req.pa % req.size == 0 && req.ty < 32
  | .badPacket queue => queueOk queue
  | .badCommand => true
  | .coolantFlowRestored => true

end Sys2Proof
end

