-- ==== Sys2Proof/Decode.lean ====
section
/-! DEFINITION. Decoding and encoding (02 R32 to R55).  Decoding is total on bytes: every first word names an
instruction, unassigned opcodes included, and an encoding that breaks R57 decodes and then traps ILLOP (Machine/Illop.lean).
Only a byte list that ends inside the instruction is refused. -/

namespace Sys2Proof

/-- The field of `n` bits of `w` that begins at bit `lo`. -/
def field (w lo n : Nat) : Nat := w / 2 ^ lo % 2 ^ n

/-- A one-bit field as a Bool. -/
def flag (w lo : Nat) : Bool := w / 2 ^ lo % 2 == 1

/-- Word 1 and word 2 of the extended form (R38, R39). -/
def decodeExt (w1 w2 : Nat) : Ext where
  mod := BitVec.ofNat 6 (field w1 26 6)
  rc := flag w1 25
  rb := flag w1 24
  ra := flag w1 23
  gx := flag w1 22
  rm := BitVec.ofNat 3 (field w1 19 3)
  t := BitVec.ofNat 5 (field w1 14 5)
  c := BitVec.ofNat 8 (field w1 6 8)
  bx := BitVec.ofNat 2 (field w1 4 2)
  ax := BitVec.ofNat 2 (field w1 2 2)
  dx := BitVec.ofNat 2 (field w1 0 2)
  imm := BitVec.ofNat 16 (field w2 16 16)
  kd := flag w2 15
  ka := flag w2 14
  kb := flag w2 13
  kc := flag w2 12
  mc := BitVec.ofNat 2 (field w2 10 2)
  mb := BitVec.ofNat 2 (field w2 8 2)
  ma := BitVec.ofNat 2 (field w2 6 2)
  bw := BitVec.ofNat 3 (field w2 3 3)
  bh := BitVec.ofNat 3 (field w2 0 3)

/-- The first word's fields beside OP and L (R35), with the words that follow. -/
def decodeEnc (w0 : Nat) (ext : Option Ext) (lit : Option W64) : Enc where
  b := BitVec.ofNat 6 (field w0 26 6)
  a := BitVec.ofNat 6 (field w0 20 6)
  d := BitVec.ofNat 6 (field w0 14 6)
  gn := flag w0 13
  g := BitVec.ofNat 3 (field w0 10 3)
  ext := ext
  lit := lit

/-- Row 0x0_ of the opcode map (R55); `none` is an unassigned value. -/
def opRow0 : List (Option (Enc → Instr)) :=
  [some .nop, some .bra, some .brx, some .call, some .callReg, some .ret, some .conv, some .exit, some .loop, some .loopImm, some .lbrk, some .yield, some .trap, some .trapReg, some .tret, some .tbnd]

/-- Row 0x1_ of the opcode map (R55); `none` is an unassigned value. -/
def opRow1 : List (Option (Enc → Instr)) :=
  [some .sflg, some .sysr, some .sysrImm, some .sysw, some .syswImm, some .lnch, none, none, none, none, none, none, none, none, none, none]

/-- Row 0x2_ of the opcode map (R55); `none` is an unassigned value. -/
def opRow2 : List (Option (Enc → Instr)) :=
  [some .mov, some .movImm, some .movs, some .iadd, some .iaddImm, some .isub, some .isubImm, some .imul, some .imulImm, some .imad, some .idiv, some .imin, some .iminImm, some .imax, some .imaxImm, some .iabs]

/-- Row 0x3_ of the opcode map (R55); `none` is an unassigned value. -/
def opRow3 : List (Option (Enc → Instr)) :=
  [some .ineg, some .bfn, some .shf, some .shfImm, some .bfx, some .bfi, some .popc, some .clz, some .brev, some .icmp, some .icmpImm, some .sel, some .lea, some .leaImm, some .rkeep, some .rflush]

/-- Row 0x4_ of the opcode map (R55); `none` is an unassigned value. -/
def opRow4 : List (Option (Enc → Instr)) :=
  [some .faddF32, some .faddF64, some .fmulF32, some .fmulF64, some .ffmaF32, some .ffmaF64, some .fdiv, some .fsqrt, some .frcp, some .frsq, some .fex2, some .flg2, some .fsin, some .fcos, some .fmin, some .fmax]

/-- Row 0x5_ of the opcode map (R55); `none` is an unassigned value. -/
def opRow5 : List (Option (Enc → Instr)) :=
  [some .fcmp, some .fclass, some .frnd, some .fscb, some .flgb, some .fcsg, some .f2i, some .i2f, some .f2f, some .cvtpk, some .cvtup, some .qscl, some .slres, some .fflg, some .frm, none]

/-- Row 0x6_ of the opcode map (R55); `none` is an unassigned value. -/
def opRow6 : List (Option (Enc → Instr)) :=
  [some .voteAll, some .voteAny, some .voteBallot, some .pfn, some .pmov, some .srd, some .swr, some .shflIdx, some .shflIdxImm, some .shflUp, some .shflUpImm, some .shflDown, some .shflDownImm, some .shflXor, some .shflXorImm, some .bcst]

/-- Row 0x7_ of the opcode map (R55); `none` is an unassigned value. -/
def opRow7 : List (Option (Enc → Instr)) :=
  [some .bcstImm, some .lredAdd, some .lredMin, some .lredMax, some .lredAnd, some .lredOr, some .lredXor, some .radd, some .rscanInc, some .rscanExc, some .matchAny, some .matchAll, some .actv, none, none, none]

/-- Row 0x8_ of the opcode map (R55); `none` is an unassigned value. -/
def opRow8 : List (Option (Enc → Instr)) :=
  [some .ldVector, some .ldUniform, some .stVector, some .stUniform, some .ldg, some .stg, some .cder, some .cderImm, some .cget, some .cset, some .cadd, some .caddImm, some .ctst, some .cclr, some .pgprf, some .bind]

/-- Row 0x9_ of the opcode map (R55); `none` is an unassigned value. -/
def opRow9 : List (Option (Enc → Instr)) :=
  [some .unbind, some .acq, some .rel, some .fence, some .atomInt, some .atomFloat, some .redInt, some .redFloat, some .lr, some .sc, some .waitc, some .stand, some .unstand, some .stq, none, none]

/-- Row 0xA_ of the opcode map (R55); `none` is an unassigned value. -/
def opRowA : List (Option (Enc → Instr)) :=
  [some .tdef, some .tmov, some .twait, some .tstat, some .trel, some .tfill, some .cpy, some .cpyMm, some .cpyr, some .cpyq, some .bari, some .bariImm, some .barr, some .barrImm, some .barw, some .barwImm]

/-- Row 0xB_ of the opcode map (R55); `none` is an unassigned value. -/
def opRowB : List (Option (Enc → Instr)) :=
  [some .barx, some .barxImm, some .qpush, some .qpop, some .qpeek, some .foxgo, some .foxhalt, none, none, none, none, none, none, none, none, none]

/-- Row 0xC_ of the opcode map (R55); `none` is an unassigned value. -/
def opRowC : List (Option (Enc → Instr)) :=
  [some .mldb, some .mrel, some .mmaInt, some .mmaFloat, some .mms, some .maccTile, some .maccRegs, some .mzero, some .mstat, some .mxq, some .mxdq, some .mtr, some .grec, some .gemit, some .gfree, some .gpool]

/-- Row 0xD_ of the opcode map (R55); `none` is an unassigned value. -/
def opRowD : List (Option (Enc → Instr)) :=
  [some .cutsel, some .clfetch, some .rsub, some .rwait, some .rayq, some .raynx, some .visd, some .dhash, some .dmark, none, none, none, none, none, none, none]

/-- The opcode map (R55), by the high digit of OP. -/
def opMap : List (List (Option (Enc → Instr))) :=
  [opRow0, opRow1, opRow2, opRow3, opRow4, opRow5, opRow6, opRow7, opRow8, opRow9, opRowA, opRowB, opRowC, opRowD]

/-- The instruction of an opcode and its fields (R55, R57). -/
def ofOp (op : Nat) (e : Enc) : Instr :=
  match (opMap.getD (op / 16) []).getD (op % 16) none with
  | some mk => mk e
  | none => .unassignedOpcode (BitVec.ofNat 8 op) e

/-- Whether an opcode value is assigned (R55). -/
def opAssigned (op : Nat) : Bool := ((opMap.getD (op / 16) []).getD (op % 16) none).isSome

/-- Four bytes as one little-endian word (R33, 00 R7). -/
def takeWord : List Byte → Option (Nat × List Byte)
  | b0 :: b1 :: b2 :: b3 :: rest =>
    some (b0.toNat + 256 * b1.toNat + 65536 * b2.toNat + 16777216 * b3.toNat, rest)
  | _ => none

/-- The bytes of an instruction, by L (R32). -/
def sizeOfL (l : Nat) : Nat :=
  match l with
  | 0 => 4
  | 1 => 12
  | 2 => 12
  | _ => 20

/-- Reads one instruction from the bytes at its address, and the bytes after it. -/
def decode (bs : List Byte) : Option (Instr × List Byte) := do
  let (w0, r0) ← takeWord bs
  let op := field w0 2 8
  match w0 % 4 with
  | 0 => some (ofOp op (decodeEnc w0 none none), r0)
  | 1 =>
    let (w1, r1) ← takeWord r0
    let (w2, r2) ← takeWord r1
    some (ofOp op (decodeEnc w0 (some (decodeExt w1 w2)) none), r2)
  | 2 =>
    let (l0, r1) ← takeWord r0
    let (l1, r2) ← takeWord r1
    some (ofOp op (decodeEnc w0 none (some (BitVec.ofNat 64 (l0 + 4294967296 * l1)))), r2)
  | _ =>
    let (w1, r1) ← takeWord r0
    let (w2, r2) ← takeWord r1
    let (l0, r3) ← takeWord r2
    let (l1, r4) ← takeWord r3
    some (ofOp op (decodeEnc w0 (some (decodeExt w1 w2)) (some (BitVec.ofNat 64 (l0 + 4294967296 * l1)))), r4)

/-- The length field L of an instruction (R32). -/
def Enc.len (e : Enc) : Nat :=
  match e.ext, e.lit with
  | none, none => 0
  | some _, none => 1
  | none, some _ => 2
  | some _, some _ => 3

/-- The bytes an instruction occupies (R32). -/
def Enc.size (e : Enc) : Nat := sizeOfL e.len

/-- A first word (R35). -/
def encodeFirst (op : Nat) (e : Enc) : Nat :=
  e.b.toNat * 67108864 + e.a.toNat * 1048576 + e.d.toNat * 16384 + bit e.gn * 8192 + e.g.toNat * 1024 + op * 4 + e.len

/-- Word 1 (R38). -/
def encodeW1 (x : Ext) : Nat :=
  x.mod.toNat * 67108864 + bit x.rc * 33554432 + bit x.rb * 16777216 + bit x.ra * 8388608 + bit x.gx * 4194304 +
    x.rm.toNat * 524288 + x.t.toNat * 16384 + x.c.toNat * 64 + x.bx.toNat * 16 + x.ax.toNat * 4 + x.dx.toNat

/-- Word 2 (R39). -/
def encodeW2 (x : Ext) : Nat :=
  x.imm.toNat * 65536 + bit x.kd * 32768 + bit x.ka * 16384 + bit x.kb * 8192 + bit x.kc * 4096 +
    x.mc.toNat * 1024 + x.mb.toNat * 256 + x.ma.toNat * 64 + x.bw.toNat * 8 + x.bh.toNat

/-- One word as four little-endian bytes. -/
def wordBytes (w : Nat) : List Byte :=
  [BitVec.ofNat 8 w, BitVec.ofNat 8 (w / 256), BitVec.ofNat 8 (w / 65536), BitVec.ofNat 8 (w / 16777216)]

/-- The bytes of an encoding with opcode `op`. -/
def encodeOp (op : Nat) (e : Enc) : List Byte :=
  wordBytes (encodeFirst op e) ++
    (match e.ext with
     | none => []
     | some x => wordBytes (encodeW1 x) ++ wordBytes (encodeW2 x)) ++
    (match e.lit with
     | none => []
     | some l => wordBytes (l.toNat % 4294967296) ++ wordBytes (l.toNat / 4294967296))

/-- The opcode and the fields of an instruction; `none` for an event, which has no encoding (R55). -/
def opcodeOf : Instr → Option (Nat × Enc)
  | .nop e => some (0x00, e)
  | .bra e => some (0x01, e)
  | .brx e => some (0x02, e)
  | .call e => some (0x03, e)
  | .callReg e => some (0x04, e)
  | .ret e => some (0x05, e)
  | .conv e => some (0x06, e)
  | .exit e => some (0x07, e)
  | .loop e => some (0x08, e)
  | .loopImm e => some (0x09, e)
  | .lbrk e => some (0x0A, e)
  | .yield e => some (0x0B, e)
  | .trap e => some (0x0C, e)
  | .trapReg e => some (0x0D, e)
  | .tret e => some (0x0E, e)
  | .tbnd e => some (0x0F, e)
  | .sflg e => some (0x10, e)
  | .sysr e => some (0x11, e)
  | .sysrImm e => some (0x12, e)
  | .sysw e => some (0x13, e)
  | .syswImm e => some (0x14, e)
  | .lnch e => some (0x15, e)
  | .mov e => some (0x20, e)
  | .movImm e => some (0x21, e)
  | .movs e => some (0x22, e)
  | .iadd e => some (0x23, e)
  | .iaddImm e => some (0x24, e)
  | .isub e => some (0x25, e)
  | .isubImm e => some (0x26, e)
  | .imul e => some (0x27, e)
  | .imulImm e => some (0x28, e)
  | .imad e => some (0x29, e)
  | .idiv e => some (0x2A, e)
  | .imin e => some (0x2B, e)
  | .iminImm e => some (0x2C, e)
  | .imax e => some (0x2D, e)
  | .imaxImm e => some (0x2E, e)
  | .iabs e => some (0x2F, e)
  | .ineg e => some (0x30, e)
  | .bfn e => some (0x31, e)
  | .shf e => some (0x32, e)
  | .shfImm e => some (0x33, e)
  | .bfx e => some (0x34, e)
  | .bfi e => some (0x35, e)
  | .popc e => some (0x36, e)
  | .clz e => some (0x37, e)
  | .brev e => some (0x38, e)
  | .icmp e => some (0x39, e)
  | .icmpImm e => some (0x3A, e)
  | .sel e => some (0x3B, e)
  | .lea e => some (0x3C, e)
  | .leaImm e => some (0x3D, e)
  | .rkeep e => some (0x3E, e)
  | .rflush e => some (0x3F, e)
  | .faddF32 e => some (0x40, e)
  | .faddF64 e => some (0x41, e)
  | .fmulF32 e => some (0x42, e)
  | .fmulF64 e => some (0x43, e)
  | .ffmaF32 e => some (0x44, e)
  | .ffmaF64 e => some (0x45, e)
  | .fdiv e => some (0x46, e)
  | .fsqrt e => some (0x47, e)
  | .frcp e => some (0x48, e)
  | .frsq e => some (0x49, e)
  | .fex2 e => some (0x4A, e)
  | .flg2 e => some (0x4B, e)
  | .fsin e => some (0x4C, e)
  | .fcos e => some (0x4D, e)
  | .fmin e => some (0x4E, e)
  | .fmax e => some (0x4F, e)
  | .fcmp e => some (0x50, e)
  | .fclass e => some (0x51, e)
  | .frnd e => some (0x52, e)
  | .fscb e => some (0x53, e)
  | .flgb e => some (0x54, e)
  | .fcsg e => some (0x55, e)
  | .f2i e => some (0x56, e)
  | .i2f e => some (0x57, e)
  | .f2f e => some (0x58, e)
  | .cvtpk e => some (0x59, e)
  | .cvtup e => some (0x5A, e)
  | .qscl e => some (0x5B, e)
  | .slres e => some (0x5C, e)
  | .fflg e => some (0x5D, e)
  | .frm e => some (0x5E, e)
  | .voteAll e => some (0x60, e)
  | .voteAny e => some (0x61, e)
  | .voteBallot e => some (0x62, e)
  | .pfn e => some (0x63, e)
  | .pmov e => some (0x64, e)
  | .srd e => some (0x65, e)
  | .swr e => some (0x66, e)
  | .shflIdx e => some (0x67, e)
  | .shflIdxImm e => some (0x68, e)
  | .shflUp e => some (0x69, e)
  | .shflUpImm e => some (0x6A, e)
  | .shflDown e => some (0x6B, e)
  | .shflDownImm e => some (0x6C, e)
  | .shflXor e => some (0x6D, e)
  | .shflXorImm e => some (0x6E, e)
  | .bcst e => some (0x6F, e)
  | .bcstImm e => some (0x70, e)
  | .lredAdd e => some (0x71, e)
  | .lredMin e => some (0x72, e)
  | .lredMax e => some (0x73, e)
  | .lredAnd e => some (0x74, e)
  | .lredOr e => some (0x75, e)
  | .lredXor e => some (0x76, e)
  | .radd e => some (0x77, e)
  | .rscanInc e => some (0x78, e)
  | .rscanExc e => some (0x79, e)
  | .matchAny e => some (0x7A, e)
  | .matchAll e => some (0x7B, e)
  | .actv e => some (0x7C, e)
  | .ldVector e => some (0x80, e)
  | .ldUniform e => some (0x81, e)
  | .stVector e => some (0x82, e)
  | .stUniform e => some (0x83, e)
  | .ldg e => some (0x84, e)
  | .stg e => some (0x85, e)
  | .cder e => some (0x86, e)
  | .cderImm e => some (0x87, e)
  | .cget e => some (0x88, e)
  | .cset e => some (0x89, e)
  | .cadd e => some (0x8A, e)
  | .caddImm e => some (0x8B, e)
  | .ctst e => some (0x8C, e)
  | .cclr e => some (0x8D, e)
  | .pgprf e => some (0x8E, e)
  | .bind e => some (0x8F, e)
  | .unbind e => some (0x90, e)
  | .acq e => some (0x91, e)
  | .rel e => some (0x92, e)
  | .fence e => some (0x93, e)
  | .atomInt e => some (0x94, e)
  | .atomFloat e => some (0x95, e)
  | .redInt e => some (0x96, e)
  | .redFloat e => some (0x97, e)
  | .lr e => some (0x98, e)
  | .sc e => some (0x99, e)
  | .waitc e => some (0x9A, e)
  | .stand e => some (0x9B, e)
  | .unstand e => some (0x9C, e)
  | .stq e => some (0x9D, e)
  | .tdef e => some (0xA0, e)
  | .tmov e => some (0xA1, e)
  | .twait e => some (0xA2, e)
  | .tstat e => some (0xA3, e)
  | .trel e => some (0xA4, e)
  | .tfill e => some (0xA5, e)
  | .cpy e => some (0xA6, e)
  | .cpyMm e => some (0xA7, e)
  | .cpyr e => some (0xA8, e)
  | .cpyq e => some (0xA9, e)
  | .bari e => some (0xAA, e)
  | .bariImm e => some (0xAB, e)
  | .barr e => some (0xAC, e)
  | .barrImm e => some (0xAD, e)
  | .barw e => some (0xAE, e)
  | .barwImm e => some (0xAF, e)
  | .barx e => some (0xB0, e)
  | .barxImm e => some (0xB1, e)
  | .qpush e => some (0xB2, e)
  | .qpop e => some (0xB3, e)
  | .qpeek e => some (0xB4, e)
  | .foxgo e => some (0xB5, e)
  | .foxhalt e => some (0xB6, e)
  | .mldb e => some (0xC0, e)
  | .mrel e => some (0xC1, e)
  | .mmaInt e => some (0xC2, e)
  | .mmaFloat e => some (0xC3, e)
  | .mms e => some (0xC4, e)
  | .maccTile e => some (0xC5, e)
  | .maccRegs e => some (0xC6, e)
  | .mzero e => some (0xC7, e)
  | .mstat e => some (0xC8, e)
  | .mxq e => some (0xC9, e)
  | .mxdq e => some (0xCA, e)
  | .mtr e => some (0xCB, e)
  | .grec e => some (0xCC, e)
  | .gemit e => some (0xCD, e)
  | .gfree e => some (0xCE, e)
  | .gpool e => some (0xCF, e)
  | .cutsel e => some (0xD0, e)
  | .clfetch e => some (0xD1, e)
  | .rsub e => some (0xD2, e)
  | .rwait e => some (0xD3, e)
  | .rayq e => some (0xD4, e)
  | .raynx e => some (0xD5, e)
  | .visd e => some (0xD6, e)
  | .dhash e => some (0xD7, e)
  | .dmark e => some (0xD8, e)
  | .unassignedOpcode op e => some (op.toNat, e)
  | .deferredTrapDelivery _ => none
  | .issueStarvation _ => none
  | .subsetAgeLimit _ => none
  | .lineRefill _ _ => none
  | .spillDrain _ => none
  | .translationWalk _ _ _ _ _ => none
  | .faultRecordPost => none
  | .faultRetry _ _ => none
  | .faultFatal _ _ => none
  | .quayGrantWindow _ => none
  | .mooringGrant _ _ => none
  | .monitorWake _ => none
  | .repoll _ => none
  | .recall _ => none
  | .recallTimeout _ => none
  | .pushDelivery _ => none
  | .unstandAck _ => none
  | .copyComplete _ => none
  | .copyAbandon _ _ => none
  | .followOnHandover _ => none
  | .cpyrApply _ => none
  | .cpyqPush _ => none
  | .sequencerStep _ => none
  | .matrixComplete _ => none
  | .cutselComplete _ => none
  | .rsubComplete _ => none
  | .checkpoint _ => none
  | .uceConsume _ _ => none
  | .watchdogExpire _ => none
  | .gateAdmit _ _ => none
  | .notify _ _ _ _ => none
  | .haltClear _ => none
  | .registerWrite _ _ _ => none
  | .launch _ => none
  | .graph _ => none
  | .copy _ => none
  | .signal _ => none
  | .wait _ => none
  | .mark _ => none
  | .waitComplete _ => none
  | .copyPacketComplete _ _ => none
  | .launchComplete _ => none
  | .graphComplete _ => none
  | .slotGrant _ => none
  | .priorityAgeing _ => none
  | .slotSliceExpire _ => none
  | .crewPlace _ => none
  | .crewReturn _ => none
  | .quantumEnd _ => none
  | .swapOut _ => none
  | .preemptWindowExpire _ => none
  | .deviceLaunchStart => none
  | .batchTimeout _ _ => none
  | .batchQuiescentLaunch _ _ => none
  | .invalidate => none
  | .preempt => none
  | .launchSv => none
  | .makeManifest => none
  | .compareManifest => none
  | .setCap => none
  | .attest => none
  | .queueEnable => none
  | .queueDisable => none
  | .eventPost => none
  | .powerOnReset _ _ _ _ => none
  | .functionLevelReset => none
  | .powerCapWindow _ => none
  | .thermalThrottle => none
  | .thermalTrip => none
  | .thermalRestart => none
  | .coolantFlowLow => none
  | .flitReplay _ _ => none
  | .linkRequest _ => none
  | .badPacket _ => none
  | .badCommand => none
  | .coolantFlowRestored => none

/-- The bytes of an instruction; an event has none. -/
def encode (i : Instr) : List Byte :=
  match opcodeOf i with
  | some (op, e) => encodeOp op e
  | none => []

/-- The bytes of the number `w`, least significant first, `n` of them. -/
def leBytes (w : Nat) : Nat → List Byte
  | 0 => []
  | n + 1 => BitVec.ofNat 8 w :: leBytes (w / 256) n

/-- The bytes of a table word: its `nbits` bits, then zeros up to the longest instruction (R32). -/
def tableBytes (nbits w : Nat) : List Byte := leBytes (w % 2 ^ nbits) 20

/-- What the decoder reads from an instruction of the opcode table whose bits are `w`. -/
def decodeTableWord (nbits w : Nat) : Option Instr := (decode (tableBytes nbits w)).map (·.1)

end Sys2Proof
end

