-- ==== Sys2Proof/Config.lean ====
section
/-! DEFINITION. What the manual leaves to the part: uninterpreted constants.  None has a body, so nothing in Lean can
evaluate one, and a claim that mentions one holds for every value of it (notes/assumptions/5.md to 9.md). -/

namespace Sys2Proof.Config

/-- A reading of %clock in Free mode (04 R121: a count of clock cycles); the argument numbers the readings. -/
opaque clock : Nat → W64

/-- Byte `i` of the SHA-256 of a byte string (16 R488, 17 R502); the manual names the function and does not state it. -/
opaque shaByte : List Byte → Nat → Byte

/-- Byte `i` of the SLH-DSA-SHA2-128s signature of a byte string with Kaltia's device key (16 R488, 17 R502). -/
opaque signByte : List Byte → Nat → Byte

/-- Byte `i` of firmware image `n`: 0 Kaltia, 1 microcode, 2 resident routines (16 R488). -/
opaque firmware : Nat → List Byte

/-- Whether the part is an AV-V3M module; otherwise it is an AV-V3C package (00 R1). -/
opaque isModule : Bool

/-- Which value within 2 ulp the Zynilo-2 tables hold for fsin of a binary32 input (06 R177): two bits name the number, one tells
whether its rounding was exact, one whether a smallest normal was tiny. -/
opaque fsinV2 : W32 → BitVec 4

/-- The same for fcos (06 R177). -/
opaque fcosV2 : W32 → BitVec 4

/-- The 16 bytes of a home partial record in a track or stamp region (10 R293); the argument numbers the records. -/
opaque recordBytes : Nat → BitVec 128

/-- The 64 bytes of an entry of a stamp region, whose layout is internal to the device (16 R486); the argument numbers the entries
written. -/
opaque stampBytes : Nat → BitVec 512

/-- The code of the interleave rule of 08 R236, as a manifest hashes it; 16 R488 names it and gives no bytes. -/
opaque interleaveCode : List Byte

/-- How far lowering `n` of the clocks for the cap takes them, as a half of the quay clock in kHz above the floor (01 R20; 16 R488
field 8; 17 R503). -/
opaque clockUnit : Nat → Nat
/-- A half of the quay clock in kHz while the temperature lowers the clocks (17 R504). -/
opaque thermalUnit : Nat

/-- Areas of HBM that hold page tables, as base and size; Kaltia clears them at bring-up (08 R229, 17 R501). -/
opaque pageTables : List (Nat × Nat)

/-- What a stochastic conversion into a uniform register uses in place of a draw under an all-zero execution mask, where
03 R90 takes no draw and 04 R112 still writes the register. -/
opaque undrawn : W32

/-- The address of the capability list in the constant space (01 R27 names it and gives no value). -/
opaque capList : BitVec 54

/-- A barycentric weight that 14 R436 does not fix: of a triangle whose vertices lie on one line, by the words of the ray and of the triangle and by the weight. -/
opaque rayWeight : List Nat → Nat → W32

/-- The status of a management command that ends in a way for which 17 R500 names none, by opcode (a LAUNCH-SV that is rejected
or meets a fatal fault, a manifest of a header that no launch has, a command that meets a fatal fault). -/
opaque openStatus : Nat → BitVec 64

/-- How bring-up ends (17 R501): the failure code, 0 for none. -/
opaque bootErr : Nat
/-- The CXL ports as bring-up configures them, by number: 0 a host port, n + 1 an expander of n GiB (17 R497). -/
opaque cxlPorts : List (Nat × Nat)
/-- Where Kaltia places the ASID table (08 R229). -/
opaque asidTable : Nat
/-- The ports that train, each with the peer it reaches, plus 256 where that peer advertises compressed holding (17 R494, R496). -/
opaque portMap : List (Nat × Nat)

/-- What %tval holds after a trap of a class and subcode whose home states no value for it (15 R444: "what the class's source
names"); the last argument is the operand concerned, where there is one. -/
opaque trapVal : Nat → Nat → W64 → W64

/-- SHA-256 as a byte string. -/
def sha256 (m : List Byte) : List Byte := (List.range 32).map (shaByte m)

/-- An SLH-DSA-SHA2-128s signature as a byte string (7,856 bytes). -/
def signature (m : List Byte) : List Byte := (List.range 7856).map (signByte m)

end Sys2Proof.Config
end

