-- ==== Sys2Proof/Machine/State.lean ====
section
/-! DEFINITION. The state of the Vyolter V3, as plain data, and the state after reset.

A `Tab β` is a finite table: a list of keys and values, keys strictly rising, no entry equal to the table's default.  The
functions over tables stand in Machine/Tab.lean.  Records that the device makes as work arrives (queues, launches, gangs,
crews, packs, copies) live in tables under numbers of the model's own, and hold a blank record elsewhere. -/

namespace Sys2Proof.Machine

/-- A finite table from numbers to values. -/
abbrev Tab (β : Type) := List (Nat × β)

/-- An instruction outcome that the machine does not take further. -/
inductive Fault where
  /-- Raised by a meaning that runs in a pack when the state names no pack that could have issued it.  Safe: no run reaches
  such a state, because `step` selects the pack first. -/
  | noIssuingPack
  deriving DecidableEq, Repr

/-- A reason for which the model gives an instruction no meaning. -/
inductive Refusal where
  /-- Raised by an arm of `exec` whose instruction has no meaning yet.  Safe: nothing is claimed of it. -/
  | notModelled (mnemonic : String)
  deriving DecidableEq, Repr

/-- A capability: 128 bits and the hidden tag (08 R220). -/
structure Cap where
  tag : Bool
  word : BitVec 128
  deriving DecidableEq, Repr

/-- The null capability (08 R220). -/
def Cap.null : Cap := ⟨false, 0⟩

/-- One entry of a loop stack (04 R108). -/
structure LoopEntry where
  start : W64
  stop : W64
  count : W64
  deriving DecidableEq, Repr

/-- What a thread holds beside its vector and capability rows (05 R142). -/
structure Thread where
  pc : W64
  exited : Bool
  /-- held at a conv at `pc` (04 R104), and the size of that conv -/
  held : Bool
  holdSize : Nat
  /-- 04 R101 -/
  age : Nat
  /-- return addresses, latest first (04 R116) -/
  calls : List W64
  /-- p0 to p15; bit 7 reads 1 (02 R36) -/
  preds : BitVec 16
  fflags : BitVec 5
  /-- dead bits of v0 to v255 (05 R137) -/
  vdead : BitVec 256
  deriving DecidableEq, Repr

/-- A deferred trap (15 R445). -/
structure Trap where
  /-- class number of 15 R444 -/
  cls : Nat
  sub : Nat
  val : W64
  mask : BitVec 64
  deriving DecidableEq, Repr

/-- The pack's trap save area (15 R448). -/
structure SaveArea where
  loops : List LoopEntry
  inHandler : Bool
  mask : BitVec 64
  next : W64
  deriving DecidableEq, Repr

/-- Why a pack waits (04 R100), or stalls on a fault (08 R233). -/
inductive WaitKind where
  | none
  /-- barw or barx on a named barrier (11 R336) -/
  | barrier (b : Nat)
  /-- acq of a launch mooring (09 R277) -/
  | acq (moor : Nat)
  /-- waitc, with a monitor or on the re-poll list (10 R298, R300) -/
  | monitor
  /-- stq.wait: the instruction is tried again when a delivery has landed (10 R309) -/
  | again
  /-- grec on an empty pool (13 R414) -/
  | record
  /-- a replayable fault on a page (08 R233) -/
  | fault (asid page : Nat)
  /-- raynx: a replayable fault of a query on a page of its region (08 R233; 14 R435, R438) -/
  | ray (asid page : Nat)
  /-- accesses at the order gates of some quays (16 R478) -/
  | gate (quays : List Nat)
  /-- the wait has ended while the crew was off its core: the instruction completes at the return (13 R404, R406) -/
  | ended
  /-- a trap at the waiting or stalled instruction has come while the crew was off its core: it is taken at the return -/
  | due (cls sub : Nat) (val : W64) (mask : BitVec 64)
  deriving DecidableEq, Repr

/-- A thread's replayable fault: thread, ASID, address, fault code (08 R233). -/
structure PFault where
  t : Nat
  asid : Nat
  va : Nat
  code : Nat
  deriving DecidableEq, Repr

/-- The wait of a pack: its kind, the size of the waiting instruction, and the faults it waits on. -/
structure Wait where
  kind : WaitKind
  size : Nat
  faults : List PFault
  deriving DecidableEq, Repr

/-- An armed monitor or re-poll entry (10 R298, R300). -/
structure Monitor where
  quay : Nat
  asid : Nat
  pa : Nat
  size : Nat
  cmp : Nat
  signed : Bool
  val : W64
  mask : W64
  /-- on the re-poll list instead of in the table -/
  poll : Bool
  /-- the condition held at a committed write -/
  hit : Bool
  deriving DecidableEq, Repr

/-- A candidate of a ray query (14 R436): its parameter t as num / den, its list index and triangle, and the words that its
delivery writes. -/
structure RayHit where
  num : Int
  den : Nat
  idx : Nat
  tri : Nat
  out : List W32
  deriving DecidableEq, Repr

/-- A live ray query (14 R435, R436): the ray, the region, the last delivered key and the current candidate. -/
structure RayQuery where
  ray : List W32
  region : Cap
  last : Option RayHit
  current : Option RayHit
  deriving DecidableEq, Repr

/-- An arrival mark: for each barrier, the phase of the first arrival after the event, if any (11 R333). -/
abbrev ArrMark := Tab (Option Nat)

/-- What the arrival of a pack's barx has done besides the count, so that it can be withdrawn (11 R333; 15 R464; 16 R484): the
barrier and phase, the marks it has made valid in gather lines (cluster and granule) and macro records, the pack's clock before it,
the order that it has given the phase, and what it carries. -/
structure Arrival where
  bar : Nat
  phase : Nat
  lines : List (Nat × Nat)
  recs : List Nat
  vc : Tab Nat
  order : Tab Nat
  carried : Tab Nat
  deriving DecidableEq, Repr

/-- How far an instruction of a Track launch has come that waits in flight (10 R283; 16 R478, R480): whether its commit has its
entry, whether the commit is done, the threads whose accesses have been made, each as its access left it, and the store hash that its
completion leaves. -/
structure Progress where
  logged : Bool
  sent : Bool
  lanes : List (Nat × Thread)
  hash : Option W64
  deriving DecidableEq, Repr

/-- A pack (04 R92) and the register context it owns (05 R131). -/
structure Pack where
  live : Bool
  launch : Nat
  crew : Nat
  /-- index in the crew -/
  idx : Nat
  /-- pack linear number (16 R477) -/
  lin : Nat
  /-- 16, 32 or 64 -/
  width : Nat
  /-- %wid of lane 0 (04 R95) -/
  wid : W64
  slot : Nat
  /-- order of placement on the core (04 R99) -/
  order : Nat
  /-- class 4 after 256 passed-over cycles (04 R99) -/
  starved : Bool
  /-- the selected subset (04 R101) -/
  sel : BitVec 64
  threads : List Thread
  /-- vN of thread t at key 64 N + t -/
  v : Tab W32
  /-- kN of thread t at key 64 N + t -/
  k : Tab Cap
  s : Tab W64
  /-- dead bits of s0 to s63 (05 R138) -/
  sdead : BitVec 64
  y : List Cap
  loops : List LoopEntry
  fenv : W32
  rm : W32
  slb : W32
  sflag : W32
  rng : W64
  tepc : W64
  tcause : W32
  tmask : W64
  tval : W64
  /-- instructions issued since first placement (04 R121) -/
  issues : Nat
  kept : BitVec 256
  save : SaveArea
  hash : W64
  commit : Nat
  /-- outstanding geometry operations (14 R419) -/
  geo : Nat
  deferred : List Trap
  wait : Wait
  /-- the arrival of the barx at which the pack waits -/
  arrival : Option Arrival
  monitor : Option Monitor
  /-- granule of the reservation (10 R296), with its arrival number at the quay -/
  resv : Option (Nat × Nat)
  /-- arrivals and observed events of 16 R484, as a vector clock over packs and engine operations -/
  vc : Tab Nat
  /-- completed engine operations that the pack has not observed yet (16 R484): agent, the kind of completion (0 tile,
  1 barrier, 2 geometry), the tile or barrier, and the phase of the barrier in which it arrived -/
  opsDone : List (Nat × Nat × Nat × Nat)
  /-- register rows the den has copied in the interval (15 R455): vN at N, quarter q of kN at 256 + 4N + q, half h of call
  entry i at 320 + 2i + h -/
  denRows : Tab Bool
  /-- rows of the pack's image that the den has copied in the interval, with their bytes by offset (05 R139; 15 R455) -/
  denImage : List (Nat × List (Nat × List Byte))
  /-- rows, numbered as in `RfLine`, whose bytes the pack's image holds (05 R134, R143) -/
  imaged : List Nat
  progress : Progress
  deriving DecidableEq, Repr

/-- A scratchpad window: its size, bytes, a tag per 16 bytes, a stored-size code per 256-byte block, and by granule the difference
of its check value from the CRC of its bytes (07 R198, R199, R202; 08 R242). -/
structure Spad where
  size : Nat
  bytes : List Host.Cell
  tags : Tab Bool
  codes : Tab (BitVec 2)
  check : Tab (BitVec 16)
  deriving DecidableEq, Repr

/-- A defined entry of the tile table (07 R204), with its matrix flag word (12 R379). -/
structure Tile where
  defined : Bool
  fill : Nat
  drain : Nat
  replay : Bool
  space : Nat
  base : Nat
  /-- geometry word (07 R212) -/
  geom : W64
  ty : Nat
  perm : Nat
  colour : Nat
  flags : BitVec 16
  /-- who is filling it: a pack by a matrix instruction, or 2^32 for any other operation (07 R206) -/
  mfill : List Nat
  deriving DecidableEq, Repr

/-- A tfill whose rows are not written yet (07 R218): its pack, number, tile, and the bytes of a row. -/
structure TileFill where
  pack : Nat
  op : Nat
  tile : Nat
  bytes : List Byte
  deriving DecidableEq, Repr

/-- A named barrier (11 R331); `waits` is keyed by pack index, and `orders` holds for each phase the order that its arrivals
carry (16 R484). -/
structure Barrier where
  exp : Nat
  arr : Nat
  cmp : Nat
  waits : Tab Nat
  orders : List (Nat × Tab Nat)
  deriving DecidableEq, Repr

/-- An entry of a stream queue (11 R337). -/
inductive QEntry where
  | data (elems : List W32)
  | stop
  | error
  deriving DecidableEq, Repr

/-- Who pushed into a stream queue (11 R337). -/
inductive Pusher where
  | pack (idx : Nat)
  | fox
  | copy
  deriving DecidableEq, Repr

/-- A stream queue and its Strict bindings (11 R337). -/
structure StreamQ where
  entries : List QEntry
  pusher : Option Pusher
  popper : Option Nat
  deriving DecidableEq, Repr

/-- Status of the fox slot (11 R341). -/
inductive FoxStatus where
  | idle
  | running
  | faulted
  deriving DecidableEq, Repr

/-- The fox slot (11 R342): its own registers, kept in the form of a pack that never diverges, and a recorded fault. -/
structure Fox where
  status : FoxStatus
  pc : W64
  v : Tab W32
  s : Tab W64
  /-- p0 to p7 per lane -/
  preds : Tab (BitVec 8)
  y : List Cap
  loops : List LoopEntry
  fault : Option Trap
  /-- error markers still to push, by queue (11 R344) -/
  marks : List Nat
  wait : WaitKind
  /-- the pack that issued foxgo, charged with the fox slot's accesses (16 R477) -/
  by_ : Nat
  deriving DecidableEq, Repr

/-- A loaded B operand (12 R360, R362): the source rows, the scale rows and the map rows, as bytes. -/
structure BGroup where
  rows : List (List Byte)
  scales : List (List Byte)
  map : List (List Byte)
  deriving DecidableEq, Repr

/-- The record of a macro (12 R351). -/
structure MacroRec where
  loaded : Bool
  base : Nat
  ty : Nat
  s : Nat
  kv : Nat
  ng : Nat
  split : Bool
  sp : Nat
  kb0b : Nat
  loader : Nat
  larr : ArrMark
  deriving DecidableEq, Repr

/-- The crew's loss record (12 R372): the handle and the bits set, as 512 row + column. -/
structure LossRec where
  valid : Bool
  tile : Nat
  bits : List Nat
  deriving DecidableEq, Repr

/-- The part of a crew that the den records whole (15 R455). -/
structure CrewState where
  spm1 : Spad
  tiles : Tab Tile
  bars : Tab Barrier
  queues : Tab StreamQ
  fox : Fox
  macros : Tab MacroRec
  bdata : Tab BGroup
  loss : LossRec
  /-- live ray queries, by 64 pack index + lane (14 R435) -/
  rays : Tab (Option RayQuery)
  /-- tfills in flight, oldest first (07 R218) -/
  tfills : List TileFill
  deriving DecidableEq, Repr

/-- Where bytes are: physical memory, or a window of SPM1, SPM2 or SPM3 of a crew, gang or troop. -/
inductive Loc where
  | phys (pa : Nat)
  | spm1 (crew off : Nat)
  | spm2 (gang off : Nat)
  | spm3 (troop off : Nat)
  deriving DecidableEq, Repr

/-- One thread's part of an interval store (15 R454): the storing pack, the number of the instruction, the place, the
bytes, the tag it gives a 16-byte unit, and what its home needs of the mapping. -/
structure IStore where
  pack : Nat
  ins : Nat
  loc : Loc
  bytes : List Byte
  tag : Option Bool
  /-- the leaf's CM and CP bits (08 R230) -/
  cm : Bool
  cp : Bool
  colour : Nat
  /-- whether the order gates see it: spaces 0, 1, 8 and 9 (16 R476) -/
  gated : Bool
  deriving DecidableEq, Repr

/-- An entry of the spill forwarding table (05 R140): the pack, the access size, and each thread's lane and store. -/
structure Spill where
  pack : Nat
  size : Nat
  items : List (Nat × IStore)
  deriving DecidableEq, Repr

/-- Where a crew stands with the dispatcher (13 R399 to R406). -/
inductive CrewPhase where
  /-- placed on its core -/
  | placed
  /-- saved, and pending placement again -/
  | pending
  /-- swapped out while every pack waits -/
  | swapped
  | ended
  deriving DecidableEq, Repr

/-- A crew (04 R92). -/
structure Crew where
  live : Bool
  launch : Nat
  gang : Nat
  /-- index in the gang -/
  idx : Nat
  /-- crew linear number (16 R476) -/
  lin : Nat
  phase : CrewPhase
  core : Nat
  packs : List Nat
  st : CrewState
  /-- interval store buffer, oldest first (15 R454) -/
  isb : List IStore
  /-- the interval has been exposed (15 R456) -/
  exposed : Bool
  /-- containment lost until the next checkpoint (15 R457) -/
  lost : Bool
  /-- the SPM1 granules that the den has copied in the interval (15 R455) -/
  den : List Nat
  /-- the state and packs at the last checkpoint -/
  ck : CrewState
  ckPacks : List (Nat × Pack)
  /-- the holds of its packs at the last checkpoint: pack and mooring (09 R257) -/
  ckHolds : List (Nat × Nat)
  /-- the marks of its packs' gather lines at the last checkpoint: cluster, granule and mark (11 R333) -/
  ckMarks : List (Nat × Nat × ArrMark)
  /-- the slots bound to subscriptions: slot index and subscription (10 R301) -/
  slots : Tab (Option Nat)
  /-- a pre-emption has been asked for (13 R405) -/
  preempt : Bool
  issues : Nat
  deriving DecidableEq, Repr

/-- A gang: its cluster while placed, its SPM2 window, its quantum count (13 R403). -/
structure Gang where
  live : Bool
  launch : Nat
  troop : Nat
  /-- linear number in the launch -/
  lin : Nat
  /-- node of a work graph whose batch it carries (13 R409) -/
  node : Nat
  cluster : Option Nat
  crews : List Nat
  spm2 : Spad
  issues : Nat
  deriving DecidableEq, Repr

/-- A troop: its sett while placed, and its SPM3 window. -/
structure Troop where
  live : Bool
  launch : Nat
  lin : Nat
  sett : Option Nat
  gangs : List Nat
  spm3 : Spad
  deriving DecidableEq, Repr

/-- An entry of the tensor bound table (15 R451). -/
structure BoundEntry where
  low : W64
  high : W64
  kind : Nat
  action : Nat
  deriving DecidableEq, Repr

/-- An entry of the .live section (05 R136). -/
structure LiveEntry where
  start : Nat
  stop : Nat
  vmask : BitVec 256
  smask : BitVec 64
  deriving DecidableEq, Repr

/-- A launch header (13 R396). -/
structure Header where
  addr : Nat
  entry : Nat
  text : Nat
  textsz : Nat
  pwl : Nat
  nf : Nat
  widths : List Nat
  packs : Nat
  prod : Nat
  macros : Nat
  stream : Bool
  /-- 0 Free, 1 Track, 2 Strict -/
  dmode : Nat
  prio : Nat
  spm1 : Nat
  spm2 : Nat
  spm3 : Nat
  fenv : W32
  c2 : Nat
  c3 : Nat
  c4 : Nat
  c5 : Nat
  bver : Nat
  extent : Nat
  quantum : Nat
  trap : Nat
  track : Nat
  tracksz : Nat
  berth : Nat
  nberth : Nat
  bound : Nat
  stamp : Nat
  stampsz : Nat
  graph : Nat
  live : Nat
  nlive : Nat
  colour : Nat
  ys : List Cap
  args : List W64
  deriving DecidableEq, Repr

/-- A berth (09 R254). -/
structure Berth where
  base : Nat
  len : Nat
  moor : Nat
  deriving DecidableEq, Repr

/-- MODE of a mooring (09 R256). -/
inductive MoorMode where
  | free
  | shared
  | exclusive
  deriving DecidableEq, Repr

/-- The kind of an acq request (09 R258). -/
inductive ReqKind where
  | plainX
  | plainSh
  | cntEq
  | cntGe
  deriving DecidableEq, Repr

/-- A waiting acq request. -/
structure Waiter where
  pack : Nat
  kind : ReqKind
  n : W64
  deriving DecidableEq, Repr

/-- A mooring (09 R256); `holders` lists the packs that hold it, and `rels` the order that releases carry (16 R484). -/
structure Mooring where
  quay : Nat
  mode : MoorMode
  holders : List Nat
  owner : W32
  count : W64
  waiters : List Waiter
  rels : List (Nat × Tab Nat)
  deriving DecidableEq, Repr

/-- State of a record of a work graph (13 R410). -/
inductive RecState where
  | free
  | held
  | emitted
  | delivered
  deriving DecidableEq, Repr

/-- A record: its state, the crew that holds it or received it, the interval mark of 13 R416, and its mark for freeing. -/
structure Rec where
  state : RecState
  crew : Nat
  /-- allotted in the crew's present interval -/
  fresh : Bool
  /-- the crew that has marked it for freeing, at its next commit (13 R414) -/
  freeing : Option Nat
  deriving DecidableEq, Repr

/-- A node of a work graph: entry offset, batch size, time-out, open batch, batches launched (13 R408, R411). -/
structure Node where
  entry : Nat
  batch : Nat
  tout : Nat
  fill : List Nat
  launched : Nat
  /-- the tick of the schedule at which the first record of the open batch joined -/
  opened : Nat
  deriving DecidableEq, Repr

/-- The work graph of a launch (13 R408). -/
structure Graph where
  present : Bool
  recb : Nat
  pooln : Nat
  pool : Nat
  nodes : List Node
  recs : Tab Rec
  /-- launched batches whose crew is not placed yet: crew linear number, node and records -/
  ready : List (Nat × Nat × List Nat)
  deriving DecidableEq, Repr

/-- The determinism run of a Track launch (16 R474 to R482): sizes, bytes used and read positions. -/
structure TrackRun where
  replay : Bool
  d : Nat
  s : Nat
  dused : Nat
  hused : Nat
  /-- bytes used of each quay segment -/
  qused : Tab Nat
  /-- replay: bytes of each quay segment consumed, and the admissions made of the head chunk -/
  qpos : Tab Nat
  qdone : Tab Nat
  /-- dispatch entries already matched (indices) -/
  dtaken : List Nat
  /-- replay: a launch-start difference for the first placed crew's lowest pack -/
  pendDivg : Option Trap
  aborted : Bool
  /-- linear numbers of the packs that have ended -/
  ended : List Nat
  /-- replay: admissions that an operation which still waits at a gate has made: pack linear number, operation (0 for an
  instruction), granule, and whether as a write (R478) -/
  made : List (Nat × Nat × Nat × Bool)
  deriving DecidableEq, Repr

/-- A Strict stamp of a granule (16 R485, R486): last writer with its epoch and colour, what kind of write it was, the readers since,
and the writers before it that it is not ordered after, as an exempt pair may stand.  An agent is a pack, or an engine operation n of
a pack as n × 2^64 + pack. -/
structure Stamp where
  writer : Option Nat
  epoch : Nat
  colour : Nat
  /-- 0 plain, 1 integer red, 2 raster visibility -/
  kind : Nat
  /-- readers since that write: pack, epoch, whether a monotone waitc -/
  readers : List (Nat × Nat × Bool)
  /-- agent, epoch, colour and kind -/
  others : List (Nat × Nat × Nat × Nat)
  /-- entries of the region in use, and the number of the first -/
  entries : Nat
  place : Nat
  deriving DecidableEq, Repr

/-- A home partial record of floating-point reds (10 R293). -/
structure HomeRec where
  gran : Nat
  cluster : Nat
  op : Nat
  ty : Nat
  parts : Tab W64
  /-- the red instructions combined, the latest first: the byte offsets that each reached -/
  counts : List (List Nat)
  launch : Nat
  /-- pack linear number that its accesses are charged to -/
  charged : Nat
  /-- its 16-byte place in the quay's track segment, counted from the end (0 in Strict mode) -/
  place : Nat
  deriving DecidableEq, Repr

/-- Where a launch came from (13 R392, R407, 17 R500). -/
inductive Origin where
  | packet (queue idx : Nat)
  | device (queue : Nat)
  | command (tag : W32)
  deriving DecidableEq, Repr

/-- A launch (13 R396 to R399). -/
structure Launch where
  live : Bool
  origin : Origin
  queue : Nat
  asid : Nat
  /-- priority class (04 R99) -/
  prio : Nat
  supervisor : Bool
  done : Nat
  hdr : Header
  liveTab : List LiveEntry
  bounds : Tab BoundEntry
  berths : Tab (Option Berth)
  moors : Tab (Option Mooring)
  graph : Graph
  /-- moorings of the static berths that are not allotted yet: index and quay (09 R256) -/
  wantMoors : List (Nat × Nat)
  /-- gangs of node 0 already created, and gangs in all -/
  nextGang : Nat
  gangs : Nat
  aborted : Bool
  track : TrackRun
  /-- stamps by granule address of physical memory; SPM granules above 2^60 -/
  stamps : Tab Stamp
  stampUsed : Nat
  /-- physical address of USED, as the launch's start has translated it (R486) -/
  stampPa : Nat
  homeRecs : List HomeRec
  /-- context-area blocks: owner kind and number, base, size (13 R400) -/
  ctx : List (Nat × Nat × Nat × Nat)
  /-- placements made, for the manifest (16 R488) -/
  placements : List (Nat × Nat)
  deriving DecidableEq, Repr

/-- A packet that has been taken and has not completed (13 R392). -/
inductive Work where
  | launch (id : Nat)
  /-- a LAUNCH or GRAPH packet whose header is not read yet -/
  | start (graph : Bool) (header : Nat)
  | signal (target : Nat) (v : W64) (kind : Nat)
  | copy (src dst count : Nat) (suspended : Bool)
  | wait (target : Nat) (v k : W64) (cmp : Nat) (signed : Bool)
  deriving DecidableEq, Repr

/-- An unfinished packet of a queue. -/
structure Pkt where
  idx : Nat
  done : Nat
  work : Work
  deriving DecidableEq, Repr

/-- What of a queue has stalled on a replayable fault (13 R393). -/
inductive Staller where
  /-- a write of RIDX or of a completion word -/
  | writes
  /-- the read of the next packet -/
  | read
  /-- an access of an unfinished packet, by its index -/
  | pkt (idx : Nat)
  /-- the header of a device launch -/
  | device
  deriving DecidableEq, Repr

/-- A queue (13 R386 to R394). -/
structure Queue where
  enabled : Bool
  base : Nat
  log2n : Nat
  prio : Nat
  asid : Nat
  ridxwb : Nat
  ctxa : Nat
  ctxsz : Nat
  ridx : W64
  widx : W64
  errc : Nat
  halt : Bool
  slot : Bool
  /-- order in which the present slot was taken, and whether it has been held for 200 µs -/
  slotOrder : Nat
  slotAged : Bool
  /-- its slot is being taken away (13 R395), for this queue -/
  leaving : Bool
  taker : Nat
  /-- levels gained while pending without a slot, and the order of becoming pending (13 R394) -/
  aged : Nat
  pendOrder : Nat
  pkts : List Pkt
  /-- MARK packets since the last LAUNCH or GRAPH packet -/
  marks : List W64
  /-- stalled on a replayable fault of its own reads or writes: ASID, address and fault code (13 R393) -/
  stall : Option (Nat × Nat × Nat)
  staller : Staller
  /-- completion words and read indices still to be written: address, value -/
  writes : List (Nat × W64)
  disabling : Bool
  deriving DecidableEq, Repr

/-- An entry of the device-launch table (13 R407). -/
structure DevLaunch where
  queue : Nat
  asid : Nat
  header : Nat
  done : Nat
  prio : Nat
  by_ : Nat
  supervisor : Bool
  /-- the launch made from the entry -/
  id : Option Nat
  deriving DecidableEq, Repr

/-- What a copy is doing (11 R324 to R328, R340). -/
inductive CopyPhase where
  | moving
  /-- abandoned, waiting for a page (11 R325) -/
  | abandoned (asid va code : Nat)
  /-- staged: the elements of cpyr in linear order, or the entries still to push of cpyq -/
  | staged
  /-- its follow-on command has been handed over (11 R327) -/
  | follow
  deriving DecidableEq, Repr

/-- The copy instructions. -/
inductive CopyKind where
  | plain
  | mm
  | reduce (op ty : Nat)
  | queue (q : Nat) (stop : Bool)
  deriving DecidableEq, Repr

/-- What a matrix instruction of the sequencer does (12 R360 to R378), with every operand as it stood at issue. -/
inductive MatKind where
  | mldb (src scale map : Option Nat) (ty s shape m0 : Nat) (sp : Nat) (split : Bool) (g : MacroRec)
  | mma (acc a scale : Nat) (ta tb shape m0 : Nat) (zp : Option (List Int)) (susp : Bool) (g : MacroRec) (bver : Nat)
  | mms (out a : Nat) (ty s shape m0 : Nat) (acc : Bool) (rm : Nat) (g : MacroRec)
  | macc (dst src : Nat) (ty : Nat) (n : Int) (sat : Bool) (bound : Option BoundEntry) (rm : Nat)
  | mzero (t : Nat)
  | mxq (dst src scale : Nat) (ty sty : Nat) (sat : Bool) (rm : Nat)
  | mxdq (dst src scale : Nat) (ty sty : Nat) (sat : Bool) (rm : Nat)
  | mtr (dst src : Nat) (ty : Nat)
  deriving DecidableEq, Repr

/-- A matrix instruction in the sequencer's queue (12 R367): its place, the issuing pack, its address, the tiles it fills
and drains, the steps done, and the copy whose follow-on it is. -/
structure MatOp where
  crew : Nat
  pack : Nat
  pc : W64
  kind : MatKind
  fills : List Nat
  drains : List Nat
  step : Nat
  copy : Option Nat
  /-- its number among the engine operations (16 R484) -/
  epoch : Nat
  deriving DecidableEq, Repr

/-- One access of a copy: its side (0 source, 1 destination, 2 scale plane), address and bytes (11 R316). -/
structure CAcc where
  side : Nat
  addr : Int
  n : Nat
  write : Bool
  deriving DecidableEq, Repr

/-- A copy in flight (11 R311). -/
structure Copy where
  live : Bool
  core : Nat
  crew : Nat
  pack : Nat
  kind : CopyKind
  desc : List W64
  src : Cap
  dst : Cap
  scap : Cap
  asid : Nat
  phase : CopyPhase
  replayed : Bool
  /-- staged data, linear order -/
  stage : List (List Byte)
  follow : Option MatOp
  order : Nat
  /-- accesses that did not translate at the issue in Strict mode, and the producer's order then (16 R484, R485) -/
  late : List CAcc
  vc : Tab Nat
  deriving DecidableEq, Repr

/-- A geometry operation in flight (14 R418). -/
inductive GeoKind where
  | cutsel (geo out : Cap) (params : List Nat) (ray val : Bool) (sd : Nat)
  | rsub (buf src geo : Cap) (params : List Nat) (pre both : Bool)
  deriving DecidableEq, Repr

/-- A geometry operation: its engine (sett or cluster), the issuing pack and its crew. -/
structure GeoOp where
  unit : Nat
  crew : Nat
  pack : Nat
  asid : Nat
  kind : GeoKind
  /-- stalled on a replayable fault: ASID, address and fault code -/
  stall : Option (Nat × Nat × Nat)
  order : Nat
  deriving DecidableEq, Repr

/-- A line of a gather buffer (10 R290). -/
structure GatherLine where
  asid : Nat
  launch : Nat
  gran : Nat
  op : Nat
  ty : Nat
  /-- partial by byte offset in the granule -/
  parts : Tab W64
  /-- the red instructions combined, the latest first: the byte offsets that each reached -/
  counts : List (List Nat)
  /-- pack linear number of the last contributor, and its arrival mark (10 R294) -/
  last : Nat
  mark : ArrMark
  deriving DecidableEq, Repr

/-- A subscription (10 R301 to R308): the item, the slot, the stores counted, what its slot has received, the push in
flight and the pending push as value and count, and the packs that wait for its end. -/
structure Sub where
  quay : Nat
  asid : Nat
  crew : Nat
  slot : Nat
  va : Nat
  pa : Nat
  size : Nat
  off : Nat
  stores : Nat
  received : Nat
  /-- the SEQ of the last delivery -/
  lastSeq : Nat
  flight : Option (W64 × Nat)
  pending : Option (W64 × Nat)
  parked : Bool
  /-- the quay has removed the entry (10 R308) -/
  ending : Bool
  /-- the pack whose unstand ends it, and whether the quay has acknowledged -/
  ender : Nat
  acked : Bool
  deriving DecidableEq, Repr

/-- A cached translation (08 R232): ASID, level of the leaf, the address bits above the page, the leaf. -/
structure TlbEntry where
  asid : Nat
  level : Nat
  page : Nat
  pte : W64
  deriving DecidableEq, Repr

/-- A pending fault of a sett (08 R232, R233). -/
structure PendFault where
  sett : Nat
  asid : Nat
  page : Nat
  code : Nat
  deriving DecidableEq, Repr

/-- A line of a register file (05 R132): the pack, the row (vN, then 256 + quarter of a capability, then 320 + half of a
call-stack entry), its first quad, its sector index, and whether it is dirty; most recently used first. -/
structure RfLine where
  pack : Nat
  row : Nat
  quad : Nat
  quads : Nat
  sector : Nat
  dirty : Bool
  deriving DecidableEq, Repr

/-- A Hjelpex port (17 R494): up, the peer it reaches, failed replays of the present flit. -/
structure Port where
  up : Bool
  peer : Nat
  fails : Nat
  /-- the peer advertised compressed holding at link training (08 R241; 17 R496) -/
  comp : Bool
  deriving DecidableEq, Repr

/-- A management command that has been taken and has not completed (17 R500). -/
structure Cmd where
  op : Nat
  tag : W32
  arg : Nat
  /-- PREEMPT: the crews to be saved, each with the order of its placement -/
  crews : List (Nat × Nat)
  deriving DecidableEq, Repr

/-- The BAR0 registers that hold a value (17 R498). -/
structure Bar0 where
  rdtBase : W64
  asidt : W64
  fqBase : W64
  fqCtl : W64
  fqWidx : W64
  fqRidx : W64
  mqBase : W64
  mqCtl : W64
  mqWidx : W64
  mqRidx : W64
  eqBase : W64
  eqCtl : W64
  eqWidx : W64
  eqRidx : W64
  bootErr : BitVec 8
  ready : Bool
  pwrNow : W32
  deriving DecidableEq, Repr

/-- Power and cooling (17 R503, R504). -/
structure Power where
  /-- watts set by SET-CAP -/
  cap : Nat
  /-- the coolant flow is below 2.0 L/min -/
  coolantLow : Bool
  /-- how many times the cap has lowered the clocks since they last ran at full speed -/
  level : Nat
  /-- the clocks are lowered by temperature -/
  lowTherm : Bool
  /-- the clocks stop for part of each millisecond, for the cap -/
  gated : Bool
  /-- thermal trip -/
  therm : Bool
  deriving DecidableEq, Repr

/-- What the packs are guaranteed to see of each other's stores (09 R264, R265).  An order maps a pack to a number: the stores
of that pack whose instruction numbers lie below it are visible. -/
structure Sight where
  /-- by pack: what it is guaranteed to see -/
  seen : Tab (Tab Nat)
  /-- by pack: for each pack of its crew, the number after the latest store of it that a load has returned -/
  read : Tab (Tab Nat)
  /-- by pack: the numbers of the buffered stores of which it has read a byte -/
  has : Tab (List Nat)
  /-- by pack: what its releases beyond the crew carry besides its own stores -/
  carries : Tab (Tab Nat)
  /-- by pack: its fence.rel instructions, each with its number and what it saw then, latest first -/
  rels : Tab (List (Nat × Tab Nat))
  /-- what arrivals carry: crew, barrier, phase and order -/
  arrivals : List (Nat × Nat × Nat × Tab Nat)
  /-- the last store to a byte of SPM1, at 2^24 times the crew and the offset: its pack and instruction number -/
  writers : Tab (Option (Nat × Nat))
  deriving DecidableEq, Repr

/-- The machine. -/
structure State where
  /-- physical memory (08 R236), in canonical form -/
  mem : List Host.Cell
  /-- tags of capability pages, by address / 16 (08 R228) -/
  tags : Tab Bool
  /-- poisoned granules, by address / 64 (08 R243) -/
  poison : Tab Bool
  /-- stored-size codes that are not 0b11, by address / 256, as 3 − code (08 R239) -/
  detail : Tab Nat
  /-- granules whose stored check value is not the CRC of their bytes, by address / 64: the two values' difference (08 R242) -/
  check : Tab (BitVec 16)
  /-- compressed blocks whose stored header is not the one that the quay wrote, by address / 256: the difference (08 R238) -/
  headers : Tab Byte
  /-- requests at each quay that no grant window has counted yet, by class: lane, fox, copy, matrix, geo, link, host (01 R25, R26) -/
  waiting : Tab (List Nat)
  sight : Sight
  bar0 : Bar0
  power : Power
  /-- the CXL ports as bring-up configured them: 0 a host port, n + 1 an expander of n GiB (17 R497) -/
  cxl : Tab Nat
  counters : Tab W64
  wdogLim : W32
  ports : Tab Port
  /-- what the last read or atomic update of a peer returned over the link, with the poison bit of its flit header (17 R496) -/
  linkReply : Option (BitVec 128 × Bool)
  queues : Tab Queue
  launches : Tab Launch
  troops : Tab Troop
  gangs : Tab Gang
  crews : Tab Crew
  packs : Tab Pack
  devLaunches : List DevLaunch
  copies : Tab Copy
  /-- the sequencer queue of each core, oldest first (12 R367) -/
  seqs : Tab (List MatOp)
  geos : Tab (Option GeoOp)
  /-- regions that cutsel.ray has laid out, with their LCAP (14 R429, R435) -/
  rayRegions : List (Loc × Nat)
  /-- the gather buffer of each cluster, most recently used line first (10 R290) -/
  gather : Tab (List GatherLine)
  subs : Tab (Option Sub)
  /-- spill forwarding table of each core, oldest first (05 R140) -/
  spills : Tab (List Spill)
  /-- register file of each core -/
  rf : Tab (List RfLine)
  utlb : Tab (List TlbEntry)
  tlb : Tab (List TlbEntry)
  /-- fault records waiting at their setts, with their 32 bytes (17 R499) -/
  faultRecs : List (List Byte)
  pendFaults : List PendFault
  faultSeq : Tab Nat
  /-- events waiting for the event ring (17 R500) -/
  events : List (List Byte)
  cmd : Option Cmd
  /-- the pack that issues -/
  cur : Nat
  /-- runnable packs whose last try stalled, since something last changed -/
  stalled : List Nat
  /-- packs that have issued yield since their core last issued (04 R118) -/
  yields : List (Nat × Bool)
  /-- the core whose turn it is to issue -/
  turn : Nat
  /-- even when packs issue next, odd when the engines do: the schedule between them -/
  tick : Nat
  /-- numbers for new records, and for readings of free values -/
  fresh : Nat
  /-- events still to come: the schedule and the outside world -/
  agenda : List Instr
  deriving DecidableEq, Repr

/-- BAR0 after reset (17 R498). -/
def Bar0.reset : Bar0 where
  rdtBase := 0
  asidt := 0
  fqBase := 0
  fqCtl := 0
  fqWidx := 0
  fqRidx := 0
  mqBase := 0
  mqCtl := 0
  mqWidx := 0
  mqRidx := 0
  eqBase := 0
  eqCtl := 0
  eqWidx := 0
  eqRidx := 0
  bootErr := 0
  ready := false
  pwrNow := 0

/-- Power after reset: the cap is 3,000 W (17 R503). -/
def Power.reset : Power where
  cap := 3000
  coolantLow := false
  level := 0
  lowTherm := false
  gated := false
  therm := false

/-- The machine after reset (17 R501): bring-up has not run, every queue is disabled, nothing is placed, and memory lists
nothing. -/
def State.reset : State where
  mem := []
  tags := []
  poison := []
  detail := []
  check := []
  headers := []
  waiting := []
  sight := ⟨[], [], [], [], [], [], []⟩
  bar0 := Bar0.reset
  power := Power.reset
  cxl := []
  counters := []
  wdogLim := 0x2000
  ports := []
  linkReply := none
  queues := []
  launches := []
  troops := []
  gangs := []
  crews := []
  packs := []
  devLaunches := []
  copies := []
  seqs := []
  geos := []
  rayRegions := []
  gather := []
  subs := []
  spills := []
  rf := []
  utlb := []
  tlb := []
  faultRecs := []
  pendFaults := []
  faultSeq := []
  events := []
  cmd := none
  cur := 0
  stalled := []
  yields := []
  turn := 0
  tick := 0
  fresh := 1
  agenda := []

end Sys2Proof.Machine
end

