-- ==== Sys2Proof/Machine/Tab.lean ====
section
/-! DEFINITION. Finite tables in canonical form: keys strictly rising, no entry equal to the default. -/

namespace Sys2Proof.Machine

variable {β : Type}

/-- The value at a key; the default where no entry stands. -/
def Tab.get (d : β) : List (Nat × β) → Nat → β
  | [], _ => d
  | (a, b) :: t, k => if a = k then b else Tab.get d t k

/-- The table without a key. -/
def Tab.erase : List (Nat × β) → Nat → List (Nat × β)
  | [], _ => []
  | (a, b) :: t, k => if a = k then Tab.erase t k else (a, b) :: Tab.erase t k

/-- The table with an entry put at its place. -/
def Tab.insert : List (Nat × β) → Nat → β → List (Nat × β)
  | [], k, v => [(k, v)]
  | (a, b) :: t, k, v => if k < a then (k, v) :: (a, b) :: t else (a, b) :: Tab.insert t k v

/-- The table with `v` at key `k`; writing the default removes the entry. -/
def Tab.set [DecidableEq β] (d : β) (l : List (Nat × β)) (k : Nat) (v : β) : List (Nat × β) :=
  if v = d then Tab.erase l k else Tab.insert (Tab.erase l k) k v

/-- Canonical form: keys strictly rising, no entry at the default. -/
def Tab.wf [DecidableEq β] (d : β) : List (Nat × β) → Bool
  | [] => true
  | [(_, v)] => v ≠ d
  | (a, v) :: (b, w) :: t => v ≠ d && a < b && Tab.wf d ((b, w) :: t)

/-- The keys in use. -/
def Tab.keys (l : List (Nat × β)) : List Nat := l.map (·.1)

/-- Changes the value at a key. -/
def Tab.upd [DecidableEq β] (d : β) (l : List (Nat × β)) (k : Nat) (f : β → β) : List (Nat × β) :=
  Tab.set d l k (f (Tab.get d l k))

end Sys2Proof.Machine
end

