-- ==== Sys2Proof/Machine/Num.lean ====
section
/-! DEFINITION. Number formats and rounding (spec 03): integers of n bits as natural numbers, floating-point encodings,
exact magnitudes, and the one rounding function of R85 with R86 to R88. -/

namespace Sys2Proof.Machine

/-- The two's-complement value of an n-bit pattern (03 R74). -/
def toS (n x : Nat) : Int := if x % 2 ^ n < 2 ^ (n - 1) then ((x % 2 ^ n : Nat) : Int) else ((x % 2 ^ n : Nat) : Int) - (2 ^ n : Nat)

/-- The n-bit pattern of an integer, modulo 2^n. -/
def ofI (n : Nat) (i : Int) : Nat := (i % (2 ^ n : Nat)).toNat

/-- Clamps an integer to a range. -/
def clampI (lo hi i : Int) : Int := if i < lo then lo else if hi < i then hi else i

/-- 2 to an integer power, of a natural number: multiplied, or divided and floored. -/
def shl (x : Nat) (e : Int) : Nat := if 0 ≤ e then x * 2 ^ e.toNat else x / 2 ^ (-e).toNat

/-- ceil(a / b). -/
def ceilDiv (a b : Nat) : Nat := (a + b - 1) / b

/-- ceil(log2 n), for n at least 1. -/
def ceilLog2 (n : Nat) : Nat := if n ≤ 1 then 0 else Nat.log2 (n - 1) + 1

/-- Bit `i` of a number. -/
def bitAt (x i : Nat) : Bool := x / 2 ^ i % 2 == 1

/-- The field of `n` bits of `x` from bit `lo`. -/
def bits (x lo n : Nat) : Nat := x / 2 ^ lo % 2 ^ n

/-! ### IEEE flags, as the bits of %fflags (06 R166) -/

/-- A set of IEEE flags in the layout of %fflags. -/
abbrev Fl := BitVec 5
def NV : Fl := 1
def DZ : Fl := 2
def OF : Fl := 4
def UF : Fl := 8
def NX : Fl := 16

/-! ### Rounding modes (03 R84) -/

inductive RMode where
  | rne | rtz | rup | rdn | rna | sto
  deriving DecidableEq, Repr

/-- The deterministic mode of a code of 02 R40, and the stochastic one; the reserved codes take none. -/
def RMode.ofCode : Nat → RMode
  | 0 => .rne
  | 1 => .rtz
  | 2 => .rup
  | 3 => .rdn
  | 4 => .rna
  | _ => .sto

/-! ### Formats (03 R68, R72) -/

/-- How a format treats its all-ones exponent. -/
inductive Special where
  /-- infinities and NaNs as IEEE 754 -/
  | ieee
  /-- E4M3: no infinity, one NaN magnitude -/
  | e4m3
  /-- every code finite -/
  | finite
  deriving DecidableEq, Repr

structure Fmt where
  ebits : Nat
  mbits : Nat
  bias : Nat
  special : Special
  deriving DecidableEq, Repr

def f64 : Fmt := ⟨11, 52, 1023, .ieee⟩
def f32 : Fmt := ⟨8, 23, 127, .ieee⟩
def f16 : Fmt := ⟨5, 10, 15, .ieee⟩
def bf16 : Fmt := ⟨8, 7, 127, .ieee⟩
def e4m3 : Fmt := ⟨4, 3, 7, .e4m3⟩
def e5m2 : Fmt := ⟨5, 2, 15, .ieee⟩
def e3m2 : Fmt := ⟨3, 2, 3, .finite⟩
def e2m3 : Fmt := ⟨2, 3, 1, .finite⟩
def e2m1 : Fmt := ⟨2, 1, 1, .finite⟩

/-- Bits of an encoding. -/
def Fmt.width (f : Fmt) : Nat := 1 + f.ebits + f.mbits
/-- Exponent of the smallest normal. -/
def Fmt.emin (f : Fmt) : Int := 1 - (f.bias : Int)
/-- The code of the largest finite magnitude (R68, R72). -/
def Fmt.maxCode (f : Fmt) : Nat :=
  match f.special with
  | .ieee => (2 ^ f.ebits - 1) * 2 ^ f.mbits - 1
  | .e4m3 => 2 ^ (f.ebits + f.mbits) - 2
  | .finite => 2 ^ (f.ebits + f.mbits) - 1
/-- The code of +∞ (formats that have it). -/
def Fmt.infCode (f : Fmt) : Nat := (2 ^ f.ebits - 1) * 2 ^ f.mbits
/-- The default quiet NaN (R68, R73); +0 where the format has no NaN (R87). -/
def Fmt.qnan (f : Fmt) : Nat :=
  match f.special with
  | .ieee => f.infCode + 2 ^ (f.mbits - 1)
  | .e4m3 => 0x7F
  | .finite => 0
def Fmt.signBit (f : Fmt) : Nat := 2 ^ (f.ebits + f.mbits)
/-- A code with a sign. -/
def Fmt.withSign (f : Fmt) (neg : Bool) (code : Nat) : Nat := if neg then code + f.signBit else code

/-- The value an encoding denotes: a NaN (with its sign, whether it signals, its fraction), an infinity, or
(−1)^neg × m × 2^e. -/
inductive FVal where
  | nan (neg sig : Bool) (frac : Nat)
  | inf (neg : Bool)
  | num (neg : Bool) (m : Nat) (e : Int)
  deriving DecidableEq, Repr

/-- Reads an encoding (R68, R69, R72, R73). -/
def Fmt.read (f : Fmt) (x : Nat) : FVal :=
  let neg := bitAt x (f.ebits + f.mbits)
  let ex := bits x f.mbits f.ebits
  let fr := x % 2 ^ f.mbits
  let fin : FVal :=
    if ex = 0 then .num neg fr (f.emin - f.mbits)
    else .num neg (2 ^ f.mbits + fr) ((ex : Int) - f.bias - f.mbits)
  if ex = 2 ^ f.ebits - 1 then
    match f.special with
    | .ieee => if fr = 0 then .inf neg else .nan neg (!bitAt fr (f.mbits - 1)) fr
    | .e4m3 => if fr = 2 ^ f.mbits - 1 then .nan neg false fr else fin
    | .finite => fin
  else fin

def FVal.isNan : FVal → Bool
  | .nan .. => true
  | _ => false
def FVal.isSig : FVal → Bool
  | .nan _ s _ => s
  | _ => false
def FVal.isInf : FVal → Bool
  | .inf _ => true
  | _ => false
def FVal.isZero : FVal → Bool
  | .num _ 0 _ => true
  | _ => false
def FVal.neg : FVal → Bool
  | .nan n _ _ => n
  | .inf n => n
  | .num n _ _ => n

/-- floor(log2) of the positive magnitude n × 2^e / d. -/
def flog2 (n d : Nat) (e : Int) : Int :=
  let k : Int := (Nat.log2 n : Int) - Nat.log2 d
  let lt := if 0 ≤ k then n < d * 2 ^ k.toNat else n * 2 ^ (-k).toNat < d
  (if lt then k - 1 else k) + e

/-- Rounds the quotient n / d, d positive, to an integer: the integer and whether it was exact.  `neg` is the sign of the
value and `u` the stochastic draw (R84, R85). -/
def roundQ (md : RMode) (neg : Bool) (u n d : Nat) : Nat × Bool :=
  let q := n / d
  let r := n % d
  let up : Bool :=
    if r = 0 then false
    else match md with
      | .rne => d < 2 * r || (2 * r == d && q % 2 == 1)
      | .rna => d ≤ 2 * r
      | .rtz => false
      | .rup => !neg
      | .rdn => neg
      | .sto => u < r * 4294967296 / d
  (if up then q + 1 else q, r == 0)

/-- The significand of n × 2^e / d in units of 2^(ex − mbits), rounded. -/
def roundAt (f : Fmt) (md : RMode) (neg : Bool) (u n d : Nat) (e ex : Int) : Nat × Bool :=
  let sh := e - (ex - f.mbits)
  if 0 ≤ sh then roundQ md neg u (n * 2 ^ sh.toNat) d else roundQ md neg u n (d * 2 ^ (-sh).toNat)

/-- The code of y × 2^(ex − mbits), where y is a rounded significand at exponent ex. -/
def packCode (f : Fmt) (y : Nat) (ex : Int) : Nat :=
  if y < 2 ^ f.mbits then y
  else if y = 2 ^ (f.mbits + 1) then ((ex + 1 + f.bias).toNat) * 2 ^ f.mbits
  else ((ex + f.bias).toNat) * 2 ^ f.mbits + (y - 2 ^ f.mbits)

/-- The result of an overflow (R86). -/
def overflowCode (f : Fmt) (neg : Bool) (md : RMode) (sat : Bool) : Nat :=
  let toInf : Bool :=
    f.special == .ieee && !sat &&
      (match md with
       | .rne => true
       | .rna => true
       | .sto => true
       | .rtz => false
       | .rup => !neg
       | .rdn => neg)
  f.withSign neg (if toInf then f.infCode else f.maxCode)

/-- round_to of R85: the finite nonzero value (−1)^neg × n × 2^e / d into a format, with the flags it raises. -/
def roundTo (f : Fmt) (md : RMode) (sat : Bool) (u : Nat) (neg : Bool) (n d : Nat) (e : Int) : Nat × Fl :=
  if n = 0 then (f.withSign neg 0, 0)
  else
    let lg := flog2 n d e
    let ex := if lg < f.emin then f.emin else lg
    let (y, exact) := roundAt f md neg u n d e ex
    let code := packCode f y ex
    if f.maxCode < code then (overflowCode f neg md sat, OF ||| NX)
    else
      -- R88: rounded with an unbounded exponent range, is the magnitude below the smallest normal?
      let yt := (roundAt f md neg u n d e lg).1
      let tiny := lg < f.emin - 1 || (lg == f.emin - 1 && yt < 2 ^ (f.mbits + 1))
      (f.withSign neg code, if exact then 0 else if tiny then NX ||| UF else NX)

/-- A signed dyadic: m × 2^e. -/
structure Dy where
  m : Int
  e : Int
  deriving DecidableEq, Repr

/-- The dyadic of a finite value. -/
def FVal.dy : FVal → Dy
  | .num neg m e => ⟨if neg then -(m : Int) else m, e⟩
  | _ => ⟨0, 0⟩

def Dy.add (a b : Dy) : Dy :=
  if a.e ≤ b.e then ⟨a.m + b.m * 2 ^ (b.e - a.e).toNat, a.e⟩ else ⟨a.m * 2 ^ (a.e - b.e).toNat + b.m, b.e⟩
def Dy.mul (a b : Dy) : Dy := ⟨a.m * b.m, a.e + b.e⟩
def Dy.negate (a : Dy) : Dy := ⟨-a.m, a.e⟩
def Dy.sub (a b : Dy) : Dy := a.add b.negate
/-- Whether a ≤ b, exactly. -/
def Dy.le (a b : Dy) : Bool := (a.sub b).m ≤ 0
def Dy.lt (a b : Dy) : Bool := (a.sub b).m < 0
def Dy.abs (a : Dy) : Dy := ⟨a.m.natAbs, a.e⟩
def Dy.scale (a : Dy) (k : Int) : Dy := ⟨a.m, a.e + k⟩
def Dy.ofInt (i : Int) : Dy := ⟨i, 0⟩
/-- floor(log2 |a|), a not zero. -/
def Dy.log2 (a : Dy) : Int := flog2 a.m.natAbs 1 a.e

/-- Rounds a dyadic; an exact zero takes the sign given. -/
def roundDy (f : Fmt) (md : RMode) (sat : Bool) (u : Nat) (zneg : Bool) (a : Dy) : Nat × Fl :=
  if a.m = 0 then (f.withSign zneg 0, 0) else roundTo f md sat u (a.m < 0) a.m.natAbs 1 a.e

/-- Rounds a dyadic to an integer in a mode: the integer and whether it was exact (06 R181, R185). -/
def roundInt (md : RMode) (u : Nat) (a : Dy) : Int × Bool :=
  if 0 ≤ a.e then (a.m * 2 ^ a.e.toNat, true)
  else
    let (q, ex) := roundQ md (a.m < 0) u a.m.natAbs (2 ^ (-a.e).toNat)
    (if a.m < 0 then -(q : Int) else q, ex)

/-- Truncates a dyadic toward zero. -/
def truncInt (a : Dy) : Int := (roundInt .rtz 0 a).1

/-- floor of a dyadic. -/
def floorInt (a : Dy) : Int := (roundInt .rdn 0 a).1

/-! ### Arithmetic with the special cases of 06 R175, R176 -/

/-- qNaN, with invalid if some operand signals (06 R175). -/
def nanResult (f : Fmt) (ops : List FVal) : Nat × Fl := (f.qnan, if ops.any FVal.isSig then NV else 0)

/-- a + b (R175). -/
def fAdd (f : Fmt) (md : RMode) (a b : Nat) : Nat × Fl :=
  let x := f.read a
  let y := f.read b
  if x.isNan || y.isNan then nanResult f [x, y]
  else match x, y with
    | .inf n, .inf m => if n == m then (f.withSign n f.infCode, 0) else (f.qnan, NV)
    | .inf n, _ => (f.withSign n f.infCode, 0)
    | _, .inf m => (f.withSign m f.infCode, 0)
    | _, _ =>
      let zneg := if x.isZero && y.isZero && x.neg == y.neg then x.neg else md == .rdn
      roundDy f md false 0 zneg (x.dy.add y.dy)

/-- a × b (R175). -/
def fMul (f : Fmt) (md : RMode) (a b : Nat) : Nat × Fl :=
  let x := f.read a
  let y := f.read b
  let n := x.neg != y.neg
  if x.isNan || y.isNan then nanResult f [x, y]
  else if x.isInf || y.isInf then
    if x.isZero || y.isZero then (f.qnan, NV) else (f.withSign n f.infCode, 0)
  else roundDy f md false 0 n (x.dy.mul y.dy)

/-- a × b + c, rounded once (R175). -/
def fFma (f : Fmt) (md : RMode) (a b c : Nat) : Nat × Fl :=
  let x := f.read a
  let y := f.read b
  let z := f.read c
  let n := x.neg != y.neg
  let badProd := (x.isInf && y.isZero) || (x.isZero && y.isInf)
  if x.isNan || y.isNan || z.isNan then
    let (r, fl) := nanResult f [x, y, z]
    (r, if badProd then fl ||| NV else fl)
  else if badProd then (f.qnan, NV)
  else if x.isInf || y.isInf then
    if z.isInf && z.neg != n then (f.qnan, NV) else (f.withSign n f.infCode, 0)
  else if z.isInf then (f.withSign z.neg f.infCode, 0)
  else
    let pz := x.isZero || y.isZero
    let zneg := if pz && z.isZero && n == z.neg then n else md == .rdn
    roundDy f md false 0 zneg ((x.dy.mul y.dy).add z.dy)

/-- a / b (R176). -/
def fDiv (f : Fmt) (md : RMode) (a b : Nat) : Nat × Fl :=
  let x := f.read a
  let y := f.read b
  let n := x.neg != y.neg
  if x.isNan || y.isNan then nanResult f [x, y]
  else match x, y with
    | .inf _, .inf _ => (f.qnan, NV)
    | .inf _, _ => (f.withSign n f.infCode, 0)
    | _, .inf _ => (f.withSign n 0, 0)
    | .num _ ma ea, .num _ mb eb =>
      if mb = 0 then (if ma = 0 then (f.qnan, NV) else (f.withSign n f.infCode, DZ))
      else if ma = 0 then (f.withSign n 0, 0)
      else roundTo f md false 0 n ma mb (ea - eb)
    | _, _ => (f.qnan, 0)

/-- The integer square root by bits, from bit `k` down. -/
def isqrtBits (n : Nat) : Nat → Nat → Nat
  | 0, r => r
  | k + 1, r => isqrtBits n k (if (r + 2 ^ k) * (r + 2 ^ k) ≤ n then r + 2 ^ k else r)

/-- floor(√n). -/
def isqrt (n : Nat) : Nat := isqrtBits n (Nat.log2 n / 2 + 1) 0

/-- √(m × 2^e) as a magnitude n × 2^e' whose lowest bit stands for everything below: enough for any rounding of up to
`prec` bits. -/
def sqrtMag (m : Nat) (e : Int) (prec : Nat) : Nat × Int :=
  let k := 2 * prec + 8
  let k := if (e - k) % 2 = 0 then k else k + 1
  let big := m * 2 ^ k
  let r := isqrt big
  (2 * r + (if r * r = big then 0 else 1), (e - k) / 2 - 1)

/-- √a (R176). -/
def fSqrt (f : Fmt) (md : RMode) (a : Nat) : Nat × Fl :=
  match f.read a with
  | .nan n s fr => nanResult f [.nan n s fr]
  | .inf true => (f.qnan, NV)
  | .inf false => (f.infCode, 0)
  | .num n m e =>
    if m = 0 then (f.withSign n 0, 0)
    else if n then (f.qnan, NV)
    else
      let (r, e') := sqrtMag m e (f.mbits + 4)
      roundTo f md false 0 false r 1 e'

/-- The order of R178 on numbers, −0 below +0: whether a is below b. -/
def fLess (x y : FVal) : Bool :=
  match x, y with
  | .inf n, .inf m => n && !m
  | .inf n, _ => n
  | _, .inf m => !m
  | _, _ => x.dy.lt y.dy || (x.isZero && y.isZero && x.neg && !y.neg)

/-- minimum and maximum of IEEE 754-2019, and with `num` minimumNumber and maximumNumber (R178). -/
def fMinMax (f : Fmt) (max num : Bool) (a b : Nat) : Nat × Fl :=
  let x := f.read a
  let y := f.read b
  let sig : Fl := if x.isSig || y.isSig then NV else 0
  if x.isNan && y.isNan then (f.qnan, sig)
  else if x.isNan then (if num then b else f.qnan, sig)
  else if y.isNan then (if num then a else f.qnan, sig)
  else (if max then (if fLess x y then b else a) else (if fLess y x then b else a), 0)

/-! ### Conversions (03 R71, R87) -/

/-- Widens exactly (R71); a NaN keeps its sign and fraction, a signalling one is made quiet with invalid. -/
def widen (src dst : Fmt) (a : Nat) : Nat × Fl :=
  match src.read a with
  | .nan n s fr =>
    if src.special == .e4m3 then (dst.withSign n dst.qnan, 0)
    else
      let quiet := if s then fr + 2 ^ (src.mbits - 1) else fr
      (dst.withSign n (dst.infCode + quiet * 2 ^ (dst.mbits - src.mbits)), if s then NV else 0)
  | .inf n => (dst.withSign n dst.infCode, 0)
  | .num n m e => roundTo dst .rne false 0 n m 1 e

/-- Rounds a value read from a lane format into a narrower one, with NaN and infinity under R87. -/
def narrow (dst : Fmt) (md : RMode) (sat : Bool) (u : Nat) (x : FVal) : Nat × Fl :=
  match x with
  | .nan _ s _ =>
    match dst.special with
    | .finite => (0, NV)
    | _ => (dst.qnan, if s then NV else 0)
  | .inf n =>
    match dst.special with
    | .ieee => if sat then (dst.withSign n dst.maxCode, NV) else (dst.withSign n dst.infCode, 0)
    | _ => (dst.withSign n dst.maxCode, NV)
  | .num n m e => roundTo dst md sat u n m 1 e

/-- The lane format of a T code of 02 R41, if it is a floating-point one. -/
def laneFmt : Nat → Option Fmt
  | 0x0B => some f16
  | 0x0C => some bf16
  | 0x0D => some f32
  | 0x0E => some f64
  | _ => none

/-- The element format of a T code: lane, narrow and MX float types (02 R41, 03 R76). -/
def elemFmt : Nat → Option Fmt
  | 0x0F => some e4m3
  | 0x10 => some e5m2
  | 0x11 => some e3m2
  | 0x12 => some e2m3
  | 0x13 => some e2m1
  | 0x15 => some e4m3
  | 0x16 => some e5m2
  | 0x17 => some e3m2
  | 0x18 => some e2m3
  | 0x19 => some e2m1
  | t => laneFmt t

/-- Bits of an element of a T code of 02 R41. -/
def typeBits : Nat → Nat
  | 0x01 => 8
  | 0x02 => 16
  | 0x03 => 32
  | 0x04 => 64
  | 0x05 => 8
  | 0x06 => 16
  | 0x07 => 32
  | 0x08 => 64
  | 0x09 => 32
  | 0x0A => 64
  | 0x0B => 16
  | 0x0C => 16
  | 0x0D => 32
  | 0x0E => 64
  | 0x0F => 8
  | 0x10 => 8
  | 0x11 => 6
  | 0x12 => 6
  | 0x13 => 4
  | 0x14 => 8
  | 0x15 => 8
  | 0x16 => 8
  | 0x17 => 6
  | 0x18 => 6
  | 0x19 => 4
  | 0x1A => 8
  | 0x1B => 4
  | 0x1C => 4
  | _ => 32

/-- Whether a T code is a signed integer type. -/
def typeSigned (t : Nat) : Bool := (1 ≤ t && t ≤ 4) || t == 0x1C

/-- Whether a T code is a DXB type. -/
def typeDxb (t : Nat) : Bool := t == 0x1A || t == 0x1B

/-- Whether a T code is an MX type. -/
def typeMx (t : Nat) : Bool := 0x14 ≤ t && t ≤ 0x19

/-- Scale bytes per block of a T code (03 R83). -/
def scaleBytes (t : Nat) : Nat := if typeDxb t then 2 else if typeMx t then 1 else 0

/-! ### Stochastic rounding (03 R89) -/

/-- One xorshift step of %rng. -/
def rngStep (x : W64) : W64 :=
  let x := x ^^^ (x <<< 13)
  let x := x ^^^ (x >>> 7)
  x ^^^ (x <<< 17)

/-- The stand-in for a zero %rng state (R91). -/
def rngNonzero (x : W64) : W64 := if x = 0 then 0x9E3779B97F4A7C15 else x

/-! ### Block scales, MX and DXB elements (03 R75 to R80; 06 R189, R191) -/

/-- The value of an element under its block scales (R76 to R78); a scale of 0xFF makes every element a NaN. -/
def blockValue (t code x lo : Nat) : FVal :=
  if typeDxb t then
    let (w, mb, sh) : Nat × Nat × Int := if t = 0x1A then (7, 6, 5) else (3, 2, 1)
    if x = 0xFF || lo = 0xFF then .nan false false 0
    else
      let e := if bitAt code w then x else lo
      .num (bitAt code (w - 1)) (code % 2 ^ mb) ((e : Int) - 127 - sh)
  else if typeMx t then
    if x = 0xFF then .nan false false 0
    else if t = 0x14 then
      let i := toS 8 code
      .num (i < 0) i.natAbs ((x : Int) - 127 - 6)
    else match ((elemFmt t).getD e4m3).read code with
      | .num n m e => .num n m (e + x - 127)
      | v => v
  else if t = 0x01 || t = 0x1C then
    let i := toS (typeBits t) code
    .num (i < 0) i.natAbs 0
  else ((elemFmt t).getD f32).read code

/-- Encodes one value under Ehi and Elo (R80): code and flags. -/
def dxbEncode (t ehi elo : Nat) (md : RMode) (u : Nat) (v : FVal) : Nat × Fl :=
  let (w, lim, sh, gap) : Nat × Nat × Int × Nat := if t = 0x1A then (7, 64, 5, 6) else (3, 4, 1, 2)
  match v with
  | .nan .. => (0, NV)
  | .inf n => (2 ^ w + (if n then 2 ^ (w - 1) else 0) + (lim - 1), NV)
  | .num n m e =>
    let sg := if n then 2 ^ (w - 1) else 0
    let a : Dy := ⟨m, e⟩
    let lowExp : Int := (elo : Int) - 127 - sh
    let hiExp : Int := (ehi : Int) - 127 - sh
    let unitsAt (ex : Int) : Nat × Bool :=
      let q := a.scale (-ex)
      if 0 ≤ q.e then (q.m.natAbs * 2 ^ q.e.toNat, true) else roundQ md n u q.m.natAbs (2 ^ (-q.e).toNat)
    let viaHi : Nat × Fl :=
      let (k, ex) := unitsAt hiExp
      if lim ≤ k then (2 ^ w + sg + (lim - 1), OF ||| NX) else (2 ^ w + sg + k, if ex then 0 else NX)
    if a.lt (Dy.mk lim lowExp) then
      let (k, ex) := unitsAt lowExp
      if k < lim then (sg + k, if ex then 0 else NX)
      else if elo + gap = ehi then (2 ^ w + sg + 1, if ex then 0 else NX)
      else viaHi
    else viaHi

/-- Clamps an integer code, raising overflow and inexact when the clamp acts (R77, 06 R189). -/
def clampCode (lo hi i : Int) (exact : Bool) : Nat × Fl :=
  let r := ofI 8 (clampI lo hi i)
  if i < lo || hi < i then (r, OF ||| NX) else (r, if exact then 0 else NX)

/-- The fields of a scale word (06 R189). -/
structure ScaleWord where
  x : Nat
  lo : Nat
  zero : Bool
  deriving DecidableEq, Repr

def ScaleWord.ofNat (w : Nat) : ScaleWord := ⟨bits w 0 8, bits w 8 8, bitAt w 16⟩

/-- One element of cvtpk and of the block conversions (06 R189): the value, already read, under a scale word. -/
def encodeElem (t : Nat) (scl : Option ScaleWord) (md : RMode) (sat : Bool) (u : Nat) (v : FVal) : Nat × Fl :=
  let sw := scl.getD ⟨127, 0, false⟩
  let z := if scl.isSome then toS 8 sw.lo else 0
  let isInt := t = 0x01 || t = 0x14
  let lims : Int × Int := if t = 0x01 then (-128, 127) else (-127, 127)
  let zeroCode := if isInt then ofI 8 (clampI lims.1 lims.2 z) else 0
  if sw.zero then (zeroCode, 0)
  else if sw.x = 0xFF || (typeDxb t && sw.lo = 0xFF) then (zeroCode, NV)
  else if typeDxb t then dxbEncode t sw.x sw.lo md u v
  else if isInt then
    match v with
    | .nan .. => (zeroCode, NV)
    | .inf n => (ofI 8 (if n then lims.1 else lims.2), NV)
    | .num .. =>
      let y := v.dy.scale (127 - sw.x + (if t = 0x14 then 6 else 0))
      let (i, ex) := roundInt md u y
      clampCode lims.1 lims.2 (i + z) ex
  else
    let y : FVal :=
      match v with
      | .num n m e => .num n m (e + 127 - sw.x)
      | w => w
    narrow ((elemFmt t).getD f32) md sat u y

/-- The limit of a quantisation target as m × 2^e (06 R191). -/
def qLimit (t : Nat) (zp : Bool) : Dy :=
  if t = 0x01 then ⟨if zp then 255 else 127, 0⟩
  else if t = 0x14 then ⟨if zp then 255 else 127, -6⟩
  else if t = 0x0F || t = 0x15 then ⟨448, 0⟩
  else if t = 0x10 || t = 0x16 then ⟨57344, 0⟩
  else if t = 0x11 || t = 0x17 then ⟨28, 0⟩
  else if t = 0x12 || t = 0x18 then ⟨15, -1⟩
  else if t = 0x13 || t = 0x19 then ⟨6, 0⟩
  else if t = 0x1A then ⟨63, -5⟩
  else ⟨3, -1⟩

/-- Adds the DXB low exponent to a scale word (06 R191, 03 R79). -/
def dxbWord (t w : Nat) : Nat :=
  if typeDxb t && bits w 0 8 ≠ 0xFF then
    w - bits w 8 8 * 256 + (bits w 0 8 - (if t = 0x1A then 6 else 2)) * 256
  else w

/-- The scale word of a finite range a ≥ 0 (06 R191). -/
def scaleWordOf (t : Nat) (zp : Bool) (a : Dy) : Nat × Fl :=
  if a.m = 0 then (127 + 65536, 0)
  else
    let lim := qLimit t zp
    -- the smallest X with a ≤ lim × 2^(X − 127)
    let x0 : Int := a.log2 - lim.log2 + 127
    let x := if a.le (lim.scale (x0 - 1 - 127)) then x0 - 1 else if a.le (lim.scale (x0 - 127)) then x0 else x0 + 1
    if 254 < x then (254, OF ||| NX) else (x.toNat, 0)

/-- qscl of R191: the word and its flags, from binary32 operands. -/
def qscl (t : Nat) (zp : Bool) (a b : Nat) : Nat × Fl :=
  let x := f32.read a
  let y := f32.read b
  let badOp (v : FVal) := v.isNan || v.isInf
  if badOp x || (zp && (badOp y || y.dy.lt x.dy)) then (if typeDxb t then 0xFFFF else 0xFF, NV)
  else
    let range := if zp then y.dy.sub x.dy else x.dy.abs
    let (w, fl) := scaleWordOf t zp range
    if zp && range.m ≠ 0 then
      let g : Int := if t = 0x14 then 6 else 0
      let (i, _) := roundInt .rne 0 (x.dy.scale (127 - (w : Int) + g))
      (w + 256 * ofI 8 (clampI (-128) 127 (-128 - i)), fl)
    else (dxbWord t w, fl)

end Sys2Proof.Machine
end

