-- ==== Sys2Proof/Machine/Elem.lean ====
section
/-! DEFINITION. The elementary functions of 06 R177: each computed to far more bits than the format holds, and rounded once
under RNE.  Fixed-point values are integers in units of 2^-640. -/

namespace Sys2Proof.Machine

/-- π in units of 2^-640. -/
def fixPi : Nat := 0x3243f6a8885a308d313198a2e03707344a4093822299f31d0082efa98ec4e6c89452821e638d01377be5466cf34e90c6cc0ac29b7c97c50dd3f84d5b5b54709179216d5d98979fb1bd1310ba698dfb5ac

/-- ln 2 in units of 2^-640. -/
def fixLn2 : Nat := 0xb17217f7d1cf79abc9e3b39803f2f6af40f343267298b62d8a0d175b8baafa2be7b876206debac98559552fb4afa1b10ed2eae35c138214427573b291169b8253e96ca16224ae8c51acbda11317c387e

/-- 1 in units of 2^-640. -/
def fixOne : Nat := 2 ^ 640

/-- Terms of Σ (±) x^k / k! from `k` on, with `t` the last term: every second sign is negative when `alt`, and the terms step
by `st` factors at a time (sine and cosine by 2, exponential by 1). -/
def seriesGo (alt : Bool) (st x : Nat) : Nat → Nat → Nat → Bool → Int → Int
  | 0, _, _, _, acc => acc
  | n + 1, k, t, neg, acc =>
    let t := if st = 2 then t * x / fixOne * x / fixOne / ((k + 1) * (k + 2)) else t * x / fixOne / (k + 1)
    let neg := alt && !neg
    if t = 0 then acc else seriesGo alt st x n (k + st) t neg (if neg then acc - t else acc + t)

/-- sin x for 0 ≤ x ≤ π/2. -/
def fixSin (x : Nat) : Int := seriesGo true 2 x 200 1 x false x
/-- cos x for 0 ≤ x ≤ π/2. -/
def fixCos (x : Nat) : Int := seriesGo true 2 x 200 0 fixOne false fixOne
/-- e^x for 0 ≤ x < 1. -/
def fixExp (x : Nat) : Int := seriesGo false 1 x 300 0 fixOne false fixOne

/-- Terms of atanh z: z^(2k+1) / (2k+1). -/
def atanhGo (z2 : Nat) : Nat → Nat → Nat → Nat → Nat
  | 0, _, _, acc => acc
  | n + 1, k, t, acc =>
    let t := t * z2 / fixOne
    if t = 0 then acc else atanhGo z2 n (k + 2) t (acc + t / (k + 2))

/-- atanh z for 0 ≤ z ≤ 1/3. -/
def fixAtanh (z : Nat) : Nat := atanhGo (z * z / fixOne) 260 1 z z

/-- An inexact fixed-point value as a rounded binary32: the last bit stands for what lies below. -/
def roundFixM (md : RMode) (x : Int) (e : Int) : Nat × Fl :=
  roundTo f32 md false 0 (x < 0) (2 * x.natAbs + 1) 1 (e - 641)

/-- The same to nearest. -/
def roundFix (x : Int) (e : Int) : Nat × Fl := roundFixM .rne x e

/-- 1 / a (R177). -/
def fRcp (f : Fmt) (a : Nat) : Nat × Fl :=
  match f.read a with
  | .nan n s fr => nanResult f [.nan n s fr]
  | .inf n => (f.withSign n 0, 0)
  | .num n m e => if m = 0 then (f.withSign n f.infCode, DZ) else roundTo f .rne false 0 n 1 m (-e)

/-- 1 / √a (R177). -/
def fRsq (f : Fmt) (a : Nat) : Nat × Fl :=
  match f.read a with
  | .nan n s fr => nanResult f [.nan n s fr]
  | .inf n => if n then (f.qnan, NV) else (0, 0)
  | .num n m e =>
    if m = 0 then (f.withSign n f.infCode, DZ)
    else if n then (f.qnan, NV)
    else
      -- √(2^k / m) with k chosen so that the exponent is whole
      let k : Nat := 4 * f.mbits + 16
      let k := if (e + k) % 2 = 0 then k else k + 1
      let r := isqrt (2 ^ k / m)
      roundTo f .rne false 0 false (2 * r + (if r * r * m = 2 ^ k then 0 else 1)) 1 ((-e - k) / 2 - 1)

/-- 2^a, binary32 (R177). -/
def fEx2 (a : Nat) : Nat × Fl :=
  match f32.read a with
  | .nan n s fr => nanResult f32 [.nan n s fr]
  | .inf n => (if n then 0 else f32.infCode, 0)
  | .num n m e =>
    let d := (FVal.num n m e).dy
    if m = 0 then (0x3F800000, 0)
    else if (Dy.mk 200 0).le d then roundTo f32 .rne false 0 false 1 1 1000
    else if d.le (Dy.mk (-200) 0) then roundTo f32 .rne false 0 false 1 1 (-1000)
    else
      let k := floorInt d
      let fr := d.sub (Dy.ofInt k)
      if fr.m = 0 then roundTo f32 .rne false 0 false 1 1 k
      else roundFix (fixExp (shl fr.m.natAbs (fr.e + 640) * fixLn2 / fixOne)) k

/-- log2 a, binary32 (R177). -/
def fLg2 (a : Nat) : Nat × Fl :=
  match f32.read a with
  | .nan n s fr => nanResult f32 [.nan n s fr]
  | .inf n => if n then (f32.qnan, NV) else (f32.infCode, 0)
  | .num n m e =>
    if m = 0 then (f32.withSign true f32.infCode, DZ)
    else if n then (f32.qnan, NV)
    else
      let k : Int := (Nat.log2 m : Int) + e
      if m = 2 ^ Nat.log2 m then roundDy f32 .rne false 0 false (Dy.ofInt k)
      else
        -- m / 2^log2 m = y in (1, 2); ln y = 2 atanh ((y − 1) / (y + 1))
        let p := 2 ^ Nat.log2 m
        let z := (m - p) * fixOne / (m + p)
        roundFix (k * fixOne + (2 * fixAtanh z * fixOne / fixLn2 : Nat)) 0

/-- The quadrant and the remainder of a magnitude modulo π/2. -/
def reducePi (m : Nat) (e : Int) : Nat × Nat :=
  let x := shl m (e + 640)
  let h := fixPi / 2
  (x / h % 4, x % h)

/-- sin a, binary32, rounded once in a mode (R177). -/
def fSinM (md : RMode) (a : Nat) : Nat × Fl :=
  match f32.read a with
  | .nan n s fr => nanResult f32 [.nan n s fr]
  | .inf _ => (f32.qnan, NV)
  | .num n m e =>
    if m = 0 then (f32.withSign n 0, 0)
    else
      let (q, r) := reducePi m e
      let y := if q % 2 = 0 then fixSin r else fixCos r
      let y := if 2 ≤ q then -y else y
      roundFixM md (if n then -y else y) 0

/-- sin a, binary32 (R177). -/
def fSin (a : Nat) : Nat × Fl := fSinM .rne a

/-- cos a, binary32, rounded once in a mode (R177). -/
def fCosM (md : RMode) (a : Nat) : Nat × Fl :=
  match f32.read a with
  | .nan n s fr => nanResult f32 [.nan n s fr]
  | .inf _ => (f32.qnan, NV)
  | .num _ m e =>
    if m = 0 then (0x3F800000, 0)
    else
      let (q, r) := reducePi m e
      let y := if q % 2 = 0 then fixCos r else fixSin r
      roundFixM md (if q = 1 || q = 2 then -y else y) 0

/-- cos a, binary32 (R177). -/
def fCos (a : Nat) : Nat × Fl := fCosM .rne a

/-- A binary32 code as a place in the order of the numbers, and back. -/
def placeOf (a : Nat) : Int := if a < 2 ^ 31 then (a : Int) else -((a - 2 ^ 31 : Nat) : Int)

def codeAt (k : Int) : Nat := if 0 ≤ k then k.toNat else 2 ^ 31 + k.natAbs

/-- A value of the Zynilo-2 tables (R177): one of the four binary32 numbers next to the exact value, two on either side, so that the
error stays within 2 ulp; the flags are those of its rounding, inexact, and with it underflow where the result is tiny.  `pick` is the
table's choice: bits 1 and 0 the number, bit 2 whether the rounding was exact, bit 3 whether a smallest normal was tiny. -/
def tableValue (pick : BitVec 4) (below above : Nat) : Nat × Fl :=
  let n := pick.toNat % 4
  let y := codeAt (if n = 0 then placeOf below - 1 else if n = 1 then placeOf below else if n = 2 then placeOf above else placeOf above + 1)
  let tiny : Bool := y % 2 ^ 31 < 2 ^ 23 || (y % 2 ^ 31 == 2 ^ 23 && pick.getLsbD 3)
  (y, if pick.getLsbD 2 then 0 else if tiny then NX ||| UF else NX)

end Sys2Proof.Machine
end

