-- ==== Sys2Proof/Machine/Operands.lean ====
section
/-! DEFINITION. Register reads and writes of a pack, and every operand form of the lane instructions (02 R37 to R48,
03 R67, 05 R137, R138, R146, 06 R173). -/

namespace Sys2Proof.Machine

/-! ### Fields of an encoding -/

/-- The extended words of a base form: every field zero (02 R37, R42). -/
def Ext.zero : Ext where
  mod := 0
  rc := false
  rb := false
  ra := false
  gx := false
  rm := 0
  t := 0
  c := 0
  bx := 0
  ax := 0
  dx := 0
  imm := 0
  kd := false
  ka := false
  kb := false
  kc := false
  mc := 0
  mb := 0
  ma := 0
  bw := 0
  bh := 0

def encX (e : Enc) : Ext := e.ext.getD Ext.zero
/-- MOD (02 R42). -/
def encMod (e : Enc) : Nat := (encX e).mod.toNat
/-- Bit `i` of MOD. -/
def encModBit (e : Enc) (i : Nat) : Bool := bitAt (encMod e) i
/-- T, with the opcode's default type for 0 (02 R41). -/
def encTy (e : Enc) (dflt : Nat) : Nat := if (encX e).t = 0 then dflt else (encX e).t.toNat
/-- {DX, D}, {AX, A}, {BX, B} and C (02 R38). -/
def encD (e : Enc) : Nat := (encX e).dx.toNat * 64 + e.d.toNat
def encA (e : Enc) : Nat := (encX e).ax.toNat * 64 + e.a.toNat
def encB (e : Enc) : Nat := (encX e).bx.toNat * 64 + e.b.toNat
def encC (e : Enc) : Nat := (encX e).c.toNat
/-- IMM16 unsigned and signed (02 R39). -/
def encImm (e : Enc) : Nat := (encX e).imm.toNat
def encImmS (e : Enc) : Int := toS 16 (encX e).imm.toNat
/-- Word 2 bits [15:12] as one field (classes MM and N). -/
def encK (e : Enc) : Nat :=
  bit (encX e).kd * 8 + bit (encX e).ka * 4 + bit (encX e).kb * 2 + bit (encX e).kc
/-- The guard predicate's number (02 R36). -/
def encGuard (e : Enc) : Nat := bit (encX e).gx * 8 + e.g.toNat
/-- The 18-bit field [31:14] (02 R51). -/
def encO18 (e : Enc) : Nat := e.b.toNat * 4096 + e.a.toNat * 64 + e.d.toNat

/-! ### Lists of lanes -/

/-- The list with element `i` changed. -/
def modAt {α : Type} (f : α → α) : List α → Nat → List α
  | [], _ => []
  | x :: l, 0 => f x :: l
  | x :: l, i + 1 => x :: modAt f l i

/-- The lanes of a mask below `w`, ascending. -/
def lanesOf (m : BitVec 64) (w : Nat) : List Nat := (List.range w).filter m.getLsbD

/-- The mask of a list of lanes. -/
def maskOf (l : List Nat) : BitVec 64 := l.foldl (fun m t => m ||| (1#64 <<< t)) 0

def Thread.blank : Thread := ⟨0, true, false, 0, 0, [], 0x80, 0, 0⟩

def packThread (p : Pack) (t : Nat) : Thread := p.threads.getD t Thread.blank
def packModThread (p : Pack) (t : Nat) (f : Thread → Thread) : Pack := { p with threads := modAt f p.threads t }

/-! ### Registers (02 R37, 05 R131, R137, R138) -/

/-- v`n` of thread `t`; a dead register reads zero (05 R137). -/
def rdV (p : Pack) (n t : Nat) : Nat :=
  if (packThread p t).vdead.getLsbD n then 0 else (Tab.get 0 p.v (64 * n + t)).toNat

/-- A 64-bit value of an even pair (03 R67). -/
def rdV64 (p : Pack) (n t : Nat) : Nat := rdV p n t + 4294967296 * rdV p (n + 1) t

/-- A 128-bit value of an aligned quad (03 R67). -/
def rdV128 (p : Pack) (n t : Nat) : Nat := rdV64 p n t + 2 ^ 64 * rdV64 p (n + 2) t

/-- Notes rows that the den copies before the first write of the interval (15 R455). -/
def noteRow (p : Pack) (n : Nat) : Pack := { p with denRows := Tab.set false p.denRows n true }

/-- Writes v`n` of thread `t` and clears its dead bit (05 R137). -/
def wrV (p : Pack) (n t x : Nat) : Pack :=
  { noteRow p n with
    v := Tab.set 0 p.v (64 * n + t) (BitVec.ofNat 32 x)
    threads := modAt (fun th => { th with vdead := th.vdead &&& ~~~(1#256 <<< n) }) p.threads t }

def wrV64 (p : Pack) (n t x : Nat) : Pack := wrV (wrV p n t (x % 4294967296)) (n + 1) t (x / 4294967296)
def wrV128 (p : Pack) (n t x : Nat) : Pack := wrV64 (wrV64 p n t (x % 2 ^ 64)) (n + 2) t (x / 2 ^ 64)

/-- s`n`; a dead register reads zero (05 R138). -/
def rdS (p : Pack) (n : Nat) : W64 := if p.sdead.getLsbD n then 0 else Tab.get 0 p.s n
def wrS (p : Pack) (n : Nat) (x : W64) : Pack :=
  { p with s := Tab.set 0 p.s n x, sdead := p.sdead &&& ~~~(1#64 <<< n) }

/-- p`n` of thread `t`; p7 reads 1 (02 R36). -/
def rdP (p : Pack) (n t : Nat) : Bool := n == 7 || (packThread p t).preds.getLsbD n
/-- Writes p`n` of thread `t`; a write of p7 changes nothing (04 R113). -/
def wrP (p : Pack) (n t : Nat) (b : Bool) : Pack :=
  if n = 7 then p
  else packModThread p t fun th =>
    { th with preds := if b then th.preds ||| (1#16 <<< n) else th.preds &&& ~~~(1#16 <<< n) }

def rdK (p : Pack) (n t : Nat) : Cap := Tab.get Cap.null p.k (64 * n + t)
def wrK (p : Pack) (n t : Nat) (c : Cap) : Pack :=
  { noteRow (noteRow (noteRow (noteRow p (256 + 4 * n)) (257 + 4 * n)) (258 + 4 * n)) (259 + 4 * n) with k := Tab.set Cap.null p.k (64 * n + t) c }
def rdY (p : Pack) (n : Nat) : Cap := p.y.getD n Cap.null
def wrY (p : Pack) (n : Nat) (c : Cap) : Pack := { p with y := modAt (fun _ => c) p.y n }

/-- The capability that a field of class MM names: 0 to 15 k, 16 to 23 y (02 R54). -/
def rdCap (p : Pack) (n t : Nat) : Cap := if n < 16 then rdK p n t else rdY p (n - 16)

/-! ### Operand forms -/

/-- Where a source operand comes from. -/
inductive Src where
  | vec (anchor : Nat) (mode : Nat)
  | uni (n : Nat)
  | imm (i : Int)
  deriving DecidableEq, Repr

/-- Columns an element of `n` bits occupies (02 R43). -/
def colsOf (n : Nat) : Nat := if n ≤ 32 then 1 else if n ≤ 64 then 2 else 4

/-- Register number of element (i, j) of a block operand (02 R44). -/
def blockReg (anchor mode i j cw : Nat) : Nat :=
  let row := anchor / 16
  let col := anchor % 16
  match mode with
  | 0 => (row + i) * 16 + (col + j * cw)
  | 1 => row * 16 + (col + j * cw)
  | 2 => (row + i) * 16 + col
  | _ => row * 16 + col

/-- The elements of an instruction's block, row-major (02 R43). -/
def blockElems (e : Enc) : List (Nat × Nat) :=
  (List.range ((encX e).bh.toNat + 1)).flatMap fun i => (List.range ((encX e).bw.toNat + 1)).map fun j => (i, j)

def srcA (e : Enc) : Src := if (encX e).ka then .uni e.a.toNat else .vec (encA e) (encX e).ma.toNat
/-- Source B; a literal replaces it (02 R47). -/
def srcB (e : Enc) : Src :=
  match e.lit with
  | some l => .imm l.toNat
  | none => if (encX e).kb then .uni e.b.toNat else .vec (encB e) (encX e).mb.toNat
def srcC (e : Enc) : Src := if (encX e).kc then .uni (encC e) else .vec (encC e) (encX e).mc.toNat
/-- The 6-bit immediate of class RI, sign-extended (02 R48). -/
def srcImmS (e : Enc) : Src := .imm (toS 6 e.b.toNat)
/-- The same, zero-extended (02 R48). -/
def srcImmZ (e : Enc) : Src := .imm e.b.toNat

/-- The low `n` bits of a source operand in thread `t`, block element (i, j) (05 R146, 06 R173). -/
def rdSrc (p : Pack) (src : Src) (n t i j : Nat) : Nat :=
  match src with
  | .vec a m =>
    let r := blockReg a m i j (colsOf n)
    if n ≤ 32 then rdV p r t % 2 ^ n else if n ≤ 64 then rdV64 p r t else rdV128 p r t
  | .uni r => (rdS p r).toNat % 2 ^ n
  | .imm x => ofI n x

/-- A result of `n` bits in a uniform register: sign-extended for a signed type (05 R146). -/
def uniExt (signed : Bool) (n x : Nat) : W64 := if signed then BitVec.ofInt 64 (toS n x) else BitVec.ofNat 64 x

/-- Writes a result of `n` bits to the destination of an instruction: a vector register, pair or quad of thread `t`, or with
KD the uniform register (02 R39, 05 R146). -/
def wrD (p : Pack) (e : Enc) (signed : Bool) (n t i j x : Nat) : Pack :=
  if (encX e).kd then wrS p e.d.toNat (uniExt signed n x)
  else
    let r := blockReg (encD e) 0 i j (colsOf n)
    if n ≤ 32 then wrV p r t x else if n ≤ 64 then wrV64 p r t x else wrV128 p r t x

/-! ### Guard and masks (02 R36, 04 R103) -/

/-- The threads of the selected subset whose guard holds. -/
def execMask (p : Pack) (e : Enc) : BitVec 64 :=
  maskOf ((lanesOf p.sel p.width).filter fun t => rdP p (encGuard e) t != e.gn)

end Sys2Proof.Machine
end

