-- ==== Sys2Proof/Machine/Flags.lean ====
section
/-! DEFINITION. The IEEE flags of a pack's threads, floating-point exception traps (06 R166 to R171), and the lane
combinators through which every lane instruction reads its operands, computes and writes its results (02 R46, 03 R90). -/

namespace Sys2Proof.Machine

/-! ### Trap classes (15 R444) -/

def clsIllop : Nat := 1
def clsPriv : Nat := 2
def clsCapv : Nat := 3
def clsAlign : Nat := 4
def clsFpe : Nat := 5
def clsBndv : Nat := 6
def clsSusp : Nat := 7
def clsScale : Nat := 8
def clsTile : Nat := 9
def clsMacro : Nat := 10
def clsCopyr : Nat := 11
def clsCpya : Nat := 12
def clsXlate : Nat := 13
def clsRace : Nat := 14
def clsStrict : Nat := 15
def clsTrack : Nat := 16
def clsDivg : Nat := 17
def clsUce : Nat := 18
def clsSwtrap : Nat := 20
def clsWdog : Nat := 21

/-- What a lane instruction works with: its encoding, its execution mask and its address. -/
structure Ctx where
  e : Enc
  m : BitVec 64
  pc : W64
  deriving DecidableEq, Repr

/-- A trap with the execution mask in %tmask. -/
def Ctx.trap (c : Ctx) (cls sub : Nat) (val : W64) : Trap := ⟨cls, sub, val, c.m⟩

/-- A trap whose %tval no rule states: a free value of the class, the subcode and the operand concerned. -/
def Ctx.openTrap (c : Ctx) (cls sub : Nat) (x : W64) : Trap := c.trap cls sub (Config.trapVal cls sub x)

/-- The rounding mode of an instruction (06 R169): DRM of %fenv in the base form, RM or %rm in the extended form. -/
def rmOf (p : Pack) (e : Enc) : RMode :=
  match e.ext with
  | none => RMode.ofCode (p.fenv.toNat / 256 % 8)
  | some x => if x.rm = 6 then RMode.ofCode p.rm.toNat else RMode.ofCode x.rm.toNat

/-- The flags enabled to trap (06 R167). -/
def enabledFlags (p : Pack) : Fl := BitVec.ofNat 5 p.fenv.toNat

/-- The FPE trap of per-thread flags, if an enabled one arose (06 R170). -/
def fpeTrap (p : Pack) (fl : List (Nat × Fl)) : Option Trap :=
  let en := enabledFlags p
  let bad := fl.filter fun x => x.2 &&& en ≠ 0
  if bad.isEmpty then none
  else
    let all := bad.foldl (fun a x => a ||| x.2) (0 : Fl)
    some ⟨clsFpe, (all &&& en).toNat, BitVec.ofNat 64 all.toNat, maskOf (bad.map (·.1))⟩

/-- Raises flags in threads (06 R166). -/
def raiseFlags (p : Pack) (fl : List (Nat × Fl)) : Pack :=
  fl.foldl (fun q x => packModThread q x.1 fun th => { th with fflags := th.fflags ||| x.2 }) p

/-- One element's work: thread and block position. -/
structure Job where
  t : Nat
  i : Nat
  j : Nat
  deriving DecidableEq, Repr

/-- The elements of an instruction, threads in ascending lane order and block elements row-major (03 R90).  With a uniform
destination the operation is computed once (06 R173). -/
def jobsOf (c : Ctx) (p : Pack) : List Job :=
  if (encX c.e).kd then [⟨0, 0, 0⟩]
  else (lanesOf c.m p.width).flatMap fun t => (blockElems c.e).map fun b => ⟨t, b.1, b.2⟩

/-- `n` draws of %rng (03 R89). -/
def takeDraws : Nat → W64 → List Nat × W64
  | 0, r => ([], r)
  | n + 1, r =>
    let r' := rngStep r
    let (l, r'') := takeDraws n r'
    (r'.toNat % 4294967296 :: l, r'')

/-- The draws of an element: none for a deterministic mode; under an all-zero mask %rng does not advance (03 R90). -/
def drawsFor (c : Ctx) (n : Nat) (r : W64) : List Nat × W64 :=
  if c.m = 0 then (List.replicate n Config.undrawn.toNat, r) else takeDraws n r

/-- Computes every element from the registers as they stood, in order, with its draws. -/
def runJobs (c : Ctx) (draws : Nat) (f : Job → List Nat → Nat × Fl) : List Job → W64 → List (Job × Nat × Fl) × W64
  | [], r => ([], r)
  | j :: js, r =>
    let (u, r') := drawsFor c draws r
    let (out, r'') := runJobs c draws f js r'
    ((j, f j u) :: out, r'')

/-- The flags each thread of the execution mask raises. -/
def jobFlags (c : Ctx) (p : Pack) (out : List (Job × Nat × Fl)) : List (Nat × Fl) :=
  if (encX c.e).kd then (lanesOf c.m p.width).map fun t => (t, out.foldl (fun a x => a ||| x.2.2) 0)
  else (lanesOf c.m p.width).map fun t => (t, out.foldl (fun a x => if x.1.t = t then a ||| x.2.2 else a) 0)

/-- The common form of a lane instruction with a value result of `n` bits: read all, compute all, take FPE or write all
(02 R46, 06 R170). -/
def laneOp (c : Ctx) (n : Nat) (signed : Bool) (draws : Nat) (f : Job → List Nat → Nat × Fl) (p : Pack) : Except Trap Pack :=
  let (out, rng) := runJobs c draws f (jobsOf c p) p.rng
  let fl := jobFlags c p out
  match fpeTrap p fl with
  | some t => .error t
  | none =>
    let q := out.foldl (fun q x => wrD q c.e signed n x.1.t x.1.i x.1.j x.2.1) p
    .ok { raiseFlags q fl with rng := rng }

/-- A lane instruction with no flags and no draws. -/
def laneInt (c : Ctx) (n : Nat) (signed : Bool) (f : Job → Nat) (p : Pack) : Except Trap Pack :=
  laneOp c n signed 0 (fun j _ => (f j, 0)) p

/-- A lane instruction with a predicate result (05 R159, 06 R179). -/
def lanePred (c : Ctx) (f : Nat → Bool × Fl) (p : Pack) : Except Trap Pack :=
  let out := (lanesOf c.m p.width).map fun t => (t, f t)
  let fl := out.map fun x => (x.1, x.2.2)
  match fpeTrap p fl with
  | some t => .error t
  | none => .ok (raiseFlags (out.foldl (fun q x => wrP q c.e.d.toNat x.1 x.2.1) p) fl)

/-- Writes a list of vector registers, from anchor `d`, in each thread of the execution mask: register number and value. -/
def laneRegs (c : Ctx) (f : Nat → List (Nat × Nat)) (p : Pack) : Pack :=
  ((lanesOf c.m p.width).map fun t => (t, f t)).foldl (fun q x => x.2.foldl (fun q y => wrV q y.1 x.1 y.2) q) p

/-- The same with flags (06 R170). -/
def laneRegsFl (c : Ctx) (f : Nat → List (Nat × Nat) × Fl) (p : Pack) : Except Trap Pack :=
  let fl := (lanesOf c.m p.width).map fun t => (t, (f t).2)
  match fpeTrap p fl with
  | some t => .error t
  | none => .ok (raiseFlags (laneRegs c (fun t => (f t).1) p) fl)

end Sys2Proof.Machine
end

