-- ==== Sys2Proof/Machine/Illop.lean ====
section
/-! DEFINITION. The encoding checks of 02 R57: for each instruction the row of its chapter's encoding table, and the lowest
subcode of the conditions an encoding breaks. -/

namespace Sys2Proof.Machine

/-- Form classes (02 R51). -/
inductive Form where
  | n | f | rr | ri | br | lp | xe | mm
  deriving DecidableEq, Repr

/-- What a register field names (02 R37, R39). -/
inductive Fld where
  | zero
  /-- a vector register holding `n` bits; its K bit selects a uniform register -/
  | vec (n : Nat)
  /-- a vector register only -/
  | vecOnly (n : Nat)
  | uni
  | pred
  /-- k0 to k15 as 0 to 15, y0 to y7 as 16 to 23 -/
  | cap
  /-- y0 to y7 as 0 to 7 -/
  | y8
  /-- y0 to y7 as 16 to 23 -/
  | ycap
  | queue
  | tile
  | bar
  /-- no register: an immediate or a table slot checked elsewhere -/
  | imm
  /-- a field whose use hangs on a MOD code that the row does not define: subcode 10 reports the encoding -/
  | any
  deriving DecidableEq, Repr

/-- A row of an encoding table, for one encoding. -/
structure Row where
  form : Form
  d : Fld
  a : Fld
  b : Fld
  c : Fld
  /-- accepted T codes beside 0, and whether T = 0 is accepted -/
  types : List Nat
  dflt : Bool
  /-- MOD is a code the row defines -/
  modOk : Bool
  block : Bool
  /-- 0 does not round, 1 rounds, 2 rounds and admits RM = 0b101 -/
  round : Nat
  /-- IMM16 holds what the row admits -/
  immOk : Bool
  /-- an XE literal has a use -/
  litOk : Bool
  /-- MM: word 2 bits [15:12] hold what the row admits -/
  hiOk : Bool
  /-- further subcodes that the row's own rules give -/
  extra : List Nat
  deriving DecidableEq, Repr

/-- A row with every field zero and nothing else admitted. -/
def rowOf0 (e : Enc) (form : Form) : Row where
  form := form
  d := .zero
  a := .zero
  b := .zero
  c := .zero
  types := []
  dflt := true
  modOk := encMod e == 0
  block := false
  round := 0
  immOk := encImm e == 0
  litOk := false
  hiOk := encK e == 0
  extra := []

/-- A field's kind under a MOD code that the row defines. -/
def fldFor (ok : Bool) (f : Fld) : Fld := if ok then f else .any

/-- A subcode when a condition holds. -/
def sub (b : Bool) (n : Nat) : List Nat := if b then [n] else []

def tInt : List Nat := [3, 7, 4, 8]
def tBits : List Nat := [9, 10]
def tFloat : List Nat := [0x0D, 0x0E, 0x0B, 0x0C]
def tF32 : List Nat := [0x0D, 0x0B, 0x0C]
def tMem : List Nat := [9, 1, 5, 2, 6, 10]
def tAll : List Nat := (List.range 0x1C).map (· + 1)
def tAtom : List Nat := [3, 7, 4, 8, 9, 10, 1, 5, 2, 6]
def tCvtpk : List Nat := [0x0B, 0x0C, 0x0F, 0x10, 0x11, 0x12, 0x13, 0x01, 0x14, 0x15, 0x16, 0x17, 0x18, 0x19, 0x1A, 0x1B]
def tQscl : List Nat := [0x01, 0x14, 0x0F, 0x15, 0x10, 0x16, 0x11, 0x17, 0x12, 0x18, 0x13, 0x19, 0x1A, 0x1B]
def tBlock : List Nat := [0x14, 0x15, 0x16, 0x17, 0x18, 0x19, 0x1A, 0x1B]
def tMatrix : List Nat := [0x01, 0x1C, 0x14, 0x0F, 0x10, 0x15, 0x16, 0x17, 0x18, 0x19, 0x1A, 0x1B, 0x0E, 0x0D, 0x0C, 0x0B]
def tMmaInt : List Nat := [0x01, 0x1C, 0x14]
def tMmaFloat : List Nat := [0x0F, 0x10, 0x15, 0x16, 0x17, 0x18, 0x19, 0x1A, 0x1B]
def tSliced : List Nat := [0x0E, 0x0D, 0x0C, 0x0B]

/-- Class RR or RI with three operands of the type's width. -/
def rowAlu (e : Enc) (form : Form) (types : List Nat) : Row :=
  let n := typeBits (encTy e (types.headD 9))
  { rowOf0 e form with
    d := .vec n, a := .vec n, b := if form = .ri then .imm else .vec n, types := types }

/-- A floating-point row of class RR. -/
def rowFp (e : Enc) (types : List Nat) (two : Bool) : Row :=
  let n := typeBits (encTy e (types.headD 0x0D))
  { rowOf0 e .rr with d := .vec n, a := .vec n, b := if two then .vec n else .zero, types := types, round := 1 }

/-- iadd and isub (05 R145, R151): .co and .cy are MOD[2:1], and .sat beside one of them is subcode 10. -/
def rowIadd (e : Enc) (form : Form) : Row :=
  let m := encMod e
  let carry := m / 2 == 1 || m / 2 == 2
  { rowAlu e form tInt with
    c := fldFor (m < 6) (if carry then .pred else .zero)
    modOk := m ≤ 2 || m == 4
    block := !carry
    extra := sub (carry && (encX e).kd) 9 }

/-- The index kind of a class MM encoding, MOD[5:4] (02 R54). -/
def mmIdx (e : Enc) : Nat := encMod e / 16 % 4
/-- log2 of the scale, MOD[3:1]. -/
def mmScale (e : Enc) : Nat := encMod e / 2 % 8

/-- A class MM row (02 R54): `y` rows take only per-pack capabilities and no vector index; `mod0` says MOD[0] may be set. -/
def rowMm (e : Enc) (y : Bool) (mod0 : Bool) : Row :=
  let ext := e.ext.isSome
  let idx := mmIdx e
  { rowOf0 e .mm with
    a := if y then .ycap else .cap
    b := if !ext then (if y then .zero else .imm) else if idx = 1 then .vecOnly 32 else if idx = 2 then .uni else if idx = 3 then .imm else .zero
    modOk := idx ≠ 3 && mmScale e ≤ 4 && (mod0 || encMod e % 2 = 0)
    extra := sub (y && idx == 1) 9 }

/-- ld, st, ldg and stg (08 R245). -/
def rowLdSt (e : Enc) (uniform guarded : Bool) : Row :=
  let capForm := !guarded && encModBit e 0
  let n := typeBits (encTy e 9)
  { rowMm e uniform (!guarded) with
    d := if capForm then (if uniform then .y8 else .pred) else if uniform then .uni else .vecOnly (max n 32)
    c := if guarded then .pred else .zero
    types := if capForm then [] else tMem
    hiOk := encK e % 16 ≤ 1 }

/-- atom and red (10 R286). -/
def rowAtom (e : Enc) (types : List Nat) (ops : Nat) (atom : Bool) : Row :=
  let x2 := atom && encModBit e 0 && ops == 8
  let op := encK e % 8
  let n := if x2 then 128 else max 32 (typeBits (encTy e (types.headD 3)))
  { rowMm e false (atom && ops == 8) with
    d := .vecOnly n
    c := if atom && op = 7 && ops == 8 then .vecOnly n else .zero
    types := types
    hiOk := encK e < 8
    extra := sub (ops ≤ op) 10 ++ sub (x2 && !(encTy e 3 == 10 && (op == 6 || op == 7))) 10 }

/-- The y-only quay instructions (10 R286). -/
def rowQuay (e : Enc) (d : Fld) (c : Fld) (types : List Nat) (mod0 : Bool) : Row :=
  { rowMm e true mod0 with d := d, c := c, types := types }

/-- The mooring instructions with .slot (09 R273). -/
def rowMoor (e : Enc) (d : Fld) (mods : Nat) (mod0 : Bool) : Row :=
  let k := encK e
  let slot := k % 2 == 1
  let r := rowMm e true mod0
  { r with
    d := d
    a := if slot then .zero else .ycap
    b := if slot then .zero else r.b
    c := .imm
    hiOk := k ≤ mods
    extra := (if slot then sub (encMod e / 2 ≠ 0) 3 else r.extra ++ sub (encC e ≠ 0) 3) }

/-- A copy instruction (11 R346). -/
def rowCopy (e : Enc) : Row :=
  { rowOf0 e .xe with
    d := .y8, a := .y8, b := .uni
    extra := sub (encB e % 16 ≠ 0) 4 }

/-- A matrix instruction over tiles (12 R358). -/
def rowMat (e : Enc) (types : List Nat) (dflt : Bool) : Row :=
  { rowOf0 e .xe with d := .tile, a := .tile, b := .zero, c := .zero, types := types, dflt := dflt }

/-- A control instruction of class N (04 R113). -/
def rowN (e : Enc) : Row := rowOf0 e .n

/-- shfl and bcst (04 R113). -/
def rowShfl (e : Enc) (form : Form) (b : Fld) : Row :=
  let n := typeBits (encTy e 9)
  { rowOf0 e form with
    d := .vec n, a := .vec n, b := if form = .ri then .imm else b, types := tBits }

/-- lred (04 R113). -/
def rowLred (e : Enc) (types : List Nat) (mod : Bool) : Row :=
  let t := encTy e (types.headD 3)
  { rowOf0 e .rr with
    d := .uni, a := .vec (typeBits t), types := types
    modOk := encMod e == 0 || (mod && encMod e == 1) }

/-- Special registers that srd and swr name by a vector register, and those of 64 bits (04 R120). -/
def srThread (n : Nat) : Bool := n == 0 || n == 1 || n == 4
def srWide (n : Nat) : Bool := n == 0

/-- The row of an instruction; events and unassigned opcodes have none. -/
def rowOf (w : Nat) : Instr → Option Row
  | .nop e => some (rowN e)
  | .bra e => some (rowOf0 e .br)
  | .brx e => some { rowOf0 e .rr with a := .vec 64 }
  | .call e => some (rowOf0 e .br)
  | .callReg e => some { rowOf0 e .rr with a := .vec 64 }
  | .ret e => some (rowN e)
  | .conv e => some (rowN e)
  | .exit e => some (rowN e)
  | .loop e => some (rowOf0 e .lp)
  | .loopImm e => some (rowOf0 e .lp)
  | .lbrk e => some { rowN e with extra := sub (encGuard e ≠ 7 || e.gn) 3 }
  | .yield e => some (rowN e)
  | .trap e => some { rowOf0 e .ri with b := .imm }
  | .trapReg e => some { rowOf0 e .rr with a := .uni }
  | .tret e => some { rowOf0 e .ri with
      a := if e.b.toNat ≤ 1 then .zero else .uni, b := .imm, extra := sub (encGuard e ≠ 7 || e.gn) 3 }
  | .tbnd e => some { rowOf0 e .rr with a := .uni, b := .uni, extra := sub (encA e % 2 == 1 || 62 < encA e) 4 ++ sub e.lit.isSome 11 }
  | .sflg e => some { rowOf0 e .rr with
      d := .uni, b := fldFor (encMod e ≤ 1) (if encMod e = 1 then .uni else .zero), modOk := encMod e ≤ 1, extra := sub e.lit.isSome 11 }
  | .sysr e => some { rowOf0 e .rr with d := .uni, a := .uni }
  | .sysrImm e => some { rowOf0 e .ri with d := .uni, b := .imm }
  | .sysw e => some { rowOf0 e .rr with a := .uni, b := .uni, extra := sub e.lit.isSome 11 }
  | .syswImm e => some { rowOf0 e .ri with a := .uni, b := .imm }
  | .lnch e => some { rowOf0 e .rr with d := .pred, a := .y8, b := .uni, extra := sub e.lit.isSome 11 }
  | .mov e => some { rowAlu e .rr tBits with a := .zero, block := true }
  | .movImm e => some { rowAlu e .ri tBits with a := .zero, block := true }
  | .movs e => some { rowOf0 e .rr with d := .uni, a := .vecOnly (typeBits (encTy e 9)), types := tBits }
  | .iadd e => some (rowIadd e .rr)
  | .iaddImm e => some (rowIadd e .ri)
  | .isub e => some (rowIadd e .rr)
  | .isubImm e => some (rowIadd e .ri)
  | .imul e => some { rowAlu e .rr tInt with modOk := encMod e ≤ 1, block := true }
  | .imulImm e => some { rowAlu e .ri tInt with modOk := encMod e ≤ 1, block := true }
  | .imad e =>
      let r := rowAlu e .xe tInt
      let n := typeBits (encTy e 3)
      let wide := encModBit e 0
      some { r with
        d := .vec (if wide then 2 * n else n), c := .vec (if wide then 2 * n else n)
        modOk := encMod e ≤ 1, block := true, litOk := true, extra := sub (wide && n == 64) 5 }
  | .idiv e => some { rowAlu e .rr tInt with modOk := encMod e ≤ 1 }
  | .imin e => some { rowAlu e .rr tInt with block := true }
  | .iminImm e => some { rowAlu e .ri tInt with block := true }
  | .imax e => some { rowAlu e .rr tInt with block := true }
  | .imaxImm e => some { rowAlu e .ri tInt with block := true }
  | .iabs e => some { rowAlu e .rr [3, 4] with b := .zero, modOk := encMod e ≤ 1 }
  | .ineg e => some { rowAlu e .rr [3, 4] with b := .zero, modOk := encMod e ≤ 1 }
  | .bfn e =>
      let r := rowAlu e .xe tBits
      some { r with c := r.b, block := true, litOk := true, immOk := encImm e < 256 }
  | .shf e => some { rowAlu e .rr tBits with b := .vec 32, modOk := encMod e ≤ 3, block := true }
  | .shfImm e => some { rowAlu e .ri tBits with modOk := encMod e ≤ 3, block := true }
  | .bfx e => some { rowAlu e .xe tInt with
      b := .zero, c := if encModBit e 0 then .zero else .vec 32, modOk := encMod e ≤ 1
      immOk := encModBit e 0 || encImm e == 0 }
  | .bfi e => some { rowAlu e .xe tBits with
      c := if encModBit e 0 then .zero else .vec 32, modOk := encMod e ≤ 1, litOk := true
      immOk := encModBit e 0 || encImm e == 0 }
  | .popc e => some { rowAlu e .rr tBits with d := .vec 32, b := .zero }
  | .clz e => some { rowAlu e .rr tBits with d := .vec 32, b := .zero }
  | .brev e => some { rowAlu e .rr tBits with b := .zero }
  | .icmp e => some { rowAlu e .rr tInt with d := .pred, modOk := encMod e ≤ 5 }
  | .icmpImm e => some { rowAlu e .ri tInt with d := .pred, modOk := encMod e ≤ 5 }
  | .sel e => some { rowAlu e .xe tBits with
      c := .pred, block := true, litOk := true, extra := sub (encX e).kd 9 }
  | .lea e => some { rowAlu e .rr [8, 4] with b := .vec 32, modOk := encMod e ≤ 4 }
  | .leaImm e => some { rowAlu e .ri [8, 4] with modOk := encMod e ≤ 4 }
  | .rkeep e => some { rowOf0 e .rr with a := .uni, b := .uni }
  | .rflush e => some { rowOf0 e .rr with a := .uni, b := .uni }
  | .faddF32 e => some { rowFp e tF32 true with block := true }
  | .faddF64 e => some { rowFp e [0x0E] true with block := true }
  | .fmulF32 e => some { rowFp e tF32 true with block := true }
  | .fmulF64 e => some { rowFp e [0x0E] true with block := true }
  | .ffmaF32 e =>
      let r := rowFp e tF32 true
      some { r with c := if e.ext.isSome then r.a else .zero, block := true }
  | .ffmaF64 e =>
      let r := rowFp e [0x0E] true
      some { r with c := if e.ext.isSome then r.a else .zero, block := true }
  | .fdiv e => some (rowFp e tFloat true)
  | .fsqrt e => some (rowFp e tFloat false)
  | .frcp e => some { rowFp e [0x0D, 0x0E] false with round := 0 }
  | .frsq e => some { rowFp e [0x0D, 0x0E] false with round := 0 }
  | .fex2 e => some { rowFp e [0x0D] false with round := 0 }
  | .flg2 e => some { rowFp e [0x0D] false with round := 0 }
  | .fsin e => some { rowFp e [0x0D] false with round := 0 }
  | .fcos e => some { rowFp e [0x0D] false with round := 0 }
  | .fmin e => some { rowFp e tFloat true with round := 0, modOk := encMod e ≤ 1, block := true }
  | .fmax e => some { rowFp e tFloat true with round := 0, modOk := encMod e ≤ 1, block := true }
  | .fcmp e => some { rowFp e tFloat true with
      d := .pred, round := 0
      modOk := encMod e < 8 || (encMod e < 16 && 2 ≤ encMod e % 8 && encMod e % 8 ≤ 5) }
  | .fclass e => some { rowFp e tFloat false with d := .vec 32, round := 0 }
  | .frnd e => some { rowFp e tFloat false with modOk := encMod e ≤ 1 }
  | .fscb e => some { rowFp e tFloat true with b := .vec 32 }
  | .flgb e => some { rowFp e tFloat false with d := .vec 32, round := 0 }
  | .fcsg e => 
      let r := rowFp e tFloat (encMod e ≤ 1)
      some { r with b := fldFor (encMod e ≤ 3) r.b, round := 0, modOk := encMod e ≤ 3, block := true }
  | .f2i e =>
      let m := encMod e
      let src := if m % 32 = 0 then 0x0D else m % 32
      some { rowOf0 e .rr with
        d := .vec (typeBits (encTy e 3)), a := fldFor (tFloat.contains src) (.vec (typeBits src)), types := tInt, round := 1
        modOk := tFloat.contains src }
  | .i2f e =>
      let m := encMod e
      let src := if m % 32 = 0 then 3 else m % 32
      let t := encTy e 0x0D
      some { rowOf0 e .rr with
        d := .vec (typeBits t), a := fldFor (tInt.contains src) (.vec (typeBits src)), types := tFloat
        round := if t = 0x0B || t = 0x0C then 2 else 1, modOk := m < 32 && tInt.contains src }
  | .f2f e =>
      let m := encMod e
      let src := if m % 32 = 0 then 0x0E else m % 32
      let t := encTy e 0x0D
      some { rowOf0 e .rr with
        d := .vec (typeBits t), a := fldFor (tFloat.contains src) (.vec (typeBits src)), types := tFloat
        round := if t = 0x0B || t = 0x0C then 2 else 1, modOk := tFloat.contains src && src ≠ t }
  | .cvtpk e =>
      let m := encMod e
      let t := encTy e 0
      let pair := t = 0x0B || t = 0x0C
      let four := typeBits t == 4
      let needScl := t = 1 || typeMx t || typeDxb t
      some { rowOf0 e .xe with
        d := if pair then .vec 32 else .vecOnly 32
        a := if pair then .vec 32 else .vecOnly 128
        b := if pair then .vec 32 else .zero
        c := if encModBit e 2 then .vec 32 else .zero
        types := tCvtpk, dflt := false, round := if t = 1 then 1 else 2, litOk := pair
        modOk := m < 8 && (!encModBit e 1 || four) && (encModBit e 2 || !needScl) }
  | .cvtup e =>
      let m := encMod e
      let src := if m % 32 = 0 then 0x0B else m % 32
      let known := [0x0B, 0x0C, 0x0F, 0x10, 0x11, 0x12, 0x13].contains src
      some { rowOf0 e .rr with
        d := fldFor known (.vecOnly (if src = 0x0B || src = 0x0C then 64 else 128)), a := .vec 32, types := [0x0D]
        modOk := known && (m < 32 || src == 0x13) }
  | .qscl e =>
      let zp := encModBit e 0
      some { rowOf0 e .xe with
        d := .vec 32, a := .vec 32, b := if zp then .vec 32 else .zero, types := tQscl, dflt := false, litOk := zp
        modOk := encMod e == 0 || (encMod e == 1 && ((encX e).t = 1 || (encX e).t = 0x14)) }
  | .slres e =>
      let n := typeBits (encTy e 0x0E)
      some { rowOf0 e .xe with
        d := .vec n, a := .vec n, b := .vec 32, types := tSliced, litOk := true
        modOk := 2 ≤ encMod e && encMod e ≤ 10 }
  | .fflg e => some { rowOf0 e .rr with
      d := .vecOnly 32, b := fldFor (encMod e ≤ 2) (if encMod e = 0 then .zero else .vec 32), modOk := encMod e ≤ 2 }
  | .frm e => some { rowOf0 e .ri with d := .uni, b := .imm, modOk := encMod e ≤ 1 }
  | .voteAll e => some { rowOf0 e .rr with d := .pred, a := .pred }
  | .voteAny e => some { rowOf0 e .rr with d := .pred, a := .pred }
  | .voteBallot e => some { rowOf0 e .rr with d := .uni, a := .pred }
  | .pfn e => some { rowOf0 e .xe with d := .pred, a := .pred, b := .pred, c := .pred, immOk := encImm e < 256 }
  | .pmov e =>
      let m := encMod e
      some { rowOf0 e .rr with
        d := fldFor (m ≤ 2) (if m = 0 then .pred else if m = 1 then .vecOnly 32 else .zero)
        a := fldFor (m ≤ 2) (if m = 0 then .pred else if m = 1 then .zero else .vecOnly 32)
        modOk := m ≤ 2 }
  | .srd e =>
      let n := e.b.toNat
      some { rowOf0 e .ri with
        d := if srThread n then .vecOnly (if srWide n then 64 else 32) else .uni, b := .imm
        extra := sub (17 < n) 4 ++ sub (encX e).ka 9 }
  | .swr e =>
      let n := e.b.toNat
      some { rowOf0 e .ri with
        a := if n = 4 then .vecOnly 32 else .uni, b := .imm
        extra := sub (!(n == 4 || n == 5 || n == 6 || n == 17)) 4 }
  | .shflIdx e => some (rowShfl e .rr (.vec 32))
  | .shflIdxImm e => some (rowShfl e .ri .imm)
  | .shflUp e => some (rowShfl e .rr .uni)
  | .shflUpImm e => some (rowShfl e .ri .imm)
  | .shflDown e => some (rowShfl e .rr .uni)
  | .shflDownImm e => some (rowShfl e .ri .imm)
  | .shflXor e => some (rowShfl e .rr .uni)
  | .shflXorImm e => some (rowShfl e .ri .imm)
  | .bcst e => some (rowShfl e .rr .uni)
  | .bcstImm e => some (rowShfl e .ri .imm)
  | .lredAdd e => some (rowLred e tInt false)
  | .lredMin e => some (rowLred e (tInt ++ [0x0D, 0x0E]) true)
  | .lredMax e => some (rowLred e (tInt ++ [0x0D, 0x0E]) true)
  | .lredAnd e => some (rowLred e tBits false)
  | .lredOr e => some (rowLred e tBits false)
  | .lredXor e => some (rowLred e tBits false)
  | .radd e => some { rowOf0 e .rr with d := .vecOnly 32, a := .vecOnly 32, types := [0x0D] }
  | .rscanInc e => some { rowOf0 e .rr with d := .vecOnly 32, a := .vecOnly 32, types := [0x0D] }
  | .rscanExc e => some { rowOf0 e .rr with d := .vecOnly 32, a := .vecOnly 32, types := [0x0D] }
  | .matchAny e => some { rowOf0 e .rr with d := .vec 64, a := .vec (typeBits (encTy e 9)), types := tBits }
  | .matchAll e => some { rowOf0 e .rr with d := .pred, a := .vec (typeBits (encTy e 9)), types := tBits }
  | .actv e => some { rowOf0 e .rr with d := .uni }
  | .ldVector e => some (rowLdSt e false false)
  | .ldUniform e => some (rowLdSt e true false)
  | .stVector e => some (rowLdSt e false false)
  | .stUniform e =>
      let r := rowLdSt e true false
      some { r with a := .cap, b := fldFor (mmIdx e ≠ 1) r.b, modOk := r.modOk && mmIdx e ≠ 1, extra := sub (encA e < 16) 4 }
  | .ldg e => some (rowLdSt e false true)
  | .stg e => some (rowLdSt e false true)
  | .cder e =>
      let perThread := encA e < 16 || (e.lit.isNone && !(encX e).kb)
      some { rowOf0 e .rr with
        d := .cap, a := .cap, b := .vec 64, modOk := encMod e ≤ 2, extra := sub (16 ≤ encD e && perThread) 9 }
  | .cderImm e => some { rowOf0 e .ri with
        d := .cap, a := .cap, b := .imm, modOk := encMod e ≤ 1, extra := sub (16 ≤ encD e && encA e < 16) 9 }
  | .cget e => some { rowOf0 e .rr with
        d := .vec 64, a := .cap, modOk := encMod e ≤ 7, extra := sub ((encX e).kd && encA e < 16) 9 }
  | .cset e =>
      let perThread := encA e < 16 || (e.lit.isNone && !(encX e).kb)
      some { rowOf0 e .rr with
        d := .cap, a := .cap, b := .vec 64, extra := sub (16 ≤ encD e && perThread) 9 }
  | .cadd e =>
      let perThread := encA e < 16 || (e.lit.isNone && !(encX e).kb)
      some { rowOf0 e .rr with
        d := .cap, a := .cap, b := .vec 64, extra := sub (16 ≤ encD e && perThread) 9 }
  | .caddImm e => some { rowOf0 e .ri with
        d := .cap, a := .cap, b := .imm, extra := sub (16 ≤ encD e && encA e < 16) 9 }
  | .ctst e => some { rowOf0 e .rr with
        d := .pred, a := .cap, b := fldFor (encMod e ≤ 1) (if encMod e = 1 then .cap else .zero), modOk := encMod e ≤ 1 }
  | .cclr e => some { rowOf0 e .rr with d := .cap, a := .cap, extra := sub (16 ≤ encD e && encA e < 16) 9 }
  | .pgprf e => some { rowMm e false false with hiOk := encK e ≤ 1 }
  | .bind e => some { rowMm e true false with d := .pred, b := .uni, modOk := encMod e == 0, extra := [] }
  | .unbind e => some (rowMoor e .pred 1 false)
  | .acq e =>
      let k := encK e
      let tryF := k / 2 % 2 == 1
      let cnt := k / 4 % 2 == 1
      let r := rowMoor e (if tryF then .pred else if cnt then .uni else .zero) 7 true
      some { r with extra := r.extra ++ sub (tryF && cnt) 3 }
  | .rel e => some (rowMoor e .zero 1 false)
  | .fence e =>
      let o := encO18 e
      let wr := bits o 5 3 ≠ 0 || bits o 8 3 ≠ 0
      some { rowOf0 e .f with
        extra := sub (bits o 11 7 ≠ 0 || bits o 8 3 == 7 || bits o 5 3 == 7 || bits o 3 2 == 0 || 5 < bits o 0 3
          || (wr && bits o 3 2 ≠ 3)) 3 }
  | .atomInt e => some (rowAtom e tAtom 8 true)
  | .atomFloat e => some (rowAtom e [0x0D, 0x0E] 3 true)
  | .redInt e => some (rowAtom e tAtom 6 false)
  | .redFloat e => some (rowAtom e [0x0D, 0x0E] 3 false)
  | .lr e => some (rowQuay e .uni .zero [10, 9, 3, 7] false)
  | .sc e => some (rowQuay e .uni .pred [10, 9] false)
  | .waitc e =>
      let k := encK e
      let r := rowQuay e .uni (if 8 ≤ k then .uni else .zero) [7, 3, 8, 4] false
      some { r with hiOk := true, extra := r.extra ++ sub (5 < k % 8) 10 }
  | .stand e =>
      let r := rowQuay e .uni .imm [7, 5, 6, 8] false
      some { r with hiOk := true, extra := r.extra ++ sub (63 < encC e) 4 }
  | .unstand e =>
      let r := rowQuay e .zero .imm [] false
      some { r with extra := r.extra ++ sub (63 < encC e) 4 }
  | .stq e =>
      let r := rowQuay e .uni .imm [] true
      some { r with extra := r.extra ++ sub (63 < encC e || encD e % 2 == 1) 4 }
  | .tdef e => some { rowOf0 e .xe with
      d := fldFor (encMod e ≤ 1) (if encMod e = 1 then .uni else .tile), a := .y8, b := .uni, types := tAll, modOk := encMod e ≤ 1, immOk := true }
  | .tmov e => some { rowOf0 e .rr with
      d := .tile, a := .tile, b := fldFor (encMod e ≤ 1) (if encMod e = 1 then .uni else .zero), modOk := encMod e ≤ 1, extra := sub e.lit.isSome 11 }
  | .twait e => some { rowOf0 e .ri with b := .imm, modOk := encMod e ≤ 1 }
  | .tstat e => some { rowOf0 e .ri with d := .uni, b := .imm, modOk := encMod e ≤ 3 }
  | .trel e => some { rowOf0 e .ri with b := .imm }
  | .tfill e => some { rowOf0 e .xe with d := .tile, a := .uni, types := tAll }
  | .cpy e => some (rowCopy e)
  | .cpyMm e => some { rowCopy e with
      c := .uni, extra := (rowCopy e).extra ++ sub (encC e % 4 ≠ 0 || 60 < encC e) 4 }
  | .cpyr e =>
      let t := encTy e 0
      let float := t = 0x0D || t = 0x0E
      some { rowCopy e with
        types := [3, 7, 4, 8, 9, 10, 0x0D, 0x0E], dflt := false
        modOk := encMod e ≤ 5 && (!float || encMod e ≤ 2) }
  | .cpyq e => some { rowCopy e with d := .queue, modOk := encMod e ≤ 1 }
  | .bari e => some { rowOf0 e .rr with d := .bar, b := .uni }
  | .bariImm e => some { rowOf0 e .ri with d := .bar, b := .imm }
  | .barr e => some { rowOf0 e .rr with b := .uni, extra := sub e.lit.isSome 11 }
  | .barrImm e => some { rowOf0 e .ri with b := .imm }
  | .barw e => some { rowOf0 e .rr with b := .uni, extra := sub e.lit.isSome 11 }
  | .barwImm e => some { rowOf0 e .ri with b := .imm }
  | .barx e => some { rowOf0 e .rr with b := .uni, extra := sub e.lit.isSome 11 }
  | .barxImm e => some { rowOf0 e .ri with b := .imm }
  | .qpush e =>
      let m := encMod e
      let x := encX e
      let n := x.bh.toNat + 1
      let tr := m == 2 || m == 3
      some { rowOf0 e .rr with
        d := .queue, a := fldFor (m ≤ 2) (if m = 1 then .zero else .vecOnly 32), modOk := m ≤ 2, block := tr
        extra := sub (m == 2 && (!(n == 1 || n == 2 || n == 4 || n == 8) || x.bw ≠ 0 || x.ma ≠ 0)) 7 }
  | .qpop e => some { rowOf0 e .rr with d := .vecOnly 32, a := .queue }
  | .qpeek e => some { rowOf0 e .rr with d := .uni, a := .queue }
  | .foxgo e => some { rowOf0 e .rr with
      d := .pred, a := .uni, b := .uni, extra := sub (60 < encB e) 4 ++ sub e.lit.isSome 11 }
  | .foxhalt e => some (rowN e)
  | .mldb e =>
      let t := encTy e 0
      let sp := encMod e / 16
      let s := encMod e % 16
      let sliced := tSliced.contains t
      some { rowMat e tMatrix false with
        d := .zero, b := .uni, c := if scaleBytes t ≠ 0 then .tile else .zero
        immOk := encImm e < 1024 && (sp ≠ 0 || bits (encImm e) 3 6 == 0)
        modOk := sp ≤ 2 && s ≠ 1 && s ≤ 10 && (sliced || s == 0) && !(sliced && sp ≠ 0) }
  | .mrel e => some { rowOf0 e .ri with b := .imm }
  | .mmaInt e =>
      let tb := encMod e % 32
      let zp := encModBit e 5
      let t := encTy e 0
      some { rowMat e tMmaInt false with
        b := .uni, c := if scaleBytes t ≠ 0 then .tile else .zero
        immOk := encImm e < 4096 && (zp || encImm e % 256 == 0)
        modOk := tMmaInt.contains tb && !(zp && t == 0x1C) }
  | .mmaFloat e =>
      let tb := encMod e % 32
      let zp := encModBit e 5
      let t := encTy e 0
      some { rowMat e tMmaFloat false with
        b := .uni, c := if scaleBytes t ≠ 0 then .tile else .zero
        immOk := encImm e < 4096 && (zp || encImm e % 256 == 0)
        modOk := tMmaFloat.contains tb && !zp }
  | .mms e =>
      let s := encMod e % 16
      some { rowMat e tSliced false with
        b := .uni, round := 1, immOk := encImm e < 2048 && encImm e % 256 == 0
        modOk := encMod e < 32 && s ≠ 1 && s ≤ 10 }
  | .maccTile e => some { rowMat e [0x0D, 0x0B, 0x0C, 0x0F, 0x10, 3, 1] false with
      c := if encModBit e 1 then .imm else .zero, round := 1, immOk := encImm e < 256, modOk := encMod e ≤ 3 }
  | .maccRegs e =>
      let x := encX e
      some { rowMat e [0x0D, 0x0B, 0x0C, 3] false with
        d := .vecOnly 32, b := .uni, c := if encModBit e 1 then .imm else .zero, round := 1
        immOk := encImm e < 256, modOk := encMod e ≤ 3, block := true
        extra := sub (x.bw ≠ 0 || x.ma ≠ 0 || x.mb ≠ 0 || x.mc ≠ 0) 7 }
  | .mzero e => some { rowOf0 e .ri with b := .imm }
  | .mstat e =>
      let m := encMod e
      some { rowOf0 e .rr with
        d := .uni, a := fldFor (m ≤ 3) (if m = 0 || m = 1 then .tile else .zero), b := fldFor (m ≤ 3) (if m = 1 || m = 3 then .uni else .zero)
        modOk := m ≤ 3, extra := sub e.lit.isSome 11 }
  | .mxq e => some { rowMat e tBlock false with
      c := .tile, round := 1
      modOk := [0, 0x0D, 0x0C, 0x0B].contains (encMod e % 32) }
  | .mxdq e => some { rowMat e [0x0D, 0x0C, 0x0B] false with
      c := .tile, round := 1, modOk := tBlock.contains (encMod e % 32) }
  | .mtr e => some (rowMat e [9, 5, 6, 10] true)
  | .grec e => some { rowOf0 e .rr with d := .uni, modOk := encMod e ≤ 1, extra := sub e.lit.isSome 11 }
  | .gemit e => some { rowOf0 e .rr with a := .uni, b := .uni, extra := sub e.lit.isSome 11 }
  | .gfree e => some { rowOf0 e .rr with a := .uni, extra := sub e.lit.isSome 11 }
  | .gpool e => some { rowOf0 e .rr with
      d := .uni, b := fldFor (encMod e ≤ 1) (if encMod e = 1 then .uni else .zero), modOk := encMod e ≤ 1, extra := sub e.lit.isSome 11 }
  | .cutsel e =>
      let val := encModBit e 1
      some { rowOf0 e .xe with
        d := .uni, a := .y8, b := .uni, c := .y8, modOk := encMod e ≤ 2
        extra := sub (encB e % 4 ≠ 0) 4 ++ sub (val && (encB e ≠ 0 || encC e ≠ 0)) 4 }
  | .clfetch e => some { rowOf0 e .rr with
      d := .vecOnly 32, a := .y8, b := .uni
      modOk := encMod e < 8 && encMod e * w < 128
      extra := sub (251 < encD e) 4 ++ sub e.lit.isSome 11 }
  | .rsub e => some { rowOf0 e .rr with
      d := .y8, a := .y8, b := .uni, modOk := encMod e ≤ 3
      extra := sub (encB e % 4 ≠ 0) 4 ++ sub e.lit.isSome 11 }
  | .rwait e => some { rowOf0 e .ri with b := .imm }
  | .rayq e => some { rowOf0 e .xe with a := .vecOnly 32, b := .y8, extra := sub (248 < encA e) 4 }
  | .raynx e => some { rowOf0 e .rr with
      d := .vecOnly 32, modOk := encMod e ≤ 2, extra := sub (252 < encD e) 4 ++ sub e.lit.isSome 11 }
  | .visd e => some { rowOf0 e .rr with d := .vecOnly 128, a := .vecOnly 64, extra := sub e.lit.isSome 11 }
  | .dhash e => some { rowOf0 e .rr with
      d := fldFor (encMod e ≤ 2) (if encMod e = 2 then .zero else .uni), a := fldFor (encMod e ≤ 2) (if encMod e = 2 then .uni else .zero), modOk := encMod e ≤ 2
      extra := sub e.lit.isSome 11 }
  | .dmark e => some { rowOf0 e .ri with b := .imm }
  | _ => none

/-- The subcodes a register field breaks: its kind, number with high bits, K bit, block mode and size. -/
def fldSubs (blk : List (Nat × Nat)) (f : Fld) (n : Nat) (k : Bool) (mode : Nat) : List Nat :=
  let aligned (w : Nat) : List Nat :=
    let cw := colsOf w
    sub (n % cw ≠ 0) 7 ++ sub (blk.any fun b =>
      let row := if mode = 0 || mode = 2 then n / 16 + b.1 else n / 16
      let col := if mode = 0 || mode = 1 then n % 16 + b.2 * cw else n % 16
      15 < row || 15 < col + cw - 1) 7
  match f with
  | .zero => sub (n ≠ 0) 3 ++ sub k 9
  | .vec w => if k then sub (63 < n) 4 else aligned w
  | .vecOnly w => sub k 9 ++ aligned w
  | .uni => sub k 9 ++ sub (63 < n) 4
  | .pred => sub k 9 ++ sub (15 < n) 4
  | .cap => sub k 9 ++ sub (23 < n) 4
  | .y8 => sub k 9 ++ sub (7 < n) 4
  | .ycap => sub k 9 ++ sub (n < 16) 9 ++ sub (23 < n) 4
  | .queue => sub k 9 ++ sub (7 < n) 4
  | .tile => sub k 9 ++ sub (63 < n) 4
  | .bar => sub k 9 ++ sub (15 < n) 4
  | .imm => sub k 9
  | .any => []

/-- Whether a field is a source that a retention entry can hold, a vector or uniform register (02 R49, R50). -/
def fldReads (f : Fld) : Bool :=
  match f with
  | .vec _ => true
  | .vecOnly _ => true
  | .uni => true
  | _ => false

/-- Whether a field is a vector source. -/
def fldVector (f : Fld) (k : Bool) : Bool :=
  match f with
  | .vec _ => !k
  | .vecOnly _ => true
  | _ => false

/-- Whether the default kind of a field is a vector register that a K bit may turn into a uniform one. -/
def fldKind (f : Fld) : Bool :=
  match f with
  | .vec _ => true
  | _ => false

/-- Lengths a form class accepts (02 R51), by L. -/
def lenOk (form : Form) (l : Nat) : Bool :=
  match form with
  | .n => l ≤ 1
  | .f => l == 0
  | .rr => true
  | .ri => l ≤ 1
  | .br => l == 0 || l == 2
  | .lp => l == 0
  | .xe => l == 1 || l == 3
  | .mm => true

/-- The block checks of an encoding (02 R43 to R45). -/
def blockSubs (r : Row) (e : Enc) : List Nat :=
  let x := encX e
  let one := x.bh = 0 && x.bw = 0
  let modes0 := x.ma = 0 && x.mb = 0 && x.mc = 0
  if !r.block then sub (!one || !modes0) 7
  else if one then sub (!modes0) 7
  else
    let srcMode (f : Fld) (k : Bool) (m : Nat) : Bool :=
      match f with
      | .vec _ => !k || m == 3
      | .vecOnly _ => true
      | _ => m == 0
    sub (!(srcMode r.a x.ka x.ma.toNat)) 7
      ++ sub (!(if e.lit.isSome && (r.form = .rr || r.litOk) then x.mb == 0 else srcMode r.b x.kb x.mb.toNat)) 7
      ++ sub (!(srcMode r.c x.kc x.mc.toNat)) 7
      ++ sub (x.kd || x.ra || x.rb || x.rc) 7

/-- Every subcode of R57 that an encoding breaks, for its row. -/
def rowSubs (r : Row) (e : Enc) : List Nat :=
  let x := encX e
  let lit := e.lit.isSome
  let blk := if r.block then blockElems e else [(0, 0)]
  let regForm := r.form = .rr || r.form = .ri || r.form = .xe || r.form = .mm
  let kOf (b : Bool) := b && r.form ≠ .mm
  let tBad := if x.t = 0 then !r.dflt else !r.types.contains x.t.toNat
  let rmBad := x.rm = 7 || (r.round = 0 && x.rm ≠ 0) || (r.round ≤ 1 && x.rm = 5)
  let litB := lit && (r.form = .rr || r.form = .xe && r.litOk)
  sub (!lenOk r.form e.len) 2
  ++ (match r.form with
      | .n =>
        sub (encO18 e ≠ 0) 3 ++ sub (x ≠ { Ext.zero with mod := x.mod, gx := x.gx }) 3 ++ sub (!r.modOk) 10
      | .f => []
      | .lp =>
        sub (encGuard e ≠ 7 || e.gn) 3 ++ sub (e.b = 0 && e.d = 0) 11
      | .br =>
        match e.lit with
        | none => []
        | some l => sub (encO18 e ≠ 0 || l.toNat % 4 ≠ 0) 11
      | _ => [])
  ++ (if regForm then
        fldSubs blk r.d (encD e) (kOf x.kd) 0
        ++ fldSubs blk r.a (encA e) (kOf x.ka) x.ma.toNat
        ++ (if litB && r.b ≠ .zero then sub (encB e ≠ 0) 11 ++ sub (kOf x.kb && !fldKind r.b) 9
            else fldSubs blk r.b (if r.form = .ri then x.bx.toNat * 64 + (if r.b = .imm then 0 else e.b.toNat) else encB e)
              (kOf x.kb) x.mb.toNat)
        ++ sub (r.b = .imm && r.form = .ri && x.bx ≠ 0) 3
        ++ fldSubs blk r.c (encC e) (kOf x.kc) x.mc.toNat
        ++ sub (!r.immOk && r.form ≠ .mm) 3 ++ sub (!r.immOk && r.form = .mm && lit) 11
        ++ sub (r.form = .mm && !r.hiOk) 3
        ++ sub tBad 5 ++ sub rmBad 6
        ++ blockSubs r e
        ++ sub (x.ra && !fldReads r.a) 8
        ++ sub (x.rb && (litB || !fldReads r.b)) 8
        ++ sub (x.rc && !fldReads r.c) 8
        ++ sub (kOf x.kd && (fldVector r.a x.ka || (!litB && fldVector r.b x.kb) || fldVector r.c x.kc)) 9
        ++ sub (!r.modOk) 10
        ++ sub (lit && r.form = .rr && r.b = .zero) 11
        ++ sub (lit && r.form = .xe && !r.litOk) 11
      else [])
  ++ r.extra

/-- The least of a list of subcodes. -/
def leastSub : List Nat → Option Nat
  | [] => none
  | x :: l =>
    match leastSub l with
    | none => some x
    | some y => some (min x y)

/-- Opcodes whose chapter has every reuse hint zero (07 R210; 11 R346; 12 R358; 13 R413; 14 R437; 15 R470; 16 R490): a set one reports 8, the
subcode of the hints (log entry 14). -/
def hintless (op : Nat) : Bool := (0x0E ≤ op && op ≤ 0x15) || (0xA0 ≤ op && op ≤ 0xD8)

def hintSubs (op : Nat) (e : Enc) : List Nat := sub (hintless op && ((encX e).ra || (encX e).rb || (encX e).rc)) 8

/-- A K bit of such an opcode on a field whose use hangs on an undefined MOD code: its chapter has the K bits zero too. -/
def anySubs (op : Nat) (r : Row) (e : Enc) : List Nat :=
  let x := encX e
  sub (hintless op && r.form ≠ .mm && ((r.d = .any && x.kd) || (r.a = .any && x.ka) || (r.b = .any && x.kb) || (r.c = .any && x.kc))) 9

/-- The ILLOP subcode of an encoding in a pack of width `w`, if it breaks R57. -/
def illopSub (w : Nat) (i : Instr) : Option Nat :=
  match i with
  | .unassignedOpcode _ _ => some 1
  | _ =>
    match opcodeOf i, rowOf w i with
    | some (op, e), some r => leastSub (rowSubs r e ++ hintSubs op e ++ anySubs op r e)
    | _, _ => none

/-- Whether an instruction's guard field is fixed, so that another guard traps whatever the predicate (02 R57): loop, lbrk
and tret with a guard other than the plain one. -/
def guardBreach (i : Instr) : Bool :=
  match i with
  | .loop e => encGuard e ≠ 7 || e.gn
  | .loopImm e => encGuard e ≠ 7 || e.gn
  | .lbrk e => encGuard e ≠ 7 || e.gn
  | .tret e => encGuard e ≠ 7 || e.gn
  | _ => false

end Sys2Proof.Machine
end

