-- ==== Sys2Proof/Machine/Base.lean ====
section
/-! DEFINITION. The tables of the state: blank records, and the reads and writes of one record, through which every other
operation goes. -/

namespace Sys2Proof.Machine

/-! ### Blank records -/

def Spad.blank : Spad := ⟨0, [], [], [], []⟩
def Tile.blank : Tile := ⟨false, 0, 0, false, 0, 0, 0, 0, 0, 0, 0, []⟩
def Barrier.blank : Barrier := ⟨0, 0, 0, [], []⟩
def StreamQ.blank : StreamQ := ⟨[], none, none⟩
def MacroRec.blank : MacroRec := ⟨false, 0, 0, 0, 0, 0, false, 0, 0, 0, []⟩
def BGroup.blank : BGroup := ⟨[], [], []⟩
def Fox.blank : Fox := ⟨.idle, 0, [], [], [], [], [], none, [], .none, 0⟩
def SaveArea.blank : SaveArea := ⟨[], false, 0, 0⟩
def Wait.none : Wait := ⟨.none, 0, []⟩

def CrewState.blank : CrewState where
  spm1 := Spad.blank
  tiles := []
  bars := []
  queues := []
  fox := Fox.blank
  macros := []
  bdata := []
  loss := ⟨false, 0, []⟩
  rays := []
  tfills := []

def Progress.none : Progress := ⟨false, false, [], Option.none⟩

def Pack.blank : Pack where
  live := false
  launch := 0
  crew := 0
  idx := 0
  lin := 0
  width := 0
  wid := 0
  slot := 0
  order := 0
  starved := false
  sel := 0
  threads := []
  v := []
  k := []
  s := []
  sdead := 0
  y := List.replicate 8 Cap.null
  loops := []
  fenv := 0
  rm := 0
  slb := 0
  sflag := 0
  rng := 0
  tepc := 0
  tcause := 0
  tmask := 0
  tval := 0
  issues := 0
  kept := 0
  save := SaveArea.blank
  hash := 0
  commit := 0
  geo := 0
  deferred := []
  wait := Wait.none
  arrival := none
  monitor := none
  resv := none
  vc := []
  opsDone := []
  denRows := []
  denImage := []
  imaged := []
  progress := Progress.none

def Crew.blank : Crew where
  live := false
  launch := 0
  gang := 0
  idx := 0
  lin := 0
  phase := .ended
  core := 0
  packs := []
  st := CrewState.blank
  isb := []
  exposed := false
  lost := false
  den := []
  ck := CrewState.blank
  ckPacks := []
  ckHolds := []
  ckMarks := []
  slots := []
  preempt := false
  issues := 0

def Gang.blank : Gang := ⟨false, 0, 0, 0, 0, none, [], Spad.blank, 0⟩
def Troop.blank : Troop := ⟨false, 0, 0, none, [], Spad.blank⟩

def Header.blank : Header where
  addr := 0
  entry := 0
  text := 0
  textsz := 0
  pwl := 0
  nf := 0
  widths := []
  packs := 0
  prod := 0
  macros := 0
  stream := false
  dmode := 0
  prio := 0
  spm1 := 0
  spm2 := 0
  spm3 := 0
  fenv := 0
  c2 := 0
  c3 := 0
  c4 := 0
  c5 := 0
  bver := 0
  extent := 0
  quantum := 0
  trap := 0
  track := 0
  tracksz := 0
  berth := 0
  nberth := 0
  bound := 0
  stamp := 0
  stampsz := 0
  graph := 0
  live := 0
  nlive := 0
  colour := 0
  ys := []
  args := []

def Node.blank : Node := ⟨0, 0, 0, [], 0, 0⟩
def Graph.blank : Graph := ⟨false, 0, 0, 0, [], [], []⟩
def TrackRun.blank : TrackRun := ⟨false, 0, 0, 0, 0, [], [], [], [], none, false, [], []⟩
def Stamp.blank : Stamp := ⟨none, 0, 0, 0, [], [], 0, 0⟩
def Rec.free : Rec := ⟨.free, 0, false, none⟩
def BoundEntry.unused : BoundEntry := ⟨0, 0, 0, 0⟩

def Launch.blank : Launch where
  live := false
  origin := .command 0
  queue := 0
  asid := 0
  prio := 0
  supervisor := false
  done := 0
  hdr := Header.blank
  liveTab := []
  bounds := []
  berths := []
  moors := []
  graph := Graph.blank
  wantMoors := []
  nextGang := 0
  gangs := 0
  aborted := false
  track := TrackRun.blank
  stamps := []
  stampUsed := 0
  stampPa := 0
  homeRecs := []
  ctx := []
  placements := []

def Queue.blank : Queue where
  enabled := false
  base := 0
  log2n := 0
  prio := 0
  asid := 0
  ridxwb := 0
  ctxa := 0
  ctxsz := 0
  ridx := 0
  widx := 0
  errc := 0
  halt := false
  slot := false
  slotOrder := 0
  slotAged := false
  leaving := false
  taker := 0
  aged := 0
  pendOrder := 0
  pkts := []
  marks := []
  stall := none
  staller := .writes
  writes := []
  disabling := false

def Copy.blank : Copy where
  live := false
  core := 0
  crew := 0
  pack := 0
  kind := .plain
  desc := []
  src := Cap.null
  dst := Cap.null
  scap := Cap.null
  asid := 0
  phase := .moving
  replayed := false
  stage := []
  follow := none
  order := 0
  late := []
  vc := []

/-! ### One record of a table -/

def State.pack (s : State) (n : Nat) : Pack := Tab.get Pack.blank s.packs n
def State.setPack (s : State) (n : Nat) (p : Pack) : State := { s with packs := Tab.set Pack.blank s.packs n p }
def State.modPack (s : State) (n : Nat) (f : Pack → Pack) : State := s.setPack n (f (s.pack n))
def State.crew (s : State) (n : Nat) : Crew := Tab.get Crew.blank s.crews n
def State.setCrew (s : State) (n : Nat) (c : Crew) : State := { s with crews := Tab.set Crew.blank s.crews n c }
def State.modCrew (s : State) (n : Nat) (f : Crew → Crew) : State := s.setCrew n (f (s.crew n))
def State.gang (s : State) (n : Nat) : Gang := Tab.get Gang.blank s.gangs n
def State.setGang (s : State) (n : Nat) (g : Gang) : State := { s with gangs := Tab.set Gang.blank s.gangs n g }
def State.modGang (s : State) (n : Nat) (f : Gang → Gang) : State := s.setGang n (f (s.gang n))
def State.troop (s : State) (n : Nat) : Troop := Tab.get Troop.blank s.troops n
def State.setTroop (s : State) (n : Nat) (t : Troop) : State := { s with troops := Tab.set Troop.blank s.troops n t }
def State.modTroop (s : State) (n : Nat) (f : Troop → Troop) : State := s.setTroop n (f (s.troop n))
def State.launch (s : State) (n : Nat) : Launch := Tab.get Launch.blank s.launches n
def State.setLaunch (s : State) (n : Nat) (l : Launch) : State :=
  { s with launches := Tab.set Launch.blank s.launches n l }
def State.modLaunch (s : State) (n : Nat) (f : Launch → Launch) : State := s.setLaunch n (f (s.launch n))
def State.queue (s : State) (n : Nat) : Queue := Tab.get Queue.blank s.queues n
def State.setQueue (s : State) (n : Nat) (q : Queue) : State := { s with queues := Tab.set Queue.blank s.queues n q }
def State.modQueue (s : State) (n : Nat) (f : Queue → Queue) : State := s.setQueue n (f (s.queue n))
def State.copyAt (s : State) (n : Nat) : Copy := Tab.get Copy.blank s.copies n
def State.setCopy (s : State) (n : Nat) (c : Copy) : State := { s with copies := Tab.set Copy.blank s.copies n c }
def State.sub (s : State) (n : Nat) : Option Sub := Tab.get none s.subs n
def State.setSub (s : State) (n : Nat) (x : Option Sub) : State := { s with subs := Tab.set none s.subs n x }
def State.geoOp (s : State) (n : Nat) : Option GeoOp := Tab.get none s.geos n
def State.setGeo (s : State) (n : Nat) (g : Option GeoOp) : State := { s with geos := Tab.set none s.geos n g }
def State.seq (s : State) (core : Nat) : List MatOp := Tab.get [] s.seqs core
def State.setSeq (s : State) (core : Nat) (l : List MatOp) : State := { s with seqs := Tab.set [] s.seqs core l }

/-- Changes the crew's own state (15 R455). -/
def State.modSt (s : State) (n : Nat) (f : CrewState → CrewState) : State := s.modCrew n fun c => { c with st := f c.st }

def crewTile (c : CrewState) (t : Nat) : Tile := Tab.get Tile.blank c.tiles t
def crewSetTile (c : CrewState) (t : Nat) (x : Tile) : CrewState := { c with tiles := Tab.set Tile.blank c.tiles t x }
def crewBar (c : CrewState) (b : Nat) : Barrier := Tab.get Barrier.blank c.bars b
def crewSetBar (c : CrewState) (b : Nat) (x : Barrier) : CrewState := { c with bars := Tab.set Barrier.blank c.bars b x }
def crewQueue (c : CrewState) (q : Nat) : StreamQ := Tab.get StreamQ.blank c.queues q
def crewSetQueue (c : CrewState) (q : Nat) (x : StreamQ) : CrewState :=
  { c with queues := Tab.set StreamQ.blank c.queues q x }
def crewMacro (c : CrewState) (m : Nat) : MacroRec := Tab.get MacroRec.blank c.macros m
def crewSetMacro (c : CrewState) (m : Nat) (x : MacroRec) : CrewState :=
  { c with macros := Tab.set MacroRec.blank c.macros m x }

/-- A number for a new record. -/
def State.newId (s : State) : Nat × State := (s.fresh, { s with fresh := s.fresh + 1 })

/-! ### The issuing pack, or the fox slot in the form of a pack (11 R342) -/

/-- Numbers from here on name the fox slot of a crew. -/
def foxBase : Nat := 2 ^ 48

/-- The fox slot as a pack: all lanes at one address, none exited. -/
def foxPack (c : Crew) (id w : Nat) (f : Fox) : Pack :=
  { Pack.blank with
    live := f.status == .running
    launch := c.launch
    crew := id
    idx := 32
    width := w
    sel := maskOf (List.range w)
    threads := (List.range w).map fun t =>
      { Thread.blank with pc := f.pc, exited := false, preds := (Tab.get 0x80 f.preds t).setWidth 16 }
    v := f.v
    s := f.s
    y := f.y
    loops := f.loops }

/-- The fox slot after one of its instructions. -/
def packFox (p : Pack) (f : Fox) : Fox :=
  { f with
    pc := (packThread p 0).pc
    v := p.v
    s := p.s
    preds := (List.range p.width).foldl (fun t i => Tab.set 0x80 t i ((packThread p i).preds.setWidth 8)) []
    y := p.y
    loops := p.loops }

def State.isFox (s : State) : Bool := foxBase ≤ s.cur
def State.curCrewId (s : State) : Nat := if s.isFox then s.cur - foxBase else (s.pack s.cur).crew

/-- The pack that issues. -/
def State.curPack (s : State) : Pack :=
  if s.isFox then
    let c := s.crew (s.cur - foxBase)
    foxPack c (s.cur - foxBase) (2 ^ (s.launch c.launch).hdr.pwl) c.st.fox
  else s.pack s.cur

def State.setCur (s : State) (p : Pack) : State :=
  if s.isFox then s.modSt (s.cur - foxBase) fun st => { st with fox := packFox p st.fox }
  else s.setPack s.cur p

/-! ### Where a crew is -/

/-- Whether a crew is on its core. -/
def onCore (s : State) (crew : Nat) : Bool := (s.crew crew).live && (s.crew crew).phase == .placed

/-- Core of a crew, and the cluster and sett of a core (01 R18). -/
def State.coreOf (s : State) (crew : Nat) : Nat := (s.crew crew).core
def clusterOfCore (core : Nat) : Nat := core / 8
def settOfCore (core : Nat) : Nat := core / 128

/-! ### Counters (15 R468): the key is the selector, the id with the unit above it -/

def counterKey (id unit : Nat) : Nat := unit * 65536 + id

/-- Adds to a counter, which wraps at 64 bits. -/
def State.count (s : State) (id unit n : Nat) : State :=
  { s with counters := Tab.upd 0 s.counters (counterKey id unit) (· + BitVec.ofNat 64 n) }

def ctrRfMiss := 0x00
def ctrRfWback := 0x01
def ctrRfDrop := 0x02
def ctrRfFwd := 0x03
def ctrTileStall := 0x04
def ctrXlUmiss := 0x05
def ctrCpyIssue := 0x06
def ctrCpySlot := 0x07
def ctrQStall := 0x08
def ctrFoxIssue := 0x09
def ctrMxStep := 0x0A
def ctrMxQfull := 0x0B
def ctrMxSkip := 0x0C
def ctrMxSusp := 0x0D
def ctrMxSloss := 0x0E
def ctrMxSave := 0x0F
def ctrRayCand := 0x10
def ctrCkTake := 0x11
def ctrCkRoll := 0x12
def ctrCkAbort := 0x13
def ctrCkLost := 0x14
def ctrTrapN := 0x15
def ctrWdogN := 0x16
def ctrSpmXpand := 0x100
def ctrXlMiss := 0x101
def ctrGbHit := 0x102
def ctrGbBypass := 0x103
def ctrCpyRpl := 0x104
def ctrCpyFill := 0x105
def ctrCpyCvx := 0x106
def ctrRsTri := 0x107
def ctrRsDrop := 0x108
def ctrRsBad := 0x109
def ctrSpmPlwait := 0x200
def ctrSpmCblk := 0x201
def ctrXlWalk := 0x202
def ctrXlCoal := 0x203
def ctrXlFault := 0x204
def ctrChkErr := 0x205
def ctrPreCkpt := 0x206
def ctrPreMid := 0x207
def ctrSwapOut := 0x208
def ctrGeoCut := 0x209
def ctrGeoFb := 0x20A
def ctrGeoReq := 0x20B
def ctrCmpWr := 0x300
def ctrCmpSum := 0x301
def ctrEccUe := 0x303
def ctrEccCe := 0x302
def ctrLcrcRpl := 0x304
def ctrLcrcFail := 0x305
def ctrQyAtom := 0x306
def ctrQyRecall := 0x307
def ctrRsvEvict := 0x308
def ctrMonPoll := 0x309
def ctrSubFail := 0x30A
def ctrSubCoal := 0x30B
def ctrMapSwitch := 0x400
def ctrMapBadw := 0x401
def ctrLnRej := 0x402
def ctrGrStall := 0x403
def ctrGrTout := 0x404
def ctrLkRpl := 0x405
def ctrLkDown := 0x406
def ctrLkDrop := 0x407
def ctrThrotN := 0x408

/-! ### Lists -/

/-- Distinct elements, in order of first appearance. -/
def nubNat (l : List Nat) : List Nat := l.foldl (fun a x => if a.contains x then a else a ++ [x]) []

/-- A number put into an ascending list. -/
def insertNat (x : Nat) : List Nat → List Nat
  | [] => [x]
  | y :: l => if x ≤ y then x :: y :: l else y :: insertNat x l

/-- A list in ascending order. -/
def sortNat (l : List Nat) : List Nat := l.foldl (fun a x => insertNat x a) []

/-- `n` copies of a step on a value. -/
def iter {α : Type} (n : Nat) (f : α → α) (x : α) : α := (List.range n).foldl (fun a _ => f a) x

/-- The number a list of bytes spells, least significant first (00 R7). -/
def leNat : List Byte → Nat
  | [] => 0
  | b :: l => b.toNat + 256 * leNat l

/-- The tier-two capacity in GiB: the sum of the expanders, up to 32 TiB (17 R497; 01 R29). -/
def State.tierTwo (s : State) : Nat := min 32768 ((s.cxl.map fun x => x.2 - 1).foldl (· + ·) 0)

end Sys2Proof.Machine
end

