-- ==== Sys2Proof/Machine/Mem.lean ====
section
/-! DEFINITION. Physical memory and its home quays: bytes, tags, poison, compression codes, reservations, monitors,
subscriptions and gathered partials (08 R228, R236 to R240, R243; 09 R271; 10 R291 to R304), and scratchpad windows
(07 R199, R202). -/

namespace Sys2Proof.Machine

/-! ### Bytes -/

/-- What an address of physical memory reads while nothing is listed there. -/
def memUnlisted : Byte := 0

/-- The canonical form of memory. -/
def memWf (m : List Host.Cell) : Bool := Tab.wf memUnlisted m

def State.byte (s : State) (pa : Nat) : Byte := Tab.get memUnlisted s.mem pa
def State.setByte (s : State) (pa : Nat) (b : Byte) : State := { s with mem := Tab.set memUnlisted s.mem pa b }
def State.rdBytes (s : State) (pa n : Nat) : List Byte := (List.range n).map fun i => s.byte (pa + i)
/-- An `n`-byte item (00 R7: little-endian). -/
def State.rdNat (s : State) (pa n : Nat) : Nat := leNat (s.rdBytes pa n)
def State.wrBytes (s : State) (pa : Nat) : List Byte → State
  | [] => s
  | b :: l => State.wrBytes (s.setByte pa b) (pa + 1) l

/-- Home quay of a physical address (08 R236). -/
def homeQuay (pa : Nat) : Nat :=
  let c := pa / 4096 % 2 ^ 32
  ((c ^^^ (c / 256)) ^^^ ((c / 65536) ^^^ (c / 16777216))) % 256

/-- Whether a physical address lies in the peer range, and its peer (17 R493). -/
def peerPa (pa : Nat) : Bool := 2 ^ 52 ≤ pa && pa < 2 ^ 53
def peerOf (pa : Nat) : Nat := pa / 2 ^ 44 % 256
/-- Whether some port reaches a peer (17 R495). -/
def peerUp (s : State) (peer : Nat) : Bool := s.ports.any fun x => x.2.up && x.2.peer == peer
/-- Whether a physical address can be reached. -/
def reachable (s : State) (pa : Nat) : Bool := !peerPa pa || peerUp s (peerOf pa)

def State.tagAt (s : State) (pa : Nat) : Bool := Tab.get false s.tags (pa / 16)
def State.poisoned (s : State) (pa : Nat) : Bool := Tab.get false s.poison (pa / 64)

/-! ### The operations of atom and red (10 R287, R289) -/

/-- The new value of an item under operation codes 0 to 6; `xchg` and above give the operand. -/
def atomCombine (ty op old x : Nat) : Nat :=
  let n := typeBits ty
  match laneFmt ty with
  | some f =>
    match op with
    | 0 => (fAdd f .rne old x).1
    | 1 => (fMinMax f false true old x).1
    | 2 => (fMinMax f true true old x).1
    | _ => x
  | none =>
    let le : Bool := if typeSigned ty then toS n old ≤ toS n x else old ≤ x
    match op with
    | 0 => (old + x) % 2 ^ n
    | 1 => if le then old else x
    | 2 => if le then x else old
    | 3 => old &&& x
    | 4 => old ||| x
    | 5 => old ^^^ x
    | _ => x

/-- A comparison of waitc (10 R286, R298): codes 0 to 5. -/
def compareCode (code : Nat) (signed : Bool) (n a b : Nat) : Bool :=
  let lt : Bool := if signed then toS n a < toS n b else a < b
  match code with
  | 0 => a == b
  | 1 => a != b
  | 2 => lt
  | 3 => lt || a == b
  | 4 => !lt && a != b
  | _ => !lt

/-- The condition of a monitor on an item's value. -/
def Monitor.holds (m : Monitor) (x : Nat) : Bool :=
  compareCode m.cmp m.signed (8 * m.size) (x &&& m.mask.toNat) (m.val.toNat &&& m.mask.toNat)

/-! ### What one committed write does at its home (10 R296, R298, R303) -/

/-- Clears every reservation on a granule. -/
def clearResv (s : State) (g : Nat) : State :=
  { s with packs := s.packs.map fun x =>
      (x.1, if (x.2.resv.map (·.1)) = some g then { x.2 with resv := none } else x.2) }

/-- Evaluates the monitors armed on a granule. -/
def fireMonitors (s : State) (g : Nat) : State :=
  { s with packs := s.packs.map fun x =>
      (x.1, match x.2.monitor with
        | some m =>
          if m.pa / 64 = g && !m.poll && m.holds (s.rdNat m.pa m.size) then { x.2 with monitor := some { m with hit := true } }
          else x.2
        | none => x.2) }

/-- Produces a push for a store to the subscribed item, which counts as `n` stores (R303, R304). -/
def pushSub (s : State) (b : Sub) (n : Nat) : Sub :=
  let stores := b.stores + n
  let v : W64 := BitVec.ofNat 64 (s.rdNat b.pa b.size)
  let b := { b with stores := stores }
  if b.parked then { b with pending := some (v, stores) }
  else if b.flight.isNone then { b with flight := some (v, stores) }
  else { b with pending := some (v, stores) }

/-- Pushes to every subscription of an item that a write touches; `touched` tells the written addresses, `num` how many stores
the write counts as.  SUB_COAL counts a pending push replaced while one is in flight, and none of a parked subscription, for which the
quay sends nothing (R307); an ending one only counts its stores (R308). -/
def pushSubs (s : State) (g : Nat) (num : Sub → Nat) (touched : Nat → Bool) : State :=
  s.subs.foldl (fun s' x =>
    match x.2 with
    | some b =>
      if b.pa / 64 = g && (List.range b.size).any fun i => touched (b.pa + i) then
        if b.ending then s'.setSub x.1 (some { b with stores := b.stores + num b }) else
        let s' := if b.pending.isSome && b.flight.isSome && !b.parked then s'.count ctrSubCoal b.quay 1 else s'
        s'.setSub x.1 (some (pushSub s' b (num b)))
      else s'
    | none => s') s

/-- The consequences of a committed write to a granule. -/
def noteWrite (s : State) (g : Nat) (num : Sub → Nat) (touched : Nat → Bool) : State :=
  pushSubs (fireMonitors (clearResv s g) g) g num touched

/-! ### Recalls of gathered partials (10 R291 to R293) -/

/-- Combines the partials of one line or record into the home values: one write, which counts for a subscription as as many
stores as the reds that it combines into the item. -/
def combineParts (s : State) (gran op ty : Nat) (parts : Tab W64) (counts : List (List Nat)) : State :=
  let sz := typeBits ty / 8
  if !reachable s (gran * 64) then s.count ctrLkDrop 0 1
  else
    let s := parts.foldl (fun s x =>
      let pa := gran * 64 + x.1
      s.wrBytes pa (leBytes (atomCombine ty op (s.rdNat pa sz) (x.2.toNat % 2 ^ (8 * sz))) sz)) s
    let s := { s with
      tags := parts.foldl (fun t x => Tab.set false t ((gran * 64 + x.1) / 16) false) s.tags
      detail := Tab.set 0 s.detail (gran / 4) 0
      headers := Tab.set 0 s.headers (gran / 4) 0
      check := Tab.set 0 s.check gran 0 }
    let hits (b : Sub) (o : Nat) : Bool := gran * 64 + o < b.pa + b.size && b.pa < gran * 64 + o + sz
    noteWrite s gran (fun b => (counts.filter fun x => x.any (hits b)).length)
      fun a => parts.any fun x => gran * 64 + x.1 ≤ a && a < gran * 64 + x.1 + sz

/-- The home records of a granule and cluster, over every launch, oldest first. -/
def homeRecsOf (s : State) (g cl : Nat) : List HomeRec :=
  s.launches.flatMap fun x => x.2.homeRecs.filter fun r => r.gran == g && r.cluster == cl

/-- Entries of the stamp region in use: stamps, and home records at four to an entry (16 R486). -/
def strictUsed (l : Launch) (stamps : Nat) : Nat := stamps + (l.homeRecs.length + 3) / 4

/-- USED of a Strict launch some of whose records a recall has freed is written anew (16 R486). -/
def writeUsed (s : State) (l : Launch) (g : Nat) : State :=
  if l.hdr.dmode = 2 && l.homeRecs.any fun r => r.gran == g then
    s.wrBytes l.stampPa (leBytes (strictUsed { l with homeRecs := l.homeRecs.filter fun r => r.gran != g } l.stampUsed) 8)
  else s

/-- Recalls every partial of a granule: home value first, then the clusters in ascending number, the records of each before
its live line (R293); in Free mode this is one of the orders that R292 allows.  A granule of a peer is recalled at the peer's quay, which
counts it there (17 R496). -/
def recallGran (s : State) (g : Nat) : State :=
  if (s.gather.any fun x => x.2.any fun l => l.gran == g) || (s.launches.any fun x => x.2.homeRecs.any fun r => r.gran == g) then
    let cls := nubNat ((s.gather.map (·.1)) ++ s.launches.flatMap fun x => x.2.homeRecs.map (·.cluster))
    let cls := sortNat cls
    let s1 : State := cls.foldl (fun s cl =>
      let s := (homeRecsOf s g cl).foldl (fun s r => combineParts s g r.op r.ty r.parts r.counts) s
      ((Tab.get [] s.gather cl).filter fun l => l.gran == g).foldl (fun s l => combineParts s g l.op l.ty l.parts l.counts) s) s
    let s2 : State := { s1 with
      gather := (s1.gather.map fun x => (x.1, x.2.filter fun l => l.gran != g)).filter fun x => !x.2.isEmpty
      launches := s1.launches.map fun x => (x.1, { x.2 with homeRecs := x.2.homeRecs.filter fun r => r.gran != g }) }
    let s3 := s1.launches.foldl (fun s x => writeUsed s x.2 g) s2
    if peerPa (g * 64) then s3 else s3.count ctrQyRecall (homeQuay (g * 64)) 1
  else s

/-! ### Compression codes (08 R238 to R240) -/

/-- Whether every difference of the `w`-byte elements from the first fits `d` bits, signed. -/
def deltasFit (blk : List Byte) (w d : Nat) : Bool :=
  let el (k : Nat) : Nat := leNat ((blk.drop (k * w)).take w)
  (List.range (256 / w)).all fun k =>
    let lim : Int := (2 ^ (d - 1) : Nat)
    let x := toS (8 * w) (ofI (8 * w) ((el k : Int) - el 0))
    decide (-lim ≤ x) && decide (x < lim)

/-- Whether the exponents of the BF16 elements span fewer than 8 values. -/
def exponentsFit (blk : List Byte) : Bool :=
  let ex := (List.range 128).map fun k => bits (leNat ((blk.drop (2 * k)).take 2)) 7 8
  ex.foldl max 0 - ex.foldl min 255 < 8

/-- Elements of `2 ^ w` bytes of a block. -/
def elemsOf (blk : List Byte) (w : Nat) : List Nat :=
  (List.range (256 / 2 ^ w)).map fun k => leNat ((blk.drop (k * 2 ^ w)).take (2 ^ w))

/-- The bytes after the header of a block encoded in a mode and width, if it can be (R238). -/
def encodeAs (blk : List Byte) (m w : Nat) : Option (List Byte) :=
  let es := elemsOf blk w
  let base := es.headD 0
  if m = 0 then (if blk.all (· == 0) then some [] else none)
  else if m = 1 then (if es.all (· == base) then some (leBytes base (2 ^ w)) else none)
  else if m = 4 then
    -- the base exponent is the least (log entry 67)
    let ex := es.map fun x => bits x 7 8
    let eb := ex.foldl min 255
    if exponentsFit blk then
      some (leBytes eb 1 ++ (es.flatMap fun x => leBytes (bits x 0 7 + 128 * bits x 15 1) 1)
        ++ leBytes (ex.foldr (fun x n => (x - eb) + 8 * n) 0) 48)
    else none
  else if deltasFit blk (2 ^ w) (8 * (m - 1)) then
    some (leBytes base (2 ^ w) ++ es.flatMap fun (x : Nat) => leBytes (ofI (8 * (m - 1)) ((x : Int) - base)) (m - 1))
  else none

/-- Stored bytes of a mode and width; none for a reserved header (R238). -/
def storedSize (m w : Nat) : Option Nat :=
  match m, w with
  | 0, 0 => some 64
  | 1, _ => some 64
  | 2, 2 => some 128
  | 2, 3 => some 64
  | 3, 2 => some 192
  | 3, 3 => some 128
  | 4, 1 => some 192
  | _, _ => none

/-- The modes and widths in the order in which a tie is broken: lower MODE, then smaller W (R240). -/
def encodings : List (Nat × Nat) := [(0, 0), (1, 0), (1, 1), (1, 2), (1, 3), (2, 2), (2, 3), (3, 2), (3, 3), (4, 1)]

/-- The encoding of smallest stored size that fits a block: mode, width and stored size (R240). -/
def bestEncoding (blk : List Byte) : Option (Nat × Nat × Nat) :=
  let fits := encodings.filter fun x => (encodeAs blk x.1 x.2).isSome
  ([64, 128, 192] : List Nat).findSome? fun n => (fits.find? fun x => storedSize x.1 x.2 == some n).map fun x => (x.1, x.2, n)

/-- A block as its quay stores it: the header, the layout, and zeros to the stored size (R238). -/
def encodeBlock (blk : List Byte) : Option (List Byte) :=
  (bestEncoding blk).map fun (m, w, n) =>
    let l := BitVec.ofNat 8 (m + 8 * w) :: (encodeAs blk m w).getD []
    l ++ List.replicate (n - l.length) 0

/-- The 256 bytes of a stored block; none for a malformed one: a reserved header, or one that is not of its stored size (R238). -/
def decodeBlock (st : List Byte) : Option (List Byte) :=
  let h := (st.headD 0).toNat
  let m := h % 8
  let w := h / 8 % 4
  if h / 32 ≠ 0 ∨ storedSize m w ≠ some st.length then none
  else
    let body := st.tail
    let n := 256 / 2 ^ w
    let base := leNat (body.take (2 ^ w))
    let es : List Nat :=
      if m = 0 then List.replicate n 0
      else if m = 1 then List.replicate n base
      else if m = 4 then
        let eb := leNat (body.take 1)
        let ds := leNat ((body.drop 129).take 48)
        (List.range n).map fun k =>
          let x := leNat ((body.drop (1 + k)).take 1)
          x % 128 + 128 * ((eb + bits ds (3 * k) 3) % 256) + 32768 * (x / 128)
      else (List.range n).map fun k =>
        ofI (8 * 2 ^ w) ((base : Int) + toS (8 * (m - 1)) (leNat ((body.drop (2 ^ w + k * (m - 1))).take (m - 1))))
    some (es.flatMap fun x => leBytes x (2 ^ w))

/-- Stored bytes of the best encoding of a 256-byte block, in units of 64: 1, 2, 3, or 4 for uncompressed. -/
def bestStored (blk : List Byte) : Nat :=
  match bestEncoding blk with
  | some x => x.2.2 / 64
  | none => 4

/-- Sets the code of a block: stored size `n` in units of 64. -/
def setDetail (s : State) (blk n : Nat) : State := 
  { s with detail := Tab.set 0 s.detail blk (4 - n), headers := Tab.set 0 s.headers blk 0 }

/-! ### Writes -/

/-- A part of one write: its bytes, the tag it gives a 16-byte unit, and the CM and CP bits of its leaf. -/
structure Piece where
  pa : Nat
  bytes : List Byte
  tag : Option Bool
  cm : Bool
  cp : Bool
  deriving DecidableEq, Repr

/-- Units of `n` bytes that a piece touches. -/
def Piece.units (p : Piece) (n : Nat) : List Nat :=
  if p.bytes.isEmpty then [] else (List.range ((p.pa + p.bytes.length - 1) / n - p.pa / n + 1)).map (· + p.pa / n)

def Piece.covers (p : Piece) (a : Nat) : Bool := p.pa ≤ a && a < p.pa + p.bytes.length

/-- The tags after a piece (08 R228). -/
def Piece.tags (p : Piece) (t : Tab Bool) : Tab Bool :=
  (p.units 16).foldl (fun t u => Tab.set false t u (p.cp && p.tag == some true)) t

/-- The bytes and tags of one write land; later pieces win (09 R271). -/
def landPieces (s : State) (ps : List Piece) : State :=
  ps.foldl (fun s p => let s := s.wrBytes p.pa p.bytes; { s with tags := p.tags s.tags }) s

/-- Sets the code of each block of a write (08 R240). -/
def codeBlocks (s : State) (ps : List Piece) : State :=
  (nubNat (ps.flatMap fun p => p.units 256)).foldl (fun s b =>
    let mine := ps.filter fun p => (p.units 256).contains b
    let whole := (mine.foldl (fun n p => n + p.bytes.length) 0) ≥ 256 &&
      (List.range 256).all fun i => mine.any fun p => p.covers (b * 256 + i)
    let noTags := (List.range 16).all fun i => !Tab.get false s.tags (b * 16 + i)
    if whole && noTags && mine.all (·.cm) then
      let n := bestStored (s.rdBytes (b * 256) 256)
      let s := setDetail s b n
      if n < 4 then s.count ctrCmpWr (homeQuay (b * 256)) 1 else s
    else setDetail s b 4) s

/-- One write instruction, or one step of an engine, performs at its home quays (09 R271).  `n` is what it counts for a
subscription. -/
def performPieces (s : State) (ps : List Piece) : State :=
  let lost := ps.filter fun p => !reachable s p.pa
  let s := if lost.isEmpty then s else s.count ctrLkDrop 0 lost.length
  let ps := ps.filter fun p => reachable s p.pa
  let gs := nubNat (ps.flatMap fun p => p.units 64)
  let s := gs.foldl recallGran s
  let s := codeBlocks (landPieces s ps) ps
  gs.foldl (fun s g =>
    let all := (List.range 64).all fun i => ps.any fun p => p.covers (g * 64 + i)
    let s := { s with poison := if all then Tab.set false s.poison g false else s.poison, check := Tab.set 0 s.check g 0 }
    noteWrite s g (fun _ => 1) fun a => ps.any fun p => p.covers a) s

/-- A write of the device's own, of one run of bytes. -/
def performBytes (s : State) (pa : Nat) (bs : List Byte) : State := performPieces s [⟨pa, bs, none, false, false⟩]

/-- CRC-16 of a granule's bytes: polynomial 0x1021, initial value 0xFFFF (08 R242). -/
def crc16 (bs : List Byte) : BitVec 16 :=
  bs.foldl (fun c b => iter 8 (fun c => if c.getLsbD 15 then (c <<< 1) ^^^ 0x1021 else c <<< 1) (c ^^^ ((b.setWidth 16 : BitVec 16) <<< 8))) 0xFFFF

/-- The check value that a granule carries (08 R242). -/
def State.checkValue (s : State) (pa : Nat) : BitVec 16 := crc16 (s.rdBytes (pa / 64 * 64) 64) ^^^ Tab.get 0 s.check (pa / 64)

/-- What a consumer receives of the block of an address that is stored compressed: its bytes as its stored form decodes; none where
the block is malformed (08 R238). -/
def State.received (s : State) (pa : Nat) : Option (List Byte) :=
  let b := pa / 256
  let blk := s.rdBytes (b * 256) 256
  let d := Tab.get 0 s.headers b
  if d = 0 ∨ Tab.get 0 s.detail b = 0 then some blk
  else match encodeBlock blk with
    | some (h :: l) => decodeBlock ((h ^^^ d) :: l)
    | _ => some blk

/-- Whether the granule of an address passes its check at a consumer: its check value is the CRC of the bytes received. -/
def State.checked (s : State) (pa : Nat) : Bool :=
  Tab.get 0 s.check (pa / 64) == 0 && (match s.received pa with
    | some l => l == s.rdBytes (pa / 256 * 256) 256
    | none => true)

/-- The subcode of R243 of the uncorrectable error that any requester of the granule of an address receives, if any. -/
def State.spoiled (s : State) (pa : Nat) : Option Nat :=
  if !reachable s pa then some 2 else if s.poisoned pa then some 1 else if (s.received pa).isNone then some 4 else none

/-- The same of a consumer that checks the check value (R242). -/
def State.uceAt (s : State) (pa : Nat) : Option Nat :=
  match s.spoiled pa with
  | some k => some k
  | none => if s.checked pa then none else some 3

/-- The error that a consumer of some addresses receives. -/
def State.uceOf (s : State) (l : List Nat) : Option Nat :=
  ([2, 1, 4, 3] : List Nat).find? fun k => l.any fun a => s.uceAt a == some k

/-- A request of an engine class reaches a quay (01 R25). -/
def State.requestAt (s : State) (cls quay : Nat) : State :=
  { s with waiting := Tab.upd [] s.waiting quay fun l => modAt (· + 1) (if l.isEmpty then List.replicate 7 0 else l) cls }

/-- A request of an engine class reaches the home quay of an address. -/
def State.request (s : State) (cls pa : Nat) : State := s.requestAt cls (homeQuay pa)

/-- What the home does before it serves a read of some granules: recalls, and the lookups that a summary bit ends (08 R239).  A
quay homes one 4 KiB chunk of each MiB, so that 64 KiB of its storage are its chunks of 16 MiB. -/
def readyRead (s : State) (gs : List Nat) : State :=
  gs.foldl (fun s g =>
    let s := recallGran s g
    if s.detail.any fun x => x.1 / 65536 == g / 262144 && homeQuay (x.1 * 256) == homeQuay (g * 64) then s else s.count ctrCmpSum (homeQuay (g * 64)) 1) s

/-! ### Scratchpad windows (07 R199, R202) -/

def Spad.byte (w : Spad) (off : Nat) : Byte := Tab.get 0 w.bytes off
def Spad.rd (w : Spad) (off n : Nat) : List Byte := (List.range n).map fun i => w.byte (off + i)
def Spad.tagAt (w : Spad) (off : Nat) : Bool := Tab.get false w.tags (off / 16)

/-- Writes bytes: the touched tags become the tag given, else 0, the touched blocks are held uncompressed, and the check values of the
touched granules are computed (08 R242). -/
def Spad.wr (w : Spad) (off : Nat) (bs : List Byte) (tag : Option Bool) : Spad :=
  let p : Piece := ⟨off, bs, tag, false, true⟩
  { w with
    bytes := (bs.foldl (fun (x : List Host.Cell × Nat) b => (Tab.set 0 x.1 x.2 b, x.2 + 1)) (w.bytes, off)).1
    tags := p.tags w.tags
    codes := (p.units 256).foldl (fun t b => Tab.set 3 t b 3) w.codes
    check := (p.units 64).foldl (fun t g => Tab.set 0 t g 0) w.check }

/-- The window that a place lies in. -/
def State.spad (s : State) : Loc → Spad
  | .phys _ => Spad.blank
  | .spm1 c _ => (s.crew c).st.spm1
  | .spm2 g _ => (s.gang g).spm2
  | .spm3 t _ => (s.troop t).spm3

def Loc.off : Loc → Nat
  | .phys a => a
  | .spm1 _ o => o
  | .spm2 _ o => o
  | .spm3 _ o => o

/-- The place `n` bytes on. -/
def Loc.add : Loc → Nat → Loc
  | .phys a, n => .phys (a + n)
  | .spm1 c o, n => .spm1 c (o + n)
  | .spm2 g o, n => .spm2 g (o + n)
  | .spm3 t o, n => .spm3 t (o + n)

def Loc.isPhys : Loc → Bool
  | .phys _ => true
  | _ => false

/-- Bytes at a place, as its home holds them. -/
def State.locBytes (s : State) (l : Loc) (n : Nat) : List Byte :=
  match l with
  | .phys a => s.rdBytes a n
  | l => (s.spad l).rd l.off n

def State.locTag (s : State) (l : Loc) : Bool :=
  match l with
  | .phys a => s.tagAt a
  | l => (s.spad l).tagAt l.off

/-- Whether the check value of some granule of a range of a window differs from the CRC of its bytes (08 R242). -/
def Spad.mismatch (w : Spad) (off n : Nat) : Bool := w.check.any fun x => x.2 != 0 && off < 64 * x.1 + 64 && 64 * x.1 < off + n

/-- The error that a consumer of some ranges, in memory or in windows, receives. -/
def State.uceRanges (s : State) (l : List (Loc × Nat)) : Option Nat :=
  match s.uceOf ((l.filter fun x => x.1.isPhys).map fun x => x.1.off) with
  | some k => some k
  | none => if l.any fun x => !x.1.isPhys && (s.spad x.1).mismatch x.1.off x.2 then some 3 else none

/-- Blocks of SPM2 and SPM3 that some ranges touch, each by its first place, and those held compressed (07 R202). -/
def rangeBlocks (l : List (Loc × Nat)) : List Loc :=
  (l.flatMap fun x => match x.1 with
    | .spm2 g o => (List.range ((o % 256 + x.2 + 255) / 256)).map fun i => Loc.spm2 g (256 * (o / 256 + i))
    | .spm3 t o => (List.range ((o % 256 + x.2 + 255) / 256)).map fun i => Loc.spm3 t (256 * (o / 256 + i))
    | _ => []).eraseDups

def State.held (s : State) (l : Loc) : Bool := Tab.get 3 (s.spad l).codes (l.off / 256) != 3

/-- Blocks that a cluster expands to read some ranges, or to write a part of them (R202, R219). -/
def countXpand (s : State) (cl : Nat) (l : List (Loc × Nat)) : State :=
  let n := ((rangeBlocks l).filter s.held).length
  if n = 0 then s else s.count ctrSpmXpand cl n

/-- The cluster of a crew's core. -/
def State.clusterOf (s : State) (crew : Nat) : Nat := clusterOfCore (s.crew crew).core

/-- Whether some ranges cover the block at a place whole. -/
def coversBlock (l : List (Loc × Nat)) (b : Loc) : Bool :=
  (List.range 256).all fun i => l.any fun x => match x.1, b with
    | .spm2 g o, .spm2 h k => g == h && o ≤ k + i && k + i < o + x.2
    | .spm3 g o, .spm3 h k => g == h && o ≤ k + i && k + i < o + x.2
    | _, _ => false

/-- A write of some ranges expands the blocks that it covers in part only. -/
def countPartial (s : State) (cl : Nat) (l : List (Loc × Nat)) : State :=
  let n := (((rangeBlocks l).filter s.held).filter fun b => !coversBlock l b).length
  if n = 0 then s else s.count ctrSpmXpand cl n

/-- Writes bytes into a window. -/
def State.wrSpad (s : State) (l : Loc) (bs : List Byte) (tag : Option Bool) : State :=
  match l with
  | .phys _ => s
  | .spm1 c o => s.modSt c fun st => { st with spm1 := st.spm1.wr o bs tag }
  | .spm2 g o => s.modGang g fun x => { x with spm2 := x.spm2.wr o bs tag }
  | .spm3 t o => s.modTroop t fun x => { x with spm3 := x.spm3.wr o bs tag }

/-- A write of one instruction performs at its places: the windows in order, the physical pieces as one step. -/
def performStores (s : State) (l : List IStore) : State :=
  let s := match l with
    | x :: _ => countPartial s (s.clusterOf (s.pack x.pack).crew) (l.map fun x => (x.loc, x.bytes.length))
    | [] => s
  let s := l.foldl (fun s x => if x.loc.isPhys then s else s.wrSpad x.loc x.bytes x.tag) s
  let ps := (l.filter fun x => x.loc.isPhys).map fun x => (⟨x.loc.off, x.bytes, x.tag, x.cm, x.cp⟩ : Piece)
  if ps.isEmpty then s else performPieces s ps

end Sys2Proof.Machine
end

