-- ==== Sys2Proof/Machine/Xlate.lean ====
section
/-! DEFINITION. Capabilities, their checks, and translation (08 R220 to R235). -/

namespace Sys2Proof.Machine

/-! ### Fields of a capability (08 R220) -/

def Cap.n (c : Cap) : Nat := c.word.toNat
def Cap.cursor (c : Cap) : Nat := bits c.n 0 54
def Cap.exp (c : Cap) : Nat := bits c.n 54 6
def Cap.bm (c : Cap) : Nat := bits c.n 60 14
def Cap.tm (c : Cap) : Nat := bits c.n 74 14
def Cap.perm (c : Cap) : Nat := bits c.n 88 12
def Cap.space (c : Cap) : Nat := bits c.n 100 4
def Cap.colour (c : Cap) : Nat := bits c.n 104 8

/-- The number with the field of `n` bits at `lo` replaced. -/
def putBits (x lo n v : Nat) : Nat := x - bits x lo n * 2 ^ lo + v % 2 ^ n * 2 ^ lo

def Cap.withCursor (c : Cap) (a : Nat) : Cap := { c with word := BitVec.ofNat 128 (putBits c.n 0 54 a) }

/-- decode_bounds of R222, exactly. -/
def Cap.boundsInt (c : Cap) : Int × Int :=
  let e := c.exp
  let a := c.cursor
  let am := bits (a / 2 ^ e) 0 14
  let ah : Int := (a / 2 ^ (e + 14) : Nat)
  let rl := (c.bm + 0x3000) % 0x4000
  let ab : Int := if am < rl then 1 else 0
  let cb : Int := (if c.bm < rl then 1 else 0) - ab
  let ct : Int := (if c.tm < rl then 1 else 0) - ab
  ((ah + cb) * (2 ^ (e + 14) : Nat) + (c.bm * 2 ^ e : Nat), (ah + ct) * (2 ^ (e + 14) : Nat) + (c.tm * 2 ^ e : Nat))

/-- base and top, as uint(55) (R222). -/
def Cap.base (c : Cap) : Nat := ofI 55 c.boundsInt.1
def Cap.top (c : Cap) : Nat := ofI 55 c.boundsInt.2

/-- Whether a cursor is representable (R222). -/
def Cap.canHold (c : Cap) (n : Int) : Bool :=
  let b := c.boundsInt.1
  let w : Int := (2 ^ (c.exp + 12) : Nat)
  decide (0 ≤ n) && decide (n < (2 ^ 54 : Nat)) && decide (b - w ≤ n) && decide (n < b + 3 * w)

/-- The rule of R223 from exponent `e` on: the exponent and the rounded bounds of [b, t). -/
def fitFrom (b t : Nat) : Nat → Nat → Nat × Nat × Nat
  | 0, e => (e, b / 2 ^ e * 2 ^ e, ceilDiv t (2 ^ e) * 2 ^ e)
  | n + 1, e =>
    let b' := b / 2 ^ e * 2 ^ e
    let t' := ceilDiv t (2 ^ e) * 2 ^ e
    if t' - b' < 3 * 2 ^ (e + 12) then (e, b', t') else fitFrom b t n (e + 1)

/-- The exponent and rounded bounds that cder chooses for [b, t) (R223). -/
def fitBounds (b t : Nat) : Nat × Nat × Nat := fitFrom b t 41 0

/-- A tagged capability with cursor, bounds, permissions, space and colour. -/
def mkCap (cursor b t perm space colour : Nat) : Cap :=
  let (e, b', t') := fitBounds b t
  ⟨true, BitVec.ofNat 128 (cursor + e * 2 ^ 54 + b' / 2 ^ e % 2 ^ 14 * 2 ^ 60 + t' / 2 ^ e % 2 ^ 14 * 2 ^ 74
    + perm * 2 ^ 88 + space * 2 ^ 100 + colour * 2 ^ 104)⟩

/-- The smallest size at or above `n` that base 0 represents exactly (07 R196). -/
def roundAllot (n : Nat) : Nat := (fitBounds 0 n).2.2

/-- A capability with new cursor `n`: the tag stays where `n` is representable (R251). -/
def Cap.moveTo (c : Cap) (n : Int) : Cap :=
  { c.withCursor (ofI 54 n) with tag := c.tag && c.canHold n }

/-! ### Permissions (08 R224), as masks of PERM -/

def pmLoad := 1
def pmStore := 2
def pmLoadCap := 4
def pmStoreCap := 8
def pmExec := 16
def pmAtomic := 32
def pmSub := 64
def pmCopySrc := 128
def pmCopyDst := 256
def pmMatrix := 512
def pmSuper := 1024
def pmGlobal := 2048
/-- load, store, load-capability, store-capability, copy-source, copy-destination, matrix (07 R198) -/
def pmWindow := 0x38F

def Cap.has (c : Cap) (m : Nat) : Bool := c.perm &&& m == m

/-! ### The checks of 08 R226 -/

/-- What an access needs of its capability. -/
structure Need where
  spaces : List Nat
  perm : Nat
  size : Nat
  deriving DecidableEq, Repr

/-- The first failing check, 1 to 5, of an access at `addr`. -/
def capSub (sv : Bool) (n : Need) (c : Cap) (addr : Int) : Option Nat :=
  if !c.tag then some 1
  else if !n.spaces.contains c.space then some 2
  else if !sv && (c.has pmSuper || c.space == 6) then some 3
  else if !c.has n.perm then some 4
  else if addr < (c.base : Int) || (c.top : Int) < addr + n.size then some 5
  else none

/-- One thread's access. -/
structure Acc where
  t : Nat
  cap : Cap
  addr : Int
  deriving DecidableEq, Repr

/-- The CAPV trap of per-thread failures (R226). -/
def capvOf (l : List (Nat × Nat × W64)) : Option Trap :=
  match leastSub (l.map fun x => x.2.1) with
  | none => none
  | some k =>
    let v := ((l.find? fun x => x.2.1 == k).map fun x => x.2.2).getD 0
    some ⟨clsCapv, k, v, maskOf (l.map (·.1))⟩

def capvCheck (sv : Bool) (n : Need) (l : List Acc) : Option Trap :=
  capvOf (l.filterMap fun a => (capSub sv n a.cap a.addr).map fun k => (a.t, k, BitVec.ofInt 64 a.addr))

/-- The ALIGN trap of per-thread addresses (R226). -/
def alignCheck (size : Nat) (l : List Acc) : Option Trap :=
  match l.filter fun a => a.addr % (size : Int) ≠ 0 with
  | [] => none
  | a :: r => some ⟨clsAlign, 0, BitVec.ofInt 64 a.addr, maskOf ((a :: r).map (·.t))⟩

/-! ### Translation (08 R229 to R231) -/

inductive XKind where
  | read | write | fetch
  deriving DecidableEq, Repr

/-- A translation: the address, the leaf and its level. -/
structure Xl where
  pa : Nat
  pte : Nat
  level : Nat
  deriving DecidableEq, Repr

def pageBits (lvl : Nat) : Nat :=
  match lvl with
  | 3 => 36
  | 2 => 30
  | 1 => 21
  | _ => 16

def levelIndex (va lvl : Nat) : Nat :=
  match lvl with
  | 3 => bits va 36 18
  | 2 => bits va 30 6
  | 1 => bits va 21 9
  | _ => bits va 16 5

/-- The leaf target a space requires (R225). -/
def spaceTargets (space : Nat) : List Nat :=
  match space with
  | 0 => [0]
  | 1 => [1]
  | 5 => [0, 1]
  | 6 => [0]
  | 8 => [2]
  | 9 => [3]
  | 16 => [0, 1, 2, 3]
  | 17 => [0, 2]
  | _ => []

/-- The device's own accesses to an address of a queue's ASID: any target; a ring: HBM or host (13 R386). -/
def spaceAny := 16
def spaceRing := 17

def malformed (pte lvl : Nat) : Bool :=
  if bitAt pte 1 then bits pte 16 40 % 2 ^ (pageBits lvl - 16) ≠ 0
  else lvl == 0 || bits pte 2 6 ≠ 0 || bits pte 56 8 ≠ 0

/-- The checks of a leaf, and the address (R231). -/
def leafPa (tierTwo : Nat) (pte lvl va : Nat) (kind : XKind) (space : Nat) : Except Nat Nat :=
  let tgt := bits pte 6 2
  let pa := bits pte 16 40 * 65536 + va % 2 ^ pageBits lvl
  if kind = .write ∧ ¬bitAt pte 2 then .error 2
  else if kind = .fetch ∧ ¬bitAt pte 3 then .error 3
  else if ¬(spaceTargets space).contains tgt then .error 4
  else if tgt = 0 ∧ 2 ^ 40 ≤ pa then .error 7
  else if tgt = 1 ∧ pa < 2 ^ 44 then .error 7
  else if tgt = 1 ∧ tierTwo * 2 ^ 30 ≤ pa - 2 ^ 44 then .error 5
  else if tgt = 2 ∧ (pa < 2 ^ 50 ∨ 2 ^ 50 + 2 ^ 48 ≤ pa) then .error 7
  else if tgt = 3 ∧ (pa < 2 ^ 52 ∨ 2 ^ 53 ≤ pa ∨ 2 ^ 40 ≤ pa % 2 ^ 44) then .error 7
  else .ok pa

/-- The walk from a table at level `lvl`. -/
def walkFrom (s : State) (va : Nat) (kind : XKind) (space : Nat) : Nat → Nat → Except Nat Xl
  | lvl, tab =>
    let pte := s.rdNat (tab + 8 * levelIndex va lvl) 8
    if ¬bitAt pte 0 then .error 1
    else if malformed pte lvl then .error 6
    else if bitAt pte 1 then
      match leafPa s.tierTwo pte lvl va kind space with
      | .error c => .error c
      | .ok pa => .ok ⟨pa, pte, lvl⟩
    else
      let tab' := bits pte 16 40 * 65536
      if 2 ^ 40 ≤ tab' then .error 7
      else match lvl with
        | 0 => .error 6
        | l + 1 => walkFrom s va kind space l tab'

/-- The page walk of R231. -/
def walk (s : State) (asid va : Nat) (kind : XKind) (space : Nat) : Except Nat Xl :=
  let ent := s.rdNat (s.bar0.asidt.toNat + 16 * asid) 16
  if ¬bitAt ent 0 then .error 6
  else
    let tab := bits ent 21 35 * 2 ^ 21
    if 2 ^ 40 ≤ tab then .error 7 else walkFrom s va kind space 3 tab

/-- The cached leaf for an address, if any. -/
def tlbFind (l : List TlbEntry) (asid va : Nat) : Option TlbEntry :=
  l.find? fun x => x.asid == asid && x.page == va / 2 ^ pageBits x.level

/-- A translation by a core, through its micro-TLB and its cluster's TLB (R232).  A cached leaf that does not allow the access
is not used: the walk answers (R235 lets an access use either). -/
def xlate (s : State) (core asid va : Nat) (kind : XKind) (space : Nat) : Except Nat Xl :=
  let hit := (tlbFind (Tab.get [] s.utlb core) asid va).orElse fun _ =>
    tlbFind (Tab.get [] s.tlb (clusterOfCore core)) asid va
  match hit with
  | some x =>
    match leafPa s.tierTwo x.pte.toNat x.level va kind space with
    | .ok pa => .ok ⟨pa, x.pte.toNat, x.level⟩
    | .error _ => walk s asid va kind space
  | none => walk s asid va kind space

/-- An entry put first, the list cut to `n` (least recently used last). -/
def lruPut (n : Nat) (x : TlbEntry) (l : List TlbEntry) : List TlbEntry :=
  (x :: l.filter fun y => !(y.asid == x.asid && y.level == x.level && y.page == x.page)).take n

/-- The capability list lies in read-only memory of the device (01 R28, R30), here beyond every address that a leaf can target. -/
def listRom : Nat := 2 ^ 53

/-- The place of an address of the constant space that %caplist names, if it lies in the list's 128 bytes. -/
def listPa (space va : Nat) : Option Nat :=
  if space == 5 && decide (Config.capList.toNat ≤ va) && decide (va < Config.capList.toNat + 128) then
    some (listRom + (va - Config.capList.toNat)) else none

/-- The CP bit of a leaf, which counts with target HBM or tier two only (R228). -/
def leafCp (pte : Nat) : Bool := bitAt pte 4 && bits pte 6 2 < 2

/-- The misses and the walk of a translation that faults (R244); one on a page with a pending fault joins it. -/
def noteMiss (s : State) (core asid va : Nat) : State :=
  let cl := clusterOfCore core
  let umiss := (tlbFind (Tab.get [] s.utlb core) asid va).isNone
  let s := if umiss then s.count ctrXlUmiss core 1 else s
  let s := if umiss && (tlbFind (Tab.get [] s.tlb cl) asid va).isNone then s.count ctrXlMiss cl 1 else s
  if s.pendFaults.any fun f => f.sett == settOfCore core && f.asid == asid && f.page == va / 65536 then s
  else s.count ctrXlWalk (settOfCore core) 1

/-- The caches and counters after a successful translation (R232, R244). -/
def noteXlate (s : State) (core asid va : Nat) (r : Xl) : State :=
  let e : TlbEntry := ⟨asid, r.level, va / 2 ^ pageBits r.level, BitVec.ofNat 64 r.pte⟩
  let u := Tab.get [] s.utlb core
  let cl := clusterOfCore core
  let t := Tab.get [] s.tlb cl
  let umiss := (tlbFind u asid va).isNone
  let miss := umiss && (tlbFind t asid va).isNone
  let s := if umiss then s.count ctrXlUmiss core 1 else s
  let s := if miss then (s.count ctrXlMiss cl 1).count ctrXlWalk (settOfCore core) 1 else s
  { s with utlb := Tab.set [] s.utlb core (lruPut 64 e u), tlb := Tab.set [] s.tlb cl (lruPut 4096 e t) }

/-- Fault codes that the host may resolve (R231). -/
def replayable (code : Nat) : Bool := 1 ≤ code && code ≤ 3

/-! ### Fault records (08 R233, 17 R499) -/

/-- The 32 bytes of a fault record. -/
def faultBytes (va asid code kind cls sett unit seq : Nat) : List Byte :=
  leBytes (va % 2 ^ 54) 8 ++ leBytes (asid % 4096) 2 ++ leBytes code 1 ++ leBytes kind 1 ++ leBytes cls 1 ++ leBytes sett 1
    ++ leBytes unit 2 ++ leBytes seq 8 ++ leBytes 0 8

/-- The record of a fault waits at its sett until the ring takes it. -/
def queueRecord (s : State) (sett asid va code kind cls unit : Nat) : State :=
  let seq := Tab.get 0 s.faultSeq sett
  ({ s with
    faultSeq := Tab.set 0 s.faultSeq sett (seq + 1)
    faultRecs := s.faultRecs ++ [faultBytes va asid code kind cls sett unit seq] }).count ctrXlFault sett 1

/-- A replayable fault: a pending entry and a record, unless the page has one (R232, R233). -/
def postFault (s : State) (sett asid va code kind cls unit : Nat) : State :=
  let page := va / 65536
  if s.pendFaults.any fun f => f.sett == sett && f.asid == asid && f.page == page then s.count ctrXlCoal sett 1
  else if 1024 ≤ (s.pendFaults.filter fun f => f.sett == sett).length then s
  else queueRecord { s with pendFaults := s.pendFaults ++ [⟨sett, asid, page, code⟩] } sett asid va code kind cls unit

/-! ### Ranges -/

/-- [a, a + n) cut at granule boundaries. -/
def granCuts (a n : Nat) : List (Nat × Nat) :=
  if n = 0 then []
  else (List.range ((a + n - 1) / 64 - a / 64 + 1)).map fun i =>
    let lo := max a (64 * (a / 64 + i))
    let hi := min (a + n) (64 * (a / 64 + i + 1))
    (lo, hi - lo)

end Sys2Proof.Machine
end

