-- ==== Sys2Proof/Machine/Order.lean ====
section
/-! DEFINITION. Track records and order gates, store hashes, and Strict stamps (16 R474 to R486). -/

namespace Sys2Proof.Machine

/-! ### Regions of a launch in memory -/

/-- The physical address of a byte of the launch's own region, translated as a write (R475, R486). -/
def regionPa (s : State) (lid va : Nat) : Option Nat :=
  match walk s (s.launch lid).asid va .write spaceAny with
  | .ok x => some x.pa
  | .error _ => none

/-- Writes one field of a region. -/
def regionWrite (s : State) (lid va x n : Nat) : Option State :=
  (regionPa s lid va).map fun pa => performBytes s pa (leBytes x n)

/-- Reads one field of a region; what an uncorrectable error has reached is lost too. -/
def regionRead (s : State) (lid va n : Nat) : Option Nat :=
  (regionPa s lid va).bind fun pa => if (s.uceAt pa).isSome then none else some (s.rdNat pa n)

/-! ### The track region (R474) -/

def dispatchAt (h : Header) : Nat := h.track + 0x40
def hashAt (h : Header) (t : TrackRun) : Nat := h.track + 0x40 + t.d
def quaySegAt (h : Header) (t : TrackRun) (q : Nat) : Nat := h.track + 0x40 + 2 * t.d + t.s * q

/-- What stops an event that needs the track or the gate. -/
inductive Stop where
  | trap (cls sub : Nat) (val : W64)
  /-- waits at the order gates of some quays (R478); the state has what the operation has done so far -/
  | gate (quays : List Nat) (s : State)
  /-- an exposing instruction has committed and left its core, and its own access comes next (10 R283) -/
  | sent (s : State)
  /-- the track or stamp region no longer translates (R475, R486) -/
  | lost
  deriving DecidableEq, Repr

def State.isTrack (s : State) (lid : Nat) : Bool := (s.launch lid).hdr.dmode == 1
def State.isStrict (s : State) (lid : Nat) : Bool := (s.launch lid).hdr.dmode == 2

def State.isReplay (s : State) (lid : Nat) : Bool := s.isTrack lid && (s.launch lid).track.replay

def modTrack (s : State) (lid : Nat) (f : TrackRun → TrackRun) : State :=
  s.modLaunch lid fun l => { l with track := f l.track }

/-- Places of the home records held in a quay's segment, and the places from the segment's end that they reach over (R293). -/
def recordPlaces (l : Launch) (q : Nat) : List Nat := (l.homeRecs.filter fun r => homeQuay (r.gran * 64) == q).map (·.place)
def recordsAt (l : Launch) (q : Nat) : Nat := (recordPlaces l q).foldl (fun n x => max n (x + 1)) 0

/-- The place of the next record: the nearest to the segment's end that is free. -/
def nextPlace (l : Launch) (q : Nat) : Nat :=
  let used := recordPlaces l q
  ((List.range (used.length + 1)).find? fun n => !used.contains n).getD used.length

/-- Records one admission at a quay (R477, R533). -/
def recordAdmission (s : State) (lid lin q : Nat) : Except Stop State :=
  let l := s.launch lid
  let t := l.track
  let base := quaySegAt l.hdr t q
  let used := Tab.get 0 t.qused q
  match (if used < 8 then some 0 else regionRead s lid (base + used) 8) with
  | none => .error .lost
  | some last =>
  if 8 ≤ used ∧ last / 2 ^ 24 = lin ∧ last % 2 ^ 24 < 2 ^ 24 - 1 then
    match regionWrite s lid (base + used) (last + 1) 8 with
    | some s => .ok s
    | none => .error .lost
  else if t.s < 8 + used + 8 + 16 * recordsAt l q then .error (.trap clsTrack 3 (BitVec.ofNat 64 q))
  else
    match (regionWrite s lid (base + 8 + used) (lin * 2 ^ 24 + 1) 8).bind fun s => regionWrite s lid base (used + 8) 8 with
    | some s => .ok (modTrack s lid fun t => { t with qused := Tab.set 0 t.qused q (used + 8) })
    | none => .error .lost

/-! ### Dispatch entries as a replay reads them (R476) -/

def entryOf (kind f1 f2 f3 : Nat) : Nat := kind + f1 % 2 ^ 40 * 2 ^ 8 + f2 % 2 ^ 40 * 2 ^ 48 + f3 % 2 ^ 40 * 2 ^ 88

def entryKind (e : Nat) : Nat := bits e 0 8
def entryF1 (e : Nat) : Nat := bits e 8 40
def entryF2 (e : Nat) : Nat := bits e 48 40
def entryF3 (e : Nat) : Nat := bits e 88 40

/-- Entry `i` of the dispatch segment; 0, which is of no kind, where the region does not translate. -/
def dispatchEntry (s : State) (lid i : Nat) : Nat :=
  (regionRead s lid (dispatchAt (s.launch lid).hdr + 16 * i) 16).getD 0

/-- The entries of a replay. -/
def dispatchEntries (s : State) (lid : Nat) : List Nat := (List.range ((s.launch lid).track.dused / 16)).map (dispatchEntry s lid)

/-- Whether a part of the dispatch segment of a replay does not translate any more (R475). -/
def dispatchLost (s : State) (lid : Nat) : Bool :=
  (List.range ((s.launch lid).track.dused / 16)).any fun i => (regionRead s lid (dispatchAt (s.launch lid).hdr + 16 * i) 16).isNone

/-- Crews that hold a thread (13 R397). -/
def Header.crews (h : Header) : Nat := ceilDiv h.extent (2 ^ h.pwl * h.packs)

/-- Batches of a node that the record launches: at each BATCH joins, and at each partial launch (13 R411). -/
def recordedBatches (l : Launch) (n : Nat) (es : List Nat) : Nat :=
  (es.foldl (fun (r : Nat × Nat) e =>
    if entryF2 e = n && entryKind e = 5 then
      (if (l.graph.nodes.getD n Node.blank).batch ≤ r.1 + 1 then (0, r.2 + 1) else (r.1 + 1, r.2))
    else if entryF2 e = n && entryKind e = 6 then (0, r.2 + 1)
    else r) (0, 0)).2

/-- Whether a replay forms the crew of a linear number: those of node 0, and one for each batch of the record (R481). -/
def formsCrew (s : State) (lid lin : Nat) : Bool :=
  let l := s.launch lid
  let k := l.graph.nodes.length - 1
  lin < l.hdr.crews || (l.graph.present && 0 < k &&
    (lin - l.hdr.crews) / k < recordedBatches l ((lin - l.hdr.crews) % k + 1) (dispatchEntries s lid))

/-- Whether a replay forms the pack of a linear number. -/
def formsPack (s : State) (lid lin : Nat) : Bool :=
  let h := (s.launch lid).hdr
  if lin < h.crews * h.packs then lin * 2 ^ h.pwl < h.extent else formsCrew s lid (lin / h.packs)

/-- The field of a MARK packet's entry that stands for no pack (R476). -/
def markLin : Nat := 2 ^ 40 - 1

/-- Whether a gate waits for the head pack: it is placed or pending, or it is still to be formed (R478). -/
def gateWaits (s : State) (lid lin : Nat) : Bool := !(s.launch lid).track.ended.contains lin && formsPack s lid lin

/-! ### Admissions -/

/-- Admits one access at a quay in replay (R478). -/
def replayAdmission (s : State) (lid lin q : Nat) : Except Stop State :=
  let l := s.launch lid
  let t := l.track
  let pos := Tab.get 0 t.qpos q
  let divg : Stop := .trap clsDivg 2 (BitVec.ofNat 64 q)
  if Tab.get 0 t.qused q ≤ pos then .error divg
  else
    match regionRead s lid (quaySegAt l.hdr t q + 8 + pos) 8 with
    | none => .error .lost
    | some w =>
      if w / 2 ^ 24 = lin then
        let n := Tab.get 0 t.qdone q + 1
        .ok (modTrack s lid fun t =>
          if w % 2 ^ 24 ≤ n then { t with qpos := Tab.set 0 t.qpos q (pos + 8), qdone := Tab.set 0 t.qdone q 0 }
          else { t with qdone := Tab.set 0 t.qdone q n })
      else if gateWaits s lid (w / 2 ^ 24) then .error (.gate [q] s)
      else .error divg

/-- The admissions of one operation in a recording: each granule once for reading and once for writing (R533), in order. -/
def recordAll (s : State) (lid lin : Nat) : List (Nat × Bool) → Except Stop State
  | [] => .ok s
  | a :: l =>
    match recordAdmission s lid lin (homeQuay (a.1 * 64)) with
    | .error e => .error e
    | .ok s => recordAll s lid lin l

/-- The admissions of one operation in a replay, each at its own gate: those that a gate holds back add their quay to `wait`, and the
others are noted as made. -/
def replayEach (lid lin op : Nat) : List (Nat × Bool) → List Nat → State → Except Stop (State × List Nat)
  | [], wait, s => .ok (s, wait)
  | a :: l, wait, s =>
    match replayAdmission s lid lin (homeQuay (a.1 * 64)) with
    | .ok s => replayEach lid lin op l wait (modTrack s lid fun t => { t with made := (lin, op, a.1, a.2) :: t.made })
    | .error (.gate qs s) => replayEach lid lin op l (wait ++ qs) s
    | .error e => .error e

/-- An operation has ended: the admissions that it has made are no more of use. -/
def dropMade (s : State) (lid lin op : Nat) : State :=
  modTrack s lid fun t => { t with made := t.made.filter fun x => !(x.1 == lin && x.2.1 == op) }

/-- The admissions of one operation in a replay.  One that waits keeps those that it has made, and asks only for the others when it
tries again; an instruction keeps them until it has completed (R478). -/
def replayAll (s : State) (lid lin op : Nat) (l : List (Nat × Bool)) : Except Stop State :=
  let todo := l.filter fun a => !(s.launch lid).track.made.contains (lin, op, a.1, a.2)
  match replayEach lid lin op todo [] s with
  | .error e => .error e
  | .ok (s, []) => .ok (if op = 0 then s else dropMade s lid lin op)
  | .ok (s, qs) => .error (.gate qs s)

/-- The admissions of one operation: 0 stands for an instruction. -/
def admitAll (s : State) (lid lin op : Nat) (l : List (Nat × Bool)) : Except Stop State :=
  if (s.launch lid).track.replay then replayAll s lid lin op l else recordAll s lid lin l

/-- Distinct admissions. -/
def nubAdm (l : List (Nat × Bool)) : List (Nat × Bool) := l.foldl (fun a x => if a.contains x then a else a ++ [x]) []

/-- Pack linear number that the recall of a granule is charged to: the last contributor of this launch, the newest line or
record first (R477). -/
def recallCharge (s : State) (lid g : Nat) : Option Nat :=
  let lines := s.gather.flatMap fun x => x.2.filter fun l => l.gran == g && l.launch == lid
  match lines.head? with
  | some l => some l.last
  | none => (((s.launch lid).homeRecs.filter fun r => r.gran == g).getLast?).map (·.charged)

/-- A recall is an operation of its own, of one admission. -/
def admitRecall (s : State) (lid lin g : Nat) : Except Stop State :=
  if (s.launch lid).track.replay then replayAdmission s lid lin (homeQuay (g * 64)) else recordAdmission s lid lin (homeQuay (g * 64))

/-- The recalls that an operation forces are operations of their own (R533), admitted before it.  Those that a gate holds back add their
quay to `wait`. -/
def admitRecalls (lid : Nat) : List Nat → List Nat → State → Except Stop State
  | [], [], s => .ok s
  | [], wait, s => .error (.gate wait s)
  | g :: l, wait, s =>
    match recallCharge s lid g with
    | none => admitRecalls lid l wait s
    | some lin =>
      match admitRecall s lid lin g with
      | .ok s => admitRecalls lid l wait (recallGran s g)
      | .error (.gate qs s) => admitRecalls lid l (wait ++ qs) s
      | .error e => .error e

/-- The order gates of the granules an operation accesses; outside Track mode they let everything pass. -/
def passGates (s : State) (lid lin op : Nat) (l : List (Nat × Bool)) : Except Stop State :=
  if s.isTrack lid then (admitRecalls lid (nubNat (l.map (·.1))) [] s).bind fun s => admitAll s lid lin op (nubAdm l) else .ok s

/-- The recall that an access forces of one granule: gated and recorded in Track mode. -/
def recallFor (s : State) (lid g : Nat) : Except Stop State :=
  (if s.isTrack lid then admitRecalls lid [g] [] s else .ok s).map fun s => recallGran s g

/-! ### Dispatch entries (R476) -/

/-- Appends an entry to the dispatch segment of a recording. -/
def recordDispatch (s : State) (lid kind f1 f2 f3 : Nat) : Except Stop State :=
  let l := s.launch lid
  let t := l.track
  if t.d < t.dused + 16 then .error (.trap clsTrack 1 (Config.trapVal clsTrack 1 0))
  else
    match (regionWrite s lid (dispatchAt l.hdr + t.dused) (entryOf kind f1 f2 f3) 16).bind fun s =>
        regionWrite s lid (l.hdr.track + 8) (t.dused + 16) 8 with
    | some s => .ok (modTrack s lid fun t => { t with dused := t.dused + 16 })
    | none => .error .lost

/-- The first entry of a replay not used yet for which a test holds. -/
def nextEntry (s : State) (lid : Nat) (f : Nat → Bool) : Option (Nat × Nat) :=
  let t := (s.launch lid).track
  ((List.range (t.dused / 16)).find? fun i => !t.dtaken.contains i && f (dispatchEntry s lid i)).map fun i =>
    (i, dispatchEntry s lid i)

def takeEntry (s : State) (lid i : Nat) : State := modTrack s lid fun t => { t with dtaken := i :: t.dtaken }

/-- Appends or checks an entry of an instruction: in replay the next entry of its kind and first field must be equal. -/
def dispatchEvent (s : State) (lid kind f1 f2 f3 : Nat) (bad : Stop) : Except Stop State :=
  if ¬s.isTrack lid then .ok s
  else if (s.launch lid).track.replay then
    if dispatchLost s lid then .error .lost
    else match nextEntry s lid fun e => entryKind e == kind && entryF1 e == f1 % 2 ^ 40 with
    | some (i, e) => if e = entryOf kind f1 f2 f3 then .ok (takeEntry s lid i) else .error bad
    | none => .error bad
  else recordDispatch s lid kind f1 f2 f3

/-! ### Pushes into a queue (R476; 11 R337) -/

/-- The code of a pusher in a KIND 4 entry. -/
def pusherCode : Pusher → Nat
  | .pack i => i
  | .fox => 2 ^ 16
  | .copy => 2 ^ 16 + 1

/-- What a push in Track mode meets: it may go on, or waits for its turn in a replay. -/
inductive Turn where
  | go (s : State)
  | later
  | stop (x : Stop)
  deriving DecidableEq, Repr

/-- The last KIND 4 entry of a queue in a recording: its index and the entry. -/
def lastRun (s : State) (lid f1 : Nat) : Option (Nat × Nat) :=
  let n := (s.launch lid).track.dused / 16
  ((List.range n).reverse.find? fun i =>
    let e := dispatchEntry s lid i
    entryKind e == 4 && entryF1 e == f1 % 2 ^ 40).map fun i => (i, dispatchEntry s lid i)

/-- Records one push as a run of its pusher (16 R476). -/
def recordPush (s : State) (lid f1 who : Nat) : Turn :=
  let fresh : Turn := match recordDispatch s lid 4 f1 who 1 with
    | .ok s => .go s
    | .error e => .stop e
  match lastRun s lid f1 with
  | some (i, e) =>
    if entryF2 e = who then
      match regionWrite s lid (dispatchAt (s.launch lid).hdr + 16 * i) (entryOf 4 f1 who (entryF3 e + 1)) 16 with
      | some s => .go s
      | none => .stop .lost
    else fresh
  | none => fresh

/-- In a replay the first unfinished run of the queue must be the pusher's. -/
def replayPush (s : State) (lid f1 who : Nat) : Turn :=
  let t := (s.launch lid).track
  let used (i : Nat) : Nat := (t.dtaken.filter (· == i)).length
  match (List.range (t.dused / 16)).find? fun i =>
      let e := dispatchEntry s lid i
      entryKind e == 4 && entryF1 e == f1 % 2 ^ 40 && used i < entryF3 e with
  | some i => if entryF2 (dispatchEntry s lid i) = who then .go (takeEntry s lid i) else .later
  | none => .later

/-- Track mode records and replays the interleaving of pushers into one queue. -/
def trackPush (s : State) (crew q : Nat) (who : Pusher) : Turn :=
  let c := s.crew crew
  if ¬s.isTrack c.launch then .go s
  else if dispatchLost s c.launch then .stop .lost
  else if (s.launch c.launch).track.replay then replayPush s c.launch (c.lin * 8 + q) (pusherCode who)
  else recordPush s c.launch (c.lin * 8 + q) (pusherCode who)

/-! ### Store hashes (R479, R480) -/

/-- hash_byte of R479. -/
def hashByte (h : W64) (a : Nat) (b : Byte) : W64 :=
  (h ^^^ (BitVec.ofNat 64 (a * 256 + b.toNat))) * 0x00000100000001B3

/-- Folds the bytes stored from address `a` up. -/
def hashBytes (h : W64) (a : Nat) : List Byte → W64
  | [] => h
  | b :: l => hashBytes (hashByte h a b) (a + 1) l

/-- The value of h at first placement. -/
def hashInit : W64 := 0xCBF29CE484222325

/-- The index that the next commit of a pack has: a pack's first commit has index 1 (20 R529). -/
def nextCommit (p : Pack) : Nat := (p.commit + 1) % 2 ^ 24

/-- The entry of a commit: h, pack linear number, commit index. -/
def hashEntry (p : Pack) : Nat := p.hash.toNat + p.lin % 2 ^ 40 * 2 ^ 64 + nextCommit p * 2 ^ 104

/-- Records or compares the next commit of a pack (R480, R482).  A commit that has its entry and waits at a gate needs no other. -/
def commitEntry (s : State) (pid : Nat) : Except Stop State :=
  let p := s.pack pid
  let l := s.launch p.launch
  let t := l.track
  if ¬s.isTrack p.launch || p.progress.logged then .ok s
  else if t.replay then
    match (List.range (t.hused / 16)).mapM fun i => regionRead s p.launch (hashAt l.hdr t + 16 * i) 16 with
    | none => .error .lost
    | some es => if es.contains (hashEntry p) then .ok s else .error (.trap clsDivg 1 (BitVec.ofNat 64 (nextCommit p)))
  else if t.d < t.hused + 16 then .error (.trap clsTrack 2 (Config.trapVal clsTrack 2 0))
  else
    match (regionWrite s p.launch (hashAt l.hdr t + t.hused) (hashEntry p) 16).bind fun s =>
        regionWrite s p.launch (l.hdr.track + 16) (t.hused + 16) 8 with
    | some s => .ok (modTrack s p.launch fun t => { t with hused := t.hused + 16 })
    | none => .error .lost

/-! ### Strict order (R484): vector clocks over agents -/

def vcGet (v : Tab Nat) (a : Nat) : Nat := Tab.get 0 v a
def vcJoin (a b : Tab Nat) : Tab Nat := b.foldl (fun v x => Tab.set 0 v x.1 (max (vcGet v x.1) x.2)) a
def agentPack (a : Nat) : Nat := a % 2 ^ 64
def opAgent (pack op : Nat) : Nat := op * 2 ^ 64 + pack
/-- Codes of what acts for a pack: 0 its own instruction, an engine operation by its number, a matrix instruction by `matOp` plus its
number, and the follow-on of a copy by `followOn` plus the copy's.  The matrix instructions of a pack are one agent, because the
sequencer carries them out in issue order (12 R367). -/
def matOp : Nat := 2 ^ 64
def followOn : Nat := 2 ^ 65
/-- A copy's accesses that are stamped after its issue have the copy's number and `lateOp`: they come after what the pack's order at the
issue holds, and not after what the pack did since. -/
def lateOp : Nat := 2 ^ 66
/-- The agent that a code stands for, its epoch, and the agents after whose accesses it comes. -/
def actAgent (pack op : Nat) : Nat :=
  if op = 0 then pack else if lateOp ≤ op then opAgent pack (op - lateOp) else if followOn ≤ op then opAgent pack (op - followOn) else if matOp ≤ op then opAgent pack matOp else opAgent pack op
def actEpoch (op own : Nat) : Nat := if op = 0 then own else if lateOp ≤ op then 1 else if followOn ≤ op then 1 else if matOp ≤ op then op - matOp else 1
def actAfter (pack op : Nat) : List Nat :=
  if op = 0 then [pack] else if lateOp ≤ op then [actAgent pack op] else if followOn ≤ op then [pack, opAgent pack (op - followOn), opAgent pack matOp] else [pack, actAgent pack op]
/-- The epoch of a pack's present accesses. -/
def epochOf (p : Pack) (pid : Nat) : Nat := vcGet p.vc pid + 1
/-- The order that an arrival or release of a pack carries. -/
def orderOf (p : Pack) (pid : Nat) : Tab Nat := Tab.set 0 p.vc pid (epochOf p pid)
/-- After an arrival or release the pack's next epoch begins. -/
def bumpEpoch (p : Pack) (pid : Nat) : Pack := { p with vc := orderOf p pid }
/-- A pack observes an order. -/
def joinOrder (p : Pack) (v : Tab Nat) : Pack := { p with vc := vcJoin p.vc v }
/-- Whether an access of agent `a` at epoch `e` is ordered before one that a pack makes now after the agents `me` (R484). -/
def orderedBefore (p : Pack) (me : List Nat) (a e : Nat) : Bool := me.contains a || e ≤ vcGet p.vc a

/-- The pack observes the completed engine operations that a test picks (R484). -/
def observe (p : Pack) (f : Nat × Nat × Nat × Nat → Bool) : Pack :=
  { p with
    vc := (p.opsDone.filter f).foldl (fun v x =>
      Tab.upd 0 v (actAgent (x.1 % 2 ^ 64) (x.1 / 2 ^ 64)) (max (actEpoch (x.1 / 2 ^ 64) 0))) p.vc
    opsDone := p.opsDone.filter fun x => !f x }

/-- The pack observes what has completed on some tiles (07 R215; 12 R367). -/
def observeTiles (p : Pack) (hs : List Nat) : Pack := observe p fun o => o.2.1 == 0 && hs.contains o.2.2.1

/-! ### Stamps (R485, R486) -/

/-- One granule access: the key of the granule, the address that %tval reports, whether it writes, and what kind of access
it is (0 plain, 1 integer red, 2 raster visibility, 3 a monotone waitc, 4 a floating-point red, which R294 governs). -/
structure SAcc where
  key : Nat
  addr : Nat
  write : Bool
  kind : Nat
  deriving DecidableEq, Repr

/-- Keys of scratchpad granules, above those of physical memory. -/
def granKey : Loc → Nat
  | .phys a => a / 64
  | .spm1 c o => 2 ^ 60 + c * 2 ^ 24 + o / 64
  | .spm2 g o => 2 ^ 61 + g * 2 ^ 24 + o / 64
  | .spm3 t o => 2 ^ 62 + t * 2 ^ 24 + o / 64

def stampEntries (x : Stamp) : Nat :=
  if x.writer.isSome then 1 + (x.readers.length - 6) else x.readers.length

/-- Whether an access of one kind and a write of another before it never conflict (R485).  Raster writes are integer reds of their
region (14 R433). -/
def exempt (now before : Nat) : Bool :=
  (before == 1 || before == 2) && (now == 1 || now == 2 || now == 3) || now == 4 && before == 4

/-- The writers that a stamp holds, the latest first: agent, epoch, colour and kind. -/
def Stamp.writers (x : Stamp) : List (Nat × Nat × Nat × Nat) :=
  match x.writer with
  | some w => (w, x.epoch, x.colour, x.kind) :: x.others
  | none => x.others

/-- The conflict of an access with what a stamp holds, as the colour of the earlier write, 0 for a reader (R485). -/
def stampConflict (p : Pack) (me : List Nat) (x : Stamp) (a : SAcc) : Option Nat :=
  match x.writers.find? fun w => !orderedBefore p me w.1 w.2.1 && !exempt a.kind w.2.2.2 with
  | some w => some w.2.2.1
  | none =>
    if a.write && x.readers.any fun r => !orderedBefore p me r.1 r.2.1 && !((a.kind == 1 || a.kind == 2) && r.2.2) then some 0
    else none

/-- The stamp after an access by an agent.  A write takes the place of the accesses that it is ordered after; those of an exempt pair
stay, since a later access may conflict with them. -/
def stampAfter (p : Pack) (me : List Nat) (agent epoch colour : Nat) (x : Stamp) (a : SAcc) : Stamp :=
  if a.write then
    { x with
      writer := some agent
      epoch := epoch
      colour := colour
      kind := a.kind
      others := x.writers.filter fun w => !orderedBefore p me w.1 w.2.1
      readers := x.readers.filter fun r => !orderedBefore p me r.1 r.2.1 }
  else { x with readers := (agent, epoch, a.kind == 3) :: x.readers.filter fun r => !orderedBefore p me r.1 r.2.1 }

/-- Entries that the region holds. -/
def strictCap (h : Header) : Nat := (h.stampsz - 64) / 64

/-- Writes an entry of the stamp region, and USED where it has changed. -/
def writeStamp (s : State) (lid place old new : Nat) : Option State :=
  let l := s.launch lid
  let (id, s) := s.newId
  (regionWrite s lid (l.hdr.stamp + 64 + 64 * place) (Config.stampBytes id).toNat 64).bind fun s =>
    if old = new then some s else regionWrite s lid l.hdr.stamp (strictUsed l new) 8

/-- Checks and stamps the granule accesses of one operation that acts for a pack by a code.  A
region that is full traps STRICT. -/
def strictAll (s : State) (pid op colour : Nat) : List SAcc → Except Stop State
  | [] => .ok s
  | a :: rest =>
    let p := s.pack pid
    let l := s.launch p.launch
    let x := Tab.get Stamp.blank l.stamps a.key
    match stampConflict p (actAfter pid op) x a with
    | some c => .error (.trap clsRace 1 (BitVec.ofNat 64 (a.addr / 64 * 64 % 2 ^ 54 + c % 256 * 2 ^ 56)))
    | none =>
      let y := stampAfter p (actAfter pid op) (actAgent pid op) (actEpoch op (epochOf p pid)) colour x a
      let y := { y with entries := max x.entries (stampEntries y), place := if x.entries = 0 then strictUsed l l.stampUsed else x.place }
      let used := l.stampUsed + (y.entries - x.entries)
      if l.stampUsed < used ∧ strictCap l.hdr < strictUsed l used then .error (.trap clsStrict 1 (Config.trapVal clsStrict 1 0))
      else
        let s := s.modLaunch p.launch fun l =>
          { l with stamps := Tab.set Stamp.blank l.stamps a.key y, stampUsed := used }
        match writeStamp s p.launch y.place l.stampUsed used with
        | some s => strictAll s pid op colour rest
        | none => .error .lost

def strict (s : State) (pid op colour : Nat) (l : List SAcc) : Except Stop State :=
  if s.isStrict (s.pack pid).launch then strictAll s pid op colour l else .ok s

end Sys2Proof.Machine
end

