-- ==== Sys2Proof/Machine/Sight.lean ====
section
/-! DEFINITION. What the packs of a crew are guaranteed to see of each other's interval stores: barriers, fences and moves
(09 R264 to R266, R269; 15 R454). -/

namespace Sys2Proof.Machine

/-- An order joined to another: of each pack, the later number. -/
def sightJoin (a b : Tab Nat) : Tab Nat := b.foldl (fun v x => Tab.upd 0 v x.1 (max x.2)) a

def State.seenBy (s : State) (pid : Nat) : Tab Nat := Tab.get [] s.sight.seen pid
def State.readBy (s : State) (pid : Nat) : Tab Nat := Tab.get [] s.sight.read pid

/-- A pack comes to see an order. -/
def seeOrder (s : State) (pid : Nat) (v : Tab Nat) : State :=
  if v.isEmpty then s
  else { s with sight := { s.sight with seen := Tab.set [] s.sight.seen pid (sightJoin (s.seenBy pid) v) } }

/-- What a pack's releases beyond its crew have carried so far (R264). -/
def State.carriedBy (s : State) (pid : Nat) : Tab Nat := Tab.get [] s.sight.carries pid

/-- A release of a pack beyond its crew carries all that it sees now, with the pack's next commit. -/
def carryAll (s : State) (pid : Nat) : State :=
  let v := s.seenBy pid
  if v.isEmpty then s
  else { s with sight := { s.sight with carries := Tab.set [] s.sight.carries pid (sightJoin (s.carriedBy pid) v) } }

/-- The order that a release of a pack carries now: its own stores so far, and all that it sees. -/
def carriedOrder (s : State) (pid : Nat) : Tab Nat := Tab.set 0 (s.seenBy pid) pid s.fresh

/-- Whether an order holds an interval store. -/
def orderHolds (v : Tab Nat) (x : IStore) : Bool := x.ins < Tab.get 0 v x.pack

/-- An arrival of a pack at a barrier is a release at crew scope (R265). -/
def releaseAtBar (s : State) (crew pid b phase : Nat) : State :=
  { s with sight := { s.sight with arrivals := (crew, b, phase, carriedOrder s pid) :: s.sight.arrivals } }

/-- The completion of a wait at a barrier is an acquire of the phase's arrivals. -/
def acquireAtBar (s : State) (crew pid b phase : Nat) : State :=
  (s.sight.arrivals.filter fun x => x.1 == crew && x.2.1 == b && x.2.2.1 == phase).foldl (fun s x => seeOrder s pid x.2.2.2) s

/-- fence.rel of a pack at crew scope or wider. -/
def fenceRelease (s : State) (pid : Nat) : State :=
  { s with sight := { s.sight with
      rels := Tab.set [] s.sight.rels pid ((s.fresh, s.seenBy pid) :: Tab.get [] s.sight.rels pid) } }

/-- fence.acq of a pack: of each other pack, the latest fence.rel after which it wrote a value that this pack has read. -/
def fenceAcquire (s : State) (pid : Nat) (others : List Nat) : State :=
  others.foldl (fun s q =>
    match (Tab.get [] s.sight.rels q).find? fun r => r.1 < Tab.get 0 (s.readBy pid) q with
    | some r => seeOrder s pid (Tab.set 0 r.2 q r.1)
    | none => s) s

/-- A pack has read stores: their packs and instruction numbers.  It keeps each number too, since it may not read an earlier write of
the same bytes afterwards (R261). -/
def noteSources (s : State) (pid : Nat) (l : List (Nat × Nat)) : State :=
  if l.isEmpty then s
  else { s with sight := { s.sight with
      read := Tab.set [] s.sight.read pid (l.foldl (fun t x => Tab.upd 0 t x.1 (max (x.2 + 1))) (s.readBy pid))
      has := Tab.upd [] s.sight.has pid fun h => nubNat (l.map (·.2) ++ h) } }

/-- A crew that moves releases on its old core, and acquires on its new one, for each of its packs (R269). -/
def moveRelease (s : State) (packs : List Nat) : State := packs.foldl fenceRelease s
def moveAcquire (s : State) (packs : List Nat) : State := packs.foldl (fun s p => fenceAcquire s p (packs.filter (· != p))) s

/-- Nothing of a crew's stores is buffered any more: what its packs see of them has performed. -/
def clearSight (s : State) (crew : Nat) (packs : List Nat) : State :=
  { s with sight :=
      { seen := packs.foldl (fun t p => Tab.set [] t p []) s.sight.seen
        read := packs.foldl (fun t p => Tab.set [] t p []) s.sight.read
        has := packs.foldl (fun t p => Tab.set [] t p []) s.sight.has
        carries := packs.foldl (fun t p => Tab.set [] t p []) s.sight.carries
        rels := packs.foldl (fun t p => Tab.set [] t p []) s.sight.rels
        arrivals := s.sight.arrivals.filter fun x => x.1 != crew
        writers := s.sight.writers.filter fun x => x.1 / 2 ^ 24 != crew } }

/-! ### Commits (R261, R264) -/

/-- Whether two places lie in one memory or window. -/
def sameRegion : Loc → Loc → Bool
  | .phys _, .phys _ => true
  | .spm1 a _, .spm1 b _ => a == b
  | .spm2 a _, .spm2 b _ => a == b
  | .spm3 a _, .spm3 b _ => a == b
  | _, _ => false

/-- Whether a buffered store holds a byte of a range. -/
def IStore.meets (x : IStore) (l : Loc) (n : Nat) : Bool :=
  sameRegion x.loc l && x.loc.off < l.off + n && l.off < x.loc.off + x.bytes.length

/-- The buffered stores that perform when those that a test picks do, oldest first.  A store performs after the older ones of the
crew that share a byte with it, so that its home applies them in the order in which the crew has read them, and after the older ones of
its own pack (R261, R266, R270). -/
def dueStores (p : IStore → Bool) (l : List IStore) : List IStore :=
  l.foldr (fun x due => if p x || due.any fun y => x.pack == y.pack || x.meets y.loc y.bytes.length then x :: due else due) []

/-- Whether a commit of a pack performs a buffered store: its own, and those that its releases beyond the crew carry (R264). -/
def State.commits (s : State) (pid : Nat) (x : IStore) : Bool := x.pack == pid || orderHolds (s.carriedBy pid) x

/-- Whether a buffered store of another pack must perform before a pack reads some places at their homes: the pack has read it
(R261). -/
def State.mustPrecede (s : State) (pid : Nat) (l : List (Loc × Nat)) (x : IStore) : Bool :=
  x.pack != pid && (Tab.get [] s.sight.has pid).contains x.ins && l.any fun y => x.meets y.1 y.2

end Sys2Proof.Machine
end

