-- ==== Sys2Proof/Machine/Access.lean ====
section
/-! DEFINITION. The accesses of a pack: checks, translation, interval stores, loads and stores (08 R226, R233, R246; 09 R262,
R266; 15 R454 to R457). -/

namespace Sys2Proof.Machine

/-- What stops an instruction before it has its effect. -/
inductive Halt where
  | trap (t : Trap)
  /-- fatal translation faults: the trap, and the faults whose records go out for information, with their KIND bits (08 R231) -/
  | fatal (t : Trap) (l : List PFault) (kind : Nat)
  /-- replayable faults, and the KIND bits of their record (08 R233) -/
  | pages (l : List PFault) (kind : Nat)
  | stop (x : Stop)
  /-- consumes an uncorrectable error with this subcode (15 R458) -/
  | uce (sub : Nat)
  /-- cannot issue yet (04 R98) -/
  | stall
  deriving DecidableEq, Repr

/-- What the body of an instruction answers. -/
inductive Res where
  /-- it has had its effect; the threads in `left` have left sequence -/
  | done (s : State) (left : BitVec 64)
  | trap (t : Trap)
  /-- XLATE with a fatal code, with the faults to record -/
  | fatal (t : Trap) (l : List PFault) (kind : Nat)
  | stall (s : State)
  | wait (s : State) (k : WaitKind) (faults : List PFault)
  /-- the pack no longer stands at the instruction -/
  | gone (s : State)
  deriving DecidableEq, Repr

def State.curCrew (s : State) : Crew := s.crew s.curCrewId
def State.curLaunch (s : State) : Launch := s.launch s.curCrew.launch
/-- The pack that an access of the issuing pack or fox slot is charged to (16 R477). -/
def State.chargedPack (s : State) : Nat := if s.isFox then s.curCrew.st.fox.by_ else s.cur
/-- Whether the code is supervisor code (15 R467). -/
def State.curSv (s : State) : Bool := s.curLaunch.supervisor

/-! ### Places -/

/-- A resolved access: its place, and its leaf where it is translated. -/
structure Target where
  t : Nat
  addr : Int
  loc : Loc
  space : Nat
  colour : Nat
  pte : Nat
  level : Nat
  deriving DecidableEq, Repr

/-- The place of an offset in the windows of a crew. -/
def windowLoc (s : State) (crew space off : Nat) : Loc :=
  match space with
  | 2 => .spm1 crew off
  | 3 => .spm2 (s.crew crew).gang off
  | _ => .spm3 (s.gang (s.crew crew).gang).troop off

def isWindow (space : Nat) : Bool := space == 2 || space == 3 || space == 4
/-- Spaces whose accesses pass order gates (16 R476). -/
def isGated (space : Nat) : Bool := space == 0 || space == 1 || space == 8 || space == 9

/-- Translates one access. -/
def resolveOne (s : State) (crew : Nat) (kind : XKind) (a : Acc) : Except PFault Target :=
  let sp := a.cap.space
  let va := ofI 54 a.addr
  if isWindow sp then .ok ⟨a.t, a.addr, windowLoc s crew sp va, sp, a.cap.colour, 0, 0⟩
  else
    let c := s.crew crew
    let asid := if sp = 6 then 0 else (s.launch c.launch).asid
    match listPa sp va, xlate s c.core asid va kind sp with
    | some pa, _ => .ok ⟨a.t, a.addr, .phys pa, sp, a.cap.colour, 0, 0⟩
    | none, .ok x => .ok ⟨a.t, a.addr, .phys x.pa, sp, a.cap.colour, x.pte, x.level⟩
    | none, .error code => .error ⟨a.t, asid, va, code⟩

/-- Splits results into faults and targets. -/
def splitResults : List (Except PFault Target) → List PFault × List Target
  | [] => ([], [])
  | .ok x :: l => let (a, b) := splitResults l; (a, x :: b)
  | .error e :: l => let (a, b) := splitResults l; (e :: a, b)

/-- Translates every access (R231, R233): a fatal code traps XLATE, else a replayable one makes the pack wait. -/
def resolve (s : State) (crew : Nat) (kind : XKind) (kbits : Nat) (l : List Acc) : Except Halt (List Target) :=
  let (bad, good) := splitResults (l.map (resolveOne s crew kind))
  match bad.filter fun f => !replayable f.code with
  | f :: r => .error (.fatal ⟨clsXlate, f.code, BitVec.ofNat 64 f.va, maskOf ((f :: r).map (·.t))⟩ (f :: r) kbits)
  | [] => if bad.isEmpty then .ok good else .error (.pages bad kbits)

/-- The caches after the translations of an instruction, and its requests at the quays (01 R25). -/
def noteTargets (s : State) (crew : Nat) (l : List Target) : State :=
  let c := s.crew crew
  l.foldl (fun s x =>
    match x.loc with
    | .phys pa =>
      let s := if x.pte = 0 then s
        else noteXlate s c.core (if x.space = 6 then 0 else (s.launch c.launch).asid) (ofI 54 x.addr) ⟨pa, x.pte, x.level⟩
      s.request (if s.isFox then 1 else 0) pa
    | _ => s) s

/-- The checks of R226 in order, `chk` giving the subcode that an access fails, then translation. -/
def prepareBy (s : State) (crew : Nat) (chk : Acc → Option Nat) (size : Nat) (kind : XKind) (kbits : Nat) (l : List Acc) :
    Except Halt (List Target) :=
  match capvOf (l.filterMap fun a => (chk a).map fun k => (a.t, k, BitVec.ofInt 64 a.addr)) with
  | some t => .error (.trap t)
  | none =>
    match alignCheck size l with
    | some t => .error (.trap t)
    | none => resolve s crew kind kbits l

/-- The same with the checks 1 to 5 of one need. -/
def prepare (s : State) (crew : Nat) (n : Need) (kind : XKind) (kbits : Nat) (l : List Acc) : Except Halt (List Target) :=
  prepareBy s crew (fun a => capSub s.curSv n a.cap a.addr) n.size kind kbits l

/-- Granules of a target. -/
def Target.grans (x : Target) (size : Nat) : List Nat :=
  match x.loc with
  | .phys pa => (Piece.mk pa (List.replicate size 0) none false false).units 64
  | _ => []

/-- The admissions of some targets (16 R533). -/
def admissions (l : List Target) (size : Nat) (write : Bool) : List (Nat × Bool) :=
  (l.filter fun x => isGated x.space).flatMap fun x => (x.grans size).map fun g => (g, write)

/-- The stamped accesses of some targets (16 R485). -/
def stampAccs (l : List Target) (size : Nat) (write : Bool) (kind : Nat) : List SAcc :=
  l.flatMap fun x =>
    nubNat ((List.range size).map fun i => granKey (x.loc.add i)) |>.map fun k => ⟨k, ofI 54 x.addr, write, kind⟩

/-! ### The interval store buffer (15 R454, R457) -/

/-- Whether an interval store holds the byte at a place. -/
def IStore.covers (x : IStore) (l : Loc) : Bool :=
  sameRegion x.loc l && x.loc.off ≤ l.off && l.off < x.loc.off + x.bytes.length

/-- The byte that a crew reads at a place: its latest interval store, else the home's (R454, 09 R262). -/
def crewByte (s : State) (isb : List IStore) (l : Loc) : Byte :=
  match isb.reverse.find? fun x => x.covers l with
  | some x => x.bytes.getD (l.off - x.loc.off) 0
  | none => match l with
    | .phys a => s.byte a
    | l => (s.spad l).byte l.off

def crewBytes (s : State) (isb : List IStore) (l : Loc) (n : Nat) : List Byte :=
  (List.range n).map fun i => crewByte s isb (l.add i)

/-- The tag that a crew reads of a 16-byte unit. -/
def crewTag (s : State) (isb : List IStore) (l : Loc) : Bool :=
  match isb.reverse.find? fun x => (List.range 16).any fun i => x.covers (l.add i) with
  | some x => x.tag == some true && (x.cp || !x.loc.isPhys)
  | none => s.locTag l

/-- Whether every byte of an access comes from the interval store buffer. -/
def fromIsb (isb : List IStore) (l : Loc) (n : Nat) : Bool :=
  (List.range n).all fun i => isb.any fun x => x.covers (l.add i)

/-- 64-byte items of the interval store buffer: one for each granule that one store instruction writes (R457). -/
def isbItems : List IStore → List (Nat × Nat) → Nat
  | [], seen => seen.length
  | x :: l, seen =>
    let ks := nubNat ((List.range x.bytes.length).map fun i => granKey (x.loc.add i))
    isbItems l (ks.foldl (fun a k => if a.contains (x.ins, k) then a else (x.ins, k) :: a) seen)

/-- Crews placed on a core. -/
def crewsOn (s : State) (core : Nat) : List Nat :=
  (s.crews.filter fun x => x.2.live && x.2.phase == .placed && x.2.core == core).map (·.1)

def isbUsed (s : State) (core : Nat) : Nat :=
  (crewsOn s core).foldl (fun n c => n + isbItems (s.crew c).isb []) 0

/-- 64-byte items of the den of a core. -/
def denUsed (s : State) (core : Nat) : Nat :=
  (crewsOn s core).foldl (fun n c =>
    let cr := s.crew c
    if cr.lost then n else n + cr.den.length + cr.packs.foldl (fun k p => k + (s.pack p).denRows.length + (s.pack p).denImage.length) 0) 0

/-- Items the store buffer and the den of a core hold (R457). -/
def isbRoom : Nat := 4096
def denRoom : Nat := 16384

/-- Sets bits of %sflag in every pack of a crew (15 R465). -/
def setSflag (s : State) (crew : Nat) (m : W32) : State :=
  (s.crew crew).packs.foldl (fun s p => s.modPack p fun x => { x with sflag := x.sflag ||| m }) s

/-- Splits stores into the instructions that made them. -/
def splitIns : List IStore → List (List IStore)
  | [] => []
  | x :: l =>
    match splitIns l with
    | [] => [[x]]
    | g :: gs => if (g.head?.map (·.ins)) = some x.ins then (x :: g) :: gs else [x] :: g :: gs

/-- Buffered stores perform, each instruction as one step. -/
def performBuffered (s : State) (l : List IStore) : State := (splitIns l).foldl performStores s

/-- The admissions of buffered stores. -/
def storeAdmissions (l : List IStore) : List (Nat × Bool) :=
  l.flatMap fun x => if x.gated then ((Piece.mk x.loc.off x.bytes none false false).units 64).map fun g => (g, true) else []

/-- The gates of a replay at the granules of some stores: those that are held back, with their quays. -/
def gateStores (lid lin : Nat) : List Nat → List Nat → List Nat → State → Except Stop (State × List Nat × List Nat)
  | [], held, qs, s => .ok (s, held, qs)
  | g :: l, held, qs, s =>
    match (admitRecalls lid [g] [] s).bind fun s => replayAdmission s lid lin (homeQuay (g * 64)) with
    | .ok s => gateStores lid lin l held qs s
    | .error (.gate ks s) => gateStores lid lin l (g :: held) (qs ++ ks) s
    | .error e => .error e

/-- The stores of one instruction perform, gated and recorded in Track mode: the state, and what a gate holds back with its quays.  In a
replay each granule performs as its own gate lets it (16 R478). -/
def performGroup (s : State) (lid : Nat) (g : List IStore) : Except Stop (State × List IStore × List Nat) :=
  let lin := (s.pack ((g.head?.map (·.pack)).getD 0)).lin
  if ¬s.isTrack lid then .ok (performStores s g, [], [])
  else if (s.launch lid).track.replay then
    match gateStores lid lin (nubNat ((storeAdmissions g).map (·.1))) [] [] s with
    | .error e => .error e
    | .ok (s, held, qs) =>
      let stays (x : IStore) : Bool := (storeAdmissions [x]).any fun a => held.contains a.1
      let go := g.filter fun x => !stays x
      .ok (if go.isEmpty then s else performStores s go, g.filter stays, qs)
  else (passGates s lid lin 0 (storeAdmissions g)).map fun s => (performStores s g, [], [])

/-- Buffered stores perform, instruction by instruction, as far as the gates let them. -/
def performGated (lid : Nat) : List (List IStore) → State → Except Stop (State × List IStore × List Nat)
  | [], s => .ok (s, [], [])
  | g :: l, s =>
    match performGroup s lid g with
    | .error e => .error e
    | .ok (s, [], _) => performGated lid l s
    | .ok (s, left, qs) => .ok (s, left ++ l.flatten, qs)

/-- Some stores of a crew's buffer perform: those that a gate holds back stay in it, and the answer is then that gate. -/
def performDue (s : State) (crew : Nat) (due : List IStore) : Except Stop State :=
  match performGated (s.crew crew).launch (splitIns due) s with
  | .error e => .error e
  | .ok (s, left, qs) =>
    let s := s.modCrew crew fun c => { c with isb := c.isb.filter fun x => left.contains x || !due.contains x }
    if left.isEmpty then .ok s else .error (.gate qs s)

/-- A crew loses containment (R457): what is buffered performs, gated and recorded in Track mode, and the den stops.  Stores that
a gate holds back stay buffered, and go before the crew's next ones. -/
def loseContainment (s : State) (crew : Nat) (m : W32) : State :=
  let c := s.crew crew
  let s := match performDue s crew c.isb with
    | .ok s => s
    | .error (.gate _ s) => s
    | .error _ => s
  (setSflag (s.modCrew crew fun c => { c with lost := true }) crew (0x40 ||| m)).count ctrCkLost c.core 1

def sflagDenx : W32 := 0x80
def sflagIsbx : W32 := 0x100
def sflagRoll : W32 := 0x200

/-- The den copies SPM1 granules before their first write of the interval (R455). -/
def denNote (s : State) (crew : Nat) (grans : List Nat) : State :=
  let c := s.crew crew
  if c.lost then s
  else
    let new := (nubNat grans).filter fun g => !c.den.contains g
    if new.isEmpty then s
    else if denRoom < denUsed s c.core + new.length then loseContainment s crew sflagDenx
    else s.modCrew crew fun c => { c with den := c.den ++ new }

/-- Writes SPM1 in place, shadowed by the den (R454, R455). -/
def writeSpm1 (s : State) (crew off : Nat) (bs : List Byte) (tag : Option Bool) : State :=
  let s := denNote s crew ((Piece.mk off bs none false false).units 64)
  s.wrSpad (.spm1 crew off) bs tag

/-- The pack and number of the last store to each byte of SPM1. -/
def noteWriter (s : State) (crew : Nat) (x : IStore) : State :=
  { s with sight := { s.sight with
      writers := (List.range x.bytes.length).foldl (fun t i => Tab.set none t (crew * 2 ^ 24 + x.loc.off + i) (some (x.pack, x.ins)))
        s.sight.writers } }

/-- Lane stores of one instruction: to SPM1 in place, else into the interval store buffer, or to their homes when the crew has
no containment (R454, R457). -/
def issueStores (s : State) (crew : Nat) (l : List IStore) : Except Stop State :=
  let own := l.filter fun x => match x.loc with | .spm1 .. => true | _ => false
  let out := l.filter fun x => match x.loc with | .spm1 .. => false | _ => true
  let s := own.foldl (fun s x => noteWriter (writeSpm1 s crew x.loc.off x.bytes x.tag) crew x) s
  if out.isEmpty then .ok s
  else
    let c := s.crew crew
    let full : Bool := isbRoom < isbUsed s c.core + isbItems out []
    let lin := (s.pack ((out.head?.map (·.pack)).getD 0)).lin
    let now (s : State) : Except Stop State :=
      (passGates s c.launch lin 0 (storeAdmissions out)).map fun s => performBuffered s out
    if c.lost then (performDue s crew c.isb).bind now
    else if full then (performDue s crew c.isb).bind fun s => now (loseContainment s crew sflagIsbx)
    else .ok (s.modCrew crew fun c => { c with isb := c.isb ++ out })

/-! ### Loads -/

/-- The store that a byte as the crew reads it comes from, while it may be buffered or lies in SPM1. -/
def byteSource (s : State) (isb : List IStore) (l : Loc) : Option (Nat × Nat) :=
  match l with
  | .spm1 c o => Tab.get none s.sight.writers (c * 2 ^ 24 + o)
  | l => (isb.reverse.find? fun x => x.covers l).map fun x => (x.pack, x.ins)

def readSources (s : State) (isb : List IStore) (l : List Target) (size : Nat) : List (Nat × Nat) :=
  l.flatMap fun x => (List.range size).filterMap fun i => byteSource s isb (x.loc.add i)

/-- The bytes and tags of the targets as the crew reads them, after the order gates, the stamps and the recalls (R246; 10 R291;
16 R478, R485).  The fox slot and engines read what has performed. -/
def readTargets (s : State) (crew : Nat) (l : List Target) (size : Nat) :
    Except Halt (State × List (Target × List Byte × Bool)) :=
  let pid := s.chargedPack
  let isb := if s.isFox then [] else (s.crew crew).isb
  match passGates s (s.crew crew).launch (s.pack pid).lin (if s.isFox then s.cur else 0) (admissions l size false) with
  | .error e => .error (.stop e)
  | .ok s =>
    match strict s pid 0 0 (stampAccs l size false 0) with
    | .error e => .error (.stop e)
    | .ok s =>
      let s := readyRead s (nubNat (l.flatMap fun x => x.grans size))
      let live := l.filter fun x => !fromIsb isb x.loc size
      match s.uceRanges (live.map fun x => (x.loc, size)) with
      | some k => .error (.uce k)
      | none => .ok (noteSources (noteTargets s crew l) pid (readSources s isb l size), l.map fun x => (x, crewBytes s isb x.loc size, crewTag s isb x.loc))

/-! ### Stores -/

/-- One thread's stored bytes, with the tag of a capability. -/
structure StVal where
  x : Target
  bytes : List Byte
  tag : Option Bool
  deriving DecidableEq, Repr

/-- Folds stores into a pack's hash, in ascending lane order and address (16 R479). -/
def foldHash (s : State) (pid : Nat) (l : List (Int × List Byte)) : State :=
  s.modPack pid fun p => { p with hash := l.foldl (fun h x => hashBytes h (ofI 54 x.1) x.2) p.hash }

/-- Stamps the stores of one instruction, thread by thread. -/
def strictStores (s : State) (pid : Nat) : List StVal → Except Stop State
  | [] => .ok s
  | v :: l =>
    match strict s pid 0 v.x.colour (stampAccs [v.x] v.bytes.length true 0) with
    | .error e => .error e
    | .ok s => strictStores s pid l

/-! ### The spill forwarding table (05 R140) -/

def spillRoom : Nat := 32
def State.spillsOf (s : State) (core : Nat) : List Spill := Tab.get [] s.spills core
def State.setSpills (s : State) (core : Nat) (l : List Spill) : State := { s with spills := Tab.set [] s.spills core l }

/-- The oldest entry of a core's table drains onto the lane path, as an interval store. -/
def drainSpill (s : State) (core : Nat) : Except Stop State :=
  match s.spillsOf core with
  | [] => .ok s
  | e :: l => issueStores (s.setSpills core l) (s.pack e.pack).crew (e.items.map (·.2)).eraseDups

/-- Drains a core's table until no entry of a pack is left. -/
def drainPack (s : State) (core pid : Nat) : Nat → Except Stop State
  | 0 => .ok s
  | n + 1 =>
    if (s.spillsOf core).any fun e => e.pack == pid then
      match drainSpill s core with
      | .error e => .error e
      | .ok s => drainPack s core pid n
    else .ok s

/-- What the table answers to a load of space 6 by a pack. -/
inductive SpillHit where
  | miss
  /-- an overlap that no one entry covers: the load waits -/
  | overlap
  | hit (items : List (Nat × IStore))
  deriving DecidableEq, Repr

/-- Whether an entry serves every target. -/
def Spill.serves (e : Spill) (l : List Target) (size : Nat) : Bool :=
  e.size == size && l.all fun x => e.items.any fun i => i.1 == x.t && i.2.loc == x.loc

/-- Whether an entry holds a byte of a target. -/
def Spill.overlaps (e : Spill) (l : List Target) (size : Nat) : Bool :=
  l.any fun x => x.space == 6 && e.items.any fun i => (List.range size).any fun k => i.2.covers (x.loc.add k)

/-- The youngest entry that overlaps the load serves it, if it holds the whole: an older one would give bytes that program order
has replaced. -/
def spillLookup (s : State) (core pid : Nat) (l : List Target) (size : Nat) : SpillHit :=
  let mine := (s.spillsOf core).filter fun e => e.pack == pid
  match mine.reverse.find? fun e => e.overlaps l size with
  | none => .miss
  | some e => if !l.isEmpty && (l.all fun x => x.space == 6) && e.serves l size then .hit e.items else .overlap

/-- What an entry holds at an address: of each byte, the store of the highest thread (09 R271). -/
def Spill.bytesAt (items : List (Nat × IStore)) (l : Loc) (n : Nat) : List Byte :=
  (List.range n).map fun k =>
    match items.reverse.find? fun i => i.2.covers (l.add k) with
    | some i => i.2.bytes.getD ((l.add k).off - i.2.loc.off) 0
    | none => 0

/-- The tag that an entry gives a unit: that of the highest thread's store there. -/
def Spill.tagAt (items : List (Nat × IStore)) (l : Loc) : Bool :=
  match items.reverse.find? fun i => i.2.meets l 16 with
  | some i => i.2.tag == some true && i.2.cp
  | none => false

/-- The stores of one instruction of the issuing pack (R246, R271, R454; 16 R479, R485).  Those to space 6 go into the
forwarding table, which stalls the instruction when it is full; a uniform store stands there for every thread of its mask, `ts`. -/
def writeTargets (s : State) (crew : Nat) (ts : List Nat) (l : List StVal) : Except Halt State :=
  let pid := s.cur
  let core := (s.crew crew).core
  let ctx := l.filter fun v => v.x.space == 6
  if !ctx.isEmpty && spillRoom ≤ (s.spillsOf core).length then .error .stall
  else
    match strictStores s pid l with
    | .error e => .error (.stop e)
    | .ok s =>
      let s := noteTargets s crew (l.map (·.x))
      let (ins, s) := s.newId
      let mk (v : StVal) : IStore :=
        ⟨pid, ins, v.x.loc, v.bytes, v.tag, bitAt v.x.pte 5, leafCp v.x.pte, v.x.colour, isGated v.x.space⟩
      let s := if ctx.isEmpty then s
        else s.setSpills core (s.spillsOf core ++ [⟨pid, ((ctx.head?.map fun v => v.bytes.length)).getD 0,
          if ts.isEmpty then ctx.map fun v => (v.x.t, mk v) else ts.flatMap fun t => ctx.map fun v => (t, mk v)⟩])
      match issueStores s crew ((l.filter fun v => v.x.space != 6).map mk) with
      | .error e => .error (.stop e)
      | .ok s => .ok (foldHash s pid (l.map fun v => (v.x.addr, v.bytes)))

end Sys2Proof.Machine
end

