-- ==== Sys2Proof/Machine/Crew.lean ====
section
/-! DEFINITION. Commits, exposure, checkpoints, rollback, aborts and the end of packs and crews (04 R117; 09 R257; 10 R308;
13 R416; 15 R453 to R462). -/

namespace Sys2Proof.Machine

/-! ### Moorings (09 R256 to R258) -/

def Mooring.blank : Mooring := ⟨0, .free, [], 0, 0, [], []⟩

def modMoor (s : State) (lid m : Nat) (f : Mooring → Mooring) : State :=
  s.modLaunch lid fun l =>
    match Tab.get none l.moors m with
    | some x => { l with moors := Tab.set none l.moors m (some (f x)) }
    | none => l

/-- A pack's hold ends: an exclusive hold advances COUNT when `adv`; the release carries the pack's order (16 R484). -/
def Mooring.release (x : Mooring) (pid : Nat) (adv : Bool) (order : Tab Nat) : Mooring :=
  let hs := x.holders.filter (· != pid)
  { x with
    holders := hs
    mode := if hs.isEmpty then .free else x.mode
    owner := if hs.isEmpty then 0 else x.owner
    count := if adv && x.mode == .exclusive then x.count + 1 else x.count
    rels := if adv && x.mode == .exclusive then [(0, vcJoin ((x.rels.head?.map (·.2)).getD []) order)] else x.rels }

/-- Moorings of a launch that a pack holds, ascending. -/
def holdsOf (s : State) (lid pid : Nat) : List Nat :=
  ((s.launch lid).moors.filter fun x => match x.2 with
    | some m => m.holders.contains pid
    | none => false).map (·.1)

/-- The granule that stands for a mooring's place at quay `q` among the admissions of an operation. -/
def moorGran (q : Nat) : Nat := 2 ^ 60 + q

/-- Accesses of a pack to moorings pass the order gates of their quays in Track mode (16 R478). -/
def gatesAt (s : State) (pid : Nat) (qs : List Nat) : Except Stop State :=
  let p := s.pack pid
  let made (s : State) (q : Nat) : Bool := (s.launch p.launch).track.made.contains (p.lin, 0, moorGran q, true)
  if ¬s.isTrack p.launch then .ok s
  else qs.foldl (fun (r : Except Stop State) q => r.bind fun s =>
    if (s.launch p.launch).track.replay then
      if made s q then .ok s
      else (replayAdmission s p.launch p.lin q).map fun s =>
        modTrack s p.launch fun t => { t with made := (p.lin, 0, moorGran q, true) :: t.made }
    else recordAdmission s p.launch p.lin q) (.ok s)

def gateAt (s : State) (pid q : Nat) : Except Stop State := gatesAt s pid [q]

/-- Releases every hold of a pack, in ascending mooring index (R257). -/
def releaseHolds (s : State) (lid pid : Nat) (adv : Bool) : State :=
  (holdsOf s lid pid).foldl (fun s m => modMoor s lid m fun x => x.release pid adv (orderOf (s.pack pid) pid)) s

/-- Withdraws a pack's acq request. -/
def withdrawAcq (s : State) (lid pid : Nat) : State :=
  s.modLaunch lid fun l =>
    { l with moors := l.moors.map fun x => (x.1, x.2.map fun m => { m with waiters := m.waiters.filter fun w => w.pack != pid }) }

/-! ### Records of a work graph (13 R410, R414, R416) -/

/-- Packs that wait for a record try again once one is free (13 R414). -/
def wakeRecords (s : State) (lid : Nat) : State :=
  let g := (s.launch lid).graph
  if g.recs.length < g.pooln then
    { s with packs := s.packs.map fun x =>
        (x.1, if x.2.live && x.2.launch == lid && x.2.wait.kind == .record then { x.2 with wait := Wait.none } else x.2) }
  else s

def modRecs (s : State) (lid : Nat) (f : Nat → Rec → Rec) : State :=
  wakeRecords (s.modLaunch lid fun l =>
    { l with graph := { l.graph with
        recs := (l.graph.recs.map fun x => (x.1, f x.1 x.2)).filter fun x => x.2 != Rec.free } }) lid

/-- Frees the records that a crew has marked, at its commit. -/
def freeMarked (s : State) (lid crew : Nat) : State :=
  modRecs s lid fun _ r => if r.freeing == some crew then Rec.free else r

/-! ### Commits (15 R454, R456; 16 R480) -/

def modProgress (s : State) (pid : Nat) (f : Progress → Progress) : State := s.modPack pid fun p => { p with progress := f p.progress }

/-- Marks that the next commit of a pack has its entry, in Track mode. -/
def noteLogged (s : State) (pid : Nat) : State :=
  if s.isTrack (s.pack pid).launch then modProgress s pid fun x => { x with logged := true } else s

/-- A commit of a pack is done: its commit index rises. -/
def bumpCommit (s : State) (pid : Nat) : State := s.modPack pid fun p => { p with commit := nextCommit p, progress := { p.progress with logged := false } }

/-- Commits one pack's interval stores: its spills drain (05 R140), then its record, then the stores perform in issue order as their
gates let them.  Stores of other packs that its releases carry go with them (09 R264), and the older ones of the same bytes before
them (09 R261).  A commit that a gate holds back keeps what it has done, and goes on from there. -/
def commitPack (s : State) (pid : Nat) : Except Stop State :=
  let p := s.pack pid
  match (drainPack s (s.crew p.crew).core pid spillRoom).bind fun s => commitEntry s pid with
  | .error e => .error e
  | .ok s =>
    let s := noteLogged s pid
    match performDue s p.crew (dueStores (s.commits pid) (s.crew p.crew).isb) with
    | .error e => .error e
    | .ok s => .ok (bumpCommit s pid)

/-- The interval of a crew is exposed (R456). -/
def setExposed (s : State) (crew : Nat) : State := s.modCrew crew fun c => { c with exposed := true }

/-- The commit of an exposing instruction, and the exposure of the interval (R456). -/
def expose (s : State) (pid : Nat) : Except Stop State :=
  let p := s.pack pid
  match commitPack s pid with
  | .error (.gate qs s) => .error (.gate qs (setExposed s p.crew))
  | .error e => .error e
  | .ok s => .ok (freeMarked (setExposed s p.crew) p.launch p.crew)

/-- The exposure of an instruction that travels to a quay.  In Track mode it commits and leaves its core first, and its own access
comes at a later step, so that the accesses of other packs may come between (10 R283; 16 R478; 20 R529). -/
def sendOff (s : State) (pid : Nat) : Except Stop State :=
  if ¬s.isTrack (s.pack pid).launch then expose s pid
  else if (s.pack pid).progress.sent then .ok s
  else (expose s pid).bind fun s => .error (.sent (modProgress s pid fun x => { x with sent := true }))

/-- Buffered stores of crewmates that a pack has read perform before it reads the same bytes at their home (09 R261). -/
def catchUp (s : State) (pid : Nat) (l : List (Loc × Nat)) : Except Stop State :=
  let crew := (s.pack pid).crew
  match (s.crew crew).isb.filter (s.mustPrecede pid l) with
  | [] => .ok s
  | must => performDue s crew (dueStores must.contains (s.crew crew).isb)

/-- The end of a pack that holds moorings acts as a rel of each: the commit, the gates of their quays, the releases (09 R257). -/
def releaseAll (s : State) (pid : Nat) : Except Stop State :=
  let p := s.pack pid
  let quays (s : State) : List Nat :=
    (holdsOf s p.launch pid).map fun m => ((Tab.get none (s.launch p.launch).moors m).map (·.quay)).getD 0
  let sent (s : State) : Except Stop State :=
    if p.progress.sent then .ok s
    else (expose (carryAll s pid) pid).map fun s => if s.isTrack p.launch then modProgress s pid fun x => { x with sent := true } else s
  ((sent s).bind fun s => gatesAt s pid (quays s)).map fun s =>
    releaseHolds (dropMade (modProgress s pid fun x => { x with sent := false }) p.launch p.lin 0) p.launch pid true

/-- Commits the packs of a crew, in index order; the commits that a gate holds back, with their quays and the first such pack, do not
keep the others from theirs. -/
def commitEach : List Nat → List Nat → Option Nat → State → Except (Nat × Stop) State
  | [], _, none, s => .ok s
  | [], qs, some p, s => .error (p, .gate qs s)
  | p :: l, qs, held, s =>
    if (s.pack p).progress.sent then commitEach l qs held s
    else match commitPack s p with
    | .ok s => commitEach l qs held (if s.isTrack (s.pack p).launch then modProgress s p fun x => { x with sent := true } else s)
    | .error (.gate ks s) => commitEach l (qs ++ ks) (some (held.getD p)) s
    | .error e => .error (p, e)

/-- The commit of a crew at its checkpoint or its end.  The commits of a crew that a gate holds back go on where they stopped: a pack
whose commit is done has `sent` set meanwhile. -/
def commitAll (s : State) (l : List Nat) : Except (Nat × Stop) State :=
  (commitEach l [] none s).map fun s => l.foldl (fun s p => modProgress s p fun x => { x with sent := false }) s

/-! ### Checkpoints (15 R453, R455) -/

/-- Holds of a crew's packs. -/
def crewHolds (s : State) (c : Crew) : List (Nat × Nat) :=
  c.packs.flatMap fun p => (holdsOf s c.launch p).map fun m => (p, m)

/-- Marks of the gather lines whose last contributor is a pack of a crew (11 R333). -/
def crewMarks (s : State) (c : Crew) : List (Nat × Nat × ArrMark) :=
  let lins := c.packs.map fun p => (s.pack p).lin
  s.gather.flatMap fun x => (x.2.filter fun l => l.launch == c.launch && lins.contains l.last).map fun l => (x.1, l.gran, l.mark)

/-- Those marks as they stood at the checkpoint. -/
def restoreMarks (s : State) (c : Crew) : State :=
  let lins := c.packs.map fun p => (s.pack p).lin
  { s with gather := s.gather.map fun x => (x.1, x.2.map fun l =>
      if l.launch == c.launch && lins.contains l.last then
        match c.ckMarks.find? fun m => m.1 == x.1 && m.2.1 == l.gran with
        | some m => { l with mark := m.2.2 }
        | none => l
      else l) }

/-- Records the crew as it stands: the den starts anew. -/
def recordCheckpoint (s : State) (crew : Nat) : State :=
  let s := (s.crew crew).packs.foldl (fun s p => s.modPack p fun x => { x with denRows := [], denImage := [] }) s
  let s := s.modCrew crew fun c =>
    { c with
      exposed := false
      lost := false
      den := []
      ck := c.st
      ckPacks := c.packs.map fun p => (p, s.pack p)
      ckHolds := crewHolds s c
      ckMarks := crewMarks s c }
  let s := clearSight s crew (s.crew crew).packs
  (modRecs s (s.crew crew).launch fun _ r => if r.crew == crew then { r with fresh := false } else r).count ctrCkTake
    (s.crew crew).core 1

/-! ### Ends (10 R308, R281; 13 R400, R410) -/

/-- Everything of a crew that leaves with it: subscriptions, copies, matrix and geometry operations, spills. -/
def dropWork (s : State) (crew : Nat) : State :=
  let c := s.crew crew
  { s with
    subs := s.subs.filter fun x => match x.2 with
      | some b => b.crew != crew
      | none => false
    copies := s.copies.filter fun x => x.2.crew != crew
    seqs := (s.seqs.map fun x => (x.1, x.2.filter fun o => o.crew != crew)).filter fun x => !x.2.isEmpty
    geos := s.geos.filter fun x => match x.2 with
      | some g => g.crew != crew
      | none => false
    spills := (s.spills.map fun x => (x.1, x.2.filter fun e => !c.packs.contains e.pack)).filter fun x => !x.2.isEmpty
    rf := (s.rf.map fun x => (x.1, x.2.filter fun e => !c.packs.contains e.pack)).filter fun x => !x.2.isEmpty }

/-- Context-area blocks of a unit (kinds 0 pack, 1 crew, 2 gang, 3 troop) are returned. -/
def freeCtx (s : State) (lid kind n : Nat) : State :=
  s.modLaunch lid fun l => { l with ctx := l.ctx.filter fun x => !(x.1 == kind && x.2.1 == n) }

/-! ### Bytes of the context space, and scratchpad windows in it (07 R200; 13 R400) -/

/-- Writes bytes at an address of space 6; a range that does not translate keeps its bytes. -/
def ctxWrite (s : State) (va : Nat) (bs : List Byte) : State :=
  let place (x : Nat × Nat) : Option Piece :=
    (walk s 0 x.1 .write 6).toOption.map fun y => ⟨y.pa, (bs.drop (x.1 - va)).take x.2, none, false, false⟩
  match (granCuts va bs.length).mapM place with
  | some ps => performPieces s ps
  | none => s

/-- A byte of the context space. -/
def ctxByte (s : State) (va : Nat) : Byte :=
  match walk s 0 va .read 6 with
  | .ok x => s.byte x.pa
  | .error _ => 0

def ctxNat (s : State) (va n : Nat) : Nat := leNat ((List.range n).map fun i => ctxByte s (va + i))

/-- Whether every page of a range translates. -/
def ctxMapped (s : State) (va n : Nat) (kind : XKind) : Bool :=
  (List.range ((va + n - 1) / 65536 - va / 65536 + 1)).all fun i =>
    match walk s 0 (max va (65536 * (va / 65536 + i))) kind 6 with
    | .ok _ => true
    | .error _ => false

/-- The bytes of a scratchpad window go to a block of the context area, and come back from it (07 R200); its tags and codes stay in
the record of its owner. -/
def saveSpad (s : State) (base : Nat) (w : Spad) : State :=
  (List.range ((w.size + 4095) / 4096)).foldl (fun s i => ctxWrite s (base + 4096 * i) (w.rd (4096 * i) (min 4096 (w.size - 4096 * i)))) s

def loadSpad (s : State) (base : Nat) (w : Spad) : Spad :=
  if ctxMapped s base w.size .write then
    { w with bytes := (List.range w.size).foldl (fun t i => Tab.set 0 t i (ctxByte s (base + i))) [] }
  else w

/-- The block of the context area that a unit owns: its base and size. -/
def ctxBlock (s : State) (lid kind owner : Nat) : Option (Nat × Nat) :=
  ((s.launch lid).ctx.find? fun b => b.1 == kind && b.2.1 == owner).map fun b => (b.2.2.1, b.2.2.2)

/-- SPM2 of a gang, and SPM3 of a troop, that leave and come back. -/
def saveSpm2 (s : State) (gid : Nat) : State :=
  match ctxBlock s (s.gang gid).launch 2 gid with
  | some b => saveSpad s b.1 (s.gang gid).spm2
  | none => s

def loadSpm2 (s : State) (gid : Nat) : State :=
  match ctxBlock s (s.gang gid).launch 2 gid with
  | some b => s.modGang gid fun g => { g with spm2 := loadSpad s b.1 g.spm2 }
  | none => s

def saveSpm3 (s : State) (tid : Nat) : State :=
  match ctxBlock s (s.troop tid).launch 3 tid with
  | some b => saveSpad s b.1 (s.troop tid).spm3
  | none => s

def loadSpm3 (s : State) (tid : Nat) : State :=
  match ctxBlock s (s.troop tid).launch 3 tid with
  | some b => s.modTroop tid fun t => { t with spm3 := loadSpad s b.1 t.spm3 }
  | none => s

/-- Whether a crew of a gang is on a core. -/
def gangHere (s : State) (gid : Nat) : Bool := (s.gang gid).crews.any (onCore s)

/-- A troop leaves its sett when none of its crews is on a core (07 R200). -/
def leaveTroop (s : State) (tid : Nat) : State :=
  let t := s.troop tid
  if !t.live || t.sett.isNone || t.gangs.any (gangHere s) then s else (saveSpm3 s tid).modTroop tid fun t => { t with sett := none }

/-- A gang leaves its cluster, and its troop its sett, when none of its crews is on a core (07 R200). -/
def leaveUnits (s : State) (gid : Nat) : State :=
  let g := s.gang gid
  let s := if !g.live || g.cluster.isNone || gangHere s gid then s else (saveSpm2 s gid).modGang gid fun g => { g with cluster := none }
  leaveTroop s g.troop

/-! ### The end of a crew -/

/-- Gangs of a troop in a launch (13 R397). -/
def gangsPerTroop (l : Launch) : Nat := if l.graph.present then 1 else l.hdr.c3

/-- A crew is gone: its records leave the tables, and the gang and troop go with their last crew; with the last one on a core, what is left
of them leaves its cluster and sett (07 R200). -/
def removeCrew (s : State) (crew : Nat) : State :=
  let c := s.crew crew
  let s := clearSight (dropWork s crew) crew c.packs
  let s := c.packs.foldl (fun s p =>
    let lin := (s.pack p).lin
    let s := modTrack s c.launch fun t => { t with ended := if t.ended.contains lin then t.ended else lin :: t.ended }
    freeCtx (s.setPack p Pack.blank) c.launch 0 p) s
  let s := freeCtx (s.setCrew crew Crew.blank) c.launch 1 crew
  let g := s.gang c.gang
  let left := g.crews.filter (· != crew)
  if left.isEmpty then
    let s := freeCtx (s.setGang c.gang Gang.blank) c.launch 2 c.gang
    let t := s.troop g.troop
    let gs := t.gangs.filter (· != c.gang)
    let l := s.launch c.launch
    let more : Bool := l.nextGang < min l.gangs ((t.lin + 1) * l.hdr.c3) && t.lin * l.hdr.c3 < l.gangs
    if gs.isEmpty && !more then freeCtx (s.setTroop g.troop Troop.blank) c.launch 3 g.troop
    else leaveTroop (s.setTroop g.troop { t with gangs := gs }) g.troop
  else leaveUnits (s.setGang c.gang { g with crews := left }) c.gang

/-! ### Aborts (15 R461, R462) -/

/-- A 64-byte event of the management interface (17 R500). -/
def eventBytes (typ tag status : Nat) (body : List Byte) : List Byte :=
  leBytes typ 1 ++ leBytes 0 3 ++ leBytes tag 4 ++ leBytes status 8 ++ leBytes 0 16 ++
    (body ++ List.replicate (32 - body.length) 0)

/-- The abort record of R462. -/
def abortRecord (hdr epc core cls why sub : Nat) : List Byte :=
  leBytes hdr 8 ++ leBytes epc 8 ++ leBytes core 2 ++ leBytes cls 1 ++ leBytes why 1 ++ leBytes sub 2 ++ leBytes 0 10

/-- A crew abort without its record, as a function-level reset makes it (17 R501). -/
def abortQuiet (s : State) (crew : Nat) : State :=
  let c := s.crew crew
  let s := c.packs.foldl (fun s p => withdrawAcq (releaseHolds s c.launch p false) c.launch p) s
  let s := modRecs s c.launch fun _ r =>
    if r.crew == crew && r.state == .held then Rec.free
    else if r.freeing == some crew then { r with freeing := none } else r
  let s := removeCrew s crew
  s.modLaunch c.launch fun l => { l with aborted := true }

/-- The device aborts a crew (R461), with the class, subcode and address of the trap concerned. -/
def crewAbort (s : State) (crew why cls sub : Nat) (epc : W64) : State :=
  let c := s.crew crew
  let ev := eventBytes 2 0 0 (abortRecord (s.launch c.launch).hdr.addr epc.toNat c.core cls why sub)
  let s := (abortQuiet s crew).count ctrCkAbort c.core 1
  { s with events := s.events ++ [ev] }

/-! ### Rollback (15 R459) -/

/-- SPM1 at the checkpoint, but for the bytes of bound standing slots (10 R306). -/
def restoreSpm1 (s : State) (c : Crew) : Spad :=
  let offs := c.slots.filterMap fun x => (x.2.bind s.sub).map (·.off)
  offs.foldl (fun w o =>
    (List.range 16).foldl (fun w i => { w with bytes := Tab.set 0 w.bytes (o + i) (c.st.spm1.byte (o + i)) })
      { w with tags := Tab.set false w.tags (o / 16) (c.st.spm1.tagAt o) }) c.ck.spm1

/-- A pack as it stood at the checkpoint, with ROLL set and its rows its own; operations that have issued on the geometry engines stay counted
(14 R419), and its reservation, monitor and acq wait are gone. -/
def restorePack (now old : Pack) : Pack :=
  { old with
    sflag := old.sflag ||| sflagRoll
    geo := now.geo
    slot := now.slot
    order := now.order
    resv := none
    monitor := none
    denRows := []
    denImage := []
    imaged := [] }

/-- The base of a pack's image. -/
def imageBase (s : State) (pid : Nat) : Option Nat :=
  ((s.launch (s.pack pid).launch).ctx.find? fun b => b.1 == 0 && b.2.1 == pid).map fun b => b.2.2.1

/-- The rows of a pack's image that the den has copied come back, and what its lines hold is not in the image any more (05 R139). -/
def restoreImage (s : State) (pid : Nat) : State :=
  let s : State := { s with rf := s.rf.map fun x => (x.1, x.2.map fun l => if l.pack == pid then { l with dirty := true } else l) }
  match imageBase s pid with
  | none => s
  | some b =>
    ((s.pack pid).denImage.flatMap (·.2)).foldl (fun s y =>
      match walk s 0 (b + y.1) .write 6 with
      | .ok x => performBytes s x.pa y.2
      | .error _ => s) s

/-- Takes a crew back to its checkpoint. -/
def rollback (s : State) (crew : Nat) : State :=
  let c := s.crew crew
  let s := c.packs.foldl (fun s p => withdrawAcq s c.launch p) s
  let s := c.packs.foldl (fun s p =>
    ((holdsOf s c.launch p).filter fun m => !c.ckHolds.contains (p, m)).foldl (fun s m =>
      modMoor s c.launch m fun x => x.release p false []) s) s
  let s := modRecs s c.launch fun _ r =>
    if r.fresh && r.crew == crew && r.state == .held then Rec.free
    else if r.freeing == some crew then { r with freeing := none } else r
  let s := { s with
    copies := s.copies.filter fun x => x.2.crew != crew
    seqs := (s.seqs.map fun x => (x.1, x.2.filter fun o => o.crew != crew)).filter fun x => !x.2.isEmpty
    spills := (s.spills.map fun x => (x.1, x.2.filter fun e => !c.packs.contains e.pack)).filter fun x => !x.2.isEmpty }
  let w := restoreSpm1 s c
  let s := c.packs.foldl restoreImage s
  let s := clearSight (restoreMarks s c) crew c.packs
  let s := c.ckPacks.foldl (fun s x => s.setPack x.1 (restorePack (s.pack x.1) x.2)) s
  (s.modCrew crew fun c =>
    { c with st := { c.ck with spm1 := w }, isb := [], den := [], exposed := false }).count ctrCkRoll c.core 1

/-- A crew consumes an uncorrectable error (R458); a check-value mismatch is counted (08 R244). -/
def consumeUce (s : State) (crew sub : Nat) : State :=
  let s := if sub = 3 then s.count ctrChkErr (settOfCore (s.coreOf crew)) 1 else s
  let c := s.crew crew
  if c.lost then crewAbort s crew 4 clsUce sub 0
  else if c.exposed then crewAbort s crew 3 clsUce sub 0
  else rollback s crew

/-! ### The end of packs and crews (04 R117) -/

/-- The last pack of a crew has ended: its interval stores commit as at a checkpoint, and its allotments are freed.  A crew whose
commit an order gate holds back ends when the gate lets it pass (16 R478). -/
def endCrew (s : State) (crew : Nat) : State :=
  let c := s.crew crew
  match commitAll s c.packs with
  | .error (_, .trap cls sub _) => crewAbort s crew 8 cls sub 0
  | .error (_, .lost) => crewAbort s crew 9 0 0 0
  | .error (_, .gate _ s) => s
  | .error (_, .sent s) => s
  | .ok s => removeCrew (freeMarked s c.launch crew) crew

/-- b0 expects every pack that has not ended (11 R335). -/
def setB0 (s : State) (crew : Nat) : State :=
  let n := ((s.crew crew).packs.filter fun p => (s.pack p).live).length
  s.modSt crew fun st => crewSetBar st 0 { crewBar st 0 with exp := n }

/-- Whether a tfill, copy, matrix or geometry operation of a crew is in flight. -/
def crewBusy (s : State) (crew : Nat) : Bool :=
  !(s.crew crew).st.tfills.isEmpty || (s.copies.any fun x => x.2.live && x.2.crew == crew) || (s.seqs.any fun x => x.2.any fun o => o.crew == crew) ||
    (s.geos.any fun x => match x.2 with
      | some g => g.crew == crew
      | none => false)

/-- A crew none of whose packs is left ends, once the operations that it started have completed. -/
def settleCrew (s : State) (crew : Nat) : State :=
  let c := s.crew crew
  if c.live && !(c.packs.any fun q => (s.pack q).live) && !crewBusy s crew then endCrew s crew else s

/-- A pack all of whose threads have exited ends: a pack that holds a mooring first commits and releases (09 R257). -/
def endPack (s : State) (pid : Nat) : Except Stop State :=
  let p := s.pack pid
  let ready : Except Stop State :=
    if (holdsOf s p.launch pid).isEmpty then .ok s else releaseAll s pid
  match ready with
  | .error e => .error e
  | .ok s =>
    let s := s.modPack pid fun x => { x with live := false, wait := Wait.none, monitor := none, resv := none, sel := 0 }
    let s := { s with rf := (s.rf.map fun x => (x.1, x.2.filter fun e => e.pack != pid)).filter fun x => !x.2.isEmpty }
    let s := modTrack s p.launch fun t => { t with ended := p.lin :: t.ended }
    if (s.crew p.crew).packs.any fun q => (s.pack q).live then .ok (setB0 s p.crew) else .ok (settleCrew s p.crew)

end Sys2Proof.Machine
end

