-- ==== Sys2Proof/Machine/Ops.lean ====
section
/-! DEFINITION. Subset selection and loop ends (04 R101 to R109, R532), taking a trap and returning from one (15 R443 to R450),
and the one wrapper under which every instruction issues. -/

namespace Sys2Proof.Machine

/-! ### Subsets (04 R101 to R104) -/

/-- Threads that selection considers: in a handler, those of the handler's subset (R447, R532). -/
def inScope (p : Pack) (t : Nat) : Bool := !p.save.inHandler || p.save.mask.getLsbD t

/-- The runnable threads. -/
def runThreads (p : Pack) : List Nat :=
  (List.range p.width).filter fun t => let th := packThread p t; !th.exited && !th.held && inScope p t

/-- The address at which the selected subset stands. -/
def packPc (p : Pack) : W64 :=
  match lanesOf p.sel p.width with
  | t :: _ => (packThread p t).pc
  | [] => 0

def minNat : List Nat → Option Nat
  | [] => none
  | x :: l => match minNat l with
    | none => some x
    | some y => some (min x y)

/-- Changes some threads. -/
def modThreads (p : Pack) (l : List Nat) (f : Thread → Thread) : Pack := l.foldl (fun q t => packModThread q t f) p

/-- The loop-end test of R109 at address `pc`: where the continuing threads go instead, and the stack. -/
def loopTest (pc : W64) : List LoopEntry → Option W64 × List LoopEntry
  | [] => (none, [])
  | e :: l =>
    if e.stop = pc then
      if 1 < e.count.toNat then (some e.start, { e with count := e.count - 1 } :: l) else loopTest pc l
    else (none, e :: l)

/-- Threads continue in sequence after the instruction of `size` bytes at `pc`. -/
def continueThreads (p : Pack) (l : List Nat) (pc : W64) (size : Nat) : Pack :=
  if l.isEmpty then p
  else
    let (tgt, loops) := loopTest pc p.loops
    modThreads { p with loops := loops } l fun th => { th with pc := tgt.getD (pc + BitVec.ofNat 64 size) }

/-- Releases the threads held at the lowest conv when no thread of the scope lies below it (R104, R532). -/
def releaseConv (p : Pack) : Pack :=
  let live := (List.range p.width).filter fun t => !(packThread p t).exited && inScope p t
  let held := live.filter fun t => (packThread p t).held
  match minNat (held.map fun t => (packThread p t).pc.toNat) with
  | none => p
  | some x =>
    if live.any fun t => !(packThread p t).held && (packThread p t).pc.toNat < x then p
    else
      let go := held.filter fun t => (packThread p t).pc.toNat == x
      let size := (go.head?.map fun t => (packThread p t).holdSize).getD 4
      continueThreads (modThreads p go fun th => { th with held := false, holdSize := 0 }) go (BitVec.ofNat 64 x) size

/-- select_subset of R101. -/
def selectSubset (p : Pack) : BitVec 64 :=
  let run := runThreads p
  let pcOf (t : Nat) : Nat := (packThread p t).pc.toNat
  let old := run.filter fun t => 1024 ≤ (packThread p t).age
  let top := old.foldl (fun a t => max a (packThread p t).age) 0
  let cand := if old.isEmpty then run else old.filter fun t => (packThread p t).age == top
  match minNat (cand.map pcOf) with
  | none => 0
  | some pc0 => maskOf (run.filter fun t => pcOf t == pc0)

/-- The next selection. -/
def reselect (p : Pack) : Pack := let p := releaseConv p; { p with sel := selectSubset p }

/-- Ages after an issue of the subset `sel`, with `run` the threads runnable before it (R101). -/
def stepAges (p : Pack) (run : List Nat) (sel : BitVec 64) : Pack :=
  run.foldl (fun q t => packModThread q t fun th => { th with age := if sel.getLsbD t then 0 else th.age + 1 }) p

/-- When every thread of the handler's subset has exited, the held subsets are released as at tret (15 R450). -/
def leaveHandler (p : Pack) : Pack :=
  if p.save.inHandler && (List.range p.width).all fun t => !p.save.mask.getLsbD t || (packThread p t).exited then
    { p with loops := p.save.loops, save := { p.save with inHandler := false } }
  else p

/-- The pack after an instruction of `size` bytes at `pc` completes: `p0` is the pack that issued it, `left` the threads that
left sequence. -/
def finishPack (p0 p : Pack) (pc : W64) (size : Nat) (left : BitVec 64) : Pack :=
  let cont := (lanesOf (p0.sel &&& ~~~left) p.width).filter fun t => !(packThread p t).exited
  let p := stepAges (continueThreads p cont pc size) (runThreads p0) p0.sel
  reselect (leaveHandler { p with issues := p.issues + 1, starved := false })

/-- The core of a pack or fox slot. -/
def coreOfId (s : State) (id : Nat) : Nat := if foxBase ≤ id then s.coreOf (id - foxBase) else s.coreOf (s.pack id).crew

/-- A core has issued: a pack that yielded before may be chosen again, and one that yields now may not be chosen next (04 R118). -/
def settleYields (s : State) (core : Nat) : State :=
  { s with yields := s.yields.filterMap fun x =>
      if coreOfId s x.1 ≠ core then some x else if x.2 then some (x.1, false) else none }

/-- Issues counted for the crew and its gang (13 R403, 16 R476). -/
def countIssue (s : State) (crew : Nat) : State :=
  let s := settleYields s (s.coreOf crew)
  let s := s.modCrew crew fun c => { c with issues := c.issues + 1 }
  s.modGang (s.crew crew).gang fun g => { g with issues := g.issues + 1 }

/-- Every row of the pack's registers that the den must hold fits, or containment is lost (15 R457). -/
def denCheck (s : State) (crew : Nat) : State :=
  let c := s.crew crew
  if c.lost then s
  else if denRoom < denUsed s c.core then loseContainment s crew sflagDenx else s

/-- Whether every thread of a pack has exited. -/
def allExited (p : Pack) : Bool := (List.range p.width).all fun t => (packThread p t).exited

/-- An instruction of pack `pid` completes. -/
def finishAt (s : State) (pid : Nat) (p0 : Pack) (pc : W64) (size : Nat) (left : BitVec 64) : State :=
  let crew := p0.crew
  let s := s.modPack pid fun p => finishPack p0 p pc size left
  let s := countIssue s crew
  if allExited (s.pack pid) then
    match endPack s pid with
    | .ok s => s
    | .error (.gate _ s) => s
    | .error _ => s
  else denCheck s crew

/-- Dead bits set at an issue (05 R137, R138). -/
def applyDead (s : State) (p : Pack) (pc : W64) : Pack :=
  match (s.launch p.launch).liveTab.find? fun x => x.start ≤ pc.toNat && pc.toNat < x.stop with
  | none => p
  | some x =>
    let q := modThreads p (lanesOf p.sel p.width) fun th => { th with vdead := th.vdead ||| ~~~x.vmask }
    let all := (List.range p.width).all fun t =>
      let th := packThread p t
      th.exited || th.held || p.sel.getLsbD t
    if all then { q with sdead := q.sdead ||| ~~~x.smask } else q

/-- The state with the dead bits of a pack as the issue of its selected instruction sets them. -/
def setDead (s : State) (pid : Nat) : State := s.modPack pid fun p => applyDead s p (packPc p)

/-- The instruction of a pack has not issued after all: its threads and dead bits are those of `p` (05 R137; 08 R233). -/
def unissue (s : State) (pid : Nat) (p : Pack) : State := s.modPack pid fun q => { q with threads := p.threads, sdead := p.sdead }

/-- A wait of R100 ends: the waiting instruction completes, at the return if the crew is off its core. -/
def completeWait (s : State) (pid : Nat) : State :=
  let p := s.pack pid
  if (s.crew p.crew).phase != .placed then
    s.modPack pid fun p => { p with wait := { p.wait with kind := .ended }, monitor := none }
  else
  let s := setDead (s.modPack pid fun p => { p with wait := Wait.none, monitor := none }) pid
  finishAt s pid (s.pack pid) (packPc p) p.wait.size 0

/-! ### Taking a trap, and returning (15 R443 to R450) -/

/-- %tcause (R444). -/
def causeWord (cls sub : Nat) : W32 := BitVec.ofNat 32 (sub % 65536 * 256 + cls % 256)

/-- A pack enters its handler: the save area of R448, the trap registers, the handler's address. -/
def enterHandler (p : Pack) (pc : W64) (size : Nat) (t : Trap) (handler : W64) : Pack :=
  let run := runThreads p
  let p := stepAges p run p.sel
  let q := { p with
    tepc := pc
    tcause := causeWord t.cls t.sub
    tmask := t.mask
    tval := t.val
    save := ⟨p.loops, true, p.sel, pc + BitVec.ofNat 64 size⟩
    loops := []
    wait := Wait.none
    monitor := none
    starved := false
    issues := p.issues + 1 }
  reselect (modThreads q (lanesOf p.sel p.width) fun th => { th with pc := handler })

/-- Pack `pid` takes a trap at the instruction of `size` bytes at `pc` (R443, R447, R449). -/
def takeTrap (s : State) (pid : Nat) (pc : W64) (size : Nat) (t : Trap) : State :=
  let p := s.pack pid
  let h := (s.launch p.launch).hdr.trap
  if h = 0 then crewAbort s p.crew 1 t.cls t.sub pc
  else if p.save.inHandler then crewAbort s p.crew 2 t.cls t.sub pc
  else
    countIssue ((s.modPack pid fun p => enterHandler p pc size t (BitVec.ofNat 64 h)).count ctrTrapN (s.coreOf p.crew) 1)
      p.crew

/-- tret: the saved loop stack, the held subsets and the in-handler bit; the subset continues at `tgt` (R450).  A return that
goes on in sequence first makes the loop-end test for the instruction that trapped (04 R109). -/
def leaveTrap (p : Pack) (tgt : W64) (skip : Bool) : Pack :=
  let (start, loops) := if skip then loopTest p.tepc p.save.loops else (none, p.save.loops)
  let q := modThreads p (lanesOf p.sel p.width) fun th => { th with pc := start.getD tgt }
  { q with loops := loops, save := { p.save with inHandler := false } }

/-- A deferred trap arises for a pack (R445); a fifth aborts the crew. -/
def deferTrap (s : State) (pid : Nat) (t : Trap) : State :=
  let p := s.pack pid
  if ¬p.live then s
  else if 4 ≤ p.deferred.length then crewAbort s p.crew 7 t.cls t.sub 0
  else s.setPack pid { p with deferred := p.deferred ++ [t] }

/-- A deferred trap of the pack that started an operation; if it has ended, the crew aborts (11 R326; 12 R366). -/
def producerTrap (s : State) (pid crew : Nat) (t : Trap) : State :=
  if (s.pack pid).live then deferTrap s pid t else crewAbort s crew 6 t.cls t.sub 0

/-! ### The fox slot (11 R343, R344) -/

/-- Entries a queue holds (11 R337). -/
def queueRoom : Nat := 32

/-- The lowest-numbered pack of a crew that has not ended (16 R482). -/
def firstLive (s : State) (crew : Nat) : Option Nat := (s.crew crew).packs.find? fun p => (s.pack p).live

/-- An error marker goes into a queue. -/
def addMark (s : State) (crew q : Nat) : State :=
  s.modSt crew fun st =>
    let x := crewQueue st q
    { crewSetQueue st q { x with entries := x.entries ++ [.error] } with fox := { st.fox with marks := st.fox.marks.filter (· != q) } }

/-- One error marker: a push of the fox slot, which Track mode records and replays (11 R337).  No instruction causes it, so a full
segment traps the lowest-numbered pack of the crew (16 R482). -/
def pushMark (crew : Nat) (s : State) (q : Nat) : State :=
  if queueRoom ≤ (crewQueue (s.crew crew).st q).entries.length then s
  else match trackPush s crew q .fox with
    | .go s => addMark s crew q
    | .later => s
    | .stop (.trap cls sub val) =>
      let s := addMark s crew q
      match firstLive s crew with
      | some p => deferTrap s p ⟨cls, sub, val, 0⟩
      | none => s
    | .stop _ => crewAbort s crew 9 0 0 0

/-- Error markers go into the queues that have room; with none left the fox slot is faulted (11 R344). -/
def pushMarks (s : State) (crew : Nat) : State :=
  let s := (s.crew crew).st.fox.marks.foldl (pushMark crew) s
  if !(s.crew crew).live then s
  else s.modSt crew fun st =>
    { st with fox := { st.fox with status := if st.fox.marks.isEmpty && st.fox.fault.isSome then .faulted else st.fox.status } }

/-- The fox slot stops on a fault: it records it, and error markers go to every queue. -/
def foxFault (s : State) (crew : Nat) (t : Trap) : State :=
  pushMarks (s.modSt crew fun st => { st with fox := { st.fox with
    fault := some { t with val := st.fox.pc }, marks := List.range 8, wait := .none } }) crew

/-- Instructions the fox slot accepts (R343). -/
def foxAccepts : Instr → Bool
  | .nop _ => true
  | .bra _ => true
  | .loop _ => true
  | .loopImm _ => true
  | .lbrk _ => true
  | .exit _ => true
  | .mov _ => true
  | .movImm _ => true
  | .iadd _ => true
  | .iaddImm _ => true
  | .isub _ => true
  | .isubImm _ => true
  | .imul _ => true
  | .imulImm _ => true
  | .imad _ => true
  | .imin _ => true
  | .iminImm _ => true
  | .imax _ => true
  | .imaxImm _ => true
  | .bfn _ => true
  | .shf _ => true
  | .shfImm _ => true
  | .bfx _ => true
  | .bfi _ => true
  | .popc _ => true
  | .clz _ => true
  | .icmp _ => true
  | .icmpImm _ => true
  | .sel _ => true
  | .lea _ => true
  | .leaImm _ => true
  | .cadd _ => true
  | .caddImm _ => true
  | .ldVector e => !encModBit e 0
  | .ldUniform e => !encModBit e 0
  | .ldg _ => true
  | .cvtpk e => (encX e).rm ≠ 5
  | .cvtup _ => true
  | .qpush _ => true
  | _ => false

/-- Whether a field names a register beyond the fox slot's (R342). -/
def foxBeyond (f : Fld) (n : Nat) (k : Bool) (blk : Nat) : Bool :=
  match f with
  | .vec w => if k then 15 < n else 63 < n + colsOf w - 1 + 16 * blk
  | .vecOnly w => 63 < n + colsOf w - 1 + 16 * blk
  | .uni => 15 < n
  | .pred => 7 < n
  | .cap => n < 16
  | _ => false

/-- The fox fault of an encoding, beside R57: another opcode, RM 0b101 of cvtpk, a register beyond (R343). -/
def foxSub (i : Instr) : Option Nat :=
  match i with
  | .cvtpk e =>
    if (encX e).rm = 5 then some 6
    else foxRow i
  | .loop e => if 15 < e.a.toNat then some 4 else foxRow i
  | _ => if foxAccepts i then foxRow i else some 1
where
  foxRow (i : Instr) : Option Nat :=
    match opcodeOf i, rowOf 16 i with
    | some (_, e), some r =>
      let x := encX e
      let bh (mode : Nat) := if r.block ∧ mode % 2 = 0 then x.bh.toNat else 0
      let mm := r.form = .mm
      if foxBeyond r.d (encD e) (x.kd && !mm) (bh 0) || foxBeyond r.a (encA e) (x.ka && !mm) (bh x.ma.toNat)
        || (e.lit.isNone && r.form ≠ .ri && foxBeyond r.b (encB e) (x.kb && !mm) (bh x.mb.toNat))
        || foxBeyond r.c (encC e) (x.kc && !mm) (bh x.mc.toNat)
        || 7 < encGuard e
      then some 4 else none
    | _, _ => none

/-- An instruction of the fox slot completes. -/
def finishFox (s : State) (crew : Nat) (pc : W64) (size : Nat) (left : BitVec 64) : State :=
  let s := if left = 0 then s.setCur (continueThreads s.curPack (List.range s.curPack.width) pc size) else s
  (settleYields s (s.coreOf crew)).count ctrFoxIssue (s.coreOf crew) 1

/-! ### The wrapper -/

/-- A pack leaves its issue slot and waits. -/
def waitPack (s : State) (pid size : Nat) (k : WaitKind) (fs : List PFault) : State :=
  s.modPack pid fun p => { p with wait := ⟨k, size, fs⟩ }

/-- Engine class of the issuing pack or fox slot in fault records (08 R233). -/
def curClass (s : State) : Nat := if s.isFox then 1 else 0

/-- The records that fatal faults of the issuing pack or fox slot post for information, one for each page (08 R231, R233). -/
def recordFatal (s : State) (l : List PFault) (kind : Nat) : State :=
  let core := s.curCrew.core
  let l := l.foldl (fun (a : List PFault) f => if a.any fun g => g.asid == f.asid && g.va / 65536 == f.va / 65536 then a else a ++ [f]) []
  l.foldl (fun s f => queueRecord (noteMiss s core f.asid f.va) (settOfCore core) f.asid f.va f.code kind (curClass s) core) s

/-- Replayable faults of an instruction: their records, and the wait of the pack (08 R233). -/
def pageWait (s : State) (l : List PFault) (kind : Nat) : Res :=
  let core := s.curCrew.core
  let s := l.foldl (fun s f => postFault (noteMiss s core f.asid f.va) (settOfCore core) f.asid f.va f.code kind (curClass s) core) s
  match l with
  | f :: _ => .wait s (.fault f.asid (f.va / 65536)) l
  | [] => .stall s

/-- What a halt becomes. -/
def resOf (c : Ctx) (s : State) : Halt → Res
  | .trap t => .trap t
  | .fatal t l k => .fatal t l k
  | .pages l k => pageWait s l k
  | .stop (.trap cls sub val) => .trap (c.trap cls sub val)
  | .stop (.gate qs s') => .wait s' (.gate qs) []
  | .stop (.sent s') => .stall s'
  | .stop .lost => .gone (crewAbort s s.curCrewId 9 0 0 0)
  | .uce sub => .gone (consumeUce s s.curCrewId sub)
  | .stall => .stall s

/-- A body whose halts are those of the accesses. -/
def resExcept (c : Ctx) (s : State) : Except Halt State → Res
  | .ok s' => .done s' 0
  | .error h => resOf c s h

/-- A body on the pack alone. -/
def onPack (f : Ctx → Pack → Except Trap Pack) (c : Ctx) (s : State) : Res :=
  match f c s.curPack with
  | .ok p => .done (s.setCur p) 0
  | .error t => .trap t

/-- The uniform registers that the fields of an instruction name, the count of a loop among them (02 R53). -/
def uniNamed (w : Nat) (i : Instr) : List Nat :=
  loopCount i ++ match opcodeOf i, rowOf w i with
  | some (_, e), some r =>
    let x := encX e
    let one (f : Fld) (n : Nat) (k : Bool) : List Nat := match f with
      | .uni => [n]
      | .vec _ => if k then [n] else []
      | _ => []
    one r.d (encD e) x.kd ++ one r.a (encA e) x.ka ++ (if e.lit.isSome then [] else one r.b (encB e) x.kb) ++ one r.c (encC e) x.kc
  | _, _ => []
where
  loopCount : Instr → List Nat
    | .loop e => [e.a.toNat]
    | _ => []

/-- Whether the status of an outstanding cutsel of the pack is among the registers of an instruction (04 R98; 14 R434): a field
names at most 16 registers from its number on. -/
def statusPending (s : State) (pid w : Nat) (i : Instr) : Bool :=
  s.geos.any fun x => match x.2 with
    | some g => g.pack == pid && match g.kind with
      | .cutsel _ _ _ _ _ sd => (uniNamed w i).any fun n => n ≤ sd && sd < n + 16
      | .rsub .. => false
    | none => false

/-- Whether a wait is at order gates. -/
def WaitKind.isGate : WaitKind → Bool
  | .gate _ => true
  | _ => false

/-- Whether a wait is the stall of a memory fault. -/
def WaitKind.isFault : WaitKind → Bool
  | .fault _ _ => true
  | .ray _ _ => true
  | _ => false

/-! ### Instructions of a Track launch (16 R478, R480) -/

/-- Instructions that access memory thread by thread. -/
def byThreads : Instr → Bool
  | .ldVector _ => true
  | .ldg _ => true
  | .stVector _ => true
  | .stg _ => true
  | .atomInt _ => true
  | .atomFloat _ => true
  | .redInt _ => true
  | .redFloat _ => true
  | _ => false

/-- A thread's access has been made: its part of the pack is kept while others wait at a gate. -/
def noteThread (s : State) (t : Nat) : State := modProgress s s.cur fun x => { x with lanes := (t, packThread s.curPack t) :: x.lanes }

/-- The threads of an instruction one by one: those that a gate holds back leave the instruction waiting there. -/
def threadTurns (c : Ctx) (body : Ctx → State → Res) : List Nat → List Nat → State → Res
  | [], [], s => .done s 0
  | [], qs, s => .wait s (.gate qs) []
  | t :: l, qs, s =>
    match body { c with m := maskOf [t] } s with
    | .done s _ => threadTurns c body l qs (noteThread s t)
    | .wait s (.gate ks) _ => threadTurns c body l (qs ++ ks) s
    | r => r

/-- The store hash that an instruction leaves, whatever the gates do. -/
def hashAfter (c : Ctx) (body : Ctx → State → Res) (s : State) : W64 :=
  match body c (s.modLaunch s.curPack.launch fun l => { l with hdr := { l.hdr with dmode := 0 } }) with
  | .done s _ => s.curPack.hash
  | _ => s.curPack.hash

/-- Whether admissions of the present instruction of a pack are kept for it. -/
def madeHere (s : State) (pid : Nat) : Bool :=
  let p := s.pack pid
  (s.launch p.launch).track.made.any fun x => x.1 == p.lin && x.2.1 == 0

/-- Nothing of a pack's present instruction has been done in an earlier turn. -/
def untouched (s : State) (pid : Nat) : Bool := decide ((s.pack pid).progress = Progress.none) && !madeHere s pid

/-- An instruction of a Track launch is over: what it kept while it waited is of no more use. -/
def settled (s : State) (pid : Nat) : State :=
  let p := s.pack pid
  if s.isTrack p.launch && !untouched s pid then
    dropMade (s.modPack pid fun p => { p with hash := p.progress.hash.getD p.hash, progress := Progress.none }) p.launch p.lin 0
  else s

/-- The body of an instruction of a Track launch.  Threads whose accesses have been made stay as they are; what a gate holds back waits
there, thread by thread where the instruction acts so.  An exposing instruction that has just committed waits for its own access to
come, unless it would trap, and then it has no effect (15 R443). -/
def trackBody (i : Instr) (body : Ctx → State → Res) (c : Ctx) (s : State) : Res :=
  let p := s.curPack
  let kept := p.progress.lanes
  let s0 := if kept.isEmpty then s else s.setCur (kept.foldl (fun q x => packModThread q x.1 fun _ => x.2) p)
  let todo := (lanesOf c.m p.width).filter fun t => !(kept.any fun x => x.1 == t)
  match body (if kept.isEmpty then c else { c with m := maskOf todo }) s0 with
  | .done s' left => .done (if untouched s s.cur && !madeHere s' s.cur then s' else settled s' s.cur) left
  | .wait s' (.gate qs) fs =>
    if byThreads i && !s'.curPack.progress.logged then
      let h := p.progress.hash.getD (hashAfter c body s)
      match threadTurns c body todo [] (modProgress s0 s.cur fun x => { x with hash := some h }) with
      | .done s' left => .done (settled s' s.cur) left
      | r => r
    else .wait s' (.gate qs) fs
  | .stall s' =>
    if s'.curPack.progress.sent && !p.progress.sent then
      match body c s' with
      | .trap t => .trap t
      | .fatal t l k => .fatal t l k
      | _ => .stall s'
    else .stall s'
  | r => r

/-- The body of an instruction as the launch's mode has it. -/
def attempt (i : Instr) (body : Ctx → State → Res) (c : Ctx) (s : State) : Res :=
  if s.isTrack s.curPack.launch then trackBody i body c s else body c s

/-- Issues an instruction of the pack: the checks of R57, the dead bits, the body, and what follows its completion.  Under an
all-zero mask a trap or a memory fault is a skip (R112).  An instruction that stalls or waits has not issued. -/
def issuePack (i : Instr) (e : Enc) (body : Ctx → State → Res) (s : State) : State :=
  let pid := s.cur
  let p := s.pack pid
  let pc := packPc p
  let m := execMask p e
  let size := e.size
  if statusPending s pid p.width i then { s with stalled := pid :: s.stalled }
  else
  let s := s.setPack pid (applyDead s p pc)
  let p0 := s.pack pid
  let ended := settled s pid
  match illopSub p.width i with
  | some k =>
    let t : Trap := ⟨clsIllop, k, BitVec.ofNat 64 (encodeFirst ((opcodeOf i).map (·.1) |>.getD 0) e), m⟩
    if m = 0 && !guardBreach i then finishAt s pid p0 pc size 0 else takeTrap s pid pc size t
  | none =>
    match attempt i body ⟨e, m, pc⟩ s with
    | .done s' left => finishAt s' pid p0 pc size left
    | .trap t => if m = 0 then finishAt ended pid p0 pc size 0 else takeTrap ended pid pc size t
    | .fatal t l k => if m = 0 then finishAt ended pid p0 pc size 0 else takeTrap (recordFatal ended l k) pid pc size t
    | .stall s' => { unissue s' pid p with stalled := pid :: s'.stalled }
    | .wait s' k fs =>
      if m = 0 && k.isFault then finishAt ended pid p0 pc size 0
      else waitPack (unissue (if k.isGate || k.isFault then s' else settled s' pid) pid p) pid size k fs
    | .gone s' => s'

/-- Issues an instruction of the fox slot (11 R342 to R344).  What the fox slot does not accept is a fox fault whatever the mask; a
trap that an accepted instruction would take, or a memory fault, is a skip under an all-zero mask (04 R112). -/
def issueFox (i : Instr) (e : Enc) (body : Ctx → State → Res) (s : State) : State :=
  let crew := s.cur - foxBase
  let p := s.curPack
  let pc := packPc p
  let m := execMask p e
  let fault (sub : Nat) : State := foxFault s crew ⟨clsIllop, sub, 0, m⟩
  let quiet : Bool := m = 0 && !guardBreach i
  match (if quiet then none else illopSub p.width i), foxSub i with
  | some k, some j => fault (min k j)
  | some k, none => fault k
  | none, some j => fault j
  | none, none =>
    if quiet && (illopSub p.width i).isSome then finishFox s crew pc e.size 0
    else match body ⟨e, m, pc⟩ s with
    | .done s' left => finishFox s' crew pc e.size left
    | .trap t => if m = 0 then finishFox s crew pc e.size 0 else foxFault s crew t
    | .fatal t l k => if m = 0 then finishFox s crew pc e.size 0 else foxFault (recordFatal s l k) crew t
    | .stall s' => { s' with stalled := s.cur :: s'.stalled }
    | .wait s' k _ =>
      if m = 0 && k.isFault then finishFox s crew pc e.size 0
      else s'.modSt crew fun st => { st with fox := { st.fox with wait := k } }
    | .gone s' => s'

/-- Issues one instruction. -/
def issue (i : Instr) (e : Enc) (body : Ctx → State → Res) (s : State) : Host.Outcome State Fault Refusal :=
  if s.isFox then
    if s.curPack.live then .next (issueFox i e body s) else .fault .noIssuingPack
  else if (s.pack s.cur).live then .next (issuePack i e body s) else .fault .noIssuingPack

end Sys2Proof.Machine
end

