-- ==== Sys2Proof/Machine/MemOps.lean ====
section
/-! DEFINITION. Memory operands of class MM (02 R54), loads, stores, gathers and scatters, the capability instructions and the
page prefetch (08 R246 to R253). -/

namespace Sys2Proof.Machine

/-! ### Operands of class MM (02 R54) -/

/-- index × scale of thread `t`; `y` says that the opcode takes only per-pack capabilities. -/
def mmIndex (p : Pack) (e : Enc) (y : Bool) (size t : Nat) : Int :=
  if e.ext.isNone then
    if y then 0 else toS 32 (rdV p e.b.toNat t) * size
  else
    match mmIdx e with
    | 1 => toS 32 (rdV p (encB e) t) * (2 ^ mmScale e : Nat)
    | 2 => toS 64 (rdS p (encB e)).toNat * (2 ^ mmScale e : Nat)
    | _ => 0

/-- The displacement. -/
def mmDisp (e : Enc) : Int :=
  match e.lit with
  | some l => toS 64 l.toNat
  | none => encImmS e

/-- cursor + index × scale + displacement, in sint(64). -/
def mmAddr (p : Pack) (e : Enc) (y : Bool) (size t : Nat) : Int :=
  toS 64 (ofI 64 ((rdCap p (encA e) t).cursor + mmIndex p e y size t + mmDisp e))

/-- The accesses of the execution mask. -/
def mmAccs (c : Ctx) (p : Pack) (y : Bool) (size : Nat) : List Acc :=
  (lanesOf c.m p.width).map fun t => ⟨t, rdCap p (encA c.e) t, mmAddr p c.e y size t⟩

/-- A trap of a uniform form has the execution mask in %tmask. -/
def uniHalt (c : Ctx) : Halt → Halt
  | .trap t => .trap { t with mask := c.m }
  | .fatal t l k => .fatal { t with mask := c.m } l k
  | h => h

/-- The one access of a uniform form, after its checks: none under an all-zero mask. -/
def uniTargets (c : Ctx) (r : Except Halt (List Target)) : Except Halt (List Target) :=
  match r with
  | .error h => .error (uniHalt c h)
  | .ok l => .ok (l.take 1)

/-- Spaces of ld and st (08 R225). -/
def loadSpaces : List Nat := [0, 1, 2, 3, 4, 5, 6, 8, 9]
def storeSpaces : List Nat := [0, 1, 2, 3, 4, 6, 8, 9]

/-! ### Loads (R246 to R248) -/

/-- KIND bits of a fault record: a read and a write (08 R233). -/
def kindRead : Nat := 0
def kindWrite : Nat := 1

/-- KIND of a store: the capability forms are writes with bit 2 set (08 R233). -/
def kindStore (capForm : Bool) : Nat := if capForm then 5 else kindWrite

/-- Bytes of an access: 16 for a capability. -/
def accSize (e : Enc) (capForm : Bool) : Nat := if capForm then 16 else typeBits (encTy e 9) / 8

/-- A loaded value extended to `w` bits: signed types by their sign (R246, R247). -/
def extendTo (ty w x : Nat) : Nat := if typeSigned ty then ofI w (toS (typeBits ty) x) else x

/-- The data of the targets: from the forwarding table, or as the crew reads them.  `ask` is what the table is asked for: for a uniform
load, its target for every thread of the mask (05 R140). -/
def loadData (s : State) (crew : Nat) (ask l : List Target) (size : Nat) :
    Except Halt (State × List (Target × List Byte × Bool)) :=
  let core := (s.crew crew).core
  match spillLookup s core s.chargedPack ask size with
  | .overlap => .error .stall
  | .hit items =>
    .ok ((noteTargets s crew l).count ctrRfFwd core 1, l.map fun x => (x, Spill.bytesAt items x.loc size, Spill.tagAt items x.loc))
  | .miss =>
    (readTargets s crew l size).map fun r =>
      (if s.isFox then r.1 else countXpand r.1 (r.1.clusterOf crew) (l.map fun x => (x.loc, size)), r.2)

/-- The capability that ld.cap delivers (R228). -/
def loadedCap (c : Cap) (x : Target) (bs : List Byte) (tag : Bool) : Cap :=
  ⟨tag && c.has pmLoadCap && (isWindow x.space || leafCp x.pte), BitVec.ofNat 128 (leNat bs)⟩

/-- Writes the loaded value of one thread. -/
def loadLane (e : Enc) (capForm : Bool) (p : Pack) (x : Target) (bs : List Byte) (tag : Bool) : Pack :=
  if capForm then wrK p (encD e) x.t (loadedCap (rdCap p (encA e) x.t) x bs tag)
  else
    let ty := encTy e 9
    if typeBits ty = 64 then wrV64 p (encD e) x.t (leNat bs) else wrV p (encD e) x.t (extendTo ty 32 (leNat bs))

/-- Threads that fail only check 5 (R248). -/
def outOfBounds (s : State) (n : Need) (l : List Acc) : List Acc := l.filter fun a => capSub s.curSv n a.cap a.addr == some 5

/-- Writes pC of ldg and stg: in the extended form, 1 for each thread in bounds. -/
def boundsPred (c : Ctx) (p : Pack) (out : List Acc) : Pack :=
  if c.e.ext.isNone then p
  else (lanesOf c.m p.width).foldl (fun q t => wrP q (encC c.e) t (!(out.any fun a => a.t == t))) p

/-- ld and ldg. -/
def loadBody (guarded : Bool) (c : Ctx) (s : State) : Res :=
  let p := s.curPack
  let crew := s.curCrewId
  let capForm := !guarded && encModBit c.e 0
  let size := accSize c.e capForm
  let n : Need := ⟨loadSpaces, pmLoad, size⟩
  let all := mmAccs c p false size
  let out := if guarded then outOfBounds s n all else []
  let accs := all.filter fun a => !(out.any fun b => b.t == a.t)
  match (prepare s crew n .read kindRead accs).bind fun l => loadData s crew l l size with
  | .error h => resOf c s h
  | .ok (s, data) =>
    let q := data.foldl (fun q d => loadLane c.e capForm q d.1 d.2.1 d.2.2) s.curPack
    let q := out.foldl (fun q a =>
      if typeBits (encTy c.e 9) = 64 then wrV64 q (encD c.e) a.t 0 else wrV q (encD c.e) a.t 0) q
    .done (s.setCur (if guarded then boundsPred c q out else q)) 0

def execLdVector (e : Enc) (s : State) : Host.Outcome State Fault Refusal := issue (.ldVector e) e (loadBody false) s
def execLdg (e : Enc) (s : State) : Host.Outcome State Fault Refusal := issue (.ldg e) e (loadBody true) s

/-- The uniform ld (R247). -/
def loadUniBody (c : Ctx) (s : State) : Res :=
  let p := s.curPack
  let crew := s.curCrewId
  let capForm := encModBit c.e 0
  let size := accSize c.e capForm
  let r := uniTargets c (prepare s crew ⟨loadSpaces, pmLoad, size⟩ .read kindRead (mmAccs c p true size))
  match r.bind fun l => loadData s crew (l.flatMap fun x => (lanesOf c.m p.width).map fun t => { x with t := t }) l size with
  | .error h => resOf c s h
  | .ok (s, (x, bs, tag) :: _) =>
    let q := s.curPack
    .done (s.setCur (if capForm then wrY q (encD c.e) (loadedCap (rdCap q (encA c.e) 0) x bs tag)
      else wrS q (encD c.e) (BitVec.ofNat 64 (extendTo (encTy c.e 9) 64 (leNat bs))))) 0
  | .ok (s, []) => .done s 0

def execLdUniform (e : Enc) (s : State) : Host.Outcome State Fault Refusal := issue (.ldUniform e) e loadUniBody s

/-! ### Stores -/

/-- The subcode that a store fails: R226 with store, store-capability for a tagged value, then check 6. -/
def storeSub (sv : Bool) (size : Nat) (v : Option Cap) (a : Acc) : Option Nat :=
  let tagged : Bool := match v with
    | some k => k.tag
    | none => false
  match capSub sv ⟨storeSpaces, if tagged then pmStore + pmStoreCap else pmStore, size⟩ a.cap a.addr with
  | some k => some k
  | none =>
    match v with
    | some k => if k.tag && !k.has pmGlobal && !([2, 3, 4, 6] : List Nat).contains a.cap.space then some 6 else none
    | none => none

/-- What a store writes at one target. -/
def storeVal (x : Target) (size n : Nat) (v : Option Cap) : StVal :=
  match v with
  | some k => ⟨x, leBytes k.n 16, some k.tag⟩
  | none => ⟨x, leBytes n size, none⟩

/-- st and stg. -/
def storeBody (guarded : Bool) (c : Ctx) (s : State) : Res :=
  let p := s.curPack
  let crew := s.curCrewId
  let capForm := !guarded && encModBit c.e 0
  let size := accSize c.e capForm
  let val (t : Nat) : Option Cap := if capForm then some (rdK p (encD c.e) t) else none
  let num (t : Nat) : Nat := if size = 8 then rdV64 p (encD c.e) t else rdV p (encD c.e) t
  let all := mmAccs c p false size
  let out := if guarded then outOfBounds s ⟨storeSpaces, pmStore, size⟩ all else []
  let accs := all.filter fun a => !(out.any fun b => b.t == a.t)
  let r := prepareBy s crew (fun a => storeSub s.curSv size (val a.t) a) size .write (kindStore capForm) accs
  match r.bind fun l => writeTargets s crew [] (l.map fun x => storeVal x size (num x.t) (val x.t)) with
  | .error h => resOf c s h
  | .ok s => .done (s.setCur (if guarded then boundsPred c s.curPack out else s.curPack)) 0

def execStVector (e : Enc) (s : State) : Host.Outcome State Fault Refusal := issue (.stVector e) e (storeBody false) s
def execStg (e : Enc) (s : State) : Host.Outcome State Fault Refusal := issue (.stg e) e (storeBody true) s

/-- The uniform st (R247). -/
def storeUniBody (c : Ctx) (s : State) : Res :=
  let p := s.curPack
  let crew := s.curCrewId
  let capForm := encModBit c.e 0
  let size := accSize c.e capForm
  let val : Option Cap := if capForm then some (rdY p (encD c.e)) else none
  let r := uniTargets c
    (prepareBy s crew (fun a => storeSub s.curSv size val a) size .write (kindStore capForm) (mmAccs c p true size))
  match r with
  | .error h => resOf c s h
  | .ok [] => .done s 0
  | .ok l => resExcept c s (writeTargets s crew (lanesOf c.m p.width)
      (l.map fun x => storeVal x size (rdS p (encD c.e)).toNat val))

def execStUniform (e : Enc) (s : State) : Host.Outcome State Fault Refusal := issue (.stUniform e) e storeUniBody s

/-! ### Capability instructions (R249 to R252) -/

/-- The 64-bit operand B of class RR, or the immediate of class RI. -/
def capOperand (imm : Bool) (e : Enc) (p : Pack) (t : Nat) : Int :=
  if imm then toS 6 e.b.toNat else toS 64 (rdSrc p (srcB e) 64 t 0 0)

/-- Writes capability results: a k register in each thread of the execution mask, or a y register once. -/
def capResult (c : Ctx) (p : Pack) (f : Nat → Cap) : Pack :=
  if 16 ≤ encD c.e then wrY p (encD c.e - 16) (f 0)
  else ((lanesOf c.m p.width).map fun t => (t, f t)).foldl (fun q x => wrK q (encD c.e) x.1 x.2) p

/-- cder: the derived capability, or the CAPV subcode (R249).  `mode` is 0 .bnd, 1 .bndx, 2 .perm. -/
def derive (sv : Bool) (mode : Nat) (c : Cap) (x : Int) : Except Nat Cap :=
  if !c.tag then .error 1
  else if !sv && c.has pmSuper then .error 3
  else if mode = 2 then .ok { c with word := BitVec.ofNat 128 (putBits c.n 88 12 (c.perm &&& ofI 12 x)) }
  else
    let b := c.cursor
    if x < 0 ∨ (2 ^ 54 : Nat) < (b : Int) + x then .error 7
    else
      let (e, b', t') := fitBounds b (b + x.toNat)
      if mode = 1 ∧ ¬(b' = b ∧ t' = b + x.toNat) then .error 7
      else if b' < c.base ∨ c.top < t' then .error 7
      else
        let w := putBits (putBits (putBits c.n 54 6 e) 60 14 (b' / 2 ^ e)) 74 14 (t' / 2 ^ e)
        .ok { c with word := BitVec.ofNat 128 w }

def cderBody (imm : Bool) (c : Ctx) (s : State) : Res :=
  let p := s.curPack
  let uni := 16 ≤ encD c.e
  let ts := if uni then [0] else lanesOf c.m p.width
  let out := ts.map fun t =>
    let k := rdCap p (encA c.e) t
    (t, k, derive s.curSv (encMod c.e % 4) k (capOperand imm c.e p t))
  let bad := out.filterMap fun x => match x.2.2 with
    | .error k => some (x.1, k, BitVec.ofNat 64 x.2.1.cursor)
    | .ok _ => none
  match capvOf bad with
  | some t => .trap (if uni then { t with mask := c.m } else t)
  | none =>
    let res (t : Nat) : Cap :=
      match out.find? fun x => x.1 == t with
      | some (_, _, .ok k) => k
      | _ => Cap.null
    .done (s.setCur (capResult c p res)) 0

def execCder (e : Enc) (s : State) : Host.Outcome State Fault Refusal := issue (.cder e) e (cderBody false) s
def execCderImm (e : Enc) (s : State) : Host.Outcome State Fault Refusal := issue (.cderImm e) e (cderBody true) s

/-- Fields of cget (R250). -/
def cgetVal (k : Cap) (field : Nat) : Nat :=
  match field with
  | 0 => k.cursor
  | 1 => k.base
  | 2 => k.top
  | 3 => ofI 64 ((k.top : Int) - k.base)
  | 4 => k.perm
  | 5 => k.space
  | 6 => k.colour
  | _ => bit k.tag + 256 * k.exp

def execCget (e : Enc) (s : State) : Host.Outcome State Fault Refusal :=
  issue (.cget e) e (onPack fun c p =>
    laneInt c 64 false (fun j => cgetVal (rdCap p (encA c.e) j.t) (encMod c.e % 8)) p) s

def execCset (e : Enc) (s : State) : Host.Outcome State Fault Refusal :=
  issue (.cset e) e (onPack fun c p =>
    .ok (capResult c p fun t => (rdCap p (encA c.e) t).moveTo (capOperand false c.e p t))) s

/-- cadd: cursor + B in sint(64). -/
def caddBody (imm : Bool) (c : Ctx) (p : Pack) : Except Trap Pack :=
  .ok (capResult c p fun t =>
    let k := rdCap p (encA c.e) t
    k.moveTo (toS 64 (ofI 64 ((k.cursor : Int) + capOperand imm c.e p t))))

def execCadd (e : Enc) (s : State) : Host.Outcome State Fault Refusal := issue (.cadd e) e (onPack (caddBody false)) s
def execCaddImm (e : Enc) (s : State) : Host.Outcome State Fault Refusal := issue (.caddImm e) e (onPack (caddBody true)) s

/-- The subset test of ctst.sub. -/
def capWithin (a b : Cap) : Bool :=
  a.tag && b.tag && a.space == b.space && b.base ≤ a.base && a.top ≤ b.top && (a.perm &&& b.perm) == a.perm

/-- B of ctst.sub.  A literal stands in B's place (02 R47); it carries no tag, so that the model compares with an untagged capability, a
point that no rule states (log entry 66). -/
def ctstOther (c : Ctx) (p : Pack) (t : Nat) : Cap :=
  match c.e.lit with
  | some x => ⟨false, x.setWidth 128⟩
  | none => rdCap p (encB c.e) t

def execCtst (e : Enc) (s : State) : Host.Outcome State Fault Refusal :=
  issue (.ctst e) e (onPack fun c p =>
    lanePred c (fun t =>
      let a := rdCap p (encA c.e) t
      (if encModBit c.e 0 then capWithin a (ctstOther c p t) else a.tag, 0)) p) s

def execCclr (e : Enc) (s : State) : Host.Outcome State Fault Refusal :=
  issue (.cclr e) e (onPack fun c p => .ok (capResult c p fun t => { rdCap p (encA c.e) t with tag := false })) s

/-! ### Prefetch (R253) -/

/-- pgprf: the threads that pass R226 with no permission required fill the translation caches. -/
def pgprfBody (c : Ctx) (s : State) : Res :=
  let p := s.curPack
  let crew := s.curCrewId
  let accs := (mmAccs c p false 1).filter fun a => (capSub s.curSv ⟨loadSpaces, 0, 1⟩ a.cap a.addr).isNone
  let (bad, good) := splitResults (accs.map (resolveOne s crew .read))
  .done (noteTargets (bad.foldl (fun s f => noteMiss s (s.crew crew).core f.asid f.va) s) crew good) 0

def execPgprf (e : Enc) (s : State) : Host.Outcome State Fault Refusal := issue (.pgprf e) e pgprfBody s

/-! ### The drain of the forwarding table (05 R140) -/

/-- The oldest entry of a core's forwarding table drains; a drain that cannot pass an order gate waits. -/
def execSpillDrain (core : Nat) (s : State) : Host.Outcome State Fault Refusal :=
  match s.spillsOf core with
  | [] => .next s
  | e :: _ =>
    match drainSpill s core with
    | .ok s' => .next s'
    | .error (.gate _ s') => .next s'
    | .error (.sent _) => .next s
    | .error .lost => .next (crewAbort s (s.pack e.pack).crew 9 0 0 0)
    | .error (.trap cls sub val) => .next (deferTrap (s.setSpills core ((s.spillsOf core).drop 1)) e.pack ⟨cls, sub, val, 0⟩)

end Sys2Proof.Machine
end

