-- ==== Sys2Proof/Machine/Berths.lean ====
section
/-! DEFINITION. Berths and moorings: bind, unbind, acq, rel, fence, and the grants of a quay (09 R254 to R258, R273 to R279). -/

namespace Sys2Proof.Machine

/-! ### Berths and moorings of a launch -/

/-- Package core and slot of a pack, as OWNER holds it (R256). -/
def ownerCode (s : State) (pid : Nat) : W32 :=
  BitVec.ofNat 32 ((s.coreOf (s.pack pid).crew) * 64 + (s.pack pid).slot)

/-- Moorings that a quay holds, of every launch. -/
def mooringsAt (s : State) (q : Nat) : Nat :=
  s.launches.foldl (fun n x => n + (x.2.moors.filter fun y => match y.2 with
    | some m => m.quay == q
    | none => false).length) 0

/-- Moorings of one quay (R256). -/
def mooringRoom : Nat := 1024

def launchMoor (l : Launch) (m : Nat) : Option Mooring := Tab.get none l.moors m

/-- The berth that contains an address: its index. -/
def berthAt (l : Launch) (va : Nat) : Option Nat :=
  (l.berths.find? fun x => match x.2 with
    | some b => b.base ≤ va && va < b.base + b.len
    | none => false).map (·.1)

/-- Whether a range overlaps some berth (R254). -/
def berthOverlaps (l : Launch) (a len : Nat) : Bool :=
  l.berths.any fun x => match x.2 with
    | some b => a < b.base + b.len && b.base < a + len
    | none => false

/-- The lowest free index of the berth table at or above `n`; the table has 65,536 (R254, R255). -/
def freeBerth (l : Launch) (n : Nat) : Option Nat :=
  let used := (l.berths.map (·.1)).filter (n ≤ ·)
  let i := used.foldl (fun i k => if k = i then i + 1 else i) n
  if i < 65536 then some i else none

/-! ### Grants (R258) -/

/-- Whether a request is granted as the mooring stands. -/
def Mooring.grants (x : Mooring) (blocked : Bool) (w : Waiter) : Bool :=
  match w.kind with
  | .plainX => !blocked && x.holders.isEmpty
  | .plainSh => !blocked && x.mode != .exclusive
  | .cntEq => x.holders.isEmpty && x.count == w.n
  | .cntGe => x.mode != .exclusive && w.n.toNat ≤ x.count.toNat

def ReqKind.isPlain (k : ReqKind) : Bool := k == .plainX || k == .plainSh
def ReqKind.isShared (k : ReqKind) : Bool := k == .plainSh || k == .cntGe

/-- The mooring with one more holder. -/
def Mooring.hold (x : Mooring) (w : Waiter) (owner : W32) : Mooring :=
  if w.kind.isShared then { x with mode := .shared, holders := x.holders ++ [w.pack] }
  else { x with mode := .exclusive, holders := x.holders ++ [w.pack], owner := owner }

/-- grant_pass over requests in arrival order: the mooring, and the requests granted. -/
def grantScan (owner : Nat → W32) : List Waiter → Bool → Mooring → Mooring × List Waiter
  | [], _, x => (x, [])
  | w :: l, blocked, x =>
    if x.grants blocked w then
      let (y, g) := grantScan owner l blocked (x.hold w (owner w.pack))
      (y, w :: g)
    else grantScan owner l (blocked || w.kind.isPlain) x

/-- A counted grant orders every exclusive release so far before the pack's accesses (16 R484). -/
def orderGrant (s : State) (x : Mooring) (w : Waiter) : State :=
  if w.kind.isPlain then s
  else s.modPack w.pack fun p => x.rels.foldl (fun p r => joinOrder p r.2) p

/-- A grant pass of a mooring: the state, and the packs granted. -/
def grantPass (s : State) (lid m : Nat) : State × List Nat :=
  match launchMoor (s.launch lid) m with
  | none => (s, [])
  | some x =>
    let (y, g) := grantScan (ownerCode s) x.waiters false x
    let got := g.map (·.pack)
    let y := { y with waiters := x.waiters.filter fun w => !got.contains w.pack }
    (g.foldl (fun s w => orderGrant s x w) (modMoor s lid m fun _ => y), got)

/-- Packs whose acq wait ends. -/
def endAcqWaits (s : State) (l : List Nat) : State := l.foldl completeWait s

/-- A grant pass that no instruction of the granted packs runs. -/
def grantOthers (s : State) (lid m : Nat) : State :=
  let (s, got) := grantPass s lid m
  endAcqWaits s got

/-- Whether a grant pass would grant a request. -/
def grantDue (x : Mooring) : Bool := !(grantScan (fun _ => 0) x.waiters false x).2.isEmpty

/-! ### The berth that an instruction names (R273, R274) -/

/-- .slot, .try and .cnt. -/
def encSlot (e : Enc) : Bool := (encX e).kc
def encTry (e : Enc) : Bool := (encX e).kb
def encCnt (e : Enc) : Bool := (encX e).ka

/-- The computed address of an instruction that acts once per pack. -/
def packAddr (c : Ctx) (p : Pack) : Int := mmAddr p c.e true 1 0

/-- The launch mooring index of a berth. -/
def berthMoor (l : Launch) (i : Nat) : Nat :=
  match Tab.get none l.berths i with
  | some b => b.moor
  | none => 0

/-- The lane-class request of a `.slot` form at the quay of its mooring (01 R25). -/
def askMoor (s : State) (l : Launch) (i : Nat) : State :=
  match launchMoor l (berthMoor l i) with
  | some x => s.requestAt (if s.isFox then 1 else 0) x.quay
  | none => s

/-- The berth index, with what %tval reports of it; the address forms pass the checks of R226 and a translation first. -/
def namedBerth (c : Ctx) (s : State) : Except Halt (State × Nat × W64) :=
  let p := s.curPack
  let l := s.launch p.launch
  if encSlot c.e then
    let i := encC c.e
    match Tab.get none l.berths i with
    | some _ => .ok (askMoor s l i, i, BitVec.ofNat 64 i)
    | none => .error (.trap (c.trap clsCapv 8 (BitVec.ofNat 64 i)))
  else
    let a := packAddr c p
    let acc : Acc := ⟨0, rdCap p (encA c.e) 0, a⟩
    match prepare s s.curCrewId ⟨[0, 1], pmLoad, 1⟩ .read kindRead [acc] with
    | .error h => .error (uniHalt c h)
    | .ok ts =>
      let val : W64 := BitVec.ofInt 64 a
      match berthAt l (ofI 54 a) with
      | some i => .ok (noteTargets s s.curCrewId ts, i, val)
      | none => .error (.trap (c.trap clsCapv 8 val))

/-- Writes a predicate result of an instruction that acts once. -/
def setPredAll (c : Ctx) (p : Pack) (b : Bool) : Pack := (lanesOf c.m p.width).foldl (fun q t => wrP q c.e.d.toNat t b) p

/-! ### bind and unbind (R275, R276) -/

/-- Adds a berth, with its mooring where the index has none. -/
def addBerth (s : State) (lid i base len m quay : Nat) : State :=
  s.modLaunch lid fun l =>
    { l with
      berths := Tab.set none l.berths i (some ⟨base, len, m⟩)
      moors := match launchMoor l m with
        | some _ => l.moors
        | none => Tab.set none l.moors m (some { Mooring.blank with quay := quay }) }

def bindBody (c : Ctx) (s : State) : Res :=
  let p := s.curPack
  let d := (rdS p (encB c.e)).toNat
  let len := bits d 0 32
  let m := bits d 32 16
  let k := rdCap p (encA c.e) 0
  let a : Int := toS 64 (ofI 64 ((k.cursor : Int) + mmDisp c.e))
  let va := ofI 54 a
  match capSub s.curSv ⟨[0, 1], pmLoad + pmStore, len⟩ k a with
  | some j => .trap (c.trap clsCapv j (BitVec.ofInt 64 a))
  | none =>
    if bits d 48 16 ≠ 0 ∨ len = 0 ∨ len % 64 ≠ 0 ∨ a % 64 ≠ 0 then .trap (c.trap clsAlign 0 (BitVec.ofInt 64 a))
    else
      match resolve s s.curCrewId .read kindRead [⟨0, k, a⟩] with
      | .error h => resOf c s (uniHalt c h)
      | .ok ts =>
        let s := noteTargets s s.curCrewId ts
        let quay := homeQuay ((ts.head?.map fun x => x.loc.off).getD 0)
        let l := s.launch p.launch
        let room : Bool := (launchMoor l m).isSome || mooringsAt s quay < mooringRoom
        match freeBerth l l.hdr.nberth with
        | some i =>
          let ok := !berthOverlaps l va len && room
          let s := if ok then addBerth s p.launch i va len m quay else s
          .done (s.setCur (setPredAll c s.curPack ok)) 0
        | none => .done (s.setCur (setPredAll c s.curPack false)) 0

def execBind (e : Enc) (s : State) : Host.Outcome State Fault Refusal := issue (.bind e) e bindBody s

/-- Removes a berth; a mooring with no berth left is freed. -/
def dropBerth (s : State) (lid i : Nat) : State :=
  s.modLaunch lid fun l =>
    let m := berthMoor l i
    let bs := Tab.set none l.berths i none
    let used : Bool := bs.any fun x => match x.2 with
      | some b => b.moor == m
      | none => false
    { l with berths := bs, moors := if used then l.moors else Tab.set none l.moors m none }

def unbindBody (c : Ctx) (s : State) : Res :=
  match namedBerth c s with
  | .error h => resOf c s h
  | .ok (s, i, _) =>
    let lid := s.curPack.launch
    let free : Bool := match launchMoor (s.launch lid) (berthMoor (s.launch lid) i) with
      | some x => x.holders.isEmpty && x.waiters.isEmpty
      | none => true
    let s := if free then dropBerth s lid i else s
    .done (s.setCur (setPredAll c s.curPack free)) 0

def execUnbind (e : Enc) (s : State) : Host.Outcome State Fault Refusal := issue (.unbind e) e unbindBody s

/-! ### acq and rel (R277, R278) -/

/-- The request of an acq. -/
def acqRequest (e : Enc) (p : Pack) (pid : Nat) : Waiter :=
  let sh := encModBit e 0
  if encCnt e then ⟨pid, if sh then .cntGe else .cntEq, rdS p e.d.toNat⟩ else ⟨pid, if sh then .plainSh else .plainX, 0⟩

def acqBody (c : Ctx) (s : State) : Res :=
  match namedBerth c s with
  | .error h => resOf c s h
  | .ok (s, i, val) =>
    let pid := s.cur
    let p := s.curPack
    let lid := p.launch
    let m := berthMoor (s.launch lid) i
    match launchMoor (s.launch lid) m with
    | none => .trap (c.trap clsCapv 8 val)
    | some x =>
      if x.holders.contains pid then .trap (c.trap clsCapv 8 val)
      else if s.isStrict lid && !encCnt c.e then .trap (c.trap clsRace 2 val)
      else
        match gateAt s pid x.quay with
        | .error e => resOf c s (.stop e)
        | .ok s =>
          let w := acqRequest c.e p pid
          let s := modMoor s lid m fun x => { x with waiters := x.waiters ++ [w] }
          let (s, got) := grantPass s lid m
          let s := endAcqWaits s (got.filter (· != pid))
          let mine := got.contains pid
          if encTry c.e then
            let s := if mine then s else withdrawAcq s lid pid
            .done (s.setCur (setPredAll c s.curPack mine)) 0
          else if mine then .done s 0
          else .wait s (.acq m) []

def execAcq (e : Enc) (s : State) : Host.Outcome State Fault Refusal := issue (.acq e) e acqBody s

def relBody (c : Ctx) (s : State) : Res :=
  match namedBerth c s with
  | .error h => resOf c s h
  | .ok (s, i, val) =>
    let pid := s.cur
    let lid := s.curPack.launch
    let m := berthMoor (s.launch lid) i
    match launchMoor (s.launch lid) m with
    | none => .trap (c.trap clsCapv 8 val)
    | some x =>
      if !x.holders.contains pid then .trap (c.trap clsCapv 8 val)
      else
        match (sendOff (carryAll s pid) pid).bind fun s => gateAt s pid x.quay with
        | .error e => resOf c s (.stop e)
        | .ok s =>
          let s := modMoor s lid m fun x => x.release pid true (orderOf (s.pack pid) pid)
          .done (grantOthers (s.modPack pid fun p => bumpEpoch p pid) lid m) 0

def execRel (e : Enc) (s : State) : Host.Outcome State Fault Refusal := issue (.rel e) e relBody s

/-- fence: a release, an acquire, or both in that order, of the implicit mooring of the scope (R265, R279); it orders commits and does
not hasten them (R266).  The pack's spills drain first.  A release settles what the pack's later commits carry, at crew scope to its
crewmates and beyond it to all; an acquire settles what the pack sees of its crewmates.  For the rest there is nothing to do in this
model, where a performed write is visible at once (log entry 12). -/
def fenceBody (c : Ctx) (s : State) : Res :=
  let o := encO18 c.e
  let lanes : Bool := bits o 0 3 ≠ 0 && bits o 5 6 == 0
  let released : Except Stop State :=
    if lanes && bitAt o 4 then
      (drainPack s s.curCrew.core s.cur spillRoom).map fun s =>
        fenceRelease (if 1 < bits o 0 3 then carryAll s s.cur else s) s.cur
    else .ok s
  match released with
  | .error e => resOf c s (.stop e)
  | .ok s1 =>
  let s2 := if lanes && bitAt o 3 then fenceAcquire s1 s.cur (s.curCrew.packs.filter (· != s.cur)) else s1
  .done s2 0

def execFence (e : Enc) (s : State) : Host.Outcome State Fault Refusal := issue (.fence e) e fenceBody s

/-- A quay grants what a release, a pack's end or a withdrawn request has made grantable (R258). -/
def execMooringGrant (launch moor : Nat) (s : State) : Host.Outcome State Fault Refusal := .next (grantOthers s launch moor)

end Sys2Proof.Machine
end

