-- ==== Sys2Proof/Machine/Quay.lean ====
section
/-! DEFINITION. Quay instructions: atomic updates, reductions and the gather buffers, reservations, monitors, standing loads,
and the events of a quay (10 R280 to R309). -/

namespace Sys2Proof.Machine

/-! ### Common steps (R282 to R285) -/

/-- Stamps the accesses of some targets, thread by thread (16 R485). -/
def strictTargets (s : State) (pid size : Nat) (write : Bool) (kind : Nat) : List Target → Except Stop State
  | [] => .ok s
  | x :: l =>
    match strict s pid 0 x.colour (stampAccs [x] size write kind) with
    | .error e => .error e
    | .ok s => strictTargets s pid size write kind l

/-- The UCE subcode that reading some targets at their homes consumes. -/
def homeFault (s : State) (l : List Target) (size : Nat) : Option Nat :=
  s.uceOf (l.flatMap fun x => (x.grans size).map (64 * ·))

/-- After the checks: Strict stamps, the commit where the instruction exposes, the crewmates' stores that the pack has read, and the order
gates. -/
def quayEnter (s : State) (l : List Target) (size : Nat) (write : Bool) (kind : Nat) (exposes : Bool) : Except Stop State :=
  let pid := s.cur
  match strictTargets s pid size write kind l with
  | .error e => .error e
  | .ok s =>
    match (if exposes then sendOff s pid else .ok s).bind fun s => catchUp s pid (l.map fun x => (x.loc, size)) with
    | .error e => .error e
    | .ok s => passGates s (s.pack pid).launch (s.pack pid).lin 0 (admissions l size write)

/-- The home serves the targets: recalls, then the body, or the consumption of an error. -/
def atHome (s : State) (l : List Target) (size : Nat) (body : State → Res) : Res :=
  let s := readyRead s (nubNat (l.flatMap fun x => x.grans size))
  match homeFault s l size with
  | some k => .gone (consumeUce s s.curCrewId k)
  | none => body (noteTargets s s.curCrewId l)

/-- RACE 2 of a form that Strict mode forbids (R285). -/
def strictForbids (c : Ctx) (l : List Target) : Res :=
  .trap (c.openTrap clsRace 2 ((l.head?.map fun x => BitVec.ofInt 64 x.addr).getD 0))

/-- The one access of an instruction that acts once per pack (R284). -/
def packTarget (c : Ctx) (s : State) (n : Need) (kind : XKind) (kbits : Nat) : Except Halt Target :=
  let p := s.curPack
  match prepare s s.curCrewId n kind kbits [⟨0, rdCap p (encA c.e) 0, packAddr c p⟩] with
  | .error h => .error (uniHalt c h)
  | .ok [] => .error .stall
  | .ok (x :: _) => .ok x

/-! ### atom (R287) -/

def encX2 (e : Enc) : Bool := encModBit e 0
def opCode (e : Enc) : Nat := encK e % 8
def itemSize (e : Enc) (dflt : Nat) : Nat := if encX2 e then 16 else typeBits (encTy e dflt) / 8

/-- The operand of a register anchor, of `size` bytes. -/
def rdItem (p : Pack) (n t size : Nat) : Nat :=
  if size = 16 then rdV128 p n t else if size = 8 then rdV64 p n t else rdV p n t % 2 ^ (8 * size)

/-- The old value goes to the destination. -/
def wrItem (p : Pack) (n t size ty x : Nat) : Pack :=
  if size = 16 then wrV128 p n t x else if size = 8 then wrV64 p n t x else wrV p n t (extendTo ty 32 x)

/-- One thread's step at its home: the state, and the old value. -/
def atomStep (s : State) (x : Target) (ty op size val cmp : Nat) : State × Nat :=
  let pa := x.loc.off
  let old := s.rdNat pa size
  let s := if peerPa pa then s else s.count ctrQyAtom (homeQuay pa) 1
  if op = 7 ∧ old ≠ cmp then (s, old)
  else
    let new := if op = 7 ∨ size = 16 then val else atomCombine ty op old val
    (performBytes s pa (leBytes new size), old)

/-- The steps in ascending lane order, with the old values. -/
def atomSteps (p : Pack) (e : Enc) (ty size : Nat) (s : State) : List Target → State × List (Nat × Nat)
  | [] => (s, [])
  | x :: l =>
    let (s, old) := atomStep s x ty (opCode e) size (rdItem p (encD e) x.t size) (rdItem p (encC e) x.t size)
    let (s, out) := atomSteps p e ty size s l
    (s, (x.t, old) :: out)

/-- The operand bytes that the store hash folds (16 R479). -/
def operandBytes (p : Pack) (e : Enc) (size : Nat) (l : List Target) : List (Int × List Byte) :=
  l.map fun x => (x.addr, leBytes (rdItem p (encD e) x.t size) size)

def atomBody (dflt : Nat) (c : Ctx) (s : State) : Res :=
  let p := s.curPack
  let size := itemSize c.e dflt
  if c.m = 0 then .done s 0
  else
    match prepare s s.curCrewId ⟨[0, 1, 9], pmAtomic, size⟩ .write kindWrite (mmAccs c p false size) with
    | .error h => resOf c s h
    | .ok l =>
      if s.isStrict p.launch && 6 ≤ opCode c.e then strictForbids c l
      else
        match quayEnter s l size true 0 true with
        | .error e => resOf c s (.stop e)
        | .ok s =>
          atHome s l size fun s =>
            let (s, old) := atomSteps p c.e (encTy c.e dflt) size s l
            let s := foldHash s s.cur (operandBytes p c.e size l)
            .done (s.setCur (old.foldl (fun q x => wrItem q (encD c.e) x.1 size (encTy c.e dflt) x.2) s.curPack)) 0

def execAtomInt (e : Enc) (s : State) : Host.Outcome State Fault Refusal := issue (.atomInt e) e (atomBody 3) s
def execAtomFloat (e : Enc) (s : State) : Host.Outcome State Fault Refusal := issue (.atomFloat e) e (atomBody 0x0D) s

/-! ### Arrival marks (11 R333) -/

/-- An arrival of the marked pack at barrier `b`, in phase `phase`. -/
def markNote (m : ArrMark) (b phase : Nat) : ArrMark :=
  match Tab.get none m b with
  | none => Tab.set none m b (some phase)
  | some _ => m

/-- Whether the pack of index `y` has consumed a phase that the mark holds. -/
def orderedAfter (st : CrewState) (y : Nat) (m : ArrMark) : Bool :=
  m.any fun x => match x.2 with
    | none => false
    | some ph =>
      let d := (Tab.get 0 (crewBar st x.1).waits y + 2 ^ 32 - ph) % 2 ^ 32
      1 ≤ d && d < 2 ^ 31

/-! ### red and the gather buffers (R289 to R294) -/

def gatherRoom : Nat := 128

def State.lines (s : State) (cl : Nat) : List GatherLine := Tab.get [] s.gather cl
def State.setLines (s : State) (cl : Nat) (l : List GatherLine) : State := { s with gather := Tab.set [] s.gather cl l }

/-- Keeps a flushed line at home as a record of its cluster (R293).  What the 16 bytes of a record hold is not stated (log entry 32). -/
def keepRecord (s : State) (cl : Nat) (l : GatherLine) : Except Stop State :=
  let x := s.launch l.launch
  let q := homeQuay (l.gran * 64)
  let n := if x.hdr.dmode = 1 then nextPlace x q else 0
  let r : HomeRec := ⟨l.gran, cl, l.op, l.ty, l.parts, l.counts, l.launch, l.last, n⟩
  let s' := s.modLaunch l.launch fun x => { x with homeRecs := x.homeRecs ++ [r] }
  if x.hdr.dmode = 1 then
    if x.track.s < 8 + Tab.get 0 x.track.qused q + 16 * (n + 1) then .error (.trap clsTrack 3 (BitVec.ofNat 64 q))
    else
      let (id, s) := s'.newId
      match regionWrite s l.launch (quaySegAt x.hdr x.track q + x.track.s - 16 * (n + 1)) (Config.recordBytes id).toNat 16 with
      | some s => .ok s
      | none => .error .lost
  else
    let used := strictUsed (s'.launch l.launch) x.stampUsed
    if strictCap x.hdr < used then .error (.trap clsStrict 1 (Config.trapVal clsStrict 1 0))
    else
      let (id, s) := s'.newId
      let place := x.hdr.stamp + 64 * used + 16 * (x.homeRecs.length % 4)
      match (regionWrite s l.launch place (Config.recordBytes id).toNat 16).bind fun s => regionWrite s l.launch x.hdr.stamp used 8 with
      | some s => .ok s
      | none => .error .lost

/-- Whether a line keeps its partials apart until a recall: floating-point, in Track and Strict modes. -/
def keepsApart (s : State) (l : GatherLine) : Bool := (laneFmt l.ty).isSome && (s.launch l.launch).hdr.dmode != 0

/-- A line leaves its buffer for the home quay, as a request of the lane class (01 R25). -/
def flushLine (s : State) (cl : Nat) (l : GatherLine) : Except Stop State :=
  match (if s.isTrack l.launch then admitRecall s l.launch l.last l.gran else .ok s) with
  | .error e => .error e
  | .ok s =>
    let s := (s.setLines cl ((s.lines cl).filter fun x => x.gran != l.gran)).request 0 (l.gran * 64)
    if keepsApart s l then keepRecord s cl l else .ok (combineParts s l.gran l.op l.ty l.parts l.counts)

/-- The order that R294 asks of a floating-point red to a line of another pack. -/
def redOrdered (s : State) (pid : Nat) (l : GatherLine) : Bool :=
  let p := s.pack pid
  let n := (s.launch p.launch).hdr.packs
  l.last == p.lin || (l.last / n == p.lin / n && orderedAfter (s.crew p.crew).st p.idx l.mark)

/-- RACE 1 of R294: the granule, and the colour of the earlier red (16 R485). -/
def redRace (s : State) (pid : Nat) (x : Target) : Stop :=
  let c := (Tab.get Stamp.blank (s.launch (s.pack pid).launch).stamps (granKey x.loc)).colour
  .trap clsRace 1 (BitVec.ofNat 64 (ofI 54 x.addr / 64 * 64 + c % 256 * 2 ^ 56))

/-- The line after a contribution at byte offset `o`; `again` says that this instruction has contributed to the granule already. -/
def GatherLine.add (l : GatherLine) (o val lin : Nat) (again : Bool) : GatherLine :=
  let v := match l.parts.find? fun x => x.1 == o with
    | some x => atomCombine l.ty l.op (x.2.toNat % 2 ^ typeBits l.ty) val
    | none => val
  { l with
    parts := Tab.insert (Tab.erase l.parts o) o (BitVec.ofNat 64 v)
    counts := if again then modAt (o :: ·) l.counts 0 else [o] :: l.counts
    last := lin
    mark := [] }

/-- One thread's contribution. -/
def redOne (s : State) (pid : Nat) (e : Enc) (ty : Nat) (x : Target) (val : Nat) (again : Bool) : Except Stop State :=
  let p := s.pack pid
  let cl := clusterOfCore (s.coreOf p.crew)
  let pa := x.loc.off
  let g := pa / 64
  let op := opCode e
  let old := (s.lines cl).find? fun l => l.gran == g
  let raced : Bool := match old with
    | some l => s.isStrict p.launch && l.launch == p.launch && (laneFmt ty).isSome && (laneFmt l.ty).isSome && !redOrdered s pid l
    | none => false
  let same (l : GatherLine) : Bool := l.launch == p.launch && l.op == op && l.ty == ty
  let blank : GatherLine := ⟨(s.launch p.launch).asid, p.launch, g, op, ty, [], [], p.lin, []⟩
  let start (s : State) : State := s.setLines cl (blank.add (pa % 64) val p.lin false :: s.lines cl)
  if raced then .error (redRace s pid x)
  else
    match old with
    | some l =>
      if same l then
        let s := s.setLines cl (l.add (pa % 64) val p.lin again :: (s.lines cl).filter fun y => y.gran != g)
        .ok (s.count ctrGbHit cl 1)
      else (flushLine s cl l).map start
    | none =>
      if gatherRoom ≤ (s.lines cl).length then
        match (s.lines cl).getLast? with
        | some l => (flushLine s cl l).map start
        | none => .ok (start s)
      else .ok (start s)

/-- The contributions in ascending lane order; `seen` lists the granules that the instruction has reached. -/
def redAll (pid : Nat) (p : Pack) (e : Enc) (ty size : Nat) : List Target → List Nat → State → Except Stop State
  | [], _, s => .ok s
  | x :: l, seen, s =>
    match redOne s pid e ty x (rdItem p (encD e) x.t size) (seen.contains (x.loc.off / 64)) with
    | .error e => .error e
    | .ok s => redAll pid p e ty size l (x.loc.off / 64 :: seen) s

def redBody (dflt : Nat) (c : Ctx) (s : State) : Res :=
  let p := s.curPack
  let pid := s.cur
  let ty := encTy c.e dflt
  let size := typeBits ty / 8
  if c.m = 0 then .done s 0
  else
    match prepare s s.curCrewId ⟨[0, 1, 9], pmAtomic, size⟩ .write kindWrite (mmAccs c p false size) with
    | .error h => resOf c s h
    | .ok l =>
      match strictTargets s pid size true (if (laneFmt ty).isSome then 4 else 1) l with
      | .error e => resOf c s (.stop e)
      | .ok s1 =>
        let arrive (s : State) : Except Stop State :=
          if s.isTrack p.launch then admitAll s p.launch p.lin 0 (nubAdm (admissions l size true)) else .ok s
        let before (s : State) : Except Stop State := (sendOff s pid).bind fun s => catchUp s pid (l.map fun x => (x.loc, size))
        match ((before s1).bind arrive).bind (redAll pid p c.e ty size l []) with
        | .error e => resOf c s (.stop e)
        | .ok s => .done (foldHash (noteTargets s s.curCrewId l) pid (operandBytes p c.e size l)) 0

def execRedInt (e : Enc) (s : State) : Host.Outcome State Fault Refusal := issue (.redInt e) e (redBody 3) s
def execRedFloat (e : Enc) (s : State) : Host.Outcome State Fault Refusal := issue (.redFloat e) e (redBody 0x0D) s

/-! ### lr and sc (R296, R297) -/

/-- Reservations that a quay holds: pack and arrival number. -/
def resvAt (s : State) (q : Nat) : List (Nat × Nat) :=
  s.packs.filterMap fun x => match x.2.resv with
    | some (g, n) => if homeQuay (g * 64) = q then some (x.1, n) else none
    | none => none

/-- A full table gives up its oldest reservation (R280). -/
def evictResv (s : State) (q : Nat) : State :=
  let l := resvAt s q
  if 1024 ≤ l.length then
    match minNat (l.map (·.2)) with
    | some n =>
      l.foldl (fun s x => if x.2 = n then s.modPack x.1 fun p => { p with resv := none } else s) (s.count ctrRsvEvict q 1)
    | none => s
  else s

def lrBody (c : Ctx) (s : State) : Res :=
  let ty := encTy c.e 0x0A
  let size := typeBits ty / 8
  if c.m = 0 then .done s 0
  else
    match packTarget c s ⟨[0, 1], pmAtomic, size⟩ .read kindRead with
    | .error h => resOf c s h
    | .ok x =>
      if s.isStrict s.curPack.launch then strictForbids c [x]
      else
        match quayEnter s [x] size false 0 true with
        | .error e => resOf c s (.stop e)
        | .ok s =>
          atHome s [x] size fun s =>
            let pa := x.loc.off
            let v := s.rdNat pa size
            let s := evictResv (s.modPack s.cur fun p => { p with resv := none }) (homeQuay pa)
            let (n, s) := s.newId
            let p := s.curPack
            .done (s.setCur (wrS { p with resv := some (pa / 64, n) } c.e.d.toNat (BitVec.ofNat 64 (extendTo ty 64 v)))) 0

def execLr (e : Enc) (s : State) : Host.Outcome State Fault Refusal := issue (.lr e) e lrBody s

/-- The predicate of an MM instruction's C field, in the extended form only. -/
def setPredC (c : Ctx) (p : Pack) (n : Nat) (b : Bool) : Pack :=
  if c.e.ext.isNone then p else (lanesOf c.m p.width).foldl (fun q t => wrP q n t b) p

/-- sc.  The recall that it forces is a write, which clears the reservation (R291, R296). -/
def scBody (c : Ctx) (s : State) : Res :=
  let size := typeBits (encTy c.e 0x0A) / 8
  if c.m = 0 then .done s 0
  else
    match packTarget c s ⟨[0, 1], pmAtomic, size⟩ .write kindWrite with
    | .error h => resOf c s h
    | .ok x =>
      if s.isStrict s.curPack.launch then strictForbids c [x]
      else
        let covers (s : State) : Bool := (s.curPack.resv.map (·.1)) == some (x.loc.off / 64)
        let before : Except Stop State := ((sendOff s s.cur).bind fun s => catchUp s s.cur [(x.loc, size)]).bind fun s =>
          if covers s then recallFor s s.curPack.launch (x.loc.off / 64) else .ok s
        match before with
        | .error e => resOf c s (.stop e)
        | .ok s1 =>
          let p := s1.curPack
          let bs := leBytes ((rdS p c.e.d.toNat).toNat % 2 ^ (8 * size)) size
          let ok := covers s1
          match (if ok then passGates s1 p.launch p.lin 0 (admissions [x] size true) else .ok s1) with
          | .error e => resOf c s (.stop e)
          | .ok s2 =>
            let s3 := noteTargets (if ok then performBytes s2 x.loc.off bs else s2) s2.curCrewId [x]
            let s4 := foldHash s3 s3.cur [(x.addr, bs)]
            .done (s4.setCur (setPredC c { s4.curPack with resv := none } (encC c.e) ok)) 0

def execSc (e : Enc) (s : State) : Host.Outcome State Fault Refusal := issue (.sc e) e scBody s

/-! ### waitc (R298 to R300) -/

/-- Monitors armed at a quay. -/
def monitorsAt (s : State) (q : Nat) : Nat :=
  (s.packs.filter fun x => match x.2.monitor with
    | some m => m.quay == q && !m.poll
    | none => false).length

def waitcBody (c : Ctx) (s : State) : Res :=
  let p := s.curPack
  let ty := encTy c.e 7
  let size := typeBits ty / 8
  let cmp := opCode c.e
  if c.m = 0 then .done s 0
  else
    match packTarget c s ⟨[0, 1], pmSub, size⟩ .read kindRead with
    | .error h => resOf c s h
    | .ok x =>
      if s.isStrict p.launch && cmp < 2 then strictForbids c [x]
      else
        match quayEnter s [x] size false 3 false with
        | .error e => resOf c s (.stop e)
        | .ok s =>
          atHome s [x] size fun s =>
            let pa := x.loc.off
            let q := homeQuay pa
            let mask : W64 := if (encX c.e).kd then rdS p (encC c.e) else BitVec.allOnes 64
            let cut (v : W64) : W64 := BitVec.ofNat 64 (v.toNat % 2 ^ (8 * size))
            let poll : Bool := 2048 ≤ monitorsAt s q
            let m : Monitor := ⟨q, (s.launch p.launch).asid, pa, size, cmp, typeSigned ty, cut (rdS p c.e.d.toNat), cut mask,
              poll, false⟩
            if m.holds (s.rdNat pa size) then .done s 0
            else
              let s := if poll then s.count ctrMonPoll q 1 else s
              .wait (s.setCur { s.curPack with monitor := some m }) .monitor []

def execWaitc (e : Enc) (s : State) : Host.Outcome State Fault Refusal := issue (.waitc e) e waitcBody s

/-- A satisfied monitor wakes its pack (R298). -/
def execMonitorWake (pack : Nat) (s : State) : Host.Outcome State Fault Refusal :=
  match (s.pack pack).monitor with
  | some m => .next (if m.hit && (s.pack pack).live then completeWait s pack else s)
  | none => .next s

/-! ### Recalls that no instruction causes (R26, R291) -/

/-- The lowest-numbered live pack of the crew of a linear number in a launch (16 R482). -/
def lowestPack (s : State) (lid lin : Nat) : Option Nat :=
  let n := (s.launch lid).hdr.packs
  let l := s.packs.filter fun x => x.2.live && x.2.launch == lid && x.2.lin / n == lin / n
  (minNat (l.map (·.2.lin))).bind fun k => (l.find? fun x => x.2.lin == k).map (·.1)

/-- Whether partials of a granule stand in a gather buffer or at its home. -/
def gathered (s : State) (g : Nat) : Bool :=
  (s.gather.any fun x => x.2.any fun l => l.gran == g) || s.launches.any fun x => x.2.homeRecs.any fun r => r.gran == g

/-- A recall that no instruction causes: it passes the gates of the launch whose partials it combines.  A full segment traps the crew of
the pack that it is charged to (16 R482), and the recall goes on without its entry; when that crew has gone, nothing is left to trap. -/
def recallNow (s : State) (g : Nat) : State :=
  let lines := s.gather.flatMap fun x => x.2.filter fun l => l.gran == g
  let recs := s.launches.flatMap fun x => x.2.homeRecs.filter fun r => r.gran == g
  let who : Option (Nat × Nat) := match lines, recs with
    | l :: _, _ => some (l.launch, l.last)
    | [], r :: _ => some (r.launch, r.charged)
    | [], [] => none
  match who with
  | none => s
  | some (lid, lin) =>
    match recallFor s lid g, lowestPack s lid lin with
    | .ok s, _ => s
    | .error (.gate _ s), _ => s
    | .error (.trap cls sub val), some p => recallGran (deferTrap s p ⟨cls, sub, val, 0⟩) g
    | .error .lost, some p => recallGran (crewAbort s (s.pack p).crew 9 0 0 0) g
    | .error _, _ => recallGran s g

/-- The re-poll of one pack. -/
def repollOne (s : State) (q pid : Nat) : State :=
  match (s.pack pid).monitor with
  | some m =>
    if m.poll ∧ m.quay = q then
      let s := recallNow s (m.pa / 64)
      if !gathered s (m.pa / 64) && m.holds (s.rdNat m.pa m.size) then completeWait s pid else s
    else s
  | none => s

/-- The quay re-evaluates its re-poll list (R300). -/
def execRepoll (quay : Nat) (s : State) : Host.Outcome State Fault Refusal :=
  .next ((s.packs.map (·.1)).foldl (fun s p => repollOne s quay p) s)

/-! ### Standing loads (R301 to R309) -/

/-- A delivery: VALUE, SEQ and OVR as one 16-byte unit (R301, R304); a pack that waits in stq.wait looks again (R309). -/
def deliver (s : State) (id : Nat) (b : Sub) (v : W64) (seq : Nat) : State :=
  let got := if seq = b.lastSeq then b.received else b.received + 1
  let bs := leBytes v.toNat 8 ++ leBytes (seq % 2 ^ 32) 4 ++ leBytes ((seq - got) % 2 ^ 32) 4
  let s := (s.wrSpad (.spm1 b.crew b.off) bs none).setSub id (some { b with received := got, lastSeq := seq })
  { s with packs := s.packs.map fun x =>
      (x.1, if x.2.live && x.2.crew == b.crew && x.2.wait.kind == .again then { x.2 with wait := Wait.none } else x.2) }

/-- Entries of a quay's subscription table. -/
def subsAt (s : State) (q : Nat) : Nat :=
  (s.subs.filter fun x => match x.2 with
    | some b => b.quay == q && !b.ending
    | none => false).length

def modSlots (s : State) (crew c : Nat) (x : Option Nat) : State :=
  s.modCrew crew fun k => { k with slots := Tab.set none k.slots c x }

def slotSub (s : State) (crew c : Nat) : Option Nat := Tab.get none (s.crew crew).slots c

/-- stand, after its checks and its commit. -/
def standAt (c : Ctx) (s : State) (x : Target) (size off : Nat) : Res :=
  let crew := s.curCrewId
  let q := homeQuay x.loc.off
  let free : Bool := (slotSub s crew (encC c.e)).isNone
  let room : Bool := subsAt s q < 4096
  let s := if free && !room then s.count ctrSubFail q 1 else s
  let s :=
    if free && room then
      let (id, s) := s.newId
      let b : Sub := ⟨q, s.curLaunch.asid, crew, encC c.e, ofI 54 x.addr, x.loc.off, size, off, 0, 0, 0, none, none, false, false, 0, false⟩
      deliver (modSlots s crew (encC c.e) (some id)) id b (BitVec.ofNat 64 (s.rdNat x.loc.off size)) 0
    else s
  .done (s.setCur (setPredC c s.curPack (encK c.e) (free && room))) 0

def standBody (c : Ctx) (s : State) : Res :=
  let p := s.curPack
  let size := typeBits (encTy c.e 7) / 8
  if c.m = 0 then .done s 0
  else
    match packTarget c s ⟨[0, 1], pmSub, size⟩ .read kindRead with
    | .error h => resOf c s h
    | .ok x =>
      let d := rdS p c.e.d.toNat
      if d.toNat % 16 ≠ 0 then .trap (c.trap clsAlign 0 d)
      else if s.curCrew.st.spm1.size < d.toNat + 16 then .trap (c.trap clsCapv 5 d)
      else if s.isStrict p.launch then strictForbids c [x]
      else
        match quayEnter s [x] size false 0 true with
        | .error e => resOf c s (.stop e)
        | .ok s => atHome s [x] size fun s => standAt c s x size d.toNat

def execStand (e : Enc) (s : State) : Host.Outcome State Fault Refusal := issue (.stand e) e standBody s

/-- The address checks of unstand and stq: the subscription that the slot index is bound to (R308, R309). -/
def boundSub (c : Ctx) (s : State) : Except Halt (Target × Nat × Sub) :=
  let p := s.curPack
  let b := (slotSub s s.curCrewId (encC c.e)).bind fun id => (s.sub id).map fun b => (id, b)
  let size := (b.map fun x => x.2.size).getD 1
  match packTarget c s ⟨[0, 1], pmSub, size⟩ .read kindRead with
  | .error h => .error h
  | .ok x =>
    match b with
    | some (id, b) =>
      if b.va = ofI 54 x.addr then .ok (x, id, b) else .error (.trap (c.trap clsCapv 8 (BitVec.ofInt 64 (packAddr c p))))
    | none => .error (.trap (c.trap clsCapv 8 (BitVec.ofInt 64 (packAddr c p))))

/-- The subscription of an index that its quay has acknowledged as ended for the issuing pack. -/
def slotAcked (s : State) (crew c : Nat) : Option Nat :=
  (slotSub s crew c).bind fun id => match s.sub id with
    | some b => if b.acked && b.ender == s.cur then some id else none
    | none => none

/-- unstand: the entry is removed at once; the pack keeps its slot until the acknowledgement (R308). -/
def unstandBody (c : Ctx) (s : State) : Res :=
  if c.m = 0 then .done s 0
  else match slotAcked s s.curCrewId (encC c.e) with
  | some id => .done (modSlots (s.setSub id none) s.curCrewId (encC c.e) none) 0
  | none =>
    match boundSub c s with
    | .error h => resOf c s h
    | .ok (x, id, b) =>
      if s.isStrict s.curPack.launch then strictForbids c [x]
      else if b.ending then .stall s
      else
        match quayEnter s [x] b.size false 0 true with
        | .error e => resOf c s (.stop e)
        | .ok s =>
          let b := (s.sub id).getD b
          let s := noteTargets (s.setSub id (some { b with ending := true, ender := s.cur })) s.curCrewId [x]
          if b.flight.isNone && b.pending.isNone then .done (modSlots (s.setSub id none) s.curCrewId (encC c.e) none) 0
          else .stall s

def execUnstand (e : Enc) (s : State) : Host.Outcome State Fault Refusal := issue (.unstand e) e unstandBody s

/-- stq: VALUE, SEQ and OVR; with .wait it waits until SEQ differs (R309). -/
def stqBody (c : Ctx) (s : State) : Res :=
  let p := s.curPack
  let d := c.e.d.toNat
  if c.m = 0 then .done s 0
  else
    match boundSub c s with
    | .error h => resOf c s h
    | .ok (x, _, b) =>
      if s.isStrict p.launch then strictForbids c [x]
      else
        let w := s.curCrew.st.spm1.rd b.off 16
        let seq := leNat ((w.drop 8).take 4)
        if encModBit c.e 0 ∧ seq = (rdS p (d + 1)).toNat % 2 ^ 32 then .wait s .again []
        else
          let q := wrS (wrS p d (BitVec.ofNat 64 (leNat (w.take 8)))) (d + 1) (BitVec.ofNat 64 (leNat (w.drop 8)))
          .done (noteTargets (s.setCur q) s.curCrewId [x]) 0

def execStq (e : Enc) (s : State) : Host.Outcome State Fault Refusal := issue (.stq e) e stqBody s

/-- The push in flight lands, and the pending one is sent (R304). -/
def landPush (s : State) (id : Nat) : State :=
  match s.sub id with
  | some b =>
    match b.flight with
    | some (v, n) =>
      let s := deliver s id { b with flight := b.pending, pending := none } v n
      s
    | none => s
  | none => s

def execPushDelivery (sub : Nat) (s : State) : Host.Outcome State Fault Refusal :=
  match s.sub sub with
  | some b => .next (if b.parked then s else landPush s sub)
  | none => .next s

/-- The last push of an ended subscription has landed: its quay acknowledges (R308). -/
def execUnstandAck (sub : Nat) (s : State) : Host.Outcome State Fault Refusal :=
  match s.sub sub with
  | some b => .next (if b.ending && b.flight.isNone && b.pending.isNone then s.setSub sub (some { b with acked := true }) else s)
  | none => .next s

/-! ### Recalls as events (R26, R291) -/

def execRecall (gran : Nat) (s : State) : Host.Outcome State Fault Refusal := .next (recallNow s gran)

/-- A granule with a subscription is recalled in time (R291). -/
def execRecallTimeout (gran : Nat) (s : State) : Host.Outcome State Fault Refusal :=
  let watched : Bool := s.subs.any fun x => match x.2 with
    | some b => b.pa / 64 == gran
    | none => false
  .next (if watched then recallNow s gran else s)

/-! ### Grants (01 R25, R26) -/

/-- Grants of a window of 64 by engine class: lane, fox, copy, matrix, geo, link, host. -/
def quayShares : List Nat := [16, 6, 16, 6, 6, 10, 4]

/-- A grant that class `c` does not claim goes to the next class after it that waits. -/
def passGrant (c : Nat) (w : List Nat) : List Nat :=
  match ((List.range 7).map fun i => (c + 1 + i) % 7).find? fun k => 0 < w.getD k 0 with
  | some k => modAt (· - 1) w k
  | none => w

/-- The requests of each class that wait after a window: each class has its own grants first, then the unclaimed ones pass on. -/
def grantWindow (w : List Nat) : List Nat :=
  (List.range 7).foldl (fun r c => iter (quayShares.getD c 0 - w.getD c 0) (passGrant c) r) (List.zipWith (· - ·) w quayShares)

/-- A grant window of a quay. -/
def execQuayGrantWindow (quay : Nat) (s : State) : Host.Outcome State Fault Refusal :=
  let left := grantWindow (Tab.get [] s.waiting quay)
  .next { s with waiting := Tab.set [] s.waiting quay (if left.all (· == 0) then [] else left) }

end Sys2Proof.Machine
end

