-- ==== Sys2Proof/Machine/Tiles.lean ====
section
/-! DEFINITION. The tile table and its instructions (07 R204 to R218). -/

namespace Sys2Proof.Machine

/-! ### Entries -/

def Tile.rows (t : Tile) : Nat := bits t.geom.toNat 0 16
def Tile.rowGran (t : Tile) : Nat := bits t.geom.toNat 16 12
def Tile.pitch (t : Tile) : Nat := bits t.geom.toNat 32 24
/-- Bytes of a row. -/
def Tile.rowBytes (t : Tile) : Nat := t.rowGran * 64
/-- Offset of row `i` in the window. -/
def Tile.rowOff (t : Tile) (i : Nat) : Nat := t.base + i * t.pitch * 64
/-- Bytes from the base to the end of the last row. -/
def Tile.extent (t : Tile) : Nat := (t.rows - 1) * t.pitch * 64 + t.rowBytes

/-- STATE of R216: 0 empty, 1 ready, 2 filling, 3 draining (R205). -/
def Tile.state (t : Tile) : Nat := if !t.defined then 0 else if t.fill ≠ 0 then 2 else if t.drain ≠ 0 then 3 else 1

/-- Geometry words that R212 allows. -/
def geomOk (g : Nat) : Bool :=
  let rows := bits g 0 16
  let rg := bits g 16 12
  1 ≤ rows && rows ≤ 4096 && 1 ≤ rg && rg ≤ 1024 && bits g 28 4 == 0 && rg ≤ bits g 32 24 && bits g 56 8 == 0

def tileAt (s : State) (crew t : Nat) : Tile := crewTile (s.crew crew).st t
def setTile (s : State) (crew t : Nat) (x : Tile) : State := s.modSt crew fun st => crewSetTile st t x
def modTile (s : State) (crew t : Nat) (f : Tile → Tile) : State := setTile s crew t (f (tileAt s crew t))

/-- The place of row `i`. -/
def tileRow (s : State) (crew : Nat) (t : Tile) (i : Nat) : Loc := windowLoc s crew t.space (t.rowOff i)

/-- Marks a fill by an operation that is no matrix instruction. -/
def otherFiller : Nat := 2 ^ 32

/-- An operation that writes the tile issues, for `who` (R205, R206). -/
def Tile.startFill (t : Tile) (who : Nat) : Tile := { t with fill := t.fill + 1, mfill := who :: t.mfill }
def Tile.endFill (t : Tile) (who : Nat) : Tile := { t with fill := t.fill - 1, mfill := t.mfill.erase who }
def Tile.startDrain (t : Tile) : Tile := { t with drain := t.drain + 1 }
def Tile.endDrain (t : Tile) : Tile := { t with drain := t.drain - 1 }

/-- The state allows a read, and the drain count has room. -/
def Tile.canRead (t : Tile) : Bool := t.fill == 0 && t.drain < 63
/-- The state is ready (and so the fill count has room). -/
def Tile.isReady (t : Tile) : Bool := t.fill == 0 && t.drain == 0
/-- An accumulator of pack `pid`: ready, or filling only through its own earlier matrix instructions (R206). -/
def Tile.canAccumulate (t : Tile) (pid : Nat) : Bool :=
  t.drain == 0 && (t.fill == 0 || (t.fill < 63 && t.mfill.all (· == pid)))

/-- A stall on a tile's state, counted (R219). -/
def tileStall (s : State) : Res := .stall (s.count ctrTileStall s.curCrew.core 1)

def tileTrap (c : Ctx) (sub h : Nat) : Res := .trap (c.trap clsTile sub (BitVec.ofNat 64 h))

/-- The same where no handle is concerned, or the rules name none: the low eight bits of %tval are free (R209). -/
def tileTrapOpen (c : Ctx) (sub : Nat) (x : W64) : Res :=
  .trap (c.trap clsTile sub (BitVec.ofNat 64 ((Config.trapVal clsTile sub x).toNat % 256)))

/-! ### Writes of engines into windows -/

/-- A write of an engine or of tfill: SPM1 under the den, SPM2 and SPM3 in place (15 R454, R455). -/
def engineWrite (s : State) (crew space off : Nat) (bs : List Byte) : State :=
  let l := windowLoc s crew space off
  if space = 2 then writeSpm1 s crew off bs none else (countPartial s (s.clusterOf crew) [(l, bs.length)]).wrSpad l bs none

/-! ### tdef (R211) -/

/-- The CAPV trap of the capability, if any. -/
def tdefCap (sv : Bool) (k : Cap) : Option Nat :=
  if !k.tag then some 1
  else if !isWindow k.space then some 2
  else if !sv && k.has pmSuper then some 3
  else none

/-- The lowest empty handle. -/
def lowestEmpty (st : CrewState) : Option Nat := (List.range 64).find? fun h => !(crewTile st h).defined

def tdefBody (c : Ctx) (s : State) : Res :=
  let p := s.curPack
  let crew := s.curCrewId
  let k := rdY p c.e.a.toNat
  let g := rdS p (encB c.e)
  let base := k.cursor + encImm c.e * 64
  let any := encModBit c.e 0
  match tdefCap s.curSv k with
  | some j => .trap (c.trap clsCapv j (BitVec.ofNat 64 base))
  | none =>
    if base % 64 ≠ 0 then .trap (c.trap clsAlign 0 (BitVec.ofNat 64 base))
    else
      let t : Tile := ⟨true, 0, 0, false, k.space, base, g, encTy c.e 9, k.perm, k.colour, 0, []⟩
      let bad : Bool := !geomOk g.toNat || base < k.base || k.top < base + t.extent
      let d := c.e.d.toNat
      if any then
        match lowestEmpty (s.crew crew).st with
        | none => tileTrapOpen c 2 g
        | some h =>
          if bad then tileTrapOpen c 3 g
          else if s.isStrict p.launch then .trap (c.openTrap clsRace 2 g)
          else .done ((setTile s crew h t).setCur (wrS p d (BitVec.ofNat 64 h))) 0
      else if (tileAt s crew d).defined then tileTrap c 1 d
      else if bad then tileTrap c 3 d
      else .done (setTile s crew d t) 0

def execTdef (e : Enc) (s : State) : Host.Outcome State Fault Refusal := issue (.tdef e) e tdefBody s

/-! ### tmov (R213, R214) -/

def tmovBody (c : Ctx) (s : State) : Res :=
  let crew := s.curCrewId
  let a := c.e.a.toNat
  let d := c.e.d.toNat
  let x := tileAt s crew a
  if !x.defined then tileTrap c 4 a
  else if encModBit c.e 0 then
    let w := (rdS s.curPack (encB c.e)).toNat
    let f := bits w 0 16
    let n := bits w 16 16
    if (tileAt s crew d).defined then tileTrap c 5 d
    else if bits w 32 32 ≠ 0 ∨ n = 0 ∨ x.rows < f + n then tileTrapOpen c 6 (BitVec.ofNat 64 w)
    else if x.fill ≠ 0 then tileStall s
    else
      let g := BitVec.ofNat 64 (putBits x.geom.toNat 0 16 n)
      .done ((setTile s crew d { x with base := x.rowOff f, geom := g, fill := 0, drain := 0, replay := false, mfill := [] }).setCur
        (observeTiles s.curPack [a])) 0
  else if a ≠ d ∧ (tileAt s crew d).defined then tileTrap c 5 d
  else if !x.isReady then tileStall s
  else
    let s := s.setCur (observeTiles s.curPack [a])
    .done (if a = d then s else setTile (setTile s crew d x) crew a Tile.blank) 0

def execTmov (e : Enc) (s : State) : Host.Outcome State Fault Refusal := issue (.tmov e) e tmovBody s

/-! ### twait, tstat and trel (R215 to R217) -/

def twaitBody (c : Ctx) (s : State) : Res :=
  let h := c.e.b.toNat
  let x := tileAt s s.curCrewId h
  if !x.defined ∨ (if encModBit c.e 0 then x.fill = 0 else x.isReady) then
    .done (s.setCur (observeTiles s.curPack [h])) 0
  else tileStall s

def execTwait (e : Enc) (s : State) : Host.Outcome State Fault Refusal := issue (.twait e) e twaitBody s

/-- The status word of R216. -/
def tileStatus (t : Tile) : Nat :=
  if t.defined then
    t.state + t.fill * 2 ^ 2 + t.drain * 2 ^ 8 + bit t.replay * 2 ^ 14 + t.ty * 2 ^ 15 + t.space * 2 ^ 20
  else 0

def tileWord (t : Tile) (which : Nat) : Nat :=
  if !t.defined then 0
  else match which with
    | 0 => tileStatus t
    | 1 => t.geom.toNat
    | 2 => t.base % 2 ^ 54
    | _ => t.perm

def tstatBody (c : Ctx) (s : State) : Res :=
  let p := s.curPack
  let which := encMod c.e % 4
  let h := c.e.b.toNat
  if which = 0 ∧ s.isStrict p.launch then .trap (c.openTrap clsRace 2 (BitVec.ofNat 64 h))
  else .done (s.setCur (wrS p c.e.d.toNat (BitVec.ofNat 64 (tileWord (tileAt s s.curCrewId h) which)))) 0

def execTstat (e : Enc) (s : State) : Host.Outcome State Fault Refusal := issue (.tstat e) e tstatBody s

def trelBody (c : Ctx) (s : State) : Res :=
  let h := c.e.b.toNat
  let x := tileAt s s.curCrewId h
  if !x.defined then .done s 0
  else if x.isReady then .done (setTile (s.setCur (observeTiles s.curPack [h])) s.curCrewId h Tile.blank) 0
  else tileStall s

def execTrel (e : Enc) (s : State) : Host.Outcome State Fault Refusal := issue (.trel e) e trelBody s

/-! ### tfill (R218) -/

/-- The bytes that repetitions of a pattern of `w` bits spell, over `n` bytes. -/
def patternBytes (w pat n : Nat) : List Byte :=
  let per := Nat.lcm w 8 / 8
  let one := leBytes ((List.range (per * 8 / w)).foldl (fun x i => x + pat % 2 ^ w * 2 ^ (w * i)) 0) per
  (List.range n).map fun j => one.getD (j % per) 0

/-- Granule accesses of a tile's rows. -/
def tileAccs (s : State) (crew : Nat) (t : Tile) (write : Bool) (kind : Nat) : List SAcc :=
  (List.range t.rows).flatMap fun i =>
    (List.range t.rowGran).map fun g => ⟨granKey ((tileRow s crew t i).add (64 * g)), t.rowOff i + 64 * g, write, kind⟩

/-- Writes the same bytes to each row of a tile. -/
def fillRows (s : State) (crew : Nat) (t : Tile) (bs : List Byte) : State :=
  (List.range t.rows).foldl (fun s i => engineWrite s crew t.space (t.rowOff i) bs) s

/-- tfill issues: the fill count rises, and the rows are written later. -/
def tfillBody (c : Ctx) (s : State) : Res :=
  let crew := s.curCrewId
  let h := c.e.d.toNat
  let x := tileAt s crew h
  if !x.defined then tileTrap c 4 h
  else if !x.isReady then tileStall s
  else
    let (n, s1) := s.newId
    match strict (s1.setCur (observeTiles s1.curPack [h])) s.cur (n + 1) x.colour (tileAccs s crew x true 0) with
    | .error e => resOf c s (.stop e)
    | .ok s =>
      let pat := (rdS s.curPack c.e.a.toNat).toNat
      let f : TileFill := ⟨s.cur, n + 1, h, patternBytes (typeBits (encTy c.e 9)) pat x.rowBytes⟩
      .done ((modTile s crew h fun t => t.startFill otherFiller).modSt crew fun st => { st with tfills := st.tfills ++ [f] }) 0

/-- Completed engine operations wait for their pack's observation (16 R484). -/
def noteDone (s : State) (pid op : Nat) (l : List (Nat × Nat)) : State :=
  if s.isStrict (s.pack pid).launch ∧ (s.pack pid).live then
    let phase (x : Nat × Nat) : Nat := if x.1 = 1 then (crewBar (s.crew (s.pack pid).crew).st x.2).cmp else 0
    s.modPack pid fun p => { p with opsDone := p.opsDone ++ l.map fun x => (opAgent pid op, x.1, x.2, phase x) }
  else s

/-- The oldest tfill of a crew writes its rows, and the fill count falls. -/
def landFill (crew : Nat) (s : State) : Host.Outcome State Fault Refusal :=
  match (s.crew crew).st.tfills with
  | [] => .next s
  | f :: l =>
    let s := fillRows s crew (tileAt s crew f.tile) f.bytes
    if !(s.crew crew).live then .next s
    else
      let s := (modTile s crew f.tile fun t => t.endFill otherFiller).modSt crew fun st => { st with tfills := l }
      .next (settleCrew (noteDone s f.pack f.op [(0, f.tile)]) crew)

def execTfill (e : Enc) (s : State) : Host.Outcome State Fault Refusal := issue (.tfill e) e tfillBody s

end Sys2Proof.Machine
end

