-- ==== Sys2Proof/Machine/Barriers.lean ====
section
/-! DEFINITION. Named barriers and the crew checkpoint (11 R331 to R336; 15 R453, R480; 16 R484). -/

namespace Sys2Proof.Machine

def setBar (s : State) (crew b : Nat) (x : Barrier) : State := s.modSt crew fun st => crewSetBar st b x
def barOf (s : State) (crew b : Nat) : Barrier := crewBar (s.crew crew).st b

/-! ### Phases -/

/-- (CMP − WAITS) mod 2^32 is nonzero: the pack of index `y` has a phase to consume (R332). -/
def Barrier.canConsume (x : Barrier) (y : Nat) : Bool := x.cmp ≠ Tab.get 0 x.waits y

/-- The barrier after one consumption. -/
def Barrier.consume (x : Barrier) (y : Nat) : Barrier :=
  { x with waits := Tab.set 0 x.waits y ((Tab.get 0 x.waits y + 1) % 2 ^ 32) }

/-- A wait of a pack completes: it consumes a phase, and in Strict mode observes that phase's arrivals and its own operations
that arrived there (16 R484). -/
def consumePhase (s : State) (pid b : Nat) : State :=
  let p := s.pack pid
  let x := barOf s p.crew b
  let ph := Tab.get 0 x.waits p.idx
  let s := acquireAtBar (setBar s p.crew b (x.consume p.idx)) p.crew pid b ph
  if s.isStrict p.launch then
    s.modPack pid fun p =>
      let p := (x.orders.filter fun o => o.1 == ph).foldl (fun p o => joinOrder p o.2) p
      observe p fun o => o.2.1 == 1 && o.2.2.1 == b && o.2.2.2 == ph
  else s

/-- Packs of a crew that wait at a barrier and may go on. -/
def barWakes (s : State) (crew b : Nat) : List Nat :=
  (s.crew crew).packs.filter fun p =>
    let k := s.pack p
    k.live && k.wait.kind == .barrier b && (barOf s crew b).canConsume k.idx

/-- The waits that a completed phase ends. -/
def wakeBar (s : State) (crew b : Nat) : State :=
  (barWakes s crew b).foldl (fun s p => completeWait (consumePhase s p b) p) s

/-- A phase completes when the arrivals reach EXP, on every barrier but b0 (R332, R335). -/
def settleBar (s : State) (crew b : Nat) : State :=
  let x := barOf s crew b
  if b ≠ 0 ∧ x.exp ≤ x.arr ∧ 0 < x.arr then wakeBar (setBar s crew b { x with arr := 0, cmp := (x.cmp + 1) % 2 ^ 32 }) crew b
  else s

/-- Marks of the pack's earlier events take this arrival (R333). -/
def arriveMarks (s : State) (pid b phase : Nat) : State :=
  let p := s.pack pid
  let line (l : GatherLine) : GatherLine :=
    if l.launch == p.launch && l.last == p.lin then { l with mark := markNote l.mark b phase } else l
  let rec_ (r : MacroRec) : MacroRec :=
    if r.loaded && r.loader == p.idx then { r with larr := markNote r.larr b phase } else r
  let s : State := { s with gather := s.gather.map fun x => (x.1, x.2.map line) }
  s.modSt p.crew fun st => { st with macros := st.macros.map fun x => (x.1, rec_ x.2) }

/-- A pack arrives at a barrier; the phase may complete afterwards. -/
def arrivePack (s : State) (pid b : Nat) : State :=
  let p := s.pack pid
  let x := barOf s p.crew b
  let s := releaseAtBar (arriveMarks s pid b x.cmp) p.crew pid b x.cmp
  let strict := s.isStrict p.launch
  let orders := if strict then (x.cmp, orderOf p pid) :: x.orders else x.orders
  let s := setBar s p.crew b { x with arr := (x.arr + 1) % 2 ^ 16, orders := orders }
  if strict then s.modPack pid fun p => bumpEpoch p pid else s

/-- What an arrival of a pack at a barrier is about to do. -/
def arrivalOf (s : State) (pid b : Nat) : Arrival :=
  let p := s.pack pid
  { bar := b
    phase := (barOf s p.crew b).cmp
    lines := s.gather.flatMap fun x =>
      (x.2.filter fun l => l.launch == p.launch && l.last == p.lin && (Tab.get none l.mark b).isNone).map fun l => (x.1, l.gran)
    recs := ((s.crew p.crew).st.macros.filter fun x => x.2.loaded && x.2.loader == p.idx && (Tab.get none x.2.larr b).isNone).map (·.1)
    vc := p.vc
    order := orderOf p pid
    carried := carriedOrder s pid }

/-- The arrival of a waiting barx is withdrawn, with all that it did (15 R464; 16 R480). -/
def withdrawArrival (s : State) (pid b : Nat) : State :=
  let p := s.pack pid
  let x := barOf s p.crew b
  match p.arrival with
  | none => setBar s p.crew b { x with arr := x.arr - 1 }
  | some a =>
    let s := setBar s p.crew b { x with arr := x.arr - 1, orders := x.orders.erase (a.phase, a.order) }
    let s : State := { s with
      gather := s.gather.map fun y => (y.1, y.2.map fun l =>
        if a.lines.contains (y.1, l.gran) then { l with mark := Tab.set none l.mark b none } else l)
      sight := { s.sight with arrivals := s.sight.arrivals.erase (p.crew, b, a.phase, a.carried) } }
    let s := s.modSt p.crew fun st => { st with macros := st.macros.map fun y =>
      (y.1, if a.recs.contains y.1 then { y.2 with larr := Tab.set none y.2.larr b none } else y.2) }
    s.modPack pid fun p => { p with vc := a.vc, arrival := none }

/-- A copy arrives (R324). -/
def arriveCopy (s : State) (crew b : Nat) : State :=
  let x := barOf s crew b
  settleBar (setBar s crew b { x with arr := (x.arr + 1) % 2 ^ 16 }) crew b

/-! ### The instructions -/

/-- ILLOP 13, whose %tval no rule states. -/
def illop13 (c : Ctx) (x : W64) : Res := .trap (c.openTrap clsIllop 13 x)

def bariBody (n : Ctx → Pack → W64) (c : Ctx) (s : State) : Res :=
  let crew := s.curCrewId
  let b := c.e.d.toNat
  let k := n c s.curPack
  if b = 0 ∨ k = 0 ∨ 65535 < k.toNat then illop13 c k
  else .done (settleBar (setBar s crew b { barOf s crew b with exp := k.toNat }) crew b) 0

def execBari (e : Enc) (s : State) : Host.Outcome State Fault Refusal :=
  issue (.bari e) e (bariBody fun c p => c.e.lit.getD (rdS p (encB c.e))) s
def execBariImm (e : Enc) (s : State) : Host.Outcome State Fault Refusal :=
  issue (.bariImm e) e (bariBody fun c _ => BitVec.ofNat 64 c.e.b.toNat) s

/-- The barrier's number: a uniform register, or the immediate. -/
def barReg (c : Ctx) (p : Pack) : W64 := rdS p (encB c.e)
def barImmOf (c : Ctx) (_ : Pack) : W64 := BitVec.ofNat 64 c.e.b.toNat

/-- The spills of an arriving pack drain first, so that its crew sees them after the barrier (05 R140; 09 R265). -/
def drainOwn (s : State) (pid : Nat) : Except Stop State := drainPack s (s.coreOf (s.pack pid).crew) pid spillRoom

/-- barr. -/
def barrBody (n : Ctx → Pack → W64) (c : Ctx) (s : State) : Res :=
  let b := n c s.curPack
  if b = 0 ∨ 15 < b.toNat then illop13 c b
  else match drainOwn s s.cur with
  | .error e => resOf c s (.stop e)
  | .ok s => .done (settleBar (arrivePack s s.cur b.toNat) s.curCrewId b.toNat) 0

def execBarr (e : Enc) (s : State) : Host.Outcome State Fault Refusal := issue (.barr e) e (barrBody barReg) s
def execBarrImm (e : Enc) (s : State) : Host.Outcome State Fault Refusal := issue (.barrImm e) e (barrBody barImmOf) s

/-- A wait at barrier `b` (R332, R336). -/
def waitAt (s : State) (b : Nat) : Res :=
  if (barOf s s.curCrewId b).canConsume s.curPack.idx then .done (consumePhase s s.cur b) 0 else .wait s (.barrier b) []

/-- barw. -/
def barwBody (n : Ctx → Pack → W64) (c : Ctx) (s : State) : Res :=
  let b := n c s.curPack
  if b = 0 ∨ 15 < b.toNat then illop13 c b else waitAt s b.toNat

def execBarw (e : Enc) (s : State) : Host.Outcome State Fault Refusal := issue (.barw e) e (barwBody barReg) s
def execBarwImm (e : Enc) (s : State) : Host.Outcome State Fault Refusal := issue (.barwImm e) e (barwBody barImmOf) s

/-- barx: the only one that may name b0. -/
def barxBody (n : Ctx → Pack → W64) (c : Ctx) (s : State) : Res :=
  let b := n c s.curPack
  if 15 < b.toNat then illop13 c b
  else match drainOwn s s.cur with
  | .error e => resOf c s (.stop e)
  | .ok s =>
    let a := arrivalOf s s.cur b.toNat
    let s := (arrivePack s s.cur b.toNat).modPack s.cur fun p => { p with arrival := some a }
    waitAt (settleBar s s.curCrewId b.toNat) b.toNat

def execBarx (e : Enc) (s : State) : Host.Outcome State Fault Refusal := issue (.barx e) e (barxBody barReg) s
def execBarxImm (e : Enc) (s : State) : Host.Outcome State Fault Refusal := issue (.barxImm e) e (barxBody barImmOf) s

/-! ### The checkpoint (R335; 07 R208; 15 R453) -/

/-- Every pack that has not ended waits at b0, and no copy or tile operation of the crew is under way. -/
def checkpointDue (s : State) (crew : Nat) : Bool :=
  let c := s.crew crew
  let live := c.packs.filter fun p => (s.pack p).live
  c.live && c.phase == .placed && !live.isEmpty && live.all (fun p => (s.pack p).wait.kind == .barrier 0)
    && !(s.copies.any fun x => x.2.live && x.2.crew == crew)
    && c.st.tiles.all fun t => t.2.fill == 0 && t.2.drain == 0

/-- The pack, or the lowest-numbered one of its crew that has not ended in its place (16 R482). -/
def standIn (s : State) (pid : Nat) : Nat :=
  if (s.pack pid).live then pid
  else (((s.crew (s.pack pid).crew).packs.find? fun p => (s.pack p).live)).getD pid

/-- A pack takes a trap at its barx b0, and its arrival is withdrawn (16 R480). -/
def trapAtB0 (s : State) (pid0 cls sub : Nat) (val : W64) : State :=
  let pid := standIn s pid0
  let p := s.pack pid
  if p.live then
    takeTrap (withdrawArrival s pid 0) pid (packPc p) p.wait.size ⟨cls, sub, val, p.sel⟩
  else s

/-- Packs whose commit differs from its record, with the trap (16 R480). -/
def mismatches (s : State) (crew : Nat) : List (Nat × Nat × Nat × W64) :=
  (s.crew crew).packs.filterMap fun p =>
    if (s.pack p).progress.sent then none
    else match commitEntry s p with
    | .error (.trap cls sub val) => if cls = clsDivg then some (p, cls, sub, val) else none
    | _ => none

/-- The phase of b0 completes: commits, the checkpoint, and the packs go on. -/
def takeCheckpoint (s : State) (crew : Nat) : State :=
  let bad := mismatches s crew
  if !bad.isEmpty then bad.foldl (fun s x => trapAtB0 s x.1 x.2.1 x.2.2.1 x.2.2.2) s
  else
    match commitAll s (s.crew crew).packs with
    | .error (p, .trap cls sub val) => trapAtB0 s p cls sub val
    | .error (_, .gate _ s) => s
    | .error (_, .sent s) => s
    | .error (_, .lost) => crewAbort s crew 9 0 0 0
    | .ok s =>
      let lid := (s.crew crew).launch
      let s := freeMarked s lid crew
      let x := barOf s crew 0
      let s := wakeBar (setBar s crew 0 { x with arr := 0, cmp := (x.cmp + 1) % 2 ^ 32 }) crew 0
      recordCheckpoint s crew

end Sys2Proof.Machine
end

