-- ==== Sys2Proof/Machine/Fetch.lean ====
section
/-! DEFINITION. Instruction fetch (02 R33, R34; 08 R227), the order in which packs issue (04 R97 to R100), and how a given
instruction is put where the machine fetches next. -/

namespace Sys2Proof.Machine

/-! ### Who issues (04 R99) -/

/-- A pack or fox slot that could issue: its core, class, order of placement and slot. -/
structure Cand where
  id : Nat
  core : Nat
  cls : Nat
  order : Nat
  slot : Nat
  deriving DecidableEq, Repr

/-- Packs that hold a slot and do not wait. -/
def packCands (s : State) : List Cand :=
  s.packs.filterMap fun x =>
    let c := s.crew x.2.crew
    if x.2.live && x.2.wait.kind == .none && c.phase == .placed && x.2.sel ≠ 0 then
      some ⟨x.1, c.core, if x.2.starved then 4 else (s.launch x.2.launch).prio, x.2.order + 1, x.2.slot⟩
    else none

/-- Running fox slots: each issues as the oldest pack of its crew's class (11 R342). -/
def foxCands (s : State) : List Cand :=
  s.crews.filterMap fun x =>
    if x.2.live && x.2.phase == .placed && x.2.st.fox.status == .running && x.2.st.fox.fault.isNone
        && x.2.st.fox.wait == .none then
      some ⟨foxBase + x.1, x.2.core, (s.launch x.2.launch).prio, 0, 32⟩
    else none

/-- Whether one candidate goes before another on a core. -/
def Cand.before (a b : Cand) : Bool :=
  b.cls < a.cls || (a.cls == b.cls && (a.order < b.order || (a.order == b.order && a.slot < b.slot)))

/-- The candidate that a core chooses. -/
def bestCand : List Cand → Option Cand
  | [] => none
  | c :: l => match bestCand l with
    | none => some c
    | some d => if d.before c then some d else some c

/-- The next issuer: the chosen candidate of the first core, from the one whose turn it is, that has one; `ok` picks the
candidates.  A pack that has yielded comes after every other of its core (R118). -/
def nextIssuer (s : State) (ok : Cand → Bool) : Option Cand :=
  let l := (packCands s ++ foxCands s).filter ok
  let later := l.filter fun c => s.turn ≤ c.core
  let pool := if later.isEmpty then l else later
  match minNat (pool.map (·.core)) with
  | none => none
  | some k =>
    let here := pool.filter fun c => c.core == k
    let others := here.filter fun c => !s.yields.contains (c.id, false)
    bestCand (if others.isEmpty then here else others)

/-- Whether the arithmetic clock runs (17 R503, R504). -/
def clocksRun (s : State) : Bool := !s.power.therm

/-! ### Fetch -/

/-- What a fetch brings. -/
inductive Fetched where
  | instr (i : Instr) (s : State)
  | trap (t : Trap) (size : Nat)
  | pages (l : List PFault)
  | uce (sub : Nat)
  deriving DecidableEq, Repr

/-- One word at `va`, after the check of the code capability (R227) and the recall of what is gathered for its granule (10 R291). -/
def fetchWord (s : State) (crew : Nat) (va : Nat) : Except Fetched (State × List Byte) :=
  let c := s.crew crew
  let l := s.launch c.launch
  let pc : W64 := BitVec.ofNat 64 va
  if va < l.hdr.text ∨ l.hdr.text + l.hdr.textsz < va + 4 then .error (.trap ⟨clsCapv, 5, pc, 0⟩ 4)
  else
    match xlate s c.core l.asid va .fetch 0 with
    | .error code => .error (if replayable code then .pages [⟨0, l.asid, va, code⟩] else .trap ⟨clsXlate, code, pc, 0⟩ 4)
    | .ok x =>
      match s.spoiled x.pa with
      | some k => .error (.uce k)
      | none =>
        let s := recallGran (noteXlate s c.core l.asid va x) (x.pa / 64)
        .ok (s, s.rdBytes x.pa 4)

/-- The words from `va` on. -/
def fetchWords (s : State) (crew : Nat) : Nat → Nat → Except Fetched (State × List Byte)
  | 0, _ => .ok (s, [])
  | n + 1, va =>
    match fetchWord s crew va with
    | .error e => .error e
    | .ok (s, a) =>
      match fetchWords s crew n (va + 4) with
      | .error e => .error e
      | .ok (s, b) => .ok (s, a ++ b)

/-- A fetch failure as the pack sees it: %tepc and %tval hold pc, %tmask the issuing subset (R227). -/
def Fetched.at (f : Fetched) (pc : W64) (m : BitVec 64) (size : Nat) : Fetched :=
  match f with
  | .trap t _ => .trap { t with val := pc, mask := m } size
  | f => f

/-- Fetches and decodes the instruction at `pc`. -/
def fetch (s : State) (crew : Nat) (pc : W64) (m : BitVec 64) : Fetched :=
  match fetchWords s crew 1 pc.toNat with
  | .error e => e.at pc m 4
  | .ok (_, b0) =>
    let size := sizeOfL (leNat b0 % 4)
    match fetchWords s crew (size / 4) pc.toNat with
    | .error e => e.at pc m size
    | .ok (s, bs) =>
      match decode bs with
      | some (i, _) => .instr i s
      | none => .uce 1

/-- Issues the next instruction of a candidate with `run` as the meaning of instructions.  A deferred trap waits until the handler
of the pack has returned (15 R445). -/
def issueNext (run : Instr → State → Host.Outcome State Fault Refusal) (s : State) (c : Cand) :
    Host.Outcome State Fault Refusal :=
  let s := { s with cur := c.id, turn := c.core + 1 }
  let p := s.curPack
  let crew := s.curCrewId
  if ¬s.isFox ∧ p.deferred ≠ [] ∧ ¬p.save.inHandler ∧ ¬p.progress.sent then run (.deferredTrapDelivery c.id) s
  else
    let pc := packPc p
    match fetch s crew pc p.sel with
    | .instr i s => run i s
    | .trap t size =>
      let s := if t.cls = clsXlate then recordFatal s [⟨0, (s.launch (s.crew crew).launch).asid, pc.toNat, t.sub⟩] 2 else s
      .next (if s.isFox then foxFault s crew t else takeTrap s c.id pc size t)
    | .pages l =>
      match pageWait s l 2 with
      | .wait s k fs =>
        .next (if s.isFox then s.modSt crew fun st => { st with fox := { st.fox with wait := k } } else waitPack s c.id 4 k fs)
      | _ => .next s
    | .uce k => .next (consumeUce s crew k)

/-! ### Placing one instruction where the machine fetches next -/

/-- Where withFetchWord puts the code, virtual and physical. -/
def probeText : Nat := 0x10000
/-- Where it puts the level-3 table. -/
def probeRoot : Nat := 0x200000

/-- A launch of one crew of one pack of 16 threads, over the code at `probeText`. -/
def probeLaunch : Launch :=
  { Launch.blank with
    live := true
    asid := 1
    gangs := 1
    nextGang := 1
    hdr := { Header.blank with
      entry := probeText, text := probeText, textsz := 4096, pwl := 4, nf := 6, widths := [4, 0, 0, 0, 0, 0], packs := 1
      prod := 0xFF, c2 := 1, c3 := 1, c4 := 1, c5 := 1, bver := 3, extent := 16 } }

def probePack : Pack :=
  { Pack.blank with
    live := true
    width := 16
    sel := maskOf (List.range 16)
    threads := List.replicate 16 { Thread.blank with pc := BitVec.ofNat 64 probeText, exited := false }
    hash := hashInit
    rng := 1
    starved := true }

def probeCrew : Crew := { Crew.blank with live := true, phase := .placed, packs := [0] }
def probeGang : Gang := { Gang.blank with live := true, cluster := some 0, crews := [0] }
def probeTroop : Troop := { Troop.blank with live := true, sett := some 0, gangs := [0] }

/-- The state with `bs` as the next instruction: a program is loaded, its one pack stands at it, and nothing else is due. -/
def State.withCode (s : State) (bs : List Byte) : State :=
  let s := ({ s with
    bar0 := { s.bar0 with ready := true }
    power := { s.power with therm := false }
    launches := Tab.set Launch.blank s.launches 0 probeLaunch
    troops := Tab.set Troop.blank s.troops 0 probeTroop
    gangs := Tab.set Gang.blank s.gangs 0 probeGang
    crews := Tab.set Crew.blank s.crews 0 probeCrew
    packs := Tab.set Pack.blank s.packs 0 probePack
    utlb := Tab.set [] s.utlb 0 []
    tlb := Tab.set [] s.tlb 0 []
    stalled := []
    yields := []
    turn := 0
    tick := 0
    agenda := [] } : State)
  let s := s.wrBytes probeText bs
  let s := s.wrBytes (s.bar0.asidt.toNat + 16) (leBytes (probeRoot + 1) 16)
  s.wrBytes probeRoot (leBytes 0xF 8)

end Sys2Proof.Machine
end

