-- ==== Sys2Proof/Machine/Lanes.lean ====
section
/-! DEFINITION. Special registers, predicates and votes, and the cross-lane instructions (04 R120 to R130). -/

namespace Sys2Proof.Machine

/-- A uniform or literal operand in the B field. -/
def rdUniB (p : Pack) (e : Enc) (n : Nat) : Nat :=
  match e.lit with
  | some l => l.toNat % 2 ^ n
  | none => (rdS p (encB e)).toNat % 2 ^ n

/-! ### Special registers (R120, R121) -/

/-- A per-thread register: %wid, %lane or %fflags. -/
def srThreadVal (p : Pack) (n t : Nat) : Nat :=
  match n with
  | 0 => (p.wid.toNat + t) % 2 ^ 64
  | 1 => t
  | _ => (packThread p t).fflags.toNat

/-- %clock: in Free mode a count of clock cycles, of which the manual gives no value; else the instructions the pack has issued,
this one among them (R121). -/
def clockVal (s : State) (p : Pack) : W64 :=
  if (s.launch p.launch).hdr.dmode = 0 then Config.clock s.fresh else BitVec.ofNat 64 (p.issues + 1)

/-- A per-pack register. -/
def srPackVal (s : State) (p : Pack) (n : Nat) : W64 :=
  let h := (s.launch p.launch).hdr
  match n with
  | 2 => BitVec.ofNat 64 p.width
  | 3 => p.sel
  | 5 => p.fenv.setWidth 64
  | 6 => p.rm.setWidth 64
  | 7 => p.slb.setWidth 64
  | 8 => p.sflag.setWidth 64
  | 9 => BitVec.ofNat 64 h.dmode
  | 10 => Config.capList.setWidth 64
  | 11 => clockVal s p
  | 12 => p.tepc
  | 13 => p.tcause.setWidth 64
  | 14 => p.tmask
  | 15 => p.tval
  | 16 => BitVec.ofNat 64 h.bver
  | _ => p.rng

/-- Whether a matrix instruction of a pack has not completed (12 R381). -/
def packMatBusy (s : State) (pid : Nat) : Bool := s.seqs.any fun x => x.2.any fun o => o.pack == pid

def srdBody (c : Ctx) (s : State) : Res :=
  let p := s.curPack
  let n := c.e.b.toNat
  if (n = 7 ∨ n = 8) ∧ packMatBusy s s.cur then .stall s
  else if srThread n then
    let wr (q : Pack) (t : Nat) : Pack :=
      if srWide n then wrV64 q (encD c.e) t (srThreadVal p n t) else wrV q (encD c.e) t (srThreadVal p n t)
    .done (s.setCur ((lanesOf c.m p.width).foldl wr p)) 0
  else
    let s := if n = 11 then { s with fresh := s.fresh + 1 } else s
    .done (s.setCur (wrS p c.e.d.toNat (srPackVal s p n))) 0

def execSrd (e : Enc) (s : State) : Host.Outcome State Fault Refusal := issue (.srd e) e srdBody s

/-- Whether a value lies in the range of a writable special register. -/
def swrOk (n v : Nat) : Bool :=
  match n with
  | 4 => v < 32
  | 5 => bits v 5 3 == 0 && v / 2048 == 0 && bits v 8 3 ≤ 4
  | 6 => v ≤ 4
  | _ => true

def swrBody (c : Ctx) (p : Pack) : Except Trap Pack :=
  let n := c.e.b.toNat
  if n = 4 then
    let l := (lanesOf c.m p.width).map fun t => (t, rdV p (encA c.e) t)
    match l.find? fun x => !swrOk n x.2 with
    | some x => .error (c.openTrap clsIllop 13 (BitVec.ofNat 64 x.2))
    | none => .ok (l.foldl (fun q x => packModThread q x.1 fun th => { th with fflags := BitVec.ofNat 5 x.2 }) p)
  else
    let v := rdS p (encA c.e)
    if !swrOk n v.toNat then .error (c.openTrap clsIllop 13 v)
    else match n with
      | 5 => .ok { p with fenv := v.setWidth 32 }
      | 6 => .ok { p with rm := v.setWidth 32 }
      | _ => .ok { p with rng := rngNonzero v }

def execSwr (e : Enc) (s : State) : Host.Outcome State Fault Refusal := issue (.swr e) e (onPack swrBody) s

/-! ### Votes and predicates (R122 to R124, R130) -/

/-- The threads of the execution mask whose pA is set. -/
def voters (c : Ctx) (p : Pack) : List Nat := (lanesOf c.m p.width).filter fun t => rdP p (encA c.e) t

/-- Writes pD in every thread of the execution mask. -/
def wrPAll (c : Ctx) (p : Pack) (f : Nat → Bool) : Pack :=
  ((lanesOf c.m p.width).map fun t => (t, f t)).foldl (fun q x => wrP q (encD c.e) x.1 x.2) p

def execVoteAll (e : Enc) (s : State) : Host.Outcome State Fault Refusal :=
  issue (.voteAll e) e (onPack fun c p =>
    .ok (wrPAll c p fun _ => (voters c p).length == (lanesOf c.m p.width).length)) s
def execVoteAny (e : Enc) (s : State) : Host.Outcome State Fault Refusal :=
  issue (.voteAny e) e (onPack fun c p => .ok (wrPAll c p fun _ => !(voters c p).isEmpty)) s
def execVoteBallot (e : Enc) (s : State) : Host.Outcome State Fault Refusal :=
  issue (.voteBallot e) e (onPack fun c p => .ok (wrS p c.e.d.toNat (maskOf (voters c p)))) s

def execPfn (e : Enc) (s : State) : Host.Outcome State Fault Refusal :=
  issue (.pfn e) e (onPack fun c p =>
    .ok (wrPAll c p fun t =>
      bitAt (encImm c.e) (bit (rdP p (encA c.e) t) + 2 * bit (rdP p (encB c.e) t) + 4 * bit (rdP p (encC c.e) t)))) s

/-- The predicates of a thread as a word, bit 7 set (R124). -/
def predWord (p : Pack) (t : Nat) : Nat := ((packThread p t).preds ||| 0x80).toNat

def pmovBody (c : Ctx) (p : Pack) : Except Trap Pack :=
  match encMod c.e with
  | 0 => .ok (wrPAll c p fun t => rdP p (encA c.e) t)
  | 1 => .ok (laneRegs c (fun t => [(encD c.e, predWord p t)]) p)
  | _ => .ok (((lanesOf c.m p.width).map fun t => (t, rdV p (encA c.e) t)).foldl
      (fun q x => packModThread q x.1 fun th => { th with preds := BitVec.ofNat 16 x.2 ||| 0x80 }) p)

def execPmov (e : Enc) (s : State) : Host.Outcome State Fault Refusal := issue (.pmov e) e (onPack pmovBody) s

def execActv (e : Enc) (s : State) : Host.Outcome State Fault Refusal :=
  issue (.actv e) e (onPack fun c p =>
    .ok (wrS p c.e.d.toNat (maskOf ((List.range p.width).filter fun t => !(packThread p t).exited)))) s

/-! ### Shuffles and broadcasts (R125, R126) -/

/-- Each thread of the execution mask takes vA of thread `src t`, where that thread is in the mask, else its own;
the number is taken in sint(64), which wraps. -/
def shuffle (c : Ctx) (p : Pack) (src : Nat → Int) : Except Trap Pack :=
  let n := typeBits (encTy c.e 9)
  laneInt c n false (fun j =>
    let k := toS 64 (ofI 64 (src j.t))
    let from_ := if 0 ≤ k ∧ k < p.width ∧ c.m.getLsbD k.toNat then k.toNat else j.t
    rdSrc p (srcA c.e) n from_ 0 0) p

/-- The amount of an RI form. -/
def immAmount (e : Enc) : Nat := e.b.toNat

def execShflIdx (e : Enc) (s : State) : Host.Outcome State Fault Refusal :=
  issue (.shflIdx e) e (onPack fun c p => shuffle c p fun t => toS 32 (rdSrc p (srcB c.e) 32 t 0 0)) s
def execShflIdxImm (e : Enc) (s : State) : Host.Outcome State Fault Refusal :=
  issue (.shflIdxImm e) e (onPack fun c p => shuffle c p fun _ => (immAmount c.e : Int)) s
def execShflUp (e : Enc) (s : State) : Host.Outcome State Fault Refusal :=
  issue (.shflUp e) e (onPack fun c p => shuffle c p fun t => (t : Int) - (rdUniB p c.e 64 : Nat)) s
def execShflUpImm (e : Enc) (s : State) : Host.Outcome State Fault Refusal :=
  issue (.shflUpImm e) e (onPack fun c p => shuffle c p fun t => (t : Int) - (immAmount c.e : Nat)) s
def execShflDown (e : Enc) (s : State) : Host.Outcome State Fault Refusal :=
  issue (.shflDown e) e (onPack fun c p => shuffle c p fun t => (t : Int) + (rdUniB p c.e 64 : Nat)) s
def execShflDownImm (e : Enc) (s : State) : Host.Outcome State Fault Refusal :=
  issue (.shflDownImm e) e (onPack fun c p => shuffle c p fun t => (t : Int) + (immAmount c.e : Nat)) s
def execShflXor (e : Enc) (s : State) : Host.Outcome State Fault Refusal :=
  issue (.shflXor e) e (onPack fun c p => shuffle c p fun t => ((t ^^^ rdUniB p c.e 64 : Nat) : Int)) s
def execShflXorImm (e : Enc) (s : State) : Host.Outcome State Fault Refusal :=
  issue (.shflXorImm e) e (onPack fun c p => shuffle c p fun t => ((t ^^^ immAmount c.e : Nat) : Int)) s
def execBcst (e : Enc) (s : State) : Host.Outcome State Fault Refusal :=
  issue (.bcst e) e (onPack fun c p => shuffle c p fun _ => (rdUniB p c.e 64 : Int)) s
def execBcstImm (e : Enc) (s : State) : Host.Outcome State Fault Refusal :=
  issue (.bcstImm e) e (onPack fun c p => shuffle c p fun _ => (immAmount c.e : Int)) s

/-! ### Reductions (R127) -/

/-- The sources of the execution mask, in lane order. -/
def maskVals (c : Ctx) (p : Pack) (n : Nat) : List Nat :=
  (lanesOf c.m p.width).map fun t => rdSrc p (srcA c.e) n t 0 0

/-- lred of `vals` into sD; nothing under an all-zero mask. -/
def lredInt (dflt : Nat) (f : Nat → Nat → Nat → Nat → Nat) (c : Ctx) (p : Pack) : Except Trap Pack :=
  let ty := encTy c.e dflt
  let n := typeBits ty
  match maskVals c p n with
  | [] => .ok p
  | x :: l => .ok (wrS p c.e.d.toNat (uniExt (typeSigned ty) n (l.foldl (f ty n) x)))

/-- lred.min and lred.max: floating-point types follow fmin and fmax, with invalid in every thread when a source signals. -/
def lredMinMax (max : Bool) (c : Ctx) (p : Pack) : Except Trap Pack :=
  let ty := encTy c.e 3
  match laneFmt ty with
  | none =>
    lredInt 3 (fun ty n a b =>
      let le : Bool := if typeSigned ty then toS n a ≤ toS n b else a ≤ b
      if le == max then b else a) c p
  | some f =>
    let vals := maskVals c p (typeBits ty)
    match vals with
    | [] => .ok p
    | x :: l =>
      let fl : Fl := if vals.any fun v => (f.read v).isSig then NV else 0
      let fls := (lanesOf c.m p.width).map fun t => (t, fl)
      match fpeTrap p fls with
      | some t => .error t
      | none =>
        let r := l.foldl (fun a b => (fMinMax f max (encModBit c.e 0) a b).1) x
        .ok (raiseFlags (wrS p c.e.d.toNat (BitVec.ofNat 64 r)) fls)

def execLredAdd (e : Enc) (s : State) : Host.Outcome State Fault Refusal :=
  issue (.lredAdd e) e (onPack (lredInt 3 fun _ n a b => (a + b) % 2 ^ n)) s
def execLredMin (e : Enc) (s : State) : Host.Outcome State Fault Refusal :=
  issue (.lredMin e) e (onPack (lredMinMax false)) s
def execLredMax (e : Enc) (s : State) : Host.Outcome State Fault Refusal :=
  issue (.lredMax e) e (onPack (lredMinMax true)) s
def execLredAnd (e : Enc) (s : State) : Host.Outcome State Fault Refusal :=
  issue (.lredAnd e) e (onPack (lredInt 9 fun _ _ a b => a &&& b)) s
def execLredOr (e : Enc) (s : State) : Host.Outcome State Fault Refusal :=
  issue (.lredOr e) e (onPack (lredInt 9 fun _ _ a b => a ||| b)) s
def execLredXor (e : Enc) (s : State) : Host.Outcome State Fault Refusal :=
  issue (.lredXor e) e (onPack (lredInt 9 fun _ _ a b => a ^^^ b)) s

/-! ### The accumulation chain (R128) -/

/-- The exact sum of some values, rounded once to binary32. -/
def blockPartial (vals : List Nat) : Nat × Fl :=
  let vs := vals.map f32.read
  let infs := vs.filter FVal.isInf
  let both : Bool := infs.any FVal.neg && infs.any fun x => !x.neg
  if vs.any FVal.isNan then (f32.qnan, if both then NV else (nanResult f32 vs).2)
  else match infs with
    | x :: _ => if both then (f32.qnan, NV) else (f32.withSign x.neg f32.infCode, 0)
    | [] =>
      let zneg := vs.all fun v => v.isZero && v.neg
      roundDy f32 .rne false 0 zneg (vs.foldl (fun a v => a.add v.dy) ⟨0, 0⟩)

/-- chain(L): the partials of the blocks of 32 lanes, added in ascending order. -/
def laneChain (val : Nat → Nat) (lanes : List Nat) : Nat × Fl :=
  let parts := ((List.range 2).map fun b => lanes.filter fun t => t / 32 == b).filter fun l => !l.isEmpty
  match parts.map fun l => blockPartial (l.map val) with
  | [] => (0, 0)
  | x :: l => l.foldl (fun a y =>
      let z := fAdd f32 .rne a.1 y.1
      (z.1, a.2 ||| y.2 ||| z.2)) x

/-- Each thread of the mask takes the chain of the lanes that `sel` picks for it. -/
def chainBody (sel : Nat → Nat → Bool) (c : Ctx) (p : Pack) : Except Trap Pack :=
  let ls := lanesOf c.m p.width
  laneRegsFl c (fun t =>
    let r := laneChain (rdV p (encA c.e)) (ls.filter (sel t))
    ([(encD c.e, r.1)], r.2)) p

def execRadd (e : Enc) (s : State) : Host.Outcome State Fault Refusal :=
  issue (.radd e) e (onPack (chainBody fun _ _ => true)) s
def execRscanInc (e : Enc) (s : State) : Host.Outcome State Fault Refusal :=
  issue (.rscanInc e) e (onPack (chainBody fun t k => k ≤ t)) s
def execRscanExc (e : Enc) (s : State) : Host.Outcome State Fault Refusal :=
  issue (.rscanExc e) e (onPack (chainBody fun t k => k < t)) s

/-! ### Matches (R129) -/

def execMatchAny (e : Enc) (s : State) : Host.Outcome State Fault Refusal :=
  issue (.matchAny e) e (onPack fun c p =>
    let n := typeBits (encTy c.e 9)
    let val (t : Nat) := rdSrc p (srcA c.e) n t 0 0
    let ls := lanesOf c.m p.width
    laneInt c 64 false (fun j => (maskOf (ls.filter fun k => val k == val j.t)).toNat) p) s

def execMatchAll (e : Enc) (s : State) : Host.Outcome State Fault Refusal :=
  issue (.matchAll e) e (onPack fun c p =>
    let vals := maskVals c p (typeBits (encTy c.e 9))
    .ok (wrPAll c p fun _ => vals.all fun v => v == vals.headD 0)) s

end Sys2Proof.Machine
end

