-- ==== Sys2Proof/Machine/MatrixNum.lean ====
section
/-! DEFINITION. The numbers of the matrix arrays, the slicing path, the write-back and the block conversions (12 R361 to R377;
11 R321, R322). -/

namespace Sys2Proof.Machine

/-! ### Elements of a row (03 R67, R81) -/

/-- Element `k` of `w` bits of a row of bytes. -/
def rowElem (w : Nat) (row : List Byte) (k : Nat) : Nat :=
  leNat ((row.drop (k * w / 8)).take ((k * w % 8 + w + 7) / 8)) / 2 ^ (k * w % 8) % 2 ^ w

/-- Elements of `w` bits as bytes, the last byte filled with zeros. -/
def rowOfElems (w : Nat) (l : List Nat) : List Byte :=
  leBytes ((l.foldl (fun (x : Nat × Nat) y => (x.1 + y % 2 ^ w * 2 ^ (w * x.2), x.2 + 1)) (0, 0)).1) ((l.length * w + 7) / 8)

/-- The scale of block `b`: E8M0, or Ehi and Elo (R81); 2^0 for a plain format. -/
def blockScale (t : Nat) (sc : List Byte) (b : Nat) : Nat × Nat :=
  if typeDxb t then ((sc.getD (2 * b) 0).toNat, (sc.getD (2 * b + 1) 0).toNat)
  else if typeMx t then ((sc.getD b 0).toNat, 0)
  else (127, 0)

/-- Data bytes of one block of 32 elements. -/
def blockBytes (t : Nat) : Nat := 32 * typeBits t / 8

/-! ### Sums of products (12 R363) -/

/-- A product under fmul; a NaN is marked signalling when the product raises invalid. -/
def vMul (x y : FVal) : FVal :=
  if x.isNan || y.isNan then .nan false (x.isSig || y.isSig) 0
  else match x, y with
    | .num n m e, .num n' m' e' => .num (n != n') (m * m') (e + e')
    | _, _ => if x.isZero || y.isZero then .nan false true 0 else .inf (x.neg != y.neg)

/-- The exact sum of products, or the special value that R363 gives. -/
def vSum (l : List FVal) : FVal :=
  let pos := l.contains (.inf false)
  let neg := l.contains (.inf true)
  if l.any FVal.isNan || (pos && neg) then .nan false (l.any FVal.isSig || (pos && neg)) 0
  else if pos then .inf false
  else if neg then .inf true
  else
    let d := (l.map FVal.dy).foldl Dy.add ⟨0, 0⟩
    .num (decide (d.m < 0)) d.m.natAbs d.e

/-- Bits of the matrix flag word above the IEEE flags (R379). -/
def mfSusp : BitVec 16 := 0x20
def mfSat : BitVec 16 := 0x40
def mfSloss : BitVec 16 := 0x80
def mfSwin : BitVec 16 := 0x100
def mfBndf : BitVec 16 := 0x200
def mfBndc : BitVec 16 := 0x400

/-- Largest element magnitudes of R366. -/
def maxElem : Nat → Nat × Int
  | 0x0F => (448, 0)
  | 0x15 => (448, 0)
  | 0x10 => (57344, 0)
  | 0x16 => (57344, 0)
  | 0x17 => (28, 0)
  | 0x18 => (15, -1)
  | 0x19 => (6, 0)
  | 0x14 => (2, 0)
  | 0x01 => (128, 0)
  | 0x1C => (8, 0)
  | 0x1A => (63, -5)
  | _ => (3, -1)

/-- bexp of R366. -/
def suspectBound (ta tb sA sB : Nat) : Int :=
  let a := maxElem ta
  let b := maxElem tb
  (ceilLog2 (32 * a.1 * b.1) : Int) + a.2 + b.2 + sA + sB - 254

/-- One addend of an element's chain: its products, its bound where a block format takes part, and its half. -/
structure Partial where
  prods : List FVal
  bound : Option Int
  hi : Bool
  deriving DecidableEq, Repr

/-- The chains of an element: the two halves, the flags raised, and the suspect partials met. -/
structure Chain where
  lo : Nat
  hi : Nat
  fl : BitVec 16
  susp : Nat
  deriving DecidableEq, Repr

/-- An integer addition of a chain, clamped (R363). -/
def addI32 (x : Nat) (p : Int) : Nat × BitVec 16 :=
  let v := toS 32 x + p
  let c := clampI (-2147483648) 2147483647 v
  (ofI 32 c, if c = v then 0 else mfSat)

def ieee16 (f : Fl) : BitVec 16 := f.setWidth 16

/-- Whether a partial breaks its bound. -/
def suspect (p : Nat) (bound : Option Int) : Bool :=
  match bound, f32.read p with
  | some b, .num _ m e => m ≠ 0 && b < flog2 m 1 e
  | _, _ => false

/-- One partial joins its chain. -/
def chainStep (int v2 : Bool) (c : Chain) (p : Partial) : Chain :=
  let dst := if p.hi then c.hi else c.lo
  let (x, fl, k) : Nat × BitVec 16 × Nat :=
    if int then
      let d := (vSum p.prods).dy
      let (x, fl) := addI32 dst (d.m * 2 ^ d.e.toNat)
      (x, fl, 0)
    else
      let (q, f1) := narrow f32 (if v2 then .rtz else .rne) false 0 (vSum p.prods)
      let (r, f2) := fAdd f32 .rne dst q
      let bad := suspect q p.bound
      (r, ieee16 (f1 ||| f2) ||| (if bad then mfSusp else 0), bit bad)
  { c with lo := if p.hi then c.lo else x, hi := if p.hi then x else c.hi, fl := c.fl ||| fl, susp := c.susp + k }

/-- An element of the accumulator after mma, in `lo`. -/
def mmaElem (int v2 split : Bool) (acc : Nat) (l : List Partial) : Chain :=
  let c := l.foldl (chainStep int v2) ⟨acc, 0, 0, 0⟩
  if !split then c
  else if int then
    let (x, fl) := addI32 c.lo (toS 32 c.hi)
    { c with lo := x, fl := c.fl ||| fl }
  else
    let (x, fl) := fAdd f32 .rne c.lo c.hi
    { c with lo := x, fl := c.fl ||| ieee16 fl }

/-! ### Sparsity (R361) -/

/-- Live vectors of a map: all without sparsity. -/
def liveVectors (sp : Nat) (map : List (List Byte)) (vectors : Nat) : List Nat :=
  if sp = 0 then List.range vectors
  else
    let l := leNat ((map.headD []).take 8)
    (List.range vectors).filter fun v => bitAt l v

/-- Kept positions of a 32-element block of a column, with the place of each in the stored row: the vector's rank among the
live ones is `rank`. -/
def keptOf (sp : Nat) (mapRow : List Byte) (b rank : Nat) : List (Nat × Nat) :=
  if sp = 2 then
    let word := leNat ((mapRow.drop (8 * rank)).take 8)
    (List.range 8).flatMap fun g =>
      let j := b % 2 * 8 + g
      [(64 * (b / 2) + 4 * j + bits word (4 * j) 2, 32 * rank + 2 * j),
       (64 * (b / 2) + 4 * j + bits word (4 * j + 2) 2, 32 * rank + 2 * j + 1)]
  else (List.range 32).map fun i => (32 * b + i, 64 * rank + 32 * (b % 2) + i)

/-! ### mma (R363) -/

/-- The value of an A element, less its zero point where there is one. -/
def aValue (t code x lo : Nat) (z : Option Int) : FVal :=
  match z with
  | none => blockValue t code x lo
  | some z =>
    if t = 0x14 ∧ x = 0xFF then .nan false false 0
    else
      let d := toS 8 code - z
      .num (decide (d < 0)) d.natAbs (if t = 0x14 then (x : Int) - 127 - 6 else 0)

/-- What mma works with: types, shape, the group's sparsity and split, and the behaviour version. -/
structure MmaForm where
  ta : Nat
  tb : Nat
  vectors : Nat
  sp : Nat
  split : Bool
  v2 : Bool
  deriving DecidableEq, Repr

def MmaForm.int (f : MmaForm) : Bool := (f.ta = 1 || f.ta = 0x1C) && (f.tb = 1 || f.tb = 0x1C)

/-- Whether version 2's accumulation applies: FP8 and MXFP8 (R363). -/
def MmaForm.old (f : MmaForm) : Bool :=
  f.v2 && !f.int && [0x0F, 0x10, 0x15, 0x16].any fun t => f.ta == t || f.tb == t

/-- The partials of element (r, c): A's row and scales, B's row, scales and map row, the live vectors. -/
def mmaPartials (f : MmaForm) (arow asc brow bsc mapRow : List Byte) (live : List Nat) (z : Option Int) : List Partial :=
  (List.range (2 * f.vectors)).flatMap fun b =>
    match live.findIdx? (· == b / 2) with
    | none => []
    | some rank =>
      let sa := blockScale f.ta asc b
      let sb := blockScale f.tb bsc b
      let prod (k : Nat × Nat) : FVal :=
        vMul (aValue f.ta (rowElem (typeBits f.ta) arow k.1) sa.1 sa.2 z)
          (blockValue f.tb (rowElem (typeBits f.tb) brow k.2) sb.1 sb.2)
      let kept := keptOf f.sp mapRow b rank
      let bound := if scaleBytes f.ta ≠ 0 ∨ scaleBytes f.tb ≠ 0 then some (suspectBound f.ta f.tb sa.1 sb.1) else none
      let hi := f.split && (f.vectors + 1) / 2 ≤ b / 2
      if f.old then
        [⟨(kept.filter fun k => k.1 % 32 < 16).map prod, bound, hi⟩, ⟨(kept.filter fun k => 16 ≤ k.1 % 32).map prod, bound, hi⟩]
      else [⟨kept.map prod, bound, hi⟩]

/-! ### The slicing path (R369 to R372) -/

/-- The block exponent: the largest flgb of the finite nonzero elements. -/
def blockExp (l : List FVal) : Option Int :=
  l.foldl (fun a x =>
    match x with
    | .num _ m e => if m = 0 then a else
        match a with
        | none => some (flog2 m 1 e)
        | some b => some (max b (flog2 m 1 e))
    | _ => a) none

/-- The digits d(1) to d(s) of an element (R369). -/
def sliceDigits (s : Nat) (ex : Int) (x : FVal) : List Int :=
  let k := truncInt (x.dy.scale (7 * s - 1 - ex))
  (List.range s).map fun i =>
    let d : Nat := k.natAbs / 2 ^ (7 * (s - (i + 1))) % 128
    if k < 0 then -(d : Int) else d

/-- The kept part of a product, in units of 2^(eA + eB + 2 − 7(s + 1)). -/
def keptProduct (s : Nat) (da db : List Int) : Int :=
  (List.range s).foldl (fun a i =>
    (List.range (s - i)).foldl (fun a j => a + da.getD i 0 * db.getD j 0 * 2 ^ (7 * (s - 1 - i - j))) a) 0

/-- The register of R370 with its anchor, and what the element has lost so far. -/
structure Recomb where
  x : Int
  anc : Option Int
  loss : Bool
  win : Bool
  bnd : Option Int
  nb : Nat
  deriving DecidableEq, Repr

def finiteNonzero : FVal → Bool
  | .num _ m _ => m ≠ 0
  | _ => false

/-- One 64-element block of R370. -/
def recombBlock (s : Nat) (q : Recomb) (blk : List FVal × List FVal) : Recomb :=
  let pairs := blk.1.zip blk.2
  let kb := (pairs.filter fun x => finiteNonzero x.1 && finiteNonzero x.2).length
  match blockExp blk.1, blockExp blk.2 with
  | some ea, some eb =>
    if kb = 0 then q
    else
      let unit : Int := ea + eb + 2 - 7 * (s + 1)
      let kept := pairs.map fun x => (x, keptProduct s (sliceDigits s ea x.1) (sliceDigits s eb x.2))
      let p := kept.foldl (fun a x => a + x.2) 0
      let loss := kept.any fun x =>
        !x.1.1.isNan && !x.1.1.isInf && !x.1.2.isNan && !x.1.2.isInf &&
          (((x.1.1.dy.mul x.1.2.dy).sub ⟨x.2, unit⟩).m != 0)
      let bnd : Int := ea + eb + 2 - 7 * s + ceilLog2 (s + 1) + ceilLog2 kb
      let (anc, x, w1) : Int × Int × Bool :=
        match q.anc with
        | none => (ea + eb, q.x, false)
        | some a =>
          if a < ea + eb then
            let d := (ea + eb - a).toNat
            (ea + eb, q.x / (2 ^ d : Nat), q.x % (2 ^ d : Nat) ≠ 0)
          else (a, q.x, false)
      let t : Dy := ⟨p, unit - (anc - 304)⟩
      let (f, exact) := roundInt .rdn 0 t
      ⟨x + f, some anc, q.loss || loss, q.win || w1 || !exact, some (match q.bnd with
        | none => bnd
        | some b => max b bnd), q.nb + 1⟩
  | _, _ => q

/-- What an element of mms gives: its code, IEEE flags, loss and window bits, and the bound L. -/
structure MmsOut where
  code : Nat
  fl : Fl
  loss : Bool
  win : Bool
  bound : Option Int
  deriving DecidableEq, Repr

/-- The special value of R371, if any. -/
def mmsSpecial (f : Fmt) (a b : List FVal) (old : Option FVal) : Option (Nat × Fl) :=
  let prods := (a.zip b).map fun x =>
    if x.1.isNan || x.2.isNan then FVal.num false 0 0 else vMul x.1 x.2
  let infs := (prods.filter FVal.isInf) ++ (old.toList.filter FVal.isInf)
  let nans := (a ++ b ++ old.toList).filter FVal.isNan
  let both := infs.contains (.inf false) && infs.contains (.inf true)
  let bad := prods.any FVal.isNan
  let fl : Fl := if nans.any FVal.isSig || bad || both then NV else 0
  if !nans.isEmpty || bad || both then some (f.qnan, fl)
  else match infs with
    | x :: _ => some (f.withSign x.neg f.infCode, 0)
    | [] => none

/-- One element of mms: rows A and B as values, the old value with .acc. -/
def mmsElem (f : Fmt) (s : Nat) (md : RMode) (a b : List FVal) (old : Option FVal) : MmsOut :=
  let start : Recomb :=
    match old with
    | some (.num n m e) =>
      if m = 0 then ⟨0, none, false, false, none, 0⟩
      else
        let anc := flog2 m 1 e - 7
        ⟨(roundInt .rdn 0 ((FVal.num n m e).dy.scale (304 - anc))).1, some anc, false, false, none, 0⟩
    | _ => ⟨0, none, false, false, none, 0⟩
  let blocks := (List.range (a.length / 64)).map fun j => ((a.drop (64 * j)).take 64, (b.drop (64 * j)).take 64)
  let q := blocks.foldl (recombBlock s) start
  let v : Dy := match q.anc with
    | none => ⟨0, 0⟩
    | some anc => ⟨q.x, anc - 304⟩
  let (code, fl) := (mmsSpecial f a b old).getD (roundDy f md false 0 (md == .rdn) v)
  let bound := q.bnd.map fun m =>
    let l : Int := m + ceilLog2 q.nb
    let w : Int := q.anc.getD 0
    if q.win then max l (w - 296) + 1 else l
  ⟨code, fl, q.loss, q.win, bound⟩

/-! ### Write-back (R373 to R375) -/

/-- f2i of a value already read (06 R185), without .x. -/
def toInteger (md : RMode) (n : Nat) (v : FVal) : Nat × Fl :=
  let lo : Int := -((2 ^ (n - 1) : Nat) : Int)
  let hi : Int := (2 ^ (n - 1) : Nat) - 1
  match v with
  | .nan .. => (0, NV)
  | .inf ng => (ofI n (if ng then lo else hi), NV)
  | .num .. =>
    let (i, _) := roundInt md 0 v.dy
    if i < lo then (ofI n lo, NV) else if hi < i then (ofI n hi, NV) else (ofI n i, 0)

/-- The value of an accumulator element of type .i32 or .f32. -/
def accValue (ty x : Nat) : FVal :=
  if ty = 3 then .num (decide (toS 32 x < 0)) (toS 32 x).natAbs 0 else f32.read x

/-- A value in type T (R373). -/
def toType (t : Nat) (md : RMode) (sat : Bool) (v : FVal) : Nat × Fl :=
  if t = 3 || t = 1 then toInteger md (typeBits t) v else narrow ((elemFmt t).getD f32) md sat 0 v

def FVal.scale : FVal → Int → FVal
  | .num n m e, k => .num n m (e + k)
  | v, _ => v

/-- The value of a code of type T. -/
def ofType (t x : Nat) : FVal :=
  if t = 3 || t = 1 then .num (decide (toS (typeBits t) x < 0)) (toS (typeBits t) x).natAbs 0
  else ((elemFmt t).getD f32).read x

/-- a < b as real numbers, infinities included; a NaN compares with nothing. -/
def realLt (x y : FVal) : Bool :=
  if x.isNan || y.isNan then false
  else match x, y with
    | .inf n, .inf m => n && !m
    | .inf n, _ => n
    | _, .inf m => !m
    | _, _ => x.dy.lt y.dy

/-- A limit of a bound entry (15 R451). -/
def boundValue (kind : Nat) (w : W64) : FVal :=
  if kind = 2 then .num (decide (w.toInt < 0)) w.toInt.natAbs 0 else f64.read w.toNat

/-- What a bound entry does to a converted value (R375): the value written, its flag bits, and whether it violates. -/
def boundCheck (t : Nat) (b : BoundEntry) (x : Nat) : Nat × BitVec 16 × Bool :=
  let y := ofType t x
  let low := boundValue b.kind b.low
  let high := boundValue b.kind b.high
  if b.kind = 0 then (x, 0, false)
  else if y.isNan || realLt y low || realLt high y then
    if b.action = 0 then (x, mfBndf, true)
    else if b.action = 1 then ((toType t .rne false (if realLt high y then high else low)).1, mfBndc, true)
    else (x, 0, true)
  else (x, 0, false)

/-- One element of macc: the value, the flags of the conversion, and what the bound does. -/
def maccElem (src t : Nat) (n : Int) (md : RMode) (sat : Bool) (b : Option BoundEntry) (x : Nat) :
    Nat × Fl × BitVec 16 × Bool :=
  let (y, fl) := toType t md sat ((accValue src x).scale n)
  match b with
  | none => (y, fl, 0, false)
  | some b => let (z, bf, bad) := boundCheck t b y; (z, fl, bf, bad)

/-! ### Block conversions (11 R321, R322; 12 R377) -/

/-- The scale word of a block (R321): the qscl word of its largest magnitude, a NaN or infinity giving the NaN scale. -/
def blockWord (t : Nat) (xs : List FVal) : Nat × Fl :=
  if xs.any fun v => v.isNan || v.isInf then (if typeDxb t then 0xFFFF else 0xFF, NV)
  else
    let a := xs.foldl (fun (a : Dy) v => if a.lt v.dy.abs then v.dy.abs else a) ⟨0, 0⟩
    let (w, fl) := scaleWordOf t false a
    (dxbWord t w, fl)

/-- One block of up to 32 elements: the scale word, the codes padded with zeros, and each element's flags. -/
def quantBlock (t : Nat) (md : RMode) (sat : Bool) (xs : List FVal) : (Nat × Fl) × List (Nat × Fl) :=
  let w := blockWord t xs
  (w, (xs.map fun v => encodeElem t (some (ScaleWord.ofNat w.1)) md sat 0 v) ++ List.replicate (32 - xs.length) (0, 0))

/-- The scale bytes of a word (R321). -/
def scaleBytesOf (t w : Nat) : List Byte := leBytes w (scaleBytes t)

/-- Blocks of 32 of a list. -/
def chunks32 {α : Type} (l : List α) : List (List α) :=
  (List.range ((l.length + 31) / 32)).map fun b => (l.drop (32 * b)).take 32

/-- A row quantised: data bytes, scale bytes, the flags of each element, and those of the scale words. -/
def quantRow (t : Nat) (md : RMode) (sat : Bool) (xs : List FVal) : List Byte × List Byte × List Fl × Fl :=
  let bs := (chunks32 xs).map (quantBlock t md sat)
  (rowOfElems (typeBits t) (bs.flatMap fun b => b.2.map (·.1)), bs.flatMap (fun b => scaleBytesOf t b.1.1),
    bs.flatMap (fun b => b.2.map (·.2)), bs.foldl (fun a b => a ||| b.1.2) 0)

/-- A row expanded: `n` elements of type `d` with the flags of each. -/
def expandRow (t d : Nat) (md : RMode) (sat : Bool) (data sc : List Byte) (n : Nat) : List (Nat × Fl) :=
  (List.range n).map fun k =>
    let s := blockScale t sc (k / 32)
    narrow ((elemFmt d).getD f32) md sat 0 (blockValue t (rowElem (typeBits t) data k) s.1 s.2)

end Sys2Proof.Machine
end

