-- ==== Sys2Proof/Machine/Matrix.lean ====
section
/-! DEFINITION. The matrix instructions as they issue: shapes, checks, the macro records and the sequencer's queue, and the
instructions that act at issue (12 R350 to R382). -/

namespace Sys2Proof.Machine

/-! ### The shape word (R356) -/

def shapeKs (w : Nat) : Nat := bits w 32 16
def shapeKb0 (w : Nat) : Nat := bits w 16 16
def shapeNg (w : Nat) : Nat := bits w 10 3
def shapeKv (w : Nat) : Nat := bits w 4 6
def shapeMg (w : Nat) : Nat := bits w 0 4
def shapeM (w : Nat) : Nat := 16 * (shapeMg w + 1)
def shapeN (w : Nat) : Nat := 64 * (shapeNg w + 1)
/-- 64-element K vectors. -/
def shapeVecs (w : Nat) : Nat := shapeKv w + 1
def shapeK (w : Nat) : Nat := 64 * shapeVecs w
/-- A nonzero RZ field. -/
def shapeBad (w : Nat) : Bool := bits w 48 16 ≠ 0 || bits w 13 3 ≠ 0

/-! ### Tile checks (R357, R359) -/

/-- One tile that an instruction uses: the types it may have, whether it must lie in SPM1, the rows and row bytes it needs, and
whether it is written. -/
structure TileUse where
  h : Nat
  types : List Nat
  spm1 : Bool
  rows : Nat
  bytes : Nat
  write : Bool
  deriving DecidableEq, Repr

def TileUse.fits (u : TileUse) (t : Tile) : Bool :=
  (u.types.isEmpty || u.types.contains t.ty) && (!u.spm1 || t.space == 2) && u.rows ≤ t.rows && u.bytes ≤ t.rowBytes

/-- The CAPV or TILE trap of the tiles, if any. -/
def tileUseTrap (c : Ctx) (s : State) (crew : Nat) (l : List TileUse) : Option Trap :=
  match l.find? fun u => (tileAt s crew u.h).defined && (tileAt s crew u.h).perm &&& pmMatrix == 0 with
  | some u => some (c.openTrap clsCapv 4 (BitVec.ofNat 64 u.h))
  | none =>
    match l.find? fun u => !(tileAt s crew u.h).defined with
    | some u => some (c.trap clsTile 4 (BitVec.ofNat 64 u.h))
    | none => (l.find? fun u => !u.fits (tileAt s crew u.h)).map fun u => c.trap clsTile 7 (BitVec.ofNat 64 u.h)

/-- Granule accesses of a use. -/
def TileUse.accs (s : State) (crew : Nat) (u : TileUse) : List SAcc :=
  let t := tileAt s crew u.h
  (List.range u.rows).flatMap fun i =>
    (List.range ((u.bytes + 63) / 64)).map fun g =>
      ⟨granKey ((tileRow s crew t i).add (64 * g)), t.rowOff i + 64 * g, u.write, 0⟩

/-- Strict stamps of an operation's uses (16 R485). -/
def strictUses (s : State) (pid op crew : Nat) : List TileUse → Except Stop State
  | [] => .ok s
  | u :: l =>
    match strict s pid op (tileAt s crew u.h).colour (u.accs s crew) with
    | .error e => .error e
    | .ok s => strictUses s pid op crew l

/-! ### Macro records (R350 to R354) -/

/-- The crew's macro allotment. -/
def macroLimit (s : State) : Nat := s.curLaunch.hdr.macros

def macroTrap (c : Ctx) (sub m : Nat) : Trap := c.trap clsMacro sub (BitVec.ofNat 64 m)

/-- The checks of a group that an instruction uses, with its record. -/
def groupCheck (c : Ctx) (s : State) (m0 ty sl shape : Nat) : Except Trap MacroRec :=
  let g := crewMacro s.curCrew.st m0
  if macroLimit s ≤ m0 then .error (macroTrap c 1 m0)
  else if !g.loaded || g.base ≠ m0 then .error (macroTrap c 2 m0)
  else if g.ty ≠ ty || g.s ≠ sl then .error (macroTrap c 3 m0)
  else if g.kv ≠ shapeKv shape || g.ng ≠ shapeNg shape then .error (macroTrap c 4 m0)
  else .ok g

/-- RACE 3 in Strict mode (R354). -/
def groupRace (c : Ctx) (s : State) (g : MacroRec) : Option Trap :=
  let p := s.curPack
  if s.isStrict p.launch && g.loader ≠ p.idx && !orderedAfter s.curCrew.st p.idx g.larr then
    some (c.openTrap clsRace 3 (BitVec.ofNat 64 g.base))
  else none

/-- Whether a group that the checkpoint holds is lost: an uncorrectable error then aborts (R353). -/
def loseGroup (s : State) (crew : Nat) (ms : List Nat) : State :=
  if ms.any fun m => (crewMacro (s.crew crew).ck m).loaded then s.modCrew crew fun c => { c with exposed := true } else s

/-! ### The sequencer's queue (R367) -/

/-- Matrix instructions that a core's queue holds. -/
def seqRoom : Nat := 16

/-- A matrix instruction ready to issue into the queue: what it does, the tiles it uses, and the accumulator that may be
filling through the pack's own matrix instructions (R206). -/
structure MatPlan where
  kind : MatKind
  uses : List TileUse
  acc : Option Nat
  deriving DecidableEq, Repr

def MatPlan.reads (m : MatPlan) : List Nat := nubNat ((m.uses.filter fun u => !u.write).map (·.h))
def MatPlan.fills (m : MatPlan) : List Nat := nubNat ((m.uses.filter fun u => u.write).map (·.h))

/-- Whether the states of the tiles allow the instruction. -/
def MatPlan.tilesReady (m : MatPlan) (s : State) (crew pid : Nat) : Bool :=
  (m.reads.all fun h => m.fills.contains h || (tileAt s crew h).canRead) &&
    m.fills.all fun h => if m.acc = some h then (tileAt s crew h).canAccumulate pid else (tileAt s crew h).isReady

/-- The counts rise at issue (R205). -/
def raiseTiles (s : State) (crew who : Nat) (fills drains : List Nat) : State :=
  let s := fills.foldl (fun s h => modTile s crew h fun t => t.startFill who) s
  drains.foldl (fun s h => modTile s crew h Tile.startDrain) s

/-- The counts fall at completion. -/
def lowerTiles (s : State) (crew who : Nat) (fills drains : List Nat) : State :=
  let s := fills.foldl (fun s h => modTile s crew h fun t => t.endFill who) s
  drains.foldl (fun s h => modTile s crew h Tile.endDrain) s

/-- An instruction goes into the queue of the issuing pack's core. -/
def seqIssue (c : Ctx) (s : State) (m : MatPlan) : Res :=
  let crew := s.curCrewId
  let core := s.curCrew.core
  if !m.tilesReady s crew s.cur then tileStall s
  else if seqRoom ≤ (s.seq core).length then .stall (s.count ctrMxQfull core 1)
  else
    let (n, s1) := s.newId
    match strictUses (s1.setCur (observeTiles s1.curPack (m.fills ++ m.reads))) s.cur (matOp + n + 1) crew m.uses with
    | .error e => resOf c s (.stop e)
    | .ok s =>
      let s := raiseTiles s crew s.cur m.fills m.reads
      let op : MatOp := ⟨crew, s.cur, c.pc, m.kind, m.fills, m.reads, 0, none, matOp + n + 1⟩
      .done (s.setSeq core (s.seq core ++ [op])) 0

/-! ### mldb and mrel (R360 to R362) -/

/-- The scale tile of a block format. -/
def scaleUse (t h rows blocks : Nat) : List TileUse :=
  if scaleBytes t = 0 then []
  else [⟨h, [if scaleBytes t = 1 then 5 else 6], false, rows, blocks * scaleBytes t, false⟩]

/-- Bytes of a column in its macros (R360). -/
def mldbDepth (ty sl vecs kst : Nat) : Nat := if sl ≠ 0 then 64 * vecs * sl else kst * typeBits ty / 8

/-- The macros that a group takes: its column groups, and in K-split mode their upper halves. -/
def groupMacros (m0 g : Nat) (split : Bool) : List Nat :=
  (List.range g).map (· + m0) ++ if split then (List.range g).map (· + 4) else []

/-- The slice count: MOD, or the default of the type (R358). -/
def sliceCount (ty sl : Nat) : Nat :=
  if sl ≠ 0 then sl
  else match ty with
    | 0x0E => 8
    | 0x0D => 4
    | 0x0B => 2
    | 0x0C => 2
    | _ => 0

/-- The map row 0 of a sparse load, as the engine will read it. -/
def mapLive (s : State) (crew h vecs : Nat) : Nat :=
  let t := tileAt s crew h
  (liveVectors 1 [s.locBytes (tileRow s crew t 0) 8] vecs).length

/-- The MACRO trap of a load, if any. -/
def mldbTrap (c : Ctx) (s : State) (m0 : Nat) (ms : List Nat) (depth : Nat) : Option Trap :=
  match (sortNat ms).find? fun m => macroLimit s ≤ m with
  | some m => some (macroTrap c 1 m)
  | none =>
    match (sortNat ms).find? fun m => (crewMacro s.curCrew.st m).loaded with
    | some m => some (macroTrap c 2 m)
    | none => if 8192 < depth then some (macroTrap c 4 m0) else none

/-- The records of a load's macros. -/
def setRecords (s : State) (crew : Nat) (ms : List Nat) (g : MacroRec) : State :=
  s.modSt crew fun st => ms.foldl (fun st m => crewSetMacro st m g) st

def mldbBody (c : Ctx) (s : State) : Res :=
  let p := s.curPack
  let crew := s.curCrewId
  let ty := encTy c.e 0
  let w := (rdS p (encB c.e)).toNat
  let imm := encImm c.e
  let m0 := imm % 8
  let map := bits imm 3 6
  let sp := encMod c.e / 16
  let sl := sliceCount ty (encMod c.e % 16)
  let vecs := shapeVecs w
  if shapeBad w ∨ shapeMg w ≠ 0 then illop13 c (BitVec.ofNat 64 w)
  else
    let mt := tileAt s crew map
    let src := encA c.e
    let scale := encC c.e
    if sp ≠ 0 ∧ mt.defined ∧ !mt.canRead then tileStall s
    else
      let live := if sp = 0 then vecs else mapLive s crew map vecs
      let kst := if sp = 2 then 32 * live else 64 * live
      let n := shapeN w
      let uses : List TileUse :=
        ⟨src, [ty], false, n, kst * typeBits ty / 8, false⟩ :: scaleUse ty scale n (2 * vecs)
          ++ (if sp = 0 then [] else [⟨map, [0x0A], false, if sp = 2 then 1 + n else 1, 8 * max 1 live, false⟩])
      let depth := mldbDepth ty sl vecs kst
      let split := 1024 < depth && n ≤ 256 && m0 == 0 && macroLimit s == 8 && !bitAt imm 9
      let ms := groupMacros m0 (n / 64) split
      match (tileUseTrap c s crew uses).orElse fun _ => mldbTrap c s m0 ms depth with
      | some t => .trap t
      | none =>
        let g : MacroRec := ⟨true, m0, ty, sl, shapeKv w, shapeNg w, split, sp, shapeKb0 w, p.idx, []⟩
        let kind : MatKind := .mldb (some src) (if scaleBytes ty = 0 then none else some scale)
          (if sp = 0 then none else some map) ty sl w m0 sp split g
        match seqIssue c s ⟨kind, uses, none⟩ with
        | .done s left => .done (loseGroup (setRecords s crew ms g) crew ms) left
        | r => r

def execMldb (e : Enc) (s : State) : Host.Outcome State Fault Refusal := issue (.mldb e) e mldbBody s

/-- mrel empties the records of a group; what is queued keeps the group's contents (R362). -/
def mrelBody (c : Ctx) (s : State) : Res :=
  let crew := s.curCrewId
  let m0 := c.e.b.toNat
  let st := s.curCrew.st
  if 7 < m0 then illop13 c (BitVec.ofNat 64 m0)
  else if macroLimit s ≤ m0 then .trap (macroTrap c 1 m0)
  else if !(crewMacro st m0).loaded ∨ (crewMacro st m0).base ≠ m0 then .trap (macroTrap c 2 m0)
  else
    let ms := (List.range 8).filter fun m => (crewMacro st m).loaded && (crewMacro st m).base == m0
    .done (loseGroup (setRecords s crew ms MacroRec.blank) crew ms) 0

def execMrel (e : Enc) (s : State) : Host.Outcome State Fault Refusal := issue (.mrel e) e mrelBody s

/-! ### mma and mms: the checks of R359 -/

/-- The accumulator type of R355. -/
def accType (ta tb : Nat) : Nat := if (ta = 1 ∨ ta = 0x1C) ∧ (tb = 1 ∨ tb = 0x1C) then 3 else 0x0D

/-- The SCALE trap of R365, if any. -/
def scaleTrap (c : Ctx) (ta tb w : Nat) (g : MacroRec) : Option Trap :=
  let kb0 := shapeKb0 w % 16
  let tv (side got : Nat) : Trap := c.trap clsScale 1 (BitVec.ofNat 64 (side + kb0 * 16 + got % 16 * 256))
  if scaleBytes ta ≠ 0 && shapeKs w % 16 ≠ kb0 then some (tv 0 (shapeKs w))
  else if scaleBytes tb ≠ 0 && g.kb0b % 16 ≠ kb0 then some (tv 1 g.kb0b)
  else none

/-- The zero points of the rows (R363). -/
def zeroPoints (p : Pack) (anchor m : Nat) : List Int :=
  (List.range m).map fun r => toS 8 (rdV p (anchor + r / p.width) (r % p.width))

/-- The tiles of an mma (R357). -/
def mmaUses (acc a scale ta tb w : Nat) : List TileUse :=
  [⟨acc, [accType ta tb], true, shapeM w, 4 * shapeN w, true⟩, ⟨a, [ta], false, shapeM w, shapeK w * typeBits ta / 8, false⟩]
    ++ scaleUse ta scale (shapeM w) (2 * shapeVecs w)

/-- The tiles of an mms. -/
def mmsUses (out a ty w : Nat) : List TileUse :=
  [⟨out, [ty], true, shapeM w, shapeN w * typeBits ty / 8, true⟩, ⟨a, [ty], false, shapeM w, shapeK w * typeBits ty / 8, false⟩]

/-- The plan of an mma with first word `word`, encoding `e` and shape word `w`, or its trap. -/
def mmaPlan (c : Ctx) (s : State) (word : Nat) (e : Enc) (w : Nat) : Except Trap MatPlan :=
  let p := s.curPack
  let crew := s.curCrewId
  let ta := encTy e 0
  let tb := encMod e % 32
  let imm := encImm e
  let zp := encModBit e 5
  let m := shapeM w
  let acc := encD e
  let uses := mmaUses acc (encA e) (encC e) ta tb w
  if zp && 255 < imm % 256 + (m + p.width - 1) / p.width - 1 then
    .error (c.trap clsIllop 7 (BitVec.ofNat 64 word))
  else if shapeBad w then .error (c.openTrap clsIllop 13 (BitVec.ofNat 64 w))
  else
    match tileUseTrap c s crew uses with
    | some t => .error t
    | none =>
      match groupCheck c s (bits imm 8 3) tb 0 w with
      | .error t => .error t
      | .ok g =>
        match (scaleTrap c ta tb w g).orElse fun _ => groupRace c s g with
        | some t => .error t
        | none =>
          let z := if zp then some (zeroPoints p (imm % 256) m) else none
          .ok ⟨.mma acc (encA e) (encC e) ta tb w (bits imm 8 3) z (bitAt imm 11) g s.curLaunch.hdr.bver, uses, some acc⟩

/-- The code of the deterministic mode that an instruction rounds by (06 R169). -/
def rmCode (p : Pack) (e : Enc) : Nat := if (encX e).rm = 6 then p.rm.toNat else (encX e).rm.toNat

/-- The plan of an mms. -/
def mmsPlan (c : Ctx) (s : State) (e : Enc) (w : Nat) : Except Trap MatPlan :=
  let p := s.curPack
  let ty := encTy e 0
  let sl := sliceCount ty (encMod e % 16)
  let out := encD e
  let m0 := bits (encImm e) 8 3
  let acc := encModBit e 4
  let uses := mmsUses out (encA e) ty w
  if shapeBad w then .error (c.openTrap clsIllop 13 (BitVec.ofNat 64 w))
  else
    match tileUseTrap c s s.curCrewId uses with
    | some t => .error t
    | none =>
      match groupCheck c s m0 ty sl w with
      | .error t => .error t
      | .ok g =>
        match groupRace c s g with
        | some t => .error t
        | none => .ok ⟨.mms out (encA e) ty sl w m0 acc (rmCode p e) g, uses, if acc then some out else none⟩

/-- Issues a plan. -/
def planBody (plan : Ctx → State → Except Trap MatPlan) (c : Ctx) (s : State) : Res :=
  match plan c s with
  | .error t => .trap t
  | .ok m => seqIssue c s m

def shapeOf (c : Ctx) (s : State) : Nat := (rdS s.curPack (encB c.e)).toNat

def execMmaInt (e : Enc) (s : State) : Host.Outcome State Fault Refusal :=
  issue (.mmaInt e) e (planBody fun c s => mmaPlan c s (encodeFirst 0xC2 c.e) c.e (shapeOf c s)) s
def execMmaFloat (e : Enc) (s : State) : Host.Outcome State Fault Refusal :=
  issue (.mmaFloat e) e (planBody fun c s => mmaPlan c s (encodeFirst 0xC3 c.e) c.e (shapeOf c s)) s
def execMms (e : Enc) (s : State) : Host.Outcome State Fault Refusal :=
  issue (.mms e) e (planBody fun c s => mmsPlan c s c.e (shapeOf c s)) s

/-! ### macc (R373 to R375) -/

/-- The bound entry of .bnd. -/
def maccBound (s : State) (e : Enc) : Option BoundEntry :=
  if encModBit e 1 then some (Tab.get BoundEntry.unused s.curLaunch.bounds (encC e)) else none

/-- Element (r, c) of an accumulator tile. -/
def accElem (s : State) (crew : Nat) (t : Tile) (r c : Nat) : Nat :=
  leNat (s.locBytes ((tileRow s crew t r).add (4 * c)) 4)

/-- The first element, in row-major order, that takes the trap action of a bound. -/
def boundTrapAt (s : State) (crew : Nat) (t : Tile) (e : Enc) (md : RMode) (b : BoundEntry) : Option (Nat × Nat) :=
  let cols := t.rowBytes / 4
  if b.action = 2 then
    ((List.range (t.rows * cols)).find? fun i =>
      (maccElem t.ty (encTy e 0) (toS 8 (encImm e)) md (encModBit e 0) (some b) (accElem s crew t (i / cols) (i % cols))).2.2.2).map
        fun i => (i / cols, i % cols)
  else none

/-- BNDV (R375). -/
def bndvTrap (c : Ctx) (r col : Nat) : Trap := c.trap clsBndv (encC c.e) (BitVec.ofNat 64 (r * 2 ^ 32 + col))

def maccTileBody (c : Ctx) (s : State) : Res :=
  let crew := s.curCrewId
  let src := encA c.e
  let dst := encD c.e
  let ty := encTy c.e 0
  let t := tileAt s crew src
  let n := t.rowBytes / 4
  let uses : List TileUse :=
    [⟨src, [3, 0x0D], true, 0, 0, false⟩, ⟨dst, [ty], false, t.rows, n * typeBits ty / 8, true⟩]
  match tileUseTrap c s crew uses with
  | some t => .trap t
  | none =>
    let uses : List TileUse := [⟨src, [], true, t.rows, 4 * n, false⟩, ⟨dst, [], false, t.rows, n * typeBits ty / 8, true⟩]
    if !t.isReady then tileStall s
    else
      match (maccBound s c.e).bind (boundTrapAt s crew t c.e (rmOf s.curPack c.e)) with
      | some (r, col) => .trap (bndvTrap c r col)
      | none =>
        seqIssue c s ⟨.macc dst src ty (toS 8 (encImm c.e)) (encModBit c.e 0) (maccBound s c.e) (rmCode s.curPack c.e), uses, none⟩

def execMaccTile (e : Enc) (s : State) : Host.Outcome State Fault Refusal := issue (.maccTile e) e maccTileBody s

/-- One converted element of macc (regs): thread, register, row, column, value and flags. -/
structure MaccOut where
  t : Nat
  reg : Nat
  row : Nat
  col : Nat
  val : Nat
  fl : Fl
  bf : BitVec 16
  bad : Bool
  deriving DecidableEq, Repr

def maccOuts (c : Ctx) (s : State) (tile : Tile) (w : Nat) : List MaccOut :=
  let p := s.curPack
  let row0 := bits w 0 16
  let col0 := bits w 16 16
  (List.range ((encX c.e).bh.toNat + 1)).flatMap fun i =>
    (lanesOf c.m p.width).filterMap fun t =>
      if row0 + i < tile.rows && col0 + t < tile.rowBytes / 4 then
        let (y, fl, bf, bad) := maccElem tile.ty (encTy c.e 0) (toS 8 (encImm c.e)) (rmOf p c.e) (encModBit c.e 0) (maccBound s c.e)
          (accElem s s.curCrewId tile (row0 + i) (col0 + t))
        some ⟨t, encD c.e + 16 * i, row0 + i, col0 + t, y, fl, bf, bad⟩
      else none

/-- Bits of %sflag that a matrix flag word sets (R380). -/
def sflagOf (fl : BitVec 16) : W32 := (fl.setWidth 32 >>> 5) &&& 0x3F

/-- The registers, flags and %sflag after macc (regs). -/
def maccWrite (c : Ctx) (p : Pack) (l : List MaccOut) : Pack :=
  let q := l.foldl (fun q x => wrV q x.reg x.t x.val) p
  let q := raiseFlags q ((lanesOf c.m p.width).map fun t => (t, l.foldl (fun a x => if x.t = t then a ||| x.fl else a) 0))
  { q with sflag := q.sflag ||| sflagOf (l.foldl (fun a x => a ||| x.bf) 0) }

def maccRegsBody (c : Ctx) (s : State) : Res :=
  let p := s.curPack
  let crew := s.curCrewId
  let src := encA c.e
  let w := (rdS p (encB c.e)).toNat
  let t := tileAt s crew src
  if bits w 32 32 ≠ 0 then illop13 c (BitVec.ofNat 64 w)
  else
    match tileUseTrap c s crew [⟨src, [3, 0x0D], true, 0, 0, false⟩] with
    | some t => .trap t
    | none =>
      if t.fill ≠ 0 then tileStall s
      else
        let l := maccOuts c s t w
        let trapped : Bool := (maccBound s c.e).any fun b => b.action == 2
        match fpeTrap p ((lanesOf c.m p.width).map fun t => (t, l.foldl (fun a x => if x.t = t then a ||| x.fl else a) 0)) with
        | some t => .trap t
        | none =>
          match l.find? fun x => x.bad && trapped with
          | some x => .trap (bndvTrap c x.row x.col)
          | none =>
            match strict (s.setCur (observeTiles p [src])) s.cur 0 t.colour (nubNat (l.map fun x => (tileRow s crew t x.row).off + 4 * x.col - (4 * x.col) % 64) |>.map
                fun o => ⟨granKey (windowLoc s crew t.space o), o, false, 0⟩) with
            | .error e => resOf c s (.stop e)
            | .ok s => .done (s.setCur (maccWrite c s.curPack l)) 0

def execMaccRegs (e : Enc) (s : State) : Host.Outcome State Fault Refusal := issue (.maccRegs e) e maccRegsBody s

/-! ### mzero, mxq, mxdq and mtr (R376 to R378) -/

def mzeroBody (c : Ctx) (s : State) : Res :=
  let h := c.e.b.toNat
  let t := tileAt s s.curCrewId h
  let uses : List TileUse := [⟨h, [], false, t.rows, t.rowBytes, true⟩]
  match tileUseTrap c s s.curCrewId uses with
  | some t => .trap t
  | none => seqIssue c s ⟨.mzero h, uses, none⟩

def execMzero (e : Enc) (s : State) : Host.Outcome State Fault Refusal := issue (.mzero e) e mzeroBody s

/-- The lane type of mxq's source: MOD 0 means .f32. -/
def laneType (m : Nat) : Nat := if m = 0 then 0x0D else m

def scaleTy (t : Nat) : Nat := if scaleBytes t = 1 then 5 else 6

def mxqBody (c : Ctx) (s : State) : Res :=
  let ty := encTy c.e 0
  let st := laneType (encMod c.e % 32)
  let src := encA c.e
  let t := tileAt s s.curCrewId src
  let blocks := (t.rowBytes * 8 / typeBits st + 31) / 32
  let uses : List TileUse :=
    [⟨encD c.e, [ty], false, t.rows, blocks * blockBytes ty, true⟩, ⟨src, [st], false, t.rows, t.rowBytes, false⟩,
     ⟨encC c.e, [scaleTy ty], false, t.rows, blocks * scaleBytes ty, true⟩]
  match tileUseTrap c s s.curCrewId uses with
  | some t => .trap t
  | none =>
    seqIssue c s ⟨.mxq (encD c.e) src (encC c.e) ty st (encModBit c.e 5) (rmCode s.curPack c.e), uses, none⟩

def execMxq (e : Enc) (s : State) : Host.Outcome State Fault Refusal := issue (.mxq e) e mxqBody s

def mxdqBody (c : Ctx) (s : State) : Res :=
  let ty := encTy c.e 0
  let st := encMod c.e % 32
  let src := encA c.e
  let t := tileAt s s.curCrewId src
  let blocks := t.rowBytes / blockBytes st
  let uses : List TileUse :=
    [⟨encD c.e, [ty], false, t.rows, blocks * 32 * typeBits ty / 8, true⟩, ⟨src, [st], false, t.rows, t.rowBytes, false⟩,
     ⟨encC c.e, [scaleTy st], false, t.rows, blocks * scaleBytes st, false⟩]
  match tileUseTrap c s s.curCrewId uses with
  | some t => .trap t
  | none =>
    seqIssue c s ⟨.mxdq (encD c.e) src (encC c.e) ty st (encModBit c.e 5) (rmCode s.curPack c.e), uses, none⟩

def execMxdq (e : Enc) (s : State) : Host.Outcome State Fault Refusal := issue (.mxdq e) e mxdqBody s

/-- Types of an element width. -/
def typesOfWidth (w : Nat) : List Nat := (List.range 29).filter fun t => t ≠ 0 && typeBits t == w

def mtrBody (c : Ctx) (s : State) : Res :=
  let ty := encTy c.e 9
  let w := typeBits ty
  let src := encA c.e
  let t := tileAt s s.curCrewId src
  let uses : List TileUse :=
    [⟨encD c.e, typesOfWidth w, false, t.rowBytes / (w / 8), t.rows * w / 8, true⟩,
     ⟨src, typesOfWidth w, false, t.rows, t.rowBytes, false⟩]
  match tileUseTrap c s s.curCrewId uses with
  | some t => .trap t
  | none => seqIssue c s ⟨.mtr (encD c.e) src ty, uses, none⟩

def execMtr (e : Enc) (s : State) : Host.Outcome State Fault Refusal := issue (.mtr e) e mtrBody s

/-! ### mstat (R382) -/

/-- The loss bits of a row and 64 columns. -/
def lossWord (r : LossRec) (tile row cg : Nat) : Nat :=
  if r.valid && r.tile == tile then
    ((List.range 64).filter fun i => r.bits.contains (512 * row + 64 * cg + i)).foldl (fun a i => a + 2 ^ i) 0
  else 0

/-- The record word of local macro `m`. -/
def recordWord (g : MacroRec) (m : Nat) : Nat :=
  bit g.loaded + bit (g.loaded && g.base == m) * 2 + g.base * 4 + g.ty * 2 ^ 5 + g.s * 2 ^ 10 + g.kv * 2 ^ 14 + g.ng * 2 ^ 20
    + bit g.split * 2 ^ 23 + g.sp * 2 ^ 24 + g.kb0b * 2 ^ 26

def mstatBody (c : Ctx) (s : State) : Res :=
  let p := s.curPack
  let crew := s.curCrewId
  let m := encMod c.e
  let h := encA c.e
  let w := (rdS p (encB c.e)).toNat
  let st := s.curCrew.st
  let answer (f : Nat × Nat × Nat × Nat → Bool) (x : Nat) : Res := .done (s.setCur (observe (wrS p c.e.d.toNat (BitVec.ofNat 64 x)) f)) 0
  let ofTile (o : Nat × Nat × Nat × Nat) : Bool := o.2.1 == 0 && o.2.2.1 == h
  let ofMatrix (o : Nat × Nat × Nat × Nat) : Bool := o.2.1 == 0 && matOp ≤ o.1 / 2 ^ 64
  if m ≤ 1 then
    if m = 1 ∧ bits w 11 53 ≠ 0 then illop13 c (BitVec.ofNat 64 w)
    else
      match tileUseTrap c s crew [⟨h, [], false, 0, 0, false⟩] with
      | some t => .trap t
      | none =>
        if (tileAt s crew h).fill ≠ 0 then tileStall s
        else if m = 0 then answer ofTile (tileAt s crew h).flags.toNat
        else answer ofTile (lossWord st.loss h (bits w 0 8) (bits w 8 3))
  else if m = 3 ∧ bits w 3 61 ≠ 0 then illop13 c (BitVec.ofNat 64 w)
  else if m = 3 ∧ macroLimit s ≤ w then .trap (macroTrap c 1 w)
  else if packMatBusy s s.cur then .stall s
  else if m = 2 then answer ofMatrix (if st.loss.valid then st.loss.tile + 64 else 0)
  else answer ofMatrix (recordWord (crewMacro st w) w)

def execMstat (e : Enc) (s : State) : Host.Outcome State Fault Refusal := issue (.mstat e) e mstatBody s

/-! ### Execution in the sequencer (R363, R367, R368) -/

/-- The rows of a tile, `n` bytes each. -/
def readRows (s : State) (crew h rows n : Nat) : List (List Byte) :=
  let t := tileAt s crew h
  (List.range rows).map fun i => s.locBytes (tileRow s crew t i) n

/-- Writes rows into a tile from its first row on. -/
def writeRows (s : State) (crew h : Nat) (rows : List (List Byte)) : State :=
  let t := tileAt s crew h
  (rows.foldl (fun (x : State × Nat) r => (engineWrite x.1 crew t.space (t.rowOff x.2) r, x.2 + 1)) (s, 0)).1

/-- The live vectors of a loaded group. -/
def groupLive (s : State) (crew m0 : Nat) (g : MacroRec) : List Nat :=
  liveVectors g.sp (Tab.get BGroup.blank (s.crew crew).st.bdata m0).map (g.kv + 1)

/-- Steps of a matrix instruction (R368); those other than mma and mms run whole. -/
def opSteps (s : State) (o : MatOp) : Nat :=
  match o.kind with
  | .mma _ _ _ _ _ w m0 _ _ g _ => (shapeMg w + 1) * (groupLive s o.crew m0 g).length
  | .mms _ _ _ _ w _ _ _ _ => (shapeMg w + 1) * shapeVecs w
  | _ => 0

/-- What an instruction leaves: the flags of its destination tile, and the state. -/
structure MatOut where
  s : State
  fl : BitVec 16

/-- Map rows, live vectors and elements of a row that a load reads. -/
def mldbMap (s : State) (crew : Nat) (map : Option Nat) (w sp : Nat) : List (List Byte) × Nat × Nat :=
  let maps := match map with
    | none => []
    | some h =>
      let live := (liveVectors 1 (readRows s crew h 1 8) (shapeVecs w)).length
      readRows s crew h (if sp = 2 then 1 + shapeN w else 1) (8 * max 1 live)
  let live := (liveVectors sp maps (shapeVecs w)).length
  (maps, live, if sp = 2 then 32 * live else 64 * live)

/-- The tiles that a load reads, with the rows and the bytes of each row. -/
def mldbReads (s : State) (crew : Nat) (src scale map : Option Nat) (ty w sp : Nat) : List (Nat × Nat × Nat) :=
  let (maps, _, kst) := mldbMap s crew map w sp
  let n := shapeN w
  (src.toList.map fun h => (h, n, kst * typeBits ty / 8)) ++ (scale.toList.map fun h => (h, n, 2 * shapeVecs w * scaleBytes ty))
    ++ map.toList.map fun h => (h, maps.length, (maps.headD []).length)

def mldbEffect (s : State) (crew : Nat) (src scale map : Option Nat) (ty w m0 sp : Nat) : MatOut :=
  let n := shapeN w
  let vecs := shapeVecs w
  let (maps, _, kst) := mldbMap s crew map w sp
  let rows := match src with
    | none => []
    | some h => readRows s crew h n (kst * typeBits ty / 8)
  let scs := match scale with
    | none => []
    | some h => readRows s crew h n (2 * vecs * scaleBytes ty)
  ⟨s.modSt crew fun st => { st with bdata := Tab.set BGroup.blank st.bdata m0 ⟨rows, scs, maps⟩ }, 0⟩

/-- The accumulator rows after mma, with flags and suspect partials. -/
def mmaRows (s : State) (crew acc a scale ta tb w m0 : Nat) (zp : Option (List Int)) (g : MacroRec) (bver : Nat) :
    List (List Chain) :=
  let m := shapeM w
  let n := shapeN w
  let vecs := shapeVecs w
  let f : MmaForm := ⟨ta, tb, vecs, g.sp, g.split, bver == 2⟩
  let b := Tab.get BGroup.blank (s.crew crew).st.bdata m0
  let live := liveVectors g.sp b.map vecs
  let arows := readRows s crew a m (shapeK w * typeBits ta / 8)
  let ascs := if scaleBytes ta = 0 then [] else readRows s crew scale m (2 * vecs * scaleBytes ta)
  let old := readRows s crew acc m (4 * n)
  (List.range m).map fun r =>
    (List.range n).map fun c =>
      mmaElem f.int f.old g.split (rowElem 32 (old.getD r []) c)
        (mmaPartials f (arows.getD r []) (ascs.getD r []) (b.rows.getD c []) (b.scales.getD c []) (b.map.getD (c + 1) []) live
          (zp.map fun z => z.getD r 0))

def mmaEffect (s : State) (o : MatOp) (acc a scale ta tb w m0 : Nat) (zp : Option (List Int)) (g : MacroRec)
    (bver : Nat) : MatOut :=
  let out := mmaRows s o.crew acc a scale ta tb w m0 zp g bver
  let fl := out.foldl (fun f r => r.foldl (fun f x => f ||| x.fl) f) 0
  let n := out.foldl (fun k r => r.foldl (fun k x => k + x.susp) k) 0
  let core := s.coreOf o.crew
  let s := writeRows s o.crew acc (out.map fun r => rowOfElems 32 (r.map (·.lo)))
  let s := if n = 0 then s else s.count ctrMxSusp core n
  let dead := shapeVecs w - (groupLive s o.crew m0 g).length
  let s := if dead = 0 then s else s.count ctrMxSkip core (dead * (shapeMg w + 1))
  ⟨s, fl⟩

/-- The elements of mms, by row. -/
def mmsRows (s : State) (crew out a ty sl w m0 : Nat) (acc : Bool) (rm : Nat) : List (List MmsOut) :=
  let f := (laneFmt ty).getD f64
  let bw := typeBits ty
  let k := shapeK w
  let b := Tab.get BGroup.blank (s.crew crew).st.bdata m0
  let vals (row : List Byte) (n : Nat) : List FVal := (List.range n).map fun i => f.read (rowElem bw row i)
  let bcols := (List.range (shapeN w)).map fun c => vals (b.rows.getD c []) k
  let arows := (readRows s crew a (shapeM w) (k * bw / 8)).map fun r => vals r k
  let old := (readRows s crew out (shapeM w) (shapeN w * bw / 8)).map fun r => vals r (shapeN w)
  (arows.zip old).map fun x =>
    (bcols.zip x.2).map fun y => mmsElem f sl (RMode.ofCode rm) x.1 y.1 (if acc then some y.2 else none)

/-- The places of an mms result that lost bits, as 512 row + column. -/
def lossBits (l : List (List MmsOut)) : List Nat :=
  (l.foldl (fun (x : List Nat × Nat) r =>
    (x.1 ++ (r.foldl (fun (y : List Nat × Nat) o =>
      (if o.loss || o.win then y.1 ++ [512 * x.2 + y.2] else y.1, y.2 + 1)) ([], 0)).1, x.2 + 1)) ([], 0)).1

/-- %slb (R372). -/
def slbOf (l : List (List MmsOut)) : W32 :=
  match (l.flatMap fun r => r.filterMap (·.bound)) with
  | [] => 0x80000000
  | x :: xs => BitVec.ofInt 32 (xs.foldl max x)

def mmsEffect (s : State) (o : MatOp) (out a ty sl w m0 : Nat) (acc : Bool) (rm : Nat) : MatOut :=
  let res := mmsRows s o.crew out a ty sl w m0 acc rm
  let any (f : MmsOut → Bool) : Bool := res.any fun r => r.any f
  let fl := res.foldl (fun f r => r.foldl (fun f x => f ||| ieee16 x.fl) f) 0
  let loss := any (·.loss)
  let win := any (·.win)
  let s := writeRows s o.crew out (res.map fun r => rowOfElems (typeBits ty) (r.map (·.code)))
  let s := s.modPack o.pack fun p => { p with slb := slbOf res }
  let s := s.modSt o.crew fun st => { st with loss := ⟨true, out, lossBits res⟩ }
  let s := if loss || win then s.count ctrMxSloss (s.coreOf o.crew) 1 else s
  ⟨s, fl ||| (if loss then mfSloss else 0) ||| (if win then mfSwin else 0)⟩

def maccEffect (s : State) (crew dst src ty : Nat) (n : Int) (sat : Bool) (b : Option BoundEntry) (rm : Nat) : MatOut :=
  let t := tileAt s crew src
  let cols := t.rowBytes / 4
  let out := (readRows s crew src t.rows t.rowBytes).map fun r =>
    (List.range cols).map fun c => maccElem t.ty ty n (RMode.ofCode rm) sat b (rowElem 32 r c)
  ⟨writeRows s crew dst (out.map fun r => rowOfElems (typeBits ty) (r.map (·.1))),
    out.foldl (fun f r => r.foldl (fun f x => f ||| ieee16 x.2.1 ||| x.2.2.1) f) 0⟩

def mzeroEffect (s : State) (crew h : Nat) : MatOut :=
  let t := tileAt s crew h
  let s := fillRows s crew t (List.replicate t.rowBytes 0)
  ⟨modTile s crew h fun t => { t with flags := 0 }, 0⟩

def mxqEffect (s : State) (crew dst src scale ty st : Nat) (sat : Bool) (rm : Nat) : MatOut :=
  let t := tileAt s crew src
  let bw := typeBits st
  let rows := (readRows s crew src t.rows t.rowBytes).map fun r =>
    quantRow ty (RMode.ofCode rm) sat ((List.range (t.rowBytes * 8 / bw)).map fun i => ((laneFmt st).getD f32).read (rowElem bw r i))
  let s := writeRows s crew dst (rows.map (·.1))
  ⟨writeRows s crew scale (rows.map (·.2.1)),
    rows.foldl (fun f r => f ||| ieee16 (r.2.2.1.foldl (fun a x => a ||| x) r.2.2.2)) 0⟩

def mxdqEffect (s : State) (crew dst src scale ty st : Nat) (sat : Bool) (rm : Nat) : MatOut :=
  let t := tileAt s crew src
  let blocks := t.rowBytes / blockBytes st
  let data := readRows s crew src t.rows t.rowBytes
  let scs := readRows s crew scale t.rows (blocks * scaleBytes st)
  let rows := (data.zip scs).map fun x => expandRow st ty (RMode.ofCode rm) sat x.1 x.2 (32 * blocks)
  ⟨writeRows s crew dst (rows.map fun r => rowOfElems (typeBits ty) (r.map (·.1))),
    rows.foldl (fun f r => r.foldl (fun f x => f ||| ieee16 x.2) f) 0⟩

def mtrEffect (s : State) (crew dst src ty : Nat) : MatOut :=
  let t := tileAt s crew src
  let w := typeBits ty
  let rows := readRows s crew src t.rows t.rowBytes
  ⟨writeRows s crew dst ((List.range (t.rowBytes * 8 / w)).map fun c => rowOfElems w (rows.map fun r => rowElem w r c)), 0⟩

/-- The effect of a matrix instruction. -/
def matEffect (s : State) (o : MatOp) : MatOut :=
  match o.kind with
  | .mldb src scale map ty _ w m0 sp _ _ => mldbEffect s o.crew src scale map ty w m0 sp
  | .mma acc a scale ta tb w m0 zp _ g bver => mmaEffect s o acc a scale ta tb w m0 zp g bver
  | .mms out a ty sl w m0 acc rm _ => mmsEffect s o out a ty sl w m0 acc rm
  | .macc dst src ty n sat b rm => maccEffect s o.crew dst src ty n sat b rm
  | .mzero h => mzeroEffect s o.crew h
  | .mxq dst src scale ty st sat rm => mxqEffect s o.crew dst src scale ty st sat rm
  | .mxdq dst src scale ty st sat rm => mxdqEffect s o.crew dst src scale ty st sat rm
  | .mtr dst src ty => mtrEffect s o.crew dst src ty

/-- The tiles that an instruction reads, with the rows and the bytes of each row. -/
def matReads (s : State) (o : MatOp) : List (Nat × Nat × Nat) :=
  let whole (h : Nat) : Nat × Nat × Nat := (h, (tileAt s o.crew h).rows, (tileAt s o.crew h).rowBytes)
  let used (l : List TileUse) (acc : Bool) : List (Nat × Nat × Nat) :=
    (l.filter fun u => acc || !u.write).map fun u => (u.h, u.rows, u.bytes)
  match o.kind with
  | .mldb src scale map ty _ w _ sp _ _ => mldbReads s o.crew src scale map ty w sp
  | .mma acc a scale ta tb w _ _ _ _ _ => used (mmaUses acc a scale ta tb w) true
  | .mms out a ty _ w _ acc _ _ => used (mmsUses out a ty w) acc
  | .macc _ src _ _ _ _ _ => [whole src]
  | .mzero _ => []
  | .mxq _ src _ _ _ _ _ => [whole src]
  | .mxdq _ src scale _ st _ _ =>
    let t := tileAt s o.crew src
    [whole src, (scale, t.rows, t.rowBytes / blockBytes st * scaleBytes st)]
  | .mtr _ src _ => [whole src]

/-- Whether an instruction asks for SUSP as a trap. -/
def wantsSusp : MatKind → Bool
  | .mma _ _ _ _ _ _ _ _ susp _ _ => susp
  | _ => false

/-- The places of the rows that a matrix instruction reads, with their lengths. -/
def matPlaces (s : State) (o : MatOp) : List (Loc × Nat) :=
  (matReads s o).flatMap fun x => (List.range x.2.1).map fun i => (tileRow s o.crew (tileAt s o.crew x.1) i, x.2.2)

/-- A matrix instruction completes: its effect, its flags, its tile counts, and the trap of .susp (R366, R367, R379,
R380). -/
def matLand (s : State) (o : MatOp) : State :=
  let r := matEffect s o
  let s := match o.fills with
    | h :: _ => modTile r.s o.crew h fun t => { t with flags := t.flags ||| r.fl }
    | [] => r.s
  let s := countXpand s (s.clusterOf o.crew) (matPlaces s o)
  let s := if (s.pack o.pack).live then s.modPack o.pack fun p => { p with sflag := p.sflag ||| sflagOf r.fl } else s
  let s := lowerTiles s o.crew o.pack o.fills o.drains
  let s := noteDone s o.pack o.epoch ((o.fills ++ o.drains).map fun h => (0, h))
  if wantsSusp o.kind && r.fl &&& mfSusp ≠ 0 then producerTrap s o.pack o.crew ⟨clsSusp, 1, o.pc, 0⟩ else s

/-- One step of the instruction at the head of a core's queue. -/
def execSequencerStep (core : Nat) (s : State) : Host.Outcome State Fault Refusal :=
  match s.seq core with
  | o :: l =>
    if core < 1024 ∧ o.step < opSteps s o then .next ((s.setSeq core ({ o with step := o.step + 1 } :: l)).count ctrMxStep core 1) else .next s
  | [] => .next s

end Sys2Proof.Machine
end

