-- ==== Sys2Proof/Machine/Control.lean ====
section
/-! DEFINITION. Control transfer, the loop stack, and software traps (04 R104, R108 to R111, R116 to R119). -/

namespace Sys2Proof.Machine

/-- Pops loop entries until the top one's range holds every target taken (R110). -/
def popOutside (tgts : List Nat) : List LoopEntry → List LoopEntry
  | [] => []
  | e :: l => if tgts.all fun a => e.start.toNat ≤ a && a ≤ e.stop.toNat then e :: l else popOutside tgts l

/-- A branch of the threads of the execution mask to their targets; `link` pushes the return address (R116).  A misaligned
target traps ALIGN at the branch (02 R33); a full call stack traps ILLOP 12 (R116). -/
def transfer (c : Ctx) (s : State) (link : Option W64) (tgt : Nat → W64) : Res :=
  let p := s.curPack
  let l := lanesOf c.m p.width
  let bad := l.filter fun t => (tgt t).toNat % 4 ≠ 0
  let full : Bool := link.isSome && l.any fun t => 1024 ≤ (packThread p t).calls.length
  if full then .trap (c.trap clsIllop 12 2)
  else match bad with
    | t :: _ => .trap ⟨clsAlign, 0, tgt t, maskOf bad⟩
    | [] =>
      let go (q : Pack) (t : Nat) : Pack :=
        let q := match link with
          | some _ =>
            let d := (packThread q t).calls.length
            noteRow (noteRow q (320 + 2 * d)) (321 + 2 * d)
          | none => q
        packModThread q t fun th =>
          { th with
            pc := tgt t
            calls := match link with
              | some a => a :: th.calls
              | none => th.calls }
      let q := l.foldl go p
      let loops := if link.isSome || l.isEmpty then q.loops else popOutside (l.map fun t => (tgt t).toNat) q.loops
      .done (s.setCur { q with loops := loops }) c.m

/-- The target of bra and call in class BR (02 R52). -/
def brTarget (c : Ctx) : W64 :=
  match c.e.lit with
  | some l => c.pc + l
  | none => c.pc + BitVec.ofInt 64 (4 * toS 18 (encO18 c.e))

/-- The target of brx and call in class RR, per thread. -/
def regTarget (c : Ctx) (p : Pack) (t : Nat) : W64 := BitVec.ofNat 64 (rdSrc p (srcA c.e) 64 t 0 0)

def nextPc (c : Ctx) : W64 := c.pc + BitVec.ofNat 64 c.e.size

def execNop (e : Enc) (s : State) : Host.Outcome State Fault Refusal := issue (.nop e) e (fun _ s => .done s 0) s

/-- bra: the fox slot takes its guard from lane 0 (11 R342). -/
def braBody (c : Ctx) (s : State) : Res :=
  if s.isFox then
    if c.m.getLsbD 0 then transfer { c with m := maskOf (List.range s.curPack.width) } s none fun _ => brTarget c
    else .done s 0
  else transfer c s none fun _ => brTarget c

def execBra (e : Enc) (s : State) : Host.Outcome State Fault Refusal := issue (.bra e) e braBody s

def execBrx (e : Enc) (s : State) : Host.Outcome State Fault Refusal :=
  issue (.brx e) e (fun c s => transfer c s none (regTarget c s.curPack)) s

def execCall (e : Enc) (s : State) : Host.Outcome State Fault Refusal :=
  issue (.call e) e (fun c s => transfer c s (some (nextPc c)) fun _ => brTarget c) s

def execCallReg (e : Enc) (s : State) : Host.Outcome State Fault Refusal :=
  issue (.callReg e) e (fun c s => transfer c s (some (nextPc c)) (regTarget c s.curPack)) s

/-- ret: pops the call stack of each thread; an empty one traps ILLOP 12 with %tval 3 (R116). -/
def retBody (c : Ctx) (s : State) : Res :=
  let p := s.curPack
  let l := lanesOf c.m p.width
  if l.any fun t => (packThread p t).calls.isEmpty then .trap (c.trap clsIllop 12 3)
  else .done (s.setCur (modThreads p l fun th => { th with pc := th.calls.headD 0, calls := th.calls.tail })) c.m

def execRet (e : Enc) (s : State) : Host.Outcome State Fault Refusal := issue (.ret e) e retBody s

/-- conv: the threads of the execution mask are held at its address (R104). -/
def convBody (c : Ctx) (s : State) : Res :=
  let p := s.curPack
  .done (s.setCur (modThreads p (lanesOf c.m p.width) fun th => { th with held := true, holdSize := c.e.size })) c.m

def execConv (e : Enc) (s : State) : Host.Outcome State Fault Refusal := issue (.conv e) e convBody s

/-- A thread ends: it then counts as having every dead bit set (05 R137). -/
def Thread.exit (th : Thread) : Thread := { th with exited := true, vdead := BitVec.allOnes 256 }

/-- exit: ends the threads of the execution mask (R117); a pack that so ends while it holds moorings first commits its interval
stores and releases them (09 R257).  On the fox slot it ends the micro-program (11 R344). -/
def exitBody (c : Ctx) (s : State) : Res :=
  if s.isFox then
    if c.m = 0 then .done s 0
    else .done (s.modSt (s.cur - foxBase) fun st => { st with fox := { st.fox with status := .idle } }) c.m
  else
    let p := modThreads s.curPack (lanesOf c.m s.curPack.width) Thread.exit
    if allExited p && !(holdsOf s p.launch s.cur).isEmpty then
      match releaseAll s s.cur with
      | .error e => resOf c s (.stop e)
      | .ok s' =>
        .done (s'.modPack s.cur fun q => modThreads q (lanesOf c.m q.width) Thread.exit) c.m
    else .done (s.setCur p) c.m

def execExit (e : Enc) (s : State) : Host.Outcome State Fault Refusal := issue (.exit e) e exitBody s

/-- The end offset of an LP instruction (02 R53). -/
def lpOff (e : Enc) : Nat := e.b.toNat * 64 + e.d.toNat

/-- The L size of the word at a loop's end, which R108 skips for a count of 0: an instruction fetch (R227). -/
def endSize (s : State) (pc : W64) : Except Halt Nat :=
  let c := s.curCrew
  let l := s.launch c.launch
  let va := pc.toNat
  if va < l.hdr.text ∨ l.hdr.text + l.hdr.textsz < va + 4 then .error (.trap ⟨clsCapv, 5, pc, s.curPack.sel⟩)
  else
    match xlate s c.core l.asid va .fetch 0 with
    | .error code =>
      if replayable code then .error (.pages [⟨0, l.asid, va, code⟩] 2) else .error (.fatal ⟨clsXlate, code, pc, s.curPack.sel⟩ [⟨0, l.asid, va, code⟩] 2)
    | .ok x => .ok (sizeOfL ((s.byte x.pa).toNat % 4))

/-- loop: pushes an entry, or passes over the loop when the count is 0; with four entries held it traps whatever the count (R108). -/
def loopBody (n : W64) (c : Ctx) (s : State) : Res :=
  let p := s.curPack
  let stop := c.pc + BitVec.ofNat 64 (4 * lpOff c.e)
  if 4 ≤ p.loops.length then .trap (c.trap clsIllop 12 1)
  else if n = 0 then
    match endSize s stop with
    | .error h => resOf c s h
    | .ok size =>
      .done (s.setCur (modThreads p (lanesOf p.sel p.width) fun th => { th with pc := stop + BitVec.ofNat 64 size })) p.sel
  else
    let start := c.pc + 4
    let q := { p with loops := ⟨start, stop, n⟩ :: p.loops }
    .done (s.setCur (modThreads q (lanesOf p.sel p.width) fun th => { th with pc := start })) p.sel

def execLoop (e : Enc) (s : State) : Host.Outcome State Fault Refusal :=
  issue (.loop e) e (fun c s => loopBody (rdS s.curPack e.a.toNat) c s) s

def execLoopImm (e : Enc) (s : State) : Host.Outcome State Fault Refusal :=
  issue (.loopImm e) e (loopBody (BitVec.ofNat 64 e.a.toNat)) s

/-- lbrk: pops the top entry; nothing on an empty stack (R111). -/
def execLbrk (e : Enc) (s : State) : Host.Outcome State Fault Refusal :=
  issue (.lbrk e) e (onPack fun _ p => .ok { p with loops := p.loops.tail }) s

/-- yield: the core's next choice falls on another pack, if one can issue (R118). -/
def execYield (e : Enc) (s : State) : Host.Outcome State Fault Refusal :=
  issue (.yield e) e (fun _ s => .done { s with yields := (s.cur, true) :: s.yields } 0) s

/-- trap: SWTRAP with the code and its value (R119); nothing under an all-zero mask. -/
def execTrap (e : Enc) (s : State) : Host.Outcome State Fault Refusal :=
  issue (.trap e) e (fun c _ => .trap (c.trap clsSwtrap e.b.toNat (BitVec.ofNat 64 e.b.toNat))) s

def execTrapReg (e : Enc) (s : State) : Host.Outcome State Fault Refusal :=
  issue (.trapReg e) e (fun c s =>
    let v := rdS s.curPack e.a.toNat
    .trap (c.trap clsSwtrap (v.toNat % 65536) v)) s

/-- A fetched instruction with an unassigned opcode traps ILLOP 1 (02 R57). -/
def execUnassignedOpcode (op : BitVec 8) (e : Enc) (s : State) : Host.Outcome State Fault Refusal :=
  issue (.unassignedOpcode op e) e (fun c _ => .trap (c.trap clsIllop 1 0)) s

end Sys2Proof.Machine
end

