-- ==== Sys2Proof/Machine/Streams.lean ====
section
/-! DEFINITION. Stream queues and the fox slot's instructions (11 R312, R313, R337 to R347). -/

namespace Sys2Proof.Machine

/-! ### COPYR (R312, R313, R347) -/

/-- The COPYR subcode of the issuing pack: it must be the producer, or its crew must have the stream resources. -/
def copyrSub (s : State) (producer stream : Bool) : Option Nat :=
  let h := s.curLaunch.hdr
  if s.isFox then none
  else if producer && s.curPack.idx ≠ h.prod then some 1
  else if stream && !h.stream then some 2
  else none

/-- A body under the COPYR checks. -/
def underCopyr (producer stream : Bool) (body : Ctx → State → Res) (c : Ctx) (s : State) : Res :=
  match copyrSub s producer stream with
  | some k => .trap (c.trap clsCopyr k 0)
  | none => body c s

/-! ### Queues (R337) -/

def queueOf (s : State) (crew q : Nat) : StreamQ := crewQueue (s.crew crew).st q
def setQ (s : State) (crew q : Nat) (x : StreamQ) : State := s.modSt crew fun st => crewSetQueue st q x

/-- Who pushes: the issuing pack, or the fox slot. -/
def curPusher (s : State) : Pusher := if s.isFox then .fox else .pack s.curPack.idx

/-- Whether Strict mode's binding forbids a pusher. -/
def pushForbidden (s : State) (crew q : Nat) (who : Pusher) : Bool :=
  s.isStrict (s.crew crew).launch && match (queueOf s crew q).pusher with
    | some w => w != who
    | none => false

/-- Entries go into a queue; the first push binds its pusher.  In Track mode the turn of an error marker may then have come. -/
def pushEntries (s : State) (crew q : Nat) (who : Pusher) (es : List QEntry) : State :=
  let x := queueOf s crew q
  let strict := s.isStrict (s.crew crew).launch
  let s := setQ s crew q { x with entries := x.entries ++ es, pusher := if strict && x.pusher.isNone then some who else x.pusher }
  if s.isTrack (s.crew crew).launch then pushMarks s crew else s

/-- A stall on a queue, counted (R349). -/
def queueStall (s : State) : Res := .stall (s.count ctrQStall s.curCrew.core 1)

/-! ### qpush (R338) -/

/-- The entries of qpush and qpush.tr. -/
def pushVectors (c : Ctx) (p : Pack) : List QEntry :=
  let w := p.width
  if encModBit c.e 1 then
    let n := (encX c.e).bh.toNat + 1
    (List.range n).map fun j => .data ((List.range w).map fun t =>
      let k := j * w + t
      BitVec.ofNat 32 (rdV p (encA c.e + 16 * (k % n)) (k / n)))
  else [.data ((List.range w).map fun t => if c.m.getLsbD t then BitVec.ofNat 32 (rdV p (encA c.e) t) else 0)]

def qpushBody (c : Ctx) (s : State) : Res :=
  let crew := s.curCrewId
  let q := c.e.d.toNat
  let es := if encModBit c.e 0 then [.stop] else pushVectors c s.curPack
  let who := curPusher s
  if pushForbidden s crew q who then .trap (c.openTrap clsRace 4 (BitVec.ofNat 64 q))
  else if queueRoom < (queueOf s crew q).entries.length + es.length then queueStall s
  else
    match trackPush s crew q who with
    | .stop e => resOf c s (.stop e)
    | .later => .stall s
    | .go s => .done (pushEntries s crew q who es) 0

def execQpush (e : Enc) (s : State) : Host.Outcome State Fault Refusal := issue (.qpush e) e (underCopyr false true qpushBody) s

/-! ### qpop and qpeek (R339, R341) -/

/-- The head leaves; error markers that wait for room move in. -/
def dropHead (s : State) (crew q : Nat) : State :=
  let x := queueOf s crew q
  let strict := s.isStrict (s.crew crew).launch
  let x := { x with
    entries := x.entries.tail
    popper := if strict && x.popper.isNone then some (s.pack s.cur).idx else x.popper }
  pushMarks (setQ s crew q x) crew

/-- An end marker ends the top loop of the pack. -/
def popLoop (c : Ctx) (s0 s : State) : Res :=
  let p := s.curPack
  match p.loops with
  | [] => .done s 0
  | l :: rest =>
    match endSize s l.stop with
    | .error h => resOf c s0 h
    | .ok size =>
      let q := { p with loops := rest }
      .done (s.setCur (modThreads q (lanesOf p.sel p.width) fun th => { th with pc := l.stop + BitVec.ofNat 64 size })) p.sel

/-- What stops the fetch of the size at the end of the pack's top loop (04 R109). -/
def popFetch (c : Ctx) (s : State) : Option Res :=
  match s.curPack.loops with
  | [] => none
  | l :: _ =>
    match endSize s l.stop with
    | .error h => some (resOf c s h)
    | .ok _ => none

/-- qpop.  The fault that an error marker holds and the traps of a fetch come before RACE (15 R446). -/
def qpopBody (c : Ctx) (s : State) : Res :=
  let crew := s.curCrewId
  let q := c.e.a.toNat
  let x := queueOf s crew q
  let p := s.curPack
  let before : Option Res := match x.entries with
    | .stop :: _ => popFetch c s
    | .error :: _ => (s.crew crew).st.fox.fault.map fun t => .trap { t with mask := c.m }
    | _ => none
  match before with
  | some r => r
  | none =>
    if s.isStrict p.launch && (x.popper.isSome && x.popper != some p.idx) then .trap (c.openTrap clsRace 4 (BitVec.ofNat 64 q))
    else match x.entries with
    | [] => queueStall s
    | .data l :: _ =>
      let s := dropHead s crew q
      .done (s.setCur (laneRegs c (fun t => [(encD c.e, (l.getD t 0).toNat)]) s.curPack)) 0
    | .stop :: _ => popLoop c s (dropHead s crew q)
    | .error :: _ => queueStall s

def execQpop (e : Enc) (s : State) : Host.Outcome State Fault Refusal := issue (.qpop e) e (underCopyr false true qpopBody) s

/-- FOX of the status word: running until its error markers are in (R344). -/
def foxCode (f : Fox) : Nat :=
  match f.status with
  | .idle => 0
  | .running => 1
  | .faulted => 3

def queueStatus (st : CrewState) (q : Nat) : Nat :=
  let x := crewQueue st q
  x.entries.length + bit (x.entries.head? == some .stop) * 64 + bit (x.entries.head? == some .error) * 128
    + foxCode st.fox * 2 ^ 14

def qpeekBody (c : Ctx) (s : State) : Res :=
  let q := c.e.a.toNat
  if s.isStrict s.curPack.launch then .trap (c.openTrap clsRace 2 (BitVec.ofNat 64 q))
  else .done (s.setCur (wrS s.curPack c.e.d.toNat (BitVec.ofNat 64 (queueStatus s.curCrew.st q)))) 0

def execQpeek (e : Enc) (s : State) : Host.Outcome State Fault Refusal := issue (.qpeek e) e (underCopyr false true qpeekBody) s

/-! ### foxgo and foxhalt (R345) -/

/-- The queues without their error markers. -/
def dropErrors (st : CrewState) : CrewState :=
  (List.range 8).foldl (fun st q =>
    let x := crewQueue st q
    crewSetQueue st q { x with entries := x.entries.filter (· != .error) }) st

/-- The fox slot as foxgo starts it. -/
def foxStart (p : Pack) (text entry anchor pid : Nat) : Fox :=
  { Fox.blank with
    status := .running
    pc := BitVec.ofNat 64 (text + entry)
    s := (List.range 4).foldl (fun t i => Tab.set 0 t i (rdS p (anchor + i))) []
    y := p.y
    by_ := pid }

def foxgoBody (c : Ctx) (s : State) : Res :=
  let crew := s.curCrewId
  let p := s.curPack
  let free : Bool := s.curCrew.st.fox.status != .running
  let f := foxStart p s.curLaunch.hdr.text (rdS p (encA c.e)).toNat (encB c.e) s.cur
  let s := if free then s.modSt crew fun st => { dropErrors st with fox := f } else s
  .done (s.setCur (setPredAll c s.curPack free)) 0

def execFoxgo (e : Enc) (s : State) : Host.Outcome State Fault Refusal := issue (.foxgo e) e (underCopyr true true foxgoBody) s

/-- A running fox slot becomes idle; one that stops on a fault is past its last boundary. -/
def foxhaltBody (_ : Ctx) (s : State) : Res :=
  let f := s.curCrew.st.fox
  let s := if f.status == .running && f.fault.isNone then
      s.modSt s.curCrewId fun st => { st with fox := { st.fox with status := .idle, wait := .none } }
    else s
  .done s 0

def execFoxhalt (e : Enc) (s : State) : Host.Outcome State Fault Refusal := issue (.foxhalt e) e (underCopyr false true foxhaltBody) s

end Sys2Proof.Machine
end

