-- ==== Sys2Proof/Machine/Copies.lean ====
section
/-! DEFINITION. The copy descriptor, the checks of a copy instruction, and its issue (11 R311 to R322, R327, R328, R340; 12
R384). -/

namespace Sys2Proof.Machine

/-! ### The descriptor (R314, R315) -/

def dW (d : List W64) (i : Nat) : Nat := (d.getD i 0).toNat
/-- The 32-bit item `k` packed from word `base` on. -/
def dHalf (d : List W64) (base k : Nat) : Nat := bits (dW d (base + k / 2)) (32 * (k % 2)) 32

/-- Number of dimensions. -/
def dDims (d : List W64) : Nat := bits (dW d 0) 0 3 + 1
def dXf (d : List W64) : Nat := bits (dW d 0) 4 3
def dElog (d : List W64) : Nat := bits (dW d 0) 7 3
def dSty (d : List W64) : Nat := bits (dW d 0) 10 5
def dDty (d : List W64) : Nat := bits (dW d 0) 15 5
def dRm (d : List W64) : Nat := bits (dW d 0) 20 3
def dSat (d : List W64) : Bool := bitAt (dW d 0) 23
def dSside (d : List W64) : Bool := bitAt (dW d 0) 24
def dBarp (d : List W64) : Bool := bitAt (dW d 0) 29
def dBar (d : List W64) : Nat := bits (dW d 0) 25 4
def dDtile (d : List W64) : Nat := bits (dW d 0) 30 6
def dDtp (d : List W64) : Bool := bitAt (dW d 0) 36
def dStile (d : List W64) : Nat := bits (dW d 0) 37 6
def dStp (d : List W64) : Bool := bitAt (dW d 0) 43
def dScap (d : List W64) : Nat := bits (dW d 0) 44 3

def dExt (d : List W64) (k : Nat) : Nat := dHalf d 2 k
def dStart (d : List W64) (k : Nat) : Int := toS 32 (dHalf d 5 k)
def dSs (d : List W64) (k : Nat) : Int := toS 64 (dW d (8 + k))
def dDs (d : List W64) (k : Nat) : Int := toS 32 (dHalf d 13 k)
/-- Starts of the source and of the destination (R316). -/
def dCs (d : List W64) (k : Nat) : Int := if dSside d then 0 else dStart d k
def dCd (d : List W64) (k : Nat) : Int := if dSside d then dStart d k else 0

def dExts (d : List W64) : List Nat := (List.range (dDims d)).map (dExt d)
/-- Elements of the copy. -/
def dCount (d : List W64) : Nat := (dExts d).foldl (· * ·) 1

/-- Bytes of a source element, and of a destination element. -/
def dSrcSize (d : List W64) : Nat := if dXf d = 3 then typeBits (dSty d) / 8 else 2 ^ dElog d
def dDstSize (d : List W64) : Nat := if dXf d = 2 then typeBits (dDty d) / 8 else 2 ^ dElog d

/-- Blocks of a row of a block-format side. -/
def dBlocks (d : List W64) : Nat := (dExt d 0 + 31) / 32
/-- The block format of XF 2 and 3. -/
def dBlockTy (d : List W64) : Nat := if dXf d = 2 then dSty d else dDty d

/-- The indices of element `n` in linear order. -/
def unravel : List Nat → Nat → List Nat
  | [], _ => []
  | e :: l, n => n % e :: unravel l (n / e)

/-- Σ (i_k + off k) × stride k over the dimensions from `k` on. -/
def offsetSum (off stride : Nat → Int) : List Nat → Nat → Int
  | [], _ => 0
  | i :: l, k => ((i : Int) + off k) * stride k + offsetSum off stride l (k + 1)

def pad16 (n : Nat) : Nat := (n + 15) / 16 * 16

/-! ### CPYA (R317, R318) -/

/-- Words of the extents, starts or strides that lie beyond the dimensions or out of range. -/
def badDims (d : List W64) : List Nat :=
  (List.range 5).flatMap fun k =>
    let beyond := dDims d ≤ k
    (if 2 ^ 31 ≤ dExt d k || (beyond && dExt d k ≠ 0) then [2 + k / 2] else [])
      ++ (if beyond && dStart d k ≠ 0 then [5 + k / 2] else [])
      ++ (if beyond && dSs d k ≠ 0 then [8 + k] else [])
      ++ (if beyond && dDs d k ≠ 0 then [13 + k / 2] else [])

/-- Whether every start is zero. -/
def startsZero (d : List W64) : Bool := (List.range 5).all fun k => dStart d k == 0

def isBlockTy (t : Nat) : Bool := 0x14 ≤ t && t ≤ 0x1B
def isLaneFloat (t : Nat) : Bool := t == 0x0D || t == 0x0C || t == 0x0B

/-- Whether word 0 offends, for any copy instruction. -/
def badWord0 (d : List W64) : Bool :=
  let xf := dXf d
  bits (dW d 0) 47 17 ≠ 0 || bitAt (dW d 0) 3 || 5 < dDims d || 3 < xf || 4 < dElog d || (xf == 1 && dDims d < 2)
    || (xf < 2 && dScap d ≠ 0) || (dBarp d && dBar d == 0)
    || (xf == 2 && (!isBlockTy (dSty d) || !isLaneFloat (dDty d) || 4 < dRm d || (!dSside d && !startsZero d)))
    || (xf == 3 && (!isLaneFloat (dSty d) || !isBlockTy (dDty d) || 4 < dRm d || (dSside d && !startsZero d)))

/-- Words that offend because of the instruction (R328, R340, R327). -/
def badKind (k : CopyKind) (d : List W64) : List Nat :=
  match k with
  | .plain => []
  | .mm => if dDtp d then [] else [0]
  | .reduce _ ty =>
    (if dXf d ≠ 0 || 8 * 2 ^ dElog d ≠ typeBits ty then [0] else []) ++ (if 2 ^ 20 < dCount d * 2 ^ dElog d then [2] else [])
  | .queue _ _ =>
    (if !((dXf d == 0 && dElog d == 2) || (dXf d == 2 && dDty d == 0x0D)) || dStp d || dDtp d then [0] else [])
      ++ (if 2 ^ 20 < dCount d * 4 then [2] else [])

/-- The first offending word of a descriptor (R318 subcode 2). -/
def badWord (k : CopyKind) (d : List W64) : Option Nat :=
  minNat ((if badWord0 d then [0] else []) ++ ([4, 7, 15].filter fun i => bits (dW d i) 32 32 ≠ 0) ++ badDims d ++ badKind k d
    ++ (if dXf d = 2 ∧ dSs d 0 ≠ 0 then [8] else []) ++ (if dXf d = 3 ∧ dDs d 0 ≠ 0 then [13] else []))

/-- One dimension of a corner check: its products, and the terms a and b. -/
structure Corner where
  k : Nat
  prods : List Int
  a : Int
  b : Int
  deriving DecidableEq, Repr

def fits64 (x : Int) : Bool := decide (-(2 ^ 63 : Nat) ≤ x) && decide (x < (2 ^ 63 : Nat))

/-- The dimension at which a side overflows, if any. -/
def cornerFrom (lo hi : Int) : List Corner → Option Nat
  | [] => none
  | c :: l =>
    let lo' := lo + min c.a c.b
    let hi' := hi + max c.a c.b
    if c.prods.all fits64 && fits64 lo' && fits64 hi' then cornerFrom lo' hi' l else some c.k

/-- A dimension by its start, stride and extent. -/
def stepCorner (k : Nat) (off stride : Int) (ext : Nat) : Corner :=
  let a := off * stride
  let b := ((ext : Int) - 1 + off) * stride
  ⟨k, [a, b], a, b⟩

/-- Dimension 0 of a row that R81 lays out. -/
def rowCorner (blocks bb : Nat) : Corner := ⟨0, [], 0, (blocks * bb : Nat) - 1⟩

/-- The pitches of the scale plane, from dimension 1 on. -/
def scalePitches (d : List W64) : Nat → Nat → List Nat
  | 0, _ => []
  | n + 1, pitch => pitch :: scalePitches d n (pitch * dExt d (dDims d - n - 1))

def sideCorners (d : List W64) : List (List Corner) :=
  let n := dDims d
  let xf := dXf d
  let bb := blockBytes (dBlockTy d)
  let sb := scaleBytes (dBlockTy d)
  let src := (List.range n).map fun k =>
    if xf = 2 ∧ k = 0 then rowCorner (dBlocks d) bb else stepCorner k (dCs d k) (dSs d k) (dExt d k)
  let dst := (List.range n).map fun k =>
    if xf = 3 ∧ k = 0 then rowCorner (dBlocks d) bb
    else stepCorner k (dCd d k) (dDs d k)
      (if xf = 1 ∧ k < 2 then pad16 (dExt d (1 - k)) else dExt d k)
  let pitches := scalePitches d (n - 1) (dBlocks d * sb)
  let scale := rowCorner (dBlocks d) sb :: (List.range (n - 1)).map fun j =>
    let c := stepCorner (j + 1) 0 (pitches.getD j 0) (dExt d (j + 1))
    { c with prods := (pitches.getD j 0 : Int) :: c.prods }
  if 2 ≤ xf then [src, dst, scale] else [src, dst]

/-- %tval of subcode 1, if the copy overflows. -/
def cornerTrap (d : List W64) (src dst scale : Cap) (queue : Bool) : Option Nat :=
  if dCount d = 0 then none
  else
    match sideCorners d with
    | a :: b :: r =>
      match cornerFrom src.cursor src.cursor a with
      | some k => some k
      | none =>
        match (if queue then none else cornerFrom dst.cursor dst.cursor b) with
        | some k => some (k + 256)
        | none =>
          match r with
          | c :: _ => (cornerFrom scale.cursor scale.cursor c).map (· + 512)
          | [] => none
    | _ => none

/-! ### The checks of R319 -/

/-- Spaces of a copy's source, and of its destination. -/
def copySrcSpaces : List Nat := [0, 1, 2, 3, 4, 5, 8, 9, 6]
def copyDstSpaces : List Nat := [0, 1, 2, 3, 4, 8, 9, 6]

/-- The first of subcodes 1 to 4 that a capability of a copy fails. -/
def copyCapSub (sv : Bool) (spaces : List Nat) (perm : Nat) (c : Cap) : Option Nat :=
  match capSub sv ⟨spaces, perm, 0⟩ c c.base with
  | some 5 => none
  | r => r

/-- The CAPV trap of the capabilities, the source first. -/
def copyCapv (c : Ctx) (l : List (Option Nat × Cap)) : Option Trap :=
  let bad := l.filterMap fun x => x.1.map fun k => (k, x.2)
  match leastSub (bad.map (·.1)) with
  | none => none
  | some k => (bad.find? fun x => x.1 == k).map fun x => c.trap clsCapv k (BitVec.ofNat 64 x.2.cursor)

/-- The ALIGN trap of cursors and strides (XF 0 and 1). -/
def copyAlign (c : Ctx) (d : List W64) (src dst : Cap) (queue : Bool) : Option Trap :=
  if dXf d ≤ 1 && dElog d ≤ 4 then
    let l : List Int := [(src.cursor : Int)] ++ (if queue then [] else [(dst.cursor : Int)])
      ++ (List.range 5).map (dSs d) ++ (List.range 5).map (dDs d)
    (l.find? fun x => x % ((2 ^ dElog d : Nat) : Int) ≠ 0).map fun x => c.trap clsAlign 0 (BitVec.ofInt 64 x)
  else none

/-- The TILE trap of the named tiles, the source first. -/
def copyTiles (c : Ctx) (s : State) (d : List W64) (src dst : Cap) : Option Trap :=
  let one (p : Bool) (h : Nat) (k : Cap) : List (Nat × Nat) :=
    let t := tileAt s s.curCrewId h
    if !p then [] else if !t.defined then [(4, h)] else if t.space ≠ k.space then [(7, h)] else []
  let l := one (dStp d) (dStile d) src ++ one (dDtp d) (dDtile d) dst
  match leastSub (l.map (·.1)) with
  | none => none
  | some k => (l.find? fun x => x.1 == k).map fun x => c.trap clsTile k (BitVec.ofNat 64 x.2)

/-- What a copy instruction names. -/
structure CopyArgs where
  kind : CopyKind
  d : List W64
  src : Cap
  dst : Cap
  scap : Cap
  deriving DecidableEq, Repr

def CopyKind.isQueue : CopyKind → Bool
  | .queue _ _ => true
  | _ => false

/-- The checks of R319 in order, but for R57, COPYR and those of a follow-on. -/
def copyTrap (c : Ctx) (s : State) (x : CopyArgs) : Option Trap :=
  let sv := s.curSv
  let q := x.kind.isQueue
  let caps : List (Option Nat × Cap) :=
    [(copyCapSub sv copySrcSpaces pmCopySrc x.src, x.src)]
      ++ (if q then [] else
        let atomic : Bool := match x.kind with
          | .reduce _ _ => x.dst.space == 0 || x.dst.space == 1
          | _ => false
        [(copyCapSub sv copyDstSpaces (if atomic then pmCopyDst + pmAtomic else pmCopyDst) x.dst, x.dst)])
      ++ (if dXf x.d = 2 then [(copyCapSub sv copySrcSpaces pmCopySrc x.scap, x.scap)]
        else if dXf x.d = 3 then [(copyCapSub sv copyDstSpaces pmCopyDst x.scap, x.scap)] else [])
  let far : Bool := match x.kind with
    | .reduce _ _ => 4 < x.dst.space
    | _ => false
  (copyCapv c caps).orElse fun _ => (copyAlign c x.d x.src x.dst q).orElse fun _ =>
    match badWord x.kind x.d with
    | some w => some (c.trap clsCpya 2 (BitVec.ofNat 64 w))
    | none =>
      if far then some (c.trap clsCpya 2 (Config.trapVal clsCpya 2 (BitVec.ofNat 64 x.dst.space) &&& 15))
      else
        match cornerTrap x.d x.src x.dst x.scap q with
        | some v => some (c.trap clsCpya 1 (BitVec.ofNat 64 v))
        | none => copyTiles c s x.d x.src x.dst

/-! ### Follow-on commands (R327, R384) -/

/-- The embedded instruction of four uniform registers, where R384 allows it. -/
def followInstr (d : List W64) (f : List W64) : Option (Instr × Enc) :=
  if dW f 3 ≠ 0 ∨ bits (dW f 1) 32 32 ≠ 0 then none
  else
    match decode (leBytes (dW f 0) 8 ++ leBytes (dW f 1) 4) with
    | some (i, _) =>
      let ok (e : Enc) (zp : Bool) : Option (Instr × Enc) :=
        if e.ext.isSome && e.lit.isNone && e.g == 7 && !e.gn && !(encX e).gx && encB e == 0 && !zp && encA e == dDtile d then
          some (i, e) else none
      match i with
      | .mmaInt e => ok e (encModBit e 5)
      | .mmaFloat e => ok e (encModBit e 5)
      | .mms e => ok e false
      | _ => none
    | none => none

/-- The plan of a follow-on, or the trap of the cpy.mm. -/
def followPlan (c : Ctx) (s : State) (d f : List W64) : Except Trap MatPlan :=
  match followInstr d f with
  | none => .error (c.trap clsCpya 2 0)
  | some (i, e) =>
    match illopSub s.curPack.width i with
    | some k => .error (c.trap clsIllop k (BitVec.ofNat 64 (dW f 0 % 2 ^ 32)))
    | none =>
      match i with
      | .mms _ => mmsPlan c s e (dW f 2)
      | _ => mmaPlan c s (dW f 0 % 2 ^ 32) e (dW f 2)

/-! ### Translation by an engine of a cluster (08 R232) -/

def xlateEngine (s : State) (cl asid va : Nat) (kind : XKind) (space : Nat) : Except Nat Xl :=
  match tlbFind (Tab.get [] s.tlb cl) asid va with
  | some x =>
    match leafPa s.tierTwo x.pte.toNat x.level va kind space with
    | .ok pa => .ok ⟨pa, x.pte.toNat, x.level⟩
    | .error _ => walk s asid va kind space
  | none => walk s asid va kind space

/-- The cluster's TLB after a successful translation. -/
def noteEngine (s : State) (cl asid va : Nat) (r : Xl) : State :=
  let e : TlbEntry := ⟨asid, r.level, va / 2 ^ pageBits r.level, BitVec.ofNat 64 r.pte⟩
  let t := Tab.get [] s.tlb cl
  let s := if (tlbFind t asid va).isNone then (s.count ctrXlMiss cl 1).count ctrXlWalk (cl / 16) 1 else s
  { s with tlb := Tab.set [] s.tlb cl (lruPut 4096 e t) }

/-- The miss and the walk of an engine's translation that faults (08 R244); one on a page with a pending fault joins it. -/
def noteEngineMiss (s : State) (cl asid va : Nat) : State :=
  let s := if (tlbFind (Tab.get [] s.tlb cl) asid va).isNone then s.count ctrXlMiss cl 1 else s
  if s.pendFaults.any fun f => f.sett == cl / 16 && f.asid == asid && f.page == va / 65536 then s else s.count ctrXlWalk (cl / 16) 1

/-! ### The accesses of a copy (R316, R320 to R322) -/

def capHolds (c : Cap) (a : Int) (n : Nat) : Bool := decide ((c.base : Int) ≤ a) && decide (a + n ≤ (c.top : Int))

def Copy.count (c : Copy) : Nat := dCount c.desc
def Copy.idx (c : Copy) (n : Nat) : List Nat := unravel (dExts c.desc) n

/-- Source and destination address of an element, by its indices. -/
def Copy.sa (c : Copy) (i : List Nat) : Int := c.src.cursor + offsetSum (dCs c.desc) (dSs c.desc) i 0
def Copy.da (c : Copy) (i : List Nat) : Int := c.dst.cursor + offsetSum (dCd c.desc) (dDs c.desc) i 0

/-- Rows of the copy: the indices of dimensions 1 up, with index 0 at 0. -/
def Copy.rows (c : Copy) : List (List Nat) :=
  match dExts c.desc with
  | [] => []
  | _ :: l => (List.range (l.foldl (· * ·) 1)).map fun n => 0 :: unravel l n

/-- Address of scale entry `b` of row `r`. -/
def Copy.scaleAddr (c : Copy) (r b : Nat) : Int :=
  c.scap.cursor + ((r * dBlocks c.desc + b) * scaleBytes (dBlockTy c.desc) : Nat)

/-- The indices of each destination element of a transpose, with its source indices where it has one. -/
def Copy.transposed (c : Copy) : List (List Nat × Option (List Nat)) :=
  match dExts c.desc with
  | e0 :: e1 :: l =>
    let ds := pad16 e1 :: pad16 e0 :: l
    if c.count = 0 then []
    else (List.range (ds.foldl (· * ·) 1)).map fun n =>
      match unravel ds n with
      | j0 :: j1 :: r => (j0 :: j1 :: r, if j0 < e1 && j1 < e0 then some (j1 :: j0 :: r) else none)
      | r => (r, none)
  | _ => []

/-- Reads of the source side. -/
def Copy.reads (c : Copy) : List CAcc :=
  let d := c.desc
  if dXf d = 2 then
    let bb := blockBytes (dSty d)
    let sb := scaleBytes (dSty d)
    ((List.range c.rows.length).zip c.rows).flatMap fun x =>
      (List.range (dBlocks d)).flatMap fun b =>
        let a := c.sa x.2 + (b * bb : Nat)
        if capHolds c.src a bb && capHolds c.scap (c.scaleAddr x.1 b) sb then
          [⟨0, a, bb, false⟩, ⟨2, c.scaleAddr x.1 b, sb, false⟩]
        else []
  else
    (List.range c.count).filterMap fun n =>
      let a := c.sa (c.idx n)
      if capHolds c.src a (dSrcSize d) then some ⟨0, a, dSrcSize d, false⟩ else none

/-- Writes of the destination side. -/
def Copy.writes (c : Copy) : List CAcc :=
  let d := c.desc
  if c.kind.isQueue then []
  else if dXf d = 3 then
    let bb := blockBytes (dDty d)
    let sb := scaleBytes (dDty d)
    ((List.range c.rows.length).zip c.rows).flatMap fun x =>
      (List.range (dBlocks d)).flatMap fun b =>
        let a := c.da x.2 + (b * bb : Nat)
        (if capHolds c.dst a bb then [⟨1, a, bb, true⟩] else [])
          ++ (if capHolds c.scap (c.scaleAddr x.1 b) sb then [⟨2, c.scaleAddr x.1 b, sb, true⟩] else [])
  else
    let l := if dXf d = 1 then c.transposed.map fun x => c.da x.1 else (List.range c.count).map fun n => c.da (c.idx n)
    l.filterMap fun a => if capHolds c.dst a (dDstSize d) then some ⟨1, a, dDstSize d, true⟩ else none

def Copy.accs (c : Copy) : List CAcc := c.reads ++ c.writes
def Copy.capOf (c : Copy) (side : Nat) : Cap := if side = 0 then c.src else if side = 1 then c.dst else c.scap
def Copy.asidOf (c : Copy) (k : Cap) : Nat := if k.space = 6 then 0 else c.asid

/-- The place of a granule piece of a copy's access. -/
def copyPlace (s : State) (c : Copy) (k : Cap) (write : Bool) (va : Nat) : Except Nat Target :=
  if isWindow k.space then .ok ⟨0, va, windowLoc s c.crew k.space va, k.space, k.colour, 0, 0⟩
  else
    match listPa k.space va, xlateEngine s (clusterOfCore c.core) (c.asidOf k) va (if write then .write else .read) k.space with
    | some pa, _ => .ok ⟨0, va, .phys pa, k.space, k.colour, 0, 0⟩
    | none, .ok x => .ok ⟨0, va, .phys x.pa, k.space, k.colour, x.pte, x.level⟩
    | none, .error e => .error e

/-- The pieces of an access with their places, or the first fault: code, ASID and address. -/
def placesOf (s : State) (c : Copy) (a : CAcc) : Except (Nat × Nat × Nat) (List (Target × Nat)) :=
  let k := c.capOf a.side
  (granCuts a.addr.toNat a.n).foldr (fun x r =>
    match copyPlace s c k a.write x.1 with
    | .error e => .error (e, c.asidOf k, x.1)
    | .ok t => r.map fun l => (t, x.2) :: l) (.ok [])

/-! ### Issue -/

def copySlots : Nat := 64

/-- Copies of a core that hold a slot. -/
def slotsUsed (s : State) (core : Nat) : Nat := (s.copies.filter fun x => x.2.live && x.2.core == core && onCore s x.2.crew).length

/-- The tiles that a copy fills and drains. -/
def copyFills (d : List W64) : List Nat := if dDtp d then [dDtile d] else []
def copyDrains (d : List W64) : List Nat := if dStp d then [dStile d] else []

/-- Whether the states of the named tiles, and of a follow-on's tiles, allow the copy (07 R206). -/
def copyTilesReady (s : State) (crew pid : Nat) (d : List W64) (m : Option MatPlan) : Bool :=
  (copyFills d).all (fun h => (tileAt s crew h).isReady)
    && (copyDrains d).all (fun h => (tileAt s crew h).canRead)
    && match m with
      | none => true
      | some m => m.fills.all (fun h =>
            if m.acc = some h then (tileAt s crew h).canAccumulate pid else (tileAt s crew h).isReady)
          && m.reads.all fun h => h == dDtile d || (tileAt s crew h).canRead

/-- Strict stamps of a copy's accesses, as far as they translate. -/
def copyStamps (s : State) (pid op : Nat) (c : Copy) : List CAcc → Except Stop State
  | [] => .ok s
  | a :: l =>
    match placesOf s c a with
    | .error _ => copyStamps s pid op c l
    | .ok ts =>
      match strict s pid op (c.capOf a.side).colour
          (ts.map fun x => ⟨granKey x.1.loc, (ofI 54 x.1.addr), a.write, 0⟩) with
      | .error e => .error e
      | .ok s => copyStamps s pid op c l

/-- The accesses of a copy that do not translate at its issue: they are stamped once they do, at the order that the producer had then. -/
def unplaced (s : State) (c : Copy) : List CAcc :=
  if s.isStrict (s.crew c.crew).launch then c.accs.filter fun a => match placesOf s c a with
    | .error _ => true
    | .ok _ => false
  else []

/-- The stamps of those accesses (16 R485). -/
def lateStamps (s : State) (id : Nat) (c : Copy) : Except Stop State :=
  if c.late.isEmpty then .ok s
  else
    let vc := (s.pack c.pack).vc
    (copyStamps (s.modPack c.pack fun p => { p with vc := c.vc }) c.pack (lateOp + id + 1) c c.late).map fun s =>
      s.modPack c.pack fun p => { p with vc := vc }

/-- Whether a copy exposes the interval (R330). -/
def copyExposes (x : CopyArgs) : Bool := !x.kind.isQueue && x.dst.space != 2 && x.dst.space != 6

/-- A copy of no elements completes at once (R315). -/
def emptyCopy (x : CopyArgs) : Bool := dCount x.d == 0

/-- Whether a queue copy of the crew into a queue has entries to push. -/
def queueCopying (s : State) (crew q : Nat) : Bool :=
  s.copies.any fun x => x.2.live && x.2.crew == crew && match x.2.kind with
    | .queue r _ => r == q
    | _ => false

/-- The end marker of a queue copy of no elements with .end (R340): pushed at once where nothing stands before it. -/
def emptyMarker (s : State) (crew : Nat) (k : CopyKind) : Option (Except Stop State) :=
  match k with
  | .queue q true =>
    if queueRoom ≤ (queueOf s crew q).entries.length || queueCopying s crew q then none
    else match trackPush s crew q .copy with
      | .later => none
      | .stop e => some (.error e)
      | .go s => some (.ok (pushEntries s crew q .copy [.stop]))
  | _ => some (.ok s)

/-- The follow-on of a plan as it waits in its copy. -/
def followOp (c : Ctx) (s : State) (m : MatPlan) (n : Nat) : MatOp :=
  ⟨s.curCrewId, s.cur, c.pc, m.kind, m.fills, m.reads, 0, some n, n + 1⟩

/-- A checked copy takes its slot (R311, R324, R328, R330). -/
def startCopy (c : Ctx) (s0 : State) (x : CopyArgs) (m : Option MatPlan) : Res :=
  let pid := s0.cur
  let crew := s0.curCrewId
  let core := s0.curCrew.core
  let lid := s0.curPack.launch
  if !copyTilesReady s0 crew pid x.d m then tileStall s0
  else if copySlots ≤ slotsUsed s0 core then .stall (s0.count ctrCpySlot core 1)
  else
    let (n, s) := s0.newId
    let cp : Copy := ⟨true, core, crew, pid, x.kind, x.d, x.src, x.dst, x.scap, (s.launch lid).asid, .moving, false, [],
      m.map fun m => followOp c s m n, n, [], []⟩
    let s := s.setCur (observeTiles s.curPack (copyFills x.d ++ copyDrains x.d ++ ((m.map fun m => m.fills ++ m.reads).getD [])))
    let cp := { cp with late := unplaced s cp, vc := orderOf s.curPack pid }
    let s := if cp.late.isEmpty then s else s.setCur (bumpEpoch s.curPack pid)
    match (if s.isStrict lid then
        (copyStamps s pid (n + 1) cp cp.accs).bind fun s => strictUses s pid (followOn + n + 1) crew ((m.map (·.uses)).getD [])
      else .ok s) with
    | .error e => resOf c s0 (.stop e)
    | .ok s =>
      match (if copyExposes x then expose s pid else .ok s) with
      | .error e => resOf c s0 (.stop e)
      | .ok s =>
        let s := s.count ctrCpyIssue core 1
        match (if emptyCopy x then emptyMarker s crew x.kind else none) with
        | some (.error e) => resOf c s0 (.stop e)
        | some (.ok s) => .done (if dBarp x.d then arriveCopy s crew (dBar x.d) else s) 0
        | none =>
          let s := raiseTiles s crew otherFiller (copyFills x.d ++ ((m.map (·.fills)).getD [])) (copyDrains x.d)
          .done (s.setCopy n cp) 0

/-- The descriptor of an instruction (R314). -/
def descOf (p : Pack) (e : Enc) : List W64 := (List.range 16).map fun i => rdS p (encB e + i)

/-- RACE 2 of a floating-point reduce-copy in Strict mode (R328), and RACE 4 of a queue bound to another pusher (R337). -/
def copyRace (c : Ctx) (s : State) (k : CopyKind) : Option Trap :=
  if !s.isStrict s.curPack.launch then none
  else match k with
    | .reduce _ ty => if (laneFmt ty).isSome then some (c.openTrap clsRace 2 0) else none
    | .queue q _ => if pushForbidden s s.curCrewId q .copy then some (c.openTrap clsRace 4 (BitVec.ofNat 64 q)) else none
    | _ => none

/-- A copy instruction of one kind; `follow` gives the anchor of a follow-on. -/
def copyBody (kind : Enc → CopyKind) (follow : Enc → Option Nat) (c : Ctx) (s : State) : Res :=
  let p := s.curPack
  if c.m = 0 then .done s 0
  else
    let d := descOf p c.e
    let x : CopyArgs := ⟨kind c.e, d, rdY p (encA c.e), if (kind c.e).isQueue then Cap.null else rdY p (encD c.e), rdY p (dScap d)⟩
    match copyTrap c s x with
    | some t => .trap t
    | none =>
      let plan : Except Trap (Option MatPlan) := match follow c.e with
        | none => .ok none
        | some a => (followPlan c s d ((List.range 4).map fun i => rdS p (a + i))).map some
      match plan with
      | .error t => .trap t
      | .ok m =>
        match copyRace c s x.kind with
        | some t => .trap t
        | none => startCopy c s x m

def execCpy (e : Enc) (s : State) : Host.Outcome State Fault Refusal :=
  issue (.cpy e) e (underCopyr true false (copyBody (fun _ => .plain) fun _ => none)) s
def execCpyMm (e : Enc) (s : State) : Host.Outcome State Fault Refusal :=
  issue (.cpyMm e) e (underCopyr true false (copyBody (fun _ => .mm) fun e => some (encC e))) s
def execCpyr (e : Enc) (s : State) : Host.Outcome State Fault Refusal :=
  issue (.cpyr e) e (underCopyr true false (copyBody (fun e => .reduce (encMod e) (encTy e 0)) fun _ => none)) s
def execCpyq (e : Enc) (s : State) : Host.Outcome State Fault Refusal :=
  issue (.cpyq e) e (underCopyr true true (copyBody (fun e => .queue e.d.toNat (encModBit e 0)) fun _ => none)) s

end Sys2Proof.Machine
end

