-- ==== Sys2Proof/Machine/Engines.lean ====
section
/-! DEFINITION. The events of the copy engines and of the macro sequencers' completions (11 R320 to R328, R340; 12 R367). -/

namespace Sys2Proof.Machine

/-- What stops an event of a copy. -/
inductive CopyStop where
  | fault (code asid va : Nat) (write : Bool)
  /-- waits at an order gate; the state has what it has done so far -/
  | gate (s : State)
  | trap (cls sub : Nat) (val : W64)
  | lost
  | uce (sub : Nat)
  /-- a granule does not match its check value (08 R242) -/
  | check
  deriving DecidableEq, Repr

def copyStop : Stop → CopyStop
  | .trap cls sub val => .trap cls sub val
  | .gate _ s => .gate s
  | .sent s => .gate s
  | .lost => .lost

/-! ### Reading and writing -/

/-- Every piece of some accesses with its place, or the first fault. -/
def allPlaces (s : State) (c : Copy) : List CAcc → Except CopyStop (List (CAcc × Target × Nat))
  | [] => .ok []
  | a :: l =>
    match placesOf s c a with
    | .error (code, asid, va) => .error (.fault code asid va a.write)
    | .ok ts =>
      match allPlaces s c l with
      | .error e => .error e
      | .ok r => .ok (ts.map (fun t => (a, t.1, t.2)) ++ r)

/-- The cluster's TLB after the translations of a copy, and its requests at the quays (01 R25). -/
def notePlaces (s : State) (c : Copy) (l : List (CAcc × Target × Nat)) : State :=
  l.foldl (fun s x =>
    match x.2.1.loc with
    | .phys pa =>
      let s := if x.2.1.pte = 0 then s
        else noteEngine s (clusterOfCore c.core) (c.asidOf (c.capOf x.1.side)) (ofI 54 x.2.1.addr) ⟨pa, x.2.1.pte, x.2.1.level⟩
      s.request 2 pa
    | _ => s) s

/-- Translation, order gates, recalls and integrity of some accesses (R324, R325; 16 R477). -/
def copyPrepare (s : State) (c : Copy) (l : List CAcc) : Except CopyStop State :=
  match allPlaces s c l with
  | .error e => .error e
  | .ok ps =>
    let phys := ps.filter fun x => x.2.1.loc.isPhys
    let adm := (phys.filter fun x => isGated x.2.1.space).map fun x => (x.2.1.loc.off / 64, x.1.write)
    match passGates s (s.crew c.crew).launch (s.pack c.pack).lin (c.order + 1) adm with
    | .error e => .error (copyStop e)
    | .ok s =>
      let s := notePlaces s c ps
      let reads := phys.filter fun x => !x.1.write
      let s := readyRead s (nubNat (reads.map fun x => x.2.1.loc.off / 64))
      match s.uceRanges ((ps.filter fun x => !x.1.write).map fun x => (x.2.1.loc, x.2.2)) with
      | some 3 => .error .check
      | some k => .error (.uce k)
      | none => .ok s

/-- The places of some accesses, with their lengths. -/
def copyRanges (s : State) (c : Copy) (l : List CAcc) : List (Loc × Nat) :=
  l.flatMap fun a => match placesOf s c a with
    | .ok ts => ts.map fun x => (x.1.loc, x.2)
    | .error _ => []

/-- The bytes of an access. -/
def copyBytes (s : State) (c : Copy) (a : CAcc) : List Byte :=
  match placesOf s c a with
  | .ok ts => ts.flatMap fun x => s.locBytes x.1.loc x.2
  | .error _ => List.replicate a.n 0

/-- The tag of a 16-byte source element. -/
def copyTag (s : State) (c : Copy) (a : CAcc) : Bool :=
  match placesOf s c a with
  | .ok (x :: _) => c.src.has pmLoadCap && s.locTag x.1.loc && (isWindow x.1.space || leafCp x.1.pte)
  | _ => false

/-- One write of a copy: side, address, bytes, tag. -/
structure CMove where
  side : Nat
  addr : Int
  bytes : List Byte
  tag : Option Bool
  deriving DecidableEq, Repr

def CMove.acc (m : CMove) : CAcc := ⟨m.side, m.addr, m.bytes.length, true⟩

/-- Source element at some indices: bytes and tag, or the fill value (R316). -/
def srcElem (s : State) (c : Copy) (i : List Nat) : List Byte × Option Bool :=
  let n := dSrcSize c.desc
  let a := c.sa i
  let tagged : Bool := dXf c.desc == 0 && dElog c.desc == 4
  if capHolds c.src a n then
    let x : CAcc := ⟨0, a, n, false⟩
    (copyBytes s c x, if tagged then some (c.dst.has pmStoreCap && copyTag s c x) else none)
  else (leBytes (dW c.desc 1) n, if tagged then some false else none)

/-- The value of a source element of XF 3. -/
def srcValue (s : State) (c : Copy) (i : List Nat) : FVal :=
  ((elemFmt (dSty c.desc)).getD f32).read (leNat (srcElem s c i).1)

/-- The elements of a row of XF 2, with the flags of each (R322). -/
def expandElems (s : State) (c : Copy) (r : Nat) (i : List Nat) : List (Nat × Fl) :=
  let d := c.desc
  let bb := blockBytes (dSty d)
  let sb := scaleBytes (dSty d)
  ((List.range (dBlocks d)).flatMap fun b =>
    let a := c.sa i + (b * bb : Nat)
    if capHolds c.src a bb && capHolds c.scap (c.scaleAddr r b) sb then
      expandRow (dSty d) (dDty d) (RMode.ofCode (dRm d)) (dSat d) (copyBytes s c ⟨0, a, bb, false⟩)
        (copyBytes s c ⟨2, c.scaleAddr r b, sb, false⟩) 32
    else List.replicate 32 (0, 0)).take (dExt d 0)

/-- Whether a value is a NaN or an infinity. -/
def FVal.special : FVal → Bool
  | .nan _ _ _ => true
  | .inf _ => true
  | .num _ _ _ => false

/-- Whether a converted element counts in CPY_CVX (R323): its source is a NaN or an infinity, or it overflows. -/
def cvx (x : FVal × Fl) : Bool := x.1.special || x.2 &&& OF ≠ 0

/-- The values that a row of XF 2 converts. -/
def expandValues (s : State) (c : Copy) (r : Nat) (i : List Nat) : List FVal :=
  let d := c.desc
  let bb := blockBytes (dSty d)
  let sb := scaleBytes (dSty d)
  ((List.range (dBlocks d)).flatMap fun b =>
    let a := c.sa i + (b * bb : Nat)
    if capHolds c.src a bb && capHolds c.scap (c.scaleAddr r b) sb then
      let sc := blockScale (dSty d) (copyBytes s c ⟨2, c.scaleAddr r b, sb, false⟩) 0
      (List.range 32).map fun k => blockValue (dSty d) (rowElem (typeBits (dSty d)) (copyBytes s c ⟨0, a, bb, false⟩) k) sc.1 sc.2
    else List.replicate 32 (.num false 0 0)).take (dExt d 0)

/-- Elements of a row of XF 2 that count in CPY_CVX. -/
def expandCvx (s : State) (c : Copy) (r : Nat) (i : List Nat) : Nat :=
  (((expandValues s c r i).zip ((expandElems s c r i).map (·.2))).filter cvx).length

/-- Whether the block of XF 2 that holds element `k` of a row is read, so that the element is not filled. -/
def blockRead (c : Copy) (r : Nat) (i : List Nat) (k : Nat) : Bool :=
  let d := c.desc
  let a := c.sa i + (k / 32 * blockBytes (dSty d) : Nat)
  capHolds c.src a (blockBytes (dSty d)) && capHolds c.scap (c.scaleAddr r (k / 32)) (scaleBytes (dSty d))

/-- Whether the block of XF 3 that takes element `k` of a row is written with its scale, so that the element is not dropped. -/
def blockKept (c : Copy) (r : Nat) (i : List Nat) (k : Nat) : Bool :=
  let d := c.desc
  let a := c.da i + (k / 32 * blockBytes (dDty d) : Nat)
  capHolds c.dst a (blockBytes (dDty d)) && capHolds c.scap (c.scaleAddr r (k / 32)) (scaleBytes (dDty d))

/-- The writes of a copy, with the elements that were filled or dropped and those that count in CPY_CVX. -/
def copyMoves (s : State) (c : Copy) : List CMove × Nat × Nat :=
  let d := c.desc
  let ms := RMode.ofCode (dRm d)
  let rows := (List.range c.rows.length).zip c.rows
  let held (l : List CMove) : List CMove := l.filter fun m => capHolds (c.capOf m.side) m.addr m.bytes.length
  let size := dDstSize d
  let lost (l : List (List Nat)) : Nat :=
    (l.filter fun i => !(capHolds c.src (c.sa i) (dSrcSize d) && (c.kind.isQueue || capHolds c.dst (c.da i) size))).length
  if dXf d = 3 then
    let qs := rows.map fun x => (x.1, c.da x.2, quantRow (dDty d) ms (dSat d)
      ((List.range (dExt d 0)).map fun k => srcValue s c (k :: x.2.tail)))
    let bb := blockBytes (dDty d)
    let sb := scaleBytes (dDty d)
    (held (qs.flatMap fun q => (List.range (dBlocks d)).flatMap fun b =>
        [⟨1, q.2.1 + (b * bb : Nat), (q.2.2.1.drop (b * bb)).take bb, none⟩,
         ⟨2, c.scaleAddr q.1 b, (q.2.2.2.1.drop (b * sb)).take sb, none⟩]),
      (rows.flatMap fun x => (List.range (dExt d 0)).filter fun k =>
        !(capHolds c.src (c.sa (k :: x.2.tail)) (dSrcSize d) && blockKept c x.1 x.2 k)).length,
      (rows.zip qs).foldl (fun n q =>
        let vs := (List.range (dExt d 0)).map fun k => srcValue s c (k :: q.1.2.tail)
        n + ((vs.zip q.2.2.2.2.2.1).filter cvx).length) 0)
  else if dXf d = 2 then
    let es := rows.flatMap fun x => ((List.range (dExt d 0)).zip (expandElems s c x.1 x.2)).map fun y => (y.1 :: x.2.tail, y.2)
    (held (es.map fun y => ⟨1, c.da y.1, leBytes y.2.1 size, none⟩),
      (rows.flatMap fun x => (List.range (dExt d 0)).filter fun k =>
        !(blockRead c x.1 x.2 k && capHolds c.dst (c.da (k :: x.2.tail)) size)).length,
      rows.foldl (fun n x => n + expandCvx s c x.1 x.2) 0)
  else if dXf d = 1 then
    (held (c.transposed.map fun x =>
        match x.2 with
        | some i => let v := srcElem s c i; ⟨1, c.da x.1, v.1, v.2⟩
        | none => ⟨1, c.da x.1, List.replicate size 0, none⟩),
      (c.transposed.filter fun x => match x.2 with
        | some i => !(capHolds c.src (c.sa i) size && capHolds c.dst (c.da x.1) size)
        | none => false).length, 0)
  else
    let is := (List.range c.count).map c.idx
    (held (is.map fun i => let v := srcElem s c i; ⟨1, c.da i, v.1, v.2⟩), lost is, 0)

/-- Writes of an engine perform at their places: SPM1 under the den, the rest as one write. -/
def engineStores (s : State) (crew : Nat) (l : List IStore) : State :=
  let own := l.filter fun x => match x.loc with | .spm1 .. => true | _ => false
  let out := l.filter fun x => match x.loc with | .spm1 .. => false | _ => true
  performStores (own.foldl (fun s x => writeSpm1 s crew x.loc.off x.bytes x.tag) s) out

/-- The stores of a move, piece by piece. -/
def moveStores (s : State) (c : Copy) (m : CMove) : List IStore :=
  match placesOf s c m.acc with
  | .error _ => []
  | .ok ts =>
    (ts.foldl (fun (r : List IStore × Nat) x =>
      (r.1 ++ [⟨c.pack, 0, x.1.loc, (m.bytes.drop r.2).take x.2, m.tag, bitAt x.1.pte 5, leafCp x.1.pte, x.1.colour, isGated x.1.space⟩],
        r.2 + x.2)) ([], 0)).1

/-! ### Compressed holding in SPM2 and SPM3 (07 R202) -/

/-- The stored-size code of the block at a place. -/
def blockCode (s : State) (l : Loc) : BitVec 2 :=
  match l with
  | .phys a => BitVec.ofNat 2 (3 - Tab.get 0 s.detail (a / 256))
  | .spm1 _ _ => 3
  | l => Tab.get 3 (s.spad l).codes (l.off / 256)

/-- Source and destination places of the elements of a copy without transform. -/
def movedPlaces (s : State) (c : Copy) : List (Loc × Loc × Nat) :=
  let n := dDstSize c.desc
  (List.range c.count).filterMap fun k =>
    let i := c.idx k
    if capHolds c.src (c.sa i) n && capHolds c.dst (c.da i) n then
      match placesOf s c ⟨0, c.sa i, n, false⟩, placesOf s c ⟨1, c.da i, n, true⟩ with
      | .ok ((x, _) :: _), .ok ((y, _) :: _) => some (x.loc, y.loc, n)
      | _, _ => none
    else none

/-- The blocks of SPM2 or SPM3 that a copy leaves compressed, with their codes. -/
def heldBlocks (s : State) (c : Copy) : List (Loc × BitVec 2) :=
  if dXf c.desc ≠ 0 || !(c.dst.space == 3 || c.dst.space == 4) then []
  else
    let l := movedPlaces s c
    (nubNat (l.map fun x => x.2.1.off / 256)).filterMap fun b =>
      let mine := l.filter fun x => x.2.1.off / 256 == b
      match mine with
      | [] => none
      | x :: _ =>
        let whole := (List.range 256).all fun i => mine.any fun y => y.2.1.off ≤ 256 * b + i && 256 * b + i < y.2.1.off + y.2.2
        let same := mine.all fun y => sameRegion y.1 x.1 && y.1.off / 256 == x.1.off / 256 && y.1.off % 256 == y.2.1.off % 256
        let code := blockCode s x.1
        if whole && same && code != 3 then some (x.2.1, code) else none

/-- Sets the code of a block of a window. -/
def setCode (s : State) (l : Loc) (k : BitVec 2) : State :=
  match l with
  | .spm2 g o => s.modGang g fun x => { x with spm2 := { x.spm2 with codes := Tab.set 3 x.spm2.codes (o / 256) k } }
  | .spm3 t o => s.modTroop t fun x => { x with spm3 := { x.spm3 with codes := Tab.set 3 x.spm3.codes (o / 256) k } }
  | _ => s

/-! ### The end of a copy (R324, R326) -/

/-- Tiles of the follow-on that a copy holds filling. -/
def Copy.followFills (c : Copy) : List Nat := (c.follow.map (·.fills)).getD []

/-- The tile counts of the copy itself fall; the replay mark stays until the handle is defined anew (07 R216). -/
def lowerCopy (s : State) (c : Copy) : State := lowerTiles s c.crew otherFiller (copyFills c.desc) (copyDrains c.desc)

/-- A copy completes: its slot is free, and its arrival counts. -/
def freeCopy (s : State) (id : Nat) (c : Copy) : State :=
  let s := s.setCopy id Copy.blank
  let s := noteDone s c.pack (id + 1)
    ((copyFills c.desc ++ copyDrains c.desc).map (fun h => (0, h)) ++ if dBarp c.desc then [(1, dBar c.desc)] else [])
  settleCrew (if dBarp c.desc then arriveCopy s c.crew (dBar c.desc) else s) c.crew

/-- A copy ends fatally. -/
def endFatal (s : State) (id : Nat) (t : Trap) : State :=
  let c := s.copyAt id
  let s := if c.phase == .follow then s else lowerCopy s c
  let s := lowerTiles s c.crew otherFiller c.followFills []
  let s := producerTrap s c.pack c.crew t
  if (s.crew c.crew).live then freeCopy s id c else s

/-- Marks a copy for its replay (R325). -/
def markReplay (s : State) (c : Copy) : State :=
  (copyFills c.desc).foldl (fun s h => modTile s c.crew h fun t => { t with replay := true }) s

/-- The replay of an abandoned copy starts, and counts. -/
def startReplay (s : State) (id : Nat) : State :=
  let c := s.copyAt id
  (s.setCopy id { c with phase := .moving }).count ctrCpyRpl (clusterOfCore c.core) 1

/-- An attempt of a copy ends on a check value that does not match, or on a link CRC failure: the replay starts at once, and a second
mismatch is an uncorrectable error (R325). -/
def integrityFail (s : State) (id : Nat) (link : Bool) : State :=
  let c := s.copyAt id
  if !link && c.replayed then consumeUce s c.crew 3
  else
    let s := if link then s else s.count ctrChkErr (settOfCore c.core) 1
    let s := (markReplay s c).setCopy id { c with replayed := c.replayed || !link, stage := [] }
    startReplay s id

/-- The eight replays of a link CRC error at a quay fail (08 R243, R244). -/
def countLinkFail (s : State) (quay : Nat) : State := (s.count ctrLcrcRpl quay 8).count ctrLcrcFail quay 1

/-- What a stop does to a copy. -/
def copyFail (s : State) (id : Nat) (x : CopyStop) : State :=
  let c := s.copyAt id
  match x with
  | .fault code asid va write =>
    let s := noteEngineMiss s (clusterOfCore c.core) asid va
    if replayable code then
      let cl := clusterOfCore c.core
      let s := markReplay s c
      let s := s.setCopy id { c with phase := .abandoned asid va code, stage := [] }
      postFault s (cl / 16) asid va code (bit write) 2 (cl % 16)
    else
      let cl := clusterOfCore c.core
      endFatal (queueRecord s (cl / 16) asid va code (bit write) 2 (cl % 16)) id ⟨clsXlate, code, BitVec.ofNat 64 va, 0⟩
  | .gate s => s
  | .trap cls sub val => endFatal s id ⟨cls, sub, val, 0⟩
  | .lost => crewAbort s c.crew 9 0 0 0
  | .uce k => consumeUce s c.crew k
  | .check => integrityFail s id false

/-! ### Staging (R328, R340) -/

/-- Bytes that a staged copy holds. -/
def stagedBytes (c : Copy) : Nat := c.stage.foldl (fun n r => n + r.length) 0

/-- Whether a cluster's staging buffer takes `n` more bytes. -/
def stageRoom (s : State) (cl n : Nat) : Bool :=
  (s.copies.foldl (fun k x => if x.2.live && clusterOfCore x.2.core == cl then k + stagedBytes x.2 else k) 0) + n ≤ 4 * 2 ^ 20

/-- Every source element in linear order, as bytes. -/
def stageElems (s : State) (c : Copy) : List (List Byte) :=
  if dXf c.desc = 2 then
    ((List.range c.rows.length).zip c.rows).flatMap fun x => (expandElems s c x.1 x.2).map fun y => leBytes y.1 4
  else (List.range c.count).map fun n => (srcElem s c (c.idx n)).1

/-- The entries of a queue copy: `w` elements each, the last completed with the fill value; an end marker is an empty one. -/
def queueEntries (w fill : Nat) (stop : Bool) (l : List (List Byte)) : List (List Byte) :=
  let all := l ++ List.replicate ((w - l.length % w) % w) (leBytes fill 4)
  ((List.range (all.length / w)).map fun i => ((all.drop (i * w)).take w).flatten) ++ if stop then [[]] else []

def entryOfBytes (w : Nat) (bs : List Byte) : QEntry :=
  if bs.isEmpty then .stop
  else .data ((List.range w).map fun i => BitVec.ofNat 32 (leNat ((bs.drop (4 * i)).take 4)))

/-! ### The events -/

/-- Elements filled or dropped, and those that count in CPY_CVX, of a cluster (R349). -/
def countElems (s : State) (cl : Nat) (l : Nat × Nat) : State :=
  let s := if l.1 = 0 then s else s.count ctrCpyFill cl l.1
  if l.2 = 0 then s else s.count ctrCpyCvx cl l.2

/-- The last byte of a plain copy lands. -/
def landCopy (s : State) (id : Nat) (c : Copy) : State :=
  let cl := clusterOfCore c.core
  match (copyPrepare s c c.accs).bind fun s => (lateStamps s id c).mapError copyStop with
  | .error e => copyFail s id e
  | .ok s =>
    let c := { c with late := [] }
    let (moves, lost, conv) := copyMoves s c
    let held := heldBlocks s c
    let s := if c.dst.space == 2 then countXpand s cl (copyRanges s c c.reads) else s
    let s := engineStores s c.crew (moves.flatMap (moveStores s c))
    let s := held.foldl (fun s x => setCode s x.1 x.2) s
    let s := if held.isEmpty then s else s.count ctrSpmCblk (cl / 16) held.length
    let s := lowerCopy (countElems s cl (lost, conv)) c
    if c.follow.isSome then s.setCopy id { c with phase := .follow } else freeCopy s id c

/-- Whether an earlier queue copy of the crew into the same queue has entries to push, in Strict mode (R337). -/
def earlierPush (s : State) (c : Copy) (q : Nat) : Bool :=
  s.isStrict (s.crew c.crew).launch && s.copies.any fun x => x.2.live && x.2.crew == c.crew && x.2.order < c.order &&
    match x.2.kind with
    | .queue r _ => r == q
    | _ => false

/-- Elements of a queue copy that were filled, and those that count in CPY_CVX (R349). -/
def queueCounts (s : State) (c : Copy) : Nat × Nat :=
  let rows := (List.range c.rows.length).zip c.rows
  if dXf c.desc = 2 then
    ((rows.flatMap fun x => (List.range (dExt c.desc 0)).filter fun k => !blockRead c x.1 x.2 k).length,
      rows.foldl (fun n x => n + expandCvx s c x.1 x.2) 0)
  else (((List.range c.count).filter fun n => !capHolds c.src (c.sa (c.idx n)) (dSrcSize c.desc)).length, 0)

/-- A reduce-copy or queue copy has read its source.  In Strict mode a queue copy first waits for the earlier ones into its queue
(R337). -/
def stageCopy (s : State) (id : Nat) (c : Copy) : State :=
  let w := 2 ^ (s.launch (s.crew c.crew).launch).hdr.pwl
  let size : Nat := match c.kind with
    | .queue _ _ => (c.count + w) * 4
    | _ => c.count * dSrcSize c.desc
  let waits : Bool := match c.kind with
    | .queue q _ => earlierPush s c q
    | _ => false
  if waits || !stageRoom s (clusterOfCore c.core) size then s
  else
    match allPlaces s c c.writes with
    | .error e => copyFail s id e
    | .ok _ =>
      match (copyPrepare s c c.reads).bind fun s => (lateStamps s id c).mapError copyStop with
      | .error e => copyFail s id e
      | .ok s =>
        let c := { c with late := [] }
        let s := if !c.kind.isQueue && c.dst.space == 2 then countXpand s (clusterOfCore c.core) (copyRanges s c c.reads) else s
        let l := stageElems s c
        match c.kind with
        | .queue _ stop =>
          let s := countElems s (clusterOfCore c.core) (queueCounts s c)
          let es := queueEntries w (dW c.desc 1) stop l
          if es.isEmpty then freeCopy s id c else s.setCopy id { c with phase := .staged, stage := es }
        | _ => if l.isEmpty then freeCopy s id c else s.setCopy id { c with phase := .staged, stage := l }

/-- The work of a copy that is moving is done. -/
def execCopyComplete (cp : Nat) (s : State) : Host.Outcome State Fault Refusal :=
  let c := s.copyAt cp
  if c.live && c.phase == .moving && onCore s c.crew then
    .next (match c.kind with
      | .plain => landCopy s cp c
      | .mm => landCopy s cp c
      | .reduce _ _ => stageCopy s cp c
      | .queue _ _ => stageCopy s cp c)
  else .next s

/-- An attempt is abandoned for an integrity error (R325): an even cause is a check-value mismatch, an odd one a link CRC failure
after eight replays, at the quay that the rest of the cause numbers (08 R243, R244). -/
def execCopyAbandon (cp cause : Nat) (s : State) : Host.Outcome State Fault Refusal :=
  let c := s.copyAt cp
  if !(c.live && c.phase == .moving && onCore s c.crew) || 512 ≤ cause then .next s
  else
    .next (integrityFail (if cause % 2 = 1 then countLinkFail s (cause / 2) else s) cp (cause % 2 == 1))

/-- The tiles of a follow-on. -/
def followUses : MatKind → List TileUse
  | .mma acc a scale ta tb w _ _ _ _ _ => mmaUses acc a scale ta tb w
  | .mms out a ty _ w _ _ _ _ => mmsUses out a ty w
  | _ => []

/-- The trap that a follow-on meets at its hand-over: a tile that has gone or no longer fits. -/
def followTrap (s : State) (crew : Nat) (k : MatKind) : Option Trap :=
  match (followUses k).find? fun u => !(tileAt s crew u.h).defined with
  | some u => some ⟨clsTile, 4, BitVec.ofNat 64 u.h, 0⟩
  | none => ((followUses k).find? fun u => !u.fits (tileAt s crew u.h)).map fun u => ⟨clsTile, 7, BitVec.ofNat 64 u.h, 0⟩

/-- The copy engine hands the follow-on over (R327). -/
def handOver (s : State) (id : Nat) (c : Copy) (o : MatOp) : State :=
  let core := (s.crew c.crew).core
  match followTrap s c.crew o.kind with
  | some t => endFatal s id t
  | none =>
    let ready := (tileAt s c.crew (dDtile c.desc)).isReady && (o.drains.all fun h => (tileAt s c.crew h).canRead)
      && (s.seq core).length < seqRoom
    if !ready then s
    else
      let s := lowerTiles s c.crew otherFiller o.fills []
      let s := raiseTiles s c.crew c.pack o.fills o.drains
      (s.setSeq core (s.seq core ++ [o])).setCopy id { c with follow := none }

def execFollowOnHandover (cp : Nat) (s : State) : Host.Outcome State Fault Refusal :=
  let c := s.copyAt cp
  match c.follow with
  | some o => .next (if c.live && c.phase == .follow && onCore s c.crew then handOver s cp c o else s)
  | none => .next s

/-- One staged element is combined into its destination (R328). -/
def applyElem (s : State) (c : Copy) (op ty n : Nat) (x : List Byte) : State :=
  let a : CAcc := ⟨1, c.da (c.idx n), x.length, true⟩
  if capHolds c.dst a.addr a.n then
    let new := atomCombine ty op (leNat (copyBytes s c a)) (leNat x)
    engineStores s c.crew (moveStores s c ⟨1, a.addr, leBytes new x.length, none⟩)
  else s

/-- Phase 2 of a reduce-copy. -/
def applyCopy (s : State) (id : Nat) (c : Copy) (op ty : Nat) : State :=
  match copyPrepare s c c.writes with
  | .error e => copyFail s id e
  | .ok s1 =>
    let places : List (CAcc × Target × Nat) := match allPlaces s1 c c.writes with
      | .ok ps => ps
      | .error _ => []
    let grans := nubNat ((places.filter fun x => x.2.1.loc.isPhys).map fun x => x.2.1.loc.off)
    match s1.uceRanges (places.map fun x => (x.2.1.loc, x.2.2)) with
    | some k => consumeUce s1 c.crew k
    | none =>
      let s2 := readyRead s1 (nubNat (grans.map (· / 64)))
      let s3 := (c.stage.foldl (fun (r : State × Nat) x => (applyElem r.1 c op ty r.2 x, r.2 + 1)) (s2, 0)).1
      let lost := ((List.range c.count).filter fun n =>
        !(capHolds c.src (c.sa (c.idx n)) (dSrcSize c.desc) && capHolds c.dst (c.da (c.idx n)) (dDstSize c.desc))).length
      let s4 := if lost = 0 then s3 else s3.count ctrCpyFill (clusterOfCore c.core) lost
      freeCopy (lowerCopy s4 c) id c

def execCpyrApply (cp : Nat) (s : State) : Host.Outcome State Fault Refusal :=
  let c := s.copyAt cp
  match c.kind with
  | .reduce op ty => .next (if c.live && c.phase == .staged && onCore s c.crew then applyCopy s cp c op ty else s)
  | _ => .next s

/-- A queue copy pushes one entry. -/
def pushStaged (s : State) (id : Nat) (c : Copy) (q : Nat) : State :=
  match c.stage with
  | [] => s
  | e :: rest =>
    if queueRoom ≤ (queueOf s c.crew q).entries.length || earlierPush s c q then s
    else if pushForbidden s c.crew q .copy then endFatal s id ⟨clsRace, 4, BitVec.ofNat 64 q, 0⟩
    else
      match trackPush s c.crew q .copy with
      | .later => s
      | .stop (.trap cls sub val) => endFatal s id ⟨cls, sub, val, 0⟩
      | .stop _ => crewAbort s c.crew 9 0 0 0
      | .go s =>
        let w := 2 ^ (s.launch (s.crew c.crew).launch).hdr.pwl
        let s := pushEntries s c.crew q .copy [entryOfBytes w e]
        if rest.isEmpty then freeCopy s id c else s.setCopy id { c with stage := rest }

def execCpyqPush (cp : Nat) (s : State) : Host.Outcome State Fault Refusal :=
  let c := s.copyAt cp
  match c.kind with
  | .queue q _ => .next (if c.live && c.phase == .staged && onCore s c.crew then pushStaged s cp c q else s)
  | _ => .next s

/-- The instruction at the head of a core's queue completes (12 R367), and with it the copy whose follow-on it is. -/
def execMatrixComplete (core : Nat) (s : State) : Host.Outcome State Fault Refusal :=
  match s.seq core with
  | [] => .next s
  | o :: l =>
    if 1024 ≤ core ∨ o.step < opSteps s o then .next s
    else
      match s.uceRanges (matPlaces s o) with
      | some k => .next (consumeUce s o.crew k)
      | none =>
        let s := matLand (s.setSeq core l) o
        if !(s.crew o.crew).live then .next s
        else
          match o.copy with
          | some id => .next (if (s.copyAt id).live then freeCopy s id (s.copyAt id) else settleCrew s o.crew)
          | none => .next (settleCrew s o.crew)

end Sys2Proof.Machine
end

