-- ==== Sys2Proof/Machine/Header.lean ====
section
/-! DEFINITION. Reads and writes that the device makes for itself, the launch header, and the checks of a launch (13 R386,
R393, R396 to R398, R408, R415; 05 R136; 09 R254, R255; 15 R451; 16 R474, R475, R486). -/

namespace Sys2Proof.Machine

/-! ### The device's own reads and writes (R393) -/

/-- What stops a read of the launch unit: a fault, as code, ASID and address, a granule that may not be used, or a check of
R398. -/
inductive DevErr where
  | fault (code asid va : Nat) (write : Bool)
  | bad
  | reject (sub : Nat)
  deriving DecidableEq, Repr

/-- The physical pieces of a range of an address space. -/
def devPlaces (s : State) (asid : Nat) (kind : XKind) (space : Nat) : List (Nat × Nat) → Except DevErr (List (Xl × Nat))
  | [] => .ok []
  | (a, n) :: l =>
    match walk s asid a kind space with
    | .error code => .error (.fault code asid a (kind == .write))
    | .ok x =>
      match devPlaces s asid kind space l with
      | .error e => .error e
      | .ok r => .ok ((x, n) :: r)

/-- The host-class requests of some accesses at the quays, and their walks, of which the launch unit keeps none (01 R25; 08 R244). -/
def devNote (s : State) (ps : List (Xl × Nat)) : State :=
  let s := ps.foldl (fun s x => s.request 6 x.1.pa) s
  let n := (nubNat (ps.map fun x => x.1.pa / 65536)).length
  if n = 0 then s else s.count ctrXlWalk 0 n

/-- Reads bytes at system scope: what reaches a granule with an uncorrectable error, a check value that does not match among them, is
never used (R393; 08 R242, R243). -/
def devReadIn (s : State) (asid va n space : Nat) : Except DevErr (State × List Byte) :=
  match devPlaces s asid .read space (granCuts va n) with
  | .error e => .error e
  | .ok ps =>
    if ps.any fun x => (s.uceAt x.1.pa).isSome then .error .bad
    else
      let s := readyRead (devNote s ps) (nubNat (ps.map fun x => x.1.pa / 64))
      .ok (s, ps.flatMap fun x => s.rdBytes x.1.pa x.2)

def devRead (s : State) (asid va n : Nat) : Except DevErr (State × List Byte) := devReadIn s asid va n spaceAny

/-- The tag of a 16-byte unit, as ld.cap delivers it (08 R228). -/
def devTag (s : State) (asid va : Nat) : Bool :=
  match walk s asid va .read spaceAny with
  | .ok x => s.tagAt x.pa && leafCp x.pte
  | .error _ => false

/-- Whether an address lies in host or peer memory, from which a header delivers null capabilities (13 R396; 17 R493). -/
def devOutside (s : State) (asid va : Nat) : Bool :=
  match walk s asid va .read spaceAny with
  | .ok x => 2 ^ 50 ≤ x.pa
  | .error _ => false

/-- Writes bytes. -/
def devWrite (s : State) (asid va : Nat) (bs : List Byte) : Except DevErr State :=
  match devPlaces s asid .write spaceAny (granCuts va bs.length) with
  | .error e => .error e
  | .ok ps =>
    .ok (performPieces (devNote s ps) ((ps.foldl (fun (r : List Piece × Nat) x =>
      (r.1 ++ [⟨x.1.pa, (bs.drop r.2).take x.2, none, bitAt x.1.pte 5, leafCp x.1.pte⟩], r.2 + x.2)) ([], 0)).1))

/-- Bytes of a list as a number. -/
def fieldAt (b : List Byte) (off n : Nat) : Nat := leNat ((b.drop off).take n)
def zeroAt (b : List Byte) (off n : Nat) : Bool := ((b.drop off).take n).all (· == 0)

/-! ### The header (R396) -/

def headerSize : Nat := 320

/-- The fields of a header; the capabilities come with their tags, or none of them comes. -/
def parseHeader (addr : Nat) (b : List Byte) (tags : List (Option Bool)) : Header :=
  let mode := fieldAt b 0x1F 1
  { Header.blank with
    addr := addr
    entry := fieldAt b 0 8
    text := fieldAt b 8 8
    textsz := fieldAt b 0x10 4
    pwl := fieldAt b 0x14 1
    nf := fieldAt b 0x15 1
    widths := (List.range 6).map fun i => fieldAt b (0x16 + i) 1
    packs := fieldAt b 0x1C 1
    prod := fieldAt b 0x1D 1
    macros := fieldAt b 0x1E 1
    stream := bitAt mode 0
    dmode := bits mode 1 2
    prio := bits mode 3 2
    spm1 := fieldAt b 0x20 4
    spm2 := fieldAt b 0x24 4
    spm3 := fieldAt b 0x28 4
    fenv := BitVec.ofNat 32 (fieldAt b 0x2C 4)
    c2 := fieldAt b 0x30 2
    c3 := fieldAt b 0x32 2
    c4 := fieldAt b 0x34 2
    bver := fieldAt b 0x36 2
    c5 := fieldAt b 0x38 8
    extent := fieldAt b 0x40 8
    quantum := fieldAt b 0x48 8
    trap := fieldAt b 0x50 8
    track := fieldAt b 0x58 8
    tracksz := fieldAt b 0x60 8
    berth := fieldAt b 0x68 8
    nberth := fieldAt b 0x70 4
    bound := fieldAt b 0x78 8
    stamp := fieldAt b 0x80 8
    stampsz := fieldAt b 0x88 8
    graph := fieldAt b 0x90 8
    live := fieldAt b 0x98 8
    nlive := fieldAt b 0xA0 4
    colour := fieldAt b 0xA4 1
    ys := (List.range 5).map fun i => match tags.getD i none with
      | some t => ⟨t, BitVec.ofNat 128 (fieldAt b (0xC0 + 16 * i) 16)⟩
      | none => Cap.null
    args := (List.range 4).map fun i => BitVec.ofNat 64 (fieldAt b (0x110 + 8 * i) 8) }

/-- The level counts c0 to c5 (R397). -/
def Header.counts (h : Header) : List Nat := [2 ^ h.pwl, h.packs, h.c2, h.c3, h.c4, h.c5]
def prodNat (l : List Nat) : Nat := l.foldl (· * ·) 1

/-- Whether an address is that of an instruction of .text. -/
def Header.inText (h : Header) (a : Nat) : Bool := a % 4 == 0 && h.text ≤ a && a < h.text + h.textsz

/-- Reserved bytes and limits of R396 (check 1), but for the bound table. -/
def headerOk (b : List Byte) (h : Header) : Bool :=
  zeroAt b 0x74 4 && zeroAt b 0xA5 27 && zeroAt b 0x130 16 && bits (fieldAt b 0x1F 1) 5 3 == 0
    && h.inText h.entry && h.textsz % 4 == 0 && 4 ≤ h.pwl && h.pwl ≤ 6 && 1 ≤ h.nf && h.nf ≤ 6
    && h.widths.headD 0 == h.pwl && (h.widths.drop h.nf).all (· == 0) && h.widths.foldl (· + ·) 0 ≤ 64
    && 1 ≤ h.packs && h.packs ≤ 32 && (h.prod < h.packs || h.prod == 0xFF) && h.macros ≤ 8 && h.dmode != 3
    && h.spm1 % 64 == 0 && h.spm2 % 64 == 0 && h.spm3 % 64 == 0
    && (h.fenv.toNat < 2048 && bits h.fenv.toNat 5 3 == 0 && bits h.fenv.toNat 8 3 ≤ 4)
    && 1 ≤ h.c2 && 1 ≤ h.c3 && 1 ≤ h.c4 && 1 ≤ h.c5 && 1 ≤ h.extent && h.extent ≤ prodNat h.counts
    && (h.trap == 0 || h.inText h.trap) && h.nberth ≤ 65536 && h.nlive ≤ 4096

/-- The field widths hold the counts (check 2). -/
def widthsOk (h : Header) : Bool :=
  ((List.range (h.nf - 1)).all fun k => h.counts.getD k 0 ≤ 2 ^ h.widths.getD k 0)
    && prodNat (h.counts.drop (h.nf - 1)) ≤ 2 ^ h.widths.getD (h.nf - 1) 0

def spm1Cap : Nat := 2 * 2 ^ 20
def spm2Cap : Nat := 32 * 2 ^ 20
def spm3Cap : Nat := 448 * 2 ^ 20
/-- 4 KiB pages of an allotment (07 R197). -/
def pagesOf (n : Nat) : Nat := (roundAllot n + 4095) / 4096

/-- Check 3. -/
def allotsOk (h : Header) : Bool :=
  roundAllot h.spm1 ≤ spm1Cap && roundAllot h.spm2 ≤ spm2Cap && roundAllot h.spm3 ≤ spm3Cap && !(h.prod == 0xFF && h.stream)

/-- Gangs that hold a thread. -/
def Header.gangCount (h : Header) : Nat := ceilDiv h.crews h.c2
/-- Crews of the largest gang. -/
def Header.gangCrews (h : Header) : Nat := min h.c2 h.crews

/-- Crews of the launch that one empty core holds. -/
def crewsPerCore (h : Header) : Nat :=
  let a := 32 / h.packs
  let b := if h.spm1 = 0 then a else min a (512 / pagesOf h.spm1)
  let c := if h.macros = 0 then b else min b (8 / h.macros)
  if h.stream then min c 1 else c

/-- Check 4. -/
def gangFits (h : Header) : Bool := h.gangCrews ≤ 8 * crewsPerCore h

/-! ### The tables -/

/-- One entry of the bound table, if it is well formed (15 R451). -/
def parseBound (b : List Byte) : Option BoundEntry :=
  let e : BoundEntry := ⟨BitVec.ofNat 64 (fieldAt b 0 8), BitVec.ofNat 64 (fieldAt b 8 8), fieldAt b 16 1, fieldAt b 17 1⟩
  let lo := boundValue e.kind e.low
  let hi := boundValue e.kind e.high
  if 2 < e.kind || 2 < e.action || !zeroAt b 18 14 then none
  else if e.kind = 0 then some e
  else if lo.isNan || hi.isNan || realLt hi lo then none
  else some e

/-- The bound table of a header. -/
def parseBounds (b : List Byte) : Option (Tab BoundEntry) :=
  (List.range 256).foldl (fun (r : Option (Tab BoundEntry)) i =>
    match r, parseBound ((b.drop (32 * i)).take 32) with
    | some t, some e => some (Tab.set BoundEntry.unused t i e)
    | _, _ => none) (some [])

/-- The .live entries, as offsets in .text made addresses (05 R136, 02 R63). -/
def parseLive (text n : Nat) (b : List Byte) : Option (List LiveEntry) :=
  (List.range n).foldr (fun i (r : Option (List LiveEntry)) =>
    let x := (b.drop (48 * i)).take 48
    let e : LiveEntry :=
      ⟨text + fieldAt x 0 4, text + fieldAt x 4 4, BitVec.ofNat 256 (fieldAt x 8 32), BitVec.ofNat 64 (fieldAt x 40 8)⟩
    match r with
    | some l => if e.stop ≤ e.start then none else some (e :: l)
    | none => none) (some [])

/-- Whether a berth has a legal range (R254). -/
def berthOk (b : Berth) : Bool :=
  b.base % 64 == 0 && b.len % 64 == 0 && 64 ≤ b.len && b.len < 2 ^ 32 && b.base < 2 ^ 54

def berthsMeet (a b : Berth) : Bool := a.base < b.base + b.len && b.base < a.base + a.len

/-- The berth table, if every entry is legal and none overlaps another (R254, R255). -/
def parseBerths (n : Nat) (b : List Byte) : Option (List Berth) :=
  (List.range n).foldl (fun (r : Option (List Berth)) i =>
    let x := (b.drop (16 * i)).take 16
    let e : Berth := ⟨fieldAt x 0 8, fieldAt x 8 4, fieldAt x 12 2⟩
    match r with
    | some l => if berthOk e && zeroAt x 14 2 && !(l.any (berthsMeet e)) then some (l ++ [e]) else none
    | none => none) (some [])

/-- A graph descriptor (R408, R415), with node 0 first. -/
def parseGraph (h : Header) (b : List Byte) : Option Graph :=
  let n := fieldAt b 0 4
  let recb := fieldAt b 4 4
  let pooln := fieldAt b 8 4
  let pool := fieldAt b 16 8
  let node (i : Nat) : Node :=
    ⟨fieldAt b (0x20 + 16 * i) 4, fieldAt b (0x24 + 16 * i) 2, fieldAt b (0x28 + 16 * i) 4, [], 0, 0⟩
  let ok (i : Nat) : Bool :=
    let x := node i
    x.entry % 4 == 0 && x.entry < h.textsz && 1 ≤ x.batch && x.batch ≤ 1024 && 1 ≤ x.tout
      && 4 * x.batch ≤ h.spm1
  let zeros (i : Nat) : Bool := zeroAt b (0x26 + 16 * i) 2 && zeroAt b (0x2C + 16 * i) 4
  let size := pooln * recb
  if 1 ≤ n && n ≤ 256 && 64 ≤ recb && recb ≤ 4096 && recb % 64 == 0 && 1 ≤ pooln && pooln ≤ 2 ^ 24 && zeroAt b 12 4
      && zeroAt b 24 8 && pool % 64 == 0 && pool + size ≤ 2 ^ 54
      && (fitBounds pool (pool + size)).2 == (pool, pool + size)
      && ((List.range n).all fun i => zeros i && (i == 0 || ok i))
  then some ⟨true, recb, pooln, pool, (List.range n).map node, [], []⟩
  else none

/-! ### Context space (R400) -/

/-- Bytes of a pack image (05 R141). -/
def imageSize (w : Nat) : Nat := (0x4000 + 9472 * w + 65535) / 65536 * 65536
/-- Bytes of a crew save block. -/
def saveBlock (h : Header) : Nat := (1408 * 1024 + roundAllot h.spm1 + 512 * 1024 * h.macros + 65535) / 65536 * 65536

/-- What one gang needs: its crews' images and blocks, and its SPM2 and its troop's SPM3. -/
def gangSave (h : Header) (crews : Nat) : Nat :=
  crews * (h.packs * imageSize (2 ^ h.pwl) + saveBlock h) + roundAllot h.spm2 + roundAllot h.spm3

/-! ### Reading and checking a launch (R398) -/

/-- Fails with a check's number. -/
def need (b : Bool) (sub : Nat) : Except DevErr Unit := if b then .ok () else .error (.reject sub)

/-- Translates every page of a region as a write (R475, R486). -/
def touchRegion (s : State) (asid base n : Nat) : Except DevErr Unit :=
  (devPlaces s asid .write spaceAny ((List.range ((base + n - 1) / 65536 - base / 65536 + 1)).map fun i =>
    (max base (65536 * (base / 65536 + i)), 1))).map fun _ => ()

/-- The segment sizes of a recording (R474). -/
def trackD (h : Header) : Nat := 64 * (h.tracksz / 256)
def trackS (h : Header) : Nat := 64 * ((h.tracksz - 64 - 2 * trackD h) / 16384)

/-- The bytes used of each quay segment of a recording. -/
def readUsed (s : State) (asid : Nat) (h : Header) (t : TrackRun) : List Nat → Except DevErr (State × Tab Nat)
  | [] => .ok (s, [])
  | q :: l =>
    match devRead s asid (quaySegAt h t q) 8 with
    | .error e => .error e
    | .ok (s, b) =>
      match readUsed s asid h t l with
      | .error e => .error e
      | .ok (s, r) => .ok (s, Tab.set 0 r q (leNat b))

/-- Opens the track region: a recording or a replay (check 8). -/
def openTrack (s : State) (asid : Nat) (h : Header) : Except DevErr (State × TrackRun) := do
  need (h.track % 64 == 0 && h.tracksz % 64 == 0 && 64 ≤ trackD h && 64 + 2 * trackD h ≤ h.tracksz && 64 ≤ trackS h) 8
  touchRegion s asid h.track h.tracksz
  let (s, b) ← devRead s asid h.track 64
  if fieldAt b 0 8 = 1 then
    let d := fieldAt b 0x20 8
    let sz := fieldAt b 0x18 8
    let du := fieldAt b 8 8
    let hu := fieldAt b 0x10 8
    need (0 < d && 0 < sz && d % 64 == 0 && sz % 64 == 0 && 0x40 + 2 * d + 256 * sz ≤ h.tracksz
      && du % 16 == 0 && hu % 16 == 0 && du ≤ d && hu ≤ d) 8
    let t : TrackRun := { TrackRun.blank with replay := true, d := d, s := sz, dused := du, hused := hu }
    let (s, used) ← readUsed s asid h t (List.range 256)
    need (used.all fun x => x.2 % 8 == 0 && x.2 ≤ sz - 8) 8
    pure (s, { t with qused := used })
  else
    let t : TrackRun := { TrackRun.blank with d := trackD h, s := trackS h }
    let s ← devWrite s asid (h.track + 8) (leBytes 0 16)
    let s ← devWrite s asid (h.track + 0x18) (leBytes (trackS h) 8 ++ leBytes (trackD h) 8)
    let s := (List.range 256).foldl (fun s q =>
      match devWrite s asid (quaySegAt h t q) (leBytes 0 8) with
      | .ok s => s
      | .error _ => s) s
    pure (s, t)

/-- Opens the stamp region of a Strict launch (R486, check 8). -/
def openStamps (s : State) (asid : Nat) (h : Header) : Except DevErr State := do
  need (h.stamp % 64 == 0 && h.stampsz % 64 == 0 && 128 ≤ h.stampsz) 8
  touchRegion s asid h.stamp h.stampsz
  devWrite s asid h.stamp (leBytes 0 8 ++ leBytes ((h.stampsz - 64) / 64) 8)

/-- Where a launch comes from, for its checks. -/
structure LaunchReq where
  asid : Nat
  addr : Nat
  graph : Bool
  /-- the queue's context area, if the launch has one -/
  ctxsz : Option Nat
  deriving DecidableEq, Repr

/-- A launch's header and tables, after every check. -/
structure Loaded where
  hdr : Header
  liveTab : List LiveEntry
  bounds : Tab BoundEntry
  berths : List Berth
  /-- the moorings of the static berths: index and quay -/
  moors : List (Nat × Nat)
  graph : Graph
  track : TrackRun
  deriving DecidableEq, Repr

/-- The moorings that static berths need, each at the home quay of its first berth (R256). -/
def berthMoors (s : State) (asid : Nat) : List Berth → List (Nat × Nat) → Except DevErr (List (Nat × Nat))
  | [], m => .ok m
  | b :: l, m =>
    if m.any fun x => x.1 == b.moor then berthMoors s asid l m
    else match walk s asid b.base .read 5 with
      | .ok x => berthMoors s asid l (m ++ [(b.moor, homeQuay x.pa)])
      | .error code => .error (.fault code asid b.base false)

/-- Reads a table of the header; an address of 0 names none. -/
def readTable (s : State) (asid va n : Nat) : Except DevErr (State × List Byte) :=
  if va = 0 then .ok (s, []) else devRead s asid va n

/-- The checks of R398 in order. -/
def loadLaunch (s : State) (r : LaunchReq) : Except DevErr (State × Loaded) := do
  need (r.addr % 64 == 0) 1
  let (s, b) ← devRead s r.asid r.addr headerSize
  let h := parseHeader r.addr b ((List.range 5).map fun i =>
    let a := r.addr + 0xC0 + 16 * i
    if devOutside s r.asid a then none else some (devTag s r.asid a))
  need (headerOk b h) 1
  let (s, bb) ← readTable s r.asid h.bound 8192
  let bounds ← match parseBounds bb with
    | some t => pure t
    | none => throw (.reject 1)
  need (widthsOk h) 2
  need (allotsOk h) 3
  need (gangFits h) 4
  need (h.bver == 3 || h.bver == 2) 5
  let nl := if h.live = 0 then 0 else h.nlive
  let (s, lb) ← readTable s r.asid h.live (48 * nl)
  let live ← match parseLive h.text nl lb with
    | some l => pure l
    | none => throw (.reject 6)
  let nb := if h.berth = 0 then 0 else h.nberth
  let (s, tb) ← readTable s r.asid h.berth (16 * nb)
  let berths ← match parseBerths nb tb with
    | some l => pure l
    | none => throw (.reject 7)
  let moors ← berthMoors s r.asid berths []
  let (s, track) ← if h.dmode = 1 then openTrack s r.asid h else pure (s, TrackRun.blank)
  let s ← if h.dmode = 2 then openStamps s r.asid h else pure s
  need (!r.graph || h.graph != 0) 9
  let (s, graph) ← if h.graph != 0 then do
      let (s, g0) ← devRead s r.asid h.graph 32
      need (1 ≤ fieldAt g0 0 4 && fieldAt g0 0 4 ≤ 256) 9
      let (s, g1) ← devRead s r.asid (h.graph + 32) (16 * fieldAt g0 0 4)
      match parseGraph h (g0 ++ g1) with
      | some g => pure (s, if r.graph then g else Graph.blank)
      | none => throw (.reject 9)
    else pure (s, Graph.blank)
  need (match r.ctxsz with
    | some n => gangSave h h.gangCrews ≤ n
    | none => true) 10
  pure (s, ⟨h, live, bounds, berths, moors, graph, track⟩)

end Sys2Proof.Machine
end

