-- ==== Sys2Proof/Machine/Image.lean ====
section
/-! DEFINITION. The context image of a pack: what a save writes and what a return loads (05 R141 to R143; 15 R445, R448). -/

namespace Sys2Proof.Machine

/-! ### What a save writes -/

/-- Bits of a list, bit n for element n. -/
def bitsOf (l : List Bool) : Nat := l.foldr (fun b n => bit b + 2 * n) 0

/-- A loop stack of four entries, entry 0 at the bottom. -/
def loopBytes (l : List LoopEntry) : List Byte :=
  let e (x : LoopEntry) : List Byte := leBytes x.start.toNat 8 ++ leBytes x.stop.toNat 8 ++ leBytes x.count.toNat 8
  l.reverse.flatMap e ++ List.replicate (96 - 24 * l.length) 0

/-- The 16 bytes of a deferred trap. -/
def deferredBytes (t : Trap) : List Byte := leBytes t.cls 1 ++ [0] ++ leBytes t.sub 2 ++ leBytes 0 4 ++ leBytes t.val.toNat 8

/-- The save area of R448. -/
def saveBytes (a : SaveArea) : List Byte :=
  loopBytes a.loops ++ leBytes a.loops.length 1 ++ leBytes (bit a.inHandler) 1 ++ leBytes 0 6 ++ leBytes a.mask.toNat 8
    ++ leBytes a.next.toNat 8 ++ List.replicate 56 0

/-- Bytes 0x000 to 0x45F. -/
def imageHead (p : Pack) : List Byte :=
  ((List.range 64).flatMap fun i => leBytes (if p.sdead.getLsbD i then 0 else (Tab.get 0 p.s i).toNat) 8)
    ++ (p.y.flatMap fun c => leBytes c.word.toNat 16)
    ++ leBytes (bitsOf (p.y.map (·.tag))) 1 ++ leBytes p.loops.length 1 ++ leBytes 0 6
    ++ leBytes p.sdead.toNat 8
    ++ leBytes p.fenv.toNat 4 ++ leBytes p.rm.toNat 4 ++ leBytes p.slb.toNat 4 ++ leBytes p.sflag.toNat 4
    ++ leBytes p.rng.toNat 8 ++ leBytes p.tepc.toNat 8 ++ leBytes p.tcause.toNat 8 ++ leBytes p.tmask.toNat 8
    ++ leBytes p.tval.toNat 8 ++ leBytes p.issues 8 ++ loopBytes p.loops ++ leBytes p.kept.toNat 32 ++ saveBytes p.save
    ++ leBytes p.hash.toNat 8 ++ leBytes p.commit 8 ++ leBytes p.geo 2 ++ leBytes p.deferred.length 1 ++ leBytes 0 13
    ++ p.deferred.flatMap deferredBytes ++ List.replicate (64 - 16 * p.deferred.length) 0

/-- The section of a thread. -/
def imageThread (p : Pack) (t : Nat) : List Byte :=
  let th := packThread p t
  leBytes th.pc.toNat 8 ++ leBytes th.calls.length 2 ++ leBytes (bit th.exited + 2 * bit th.held) 1 ++ leBytes 0 1
    ++ leBytes th.age 2 ++ leBytes (th.preds.toNat ||| 0x80) 2 ++ leBytes th.fflags.toNat 4
    ++ leBytes (bitsOf ((List.range 16).map fun n => (Tab.get Cap.null p.k (64 * n + t)).tag)) 2 ++ leBytes 0 10
    ++ leBytes th.vdead.toNat 32

/-- Vector rows that are not dead in every thread (an exited thread counts as dead, R137). -/
def liveRows (p : Pack) : List Nat :=
  (List.range 256).filter fun n => (List.range p.width).any fun t => let th := packThread p t; !th.exited && !th.vdead.getLsbD n

def vecAt (w n t : Nat) : Nat := 0x4000 + 4 * w * n + 4 * t
def capAt (w n t : Nat) : Nat := 0x4000 + 1024 * w + 16 * w * n + 16 * t
def callAt (w i t : Nat) : Nat := 0x4000 + 1280 * w + 8 * w * i + 8 * t

/-- The pieces that a save writes, by offset. -/
def imagePieces (p : Pack) : List (Nat × List Byte) :=
  let ts := List.range p.width
  (0, imageHead p) :: ts.map (fun t => (0x1000 + 64 * t, imageThread p t))
    ++ (liveRows p).map (fun n => (vecAt p.width n 0, ts.flatMap fun t => leBytes (Tab.get 0 p.v (64 * n + t)).toNat 4))
    ++ (List.range 16).map (fun n =>
        (capAt p.width n 0, ts.flatMap fun t => leBytes (Tab.get Cap.null p.k (64 * n + t)).word.toNat 16))
    ++ ts.flatMap fun t =>
        let l := (packThread p t).calls.reverse
        (List.range l.length).map fun i => (callAt p.width i t, leBytes (l.getD i 0).toNat 8)

/-- Writes the image of a pack at its base. -/
def saveImage (s : State) (base : Nat) (p : Pack) : State :=
  (imagePieces p).foldl (fun s x => ctxWrite s (base + x.1) x.2) s

/-! ### What a return loads -/

/-- `n` loop entries with entry 0 at the bottom, latest first. -/
def readLoops (s : State) (va n : Nat) : List LoopEntry :=
  ((List.range (min n 4)).map fun i =>
    ⟨BitVec.ofNat 64 (ctxNat s (va + 24 * i) 8), BitVec.ofNat 64 (ctxNat s (va + 24 * i + 8) 8),
      BitVec.ofNat 64 (ctxNat s (va + 24 * i + 16) 8)⟩).reverse

def readThread (s : State) (base w t : Nat) (old : Thread) : Thread :=
  let a := base + 0x1000 + 64 * t
  let fl := ctxNat s (a + 0x0A) 1
  { old with
    pc := BitVec.ofNat 64 (ctxNat s a 8)
    calls := ((List.range (min 1024 (ctxNat s (a + 8) 2))).map fun i => BitVec.ofNat 64 (ctxNat s (base + callAt w i t) 8)).reverse
    exited := bitAt fl 0
    held := bitAt fl 1
    age := ctxNat s (a + 0x0C) 2
    preds := BitVec.ofNat 16 (ctxNat s (a + 0x0E) 2 ||| 0x80)
    fflags := BitVec.ofNat 5 (ctxNat s (a + 0x10) 4)
    vdead := BitVec.ofNat 256 (ctxNat s (a + 0x20) 32) }

/-- The vector rows of an image that are not dead in every thread, over those of the pack. -/
def readVectors (s : State) (base : Nat) (p : Pack) : Tab W32 :=
  (liveRows p).foldl (fun v n =>
    (List.range p.width).foldl (fun v t => Tab.set 0 v (64 * n + t) (BitVec.ofNat 32 (ctxNat s (base + vecAt p.width n t) 4))) v) p.v

def readCaps (s : State) (base : Nat) (p : Pack) : Tab Cap :=
  (List.range 16).foldl (fun k n =>
    (List.range p.width).foldl (fun k t =>
      Tab.set Cap.null k (64 * n + t)
        ⟨bitAt (ctxNat s (base + 0x1000 + 64 * t + 0x14) 2) n, BitVec.ofNat 128 (ctxNat s (base + capAt p.width n t) 16)⟩) k) p.k

/-- The deferred traps of an image; the threads that each names are those that are selected at its delivery (15 R445). -/
def readDeferred (s : State) (va n : Nat) : List Trap :=
  (List.range (min n 4)).map fun i =>
    ⟨ctxNat s (va + 16 * i) 1, ctxNat s (va + 16 * i + 2) 2, BitVec.ofNat 64 (ctxNat s (va + 16 * i + 8) 8), 0⟩

/-- The pack as its image has it; deferred traps that have arisen since the save come after those of the image. -/
def readPack (s : State) (base : Nat) (p : Pack) : Pack :=
  let w64 (o : Nat) : W64 := BitVec.ofNat 64 (ctxNat s (base + o) 8)
  let w32 (o : Nat) : W32 := BitVec.ofNat 32 (ctxNat s (base + o) 4)
  let q : Pack := { p with
    threads := (List.range p.width).map fun t => readThread s base p.width t (packThread p t)
    s := (List.range 64).foldl (fun x i => Tab.set 0 x i (w64 (8 * i))) []
    y := (List.range 8).map fun i => ⟨bitAt (ctxNat s (base + 0x280) 1) i, BitVec.ofNat 128 (ctxNat s (base + 0x200 + 16 * i) 16)⟩
    loops := readLoops s (base + 0x2D0) (ctxNat s (base + 0x281) 1)
    sdead := w64 0x288
    fenv := w32 0x290
    rm := w32 0x294
    slb := w32 0x298
    sflag := w32 0x29C
    rng := w64 0x2A0
    tepc := w64 0x2A8
    tcause := w32 0x2B0
    tmask := w64 0x2B8
    tval := w64 0x2C0
    issues := ctxNat s (base + 0x2C8) 8
    kept := BitVec.ofNat 256 (ctxNat s (base + 0x330) 32)
    save := ⟨readLoops s (base + 0x350) (ctxNat s (base + 0x3B0) 1), bitAt (ctxNat s (base + 0x3B1) 1) 0, w64 0x3B8, w64 0x3C0⟩
    hash := w64 0x400
    commit := ctxNat s (base + 0x408) 3
    geo := ctxNat s (base + 0x410) 2
    deferred := (readDeferred s (base + 0x420) (ctxNat s (base + 0x412) 1) ++ p.deferred.drop (ctxNat s (base + 0x412) 1)).take 4 }
  { q with v := readVectors s base q, k := readCaps s base q }

/-- A pack at its return: its image, where every page of it translates. -/
def loadImage (s : State) (base : Nat) (p : Pack) : Pack :=
  if ctxMapped s base (imageSize p.width) .write then
    let q := readPack s base p
    { q with sel := if q.wait.kind == .none then selectSubset q else q.sel, imaged := List.range 2368 }
  else p

end Sys2Proof.Machine
end

