-- ==== Sys2Proof/Machine/Integer.lean ====
section
/-! DEFINITION. Moves, integer arithmetic, logic, shifts, compares and register hints (05 R145 to R163). -/

namespace Sys2Proof.Machine

/-- A two-source integer result: `b` is the second operand's form. -/
def intOp2 (b : Enc → Src) (dflt : Nat) (f : Nat → Nat → Nat → Nat → Nat) (c : Ctx) (p : Pack) : Except Trap Pack :=
  let ty := encTy c.e dflt
  let n := typeBits ty
  laneInt c n (typeSigned ty) (fun j => f ty n (rdSrc p (srcA c.e) n j.t j.i j.j) (rdSrc p (b c.e) n j.t j.i j.j)) p

/-- A one-source integer result of `m` bits. -/
def intOp1 (dflt : Nat) (m : Nat → Nat) (f : Nat → Nat → Nat → Nat) (c : Ctx) (p : Pack) : Except Trap Pack :=
  let ty := encTy c.e dflt
  let n := typeBits ty
  laneInt c (m n) (typeSigned ty) (fun j => f ty n (rdSrc p (srcA c.e) n j.t j.i j.j)) p

/-! ### Moves (R149, R150) -/

def movBody (b : Enc → Src) (c : Ctx) (p : Pack) : Except Trap Pack :=
  let ty := encTy c.e 9
  laneInt c (typeBits ty) false (fun j => rdSrc p (b c.e) (typeBits ty) j.t j.i j.j) p

def execMov (e : Enc) (s : State) : Host.Outcome State Fault Refusal := issue (.mov e) e (onPack (movBody srcB)) s
def execMovImm (e : Enc) (s : State) : Host.Outcome State Fault Refusal :=
  issue (.movImm e) e (onPack (movBody srcImmS)) s

/-- movs: the value of the lowest lane of the execution mask (R150). -/
def movsBody (c : Ctx) (p : Pack) : Except Trap Pack :=
  match lanesOf c.m p.width with
  | [] => .ok p
  | t :: _ => .ok (wrS p c.e.d.toNat (BitVec.ofNat 64 (rdSrc p (.vec (encA c.e) 0) (typeBits (encTy c.e 9)) t 0 0)))

def execMovs (e : Enc) (s : State) : Host.Outcome State Fault Refusal := issue (.movs e) e (onPack movsBody) s

/-! ### Add and subtract (R151) -/

/-- The result and the carry or borrow out. -/
def addSub (sub sat signed : Bool) (n a b cin : Nat) : Nat × Bool :=
  let u := if sub then a + (2 ^ n - 1 - b) + 1 - cin else a + b + cin
  let cb := 2 ^ n ≤ u
  let r := u % 2 ^ n
  if sat then
    let x : Int := if signed then toS n a else a
    let y : Int := if signed then toS n b else b
    let v := if sub then x - y else x + y
    let lo : Int := if signed then -((2 ^ (n - 1) : Nat) : Int) else 0
    let hi : Int := if signed then (2 ^ (n - 1) : Nat) - 1 else (2 ^ n : Nat) - 1
    (ofI n (clampI lo hi v), cb)
  else (r, if sub then !cb else cb)

def addBody (sub : Bool) (b : Enc → Src) (c : Ctx) (p : Pack) : Except Trap Pack :=
  let ty := encTy c.e 3
  let n := typeBits ty
  let m := encMod c.e
  let co := m / 2 % 4 == 1
  let cy := m / 2 % 4 == 2
  let pc := encC c.e
  let f (j : Job) : Nat × Bool :=
    addSub sub (bitAt m 0) (typeSigned ty) n (rdSrc p (srcA c.e) n j.t j.i j.j) (rdSrc p (b c.e) n j.t j.i j.j)
      (if cy && rdP p pc j.t then 1 else 0)
  let carries := if co || cy then (lanesOf c.m p.width).map fun t => (t, (f ⟨t, 0, 0⟩).2) else []
  match laneInt c n (typeSigned ty) (fun j => (f j).1) p with
  | .error t => .error t
  | .ok q => .ok (carries.foldl (fun q x => wrP q pc x.1 x.2) q)

def execIadd (e : Enc) (s : State) : Host.Outcome State Fault Refusal := issue (.iadd e) e (onPack (addBody false srcB)) s
def execIaddImm (e : Enc) (s : State) : Host.Outcome State Fault Refusal :=
  issue (.iaddImm e) e (onPack (addBody false srcImmS)) s
def execIsub (e : Enc) (s : State) : Host.Outcome State Fault Refusal := issue (.isub e) e (onPack (addBody true srcB)) s
def execIsubImm (e : Enc) (s : State) : Host.Outcome State Fault Refusal :=
  issue (.isubImm e) e (onPack (addBody true srcImmS)) s

/-! ### Multiply and divide (R152, R153) -/

/-- The operand as a number of the type. -/
def asInt (ty n x : Nat) : Int := if typeSigned ty then toS n x else x

def mulVal (hi : Bool) (ty n a b : Nat) : Nat :=
  if hi then ofI n (asInt ty n a * asInt ty n b / (2 ^ n : Nat)) else a * b % 2 ^ n

def mulBody (b : Enc → Src) (c : Ctx) (p : Pack) : Except Trap Pack := intOp2 b 3 (mulVal (encModBit c.e 0)) c p

def execImul (e : Enc) (s : State) : Host.Outcome State Fault Refusal := issue (.imul e) e (onPack (mulBody srcB)) s
def execImulImm (e : Enc) (s : State) : Host.Outcome State Fault Refusal :=
  issue (.imulImm e) e (onPack (mulBody srcImmS)) s

def imadBody (c : Ctx) (p : Pack) : Except Trap Pack :=
  let ty := encTy c.e 3
  let n := typeBits ty
  let m := if encModBit c.e 0 then 2 * n else n
  laneInt c m (typeSigned ty) (fun j =>
    let a := asInt ty n (rdSrc p (srcA c.e) n j.t j.i j.j)
    let b := asInt ty n (rdSrc p (srcB c.e) n j.t j.i j.j)
    ofI m (a * b + (rdSrc p (srcC c.e) m j.t j.i j.j : Nat))) p

def execImad (e : Enc) (s : State) : Host.Outcome State Fault Refusal := issue (.imad e) e (onPack imadBody) s

/-- Quotient and remainder, rounding toward zero (R153). -/
def divVal (rem : Bool) (ty n a b : Nat) : Nat :=
  if b = 0 then (if rem then a else 2 ^ n - 1)
  else if rem then ofI n (Int.tmod (asInt ty n a) (asInt ty n b)) else ofI n (Int.tdiv (asInt ty n a) (asInt ty n b))

def execIdiv (e : Enc) (s : State) : Host.Outcome State Fault Refusal :=
  issue (.idiv e) e (onPack fun c p => intOp2 srcB 3 (divVal (encModBit c.e 0)) c p) s

/-! ### Minimum, maximum, absolute value, negation (R154) -/

def minVal (ty n a b : Nat) : Nat := if asInt ty n a ≤ asInt ty n b then a else b
def maxVal (ty n a b : Nat) : Nat := if asInt ty n a ≤ asInt ty n b then b else a

def execImin (e : Enc) (s : State) : Host.Outcome State Fault Refusal := issue (.imin e) e (onPack (intOp2 srcB 3 minVal)) s
def execIminImm (e : Enc) (s : State) : Host.Outcome State Fault Refusal :=
  issue (.iminImm e) e (onPack (intOp2 srcImmS 3 minVal)) s
def execImax (e : Enc) (s : State) : Host.Outcome State Fault Refusal := issue (.imax e) e (onPack (intOp2 srcB 3 maxVal)) s
def execImaxImm (e : Enc) (s : State) : Host.Outcome State Fault Refusal :=
  issue (.imaxImm e) e (onPack (intOp2 srcImmS 3 maxVal)) s

/-- Negation modulo 2^n, or the largest number for the most negative one with .sat. -/
def negVal (sat : Bool) (n a : Nat) : Nat := if sat && a == 2 ^ (n - 1) then 2 ^ (n - 1) - 1 else (2 ^ n - a) % 2 ^ n
def absVal (sat : Bool) (n a : Nat) : Nat := if toS n a < 0 then negVal sat n a else a

def execIabs (e : Enc) (s : State) : Host.Outcome State Fault Refusal :=
  issue (.iabs e) e (onPack fun c p => intOp1 3 id (fun _ n a => absVal (encModBit c.e 0) n a) c p) s
def execIneg (e : Enc) (s : State) : Host.Outcome State Fault Refusal :=
  issue (.ineg e) e (onPack fun c p => intOp1 3 id (fun _ n a => negVal (encModBit c.e 0) n a) c p) s

/-! ### Bits (R155 to R158) -/

/-- The bitwise function of three sources with table `f`, over `n` bits. -/
def tableBits (f a b c : Nat) : Nat → Nat
  | 0 => 0
  | n + 1 =>
    tableBits f a b c n + (if bitAt f (bit (bitAt a n) + 2 * bit (bitAt b n) + 4 * bit (bitAt c n)) then 2 ^ n else 0)

def bfnBody (c : Ctx) (p : Pack) : Except Trap Pack :=
  let n := typeBits (encTy c.e 9)
  laneInt c n false (fun j =>
    tableBits (encImm c.e % 256) (rdSrc p (srcA c.e) n j.t j.i j.j) (rdSrc p (srcB c.e) n j.t j.i j.j)
      (rdSrc p (srcC c.e) n j.t j.i j.j) n) p

def execBfn (e : Enc) (s : State) : Host.Outcome State Fault Refusal := issue (.bfn e) e (onPack bfnBody) s

/-- A shift by `k`, forms .l, .r, .ra, .rot (R156). -/
def shiftVal (form n a k : Nat) : Nat :=
  match form with
  | 0 => if k < n then a * 2 ^ k % 2 ^ n else 0
  | 1 => if k < n then a / 2 ^ k else 0
  | 2 => ofI n (toS n a / (2 ^ min k n : Nat))
  | _ => a * 2 ^ (k % n) % 2 ^ n + a / 2 ^ (n - k % n)

def shfBody (b : Enc → Src) (c : Ctx) (p : Pack) : Except Trap Pack :=
  let n := typeBits (encTy c.e 9)
  laneInt c n false (fun j =>
    shiftVal (encMod c.e) n (rdSrc p (srcA c.e) n j.t j.i j.j) (rdSrc p (b c.e) 32 j.t j.i j.j)) p

def execShf (e : Enc) (s : State) : Host.Outcome State Fault Refusal := issue (.shf e) e (onPack (shfBody srcB)) s
def execShfImm (e : Enc) (s : State) : Host.Outcome State Fault Refusal :=
  issue (.shfImm e) e (onPack (shfBody srcImmZ)) s

/-- Width of a clipped field (R157). -/
def fieldWidth (n pos len : Nat) : Nat := if n ≤ pos || len = 0 then 0 else min (pos + len) n - pos

/-- Position and length: from C, or with .imm from IMM16. -/
def fieldSpec (c : Ctx) (p : Pack) (j : Job) : Nat × Nat :=
  let w := if encModBit c.e 0 then encImm c.e else rdSrc p (srcC c.e) 32 j.t j.i j.j
  (bits w 0 8, bits w 8 8)

def bfxBody (c : Ctx) (p : Pack) : Except Trap Pack :=
  let ty := encTy c.e 3
  let n := typeBits ty
  laneInt c n (typeSigned ty) (fun j =>
    let (pos, len) := fieldSpec c p j
    let w := fieldWidth n pos len
    if w = 0 then 0
    else
      let x := bits (rdSrc p (srcA c.e) n j.t j.i j.j) pos w
      if typeSigned ty then ofI n (toS w x) else x) p

def execBfx (e : Enc) (s : State) : Host.Outcome State Fault Refusal := issue (.bfx e) e (onPack bfxBody) s

def bfiBody (c : Ctx) (p : Pack) : Except Trap Pack :=
  let n := typeBits (encTy c.e 9)
  laneInt c n false (fun j =>
    let (pos, len) := fieldSpec c p j
    let w := fieldWidth n pos len
    let a := rdSrc p (srcA c.e) n j.t j.i j.j
    let b := rdSrc p (srcB c.e) n j.t j.i j.j
    if w = 0 then a else a - bits a pos w * 2 ^ pos + b % 2 ^ w * 2 ^ pos) p

def execBfi (e : Enc) (s : State) : Host.Outcome State Fault Refusal := issue (.bfi e) e (onPack bfiBody) s

/-- The number of set bits among the low `n`. -/
def popcount (a : Nat) : Nat → Nat
  | 0 => 0
  | n + 1 => popcount a n + bit (bitAt a n)

def clzVal (n a : Nat) : Nat := if a = 0 then n else n - 1 - Nat.log2 a

/-- Bit `k` moved to bit n − 1 − k. -/
def revBits (n a : Nat) : Nat := (List.range n).foldl (fun x k => if bitAt a k then x + 2 ^ (n - 1 - k) else x) 0

def execPopc (e : Enc) (s : State) : Host.Outcome State Fault Refusal :=
  issue (.popc e) e (onPack (intOp1 9 (fun _ => 32) fun _ n a => popcount a n)) s
def execClz (e : Enc) (s : State) : Host.Outcome State Fault Refusal :=
  issue (.clz e) e (onPack (intOp1 9 (fun _ => 32) fun _ n a => clzVal n a)) s
def execBrev (e : Enc) (s : State) : Host.Outcome State Fault Refusal :=
  issue (.brev e) e (onPack (intOp1 9 id fun _ n a => revBits n a)) s

/-! ### Compare and select (R159, R160) -/

def icmpBody (b : Enc → Src) (c : Ctx) (p : Pack) : Except Trap Pack :=
  let ty := encTy c.e 3
  let n := typeBits ty
  lanePred c (fun t =>
    (compareCode (encMod c.e) (typeSigned ty) n (rdSrc p (srcA c.e) n t 0 0) (rdSrc p (b c.e) n t 0 0), 0)) p

def execIcmp (e : Enc) (s : State) : Host.Outcome State Fault Refusal := issue (.icmp e) e (onPack (icmpBody srcB)) s
def execIcmpImm (e : Enc) (s : State) : Host.Outcome State Fault Refusal :=
  issue (.icmpImm e) e (onPack (icmpBody srcImmS)) s

def selBody (c : Ctx) (p : Pack) : Except Trap Pack :=
  let n := typeBits (encTy c.e 9)
  laneInt c n false (fun j =>
    if rdP p (encC c.e) j.t then rdSrc p (srcA c.e) n j.t j.i j.j else rdSrc p (srcB c.e) n j.t j.i j.j) p

def execSel (e : Enc) (s : State) : Host.Outcome State Fault Refusal := issue (.sel e) e (onPack selBody) s

/-! ### Addresses (R161) -/

def leaBody (b : Enc → Src) (imm : Bool) (c : Ctx) (p : Pack) : Except Trap Pack :=
  let ty := encTy c.e 8
  laneInt c 64 (typeSigned ty) (fun j =>
    let x : Int :=
      if imm then toS 6 c.e.b.toNat
      else
        let w := rdSrc p (b c.e) 32 j.t j.i j.j
        if typeSigned ty then toS 32 w else w
    ofI 64 ((rdSrc p (srcA c.e) 64 j.t j.i j.j : Nat) + x * (2 ^ encMod c.e : Nat))) p

def execLea (e : Enc) (s : State) : Host.Outcome State Fault Refusal := issue (.lea e) e (onPack (leaBody srcB false)) s
def execLeaImm (e : Enc) (s : State) : Host.Outcome State Fault Refusal :=
  issue (.leaImm e) e (onPack (leaBody srcImmS true)) s

/-! ### Register-context hints (R162, R163) -/

/-- The vector registers that rkeep and rflush name: the mask in sA, in the window that sB or a literal gives; none if sA or sB is
dead (R163). -/
def namedRegs (c : Ctx) (p : Pack) : List Nat :=
  if p.sdead.getLsbD (encA c.e) || (c.e.lit.isNone && p.sdead.getLsbD (encB c.e)) then [] else
  let win := (rdSrc p (match c.e.lit with | some l => .imm l.toNat | none => .uni (encB c.e)) 64 0 0 0) % 4
  ((List.range 64).filter fun i => (rdS p (encA c.e)).getLsbD i).map (· + 64 * win)

/-- Marks registers in ascending order until 64 are kept. -/
def keepRegs : List Nat → BitVec 256 → BitVec 256
  | [], k => k
  | r :: l, k => if popcount k.toNat 256 < 64 || k.getLsbD r then keepRegs l (k ||| (1#256 <<< r)) else k

def execRkeep (e : Enc) (s : State) : Host.Outcome State Fault Refusal :=
  issue (.rkeep e) e (onPack fun c p => .ok { p with kept := keepRegs (namedRegs c p) p.kept }) s

end Sys2Proof.Machine
end

