-- ==== Sys2Proof/Machine/Lines.lean ====
section
/-! DEFINITION. Register-file lines: what an instruction needs, misses and refills, victims and write-backs (05 R131 to R135, R139,
R144, R162, R163). -/

namespace Sys2Proof.Machine

/-! ### Rows -/

/-- Bytes of a pack's image, by offset, that hold a row: rows 0 to 255 are the vector registers, 256 + 4n + q a quarter of kn, and
320 + 2d + h a half of call-stack entry d (R132, R142). -/
def rowPieces (p : Pack) (row : Nat) : List (Nat × List Byte) :=
  let ts := List.range p.width
  if row < 256 then [(vecAt p.width row 0, ts.flatMap fun t => leBytes (Tab.get 0 p.v (64 * row + t)).toNat 4)]
  else if row < 320 then
    let n := (row - 256) / 4
    let q := (row - 256) % 4
    ts.map fun t => (capAt p.width n t + 4 * q, ((leBytes (Tab.get Cap.null p.k (64 * n + t)).word.toNat 16).drop (4 * q)).take 4)
  else
    let d := (row - 320) / 2
    let h := (row - 320) % 2
    (ts.filter fun t => d < (packThread p t).calls.length).map fun t =>
      (callAt p.width d t + 4 * h, ((leBytes ((packThread p t).calls.reverse.getD d 0).toNat 8).drop (4 * h)).take 4)

/-- Rows of a register field: a vector register, pair or quad of each block element, or a per-thread capability. -/
def fieldRows (f : Fld) (n : Nat) (k : Bool) (mode : Nat) (blk : List (Nat × Nat)) : List Nat :=
  let vec (w : Nat) : List Nat := blk.flatMap fun b => (List.range (colsOf w)).map (blockReg n mode b.1 b.2 (colsOf w) + ·)
  match f with
  | .vec w => if k then [] else vec w
  | .vecOnly w => vec w
  | .cap => if n < 16 then (List.range 4).map (256 + 4 * n + ·) else []
  | _ => []

/-- Whether D of an instruction is both a source and a destination: the base form of ffma adds D (06 R172), atom takes its operand
there (10 R287), a 4-bit cvtpk keeps half of it (06 R190), and macc (regs) keeps what lies outside its tile (12 R374). -/
def dUpdated : Instr → Bool
  | .ffmaF32 e => e.ext.isNone
  | .ffmaF64 e => e.ext.isNone
  | .atomInt _ => true
  | .atomFloat _ => true
  | .cvtpk e => typeBits (encTy e 0x0B) == 4
  | .maccRegs _ => true
  | _ => false

/-- Whether the D field of an instruction is a source only. -/
def dSource : Instr → Bool
  | .stVector _ => true
  | .stUniform _ => true
  | .stg _ => true
  | .redInt _ => true
  | .redFloat _ => true
  | .qpush _ => true
  | _ => false

/-- Rows beside those of the fields: the source and destination rows of call-stack entries, of capabilities moved by ld and st, of
blocks of registers, and of the zero points of an mma. -/
def moreRows (p : Pack) (m : BitVec 64) (i : Instr) : List Nat × List Nat :=
  let depths (push : Bool) : List Nat :=
    let ds := (lanesOf m p.width).map fun t => (packThread p t).calls.length
    nubNat (if push then ds else (ds.filter (0 < ·)).map (· - 1))
  let calls (push : Bool) : List Nat := (depths push).flatMap fun d => [320 + 2 * d, 321 + 2 * d]
  let cap (e : Enc) : List Nat := if encModBit e 0 then (List.range 4).map (256 + 4 * encD e + ·) else []
  let zero (e : Enc) (w : Nat) : List Nat :=
    if encModBit e 5 then (List.range (ceilDiv (shapeM w) p.width)).map (encImm e % 256 + ·) else []
  match i with
  | .call _ => ([], calls true)
  | .callReg _ => ([], calls true)
  | .ret _ => (calls false, [])
  | .ldVector e => ([], cap e)
  | .stVector e => (cap e, [])
  | .clfetch e => ([], (List.range 5).map (encD e + ·))
  | .rayq e => ((List.range 8).map (encA e + ·), [])
  | .raynx e => ([], (List.range 4).map (encD e + ·))
  | .mmaInt e => (zero e (rdS p (encB e)).toNat, [])
  | .mmaFloat e => (zero e (rdS p (encB e)).toNat, [])
  | _ => ([], [])

/-- The source and destination rows of an instruction of a pack. -/
def instrRows (p : Pack) (i : Instr) : List Nat × List Nat :=
  match opcodeOf i, rowOf p.width i with
  | some (_, e), some r =>
    if (illopSub p.width i).isSome then ([], [])
    else
      let x := encX e
      let mm := r.form = .mm
      let blk := if r.block then blockElems e else [(0, 0)]
      let a := fieldRows r.a (encA e) (x.ka && !mm) x.ma.toNat blk
      let b := if e.lit.isSome || r.form = .ri then [] else fieldRows r.b (encB e) (x.kb && !mm) x.mb.toNat blk
      let c := fieldRows r.c (encC e) (x.kc && !mm) x.mc.toNat blk
      let d := fieldRows r.d (encD e) (x.kd && !mm) 0 blk
      let (src, dst) := moreRows p (execMask p e) i
      (nubNat (a ++ b ++ c ++ src ++ if dSource i || dUpdated i then d else []), nubNat (dst ++ if dSource i then [] else d))
  | _, _ => ([], [])

/-! ### Lines -/

/-- A pack that waits under R100. -/
def waitsR100 (p : Pack) : Bool :=
  match p.wait.kind with
  | .none => false
  | .fault _ _ => false
  | .ray _ _ => false
  | .ended => false
  | .due _ _ _ _ => false
  | _ => true

/-- First quad and number of quads of a pack's binding (04 R93). -/
def packQuads (p : Pack) : Nat × Nat :=
  if p.width = 16 then (p.slot % 4, 1) else if p.width = 32 then (p.slot % 2 * 2, 2) else (0, 4)

def RfLine.meets (x : RfLine) (q n : Nat) : Bool := x.quad < q + n && q < x.quad + x.quads

/-- The least of `n` numbers from `i` on that is not used. -/
def firstFree (used : Nat → Bool) : Nat → Nat → Option Nat
  | 0, _ => none
  | n + 1, i => if used i then firstFree used n (i + 1) else some i

/-- The lowest sector index that is free in some quads. -/
def freeSector (l : List RfLine) (q n : Nat) : Option Nat := firstFree (fun i => l.any fun x => x.sector == i && x.meets q n) 2048 0

/-- Whether a line's row is dead for every thread of its pack (R137). -/
def lineDead (s : State) (x : RfLine) : Bool :=
  let p := s.pack x.pack
  x.row < 256 && (List.range p.width).all fun t => (packThread p t).exited || (packThread p t).vdead.getLsbD x.row

def lineKept (s : State) (x : RfLine) : Bool := x.row < 256 && (s.pack x.pack).kept.getLsbD x.row

/-- Lines that may be freed for rows `own` of a pack: not its operands, and none that R133 protects. -/
def lineFree (l : List RfLine) (pid : Nat) (own : List Nat) (x : RfLine) : Bool :=
  if x.pack == pid then !own.contains x.row else 16 < (l.filter fun y => y.pack == x.pack).length

/-- The line of the lowest sector index. -/
def lowestLine : List RfLine → Option RfLine
  | [] => none
  | x :: l => match lowestLine l with
    | none => some x
    | some y => some (if y.sector < x.sector then y else x)

/-- The victim of R135 among some lines, least recently used first. -/
def lineVictim (s : State) (old : List RfLine) : Option RfLine :=
  let free := old.filter fun x => !lineKept s x
  (lowestLine (free.filter (lineDead s))).orElse fun _ =>
    (lowestLine (free.filter fun x => !x.dirty && waitsR100 (s.pack x.pack))).orElse fun _ =>
      (free.find? fun x => !x.dirty).orElse fun _ => free.head?.orElse fun _ => old.head?

/-- Before a row of an image changes in an interval, the den copies what the image holds of it, once (R139; 15 R455, R457). -/
def denImageRow (s : State) (x : RfLine) (base : Nat) : State :=
  let p := s.pack x.pack
  if (s.crew p.crew).lost || p.denImage.any fun y => y.1 == x.row then s
  else
    let old := (rowPieces p x.row).map fun y => (y.1, (List.range y.2.length).map fun i => ctxByte s (base + y.1 + i))
    let s' := s.modPack x.pack fun p => { p with denImage := (x.row, old) :: p.denImage }
    if denRoom < denUsed s' (s.crew p.crew).core then loseContainment s p.crew sflagDenx else s'

/-- The physical addresses of a row's pieces in an image at `b`; none where a page does not translate. -/
def rowPlaces (s : State) (b : Nat) (p : Pack) (row : Nat) (kind : XKind) : Option (List Nat) :=
  ((rowPieces p row).mapM fun y => devPlaces s 0 kind 6 (granCuts (b + y.1) y.2.length)).toOption.map fun l =>
    l.flatten.map fun x => x.1.pa

/-- Whether the image of a pack holds the bytes of a row. -/
def setImaged (s : State) (pid row : Nat) (held : Bool) : State :=
  s.modPack pid fun p => { p with imaged := if held then nubNat (row :: p.imaged) else p.imaged.filter (· != row) }

/-- A line is written back to its pack's image, and counted: the lane path carries it (R144; 01 R25).  Where a page of the image does
not translate nothing is written, and the row's bytes stay with the pack. -/
def writeBack (s : State) (core : Nat) (x : RfLine) : State :=
  match imageBase s x.pack with
  | none => s
  | some b =>
    match rowPlaces s b (s.pack x.pack) x.row .write with
    | none => setImaged s x.pack x.row false
    | some pas =>
      let s := denImageRow (s.count ctrRfWback core 1) x b
      let s := (rowPieces (s.pack x.pack) x.row).foldl (fun s y => ctxWrite s (b + y.1) y.2) s
      setImaged (pas.foldl (fun s pa => s.request 0 pa) s) x.pack x.row true

/-- A line is freed under R135: under rule 1 a dead one is dropped, and under the others a dirty one is written back first. -/
def freeLine (s : State) (core : Nat) (x : RfLine) : State :=
  let s := if lineDead s x && !lineKept s x then s.count ctrRfDrop core 1 else if x.dirty then writeBack s core x else s
  { s with rf := Tab.upd [] s.rf core fun l => l.filter fun y => !(y.pack == x.pack && y.row == x.row) }

/-- Frees lines of a core until a sector is free for rows `own` of a pack. -/
def makeRoom (s : State) (core pid q n : Nat) (own : List Nat) : Nat → State
  | 0 => s
  | k + 1 =>
    let l := Tab.get [] s.rf core
    if (freeSector l q n).isSome then s
    else match lineVictim s (l.reverse.filter fun x => x.meets q n && lineFree l pid own x) with
      | none => s
      | some x => makeRoom (freeLine s core x) core pid q n own k

/-- `w` with bits [32 q + 31 : 32 q] replaced. -/
def putQuarter (w q x : Nat) : Nat := w - bits w (32 * q) 32 * 2 ^ (32 * q) + x * 2 ^ (32 * q)

/-- The pack with a row as its image at `b` holds it; tags stay, since a thread section is current only after a save (R142). -/
def loadRow (s : State) (b : Nat) (p : Pack) (row : Nat) : Pack :=
  let ts := List.range p.width
  if row < 256 then
    { p with v := ts.foldl (fun v t => Tab.set 0 v (64 * row + t) (BitVec.ofNat 32 (ctxNat s (b + vecAt p.width row t) 4))) p.v }
  else if row < 320 then
    let n := (row - 256) / 4
    let q := (row - 256) % 4
    { p with k := ts.foldl (fun k t =>
        let x := ctxNat s (b + capAt p.width n t + 4 * q) 4
        Tab.upd Cap.null k (64 * n + t) fun c => { c with word := BitVec.ofNat 128 (putQuarter c.word.toNat q x) }) p.k }
  else
    let d := (row - 320) / 2
    let h := (row - 320) % 2
    (ts.filter fun t => d < (packThread p t).calls.length).foldl (fun p t =>
      let x := ctxNat s (b + callAt p.width d t + 4 * h) 4
      packModThread p t fun th =>
        { th with calls := modAt (fun w => BitVec.ofNat 64 (putQuarter w.toNat h x)) th.calls (th.calls.length - 1 - d) }) p

/-- A refill reads a row from the image, at the home quays of its bytes, on the lane path (R134; 01 R25).  A row that the image does
not hold yet keeps the bytes it has had since placement. -/
def refill (s : State) (pid row : Nat) : State :=
  match imageBase s pid with
  | none => s
  | some b =>
    match rowPlaces s b (s.pack pid) row .read with
    | none => s
    | some pas =>
      let s := pas.foldl (fun s pa => s.request 0 pa) s
      if (s.pack pid).imaged.contains row then s.modPack pid fun p => loadRow s b p row else s

/-- Allots a line to a missing row of a pack. -/
def allotLine (own : List Nat) (refilled : Nat → Bool) (core pid : Nat) (s : State) (row : Nat) : State :=
  let (q, n) := packQuads (s.pack pid)
  let s := makeRoom s core pid q n own 8192
  match freeSector (Tab.get [] s.rf core) q n with
  | none => s
  | some i =>
    let s := if refilled row then refill s pid row else s
    { s with rf := Tab.upd [] s.rf core fun l => ⟨pid, row, q, n, i, false⟩ :: l }

/-- Rows of a pack that have no line. -/
def missing (s : State) (core pid : Nat) (rows : List Nat) : List Nat :=
  rows.filter fun r => !((Tab.get [] s.rf core).any fun x => x.pack == pid && x.row == r)

/-- Lines by falling sector index. -/
def bySector (l : List RfLine) : List RfLine :=
  l.foldr (fun x r => r.takeWhile (fun y => x.sector < y.sector) ++ x :: r.dropWhile (fun y => x.sector < y.sector)) []

/-- The lines of a pack's rows become its latest used, those of `dst` dirty.  One instruction uses them at one time, so the order
among them is that of the sector indices, the lower the earlier victim (R135). -/
def touchLines (s : State) (core pid : Nat) (rows dst : List Nat) : State :=
  { s with rf := Tab.upd [] s.rf core fun l =>
      let mine (x : RfLine) : Bool := x.pack == pid && rows.contains x.row
      (bySector (l.filter mine)).map (fun x => { x with dirty := x.dirty || dst.contains x.row }) ++ l.filter fun x => !mine x }

/-- The rows of a pack get their lines; an instruction that lacks one stalls and is counted (`stalls`, R144).  A destination that is no source, and that the
instruction writes for every thread of the pack (`whole`), is not refilled (R134). -/
def bringRows (s : State) (pid : Nat) (rows : List Nat × List Nat) (whole stalls : Bool) : State :=
  let core := s.coreOf (s.pack pid).crew
  let own := nubNat (rows.1 ++ rows.2)
  let new := missing s core pid own
  if new.isEmpty then s
  else new.foldl (allotLine own (fun r => rows.1.contains r || !whole) core pid) (if stalls then s.count ctrRfMiss core 1 else s)

/-- Before an instruction of a pack issues, each of its rows has a line.  The stall of a miss ends within the step. -/
def readyLines (i : Instr) (s : State) : State :=
  if s.isFox then s
  else
    let p := s.curPack
    let rows := instrRows p i
    if rows.1.isEmpty && rows.2.isEmpty then s
    else
      let whole : Bool := match opcodeOf i with
        | some (_, e) => execMask p e == maskOf (List.range p.width)
        | none => false
      let s := bringRows s s.cur rows whole true
      touchLines s (s.coreOf p.crew) s.cur (nubNat (rows.1 ++ rows.2)) rows.2

/-- Size and instruction at a pack's address, as far as it can be fetched. -/
def nextInstr (s : State) (pid : Nat) : Nat × Option Instr :=
  let p := s.pack pid
  match fetch s p.crew (packPc p) p.sel with
  | .instr i _ => (((opcodeOf i).map fun x => x.2.size).getD 4, some i)
  | .trap _ n => (n, none)
  | _ => (4, none)

/-- A missing line of a pack's next instruction arrives before it issues (R134). -/
def execLineRefill (pack row : Nat) (s : State) : Host.Outcome State Fault Refusal :=
  let p := s.pack pack
  match p.live && onCore s p.crew, (nextInstr s pack).2 with
  | true, some i =>
    let rows := instrRows p i
    if (missing s (s.coreOf p.crew) pack (nubNat (rows.1 ++ rows.2))).contains row then .next (bringRows s pack rows false false) else .next s
  | _, _ => .next s

/-- rflush: each named register's line is written back if dirty and not dead, and freed; the kept marks go (R163). -/
def rflushBody (c : Ctx) (s : State) : Res :=
  let rs := namedRegs c s.curPack
  let core := s.curCrew.core
  let lines := (Tab.get [] s.rf core).filter fun x => x.pack == s.cur && rs.contains x.row
  let s := lines.foldl (fun s x =>
    let s := if x.dirty && !lineDead s x then writeBack s core x else s
    { s with rf := Tab.upd [] s.rf core fun l => l.filter fun y => !(y.pack == x.pack && y.row == x.row) }) s
  .done (s.modPack s.cur fun p => { p with kept := p.kept &&& ~~~(rs.foldl (fun m r => m ||| (1#256 <<< r)) 0#256) }) 0

def execRflush (e : Enc) (s : State) : Host.Outcome State Fault Refusal := issue (.rflush e) e rflushBody s

/-- The dirty lines of a crew's packs whose rows are not dead, before a save: each is written back (R143). -/
def flushCrew (s : State) (crew : Nat) : State :=
  let c := s.crew crew
  ((Tab.get [] s.rf c.core).filter fun x => c.packs.contains x.pack && x.dirty && !lineDead s x).foldl (fun s x => writeBack s c.core x) s

/-- The rows of a pack's kept mask come back before its first issue (R143). -/
def bringKept (s : State) (pid : Nat) : State :=
  let p := s.pack pid
  let core := s.coreOf p.crew
  let kept := (List.range 256).filter p.kept.getLsbD
  (missing s core pid kept).foldl (allotLine kept (fun _ => true) core pid) s

end Sys2Proof.Machine
end

