-- ==== Sys2Proof/Machine/Place.lean ====
section
/-! DEFINITION. The sett dispatchers: placement, saves and returns of crews (13 R399 to R406; 04 R94, R105; 07 R197 to R200;
10 R307; 16 R476, R481, R482). -/

namespace Sys2Proof.Machine

/-! ### What cores, clusters and setts have left (04 R94; 07 R197; 12 R350) -/

/-- Free pack slots, SPM1 pages and macros of a core, and whether its fox slot is free. -/
structure Room where
  slots : Nat
  pages : Nat
  macros : Nat
  stream : Bool
  deriving DecidableEq, Repr

def livePacks (s : State) (cid : Nat) : List Nat := (s.crew cid).packs.filter fun p => (s.pack p).live

def coreRoom (s : State) (core : Nat) : Room :=
  (crewsOn s core).foldl (fun r c =>
    let h := (s.launch (s.crew c).launch).hdr
    ⟨r.slots - (livePacks s c).length, r.pages - pagesOf h.spm1, r.macros - h.macros, r.stream && !h.stream⟩) ⟨32, 512, 8, true⟩

def Room.holds (r : Room) (h : Header) : Bool :=
  h.packs ≤ r.slots && pagesOf h.spm1 ≤ r.pages && h.macros ≤ r.macros && (r.stream || !h.stream)

def Room.take (r : Room) (h : Header) : Room :=
  ⟨r.slots - h.packs, r.pages - pagesOf h.spm1, r.macros - h.macros, r.stream && !h.stream⟩

/-- The lowest core that can hold a crew, or the wanted one. -/
def takeCore (h : Header) (want : Option Nat) : List (Nat × Room) → Option (Nat × List (Nat × Room))
  | [] => none
  | (k, r) :: l =>
    if r.holds h && (want.isNone || want == some k) then some (k, (k, r.take h) :: l)
    else match takeCore h want l with
      | some (c, l') => some (c, (k, r) :: l')
      | none => none

/-- A core for each crew, in order; `none` wants the lowest. -/
def fitCores (h : Header) : List (Option Nat) → List (Nat × Room) → Option (List Nat)
  | [], _ => some []
  | w :: ws, rooms =>
    match takeCore h w rooms with
    | none => none
    | some (c, rooms) => (fitCores h ws rooms).map (c :: ·)

def spm2Used (s : State) (cl : Nat) : Nat :=
  (s.gangs.filter fun x => x.2.cluster == some cl).foldl (fun n x => n + pagesOf (s.launch x.2.launch).hdr.spm2) 0

def spm3Used (s : State) (sett : Nat) : Nat :=
  (s.troops.filter fun x => x.2.sett == some sett).foldl (fun n x => n + pagesOf (s.launch x.2.launch).hdr.spm3) 0

def spm2Room : Nat := 8192
def spm3Room : Nat := 114688

/-- Crews to be placed together: their linear numbers, ascending, where their gang and troop are, and the setts to try. -/
structure Group where
  lid : Nat
  lins : List Nat
  cluster : Option Nat
  sett : Option Nat
  setts : List Nat
  deriving DecidableEq, Repr

/-- The cores of a cluster for a group. -/
def fitCluster (s : State) (g : Group) (wants : List (Option Nat)) (cl : Nat) : Option (List Nat) :=
  let h := (s.launch g.lid).hdr
  let s2 := if g.cluster.isSome then 0 else pagesOf h.spm2
  let s3 := if g.sett.isSome then 0 else pagesOf h.spm3
  if (g.cluster.isNone || g.cluster == some cl) && (g.sett.isNone || g.sett == some (cl / 16)) && spm2Used s cl + s2 ≤ spm2Room
      && spm3Used s (cl / 16) + s3 ≤ spm3Room then
    fitCores h wants ((List.range 8).map fun i => (8 * cl + i, coreRoom s (8 * cl + i)))
  else none

/-- The clusters open to a group, in the order of R399 and R401. -/
def Group.clusters (g : Group) : List Nat :=
  match g.cluster with
  | some c => [c]
  | none => g.setts.flatMap fun t => (List.range 16).map (16 * t + ·)

/-- The outcome of a search for cores: the cores, and the crews for which a replay holds no entry. -/
inductive Seats where
  | wait
  | at (cores missing : List Nat)
  deriving DecidableEq, Repr

/-- What a group asks for: a core for each crew, where a replay has recorded one, the clusters to try, and the crews for which a replay
holds no entry; nothing while a replay places other crews first (R399; 16 R476). -/
def seatWants (s : State) (g : Group) : Option (List (Option Nat) × List Nat × List Nat) :=
  if (s.launch g.lid).track.replay then
    match nextEntry s g.lid fun e => entryKind e == 1 with
    | none => some (g.lins.map fun _ => none, g.clusters, g.lins)
    | some (_, e) =>
      if g.lins.contains (entryF1 e) then
        let wants : List (Nat × Option Nat) := g.lins.map fun n =>
          (n, (nextEntry s g.lid fun e => entryKind e == 1 && entryF1 e == n).map fun x => entryF2 x.2)
        some (wants.map (·.2), [entryF2 e / 8], (wants.filter fun x => x.2.isNone).map (·.1))
      else none
  else some (g.lins.map fun _ => none, g.clusters, [])

/-- Cores for a group: the lowest cluster that takes it whole, or the recorded cores. -/
def chooseSeats (s : State) (g : Group) : Seats :=
  match seatWants s g with
  | none => .wait
  | some (wants, cls, missing) =>
    match cls.findSome? (fitCluster s g wants) with
    | some cs => .at cs missing
    | none => .wait

/-! ### Shapes of launches (13 R397, R399, R409) -/

/-- Sett placements of the first node. -/
def Header.placements (h : Header) : Nat := ceilDiv h.gangCount (h.c3 * h.c4)

/-- The sett placement of a crew. -/
def placementOf (h : Header) (lin : Nat) : Nat :=
  if lin < h.crews then lin / (h.c2 * h.c3 * h.c4) else h.placements + (lin - h.crews)

/-- Linear numbers of a crew's gang and troop. -/
def gangOf (h : Header) (lin : Nat) : Nat := if lin < h.crews then lin / h.c2 else h.gangCount + (lin - h.crews)
def troopOf (h : Header) (lin : Nat) : Nat :=
  if lin < h.crews then lin / h.c2 / h.c3 else ceilDiv h.gangCount h.c3 + (lin - h.crews)

/-- The crew of batch `k` of a node: batch crews are numbered after those of node 0, node by node within each round. -/
def batchLin (l : Launch) (node k : Nat) : Nat := l.hdr.crews + k * (l.graph.nodes.length - 1) + (node - 1)

/-- A launch's troop of a number. -/
def findTroop (s : State) (lid lin : Nat) : Option Nat :=
  (s.troops.find? fun x => x.2.live && x.2.launch == lid && x.2.lin == lin).map (·.1)

/-- The sett in which a sett placement has begun. -/
def placementSett (l : Launch) (p : Nat) : Option Nat :=
  (l.placements.find? fun x => placementOf l.hdr x.1 == p).map fun x => settOfCore x.2

/-- The group of some crews that are placed for the first time. -/
def freshGroup (s : State) (lid : Nat) (lins : List Nat) : Group :=
  let l := s.launch lid
  let lin := lins.headD 0
  let sett := (findTroop s lid (troopOf l.hdr lin)).bind fun t => (s.troop t).sett
  let p := placementOf l.hdr lin
  ⟨lid, lins, none, sett, match sett.orElse fun _ => placementSett l p with
    | some x => [x]
    | none => (List.range 8).map fun i => (p + i) % 8⟩

/-- The next crews of a launch to be placed: the next gang of its first node, else the first launched batch. -/
def nextCrews (l : Launch) : Option (List Nat × Nat × List Nat) :=
  if l.nextGang < l.gangs then
    some ((List.range (min l.hdr.c2 (l.hdr.crews - l.nextGang * l.hdr.c2))).map (l.nextGang * l.hdr.c2 + ·), 0, [])
  else match l.graph.ready with
    | (lin, node, recs) :: _ => some ([lin], node, recs)
    | [] => none

/-! ### Active launches (13 R394; 17 R500) -/

/-- Numbers from here on stand for no queue: a supervisor launch belongs to none. -/
def noQueue : Nat := 1024

/-- Whether a launch may place and return crews. -/
def launchActive (s : State) (l : Launch) : Bool :=
  l.live && (noQueue ≤ l.queue || ((s.queue l.queue).slot && !(s.queue l.queue).leaving))

/-! ### A pack at its first placement (13 R396, R409; 03 R91; 04 R95, R96; 07 R198) -/

/-- %wid of the thread with a linear number: the last field takes what is left. -/
def widFields : List Nat → List Nat → Nat → Nat
  | [], _, _ => 0
  | [_], _, x => x
  | w :: ws, c :: cs, x => x % c + 2 ^ w * widFields ws cs (x / c)
  | _, [], x => x

def widOf (h : Header) (x : Nat) : W64 := BitVec.ofNat 64 (widFields (h.widths.take h.nf) h.counts x)

/-- %rng of R91. -/
def rngInit (w : W64) : W64 :=
  let x := w * 0x9E3779B97F4A7C15 + 0x2545F4914F6CDD1D
  if x = 0 then 0x9E3779B97F4A7C15 else x

/-- The capability of a window. -/
def windowCap (size space colour : Nat) : Cap := if size = 0 then Cap.null else mkCap 0 0 (roundAllot size) pmWindow space colour

/-- The capability over the pool of a graph (R409). -/
def poolCap (g : Graph) : Cap := mkCap g.pool g.pool (g.pool + g.pooln * g.recb) (pmLoad + pmStore) 0 0

/-- y0 to y7 at a first placement. -/
def firstCaps (l : Launch) : List Cap :=
  let h := l.hdr
  let ys := (List.range 5).map fun i => h.ys.getD i Cap.null
  (if l.graph.present then ys.set 4 (poolCap l.graph) else ys)
    ++ [windowCap h.spm3 4 h.colour, windowCap h.spm2 3 h.colour, windowCap h.spm1 2 h.colour]

/-- A pack of a crew: `batch` is the number of records of a batch crew. -/
def firstPack (l : Launch) (lid cid lin idx node : Nat) (batch : Option Nat) : Pack :=
  let h := l.hdr
  let w := 2 ^ h.pwl
  let plin := lin * h.packs + idx
  let wid := widOf h (if batch.isSome then idx * w else plin * w)
  let pc : W64 := BitVec.ofNat 64 (if node = 0 then h.entry else h.text + (l.graph.nodes.getD node Node.blank).entry)
  let out (t : Nat) : Bool := batch.isNone && decide (h.extent ≤ plin * w + t)
  let args := match batch with
    | some n => h.args.set 0 (BitVec.ofNat 64 n)
    | none => h.args
  let p : Pack := { Pack.blank with
    launch := lid
    crew := cid
    idx := idx
    lin := plin
    width := w
    wid := wid
    threads := (List.range w).map fun t => { Thread.blank with pc := pc, exited := out t, vdead := if out t then BitVec.allOnes 256 else 0 }
    s := (List.range 4).foldl (fun x i => Tab.set 0 x i (args.getD i 0)) []
    y := firstCaps l
    fenv := h.fenv
    rng := rngInit wid
    hash := hashInit }
  { p with live := (List.range w).any fun t => !out t, sel := selectSubset p }

/-! ### New records -/

/-- A crew with its packs, not placed yet. -/
def newCrew (s : State) (lid gang idx lin node : Nat) (recs : Option (List Nat)) : Nat × State :=
  let l := s.launch lid
  let h := l.hdr
  let (cid, s) := s.newId
  let (ps, s) := (List.range h.packs).foldl (fun (r : List Nat × State) i =>
    let (p, s) := r.2.newId
    (r.1 ++ [p], s.setPack p (firstPack l lid cid lin i node (recs.map (·.length))))) ([], s)
  let live := (ps.filter fun p => (s.pack p).live).length
  let st := (List.range 16).foldl (fun st b => crewSetBar st b { Barrier.blank with exp := if b = 0 then live else h.packs })
    { CrewState.blank with spm1 := { Spad.blank with size := roundAllot h.spm1 } }
  let spm := (recs.getD []).foldl (fun (r : Spad × Nat) n => (r.1.wr r.2 (leBytes n 4) none, r.2 + 4)) (st.spm1, 0)
  let s := s.setCrew cid { Crew.blank with
    live := true
    launch := lid
    gang := gang
    idx := idx
    lin := lin
    phase := .pending
    packs := ps
    st := { st with spm1 := spm.1 } }
  let gone := (ps.filter fun p => !(s.pack p).live).map fun p => (s.pack p).lin
  (cid, modTrack s lid fun t => { t with ended := gone ++ t.ended })

/-- The gang of some crews, in its troop, with its crews. -/
def newGang (s : State) (lid : Nat) (lins : List Nat) (node : Nat) (recs : List Nat) : Nat × State :=
  let h := (s.launch lid).hdr
  let lin := lins.headD 0
  let (tid, s) := match findTroop s lid (troopOf h lin) with
    | some t => (t, s)
    | none =>
      let (t, s) := s.newId
      (t, s.setTroop t ⟨true, lid, troopOf h lin, none, [], { Spad.blank with size := roundAllot h.spm3 }⟩)
  let (gid, s) := s.newId
  let (cs, s) := lins.foldl (fun (r : List Nat × State) n =>
    let (c, s) := newCrew r.2 lid gid r.1.length n node (if node = 0 then none else some recs)
    (r.1 ++ [c], s)) ([], s)
  let s := s.setGang gid ⟨true, lid, tid, gangOf h lin, node, none, cs, { Spad.blank with size := roundAllot h.spm2 }, 0⟩
  (gid, s.modTroop tid fun t => { t with gangs := t.gangs ++ [gid] })

/-! ### Context space (R400) -/

/-- Context-area blocks in use by the launches of a queue: base and size. -/
def ctxUsed (s : State) (queue : Nat) : List (Nat × Nat) :=
  s.launches.flatMap fun x => if x.2.live && x.2.queue == queue then x.2.ctx.map fun b => (b.2.2.1, b.2.2.2) else []

/-- The lowest base at which a block fits. -/
def ctxFit (q : Queue) (used : List (Nat × Nat)) (n : Nat) : Option Nat :=
  let ok (b : Nat) : Bool := q.ctxa ≤ b && b + n ≤ q.ctxa + q.ctxsz && used.all fun u => b + n ≤ u.1 || u.1 + u.2 ≤ b
  let bases := sortNat ((q.ctxa :: used.map fun u => u.1 + u.2).filter ok)
  bases.head?

/-- Allots blocks of kind, owner and size. -/
def allotCtx (s : State) (lid : Nat) : List (Nat × Nat × Nat) → Option State
  | [] => some s
  | (kind, owner, n) :: l =>
    let q := (s.launch lid).queue
    if n = 0 then allotCtx s lid l
    else match ctxFit (s.queue q) (ctxUsed s q) n with
      | none => none
      | some b => allotCtx (s.modLaunch lid fun x => { x with ctx := x.ctx ++ [(kind, owner, b, n)] }) lid l

/-- The blocks of a new gang, and of its troop where that is new. -/
def gangBlocks (s : State) (lid gid : Nat) (newTroop : Bool) : List (Nat × Nat × Nat) :=
  let h := (s.launch lid).hdr
  let g := s.gang gid
  (g.crews.flatMap fun c => (s.crew c).packs.map (fun p => (0, p, imageSize (2 ^ h.pwl))) ++ [(1, c, saveBlock h)])
    ++ [(2, gid, roundAllot h.spm2)] ++ if newTroop then [(3, g.troop, roundAllot h.spm3)] else []

/-! ### Seats -/

/-- Puts a crew on a core: its packs take the lowest free slots. -/
def seatCrew (s : State) (cid core : Nat) : State :=
  let used := (crewsOn s core).flatMap fun c => (livePacks s c).map fun p => (s.pack p).slot
  let free := (List.range 32).filter fun i => !used.contains i
  let (ord, s) := s.newId
  let s := ((livePacks s cid).zip free).foldl (fun s x => s.modPack x.1 fun p => { p with slot := x.2, order := ord }) s
  let s := s.modCrew cid fun c => { c with phase := .placed, core := core, preempt := false }
  let s := s.modGang (s.crew cid).gang fun g => { g with cluster := some (clusterOfCore core) }
  s.modTroop (s.gang (s.crew cid).gang).troop fun t => { t with sett := some (settOfCore core) }

/-- A trap of the lowest-numbered pack of a crew that has not ended, for an event that no instruction causes (16 R481, R482). -/
def crewTrap (s : State) (cid : Nat) (t : Trap) : State :=
  match livePacks s cid with
  | p :: _ => deferTrap s p t
  | [] => s

/-- KIND 1 entries of a replay. -/
def placementsRecorded (s : State) (lid : Nat) : Nat :=
  ((List.range ((s.launch lid).track.dused / 16)).filter fun i => entryKind (dispatchEntry s lid i) == 1).length

/-- The records of a placement or return: the manifest's list, and the dispatch entry. -/
def notePlacement (s : State) (cid : Nat) (missing : Bool) : State :=
  let c := s.crew cid
  let lid := c.launch
  let s := s.modLaunch lid fun l => { l with placements := l.placements ++ [(c.lin, c.core)] }
  if ¬s.isTrack lid then s
  else if dispatchLost s lid then crewAbort s cid 9 0 0 0
  else if (s.launch lid).track.replay then
    if missing then crewTrap s cid ⟨clsDivg, 5, BitVec.ofNat 64 (placementsRecorded s lid), 0⟩
    else match nextEntry s lid fun e => entryKind e == 1 && entryF1 e == c.lin with
      | some (i, _) => takeEntry s lid i
      | none => s
  else
    match recordDispatch s lid 1 c.lin c.core 0 with
    | .ok s => s
    | .error (.trap cls sub val) => crewTrap s cid ⟨cls, sub, val, 0⟩
    | .error _ => crewAbort s cid 9 0 0 0

/-! ### First placement (R399, R400, R402) -/

/-- Allots the moorings of the static berths, all or none (09 R256). -/
def allotMoors (s : State) (lid : Nat) : Option State :=
  let l := s.launch lid
  let qs := nubNat (l.wantMoors.map (·.2))
  if qs.all fun q => mooringsAt s q + (l.wantMoors.filter fun m => m.2 == q).length ≤ mooringRoom then
    some (s.modLaunch lid fun l => { l with
      wantMoors := []
      moors := l.wantMoors.foldl (fun t m => Tab.set none t m.1 (some { Mooring.blank with quay := m.2 })) l.moors })
  else none

/-- The launch's next crews leave its list. -/
def takeCrews (l : Launch) : Launch :=
  if l.nextGang < l.gangs then { l with nextGang := l.nextGang + 1 } else { l with graph := { l.graph with ready := l.graph.ready.tail } }

/-- The first placement of some crews on their cores. -/
def placeFresh (s : State) (lid : Nat) (lins : List Nat) (node : Nat) (recs : List Nat) (cores missing : List Nat) : Option State :=
  let l := s.launch lid
  let first := l.placements.isEmpty
  let newTroop := (findTroop s lid (troopOf l.hdr (lins.headD 0))).isNone
  let (gid, s) := newGang s lid lins node recs
  match (if (s.launch lid).queue < noQueue then allotCtx s lid (gangBlocks s lid gid newTroop) else some s) with
  | none => none
  | some s =>
    let s := s.modLaunch lid takeCrews
    let cs := (s.gang gid).crews
    let s := modRecs s lid fun h r => if recs.contains h then { r with crew := cs.headD 0 } else r
    let s := (cs.zip cores).foldl (fun s x => seatCrew s x.1 x.2) s
    let s := match (s.launch lid).track.pendDivg, first, cs with
      | some t, true, c :: _ => crewTrap (modTrack s lid fun t => { t with pendDivg := none }) c t
      | _, _, _ => s
    let s := (cs.zip lins).foldl (fun s x => notePlacement s x.1 (missing.contains x.2)) s
    some (cs.foldl (fun s c => if (s.crew c).live then recordCheckpoint s c else s) s)

/-- Whether a dispatch entry names a crew or pack that the launch does not form (16 R481).  A MARK entry names none; a pusher's queue
names its crew. -/
def strayEntry (s : State) (lid e : Nat) : Bool :=
  match entryKind e with
  | 1 => !formsCrew s lid (entryF1 e)
  | 2 => !formsCrew s lid (entryF1 e)
  | 3 => entryF1 e != markLin && !formsPack s lid (entryF1 e)
  | 4 => !formsCrew s lid (entryF1 e / 8)
  | 7 => !formsPack s lid (entryF1 e)
  | _ => false

/-- A recorded placement that no crew can take: an entry of a crew or pack that the launch does not form (DIVG 4), or the placement of a
crew that has ended. -/
def passEntry (s : State) (lid : Nat) : State :=
  let l := s.launch lid
  if !l.track.replay then s
  else match nextEntry s lid fun e => entryKind e == 1 || strayEntry s lid e with
    | none => s
    | some (i, e) =>
      let lin := entryF1 e
      if strayEntry s lid e then
        let t : Trap := ⟨clsDivg, 4, BitVec.ofNat 64 i, 0⟩
        let s := takeEntry s lid i
        match (s.crews.filter fun x => x.2.live && x.2.launch == lid).map (·.1) with
        | c :: _ => crewTrap s c t
        | [] => modTrack s lid fun r => { r with pendDivg := some (r.pendDivg.getD t) }
      else
        let done : Bool := l.placements.any fun x => x.1 == lin
        let lives : Bool := s.crews.any fun x => x.2.live && x.2.launch == lid && x.2.lin == lin
        if done && !lives then takeEntry s lid i else s

/-- The first placement of a launch's next crews, where its moorings, cores and context space allow it. -/
def placeNext (s : State) (lid : Nat) : Option State :=
  if !launchActive s (s.launch lid) then none
  else
    let s := passEntry s lid
    match nextCrews (s.launch lid), allotMoors s lid with
    | some (lins, node, recs), some s =>
      match chooseSeats s (freshGroup s lid lins) with
      | .wait => none
      | .at cores missing => placeFresh s lid lins node recs cores missing
    | _, _ => none

/-! ### Stops (R404 to R406) -/

/-- Whether every pack of a crew waits. -/
def allWait (s : State) (cid : Nat) : Bool := let l := livePacks s cid; !l.isEmpty && l.all fun p => waitsR100 (s.pack p)

/-- The recorded stop of a crew that comes next, if it has one: its entry and issue count. -/
def nextStop (s : State) (cid : Nat) : Option (Nat × Nat) :=
  let c := s.crew cid
  if (s.launch c.launch).track.replay then
    (nextEntry s c.launch fun e => entryKind e == 2 && entryF1 e == c.lin).map fun x => (x.1, entryF2 x.2)
  else none

/-- Whether a replay has reached a recorded stop of a crew (16 R476). -/
def stopDue (s : State) (cid : Nat) : Bool :=
  match nextStop s cid with
  | some (_, n) => n == (s.crew cid).issues % 2 ^ 40
  | none => false

/-- Whether a crew may stop here: its copies that move and its geometry operations have completed (14 R419), and a replay stops only where the record does. -/
def canStop (s : State) (cid : Nat) : Bool :=
  onCore s cid && (!(s.launch (s.crew cid).launch).track.replay || stopDue s cid)
    && (s.crew cid).st.tfills.isEmpty && !(s.copies.any fun x => x.2.live && x.2.crew == cid && (x.2.phase == .moving ||
      (x.2.phase == .staged && match x.2.kind with
        | .reduce _ _ => true
        | _ => false)))
    && !(s.geos.any fun x => match x.2 with
      | some g => g.crew == cid
      | none => false)

/-- Where SPM1 lies in a crew save block, whose layout is the device's own (R400). -/
def spm1Base : Nat := 1408 * 1024

/-- The blocks of the context area that a save or return of a crew uses: its packs' images, its save block, and those of its gang
and troop when no other crew of theirs is placed. -/
def ctxSpans (s : State) (cid : Nat) : List (Nat × Nat) :=
  let c := s.crew cid
  let g := s.gang c.gang
  let alone (n : Nat) : Bool := (s.gang n).crews.all fun k => k == cid || !onCore s k
  (livePacks s cid).filterMap (ctxBlock s c.launch 0) ++ (ctxBlock s c.launch 1 cid).toList
    ++ (if alone c.gang then (ctxBlock s c.launch 2 c.gang).toList else [])
    ++ (if (s.troop g.troop).gangs.all alone then (ctxBlock s c.launch 3 g.troop).toList else [])

/-- The first page of a crew's context that meets a replayable fault: address and code. -/
def imageFault (s : State) (cid : Nat) (kind : XKind) : Option (Nat × Nat) :=
  (ctxSpans s cid).findSome? fun x =>
    (List.range ((x.1 + x.2 - 1) / 65536 - x.1 / 65536 + 1)).findSome? fun i =>
      let va := max x.1 (65536 * (x.1 / 65536 + i))
      match walk s 0 va kind 6 with
      | .ok _ => none
      | .error code => if replayable code then some (va, code) else none

/-- A crew's SPM1 goes to its save block, and comes back (07 R200). -/
def saveSpm1 (s : State) (cid : Nat) : State :=
  match ctxBlock s (s.crew cid).launch 1 cid with
  | some b => saveSpad s (b.1 + spm1Base) (s.crew cid).st.spm1
  | none => s

def loadSpm1 (s : State) (cid : Nat) : State :=
  match ctxBlock s (s.crew cid).launch 1 cid with
  | some b => s.modSt cid fun st => { st with spm1 := loadSpad s (b.1 + spm1Base) st.spm1 }
  | none => s

/-- Writes the images of a crew's packs. -/
def saveImages (s : State) (cid : Nat) : State :=
  (livePacks s cid).foldl (fun s p =>
    match imageBase s p with
    | some b => if ctxMapped s b (imageSize (s.pack p).width) .write then saveImage s b (s.pack p) else s
    | none => s) s

/-- The crew's subscriptions park: the push in flight lands first (10 R307). -/
def parkSubs (s : State) (cid : Nat) : State :=
  s.subs.foldl (fun s x =>
    match x.2 with
    | some b =>
      if b.crew == cid then
        let s := landPush s x.1
        match s.sub x.1 with
        | some b =>
          let p := b.pending.orElse fun _ => b.flight
          s.setSub x.1 (some { b with parked := true, flight := none, pending := p })
        | none => s
      else s
    | none => s) s

/-- Where the sequencer state of a saved crew is kept. -/
def savedSeq (cid : Nat) : Nat := 2 ^ 32 + cid

/-- The sequencer's instructions of a crew are saved (12 R368). -/
def saveSeq (s : State) (cid : Nat) : State :=
  let core := (s.crew cid).core
  let mine := (s.seq core).filter fun o => o.crew == cid
  if mine.isEmpty then s
  else ((s.setSeq core ((s.seq core).filter fun o => o.crew != cid)).setSeq (savedSeq cid) mine).count ctrMxSave core 1

/-- The KIND 2 entry of a stop. -/
def noteStop (s : State) (cid : Nat) : State :=
  let c := s.crew cid
  if ¬s.isTrack c.launch then s
  else if dispatchLost s c.launch then crewAbort s cid 9 0 0 0
  else if (s.launch c.launch).track.replay then
    match nextStop s cid with
    | some (i, _) => takeEntry s c.launch i
    | none => s
  else
    match recordDispatch s c.launch 2 c.lin c.issues 0 with
    | .ok s => s
    | .error (.trap cls sub val) => crewTrap s cid ⟨cls, sub, val, 0⟩
    | .error _ => crewAbort s cid 9 0 0 0

/-- The crew's spills drain before its contexts are written. -/
def drainCrew (s : State) : List Nat → Nat → Except Stop State
  | [], _ => .ok s
  | p :: l, core =>
    match drainPack s core p spillRoom with
    | .error e => .error e
    | .ok s => drainCrew s l core

/-- A crew is saved and leaves its core (R406; 05 R143); `ctr` counts it. -/
def saveCrew (s : State) (cid ctr : Nat) : State :=
  let c := s.crew cid
  if !canStop s cid then s
  else match imageFault s cid .write with
    | some (va, code) => postFault s (settOfCore c.core) 0 va code 1 6 0
    | none =>
      match drainCrew s c.packs c.core with
      | .error _ => s
      | .ok s =>
        let waits := allWait s cid
        let s := saveSeq (parkSubs s cid) cid
        let s := c.packs.foldl (fun s p => s.modPack p fun k => { k with resv := none }) s
        let s := saveSpm1 (saveImages (flushCrew (moveRelease s c.packs) cid) cid) cid
        let s : State := { s with rf := (s.rf.map fun x => (x.1, x.2.filter fun e => !c.packs.contains e.pack)).filter fun x => !x.2.isEmpty }
        let s := s.modCrew cid fun c => { c with phase := if waits then .swapped else .pending, preempt := false }
        noteStop ((leaveUnits s c.gang).count ctr (settOfCore c.core) 1) cid

/-- A request for pre-emption: a replay passes it over (16 R476). -/
def requestStop (s : State) (cid : Nat) : State :=
  if onCore s cid && !(s.launch (s.crew cid).launch).track.replay then s.modCrew cid fun c => { c with preempt := true } else s

/-! ### Returns (R401; 09 R269; 10 R307) -/

/-- Whether a store has reached a parked subscription of a crew of which a pack waits in stq.wait (10 R307, R309). -/
def parkedPush (s : State) (cid : Nat) : Bool :=
  (s.subs.any fun x => match x.2 with
    | some b => b.crew == cid && b.parked && b.pending.isSome
    | none => false) && (livePacks s cid).any fun p => (s.pack p).wait.kind == .again

/-- Whether a crew asks to be placed again: a swapped one when a wait of its packs has ended, or a store may end one. -/
def wantsReturn (s : State) (cid : Nat) : Bool :=
  let c := s.crew cid
  c.live && (c.phase == .pending || (c.phase == .swapped && (!allWait s cid || parkedPush s cid)))

/-- The crews that return together with a crew: alone, or its whole gang. -/
def returnCrews (s : State) (cid : Nat) : List Nat :=
  let g := s.gang (s.crew cid).gang
  if g.cluster.isSome then [cid] else g.crews.filter fun c => (s.crew c).live

/-- Whether the clocks have counted a microsecond since such times last passed: 65,536 ticks of the schedule stand for one. -/
def timePasses (s : State) : Bool := s.tick % 65536 < 2

/-- A crew without a crew of its troop on a core may go to any sett (R401); the device looks for room on the one it was on, and from time
to time on the others. -/
def returnGroup (s : State) (cid : Nat) : Group :=
  let c := s.crew cid
  let g := s.gang c.gang
  let t := s.troop g.troop
  ⟨c.launch, (returnCrews s cid).map fun x => (s.crew x).lin, g.cluster, t.sett,
    match t.sett with
    | some x => [x]
    | none => if timePasses s then (List.range 8).map fun i => (settOfCore c.core + i) % 8 else [settOfCore c.core]⟩

/-- Subscriptions are bound again, each with one delivery; one that is ending sends its pending push only (10 R307, R308). -/
def rebindSubs (s : State) (cid : Nat) : State :=
  s.subs.foldl (fun s x =>
    match x.2 with
    | some b =>
      if b.crew == cid && b.parked && b.ending then
        s.setSub x.1 (some { b with parked := false, flight := b.pending, pending := none })
      else if b.crew == cid && b.parked then
        deliver s x.1 { b with parked := false, pending := none } (BitVec.ofNat 64 (s.rdNat b.pa b.size)) b.stores
      else s
    | none => s) s

/-- A crew comes back to a core: its state is as it was saved. -/
def returnCrew (s : State) (cid core : Nat) : State :=
  let gid := (s.crew cid).gang
  let tid := (s.gang gid).troop
  let s := if (s.gang gid).cluster.isNone then loadSpm2 s gid else s
  let s := if (s.troop tid).sett.isNone then loadSpm3 s tid else s
  let s := seatCrew (loadSpm1 s cid) cid core
  let s := (livePacks s cid).foldl (fun s p =>
    match imageBase s p with
    | some b => s.setPack p (loadImage s b (s.pack p))
    | none => s) s
  let ops := s.seq (savedSeq cid)
  let s := if ops.isEmpty then s else (s.setSeq (savedSeq cid) []).setSeq core (s.seq core ++ ops)
  let s : State := { s with copies := s.copies.map fun x => (x.1, if x.2.crew == cid then { x.2 with core := core } else x.2) }
  let s := (livePacks s cid).foldl bringKept s
  let s := rebindSubs (moveAcquire s (s.crew cid).packs) cid
  (livePacks s cid).foldl (fun s p =>
    match (s.pack p).wait.kind with
    | .ended => completeWait s p
    | .due cls sub val mask => takeTrap s p (packPc (s.pack p)) (s.pack p).wait.size ⟨cls, sub, val, mask⟩
    | _ => s) s

/-- The return of a crew, with its gang when none of it is placed. -/
def returnNow (s : State) (cid : Nat) : Option State :=
  let c := s.crew cid
  let g := s.gang c.gang
  let stopping : Bool := g.crews.any fun x => onCore s x && (s.crew x).preempt
  if !wantsReturn s cid || !launchActive s (s.launch c.launch) || stopping then none
  else
    let s := passEntry s c.launch
    let cs := returnCrews s cid
    if cs.any fun x => (imageFault s x .read).isSome then none
    else match chooseSeats s (returnGroup s cid) with
      | .wait => none
      | .at cores missing =>
        let whole := g.cluster.isNone
        let s := (cs.zip cores).foldl (fun s x => returnCrew s x.1 x.2) s
        let s := cs.foldl (fun s x => notePlacement s x (missing.contains (s.crew x).lin)) s
        some (if whole then s.modGang c.gang fun g => { g with issues := 0 } else s)

/-- Swapped crews of a class whose waits have ended go first (R404). -/
def swappedFirst (s : State) (prio gang : Nat) : Bool :=
  s.crews.any fun x => x.2.phase == .swapped && x.2.gang != gang && (s.launch x.2.launch).prio == prio && wantsReturn s x.1
    && (returnNow s x.1).isSome

/-! ### Crews pending placement (R403, R404) -/

/-- Whether crews of at least some class are pending placement on a cluster. -/
def pendingOn (s : State) (cl prio : Nat) : Bool :=
  (s.launches.any fun x => launchActive s x.2 && prio ≤ x.2.prio &&
      match nextCrews x.2 with
      | some (lins, _, _) => (freshGroup s x.1 lins).clusters.contains cl
      | none => false)
    || s.crews.any fun x => wantsReturn s x.1 && launchActive s (s.launch x.2.launch) && prio ≤ (s.launch x.2.launch).prio
      && (returnGroup s x.1).clusters.contains cl

/-! ### The events -/

/-- The first cluster that has all that a group needs but scratchpad pages. -/
def pageLess (s : State) (g : Group) : Option Nat :=
  (seatWants s g).bind fun w => w.2.1.find? fun cl =>
    (fitCores (s.launch g.lid).hdr w.1
      ((List.range 8).map fun i => (8 * cl + i, { coreRoom s (8 * cl + i) with pages := 2 ^ 20 }))).isSome

/-- An attempt to place a group that is deferred for lack of scratchpad pages is counted (07 R219). -/
def countDeferred (s : State) (g : Group) : State :=
  match chooseSeats s g, pageLess s g with
  | .wait, some cl => s.count ctrSpmPlwait (cl / 16) 1
  | _, _ => s

/-- The attempt to place a launch's next crews, where it fails. -/
def deferFresh (s : State) (lid : Nat) : State :=
  if !launchActive s (s.launch lid) then s
  else match nextCrews (s.launch lid), allotMoors s lid with
    | some (lins, _, _), some _ => countDeferred s (freshGroup s lid lins)
    | _, _ => s

/-- The attempt to bring a crew back, where it fails. -/
def deferReturn (s : State) (cid : Nat) : State :=
  if !wantsReturn s cid || !launchActive s (s.launch (s.crew cid).launch) then s else countDeferred s (returnGroup s cid)

def execCrewPlace (launch : Nat) (s : State) : Host.Outcome State Fault Refusal :=
  if swappedFirst s (s.launch launch).prio 0 then .next s
  else .next (match placeNext s launch with
    | some t => t
    | none => deferFresh s launch)

def execCrewReturn (crew : Nat) (s : State) : Host.Outcome State Fault Refusal :=
  let c := s.crew crew
  if c.phase != .swapped && swappedFirst s (s.launch c.launch).prio c.gang then .next s
  else .next (match returnNow s crew with
    | some t => t
    | none => deferReturn s crew)

/-- Whether a gang has used up its quantum (R403). -/
def quantumDue (s : State) (gang : Nat) : Bool :=
  let g := s.gang gang
  let n := (s.launch g.launch).hdr.quantum
  g.live && g.cluster.isSome && n ≠ 0 && n * 65536 ≤ g.issues

/-- The quantum of a gang ends. -/
def endQuantum (s : State) (gang : Nat) : State :=
  let g := s.gang gang
  match g.cluster with
  | some cl =>
    let s' := if pendingOn s cl (s.launch g.launch).prio then g.crews.foldl requestStop s else s
    s'.modGang gang fun g => { g with issues := 0 }
  | none => s

def execQuantumEnd (gang : Nat) (s : State) : Host.Outcome State Fault Refusal :=
  .next (if quantumDue s gang then endQuantum s gang else s)

/-- Whether a crew is to be swapped out (04 R105). -/
def swapDue (s : State) (cid : Nat) : Bool :=
  onCore s cid && allWait s cid && (stopDue s cid || pendingOn s (clusterOfCore (s.crew cid).core) 0)

def execSwapOut (crew : Nat) (s : State) : Host.Outcome State Fault Refusal :=
  .next (if swapDue s crew then saveCrew s crew ctrSwapOut else s)

/-- The window of R405 passes without a checkpoint; a replay stops at its recorded count. -/
def execPreemptWindowExpire (crew : Nat) (s : State) : Host.Outcome State Fault Refusal :=
  .next (if (s.crew crew).preempt || stopDue s crew then saveCrew s crew ctrPreMid else s)

/-- The crew checkpoint of a completed b0 phase, at which a crew that is to stop is saved (R405; 15 R453). -/
def execCheckpoint (crew : Nat) (s : State) : Host.Outcome State Fault Refusal :=
  if checkpointDue s crew then
    let s := takeCheckpoint s crew
    let took : Bool := (s.crew crew).live && (livePacks s crew).all fun p => (s.pack p).wait.kind != .barrier 0
    .next (if took && (s.crew crew).preempt then saveCrew s crew ctrPreCkpt else s)
  else .next s

end Sys2Proof.Machine
end

