-- ==== Sys2Proof/Machine/Packets.lean ====
section
/-! DEFINITION. Queues, notify pages, packets, the queue mapper, and the start and end of launches (13 R386 to R395, R402, R407,
R412; 16 R475, R476). -/

namespace Sys2Proof.Machine

/-! ### The mapper (R394) -/

/-- Whether a queue has nothing left to do. -/
def queueIdle (s : State) (n : Nat) : Bool :=
  let q := s.queue n
  q.ridx == q.widx && q.pkts.isEmpty && q.writes.isEmpty && !(s.launches.any fun x => x.2.live && x.2.queue == n)
    && !(s.devLaunches.any fun d => d.queue == n)

def queuePending (s : State) (n : Nat) : Bool := (s.queue n).enabled && !(s.queue n).slot && !queueIdle s n

/-- A queue that has become idle gives up its slot at once. -/
def settleQueue (s : State) (n : Nat) : State :=
  if (s.queue n).slot && queueIdle s n then s.modQueue n fun q => { q with slot := false, slotAged := false, leaving := false, aged := 0 }
  else s

/-- A queue that has become pending takes its place in the order. -/
def notePending (s : State) (n : Nat) : State :=
  let (k, s) := s.newId
  s.modQueue n fun q => { q with pendOrder := k, aged := 0 }

def effPrio (q : Queue) : Nat := if q.slot then q.prio else min 3 (q.prio + q.aged)

/-- Whether one pending queue goes before another. -/
def pendBefore (a b : Queue) : Bool := effPrio b < effPrio a || (effPrio a == effPrio b && a.pendOrder < b.pendOrder)

/-- The pending queue that goes first. -/
def firstPending (s : State) : Option Nat :=
  (s.queues.filter fun x => queuePending s x.1).foldl (fun (r : Option (Nat × Queue)) x =>
    match r with
    | none => some x
    | some y => if pendBefore x.2 y.2 then some x else r) none |>.map (·.1)

/-- The queue whose slot a pending queue of priority `p` takes under rules 2 and 3: a lower one, else an equal one that has held
its slot for 200 µs; the lowest first, then the one that has held its slot longest. -/
def slotVictim (s : State) (p : Nat) : Option Nat :=
  let held := s.queues.filter fun x => x.2.slot && !x.2.leaving
  let best (l : List (Nat × Queue)) : Option Nat :=
    (l.foldl (fun (r : Option (Nat × Queue)) x =>
      match r with
      | none => some x
      | some y => if x.2.prio < y.2.prio || (x.2.prio == y.2.prio && x.2.slotOrder < y.2.slotOrder) then some x else r) none).map (·.1)
  (best (held.filter fun x => x.2.prio < p)).orElse fun _ => best (held.filter fun x => x.2.prio == p && x.2.slotAged)

/-- A queue receives a slot; its suspended copies go on. -/
def giveSlot (s : State) (n : Nat) : State :=
  let (k, s) := s.newId
  s.modQueue n fun q => { q with
    slot := true
    slotOrder := k
    slotAged := false
    leaving := false
    aged := 0
    pkts := q.pkts.map fun p => match p.work with
      | .copy a b c _ => { p with work := .copy a b c false }
      | _ => p }

/-- Crews of a queue's launches that are on their cores. -/
def queueCrews (s : State) (n : Nat) : List Nat :=
  (s.crews.filter fun x => onCore s x.1 && (s.launch x.2.launch).queue == n).map (·.1)

/-- A queue begins to lose its slot to another: its crews are to stop, and its copies are suspended (R395). -/
def startLeaving (s : State) (n taker : Nat) : State :=
  let s := s.modQueue n fun q => { q with
    leaving := true
    taker := taker
    pkts := q.pkts.map fun p => match p.work with
      | .copy a b c _ => { p with work := .copy a b c true }
      | _ => p }
  (queueCrews s n).foldl requestStop s

/-- A queue keeps the slot that it was losing, since its taker needs it no more: its copies go on. -/
def stayActive (s : State) (v : Nat) : State :=
  s.modQueue v fun q => { q with
    leaving := false
    pkts := q.pkts.map fun p => match p.work with
      | .copy a b c _ => { p with work := .copy a b c false }
      | _ => p }

/-- The slot of a queue passes to its taker once its crews have been saved; the queue is pending again at once (R395). -/
def passSlot (s : State) (v : Nat) : State :=
  let taker := (s.queue v).taker
  if !queuePending s taker then stayActive s v
  else if (queueCrews s v).isEmpty then
    let s := notePending (s.modQueue v fun q => { q with slot := false, slotAged := false, leaving := false }) v
    (giveSlot s taker).count ctrMapSwitch 0 1
  else s

/-- The mapper gives a pending queue a slot: a free one, or that of the queue that rules 2 and 3 pick, once the crews of that queue have
been saved. -/
def execSlotGrant (queue : Nat) (s : State) : Host.Outcome State Fault Refusal :=
  if (s.queue queue).slot && (s.queue queue).leaving then .next (passSlot s queue)
  else if firstPending s != some queue then .next s
  else if (s.queues.filter fun x => x.2.slot).length < 32 then .next (giveSlot s queue)
  else match s.queues.find? fun x => x.2.slot && x.2.leaving && x.2.taker == queue with
    | some x => .next (passSlot s x.1)
    | none => match slotVictim s (effPrio (s.queue queue)) with
      | some v => .next (passSlot (startLeaving s v queue) v)
      | none => .next s

/-- A full 2 ms of being pending without a slot. -/
def execPriorityAgeing (queue : Nat) (s : State) : Host.Outcome State Fault Refusal :=
  .next (if queuePending s queue then s.modQueue queue fun q => { q with aged := min 3 (q.aged + 1) } else s)

/-- A slot has been held for 200 µs. -/
def execSlotSliceExpire (queue : Nat) (s : State) : Host.Outcome State Fault Refusal :=
  .next (if (s.queue queue).slot then s.modQueue queue fun q => { q with slotAged := true } else s)

/-! ### Faults of a queue's own accesses (R393) -/

def haltQueue (s : State) (n errc : Nat) : State := s.modQueue n fun q => { q with halt := true, errc := errc }

/-- A replayable fault stalls the queue; a fatal one, or a granule that may not be used, halts it. -/
def queueErr (s : State) (n : Nat) (who : Staller) : DevErr → State
  | .fault code asid va write =>
    if replayable code then (postFault s 0 asid va code (bit write) 6 0).modQueue n fun q =>
      { q with stall := some (asid, va, code), staller := who }
    else haltQueue (queueRecord s 0 asid va code (bit write) 6 0) n 4
  | .bad => haltQueue s n 4
  | .reject _ => s

def DevErr.isReplay : DevErr → Bool
  | .fault code _ _ _ => replayable code
  | _ => false

/-- The writes of read indices and completion words that are due, in order. -/
def flushWrites (s : State) (n : Nat) : Nat → State
  | 0 => s
  | k + 1 =>
    let q := s.queue n
    match q.writes with
    | [] => s
    | (a, v) :: l =>
      if q.stall.isSome then s
      else match devWrite s q.asid a (leBytes v.toNat 8) with
        | .ok s => flushWrites (s.modQueue n fun q => { q with writes := l }) n k
        | .error e =>
          if e.isReplay then queueErr s n .writes e
          else flushWrites (queueErr (s.modQueue n fun q => { q with writes := l }) n .writes e) n k

def addWrite (s : State) (n a : Nat) (v : W64) : State :=
  let s := s.modQueue n fun q => { q with writes := q.writes ++ [(a, v)] }
  flushWrites s n (s.queue n).writes.length

/-! ### Completion (R392, R393) -/

def completionWord (code sub count : Nat) : W64 := BitVec.ofNat 64 (count % 2 ^ 32 * 2 ^ 32 + sub % 256 * 256 + code)

/-- A packet of a queue has completed. -/
def finishPkt (s : State) (n idx : Nat) (word : Option W64) : State :=
  let done := ((s.queue n).pkts.find? fun p => p.idx == idx).map (·.done)
  let s := s.modQueue n fun q => { q with pkts := q.pkts.filter fun p => p.idx != idx }
  let s := match done, word with
    | some (a + 1), some w => addWrite s n (a + 1) w
    | _, _ => s
  settleQueue s n

/-! ### Launches start (R396, R402; 16 R475, R476) -/

/-- Records the MARK packets before a recording launch. -/
def recordMarks (s : State) (lid : Nat) : List W64 → State
  | [] => s
  | m :: l =>
    match recordDispatch s lid 3 markLin (m.toNat % 2 ^ 40) 0 with
    | .ok s => recordMarks s lid l
    | .error (.trap cls sub val) => modTrack s lid fun t => { t with pendDivg := some ⟨cls, sub, val, 0⟩ }
    | .error _ => s

/-- Compares the MARK packets before a replay with the recorded ones. -/
def replayMarks (s : State) (lid : Nat) (l : List W64) : State :=
  let t := (s.launch lid).track
  let mine := (List.range (t.dused / 16)).filter fun i =>
    let e := dispatchEntry s lid i
    entryKind e == 3 && entryF1 e == markLin
  let same : Bool := mine.map (dispatchEntry s lid) == l.map fun m => entryOf 3 markLin (m.toNat % 2 ^ 40) 0
  modTrack s lid fun t => { t with
    dtaken := mine ++ t.dtaken
    pendDivg := if same then t.pendDivg else some ⟨clsDivg, 3, 0, 0⟩ }

/-- Makes the launch of a checked header. -/
def makeLaunch (s : State) (o : Origin) (queue asid prio done : Nat) (sv : Bool) (x : Loaded) : Nat × State :=
  let (id, s) := s.newId
  (id, s.setLaunch id { Launch.blank with
    live := true
    origin := o
    queue := queue
    asid := asid
    prio := prio
    supervisor := sv
    done := done
    hdr := x.hdr
    liveTab := x.liveTab
    bounds := x.bounds
    berths := (x.berths.foldl (fun (r : Tab (Option Berth) × Nat) b => (Tab.set none r.1 r.2 (some b), r.2 + 1)) ([], 0)).1
    wantMoors := x.moors
    graph := x.graph
    gangs := x.hdr.gangCount
    track := x.track
    stampPa := if x.hdr.dmode = 2 then (match walk s asid x.hdr.stamp .write spaceAny with
      | .ok y => y.pa
      | .error _ => 0) else 0 })

/-- Appends or checks the MARK packets of a Track launch. -/
def noteMarks (s : State) (lid : Nat) (l : List W64) : State :=
  if ¬s.isTrack lid then s
  else if (s.launch lid).track.replay then replayMarks s lid l
  else recordMarks s lid l

/-- The launch unit reads and checks the header of a packet that has been taken, and starts the launch.  The MARK packets before it
stand until one that runs in Track mode takes them (R392). -/
def startPkt (s : State) (n : Nat) (p : Pkt) (graph : Bool) (hdr : Nat) : State :=
  let q := s.queue n
  if q.stall.isSome || !q.writes.isEmpty || q.halt then s
  else match loadLaunch s ⟨q.asid, hdr, graph, some q.ctxsz⟩ with
    | .ok (s, x) =>
      let (id, s) := makeLaunch s (.packet n p.idx) n q.asid (min x.hdr.prio q.prio) p.done false x
      let s := noteMarks s id q.marks
      s.modQueue n fun q => { q with
        marks := if x.hdr.dmode = 1 then [] else q.marks
        pkts := q.pkts.map fun y => if y.idx == p.idx then { y with work := .launch id } else y }
    | .error (.reject k) =>
      finishPkt (haltQueue (s.count ctrLnRej 0 1) n 3) n p.idx (some (completionWord 2 k 0))
    | .error e =>
      if e.isReplay then queueErr s n (.pkt p.idx) e
      else finishPkt (queueErr s n (.pkt p.idx) e) n p.idx none

/-! ### Packets (R390 to R392) -/

def pktWord (b : List Byte) (i : Nat) : Nat := fieldAt b (8 * i) 8
def pktType (b : List Byte) : Nat := fieldAt b 0 1
def pktOrd (b : List Byte) : Bool := bitAt (fieldAt b 0 4) 8

/-- Words of a packet that carry something, by type. -/
def pktWords (ty : Nat) : Nat :=
  match ty with
  | 1 => 3
  | 2 => 3
  | 3 => 5
  | 4 => 4
  | 5 => 5
  | _ => 2

/-- Whether a packet is bad (R391). -/
def pktBad (b : List Byte) : Bool :=
  let ty := pktType b
  let n := pktWords ty
  let t := pktWord b 1
  ty < 1 || 6 < ty || bits (fieldAt b 0 4) 9 23 ≠ 0 || !zeroAt b (8 * n) (64 - 8 * n)
    || (ty == 4 && (2 < pktWord b 3 || t % (if pktWord b 3 = 1 then 4 else 8) ≠ 0))
    || (ty == 5 && (15 < pktWord b 4 || 5 < pktWord b 4 % 8 || t % 8 ≠ 0))

def Work.holds : Work → Bool
  | .wait _ _ _ _ _ => true
  | .start _ _ => true
  | .signal _ _ _ => true
  | _ => false

/-- Whether a queue may take a packet now. -/
def canTake (q : Queue) : Bool :=
  q.enabled && !q.disabling && q.slot && !q.leaving && !q.halt && q.ridx != q.widx && q.stall.isNone && q.writes.isEmpty
    && !(q.pkts.any fun p => p.work.holds)

/-- The 64 bytes of the next packet. -/
def readPkt (s : State) (n : Nat) : Except DevErr (State × List Byte) :=
  let q := s.queue n
  devReadIn s q.asid (q.base + 64 * (q.ridx.toNat % 2 ^ q.log2n)) 64 spaceRing

/-- RIDX passes a packet, and is written to RIDXWB. -/
def passPkt (s : State) (n : Nat) : State :=
  let s := s.modQueue n fun q => { q with ridx := q.ridx + 1 }
  let q := s.queue n
  if q.ridxwb = 0 then s else addWrite s n q.ridxwb q.ridx

/-- Takes the next packet if a test holds for it, and hands it on with its index. -/
def takePkt (s : State) (n : Nat) (ok : List Byte → Bool) (act : State → Nat → List Byte → State) : State :=
  if !canTake (s.queue n) then s
  else match readPkt s n with
    | .error e => queueErr s n .read e
    | .ok (s1, b) =>
      let ord := pktOrd b || pktType b == 4 || pktType b == 6
      if !ok b || (ord && !(s.queue n).pkts.isEmpty) then s
      else settleQueue (act (passPkt s1 n) (s.queue n).ridx.toNat b) n

def isType (k : Nat) (b : List Byte) : Bool := !pktBad b && pktType b == k

def addPkt (s : State) (n idx done : Nat) (w : Work) : State := s.modQueue n fun q => { q with pkts := q.pkts ++ [⟨idx, done, w⟩] }

/-- The packet of a queue that has been taken and still has to start. -/
def pktStart (q : Queue) (graph : Bool) : Option (Pkt × Nat) :=
  q.pkts.findSome? fun p => match p.work with
    | .start g h => if g == graph then some (p, h) else none
    | _ => none

def launchPkt (graph : Bool) (n : Nat) (s : State) : State :=
  match pktStart (s.queue n) graph with
  | some (p, h) => startPkt s n p graph h
  | none =>
    takePkt s n (isType (if graph then 2 else 1)) fun s i b =>
      let s := addPkt s n i (pktWord b 2) (.start graph (pktWord b 1))
      startPkt s n ⟨i, pktWord b 2, .start graph (pktWord b 1)⟩ graph (pktWord b 1)

def execLaunch (queue : Nat) (s : State) : Host.Outcome State Fault Refusal := .next (launchPkt false queue s)
def execGraph (queue : Nat) (s : State) : Host.Outcome State Fault Refusal := .next (launchPkt true queue s)

def execCopy (queue : Nat) (s : State) : Host.Outcome State Fault Refusal :=
  .next (takePkt s queue (isType 3) fun s i b => addPkt s queue i (pktWord b 4) (.copy (pktWord b 1) (pktWord b 2) (pktWord b 3) false))

/-- SIGNAL: a store, or an atomic add (R392). -/
def runSignal (s : State) (n : Nat) (p : Pkt) (a : Nat) (v : W64) (kind : Nat) : State :=
  let q := s.queue n
  let size := if kind = 1 then 4 else 8
  if q.stall.isSome || q.halt then s
  else
    let old : Except DevErr (State × Nat) :=
      if kind ≠ 2 then .ok (s, 0) else do
        let ps ← devPlaces s q.asid .write spaceAny [(a, 8)]
        if ps.any fun x => (s.uceAt x.1.pa).isSome then throw .bad
        let s := readyRead s (ps.map fun x => x.1.pa / 64)
        pure (s, leNat (ps.flatMap fun x => s.rdBytes x.1.pa x.2))
    match old.bind fun x => devWrite x.1 q.asid a (leBytes (x.2 + v.toNat) size) with
    | .error e =>
      if e.isReplay then queueErr s n (.pkt p.idx) e else finishPkt (queueErr s n (.pkt p.idx) e) n p.idx none
    | .ok s => finishPkt s n p.idx none

def execSignal (queue : Nat) (s : State) : Host.Outcome State Fault Refusal :=
  match (s.queue queue).pkts.findSome? fun p => match p.work with
      | .signal a v k => some (p, a, v, k)
      | _ => none with
  | some (p, a, v, k) => .next (runSignal s queue p a v k)
  | none =>
    .next (takePkt s queue (isType 4) fun s i b =>
      let w : Work := .signal (pktWord b 1) (BitVec.ofNat 64 (pktWord b 2)) (pktWord b 3)
      runSignal (addPkt s queue i 0 w) queue ⟨i, 0, w⟩ (pktWord b 1) (BitVec.ofNat 64 (pktWord b 2)) (pktWord b 3))

/-- A WAIT packet's condition (R392). -/
def waitHolds (x : Nat) (v k : W64) (cmp : Nat) (signed : Bool) : Bool :=
  compareCode cmp signed 64 (x &&& k.toNat) (v.toNat &&& k.toNat)

/-- Evaluates a WAIT packet. -/
def runWait (s : State) (n : Nat) (p : Pkt) (a : Nat) (v k : W64) (cmp : Nat) (signed : Bool) : State :=
  if (s.queue n).stall.isSome || (s.queue n).halt then s
  else match devRead s (s.queue n).asid a 8 with
    | .error e => if e.isReplay then queueErr s n (.pkt p.idx) e else finishPkt (queueErr s n (.pkt p.idx) e) n p.idx none
    | .ok (s1, b) => if waitHolds (leNat b) v k cmp signed then finishPkt s1 n p.idx none else s

def execWait (queue : Nat) (s : State) : Host.Outcome State Fault Refusal :=
  .next (takePkt s queue (isType 5) fun s i b =>
    addPkt s queue i 0
      (.wait (pktWord b 1) (BitVec.ofNat 64 (pktWord b 2)) (BitVec.ofNat 64 (pktWord b 3)) (pktWord b 4 % 8) (bitAt (pktWord b 4) 3)))

def execWaitComplete (queue : Nat) (s : State) : Host.Outcome State Fault Refusal :=
  match (s.queue queue).pkts.findSome? fun p => match p.work with
      | .wait a v k c g => some (p, a, v, k, c, g)
      | _ => none with
  | some (p, a, v, k, c, g) => .next (runWait s queue p a v k c g)
  | none => .next s

def execMark (queue : Nat) (s : State) : Host.Outcome State Fault Refusal :=
  .next (takePkt s queue (isType 6) fun s _ b =>
    s.modQueue queue fun q => { q with marks := q.marks ++ [BitVec.ofNat 64 (pktWord b 1)] })

def execBadPacket (queue : Nat) (s : State) : Host.Outcome State Fault Refusal :=
  .next (takePkt s queue pktBad fun s _ _ => haltQueue s queue 2)

/-- A host-class copy lands (R392). -/
def landPkt (s : State) (n : Nat) (p : Pkt) (src dst count : Nat) : State :=
  let q := s.queue n
  let bytes := do
    let (s, b) ← devRead s q.asid src count
    devWrite s q.asid dst b
  match bytes with
  | .ok s => finishPkt s n p.idx (some (completionWord 1 0 0))
  | .error e =>
    match e with
    | .fault code _ _ _ =>
      if e.isReplay then queueErr s n (.pkt p.idx) e
      else finishPkt (queueErr s n (.pkt p.idx) e) n p.idx (some (completionWord 4 code 0))
    | _ => finishPkt (queueErr s n (.pkt p.idx) e) n p.idx (some (completionWord 4 0 0))

def execCopyPacketComplete (queue idx : Nat) (s : State) : Host.Outcome State Fault Refusal :=
  let q := s.queue queue
  match q.pkts.find? fun p => p.idx == idx with
  | some p =>
    match p.work with
    | .copy a b c false => .next (if q.slot && q.stall.isNone then landPkt s queue p a b c else s)
    | _ => .next s
  | none => .next s

/-! ### Launches end (R392, R412; 16 R475) -/

/-- Every partial that a launch has gathered goes to its home (10 R293). -/
def flushLaunch (s : State) (lid : Nat) : State :=
  let gs := nubNat ((s.gather.flatMap fun x => (x.2.filter fun l => l.launch == lid).map (·.gran))
    ++ (s.launch lid).homeRecs.map (·.gran))
  gs.foldl (fun s g => recallGran (recallNow s g) g) s

/-- STATE := 1 at the end of a recording that no abort ended. -/
def closeTrack (s : State) (lid : Nat) : State :=
  let l := s.launch lid
  if s.isTrack lid && !l.track.replay && !l.aborted then (regionWrite s lid l.hdr.track 1 8).getD s else s

/-- What a finished launch leaves: what MAKE-MANIFEST asks of it. -/
def Launch.finished (l : Launch) : Launch :=
  { Launch.blank with hdr := l.hdr, placements := l.placements, asid := l.asid, prio := l.prio, track := l.track }

/-- A launch completes: COUNT is what R412 gives. -/
def endLaunch (s : State) (lid count : Nat) : State :=
  let s := closeTrack (flushLaunch s lid) lid
  let l := s.launch lid
  let word := completionWord (if l.aborted then 3 else 1) 0 count
  let s := s.setLaunch lid l.finished
  match l.origin with
  | .packet n i => finishPkt s n i (some word)
  | .device n =>
    let s : State := { s with devLaunches := s.devLaunches.filter fun d => d.id != some lid }
    if n < noQueue then settleQueue (if l.done = 0 then s else addWrite s n l.done word) n
    else if l.done = 0 then s
    else match devWrite s l.asid l.done (leBytes word.toNat 8) with
      | .ok s => s
      | .error _ => s
  | .command _ => s

/-- Whether any crew of a launch is placed or pending. -/
def launchCrews (s : State) (lid : Nat) : Bool := s.crews.any fun x => x.2.live && x.2.launch == lid

def execLaunchComplete (launch : Nat) (s : State) : Host.Outcome State Fault Refusal :=
  let l := s.launch launch
  .next (if l.live && !l.graph.present && l.gangs ≤ l.nextGang && !launchCrews s launch then endLaunch s launch 0 else s)

/-- Records that are held or delivered. -/
def keptRecords (l : Launch) : Nat := (l.graph.recs.filter fun x => x.2.state == .held || x.2.state == .delivered).length

def execGraphComplete (launch : Nat) (s : State) : Host.Outcome State Fault Refusal :=
  let l := s.launch launch
  .next (if l.live && l.graph.present && l.gangs ≤ l.nextGang && l.graph.ready.isEmpty && (l.graph.nodes.all fun n => n.fill.isEmpty)
      && !launchCrews s launch then endLaunch s launch (keptRecords l) else s)

/-! ### Device launches (R407) -/

/-- The first entry of the table that has not started and whose queue may start it. -/
def nextDevice (s : State) : Option DevLaunch :=
  s.devLaunches.find? fun d => d.id.isNone && (noQueue ≤ d.queue || ((s.queue d.queue).slot && (s.queue d.queue).stall.isNone))
    && ((s.devLaunches.find? fun e => e.id.isNone && e.queue == d.queue) == some d)

/-- Changes the first entry that has not started, of a queue. -/
def modDevice (d : DevLaunch) (f : DevLaunch → List DevLaunch) : List DevLaunch → List DevLaunch
  | [] => []
  | e :: l => if e == d then f e ++ l else e :: modDevice d f l

/-- A device launch that does not start: its entry is freed. -/
def dropDevice (s : State) (d : DevLaunch) (word : Option W64) : State :=
  let s : State := { s with devLaunches := modDevice d (fun _ => []) s.devLaunches }
  match word with
  | some w =>
    if d.done = 0 then settleQueue s d.queue
    else if d.queue < noQueue then settleQueue (addWrite s d.queue d.done w) d.queue
    else match devWrite s d.asid d.done (leBytes w.toNat 8) with
      | .ok s => s
      | .error _ => s
  | none => settleQueue s d.queue

/-- A fault on a page is pending. -/
def faultPending (s : State) (asid page : Nat) : Bool := s.pendFaults.any fun f => f.asid == asid && f.page == page

def startDevice (s : State) (d : DevLaunch) : State :=
  let q := s.queue d.queue
  match loadLaunch s ⟨d.asid, d.header, false, if d.queue < noQueue then some q.ctxsz else none⟩ with
  | .ok (s, x) =>
    let prio := min (min x.hdr.prio d.prio) (if d.queue < noQueue then q.prio else 3)
    let (id, s) := makeLaunch s (.device d.queue) d.queue d.asid prio d.done d.supervisor x
    let s := noteMarks s id []
    { s with devLaunches := modDevice d (fun e => [{ e with id := some id }]) s.devLaunches }
  | .error (.reject k) => dropDevice (s.count ctrLnRej 0 1) d (some (completionWord 2 k 0))
  | .error e =>
    if d.queue < noQueue then
      (if e.isReplay then queueErr s d.queue .device e else dropDevice (queueErr s d.queue .device e) d none)
    else match e with
      | .fault code asid va w =>
        if replayable code then (if faultPending s asid (va / 65536) then s else postFault s 0 asid va code (bit w) 6 0)
        else dropDevice (queueRecord s 0 asid va code (bit w) 6 0) d none
      | _ => dropDevice s d none

def execDeviceLaunchStart (s : State) : Host.Outcome State Fault Refusal :=
  match nextDevice s with
  | some d => .next (startDevice s d)
  | none => .next s

/-! ### Notify pages (R388, R389) -/

/-- A write to a queue's notify page: 64 aligned bytes at NOTIFY are a notify; 8 bytes at STATUS clear HALT where bit 3 is set;
another write is dropped and counted. -/
def execNotify (queue off size : Nat) (nwidx : BitVec 64) (s : State) : Host.Outcome State Fault Refusal :=
  if !s.bar0.ready || 1024 ≤ queue then .next s
  else
    let q := s.queue queue
    if off = 0 ∧ size = 64 then
      if !q.enabled || q.disabling then .next s
      else if (nwidx - q.ridx).toNat ≤ 2 ^ q.log2n && (nwidx - q.widx).toNat < 2 ^ 63 then
        let idle := queueIdle s queue
        let s := s.modQueue queue fun q => { q with widx := nwidx }
        .next (if idle && !queueIdle s queue then notePending s queue else s)
      else .next (haltQueue s queue 1)
    else if off = 0x50 ∧ size = 8 then
      .next (if bitAt nwidx.toNat 3 then s.modQueue queue fun q => { q with halt := false, errc := 0 } else s)
    else .next (s.count ctrMapBadw 0 1)

/-- HALT is cleared by writing 1, with ERRC; the queue goes on (R388). -/
def execHaltClear (queue : Nat) (s : State) : Host.Outcome State Fault Refusal :=
  .next (if !s.bar0.ready || 1024 ≤ queue then s else s.modQueue queue fun q => { q with halt := false, errc := 0 })

end Sys2Proof.Machine
end

