-- ==== Sys2Proof/Machine/Graph.lean ====
section
/-! DEFINITION. Device launches and work graphs: lnch, grec, gemit, gfree, gpool, and the batches of a graph (13 R407 to R416;
16 R475, R476). -/

namespace Sys2Proof.Machine

/-! ### lnch (R407) -/

/-- Entries of the package device-launch table. -/
def deviceRoom : Nat := 4096

/-- Whether a device launch enters the table: in replay as recorded, by the issue count of the pack (16 R476). -/
def launchTurn (s : State) (p : Pack) (ok : Bool) : Except Stop (State × Bool) :=
  if ¬s.isTrack p.launch then .ok (s, ok)
  else if (s.launch p.launch).track.replay then
    match nextEntry s p.launch fun e => entryKind e == 7 && entryF1 e == p.lin with
    | some (i, e) => if entryF2 e = p.issues % 2 ^ 40 then .ok (takeEntry s p.launch i, true) else .ok (s, false)
    | none => .ok (s, false)
  else if ok then (recordDispatch s p.launch 7 p.lin p.issues 0).map fun s => (s, true)
  else .ok (s, false)

def lnchBody (c : Ctx) (s : State) : Res :=
  let p := s.curPack
  let l := s.launch p.launch
  let k := rdY p (encA c.e)
  if c.m = 0 then .done s 0
  else match capSub s.curSv ⟨[0], pmLoad, headerSize⟩ k k.cursor with
    | some j => .trap (c.trap clsCapv j (BitVec.ofNat 64 k.cursor))
    | none =>
      if k.cursor % 64 ≠ 0 then .trap (c.trap clsAlign 0 (BitVec.ofNat 64 k.cursor))
      else if s.isStrict p.launch then .trap (c.openTrap clsRace 2 (BitVec.ofNat 64 k.cursor))
      else match (expose s s.cur).bind fun s => launchTurn s p (s.devLaunches.length < deviceRoom) with
        | .error e => resOf c s (.stop e)
        | .ok (s1, ok) =>
          if ok && deviceRoom ≤ s1.devLaunches.length then .stall s
          else
            let d : DevLaunch := ⟨l.queue, l.asid, k.cursor, (rdS p (encB c.e)).toNat, l.prio, s.cur, l.supervisor, none⟩
            let s2 : State := if ok then { s1 with devLaunches := s1.devLaunches ++ [d] } else s1
            .done (s2.setCur (setPredAll c s2.curPack ok)) 0

def execLnch (e : Enc) (s : State) : Host.Outcome State Fault Refusal := issue (.lnch e) e lnchBody s

/-! ### Records (R410, R414) -/

def Graph.record (g : Graph) (h : Nat) : Rec := Tab.get Rec.free g.recs h

/-- The lowest handle that is free. -/
def Graph.lowestFree (g : Graph) : Option Nat :=
  let n := g.recs.foldl (fun n x => if x.1 = n then n + 1 else n) 0
  if n < g.pooln then some n else none

def modGraph (s : State) (lid : Nat) (f : Graph → Graph) : State := s.modLaunch lid fun l => { l with graph := f l.graph }

def setRec (s : State) (lid h : Nat) (r : Rec) : State := modGraph s lid fun g => { g with recs := Tab.set Rec.free g.recs h r }

/-- What the four instructions have in common: a graph launch, the checks `chk` of handle and node, and no Strict mode. -/
def graphOp (chk : Ctx → Pack → Graph → Option Trap) (body : Ctx → State → Res) (c : Ctx) (s : State) : Res :=
  let p := s.curPack
  let g := (s.launch p.launch).graph
  if !g.present then .trap (c.openTrap clsIllop 13 (rdS p (encA c.e)))
  else match chk c p g with
    | some t => .trap t
    | none => if s.isStrict p.launch then .trap (c.openTrap clsRace 2 (rdS p (encA c.e))) else body c s

/-- A handle that no record of the pool has. -/
def handleCheck (c : Ctx) (p : Pack) (g : Graph) : Option Trap :=
  let h := rdS p (encA c.e)
  if 2 ^ 24 ≤ h.toNat ∨ g.pooln ≤ h.toNat then some (c.trap clsIllop 13 h) else none

/-- A node index that names no node but the first. -/
def nodeCheck (c : Ctx) (p : Pack) (g : Graph) : Option Trap :=
  let n := rdS p (encB c.e)
  if n = 0 ∨ g.nodes.length ≤ n.toNat then some (c.trap clsIllop 13 n) else none

/-- A handle whose record is neither held nor delivered, or with `marked` already marked for freeing. -/
def stateCheck (marked : Bool) (c : Ctx) (p : Pack) (g : Graph) : Option Trap :=
  let h := rdS p (encA c.e)
  let r : Rec := g.record h.toNat
  if (r.state == .held || r.state == .delivered) && !(marked && r.freeing.isSome) then none else some (c.trap clsIllop 14 h)

def orTrap (a b : Option Trap) : Option Trap := a.orElse fun _ => b

def grecBody (c : Ctx) (s : State) : Res :=
  let p := s.curPack
  match (s.launch p.launch).graph.lowestFree with
  | some h =>
    let s := setRec s p.launch h ⟨.held, p.crew, true, none⟩
    .done (s.setCur (wrS s.curPack c.e.d.toNat (BitVec.ofNat 64 h))) 0
  | none =>
    if encModBit c.e 0 then .done (s.setCur (wrS p c.e.d.toNat (-1))) 0
    else .wait (s.count ctrGrStall 0 1) .record []

def execGrec (e : Enc) (s : State) : Host.Outcome State Fault Refusal :=
  issue (.grec e) e (graphOp (fun _ _ _ => none) grecBody) s

def gfreeBody (c : Ctx) (s : State) : Res :=
  let p := s.curPack
  let h := (rdS p (encA c.e)).toNat
  .done (setRec s p.launch h { (s.launch p.launch).graph.record h with freeing := some p.crew }) 0

def execGfree (e : Enc) (s : State) : Host.Outcome State Fault Refusal :=
  issue (.gfree e) e (graphOp (fun c p g => orTrap (handleCheck c p g) (stateCheck true c p g)) gfreeBody) s

/-- Crews of a node that are placed or pending. -/
def nodeCrews (s : State) (lid n : Nat) : Nat :=
  (s.crews.filter fun x => x.2.live && x.2.launch == lid && (s.gang x.2.gang).node == n).length
    + ((s.launch lid).graph.ready.filter fun x => x.2.1 == n).length

/-- The word of gpool and gpool.node. -/
def gpoolWord (s : State) (lid : Nat) (node : Option Nat) : Nat :=
  let g := (s.launch lid).graph
  match node with
  | none => g.recs.length % 2 ^ 24 * 2 ^ 24 + (g.pooln - g.recs.length) % 2 ^ 24
  | some n =>
    let x := g.nodes.getD n Node.blank
    x.launched % 2 ^ 32 * 2 ^ 32 + nodeCrews s lid n % 2 ^ 16 * 2 ^ 16 + x.fill.length % 2 ^ 16

def gpoolBody (c : Ctx) (s : State) : Res :=
  let p := s.curPack
  let node := if encModBit c.e 0 then some (rdS p (encB c.e)).toNat else none
  .done (s.setCur (wrS p c.e.d.toNat (BitVec.ofNat 64 (gpoolWord s p.launch node)))) 0

def execGpool (e : Enc) (s : State) : Host.Outcome State Fault Refusal :=
  issue (.gpool e) e (graphOp (fun c p g => if encModBit c.e 0 then nodeCheck c p g else none) gpoolBody) s

/-! ### Batches (R411) -/

def modNodeAt (f : Node → Node) : List Node → Nat → List Node
  | [], _ => []
  | x :: l, 0 => f x :: l
  | x :: l, n + 1 => x :: modNodeAt f l n

def modNode (s : State) (lid n : Nat) (f : Node → Node) : State :=
  modGraph s lid fun g => { g with nodes := modNodeAt f g.nodes n }

def nodeOf (s : State) (lid n : Nat) : Node := (s.launch lid).graph.nodes.getD n Node.blank

/-- The open batch of a node launches: its records are delivered to a crew that is to be placed. -/
def launchBatch (s : State) (lid n : Nat) (part : Bool) : State :=
  let x := nodeOf s lid n
  let lin := batchLin (s.launch lid) n x.launched
  let s := x.fill.foldl (fun s h => setRec s lid h ⟨.delivered, 0, false, none⟩) s
  let s := modNode s lid n fun x => { x with fill := [], launched := x.launched + 1 }
  let s := modGraph s lid fun g => { g with ready := g.ready ++ [(lin, n, x.fill)] }
  if part then s.count ctrGrTout 0 1 else s

/-- The next recorded join or partial launch of a node. -/
def nextBatchEntry (s : State) (lid n : Nat) : Option (Nat × Nat) :=
  nextEntry s lid fun e => (entryKind e == 5 || entryKind e == 6) && entryF2 e == n

/-- A replay launches the batches that its record launched partly filled (16 R476). -/
def replayPart (s : State) (lid n : Nat) (timed : Bool) : State :=
  match nextBatchEntry s lid n with
  | some (i, e) =>
    if entryKind e = 6 ∧ (nodeOf s lid n).fill.head? = some (entryF1 e) then launchBatch (takeEntry s lid i) lid n timed else s
  | none => s

/-- What a join has to do with the dispatch track: `none` if it has to wait for its turn. -/
def joinTurn (s : State) (lid n h : Nat) : Except Stop (Option State) :=
  if ¬s.isTrack lid then .ok (some s)
  else if (s.launch lid).track.replay then
    let s := replayPart s lid n true
    match nextBatchEntry s lid n with
    | some (i, e) => .ok (if entryKind e = 5 ∧ entryF1 e = h then some (takeEntry s lid i) else none)
    | none => .ok none
  else (recordDispatch s lid 5 h n 0).map some

/-- A record joins the open batch of a node; a full one launches. -/
def joinBatch (s : State) (lid n h : Nat) : State :=
  let s := setRec s lid h ⟨.emitted, 0, false, none⟩
  let now := s.tick
  let s := modNode s lid n fun x => { x with fill := x.fill ++ [h], opened := if x.fill.isEmpty then now else x.opened }
  let x := nodeOf s lid n
  if x.batch ≤ x.fill.length then launchBatch s lid n false else s

def gemitBody (c : Ctx) (s : State) : Res :=
  let p := s.curPack
  let h := (rdS p (encA c.e)).toNat
  let n := (rdS p (encB c.e)).toNat
  match (expose (carryAll s s.cur) s.cur).bind fun s => joinTurn s p.launch n h with
  | .error e => resOf c s (.stop e)
  | .ok none => .stall s
  | .ok (some s) => .done (joinBatch s p.launch n h) 0

def execGemit (e : Enc) (s : State) : Host.Outcome State Fault Refusal :=
  issue (.gemit e) e (graphOp (fun c p g => orTrap (handleCheck c p g) (orTrap (nodeCheck c p g) (stateCheck false c p g))) gemitBody) s

/-- A partly filled batch launches, with its entry in Track mode; `timed` says that its time is up.  No instruction causes it, so a full
segment traps a crew of the launch (16 R482), and the batch launches without its entry. -/
def partLaunch (timed : Bool) (lid : Nat) (s : State) (n : Nat) : State :=
  match (nodeOf s lid n).fill with
  | [] => s
  | h :: _ =>
    let crew := ((s.crews.filter fun x => x.2.live && x.2.launch == lid).map (·.1)).head?
    if ¬s.isTrack lid then launchBatch s lid n timed
    else if (s.launch lid).track.replay then replayPart s lid n timed
    else match recordDispatch s lid 6 h n 0, crew with
      | .ok s, _ => launchBatch s lid n timed
      | .error (.trap cls sub val), some k => launchBatch (crewTrap s k ⟨cls, sub, val, 0⟩) lid n timed
      | .error _, some k => launchBatch (crewAbort s k 9 0 0 0) lid n timed
      | .error _, none => launchBatch s lid n timed

/-- TOUT µs have passed since the batch's first record joined. -/
def execBatchTimeout (launch node : Nat) (s : State) : Host.Outcome State Fault Refusal :=
  .next (if (s.launch launch).live && node ≠ 0 then partLaunch true launch s node else s)

/-- Whether they have, by the ticks of the schedule. -/
def batchDue (s : State) (x : Node) : Bool := !x.fill.isEmpty && x.opened + x.tout * 65536 ≤ s.tick

/-- Whether a crew waits in grec back-pressure. -/
def waitsRecord (s : State) (cid : Nat) : Bool :=
  let l := livePacks s cid
  !l.isEmpty && l.all fun p => (s.pack p).wait.kind == .record

/-- Whether every crew of a graph that is placed or pending waits in grec back-pressure, or no such crew exists; a crew that is swapped
out is neither until a wait of its packs has ended. -/
def graphQuiet (s : State) (lid : Nat) : Bool :=
  let l := s.launch lid
  l.live && l.gangs ≤ l.nextGang && l.graph.ready.isEmpty
    && s.crews.all fun x => !(x.2.live && x.2.launch == lid) || waitsRecord s x.1 || (x.2.phase == .swapped && !wantsReturn s x.1)

/-- The moment at which a graph is quiet: every partly filled batch launches, that of the node named among them. -/
def execBatchQuiescentLaunch (launch node : Nat) (s : State) : Host.Outcome State Fault Refusal :=
  .next (if graphQuiet s launch && node ≠ 0 then
    (List.range ((s.launch launch).graph.nodes.length - 1)).foldl (fun s i => partLaunch false launch s (i + 1)) s else s)

end Sys2Proof.Machine
end

