-- ==== Sys2Proof/Machine/GeoRead.lean ====
section
/-! DEFINITION. What the geometry engines read: their accesses, objects, groups and clusters, and cut selection
(14 R420 to R430). -/

namespace Sys2Proof.Machine

/-! ### Accesses of an engine (R434, R438) -/

/-- What ends a read of an engine. -/
inductive GStop where
  /-- outside its capability, at this address -/
  | oob (va : Nat)
  /-- bytes that break their layout -/
  | bad
  | fault (code asid va : Nat) (write : Bool)
  | uce (sub : Nat)
  deriving DecidableEq, Repr

/-- A read that an engine has made: the granule that passes an order gate, the stamped access, and the translation. -/
structure GRead where
  loc : Loc
  n : Nat
  gate : Option Nat
  acc : SAcc
  va : Nat
  xl : Option Xl
  deriving DecidableEq, Repr

abbrev GLog := List GRead

abbrev GM := ExceptT GStop (StateM GLog)

/-- Who reads: the crew, its ASID, the core whose micro-TLB translates (none for an engine), and the buffered stores that it
sees. -/
structure GEnv where
  s : State
  crew : Nat
  asid : Nat
  core : Option Nat
  isb : List IStore

/-- The translation of an access. -/
def geoXlate (e : GEnv) (k : Cap) (write : Bool) (va : Nat) : Except Nat Xl :=
  let kind : XKind := if write then .write else .read
  match e.core with
  | some c => xlate e.s c e.asid va kind k.space
  | none => walk e.s e.asid va kind k.space

/-- The place of an access, with its translation. -/
def geoPlace (e : GEnv) (k : Cap) (write : Bool) (va : Nat) : Except GStop (Loc × Option Xl) :=
  if isWindow k.space then .ok (windowLoc e.s e.crew k.space va, none)
  else match listPa k.space va with
  | some pa => .ok (.phys pa, none)
  | none => match geoXlate e k write va with
    | .ok x => .ok (.phys x.pa, some x)
    | .error code => .error (.fault code e.asid va write)

/-- The state in which the gathered partials of a place's granule have been recalled. -/
def recalled (s : State) (l : Loc) : State :=
  match l with
  | .phys a => recallGran s (a / 64)
  | _ => s

/-- One piece within a granule. -/
def geoPiece (e : GEnv) (k : Cap) (va n : Nat) : GM (List Byte) :=
  match geoPlace e k false va with
  | .error x => throw x
  | .ok (l, xl) => do
    let gate : Option Nat := if isGated k.space then some (l.off / 64) else none
    modify fun (log : GLog) => log ++ [⟨l, n, gate, ⟨granKey l, va, false, 0⟩, va, xl⟩]
    let own := fromIsb e.isb l n
    match (if own then none else e.s.uceRanges [(l, n)]) with
    | some k => throw (.uce k)
    | none => pure (crewBytes (recalled e.s l) e.isb l n)

def geoPieces (e : GEnv) (k : Cap) : List (Nat × Nat) → GM (List Byte)
  | [] => pure []
  | (a, n) :: l => do
    let x ← geoPiece e k a n
    let y ← geoPieces e k l
    pure (x ++ y)

/-- Reads bytes through a capability, within its bounds. -/
def geoRead (e : GEnv) (k : Cap) (va n : Nat) : GM (List Byte) :=
  if va < k.base || k.top < va + n then throw (.oob va) else geoPieces e k (granCuts va n)

def geoNeed (b : Bool) : GM Unit := if b then pure () else throw .bad

/-! ### Binary32 steps that round RNE and raise no flag (R425, R432) -/

def gAdd (a b : Nat) : Nat := (fAdd f32 .rne a b).1
def gSub (a b : Nat) : Nat := (fAdd f32 .rne a (b ^^^ 0x80000000)).1
def gMul (a b : Nat) : Nat := (fMul f32 .rne a b).1
def gDiv (a b : Nat) : Nat := (fDiv f32 .rne a b).1
/-- Whether a > b; a NaN makes it false. -/
def gAbove (a b : Nat) : Bool :=
  let x := f32.read a
  let y := f32.read b
  !x.isNan && !y.isNan && !(x.isZero && y.isZero) && fLess y x
def gFinite (a : Nat) : Bool := match f32.read a with
  | .num _ _ _ => true
  | _ => false
def gPositive (a : Nat) : Bool := gFinite a && gAbove a 0

/-! ### Objects, groups and clusters (R420 to R423) -/

structure GObj where
  pages : Nat
  npage : Nat
  ngrp : Nat
  groups : Nat
  resid : Nat
  top : Nat
  deriving DecidableEq, Repr

structure GGroup where
  cx : Nat
  cy : Nat
  cz : Nat
  rad : Nat
  own : Nat
  perr : Nat
  first : Nat
  pfirst : Nat
  nmem : Nat
  npar : Nat
  /-- the record keeps the limits of R423 -/
  ok : Bool
  deriving DecidableEq, Repr

structure GCluster where
  origin : List Nat
  pe : Int
  nv : Nat
  nt : Nat
  mgrp : Nat
  sgrp : Nat
  voff : Nat
  ioff : Nat
  mat : Nat
  /-- the header keeps the limits of R421 -/
  ok : Bool
  deriving DecidableEq, Repr

def geoPage : Nat := 0x20000

/-- A descriptor, if it keeps R420. -/
def parseObject (b : List Byte) : Option GObj :=
  let o : GObj := ⟨fieldAt b 0 8, fieldAt b 8 4, fieldAt b 0x0C 4, fieldAt b 0x10 8, fieldAt b 0x18 8, fieldAt b 0x20 4⟩
  if o.pages % geoPage = 0 ∧ 1 ≤ o.npage ∧ o.npage ≤ 2 ^ 24 ∧ 1 ≤ o.ngrp ∧ o.ngrp ≤ 2 ^ 24 ∧ o.groups % 64 = 0 ∧ o.top < o.ngrp
      ∧ zeroAt b 0x24 28 ∧ o.pages + o.npage * geoPage ≤ 2 ^ 46 ∧ o.groups + 64 * o.ngrp ≤ 2 ^ 46
      ∧ o.resid + (o.npage + 7) / 8 ≤ 2 ^ 46 then some o else none

def infWord : Nat := 0x7F800000

/-- A group record, with whether it keeps R423. -/
def parseGroup (o : GObj) (g : Nat) (b : List Byte) : GGroup :=
  let w (i : Nat) : Nat := fieldAt b (4 * i) 4
  let nm := fieldAt b 0x20 1
  let np := fieldAt b 0x21 1
  let top := g == o.top
  let rad := f32.read (w 3)
  let ok := zeroAt b 0x22 30 && !rad.isNan && (rad.isZero || !rad.neg) && (!top || w 5 == infWord)
    && (if top then 1 else 2) ≤ nm && nm ≤ 32 && (if top then np == 0 else 1 ≤ np && np ≤ 32)
  ⟨w 0, w 1, w 2, w 3, w 4, w 5, w 6, w 7, nm, np, ok⟩

/-- Address of the header of cluster `k`. -/
def clusterAt (pages k : Nat) : Nat := pages + k / 64 * geoPage + k % 64 * 64

/-- A cluster header, with whether it keeps R421. -/
def parseCluster (b : List Byte) : GCluster :=
  let nv := fieldAt b 0x0D 1
  let nt := fieldAt b 0x0E 1
  let voff := fieldAt b 0x18 4
  let astr := fieldAt b 0x24 2
  ⟨[fieldAt b 0 4, fieldAt b 4 4, fieldAt b 8 4], toS 8 (fieldAt b 0x0C 1), nv, nt, fieldAt b 0x10 4, fieldAt b 0x14 4, voff,
    fieldAt b 0x1C 4, fieldAt b 0x26 2,
    1 ≤ nv && nv ≤ 128 && 1 ≤ nt && nt ≤ 128 && zeroAt b 0x0F 1 && voff % 2 == 0 && astr ≤ 256 && astr % 4 == 0 && zeroAt b 0x28 24⟩

/-- A coordinate of a vertex: OX + q × 2^PE, rounded once (R421). -/
def vertexCoord (origin : Nat) (pe : Int) (q : Nat) : Nat :=
  match f32.read origin with
  | .num n m e => (roundDy f32 .rne false 0 false ((FVal.num n m e).dy.add ⟨toS 16 q, pe⟩)).1
  | .inf _ => origin
  | .nan _ _ _ => f32.qnan

/-- The strip of R422 from its bytes: the state is (par, x, y); each triangle comes with whether a new strip's y or z has bit 7
set. -/
def stripTris : Nat → Bool → Bool → Nat → Nat → List Nat → List (Nat × Nat × Nat × Bool)
  | 0, _, _, _, _, _ => []
  | _ + 1, _, _, _, _, [] => []
  | n + 1, start, par, x, y, b :: l =>
    if start || 128 ≤ b then
      match l with
      | c :: d :: l =>
        (b % 128, c % 128, d % 128, 128 ≤ c || 128 ≤ d) :: stripTris n false true (c % 128) (d % 128) l
      | _ => []
    else
      let z := b % 128
      (if par then (y, x, z, false) else (x, y, z, false)) :: stripTris n false (!par) y z l

/-- The number of stream bytes that `n` triangles take, found by reading them one by one. -/
def stripBytes (rd : Nat → GM Nat) : Nat → Bool → Nat → GM (List Nat)
  | 0, _, _ => pure []
  | n + 1, start, pos => do
    let b ← rd pos
    if start || 128 ≤ b then
      let c ← rd (pos + 1)
      let d ← rd (pos + 2)
      let l ← stripBytes rd n false (pos + 3)
      pure (b :: c :: d :: l)
    else
      let l ← stripBytes rd n false (pos + 1)
      pure (b :: l)

/-- The first `n` triangles of the index stream of a page; a position in it is a uint(32) (00 R14). -/
def readStrip (e : GEnv) (k : Cap) (page ioff n : Nat) : GM (List (Nat × Nat × Nat × Bool)) := do
  let l ← stripBytes (fun p => do pure (leNat (← geoRead e k (page + p % 2 ^ 32) 1))) n true ioff
  pure (stripTris n true false 0 0 l)

/-- Whether every triangle of a stream keeps R422. -/
def stripOk (nv : Nat) (l : List (Nat × Nat × Nat × Bool)) : Bool :=
  l.all fun t => !t.2.2.2 && t.1 < nv && t.2.1 < nv && t.2.2.1 < nv

/-- The vertices of a cluster in object space. -/
def readVertices (e : GEnv) (k : Cap) (page : Nat) (c : GCluster) : GM (List (List Nat)) := do
  let b ← geoRead e k (page + c.voff) (6 * c.nv)
  pure ((List.range c.nv).map fun i => (List.range 3).map fun j => vertexCoord (c.origin.getD j 0) c.pe (fieldAt b (6 * i + 2 * j) 2))

/-! ### Cut selection (R425, R426) -/

/-- Member and source groups of a cluster, by the ranges of the records: the lowest group that holds it. -/
def memberGroup (gs : List GGroup) (c : Nat) : Option Nat := gs.findIdx? fun g => g.first ≤ c && c < g.first + g.nmem
def sourceGroup (gs : List GGroup) (c : Nat) : Option Nat := gs.findIdx? fun g => g.pfirst ≤ c && c < g.pfirst + g.npar

/-- Clusters whose member group is G, and clusters whose source group is G. -/
def membersOf (gs : List GGroup) (n : Nat) (g : GGroup) : List Nat :=
  ((List.range g.nmem).map (g.first + ·)).filter fun c => memberGroup gs c == some n
def madeFrom (gs : List GGroup) (n : Nat) (g : GGroup) : List Nat :=
  ((List.range g.npar).map (g.pfirst + ·)).filter fun c => sourceGroup gs c == some n

/-- test(G) of R425. -/
def groupTest (eye : List Nat) (kproj tau dnear : Nat) (g : GGroup) : Bool :=
  let dx := gSub g.cx (eye.getD 0 0)
  let dy := gSub g.cy (eye.getD 1 0)
  let dz := gSub g.cz (eye.getD 2 0)
  let sq := gAdd (gAdd (gMul dx dx) (gMul dy dy)) (gMul dz dz)
  let d := (fSqrt f32 .rne sq).1
  let den := (fMinMax f32 true false (gSub d g.rad) dnear).1
  gAbove (gDiv (gMul g.perr kproj) den) tau

def inSet (r : List Nat) (x : Option Nat) : Bool := match x with
  | some g => r.contains g
  | none => false

/-- One round of the loop of R426: what is left, the pages noted, and the groups removed for residency. -/
def refineRound (gs : List GGroup) (res : Nat → Bool) (r : List Nat) : List Nat × List Nat × Nat :=
  let grp (n : Nat) : GGroup := gs.getD n ⟨0, 0, 0, 0, 0, 0, 0, 0, 0, 0, false⟩
  let closed := r.foldl (fun (r : List Nat) n =>
    if (madeFrom gs n (grp n)).any fun c => !inSet r (memberGroup gs c) then r.filter (· != n) else r) r
  closed.foldl (fun (x : List Nat × List Nat × Nat) n =>
    let miss := (membersOf gs n (grp n)).filter fun c => !inSet x.1 (sourceGroup gs c) && !res (c / 64)
    if miss.isEmpty then x else (x.1.filter (· != n), x.2.1 ++ miss.map (· / 64), x.2.2 + 1)) (closed, [], 0)

/-- The refining set, with the pages noted and the groups removed for residency. -/
def refine (gs : List GGroup) (res : Nat → Bool) : Nat → List Nat → List Nat × List Nat × Nat
  | 0, r => (r, [], 0)
  | n + 1, r =>
    let x := refineRound gs res r
    if x.1.length = r.length then (r, x.2.1, x.2.2)
    else
      let y := refine gs res n x.1
      (y.1, x.2.1 ++ y.2.1, x.2.2 + y.2.2)

/-- A cluster that a cut selects: its entry of R428, and its id. -/
structure CutEntry where
  word : Nat
  cluster : Nat
  inst : Nat
  deriving DecidableEq, Repr

/-- What an instance contributes. -/
structure CutInst where
  sel : List CutEntry
  noted : List Nat
  miss : Bool
  fb : Nat
  tree : List (List Byte)
  deriving DecidableEq, Repr

/-- Reads the residency bytes of some pages. -/
def readResid (e : GEnv) (k : Cap) (resid : Nat) : List Nat → GM (List (Nat × Nat))
  | [] => pure []
  | p :: l => do
    let b ← geoRead e k (resid + p) 1
    let r ← readResid e k resid l
    pure ((p, leNat b) :: r)

/-- The record of a group. -/
def readGroup (e : GEnv) (k : Cap) (o : GObj) (g : Nat) : GM GGroup := do
  let b ← geoRead e k (o.groups + 64 * g) 64
  pure (parseGroup o g b)

def readGroups (e : GEnv) (k : Cap) (o : GObj) : List Nat → GM (List GGroup)
  | [] => pure []
  | g :: l => do
    let x ← readGroup e k o g
    let r ← readGroups e k o l
    pure (x :: r)

/-- The entries that a cut selects, in ascending cluster id. -/
def selectCut (o : GObj) (gs : List GGroup) (test : Nat → Bool) (r : List Nat) (inst : Nat) : List CutEntry :=
  let cs := sortNat (nubNat ((r.flatMap fun n => match gs[n]? with
    | some g => membersOf gs n g
    | none => [])))
  cs.filterMap fun c =>
    match sourceGroup gs c with
    | none => some ⟨clusterAt o.pages c / 64 % 2 ^ 40 + inst % 128 * 2 ^ 40 + 2 ^ 48, c, inst⟩
    | some g =>
      if r.contains g then none
      else some ⟨clusterAt o.pages c / 64 % 2 ^ 40 + inst % 128 * 2 ^ 40 + (if test g then 2 ^ 47 else 0), c, inst⟩

/-! ### The tree of .ray (R429) -/

/-- The exact affine image of a vertex, rounded once. -/
def worldCoord (m v : List Nat) (k : Nat) : Nat :=
  let num (x : Nat) : Option Dy := match f32.read x with
    | .num n a e => some (FVal.num n a e).dy
    | _ => none
  let term (j : Nat) : Option Dy := match num (m.getD (4 * k + j) 0), num (v.getD j 0) with
    | some a, some b => some (a.mul b)
    | _, _ => none
  match term 0, term 1, term 2, num (m.getD (4 * k + 3) 0) with
  | some a, some b, some c, some d => (roundDy f32 .rne false 0 false (((a.add b).add c).add d)).1
  | _, _, _, _ => f32.qnan

def treeBytes : Nat := 4096

/-- The tree bytes of a cluster: its counts and instance, its triangles from 16, its world positions from 512. -/
def treeOf (inst : Nat) (tris : List (Nat × Nat × Nat × Bool)) (pos : List (List Nat)) : List Byte :=
  let head := leBytes pos.length 4 ++ leBytes tris.length 4 ++ leBytes inst 4 ++ leBytes 0 4
  let ts := tris.flatMap fun t => leBytes t.1 1 ++ leBytes t.2.1 1 ++ leBytes t.2.2.1 1
  let ps := pos.flatMap fun p => p.flatMap fun x => leBytes x 4
  let a := head ++ ts
  let b := a ++ List.replicate (512 - a.length) 0 ++ ps
  b ++ List.replicate (treeBytes - b.length) 0

/-- The tree of one cluster; one that breaks R421 or R422 has no triangles. -/
def readTree (e : GEnv) (k : Cap) (o : GObj) (m : List Nat) (x : CutEntry) : GM (List Byte) := do
  let h ← geoRead e k (clusterAt o.pages x.cluster) 64
  let c := parseCluster h
  let page := o.pages + x.cluster / 64 * geoPage
  if c.ok then
    let tris ← readStrip e k page c.ioff c.nt
    let vs ← readVertices e k page c
    pure (if stripOk c.nv tris then treeOf x.inst tris (vs.map fun v => (List.range 3).map (worldCoord m v)) else treeOf x.inst [] [])
  else pure (treeOf x.inst [] [])

def readTrees (e : GEnv) (k : Cap) (o : GObj) (m : List Nat) : List CutEntry → GM (List (List Byte))
  | [] => pure []
  | x :: l => do
    let a ← readTree e k o m x
    let r ← readTrees e k o m l
    pure (a :: r)

/-- One instance of a cut selection (R425 to R427). -/
def cutInstance (e : GEnv) (k : Cap) (va inst tau dnear : Nat) (ray : Bool) : GM CutInst := do
  let b ← geoRead e k va 256
  let kproj := fieldAt b 0x14 4
  geoNeed (zeroAt b 0x18 8 && zeroAt b 0x90 112 && gPositive kproj)
  let d ← geoRead e k (fieldAt b 0 8) 64
  match parseObject d with
  | none => throw .bad
  | some o =>
    let gs ← readGroups e k o (List.range o.ngrp)
    geoNeed (gs.all (·.ok))
    let eye := [fieldAt b 8 4, fieldAt b 12 4, fieldAt b 16 4]
    let test (n : Nat) : Bool := match gs[n]? with
      | some g => groupTest eye kproj tau dnear g
      | none => false
    let r0 := (List.range o.ngrp).filter test
    let pages := sortNat (nubNat (r0.flatMap fun n => match gs[n]? with
      | some g => (membersOf gs n g).map fun c => c / 64 / 8
      | none => []))
    let bm ← readResid e k o.resid pages
    let res (p : Nat) : Bool := match bm.find? fun x => x.1 == p / 8 with
      | some x => bitAt x.2 (p % 8)
      | none => false
    let (r, noted, fb) := refine gs res (o.ngrp + 1) r0
    let sel := if r.contains o.top then selectCut o gs test r inst else []
    let tree ← if ray then readTrees e k o ((List.range 12).map fun i => fieldAt b (0x60 + 4 * i) 4) sel else pure []
    pure ⟨sel, noted, !r.contains o.top, fb, tree⟩

/-- What a cut selection has gathered over its instances. -/
structure CutOut where
  sel : List CutEntry
  tree : List (List Byte)
  /-- pages with the lowest instance that noted each -/
  noted : List (Nat × Nat)
  oob : Bool
  bad : Bool
  miss : Bool
  fb : Nat
  deriving DecidableEq, Repr

/-- Runs a part of an operation that may be skipped: its reads outside the capability or of malformed bytes are answered, other
stops go on. -/
def geoTry {α : Type} (m : GM α) : GM (Except GStop α) :=
  tryCatch (do
    let x ← m
    pure (.ok x)) fun x => match x with
    | .oob a => pure (.error (.oob a))
    | .bad => pure (.error .bad)
    | x => throw x

/-- Runs a part whatever stops it. -/
def geoAny {α : Type} (m : GM α) : GM (Except GStop α) :=
  tryCatch (do
    let x ← m
    pure (.ok x)) fun x => pure (.error x)

/-- The instances of a cut selection; one that fails is skipped. -/
def cutAll (e : GEnv) (k : Cap) (base tau dnear : Nat) (ray : Bool) : List Nat → CutOut → GM CutOut
  | [], o => pure o
  | i :: l, o => do
    match ← geoTry (cutInstance e k (base + 256 * i) i tau dnear ray) with
    | .ok x =>
      let new := (nubNat x.noted).filter fun p => !(o.noted.any fun y => y.1 == p)
      cutAll e k base tau dnear ray l
        { o with
          sel := o.sel ++ x.sel
          tree := o.tree ++ x.tree
          noted := o.noted ++ (new.map fun p => (p, i))
          miss := o.miss || x.miss
          fb := o.fb + x.fb }
    | .error (.oob _) => cutAll e k base tau dnear ray l { o with oob := true }
    | .error _ => cutAll e k base tau dnear ray l { o with bad := true }

/-! ### cutsel.val (R424) -/

/-- The magnitudes and centre of a group as exact numbers; none where one is not finite. -/
def dyOf (x : Nat) : Option Dy := match f32.read x with
  | .num n a e => some (FVal.num n a e).dy
  | _ => none

/-- A number of a sphere that is NaN, and one that is infinite. -/
def GGroup.sphere (g : GGroup) : List Nat := [g.cx, g.cy, g.cz, g.rad]
def GGroup.hasNan (g : GGroup) : Bool := g.sphere.any fun x => (f32.read x).isNan

/-- Whether check 5 passes for the sphere of `m` around that of `s`: RAD_M < |C_M − C_S| + RAD_S does not hold, exactly.  A
comparison with a NaN does not hold; with an infinity it does. -/
def encloses (m s : GGroup) : Bool :=
  match dyOf m.cx, dyOf m.cy, dyOf m.cz, dyOf m.rad, dyOf s.cx, dyOf s.cy, dyOf s.cz, dyOf s.rad with
  | some a, some b, some c, some r, some x, some y, some z, some q =>
    let dx := a.sub x
    let dy := b.sub y
    let dz := c.sub z
    let d2 := ((dx.mul dx).add (dy.mul dy)).add (dz.mul dz)
    let g := r.sub q
    decide (0 ≤ g.m) && d2.le (g.mul g)
  | _, _, _, _, _, _, _, _ => m.hasNan || s.hasNan

/-- The header of a cluster. -/
def readCluster (e : GEnv) (k : Cap) (o : GObj) (c : Nat) : GM GCluster := do
  let b ← geoRead e k (clusterAt o.pages c) 64
  pure (parseCluster b)

def leafMark : Nat := 0xFFFFFFFF

/-- The ranges of a record: the members, and the clusters that its simplification made. -/
def GGroup.members (g : GGroup) : List Nat := (List.range g.nmem).map (g.first + ·)
def GGroup.makes (g : GGroup) : List Nat := (List.range g.npar).map (g.pfirst + ·)

/-- Whether a header's group number names a group whose record has a property. -/
def namesGroup (e : GEnv) (k : Cap) (o : GObj) (n : Nat) (f : GGroup → Bool) : GM Bool :=
  if o.ngrp ≤ n then pure false
  else do
    let g ← readGroup e k o n
    pure (f g)

/-- Check 3 of some members of group `n`: MGRP names it, and SGRP is the leaf mark or a group that made the cluster (R425). -/
def membersAgree (e : GEnv) (k : Cap) (o : GObj) (n : Nat) : List Nat → GM Bool
  | [] => pure true
  | c :: l => do
    let h ← readCluster e k o c
    if h.mgrp != n then pure false
    else do
      let ok ← if h.sgrp == leafMark then pure true else namesGroup e k o h.sgrp fun g => g.makes.contains c
      if ok then membersAgree e k o n l else pure false

/-- Check 3 of some clusters that group `n` made: SGRP names it, and MGRP a group of which the cluster is a member. -/
def madeAgree (e : GEnv) (k : Cap) (o : GObj) (n : Nat) : List Nat → GM Bool
  | [] => pure true
  | c :: l => do
    let h ← readCluster e k o c
    if h.sgrp != n then pure false
    else do
      let ok ← namesGroup e k o h.mgrp fun g => g.members.contains c
      if ok then madeAgree e k o n l else pure false

/-- The headers' group numbers below NGRP, of some clusters. -/
def groupsOf (e : GEnv) (k : Cap) (o : GObj) (f : GCluster → Nat) : List Nat → GM (List Nat)
  | [] => pure []
  | c :: l => do
    let h ← readCluster e k o c
    let r ← groupsOf e k o f l
    pure (if f h < o.ngrp then f h :: r else r)

/-- The member groups of the clusters that some groups made: one step along the edges of code 6. -/
def aboveAll (e : GEnv) (k : Cap) (o : GObj) : List Nat → GM (List Nat)
  | [] => pure []
  | n :: l => do
    let g ← readGroup e k o n
    let a ← groupsOf e k o (·.mgrp) g.makes
    let r ← aboveAll e k o l
    pure (a ++ r)

/-- The groups reached from some groups, these included. -/
def reachUp (e : GEnv) (k : Cap) (o : GObj) : Nat → List Nat → List Nat → GM (List Nat)
  | 0, _, seen => pure seen
  | n + 1, front, seen => do
    let up ← aboveAll e k o front
    let new := (nubNat up).filter fun g => !seen.contains g
    if new.isEmpty then pure seen else reachUp e k o n new (seen ++ new)

/-- The first of checks 2 to 6 that group `n` fails. -/
def checkGroup (e : GEnv) (k : Cap) (o : GObj) (n : Nat) : GM (Option Nat) := do
  let g ← readGroup e k o n
  if !g.ok then pure (some 2)
  else do
    let mem ← membersAgree e k o n g.members
    let made ← if mem then madeAgree e k o n g.makes else pure true
    if !mem || !made then pure (some 3)
    else do
      let src ← groupsOf e k o (·.sgrp) g.members
      let srcs ← readGroups e k o (nubNat src)
      if gAbove g.own g.perr || (srcs.any fun x => gAbove x.perr g.own) || !(g.own :: g.sphere).all gFinite
          || (n != o.top && !gFinite g.perr) then pure (some 4)
      else if !(srcs.all fun x => encloses g x) then pure (some 5)
      else do
        let first ← aboveAll e k o [n]
        let up ← reachUp e k o o.ngrp (nubNat first) (nubNat first)
        pure (if up.contains n || !(n == o.top || up.contains o.top) then some 6 else none)

/-- The first group that fails a check, as its result. -/
def checkGroups (e : GEnv) (k : Cap) (o : GObj) : List Nat → GM (Option Nat)
  | [] => pure none
  | n :: l => do
    match ← checkGroup e k o n with
    | some code => pure (some (code + 256 * n))
    | none => checkGroups e k o l

/-- The first cluster that fails check 7 or 8, as its result. -/
def checkClusters (e : GEnv) (k : Cap) (o : GObj) : List Nat → GM (Option Nat)
  | [] => pure none
  | c :: l => do
    let h ← readCluster e k o c
    if !h.ok then pure (some (7 + 256 * c))
    else do
      let tris ← readStrip e k (o.pages + c / 64 * geoPage) h.ioff h.nt
      if stripOk h.nv tris then checkClusters e k o l else pure (some (8 + 256 * c))

/-- The result of cutsel.val on the object whose descriptor lies at `va`: each check reads what it needs in its turn. -/
def validate (e : GEnv) (k : Cap) (va : Nat) : GM Nat := do
  let d ← geoRead e k va 64
  match parseObject d with
  | none => pure 1
  | some o =>
    match ← checkGroups e k o (List.range o.ngrp) with
    | some r => pure r
    | none => do
      let gs ← readGroups e k o (List.range o.ngrp)
      let r ← checkClusters e k o (sortNat (nubNat (gs.flatMap fun g => g.members ++ g.makes)))
      pure (r.getD 0)

end Sys2Proof.Machine
end

