-- ==== Sys2Proof/Machine/Raster.lean ====
section
/-! DEFINITION. The arithmetic of the raster unit and of the ray unit (14 R431 to R436). -/

namespace Sys2Proof.Machine

/-! ### Triangles on the screen (R432) -/

/-- A vertex on the screen: X and Y in 1/256 pixel, and zn. -/
structure ScreenV where
  x : Int
  y : Int
  z : Nat
  deriving DecidableEq, Repr

/-- (c + 1) × n × 128, or (1 − c) × n × 128, rounded once to an integer. -/
def snap (neg : Bool) (c n : Nat) : Int :=
  let v := (f32.read c).dy
  (roundInt .rne 0 (((Dy.ofInt 1).add (if neg then v.negate else v)).mul (Dy.ofInt (n * 128 : Nat)))).1

def snapOk (x : Int) : Bool := decide (-(2 ^ 23 : Nat) ≤ x) && decide (x < (2 ^ 23 : Nat))

/-- Steps 2 and 3 of R432 for one clip position; none where its triangle is dropped. -/
def screenV (w h : Nat) (v : List Nat) : Option ScreenV :=
  let c (i : Nat) : Nat := v.getD i 0
  if !((List.range 4).all fun i => gFinite (c i)) || !gPositive (c 3) then none
  else
    let xn := gDiv (c 0) (c 3)
    let yn := gDiv (c 1) (c 3)
    let zn := gDiv (c 2) (c 3)
    if !(gFinite xn && gFinite yn && gFinite zn) then none
    else
      let x := snap false xn w
      let y := snap true yn h
      if snapOk x && snapOk y then some ⟨x, y, zn⟩ else none

/-- E_ab(P) of R432. -/
def edgeAt (a b : ScreenV) (px py : Int) : Int := (b.x - a.x) * (py - a.y) - (b.y - a.y) * (px - a.x)

/-- Whether an edge value covers a point. -/
def edgeCovers (a b : ScreenV) (v : Int) : Bool :=
  decide (0 < v) || (v == 0 && (decide (b.y < a.y) || (b.y == a.y && decide (a.x < b.x))))

/-- The depth of a pixel centre, if its fragment is kept. -/
def depthOf (a b c : ScreenV) (area e12 e20 e01 : Int) : Option Nat :=
  let z (v : ScreenV) : Dy := (f32.read v.z).dy
  let sum := (((Dy.ofInt e12).mul (z a)).add ((Dy.ofInt e20).mul (z b))).add ((Dy.ofInt e01).mul (z c))
  let r := (roundTo f32 .rne false 0 (decide (sum.m < 0)) sum.m.natAbs area.toNat sum.e).1
  if gPositive r && !gAbove r 0x3F800000 then some r else none

/-- Pixel columns or rows whose centres lie between two screen coordinates. -/
def pixelRange (lo hi : Int) (n : Nat) : List Nat :=
  let a := ((lo - 128 + 255) / 256).toNat
  let b := min ((hi - 128) / 256 + 1).toNat n
  (List.range (b - a)).map (a + ·)

def minI (a b c : Int) : Int := min a (min b c)
def maxI (a b c : Int) : Int := max a (max b c)

/-- A fragment: its pixel and its visibility word (R433). -/
structure Frag where
  x : Nat
  y : Nat
  word : Nat
  deriving DecidableEq, Repr

/-- The fragments of a triangle whose area is positive; `tag` is the low half of the visibility word. -/
def fragments (w h tag : Nat) (a b c : ScreenV) : List Frag :=
  let area := edgeAt a b c.x c.y
  (pixelRange (minI a.y b.y c.y) (maxI a.y b.y c.y) h).flatMap fun (y : Nat) =>
    (pixelRange (minI a.x b.x c.x) (maxI a.x b.x c.x) w).filterMap fun (x : Nat) =>
      let px : Int := 256 * x + 128
      let py : Int := 256 * y + 128
      let e12 := edgeAt b c px py
      let e20 := edgeAt c a px py
      let e01 := edgeAt a b px py
      if edgeCovers b c e12 && edgeCovers c a e20 && edgeCovers a b e01 then
        (depthOf a b c area e12 e20 e01).map fun d => ⟨x, y, d * 2 ^ 32 + tag⟩
      else none

/-- A triangle by its clip positions: its fragments, or none where it is dropped. -/
def rasterTri (w h : Nat) (both : Bool) (tag : Nat) (v0 v1 v2 : List Nat) : Option (List Frag) :=
  match screenV w h v0, screenV w h v1, screenV w h v2 with
  | some a, some b, some c =>
    let area := edgeAt a b c.x c.y
    if 0 < area then some (fragments w h tag a b c)
    else if area < 0 ∧ both then some (fragments w h tag a c b)
    else none
  | _, _, _ => none

/-! ### Clusters and records of rsub (R431) -/

/-- Triangles with their clip positions, and the instance. -/
structure GeoMesh where
  inst : Nat
  tris : List (Nat × Nat × Nat)
  pos : List (List Nat)
  deriving DecidableEq, Repr

/-- A transformed record. -/
def readRecord (e : GEnv) (k : Cap) (va : Nat) : GM GeoMesh := do
  let b ← geoRead e k va 2560
  let h := fieldAt b 0 16
  let nv := h % 256
  let nt := h / 256 % 256
  let tris := (List.range nt).map fun t => (fieldAt b (0x810 + 3 * t) 1, fieldAt b (0x811 + 3 * t) 1, fieldAt b (0x812 + 3 * t) 1)
  geoNeed (1 ≤ nv && nv ≤ 128 && 1 ≤ nt && nt ≤ 128 && h / 2 ^ 23 == 0 && tris.all fun t => t.1 < nv && t.2.1 < nv && t.2.2 < nv)
  pure ⟨h / 65536 % 128, tris, (List.range nv).map fun i => (List.range 4).map fun j => fieldAt b (16 + 16 * i + 4 * j) 4⟩

/-- The cluster that a list entry names, in clip space. -/
def readEntry (e : GEnv) (lst geo : Cap) (table idx : Nat) : GM GeoMesh := do
  let x := leNat (← geoRead e lst (lst.cursor + 8 * idx) 8)
  let at_ := x % 2 ^ 40 * 64
  let inst := x / 2 ^ 40 % 128
  let c := parseCluster (← geoRead e geo at_ 64)
  geoNeed c.ok
  let page := at_ / geoPage * geoPage
  let tris ← readStrip e geo page c.ioff c.nt
  geoNeed (stripOk c.nv tris)
  let vs ← readVertices e geo page c
  let b ← geoRead e geo (geo.cursor + table + 256 * inst + 0x20) 64
  let m := (List.range 16).map fun i => fieldAt b (4 * i) 4
  pure ⟨inst, tris.map fun t => (t.1, t.2.1, t.2.2.1), vs.map fun v => (List.range 4).map (worldCoord m v)⟩

/-- What a submission has gathered: fragments in order, triangles kept and dropped, entries skipped. -/
structure RasterOut where
  frags : List Frag
  kept : Nat
  dropped : Nat
  bad : Nat
  deriving DecidableEq, Repr

/-- The triangles of one entry or record. -/
def rasterMesh (w h : Nat) (both : Bool) (idx : Nat) (g : GeoMesh) (o : RasterOut) : RasterOut :=
  ((List.range g.tris.length).zip g.tris).foldl (fun (o : RasterOut) x =>
    let p (i : Nat) : List Nat := g.pos.getD i []
    match rasterTri w h both (idx % 2 ^ 18 * 2 ^ 14 + x.1 * 128 + g.inst) (p x.2.1) (p x.2.2.1) (p x.2.2.2) with
    | some l => { o with frags := o.frags ++ l, kept := o.kept + 1 }
    | none => { o with dropped := o.dropped + 1 }) o

/-- The entries or records of a submission. -/
def rasterAll (e : GEnv) (src geo : Cap) (w h table : Nat) (pre both : Bool) : List Nat → RasterOut → GM RasterOut
  | [], o => pure o
  | i :: l, o => do
    match ← geoTry (if pre then readRecord e src (src.cursor + 2560 * i) else readEntry e src geo table i) with
    | .ok g => rasterAll e src geo w h table pre both l (rasterMesh w h both i g o)
    | .error _ => rasterAll e src geo w h table pre both l { o with bad := o.bad + 1 }

/-! ### Rays (R435, R436): exact arithmetic on integers, binary32 values scaled by 2^149 -/

structure Vec3 where
  x : Int
  y : Int
  z : Int
  deriving DecidableEq, Repr

def Vec3.sub (a b : Vec3) : Vec3 := ⟨a.x - b.x, a.y - b.y, a.z - b.z⟩
def Vec3.dot (a b : Vec3) : Int := a.x * b.x + a.y * b.y + a.z * b.z
def Vec3.cross (a b : Vec3) : Vec3 := ⟨a.y * b.z - a.z * b.y, a.z * b.x - a.x * b.z, a.x * b.y - a.y * b.x⟩
def Vec3.isZero (a : Vec3) : Bool := a.x == 0 && a.y == 0 && a.z == 0

/-- A finite binary32 value times 2^149. -/
def scaled (x : Nat) : Option Int := match f32.read x with
  | .num n m e => some (let v : Int := (m * 2 ^ (e + 149).toNat : Nat); if n then -v else v)
  | _ => none

def scaled3 (l : List Nat) : Option Vec3 :=
  match scaled (l.getD 0 0), scaled (l.getD 1 0), scaled (l.getD 2 0) with
  | some a, some b, some c => some ⟨a, b, c⟩
  | _, _, _ => none

/-- An exact parameter: num / den, with den above 0. -/
structure Quo where
  num : Int
  den : Nat
  deriving DecidableEq, Repr

def Quo.of (n d : Int) : Quo := if d < 0 then ⟨-n, d.natAbs⟩ else ⟨n, d.natAbs⟩
def Quo.le (a b : Quo) : Bool := decide (a.num * b.den ≤ b.num * a.den)
def Quo.lt (a b : Quo) : Bool := decide (a.num * b.den < b.num * a.den)
def Quo.word (a : Quo) : Nat := (roundTo f32 .rne false 0 (decide (a.num < 0)) a.num.natAbs a.den 0).1

/-- A ray with its range; an absent limit is infinite. -/
structure Ray where
  o : Vec3
  d : Vec3
  lo : Option Quo
  hi : Option Quo
  deriving DecidableEq, Repr

def limitOf (x : Nat) : Option Quo := (scaled x).map fun v => ⟨v, 2 ^ 149⟩

/-- The ray of eight words; none where it has no candidates (R435). -/
def rayOf (l : List Nat) : Option Ray :=
  let lo := l.getD 6 0
  let hi := l.getD 7 0
  match scaled3 l, scaled3 (l.drop 3) with
  | some o, some d =>
    if d.isZero || (f32.read lo).isNan || (f32.read hi).isNan || gAbove lo hi || lo == infWord || hi == infWord + 0x80000000 then none
    else some ⟨o, d, limitOf lo, limitOf hi⟩
  | _, _ => none

def Ray.above (r : Ray) (t : Quo) : Bool := match r.lo with
  | some l => l.le t
  | none => true
def Ray.below (r : Ray) (t : Quo) : Bool := match r.hi with
  | some h => t.le h
  | none => true

/-- A hit: the parameter, and the weights of the second and third vertices where the triangle fixes them. -/
abbrev Hit := Quo × Option (Quo × Quo)

/-- The least parameter of a list. -/
def leastQuo : List Quo → Option Quo
  | [] => none
  | a :: l => match leastQuo l with
    | none => some a
    | some b => some (if b.lt a then b else a)

/-- The largest of some lower bounds. -/
def largestQuo : List Quo → Option Quo
  | [] => none
  | a :: l => match largestQuo l with
    | none => some a
    | some b => some (if a.lt b then b else a)

/-- The ray against a triangle in whose plane it does not lie. -/
def hitPlane (r : Ray) (v0 e1 e2 : Vec3) : Option Hit :=
  let pv := r.d.cross e2
  let det := e1.dot pv
  let s := r.o.sub v0
  let q := s.cross e1
  let sg : Int := if det < 0 then -1 else 1
  let u := sg * s.dot pv
  let v := sg * r.d.dot q
  let t := Quo.of (e2.dot q) det
  if 0 ≤ u ∧ 0 ≤ v ∧ u + v ≤ det.natAbs ∧ r.above t ∧ r.below t then some (t, some (Quo.of u det.natAbs, Quo.of v det.natAbs))
  else none

/-- The least parameter at which a ray in the plane of a triangle meets it: each weight is p + q t over `n`. -/
def hitInPlane (r : Ray) (v0 e1 e2 nrm : Vec3) : Option Hit :=
  let n := nrm.dot nrm
  let s := r.o.sub v0
  let p1 := (s.cross e2).dot nrm
  let q1 := (r.d.cross e2).dot nrm
  let p2 := (e1.cross s).dot nrm
  let q2 := (e1.cross r.d).dot nrm
  let ws : List (Int × Int) := [(n - p1 - p2, -q1 - q2), (p1, q1), (p2, q2)]
  if s.dot nrm ≠ 0 ∨ ws.any (fun w => w.2 == 0 && decide (w.1 < 0)) then none
  else
    let lows := (ws.filter fun w => 0 < w.2).map fun w => Quo.of (-w.1) w.2
    let highs := (ws.filter fun w => w.2 < 0).map fun w => Quo.of (-w.1) w.2
    match largestQuo (lows ++ r.lo.toList) with
    | none => none
    | some t =>
      if highs.all (fun h => t.le h) && r.below t then
        some (t, some (Quo.of (p1 * t.den + q1 * t.num) (n * t.den), Quo.of (p2 * t.den + q2 * t.num) (n * t.den)))
      else none

/-- The least parameter at which a ray meets the segment from `a` along `e`. -/
def hitSegment (r : Ray) (a e : Vec3) : Option Quo :=
  let c := r.d.cross e
  let s := a.sub r.o
  let dd := r.d.dot r.d
  let cc := c.dot c
  if c.isZero then
    if !(s.cross r.d).isZero then none
    else
      let ta := Quo.of (s.dot r.d) dd
      let tb := Quo.of ((s.dot r.d) + e.dot r.d) dd
      let first := if tb.lt ta then tb else ta
      let last := if tb.lt ta then ta else tb
      let t := match r.lo with
        | some l => if first.lt l then l else first
        | none => first
      if t.le last && r.below t then some t else none
  else if s.dot c ≠ 0 then none
  else
    let t := Quo.of ((s.cross e).dot c) cc
    let k := (s.cross r.d).dot c
    if 0 ≤ k ∧ k ≤ cc ∧ r.above t ∧ r.below t then some t else none

/-- The ray against a closed triangle. -/
def hitTri (r : Ray) (v0 v1 v2 : Vec3) : Option Hit :=
  let e1 := v1.sub v0
  let e2 := v2.sub v0
  let nrm := e1.cross e2
  if nrm.isZero then
    (leastQuo ([hitSegment r v0 e1, hitSegment r v1 (v2.sub v1), hitSegment r v0 e2].filterMap id)).map fun t => (t, none)
  else if r.d.dot nrm = 0 then hitInPlane r v0 e1 e2 nrm
  else hitPlane r v0 e1 e2

/-- The words of a delivery (R436): t, the two weights, the id. -/
def hitWords (ray tri : List Nat) (h : Hit) (id : Nat) : List W32 :=
  let w (f : Quo × Quo → Quo) (i : Nat) : W32 := match h.2 with
    | some x => BitVec.ofNat 32 (f x).word
    | none => Config.rayWeight (ray ++ tri) i
  [BitVec.ofNat 32 h.1.word, w (·.1) 0, w (·.2) 1, BitVec.ofNat 32 id]

/-- The order of R436: t, then list index, then triangle. -/
def RayHit.before (a b : RayHit) : Bool :=
  let x : Quo := ⟨a.num, a.den⟩
  let y : Quo := ⟨b.num, b.den⟩
  x.lt y || (x.le y && (a.idx < b.idx || (a.idx == b.idx && a.tri < b.tri)))

def leastHit : List RayHit → Option RayHit
  | [] => none
  | a :: l => match leastHit l with
    | none => some a
    | some b => some (if b.before a then b else a)

/-- The candidates among the triangles of one tree entry. -/
def treeHits (ray : List Nat) (r : Ray) (idx : Nat) (b : List Byte) : List RayHit :=
  let nt := min (fieldAt b 4 4) 128
  let inst := fieldAt b 8 4 % 128
  (List.range nt).filterMap fun t =>
    let v (i : Nat) : List Nat := (List.range 3).map fun j => fieldAt b (512 + 12 * fieldAt b (16 + 3 * t + i) 1 + 4 * j) 4
    match scaled3 (v 0), scaled3 (v 1), scaled3 (v 2) with
    | some a, some c, some d =>
      (hitTri r a c d).map fun h =>
        ⟨h.1.num, h.1.den, idx, t, hitWords ray (v 0 ++ v 1 ++ v 2) h (idx % 2 ^ 18 * 2 ^ 14 + t * 128 + inst)⟩
    | _, _, _ => none

/-- The candidates over the entries of a region; an entry that cannot be read has none. -/
def regionHits (e : GEnv) (k : Cap) (lcap : Nat) (ray : List Nat) (r : Ray) : List Nat → GM (List RayHit)
  | [] => pure []
  | i :: l => do
    let x ← geoTry (geoRead e k (k.cursor + 64 + 8 * lcap + treeBytes * i) treeBytes)
    let rest ← regionHits e k lcap ray r l
    match x with
    | .ok b => pure (treeHits ray r i b ++ rest)
    | .error _ => pure rest

end Sys2Proof.Machine
end

