-- ==== Sys2Proof/Machine/Geometry.lean ====
section
/-! DEFINITION. The geometry instructions and the completions of the engines (14 R418, R419, R424 to R442). -/

namespace Sys2Proof.Machine

/-! ### Operations in flight (R418, R419) -/

/-- Outstanding operations of one kind on an engine. -/
def geosOn (s : State) (unit : Nat) (cut : Bool) : Nat :=
  (s.geos.filter fun x => match x.2 with
    | some g => g.unit == unit && (match g.kind with
      | .cutsel .. => cut
      | .rsub .. => !cut)
    | none => false).length

def cutRoom : Nat := 16
def rasterRoom : Nat := 32

/-- A checked operation takes its place in the request queue. -/
def startGeo (s : State) (unit : Nat) (k : GeoKind) : State :=
  let pid := s.cur
  let crew := s.curCrewId
  let asid := s.curLaunch.asid
  let (n, s) := s.newId
  (s.setGeo n (some ⟨unit, crew, pid, asid, k, none, n⟩)).modPack pid fun p => { p with geo := p.geo + 1 }

/-- The uniform registers from an anchor. -/
def uniWords (p : Pack) (b n : Nat) : List Nat := (List.range n).map fun i => (rdS p (b + i)).toNat

/-- CAPV subcode of a capability whose extent from its cursor is checked too. -/
def extentSub (sv : Bool) (spaces : List Nat) (perm : Nat) (c : Cap) (n : Nat) : Option Nat :=
  capSub sv ⟨spaces, perm, n⟩ c c.cursor

/-- ALIGN of a cursor. -/
def cursorAlign (c : Ctx) (l : List (Cap × Nat)) : Option Trap :=
  (l.find? fun x => x.1.cursor % x.2 ≠ 0).map fun x => c.trap clsAlign 0 (BitVec.ofNat 64 x.1.cursor)

/-! ### cutsel (R424 to R430, R438) -/

/-- The first parameter register that breaks R438. -/
def cutParamBad (w : List Nat) : Option Nat :=
  let a (i : Nat) : Nat := w.getD i 0
  let tau := bits (a 0) 0 32
  let dnear := bits (a 0) 32 32
  let first := bits (a 1) 0 32
  let count := bits (a 1) 32 32
  if !(gFinite tau && (gPositive tau || (f32.read tau).isZero)) || !gPositive dnear then some (a 0)
  else if 127 < first || count == 0 || 128 < first + count then some (a 1)
  else if 2 ^ 24 < bits (a 2) 0 32 || 2 ^ 24 < bits (a 2) 32 32 then some (a 2)
  else if a 3 % 256 ≠ 0 then some (a 3)
  else none

/-- Bytes of the output (R429). -/
def cutExtent (lcap qcap : Nat) (ray : Bool) : Nat := if ray then 64 + 4104 * lcap + 8 * qcap else 8 * lcap + 8 * qcap

def cutselBody (c : Ctx) (s : State) : Res :=
  let p := s.curPack
  let sv := s.curSv
  let ray := encModBit c.e 0
  let val := encModBit c.e 1
  let w := uniWords p (encB c.e) 4
  let ya := rdY p (encA c.e)
  let yc := rdY p (encC c.e)
  let lcap := bits (w.getD 2 0) 0 32
  let qcap := bits (w.getD 2 0) 32 32
  match (if val then none else cutParamBad w) with
  | some x => .trap (c.openTrap clsIllop 13 (BitVec.ofNat 64 x))
  | none =>
    let out : List (Option Nat × Cap) :=
      if val then [] else [(extentSub sv (if ray then [0, 4] else [0]) pmStore yc (cutExtent lcap qcap ray), yc)]
    match (copyCapv c ((copyCapSub sv [0, 1] pmLoad ya, ya) :: out)).orElse fun _ =>
        if val then none else cursorAlign c [(yc, if ray then 64 else 8)] with
    | some t => .trap t
    | none =>
      let unit := settOfCore s.curCrew.core
      if cutRoom ≤ geosOn s unit true then .stall s
      else .done (startGeo s unit (.cutsel ya yc w ray val (encD c.e))) 0

def execCutsel (e : Enc) (s : State) : Host.Outcome State Fault Refusal := issue (.cutsel e) e cutselBody s

/-! ### rsub and rwait (R431, R438, R439) -/

/-- The first parameter register that breaks R431. -/
def rsubParamBad (w : List Nat) : Option Nat :=
  let a (i : Nat) : Nat := w.getD i 0
  let wd := bits (a 1) 0 16
  let h := bits (a 1) 16 16
  if 2 ^ 18 < bits (a 0) 0 32 + bits (a 0) 32 32 then some (a 0)
  else if wd == 0 || 16384 < wd || h == 0 || 16384 < h || bits (a 1) 32 32 < wd then some (a 1)
  else if bits (a 2) 3 29 ≠ 0 || bits (a 2) 32 32 % 256 ≠ 0 then some (a 2)
  else if a 3 ≠ 0 then some (a 3)
  else none

/-- Spaces of rsub's buffer and input. -/
def rasterSpaces : List Nat := [0, 2, 3, 4]

def rsubBody (c : Ctx) (s : State) : Res :=
  let p := s.curPack
  let sv := s.curSv
  if c.m = 0 then .done s 0
  else
    let pre := encModBit c.e 0
    let w := uniWords p (encB c.e) 4
    let a (i : Nat) : Nat := w.getD i 0
    let yd := rdY p (encD c.e)
    let ya := rdY p (encA c.e)
    let yg := rdY p (a 2 % 8)
    let last := bits (a 0) 0 32 + bits (a 0) 32 32
    let first := bits (a 0) 0 32
    let size := if pre then 2560 else 8
    let buf := 8 * (bits (a 1) 32 32 * (bits (a 1) 16 16 - 1) + bits (a 1) 0 16)
    match rsubParamBad w with
    | some x => .trap (c.openTrap clsIllop 13 (BitVec.ofNat 64 x))
    | none =>
      let caps : List (Option Nat × Cap) :=
        (if pre then [] else [(copyCapSub sv [0, 1] pmLoad yg, yg)])
          ++ [(capSub sv ⟨rasterSpaces, pmLoad, size * (last - first)⟩ ya (ya.cursor + size * first : Nat), ya),
              (extentSub sv rasterSpaces (pmLoad + pmStore) yd buf, yd)]
      match (copyCapv c caps).orElse fun _ => cursorAlign c [(yd, 8), (ya, if pre then 64 else 8)] with
      | some t => .trap t
      | none =>
        let unit := clusterOfCore s.curCrew.core
        if rasterRoom ≤ geosOn s unit false then .stall s
        else
          match expose s s.cur with
          | .error e => resOf c s (.stop e)
          | .ok s => .done (startGeo s unit (.rsub yd ya yg w pre (encModBit c.e 1))) 0

def execRsub (e : Enc) (s : State) : Host.Outcome State Fault Refusal := issue (.rsub e) e rsubBody s

/-- rwait: the pack observes the operations that have completed (16 R484). -/
def rwaitBody (c : Ctx) (s : State) : Res :=
  if c.e.b.toNat < s.curPack.geo then .stall s else .done (s.setCur (observe s.curPack fun o => o.2.1 == 2)) 0

def execRwait (e : Enc) (s : State) : Host.Outcome State Fault Refusal := issue (.rwait e) e rwaitBody s

/-! ### clfetch and visd (R440, R441) -/

/-- The position words of vertex `i`. -/
def clVertex (e : GEnv) (k : Cap) (page : Nat) (c : GCluster) (i : Nat) : GM (List Nat) :=
  if c.nv ≤ i then pure [0, 0, 0]
  else do
    let b ← geoRead e k (page + c.voff + 6 * i) 6
    pure ((List.range 3).map fun j => vertexCoord (c.origin.getD j 0) c.pe (fieldAt b (2 * j) 2))

/-- The word of triangle `i`: its index stream is read as far as it lies. -/
def clTriangle (e : GEnv) (k : Cap) (page : Nat) (c : GCluster) (i : Nat) : GM Nat :=
  if c.nt ≤ i then pure 0
  else do
    let tris ← readStrip e k page c.ioff (i + 1)
    pure (match tris[i]? with
      | some q => q.1 + q.2.1 * 256 + q.2.2.1 * 65536 + (if q.1 < c.nv && q.2.1 < c.nv && q.2.2.1 < c.nv then 2 ^ 31 else 0)
      | none => 0)

/-- The five words of a thread with index `i`, of the cluster whose header lies at `at_`.  What lies outside the capability goes before
what does not translate (08 R226). -/
def clThread (e : GEnv) (k : Cap) (at_ : Nat) (i : Nat) : GM (List Nat) := do
  let b ← geoRead e k at_ 64
  let c := parseCluster b
  let head := c.nv + c.nt * 256 + c.mat * 65536
  if c.nv == 0 || 128 < c.nv || c.nt == 0 || 128 < c.nt then pure [0, 0, 0, 0, head]
  else do
    let page := at_ / geoPage * geoPage
    let v ← geoAny (clVertex e k page c i)
    let t ← geoAny (clTriangle e k page c i)
    match v, t with
    | .ok v, .ok t => pure (v ++ [t, head])
    | .error (.oob va), _ => throw (.oob va)
    | _, .error (.oob va) => throw (.oob va)
    | .error x, _ => throw x
    | _, .error x => throw x

/-- What one thread's reads come to: their result, and the reads made. -/
structure ThreadRun (α : Type) where
  t : Nat
  out : Except GStop α
  log : GLog

/-- The reads of some threads, each on its own. -/
def threadRuns {α : Type} (f : Nat → GM α) (l : List Nat) : List (ThreadRun α) :=
  l.map fun t => let r := (f t).run.run []; ⟨t, r.1, r.2⟩

/-- The stops of some runs. -/
def runStops {α : Type} (l : List (ThreadRun α)) : List (Nat × GStop) :=
  l.filterMap fun x => match x.out with
    | .error y => some (x.t, y)
    | .ok _ => none

/-- The values of some runs. -/
def runValues {α : Type} (l : List (ThreadRun α)) : List (Nat × α) :=
  l.filterMap fun x => match x.out with
    | .ok v => some (x.t, v)
    | .error _ => none

def runLog {α : Type} (l : List (ThreadRun α)) : GLog := l.flatMap (·.log)

/-- The bounds and the translation faults among some stops, and the consumption of an error. -/
def stopBounds (l : List (Nat × GStop)) : List (Nat × Nat) :=
  l.filterMap fun x => match x.2 with
    | .oob va => some (x.1, va)
    | _ => none
def stopFaults (l : List (Nat × GStop)) : List PFault :=
  l.filterMap fun x => match x.2 with
    | .fault code asid va _ => some ⟨x.1, asid, va, code⟩
    | _ => none
def stopUce (l : List (Nat × GStop)) : Option Nat :=
  (l.filterMap fun x => match x.2 with
    | .uce k => some k
    | _ => none).head?

/-- Spaces of a lane-class load through a y register. -/
def clSpaces : List Nat := [0, 1, 2, 3, 4, 5, 6, 8, 9]

/-- The caches after some reads of a core. -/
def noteReads (s : State) (core asid : Nat) (log : GLog) : State :=
  log.foldl (fun s x => match x.xl with
    | some y => noteXlate s core asid x.va y
    | none => s) s

/-- Requests of a class at the quays of some granules (01 R25). -/
def askGrans (cls : Nat) (s : State) (grans : List Nat) : State := grans.foldl (fun s g => s.request cls (64 * g)) s

/-- The admissions of some reads. -/
def readAdmissions (log : GLog) : List (Nat × Bool) := nubAdm (log.filterMap fun x => x.gate.map fun g => (g, false))

/-- Granules of some reads that lie in memory. -/
def readGrans (log : GLog) : List Nat := nubNat (log.filterMap (·.gate))

/-- The walks of an engine without a cache, one for each page that an operation translates (08 R244). -/
def countWalks (s : State) (sett : Nat) (l : List (Nat × Option Xl)) : State :=
  let n := (nubNat (l.filterMap fun x => x.2.map fun _ => x.1 / 65536)).length
  if n = 0 then s else s.count ctrXlWalk sett n

/-- The walk of a translation that faults, unless the page has a pending fault. -/
def countLostWalk (s : State) (sett asid va : Nat) : State :=
  if s.pendFaults.any fun f => f.sett == sett && f.asid == asid && f.page == va / 65536 then s else s.count ctrXlWalk sett 1

def GRead.walked (x : GRead) : Nat × Option Xl := (x.va, x.xl)

/-- Stores of a crew's buffer, or to SPM1, that some reads have come from (09 R262). -/
def logSources (s : State) (isb : List IStore) (log : GLog) : List (Nat × Nat) :=
  log.flatMap fun x => (List.range x.n).filterMap fun i => byteSource s isb (x.loc.add i)

/-- Whether the forwarding table holds a store of the pack to a granule that some reads touch: they wait until it has drained (05 R140). -/
def spillsTouch (s : State) (core pid : Nat) (log : GLog) : Bool :=
  (s.spillsOf core).any fun x => x.pack == pid && x.items.any fun i => log.any fun r => granKey r.loc == granKey i.2.loc

/-- Order gates, stamps, recalls and requests of the reads of a lane-class load. -/
def passReads (s : State) (pid : Nat) (log : GLog) : Except Stop State :=
  let p := s.pack pid
  match passGates s p.launch p.lin 0 (readAdmissions log) with
  | .error x => .error x
  | .ok s => (strict s pid 0 0 (log.map (·.acc))).map fun s => askGrans 0 (readyRead s (readGrans log)) (log.filterMap (·.gate))

/-- The same for a ray query, which takes no trap (R435): it goes on without an entry or a stamp that would trap. -/
def passQuery (s : State) (pid : Nat) (log : GLog) : Except Stop State :=
  let p := s.pack pid
  let stamp (r : Except Stop State) (a : SAcc) : Except Stop State := r.bind fun s =>
    match strict s pid 0 0 [a] with
    | .error (.trap _ _ _) => .ok s
    | r => r
  let gated : Except Stop State := match passGates s p.launch p.lin 0 (readAdmissions log) with
    | .error (.trap _ _ _) => .ok s
    | r => r
  ((log.map (·.acc)).foldl stamp gated).map fun s =>
    countWalks (askGrans 4 (readyRead s (readGrans log)) (log.filterMap (·.gate))) (settOfCore (s.coreOf p.crew)) (log.map GRead.walked)

/-- The halt of a lane-class load whose threads stop so: the bounds first, then translation, then consumed errors (08 R226). -/
def laneStops (l : List (Nat × GStop)) : Option Halt :=
  match stopBounds l with
  | x :: r => some (.trap ⟨clsCapv, 5, BitVec.ofNat 64 x.2, maskOf ((x :: r).map (·.1))⟩)
  | [] =>
    let bad := stopFaults l
    match bad.filter fun f => !replayable f.code with
    | f :: r => some (.fatal ⟨clsXlate, f.code, BitVec.ofNat 64 f.va, maskOf ((f :: r).map (·.t))⟩ (f :: r) 0)
    | [] => if bad.isEmpty then (stopUce l).map Halt.uce else some (.pages bad 0)

def clfetchBody (c : Ctx) (s : State) : Res :=
  let p := s.curPack
  let lanes := lanesOf c.m p.width
  if lanes.isEmpty then .done s 0
  else
    let k := rdY p (encA c.e)
    let at_ : Nat := (rdS p (encB c.e)).toNat % 2 ^ 40 * 64
    match capSub s.curSv ⟨clSpaces, pmLoad, 64⟩ k at_ with
    | some n => .trap (c.trap clsCapv n (BitVec.ofNat 64 at_))
    | none =>
      let asid := if k.space = 6 then 0 else s.curLaunch.asid
      let e : GEnv := ⟨s, s.curCrewId, asid, some s.curCrew.core, s.curCrew.isb⟩
      let runs := threadRuns (fun t => clThread e k at_ (encMod c.e * p.width + t)) lanes
      match laneStops (runStops runs), spillsTouch s s.curCrew.core s.cur (runLog runs) with
      | some h, _ => resOf c s h
      | none, true => .stall s
      | none, false =>
        match passReads s s.cur (runLog runs) with
        | .error x => resOf c s (.stop x)
        | .ok s =>
          let s := noteSources s s.cur (logSources s s.curCrew.isb (runLog runs))
          let s := countXpand s (s.clusterOf s.curCrewId) ((runLog runs).map fun x => (x.loc, x.n))
          let s := noteReads s s.curCrew.core asid (runLog runs)
          .done (s.setCur ((runValues runs).foldl (fun q x =>
            ((List.range 5).zip x.2).foldl (fun q y => wrV q (encD c.e + y.1) x.1 y.2) q) s.curPack)) 0

def execClfetch (e : Enc) (s : State) : Host.Outcome State Fault Refusal := issue (.clfetch e) e clfetchBody s

def visdBody (c : Ctx) (p : Pack) : Except Trap Pack :=
  .ok (laneRegs c (fun t =>
    let w := rdV64 p (encA c.e) t
    [(encD c.e, bits w 32 32), (encD c.e + 1, bits w 14 18), (encD c.e + 2, bits w 7 7), (encD c.e + 3, bits w 0 7)]) p)

def execVisd (e : Enc) (s : State) : Host.Outcome State Fault Refusal := issue (.visd e) e (onPack visdBody) s

/-! ### Ray queries (R435, R436) -/

def rayKey (idx t : Nat) : Nat := 64 * idx + t

def setRay (s : State) (crew key : Nat) (q : Option RayQuery) : State :=
  s.modSt crew fun st => { st with rays := Tab.set none st.rays key q }

def rayqBody (c : Ctx) (s : State) : Res :=
  let p := s.curPack
  .done ((lanesOf c.m p.width).foldl (fun s t =>
    setRay s s.curCrewId (rayKey p.idx t) (some ⟨(List.range 8).map fun i => BitVec.ofNat 32 (rdV p (encA c.e + i) t),
      rdY p (encB c.e), none, none⟩)) s) 0

def execRayq (e : Enc) (s : State) : Host.Outcome State Fault Refusal := issue (.rayq e) e rayqBody s

/-- Whether the ray unit can read through a region's capability. -/
def regionOk (k : Cap) : Bool := k.tag && k.has pmLoad && [0, 1, 2, 3, 4].contains k.space

/-- LCAP of the region at a place, if cutsel.ray has laid it out. -/
def regionLcap (s : State) (l : Loc) : Option Nat := (s.rayRegions.find? fun x => x.1 == l).map (·.2)

/-- The next candidate of a query. -/
def nextHit (e : GEnv) (q : RayQuery) : GM (Option RayHit) :=
  let k := q.region
  let ray := q.ray.map (·.toNat)
  match rayOf ray, regionOk k with
  | some r, true => do
    match ← geoTry (geoRead e k k.cursor 8) with
    | .error _ => pure none
    | .ok b => do
      let n := min (fieldAt b 0 4) ((k.top - k.cursor) / treeBytes + 1)
      let lcap := match geoPlace e k false k.cursor with
        | .ok (l, _) => (regionLcap e.s l).getD (fieldAt b 0 4)
        | .error _ => fieldAt b 0 4
      let l ← regionHits e k lcap ray r (List.range n)
      pure (leastHit (l.filter fun h => match q.last with
        | none => true
        | some x => x.before h))
  | _, _ => pure none

/-- The next candidate of a thread's query. -/
def threadHit (e : GEnv) (st : CrewState) (idx t : Nat) : GM (Option RayHit) :=
  match Tab.get none st.rays (rayKey idx t) with
  | none => pure none
  | some q => nextHit e q

def noHit : List W32 := [0x7F800000, 0, 0, 0xFFFFFFFF]

/-- Deliveries to some threads. -/
def deliverHits (c : Ctx) (p : Pack) (l : List (Nat × Option RayHit)) : Pack :=
  laneRegs c (fun t =>
    let out := match l.find? fun x => x.1 == t with
      | some (_, some h) => h.out
      | _ => noHit
    ((List.range 4).zip out).map fun x => (encD c.e + x.1, x.2.toNat)) p

/-- raynx.  A query takes no trap (R435): a fatal fault on its region ends it (R438), and it delivers none. -/
def raynxBody (c : Ctx) (s : State) : Res :=
  let p := s.curPack
  let crew := s.curCrewId
  let st := s.curCrew.st
  let lanes := lanesOf c.m p.width
  let md := encMod c.e
  if md ≠ 0 then
    let hit (t : Nat) : Option RayHit :=
      if md = 1 then (Tab.get none st.rays (rayKey p.idx t)).bind (·.current) else none
    let s := lanes.foldl (fun s t => setRay s crew (rayKey p.idx t) none) s
    .done (s.setCur (deliverHits c s.curPack (lanes.map fun t => (t, hit t)))) 0
  else
    let e : GEnv := ⟨s, crew, s.curLaunch.asid, none, []⟩
    let runs := threadRuns (threadHit e st p.idx) lanes
    let stops := runStops runs
    let wait := (stopFaults stops).filter fun f => replayable f.code
    let core := s.curCrew.core
    match wait, stopUce stops with
    | f :: r, _ => .wait ((f :: r).foldl (fun s f => postFault (countLostWalk s (settOfCore core) f.asid f.va) (settOfCore core) f.asid f.va f.code 0 4 core) s)
        (.ray f.asid (f.va / 65536)) (f :: r)
    | [], some k => .gone (consumeUce s crew k)
    | [], none =>
      match passQuery s s.cur (runLog runs) with
      | .error x => resOf c s (.stop x)
      | .ok s =>
        let s := (stopFaults stops).foldl (fun s f => queueRecord (countLostWalk s (settOfCore core) f.asid f.va) (settOfCore core) f.asid f.va f.code 0 4 core) s
        let s := stops.foldl (fun s x => setRay s crew (rayKey p.idx x.1) none) s
        let hs := runValues runs
        let s := hs.foldl (fun s x =>
          match Tab.get none st.rays (rayKey p.idx x.1) with
          | none => s
          | some q => setRay s crew (rayKey p.idx x.1) (x.2.map fun h => { q with last := some h, current := some h })) s
        let s := s.count ctrRayCand core (hs.filter fun x => x.2.isSome).length
        .done (s.setCur (deliverHits c s.curPack hs)) 0

def execRaynx (e : Enc) (s : State) : Host.Outcome State Fault Refusal := issue (.raynx e) e raynxBody s

/-! ### Completions -/

/-- One granule piece that an engine writes. -/
structure GWrite where
  loc : Loc
  xl : Option Xl
  va : Nat
  bytes : List Byte
  deriving DecidableEq, Repr

/-- The pieces of some writes through a capability, with their places. -/
def geoWrites (e : GEnv) (k : Cap) : List (Nat × List Byte) → Except GStop (List GWrite)
  | [] => .ok []
  | (a, bs) :: l =>
    (granCuts a bs.length).foldr (fun x r =>
      match geoPlace e k true x.1 with
      | .error y => .error y
      | .ok (loc, xl) => r.map fun w => ⟨loc, xl, x.1, (bs.drop (x.1 - a)).take x.2⟩ :: w) (geoWrites e k l)

/-- The interval store of a piece. -/
def GWrite.store (w : GWrite) (pack : Nat) (k : Cap) : IStore :=
  let pte := (w.xl.map (·.pte)).getD 0
  ⟨pack, 0, w.loc, w.bytes, none, bitAt pte 5, leafCp pte, k.colour, isGated k.space⟩

/-- Sett of an operation, as fault records name it. -/
def GeoOp.sett (g : GeoOp) : Nat := match g.kind with
  | .cutsel .. => g.unit
  | .rsub .. => g.unit / 16

/-- The gates, stamps and recalls of an operation that reads by `log` and writes `ws`. -/
def passGeo (s : State) (id : Nat) (g : GeoOp) (k : Cap) (kind : Nat) (log : GLog) (ws : List GWrite) : Except Stop State :=
  let lid := (s.crew g.crew).launch
  let wg : List Nat := if isGated k.space then ws.map fun w => w.loc.off / 64 else []
  match passGates s lid (s.pack g.pack).lin (id + 1)
      (nubAdm ((log.filterMap fun x => x.gate.map fun n => (n, false)) ++ wg.map fun n => (n, true))) with
  | .error x => .error x
  | .ok s =>
    match strict s g.pack (id + 1) 0 (log.map (·.acc)) with
    | .error x => .error x
    | .ok s =>
      match strict s g.pack (id + 1) k.colour (ws.map fun w => ⟨granKey w.loc, w.va, true, kind⟩) with
      | .error x => .error x
      | .ok s =>
        let s := readyRead s (nubNat (log.filterMap (·.gate) ++ if kind = 2 then wg else []))
        .ok (countWalks (askGrans 4 s (log.filterMap (·.gate) ++ wg)) g.sett (log.map GRead.walked ++ ws.map fun w => (w.va, w.xl)))

/-- An operation is complete: its pack counts one less (R419). -/
def endGeo (s : State) (id : Nat) (g : GeoOp) : State :=
  let s := (s.setGeo id none).modPack g.pack fun p => { p with geo := p.geo - 1 }
  settleCrew (noteDone s g.pack (id + 1) [(2, 0)]) g.crew

/-- cutsel's status (R430), if its pack has not ended. -/
def setCutStatus (s : State) (g : GeoOp) (x : Nat) : State :=
  match g.kind with
  | .cutsel _ _ _ _ _ sd => if (s.pack g.pack).live then s.modPack g.pack fun p => wrS p sd (BitVec.ofNat 64 x) else s
  | .rsub .. => s

/-- A trap of an operation reaches its pack, or ends the crew (11 R326), and the operation is complete. -/
def geoTrap (s : State) (id : Nat) (g : GeoOp) (t : Trap) : State :=
  if (s.pack g.pack).live then
    let s := deferTrap s g.pack t
    if (s.crew g.crew).live then endGeo s id g else s
  else crewAbort s g.crew 6 t.cls t.sub 0

/-- A fatal fault ends an operation (R438). -/
def geoFatal (s : State) (id : Nat) (g : GeoOp) (code va : Nat) : State :=
  geoTrap (setCutStatus s g (2 ^ 53 + code * 2 ^ 56)) id g ⟨clsXlate, code, BitVec.ofNat 64 va, 0⟩

/-- Engine index of an operation, as fault records name it. -/
def GeoOp.engine (g : GeoOp) : Nat := match g.kind with
  | .cutsel .. => 0
  | .rsub .. => g.unit % 16

/-- What a stop does to an operation. -/
def geoStop (s : State) (id : Nat) (g : GeoOp) (x : GStop) : State :=
  match x with
  | .fault code asid va write =>
    let s := countLostWalk s g.sett asid va
    if replayable code then
      postFault (s.setGeo id (some { g with stall := some (asid, va, code) })) g.sett asid va code (bit write) 4 g.engine
    else geoFatal (queueRecord s g.sett asid va code (bit write) 4 g.engine) id g code va
  | .uce k =>
    let s := consumeUce s g.crew k
    if (s.crew g.crew).live then endGeo s id g else s
  | .oob _ => endGeo s id g
  | .bad => endGeo s id g

/-- What a gate or stamp does to an operation: a replay that is not its turn leaves it to come again. -/
def geoGate (s : State) (id : Nat) (g : GeoOp) (x : Stop) : State :=
  match x with
  | .gate _ s => s
  | .sent s => s
  | .lost => crewAbort s g.crew 9 0 0 0
  | .trap cls sub val => geoTrap s id g ⟨cls, sub, val, 0⟩

def geoEnv (s : State) (g : GeoOp) : GEnv := ⟨s, g.crew, g.asid, none, []⟩

/-- The output of a cut selection: its writes, its status, and the entries. -/
def cutOutput (yc : Cap) (w : List Nat) (ray : Bool) (o : CutOut) : List (Nat × List Byte) × Nat × Nat :=
  let lcap := bits (w.getD 2 0) 0 32
  let qcap := bits (w.getD 2 0) 32 32
  let base := yc.cursor
  let n := min o.sel.length lcap
  let pages := sortNat (nubNat (o.noted.map (·.1)))
  let q := min pages.length qcap
  let at_ : Nat := if ray then base + 64 else base
  let req : Nat := if ray then base + 64 + 4104 * lcap else base + 8 * lcap
  let words := ((List.range n).zip o.sel).map fun x => (at_ + 8 * x.1, leBytes x.2.word 8)
  let reqs := ((List.range q).zip pages).map fun x =>
    (req + 8 * x.1, leBytes (x.2 + ((o.noted.find? fun y => y.1 == x.2).map (·.2)).getD 0 * 2 ^ 32) 8)
  let extra := if ray then
      (base, leBytes n 64) :: ((List.range n).zip o.tree).map fun x => (at_ + 8 * lcap + treeBytes * x.1, x.2)
    else []
  let status := n + q % 2 ^ 16 * 2 ^ 32 + (if lcap < o.sel.length then 2 ^ 48 else 0) + (if qcap < pages.length then 2 ^ 49 else 0)
    + (if o.miss then 2 ^ 50 else 0) + (if o.bad then 2 ^ 51 else 0) + (if o.oob then 2 ^ 52 else 0)
  (extra ++ words ++ reqs, status, q)

/-- The region of a cutsel.ray is laid out. -/
def noteRegion (s : State) (l : Loc) (lcap : Nat) : State :=
  { s with rayRegions := (l, lcap) :: s.rayRegions.filter fun x => x.1 != l }

/-- A cut selection runs (R424 to R430). -/
def runCut (s : State) (id : Nat) (g : GeoOp) (ya yc : Cap) (w : List Nat) (ray val : Bool) : State :=
  let e := geoEnv s g
  if val then
    let (r, log) := (geoTry (validate e ya ya.cursor)).run.run []
    match r with
    | .error x => geoStop s id g x
    | .ok r =>
      match passGeo s id g Cap.null 0 log [] with
      | .error x => geoGate s id g x
      | .ok s =>
        let st := match r with
          | .ok n => n
          | .error _ => 2 ^ 52
        endGeo ((setCutStatus s g st).count ctrGeoCut g.unit 1) id g
  else
    let a (i : Nat) : Nat := w.getD i 0
    let first := bits (a 1) 0 32
    let insts := (List.range (bits (a 1) 32 32)).map (first + ·)
    let (r, log) := (cutAll e ya (ya.cursor + a 3) (bits (a 0) 0 32) (bits (a 0) 32 32) ray insts ⟨[], [], [], false, false, false, 0⟩).run.run []
    match r with
    | .error x => geoStop s id g x
    | .ok o =>
      let (writes, status, q) := cutOutput yc w ray o
      match geoWrites e yc writes with
      | .error x => geoStop s id g x
      | .ok ws =>
        match passGeo s id g yc 0 log ws with
        | .error x => geoGate s id g x
        | .ok s =>
          let s := engineStores s g.crew (ws.map fun x => x.store g.pack yc)
          let s := match ray, geoPlace e yc true yc.cursor with
            | true, .ok (l, _) => noteRegion s l (bits (a 2) 0 32)
            | _, _ => s
          let s := ((s.count ctrGeoCut g.unit 1).count ctrGeoFb g.unit o.fb).count ctrGeoReq g.unit q
          endGeo (setCutStatus s g status) id g

/-- Whether two operations queue at one engine. -/
def GeoOp.sameEngine (a b : GeoOp) : Bool :=
  a.unit == b.unit && (match a.kind, b.kind with
    | .cutsel .., .cutsel .. => true
    | .rsub .., .rsub .. => true
    | _, _ => false)

/-- Whether an operation is the oldest of its engine: an engine works in issue order (R418), so one that stalls stalls it (R438). -/
def engineHead (s : State) (g : GeoOp) : Bool :=
  s.geos.all fun x => match x.2 with
    | some h => !h.sameEngine g || g.order ≤ h.order
    | none => true

def execCutselComplete (geo : Nat) (s : State) : Host.Outcome State Fault Refusal :=
  match s.geoOp geo with
  | some g =>
    match g.kind, g.stall, onCore s g.crew && engineHead s g with
    | .cutsel ya yc w ray val _, none, true => .next (runCut s geo g ya yc w ray val)
    | _, _, _ => .next s
  | none => .next s

/-- One fragment reaches its pixel: an unsigned maximum of eight bytes (R433). -/
def writeFrag (g : GeoOp) (k : Cap) (s : State) (x : GWrite) : State :=
  let old := leNat (s.locBytes x.loc 8)
  engineStores s g.crew [{ x with bytes := leBytes (max old (leNat x.bytes)) 8 }.store g.pack k]

/-- A submission runs (R431 to R433). -/
def runRaster (s : State) (id : Nat) (g : GeoOp) (yd ya yg : Cap) (w : List Nat) (pre both : Bool) : State :=
  let e := geoEnv s g
  let a (i : Nat) : Nat := w.getD i 0
  let idxs := (List.range (bits (a 0) 32 32)).map (bits (a 0) 0 32 + ·)
  let (r, log) := (rasterAll e ya yg (bits (a 1) 0 16) (bits (a 1) 16 16) (bits (a 2) 32 32) pre both idxs ⟨[], 0, 0, 0⟩).run.run []
  match r with
  | .error x => geoStop s id g x
  | .ok o =>
    match geoWrites e yd (o.frags.map fun f => (yd.cursor + 8 * (f.y * bits (a 1) 32 32 + f.x), leBytes f.word 8)) with
    | .error x => geoStop s id g x
    | .ok ws =>
      match s.uceRanges (ws.map fun x => (x.loc, 8)) with
      | some k => geoStop s id g (.uce k)
      | none =>
        match passGeo s id g yd 2 log ws with
        | .error x => geoGate s id g x
        | .ok s =>
          let s := ws.foldl (writeFrag g yd) s
          let s := ((s.count ctrRsTri g.unit o.kept).count ctrRsDrop g.unit o.dropped).count ctrRsBad g.unit o.bad
          endGeo s id g

def execRsubComplete (geo : Nat) (s : State) : Host.Outcome State Fault Refusal :=
  match s.geoOp geo with
  | some g =>
    match g.kind, g.stall, onCore s g.crew && engineHead s g with
    | .rsub yd ya yg w pre both, none, true => .next (runRaster s geo g yd ya yg w pre both)
    | _, _, _ => .next s
  | none => .next s

end Sys2Proof.Machine
end

