-- ==== Sys2Proof/Machine/Contain.lean ====
section
/-! DEFINITION. Trap returns, the bound table, status flags and system registers (15 R443 to R452, R465 to R470), and the events
of faults, the watchdog and uncorrectable errors (04 R99, R101; 08 R231 to R233; 15 R458, R464). -/

namespace Sys2Proof.Machine

/-! ### tret (R450) -/

/-- Where the issuing subset goes on, or the trap. -/
def tretTarget (c : Ctx) (p : Pack) : Except Trap W64 :=
  let k := c.e.b.toNat
  if 2 < k then .error (c.openTrap clsIllop 13 (BitVec.ofNat 64 k))
  else if !p.save.inHandler then .error (c.trap clsIllop 12 4)
  else if k = 0 then .ok p.tepc
  else if k = 1 then .ok p.save.next
  else
    let x := rdS p (encA c.e)
    if x.toNat % 4 ≠ 0 then .error (c.trap clsAlign 0 x) else .ok x

def tretBody (c : Ctx) (s : State) : Res :=
  match tretTarget c s.curPack with
  | .error t => .trap t
  | .ok tgt => .done (s.setCur (leaveTrap s.curPack tgt (c.e.b.toNat == 1))) s.curPack.sel

def execTret (e : Enc) (s : State) : Host.Outcome State Fault Refusal := issue (.tret e) e tretBody s

/-! ### tbnd (R451, R452) -/

def tbndBody (c : Ctx) (s : State) : Res :=
  let p := s.curPack
  let w := (rdS p (encB c.e)).toNat
  let lid := p.launch
  let b := leBytes (rdS p (encA c.e)).toNat 8 ++ leBytes (rdS p (encA c.e + 1)).toNat 8 ++ leBytes (bits w 8 2) 1
    ++ leBytes (bits w 10 2) 1 ++ List.replicate 14 0
  match parseBound b with
  | none => .trap (c.openTrap clsIllop 13 (BitVec.ofNat 64 w))
  | some x =>
    if w / 2 ^ 12 ≠ 0 then .trap (c.openTrap clsIllop 13 (BitVec.ofNat 64 w))
    else if s.isStrict lid then .trap (c.openTrap clsRace 2 (BitVec.ofNat 64 w))
    else .done (s.modLaunch lid fun l => { l with bounds := Tab.set BoundEntry.unused l.bounds (w % 256) x }) 0

def execTbnd (e : Enc) (s : State) : Host.Outcome State Fault Refusal := issue (.tbnd e) e tbndBody s

/-! ### sflg (R466) -/

def sflgBody (c : Ctx) (s : State) : Res :=
  if packMatBusy s s.cur then .stall s
  else
    let p := s.curPack
    let m := (rdS p (encB c.e)).setWidth 32
    let q := wrS p c.e.d.toNat (p.sflag.setWidth 64)
    .done (s.setCur (if encModBit c.e 0 then { q with sflag := p.sflag &&& ~~~m } else q)) 0

def execSflg (e : Enc) (s : State) : Host.Outcome State Fault Refusal := issue (.sflg e) e sflgBody s

/-! ### System registers (R467 to R469, 17 R505) -/

/-- Whether an id is assigned, with the number of its units. -/
def sysUnits (id : Nat) : Option Nat :=
  if id ≤ 0x18 then some 1024
  else if 0x100 ≤ id ∧ id ≤ 0x109 then some 128
  else if 0x200 ≤ id ∧ id ≤ 0x20B then some 8
  else if 0x300 ≤ id ∧ id ≤ 0x30B then some 256
  else if (0x400 ≤ id ∧ id ≤ 0x408) ∨ id = 0x480 then some 1
  else none

/-- The register that a selector names: id and unit. -/
def sysNamed (sel : Nat) : Option (Nat × Nat) :=
  let id := sel % 65536
  let unit := sel / 65536
  match sysUnits id with
  | some n => if unit < n then some (id, unit) else none
  | none => none

def wdogId : Nat := 0x480

def sysRead (s : State) (id unit : Nat) : W64 :=
  if id = wdogId then s.wdogLim.setWidth 64 else Tab.get 0 s.counters (counterKey id unit)

def sysWrite (s : State) (id unit : Nat) (x : W64) : State :=
  if id = wdogId then { s with wdogLim := x.setWidth 32 } else { s with counters := Tab.set 0 s.counters (counterKey id unit) x }

/-- The selector of a register form, or of an immediate form: the issuing pack's own core. -/
def sysSel (reg : Bool) (c : Ctx) (s : State) : Nat :=
  if reg then (rdS s.curPack (encA c.e)).toNat else c.e.b.toNat + 65536 * s.curCrew.core

/-- Checks common to sysr and sysw, then the access. -/
def sysBody (reg : Bool) (act : Ctx → State → Nat → Nat → State) (c : Ctx) (s : State) : Res :=
  match sysNamed (sysSel reg c s) with
  | none => .trap (c.openTrap clsIllop 13 (BitVec.ofNat 64 (sysSel reg c s)))
  | some (id, unit) => if !s.curSv then .trap (c.openTrap clsPriv 1 0) else .done (act c s id unit) 0

def sysrAct (c : Ctx) (s : State) (id unit : Nat) : State := s.setCur (wrS s.curPack c.e.d.toNat (sysRead s id unit))
def syswAct (reg : Bool) (c : Ctx) (s : State) (id unit : Nat) : State :=
  sysWrite s id unit (rdS s.curPack (if reg then encB c.e else encA c.e))

def execSysr (e : Enc) (s : State) : Host.Outcome State Fault Refusal := issue (.sysr e) e (sysBody true sysrAct) s
def execSysrImm (e : Enc) (s : State) : Host.Outcome State Fault Refusal := issue (.sysrImm e) e (sysBody false sysrAct) s
def execSysw (e : Enc) (s : State) : Host.Outcome State Fault Refusal := issue (.sysw e) e (sysBody true (syswAct true)) s
def execSyswImm (e : Enc) (s : State) : Host.Outcome State Fault Refusal := issue (.syswImm e) e (sysBody false (syswAct false)) s

/-! ### Traps that no instruction of the moment causes -/

/-- A trap at the instruction on which a pack stalls or waits: at once, or at the crew's return. -/
def trapWaiting (s : State) (pid size : Nat) (t : Trap) : State :=
  let p := s.pack pid
  if onCore s p.crew then takeTrap s pid (packPc p) size t
  else s.modPack pid fun p => { p with wait := ⟨.due t.cls t.sub t.val t.mask, size, []⟩, monitor := none }

/-- The oldest deferred trap of a pack, at the instruction that it has selected (R445). -/
def execDeferredTrapDelivery (pack : Nat) (s : State) : Host.Outcome State Fault Refusal :=
  let p := s.pack pack
  match p.deferred with
  | [] => .next s
  | t :: l =>
    if p.live && onCore s p.crew && p.wait.kind == .none && p.sel ≠ 0 && !p.save.inHandler && !p.progress.sent then
      let size := (nextInstr s pack).1
      .next (takeTrap (s.setPack pack { p with deferred := l }) pack (packPc p) size { t with mask := p.sel })
    else .next s

/-- A pack that has been passed over for 256 cycles (04 R99). -/
def execIssueStarvation (pack : Nat) (s : State) : Host.Outcome State Fault Refusal :=
  let p := s.pack pack
  .next (if p.live && onCore s p.crew && p.wait.kind == .none then s.setPack pack { p with starved := true } else s)

/-- Selection with the ages as they stand: the threads whose age has reached 1,024 go first (04 R101). -/
def execSubsetAgeLimit (pack : Nat) (s : State) : Host.Outcome State Fault Refusal :=
  let p := s.pack pack
  .next (if p.live && onCore s p.crew && p.wait.kind == .none then s.setPack pack { p with sel := selectSubset p } else s)

/-! ### The watchdog (R464) -/

def isBarx : Instr → Bool
  | .barx _ => true
  | .barxImm _ => true
  | _ => false

/-- The last store whose value the quay of a subscription has sent or holds to send. -/
def Sub.latest (b : Sub) : Nat := ((b.pending.orElse fun _ => b.flight).map (·.2)).getD b.lastSeq

/-- An unstand of a pack that is withdrawn ends nothing (R464): the entry stands as before, and what it would have pushed meanwhile is
pushed. -/
def keepSub (s : State) (pid : Nat) : State :=
  s.subs.foldl (fun s x =>
    match x.2 with
    | some b =>
      if b.ending && b.ender == pid then
        let b := { b with ending := false, acked := false }
        s.setSub x.1 (some (if b.latest < b.stores then pushSub s b 0 else b))
      else s
    | none => s) s

/-- A wait is withdrawn from its quay or barrier; a barx has not arrived. -/
def withdrawWait (s : State) (pid : Nat) (barx : Bool) : State :=
  let p := s.pack pid
  match p.wait.kind with
  | .barrier b =>
    if barx then withdrawArrival s pid b else s
  | .acq _ => withdrawAcq s p.launch pid
  | _ => keepSub s pid

/-- The idle count of a pack reaches the limit. -/
def execWatchdogExpire (pack : Nat) (s : State) : Host.Outcome State Fault Refusal :=
  let p := s.pack pack
  let held : Bool := match p.wait.kind with
    | .none => s.stalled.contains pack
    | .ended => false
    | .due _ _ _ _ => false
    | _ => true
  if !(p.live && held && s.wdogLim != 0 && clocksRun s) then .next s
  else
    let (size, i) := nextInstr s pack
    let sub := if waitsR100 p then 2 else 1
    let s := withdrawWait s pack ((i.map isBarx).getD false)
    let s := s.modPack pack fun p => { p with monitor := none }
    .next (trapWaiting (s.count ctrWdogN (s.coreOf p.crew) 1) pack size
      ⟨clsWdog, sub, Config.trapVal clsWdog sub (packPc p), p.sel⟩)

/-! ### Uncorrectable errors (R458, R463) -/

def ctrSramCe : Nat := 0x17
def ctrSramUe : Nat := 0x18

/-- The rollback of a crew meets an uncorrectable error in the den (R459, R462): the crew aborts. -/
def consumeDen (s : State) (crew : Nat) : State :=
  let c := s.crew crew
  let s := s.count ctrSramUe c.core 1
  if c.lost || c.exposed then consumeUce s crew 5 else crewAbort (s.count ctrSramUe c.core 1) crew 5 clsUce 5 0

/-- The check value of a granule of a crew's windows comes to differ (08 R242): SPM1, SPM2 or SPM3 by `n % 4`. -/
def upsetSpad (s : State) (crew n : Nat) : State :=
  let flip (w : Spad) : Spad := { w with check := Tab.set 0 w.check (n / 4) (Tab.get 0 w.check (n / 4) ^^^ 1) }
  let g := (s.crew crew).gang
  if n % 4 = 0 then s.modSt crew fun st => { st with spm1 := flip st.spm1 }
  else if n % 4 = 1 then s.modGang g fun x => { x with spm2 := flip x.spm2 }
  else s.modTroop (s.gang g).troop fun x => { x with spm3 := flip x.spm3 }

/-- An error of the arrays and links, `code % 16` being its kind (08 R242, R243; 15 R458, R463).  A crew on its core receives an
uncorrectable one: 1 array ECC, 2 link CRC at quay `code / 16`, 3 check value, 4 malformed block, 5 SRAM, 6 SRAM and then the den
while the device restores.  Errors of the device: 7 a soft error corrected near the core `code / 16`; 8 an array error corrected at
the quay `code / 16`; 9 an array error that poisons the granule `code / 16`; 10 a link replay at the quay `code / 16`; 11 a check
value of the granule `code / 16` that differs; 12 a stored header that differs, `code / 16` the block times 256 plus the
difference; 13 a check value of the crew's scratchpad that differs. -/
def execUceConsume (crew code : Nat) (s : State) : Host.Outcome State Fault Refusal :=
  let kind := code % 16
  let n := code / 16
  if kind = 7 then .next (if n < 2048 then s.count ctrSramCe n 1 else s)
  else if kind = 8 then .next (if n < 256 then s.count ctrEccCe n 1 else s)
  else if kind = 9 then .next { s.count ctrEccUe (homeQuay (64 * n)) 1 with poison := Tab.set false s.poison n true }
  else if kind = 10 then .next (if n < 256 then s.count ctrLcrcRpl n 1 else s)
  else if kind = 11 then .next { s with check := Tab.set 0 s.check n (Tab.get 0 s.check n ^^^ 1) }
  else if kind = 12 then .next { s with
    headers := Tab.set 0 s.headers (n / 256) (Tab.get 0 s.headers (n / 256) ^^^ BitVec.ofNat 8 n) }
  else if !(onCore s crew && ((1 ≤ kind && kind ≤ 6) || kind = 13)) then .next s
  else if kind = 13 then .next (upsetSpad s crew n)
  else if kind = 6 then .next (consumeDen s crew)
  else
    let s := if kind = 5 then s.count ctrSramUe (s.coreOf crew) 1 else if kind = 2 && n < 256 then countLinkFail s n else s
    .next (consumeUce s crew kind)

/-! ### Walks and faults (08 R231 to R233; 17 R499) -/

def xkindOf (k : Nat) : XKind := if k = 1 then .write else if k = 2 then .fetch else .read
def xkindBits (k : Nat) : Nat := if k = 1 then 1 else if k = 2 then 2 else 0

/-- A walk for a requester of a core completes: the caches hold the leaf, or the fault is posted. -/
def execTranslationWalk (core asid va kind space : Nat) (s : State) : Host.Outcome State Fault Refusal :=
  let asked : Bool := s.crews.any fun x => onCore s x.1 && x.2.core == core &&
    (asid == if space = 6 then 0 else (s.launch x.2.launch).asid)
  if !asked || 2 ^ 54 ≤ va || 2 < kind || 15 < space || isWindow space then .next s
  else match walk s asid va (xkindOf kind) space with
    | .ok x => .next (noteXlate s core asid va x)
    | .error code =>
      let s := noteMiss s core asid va
      .next (if replayable code then postFault s (settOfCore core) asid va code (xkindBits kind) 0 core
        else queueRecord s (settOfCore core) asid va code (xkindBits kind) 0 core)

/-- Host physical addresses (17 R493). -/
def hostPa (a : Nat) : Nat := 2 ^ 50 + a % 2 ^ 48

def ringEn (ctl : W64) : Bool := ctl.getLsbD 5
def ringLen (ctl : W64) : Nat := 2 ^ (ctl.toNat % 32)

/-- The oldest waiting fault record goes to the ring, when it has room. -/
def execFaultRecordPost (s : State) : Host.Outcome State Fault Refusal :=
  let b := s.bar0
  match s.faultRecs with
  | [] => .next s
  | r :: l =>
    if ringEn b.fqCtl && (b.fqWidx - b.fqRidx).toNat < ringLen b.fqCtl then
      let s := performBytes s (hostPa (b.fqBase.toNat + 32 * (b.fqWidx.toNat % ringLen b.fqCtl))) r
      .next { s with faultRecs := l, bar0 := { s.bar0 with fqWidx := b.fqWidx + 1 } }
    else .next s

/-- Whether a pack stalls on a page. -/
def waitsPage (p : Pack) (asid page : Nat) : Bool :=
  p.live && p.wait.kind.isFault && p.wait.faults.any fun f => f.asid == asid && f.va / 65536 == page

/-- Whether a stalled access has no pending fault, so that it is to translate again. -/
def unposted (s : State) (asid va : Nat) : Bool := !faultPending s asid (va / 65536)

def unpostedAt (s : State) : Option (Nat × Nat × Nat) → Bool
  | some (a, va, _) => unposted s a va
  | none => false

/-- Every requester whose page has no pending fault translates again (R232, R233; 11 R325; 13 R393; 14 R438). -/
def wakeUnposted (s : State) : State :=
  let s : State := { s with
    packs := s.packs.map fun x => (x.1,
      if x.2.wait.kind.isFault && x.2.live && x.2.wait.faults.any (fun f => unposted s f.asid f.va) then
        { x.2 with wait := Wait.none } else x.2)
    crews := s.crews.map fun x => (x.1, match x.2.st.fox.wait with
      | .fault a page => if unposted s a (page * 65536) then
          { x.2 with st := { x.2.st with fox := { x.2.st.fox with wait := .none } } } else x.2
      | _ => x.2)
    queues := s.queues.map fun x => (x.1, if unpostedAt s x.2.stall then { x.2 with stall := none } else x.2)
    geos := s.geos.map fun x => (x.1, x.2.map fun g => if unpostedAt s g.stall then { g with stall := none } else g) }
  let s := (Tab.keys s.copies).foldl (fun s n => match (s.copyAt n).phase with
    | .abandoned a va _ => if unposted s a va then startReplay s n else s
    | _ => s) s
  (Tab.keys s.queues).foldl (fun s n => if (s.queue n).stall.isNone then settleQueue (flushWrites s n (s.queue n).writes.length) n else s) s

/-- The pending entries of a page are answered. -/
def clearPage (s : State) (asid page : Nat) : State :=
  { s with pendFaults := s.pendFaults.filter fun f => !(f.asid == asid && f.page == page) }

def execFaultRetry (asid page : Nat) (s : State) : Host.Outcome State Fault Refusal :=
  .next (if faultPending s asid page then wakeUnposted (clearPage s asid page) else s)

/-- The stalled instruction of a pack traps XLATE; the queries of a raynx end (14 R435, R438). -/
def fatalPack (s : State) (asid page pid : Nat) : State :=
  let p := s.pack pid
  if !waitsPage p asid page then s
  else
    let bad := p.wait.faults.filter fun f => f.asid == asid && f.va / 65536 == page
    match bad, p.wait.kind with
    | [], _ => s
    | _, .ray _ _ => bad.foldl (fun s f => setRay s p.crew (rayKey p.idx f.t) none) s
    | f :: _, _ => trapWaiting (setDead s pid) pid p.wait.size ⟨clsXlate, f.code, BitVec.ofNat 64 f.va, maskOf (bad.map (·.t))⟩

/-- The fault of a fox slot that stalls on a page (11 R344). -/
def fatalFox (s : State) (asid page crew : Nat) : State :=
  let code := ((s.pendFaults.find? fun f => f.asid == asid && f.page == page).map (·.code)).getD 1
  if (s.crew crew).st.fox.wait == .fault asid page then foxFault s crew ⟨clsXlate, code, 0, 0⟩ else s

def fatalCopy (s : State) (asid page id : Nat) : State :=
  match (s.copyAt id).phase with
  | .abandoned a va code =>
    if (s.copyAt id).live ∧ a = asid ∧ va / 65536 = page then endFatal s id ⟨clsXlate, code, BitVec.ofNat 64 va, 0⟩ else s
  | _ => s

def fatalGeo (s : State) (asid page id : Nat) : State :=
  match s.geoOp id with
  | some g => match g.stall with
    | some (a, va, code) => if a = asid ∧ va / 65536 = page then geoFatal s id g code va else s
    | none => s
  | none => s

/-- The access of a queue's own that stalls on a page fails (13 R393): a write is dropped, a COPY packet completes with the code,
another packet without a word. -/
def fatalQueue (s : State) (asid page n : Nat) : State :=
  let q := s.queue n
  match q.stall with
  | some (a, va, code) =>
    if a = asid ∧ va / 65536 = page then
      let s := haltQueue (s.modQueue n fun q => { q with stall := none }) n 4
      match q.staller with
      | .writes =>
        let s := s.modQueue n fun q => { q with writes := q.writes.tail }
        settleQueue (flushWrites s n q.writes.length) n
      | .read => s
      | .pkt idx => finishPkt s n idx (match (q.pkts.find? fun p => p.idx == idx).map (·.work) with
          | some (Work.copy _ _ _ _) => some (completionWord 4 code 0)
          | _ => none)
      | .device => match s.devLaunches.find? fun d => d.id.isNone && d.queue == n with
        | some d => dropDevice s d none
        | none => s
    else s
  | none => s

/-- The host declares a page's faults fatal. -/
def execFaultFatal (asid page : Nat) (s : State) : Host.Outcome State Fault Refusal :=
  if !faultPending s asid page then .next s
  else
    let s := (Tab.keys s.crews).foldl (fun s c => fatalFox s asid page c) s
    let s := (Tab.keys s.packs).foldl (fun s p => fatalPack s asid page p) s
    let s := (Tab.keys s.copies).foldl (fun s c => fatalCopy s asid page c) s
    let s := (Tab.keys s.geos).foldl (fun s g => fatalGeo s asid page g) s
    let s := (Tab.keys s.queues).foldl (fun s q => fatalQueue s asid page q) s
    .next (wakeUnposted (clearPage s asid page))

end Sys2Proof.Machine
end

