-- ==== Sys2Proof/Machine/Determ.lean ====
section
/-! DEFINITION. dhash, dmark, and the order gates of a replay (16 R478, R490 to R492). -/

namespace Sys2Proof.Machine

/-- The address that dhash.mix folds with every byte (R491). -/
def mixAddr : Nat := 2 ^ 54 - 1

/-- Folds bytes into a hash, all at the address of R491. -/
def mixBytes (h : W64) (l : List Byte) : W64 := l.foldl (fun h b => hashByte h mixAddr b) h

def dhashBody (c : Ctx) (p : Pack) : Except Trap Pack :=
  match encMod c.e with
  | 0 => .ok (wrS p c.e.d.toNat p.hash)
  | 1 => .ok (wrS p c.e.d.toNat (BitVec.ofNat 64 p.commit))
  | _ => .ok { p with hash := mixBytes p.hash (leBytes (rdS p (encA c.e)).toNat 8) }

def execDhash (e : Enc) (s : State) : Host.Outcome State Fault Refusal := issue (.dhash e) e (onPack dhashBody) s

/-- dmark: outside Track mode it does nothing; the issue count is what %clock would read (04 R121). -/
def dmarkBody (c : Ctx) (s : State) : Res :=
  let p := s.curPack
  let n := p.issues + 1
  match dispatchEvent s p.launch 3 p.lin c.e.b.toNat n (.trap clsDivg 3 (BitVec.ofNat 64 n)) with
  | .ok s => .done s 0
  | .error x => resOf c s (.stop x)

def execDmark (e : Enc) (s : State) : Host.Outcome State Fault Refusal := issue (.dmark e) e dmarkBody s

/-- Whether an access charged to a pack would still wait at a quay's gate. -/
def gateShut (s : State) (lid lin q : Nat) : Bool :=
  match replayAdmission s lid lin q with
  | .error (.gate _ _) => true
  | _ => false

/-- Whether a wait is at order gates of which a quay has one. -/
def WaitKind.waitsAt (k : WaitKind) (q : Nat) : Bool :=
  match k with
  | .gate qs => qs.contains q
  | _ => false

/-- Placed crews of a launch without a live pack. -/
def endingCrews (s : State) (lid : Nat) : List Nat :=
  (s.crews.filter fun x => x.2.live && x.2.launch == lid && x.2.phase == .placed && !(x.2.packs.any fun p => (s.pack p).live)).map (·.1)

/-- Crews whose end commit an order gate held back end where it lets them pass now (15 R454; 16 R478). -/
def settleEnded (s : State) (lid : Nat) : State := (endingCrews s lid).foldl settleCrew s

/-- A quay's order gate lets an access of the head chunk's pack through: the packs and fox slots whose access the gate would
admit or refuse for good try again (R478). -/
def execGateAdmit (launch quay : Nat) (s : State) : Host.Outcome State Fault Refusal :=
  if !(s.isTrack launch && (s.launch launch).track.replay) then .next s
  else .next (settleEnded { s with
    packs := s.packs.map fun x =>
      (x.1, if x.2.live && x.2.launch == launch && x.2.wait.kind.waitsAt quay && !gateShut s launch x.2.lin quay then
        { x.2 with wait := Wait.none } else x.2)
    crews := s.crews.map fun x =>
      (x.1, if x.2.live && x.2.launch == launch && x.2.st.fox.wait.waitsAt quay
          && !gateShut s launch (s.pack x.2.st.fox.by_).lin quay then
        { x.2 with st := { x.2.st with fox := { x.2.st.fox with wait := .none } } } else x.2) } launch)

end Sys2Proof.Machine
end

