-- ==== Sys2Proof/Machine/Command.lean ====
section
/-! DEFINITION. Management commands and their events (08 R235; 13 R386, R387, R405; 16 R488, R489; 17 R500, R502, R503). -/

namespace Sys2Proof.Machine

/-! ### The rings (17 R500) -/

/-- Requests of the host class for the granules of some bytes (01 R25). -/
def askHost (s : State) (pa n : Nat) : State := (granCuts pa n).foldl (fun s x => s.request 6 x.1) s

/-- A read of host physical memory: its requests, and the recall of what is gathered there (10 R291). -/
def hostReady (s : State) (a n : Nat) : State :=
  let pa := hostPa a
  (granCuts pa n).foldl (fun s x => recallNow s (x.1 / 64)) (askHost s pa n)

/-- The bytes that such a read gives. -/
def hostRead (s : State) (a n : Nat) : List Byte := (hostReady s a n).rdBytes (hostPa a) n

def hostWrite (s : State) (a : Nat) (bs : List Byte) : State := performBytes (askHost s (hostPa a) bs.length) (hostPa a) bs

/-- Where the next command lies. -/
def cmdAt (s : State) : Nat := s.bar0.mqBase.toNat + 64 * (s.bar0.mqRidx.toNat % ringLen s.bar0.mqCtl)

/-- The next command, if Kaltia may take one: none is under way. -/
def peekCmd (s : State) : Option (List Byte) :=
  let b := s.bar0
  if b.ready && ringEn b.mqCtl && b.mqRidx != b.mqWidx && s.cmd.isNone then some (hostRead s (cmdAt s) 64) else none

def cmdOp (b : List Byte) : Nat := fieldAt b 0 1
def cmdTag (b : List Byte) : W32 := BitVec.ofNat 32 (fieldAt b 4 4)
def cmdWord (b : List Byte) (off : Nat) : Nat := fieldAt b off 8

/-- The end of the operands of an opcode, and where they start. -/
def cmdOperands : Nat → Option (Nat × Nat)
  | 1 => some (8, 0x20)
  | 2 => some (8, 0x10)
  | 3 => some (8, 0x18)
  | 4 => some (8, 0x20)
  | 5 => some (8, 0x20)
  | 6 => some (8, 0x10)
  | 7 => some (8, 0x40)
  | 8 => some (8, 0x20)
  | _ => none

/-- A bad command: its opcode is unassigned, a byte that must be zero is not, or PREEMPT or QUEUE-CTL names no queue or action. -/
def cmdBad (b : List Byte) : Bool :=
  match cmdOperands (cmdOp b) with
  | none => true
  | some (_, n) =>
    !zeroAt b 1 3 || !zeroAt b n (64 - n) || (cmdOp b == 7 && !zeroAt b 0x10 16) || (cmdOp b == 2 && 1024 ≤ cmdWord b 8)
      || (cmdOp b == 8 && (1024 ≤ cmdWord b 8 || cmdWord b 0x10 == 0 || 2 < cmdWord b 0x10 || (cmdWord b 0x10 == 2 && cmdWord b 0x18 != 0)))

/-- The command has been read and leaves its ring. -/
def passCmd (s : State) : State :=
  let s := hostReady s (cmdAt s) 64
  { s with bar0 := { s.bar0 with mqRidx := s.bar0.mqRidx + 1 } }

/-- A command completes with an event of TYPE 1. -/
def endCmd (s : State) (tag : W32) (status : W64) : State :=
  { s with cmd := none, events := s.events ++ [eventBytes 1 tag.toNat status.toNat []] }

/-- Takes the next command if it is of an opcode and well formed, and runs it. -/
def takeCmd (s : State) (op : Nat) (f : State → W32 → List Byte → State) : State :=
  match peekCmd s with
  | some b => if cmdOp b = op ∧ !cmdBad b then f (passCmd s) (cmdTag b) b else s
  | none => s

def execBadCommand (s : State) : Host.Outcome State Fault Refusal :=
  match peekCmd s with
  | some b => .next (if cmdBad b then endCmd (passCmd s) (cmdTag b) 1 else s)
  | none => .next s

/-- The oldest waiting event goes to the event ring, when it has room. -/
def execEventPost (s : State) : Host.Outcome State Fault Refusal :=
  let b := s.bar0
  match s.events with
  | [] => .next s
  | r :: l =>
    if ringEn b.eqCtl && (b.eqWidx - b.eqRidx).toNat < ringLen b.eqCtl then
      let s := hostWrite s (b.eqBase.toNat + 64 * (b.eqWidx.toNat % ringLen b.eqCtl)) r
      .next { s with events := l, bar0 := { s.bar0 with eqWidx := b.eqWidx + 1 } }
    else .next s

/-! ### INVALIDATE (08 R235) -/

/-- Whether a cached translation lies in the range that the command names. -/
def invalidates (asid va n : Nat) (x : TlbEntry) : Bool :=
  let lo := x.page * 2 ^ pageBits x.level
  x.asid == asid && (n == 0 || (lo < va + n && va < lo + 2 ^ pageBits x.level))

def dropTlb (f : TlbEntry → Bool) (t : Tab (List TlbEntry)) : Tab (List TlbEntry) :=
  (t.map fun x => (x.1, x.2.filter fun e => !f e)).filter fun x => !x.2.isEmpty

/-- Granules of the gather buffers to which an ASID has contributed. -/
def gatheredOf (s : State) (asid : Nat) : List Nat :=
  nubNat (s.gather.flatMap fun x => (x.2.filter fun l => asid == 0 || l.asid == asid).map (·.gran))

/-- What an ASID has gathered performs at its homes, so that INVALIDATE may complete. -/
def drainGather (s : State) (asid : Nat) : State := (gatheredOf s asid).foldl recallNow s

/-- Whether stores translated before number `n` of an ASID are still buffered, or its reductions gathered. -/
def oldStores (s : State) (asid n : Nat) : Bool :=
  !(gatheredOf s asid).isEmpty || (s.crews.any fun x => x.2.live && x.2.isb.any fun i => i.loc.isPhys && i.ins < n && (asid == 0 || (s.launch x.2.launch).asid == asid))
    || (asid == 0 && s.spills.any fun x => x.2.any fun e => e.items.any fun i => i.2.ins < n)

def execInvalidate (s : State) : Host.Outcome State Fault Refusal :=
  match s.cmd with
  | some c =>
    .next (if c.op = 1 then
      let s := drainGather s (c.arg % 4096)
      if oldStores s (c.arg % 4096) (c.arg / 4096) then s else endCmd s c.tag 0
    else s)
  | none =>
    .next (takeCmd s 1 fun s tag b =>
      let asid := cmdWord b 8 % 4096
      let f := invalidates asid (cmdWord b 0x10) (cmdWord b 0x18)
      let s := drainGather { s with utlb := dropTlb f s.utlb, tlb := dropTlb f s.tlb } asid
      if oldStores s asid s.fresh then { s with cmd := some ⟨1, tag, asid + 4096 * s.fresh, []⟩ } else endCmd s tag 0)

/-! ### PREEMPT (13 R405) -/

/-- The order of a crew's present placement. -/
def seatOrder (s : State) (cid : Nat) : Nat := (((livePacks s cid).head?).map fun p => (s.pack p).order).getD 0

/-- Whether every crew that the command found placed has been saved or has ended. -/
def allSaved (s : State) (l : List (Nat × Nat)) : Bool := l.all fun x => !(onCore s x.1 && seatOrder s x.1 == x.2)

def execPreempt (s : State) : Host.Outcome State Fault Refusal :=
  match s.cmd with
  | some c => .next (if c.op = 2 ∧ allSaved s c.crews then endCmd s c.tag 0 else s)
  | none =>
    .next (takeCmd s 2 fun s tag b =>
      let cs := queueCrews s (cmdWord b 8)
      let s := cs.foldl requestStop s
      if cs.isEmpty then endCmd s tag 0 else { s with cmd := some ⟨2, tag, cmdWord b 8, cs.map fun c => (c, seatOrder s c)⟩ })

/-! ### LAUNCH-SV -/

/-- Reads and checks the header; a replayable fault leaves the command untaken until the host has resolved it. -/
def startSv (s : State) (b : List Byte) : State :=
  let asid := cmdWord b 0x10 % 4096
  let tag := cmdTag b
  match loadLaunch s ⟨asid, cmdWord b 8, false, none⟩ with
  | .ok (s, x) =>
    let (id, s) := makeLaunch s (.command tag) noQueue asid 3 0 true x
    { noteMarks (passCmd s) id [] with cmd := some ⟨3, tag, id, []⟩ }
  | .error (.fault code a va w) =>
    if replayable code then (if faultPending s a (va / 65536) then s else postFault s 0 a va code (bit w) 6 0)
    else endCmd (passCmd (queueRecord s 0 a va code (bit w) 6 0)) tag (Config.openStatus 3)
  | .error (.reject _) => endCmd (passCmd (s.count ctrLnRej 0 1)) tag (Config.openStatus 3)
  | .error .bad => endCmd (passCmd s) tag (Config.openStatus 3)

def execLaunchSv (s : State) : Host.Outcome State Fault Refusal :=
  match s.cmd with
  | some c => .next (if c.op = 3 ∧ !(s.launch c.arg).live then endCmd s c.tag 0 else s)
  | none => match peekCmd s with
    | some b => .next (if cmdOp b = 3 ∧ !cmdBad b then startSv s b else s)
    | none => .next s

/-! ### Manifests (16 R488, R489) and attestation (17 R502) -/

def asciiBytes (l : List Nat) : List Byte := l.map fun n => BitVec.ofNat 8 n

/-- AV-V3C or AV-V3M. -/
def orderingCode : List Byte := asciiBytes [0x41, 0x56, 0x2D, 0x56, 0x33, if Config.isModule then 0x4D else 0x43]

def firmwareHashes : List Byte := (List.range 3).flatMap fun i => Config.sha256 (Config.firmware i)

/-- The table of the launch's shape records (08 R237). -/
def shapeBytes (s : State) (asid : Nat) : List Byte :=
  let e := s.rdNat (s.bar0.asidt.toNat + 16 * asid) 16
  if bitAt e 64 then s.rdBytes (bits e 77 43 * 2 ^ 13) 8192 else []

/-- The placements of a launch: KIND 1 entries, or the Free-mode placements in the same form. -/
def placementBytes (l : Launch) : List Byte := l.placements.flatMap fun x => leBytes (entryOf 1 x.1 x.2 0) 16

/-- The port map: port, whether it is up, and its peer. -/
def portBytes (s : State) : List Byte :=
  (s.ports.filter fun x => x.2.up).flatMap fun x => leBytes x.1 1 ++ leBytes x.2.peer 1

def manifestField (id : Nat) (v : List Byte) : List Byte := leBytes id 2 ++ leBytes v.length 2 ++ v

/-- THROT: the clocks are lowered or stopped. -/
def Power.throt (p : Power) : Bool := p.level != 0 || p.lowTherm || p.gated || p.therm

/-- The effective package cap (17 R503, R504). -/
def capOf (s : State) : Nat := if s.power.coolantLow && Config.isModule then min s.power.cap 2000 else s.power.cap

/-- A half of the quay clock in kHz at which the arithmetic clock does not fall below 0.7 GHz (17 R503). -/
def clockFloor : Nat := 233334

/-- A half of the quay clock in kHz after some lowerings for the cap, each to a lower clock unless it is at the floor (17 R503). -/
def loweredUnit : Nat → Nat
  | 0 => 700000
  | n + 1 =>
    let u := loweredUnit n
    if u ≤ clockFloor then u else clockFloor + Config.clockUnit n % (u - clockFloor)

/-- The clocks in kHz, arithmetic and quay: 2.1 and 1.4 GHz, or throttled together; always three to two (01 R20). -/
def clocksKHz (s : State) : Nat × Nat :=
  let u := loweredUnit s.power.level
  let u := if s.power.lowTherm || s.power.therm then Config.thermalUnit % u else u
  (3 * u, 2 * u)

/-- The fields of a launch's manifest. -/
def manifestBody (s : State) (l : Launch) : List Byte :=
  let h := l.hdr
  manifestField 1 orderingCode
    ++ manifestField 2 firmwareHashes
    ++ manifestField 3 (leBytes h.bver 2)
    ++ manifestField 4 (leBytes h.fenv.toNat 4 ++ leBytes h.dmode 1 ++ leBytes h.prio 1 ++ leBytes h.quantum 8)
    ++ manifestField 5 (Config.sha256 (Config.interleaveCode ++ shapeBytes s l.asid))
    ++ manifestField 6 (Config.sha256 (placementBytes l))
    ++ manifestField 7 (Config.sha256 (portBytes s))
    ++ manifestField 8 (leBytes (clocksKHz s).1 4 ++ leBytes (clocksKHz s).2 4)
    ++ manifestField 9 (leBytes (capOf s) 4)

/-- A signed list of bytes. -/
def signed (b : List Byte) : List Byte := b ++ Config.signature b

/-- The launch that a header address names: the latest one. -/
def launchOf (s : State) (hdr : Nat) : Option Launch :=
  (((s.launches.filter fun x => x.2.hdr.addr == hdr && x.2.hdr != Header.blank).getLast?).map (·.2))

def makeManifest (s : State) (tag : W32) (b : List Byte) : State :=
  match launchOf s (cmdWord b 8) with
  | none => endCmd s tag (Config.openStatus 4)
  | some l =>
    let body := manifestBody s l
    let s : State := { s with fresh := s.fresh + 1 }
    if cmdWord b 0x18 < body.length + 7856 then endCmd s tag 2
    else endCmd (hostWrite s (cmdWord b 0x10) (signed body)) tag 0

def execMakeManifest (s : State) : Host.Outcome State Fault Refusal := .next (takeCmd s 4 makeManifest)

/-- Nine fields from an address: ids and values, and the length of the list. -/
def readFields (s : State) (a : Nat) : Nat → Nat → List (Nat × List Byte) × Nat
  | 0, off => ([], off)
  | n + 1, off =>
    let id := leNat (hostRead s (a + off) 2)
    let len := leNat (hostRead s (a + off + 2) 2)
    let v := hostRead s (a + off + 4) len
    let r := readFields s a n (off + 4 + len)
    ((id, v) :: r.1, r.2)

/-- Whether the signature of the manifest at an address holds over its list of `n` bytes. -/
def signatureOk (s : State) (a n : Nat) : Bool := hostRead s (a + n) 7856 == Config.signature (hostRead s a n)

/-- The state after the read of the manifest at an address, with its signature. -/
def manifestReady (s : State) (a : Nat) : State := hostReady s a ((readFields s a 9 0).2 + 7856)

/-- A value as a comparison reports it (R489): its length and 64 bytes. -/
def reported (v : List Byte) : List Byte :=
  let x := if 64 < v.length then Config.sha256 v else v
  leBytes x.length 4 ++ x ++ List.replicate (64 - x.length) 0

/-- The result of a comparison: the code, the index or id, and both values. -/
def compareResult (s : State) (a b : Nat) : List Byte :=
  let (fa, na) := readFields s a 9 0
  let (fb, nb) := readFields s b 9 0
  if !signatureOk s a na then leBytes 2 4 ++ leBytes 0 4
  else if !signatureOk s b nb then leBytes 2 4 ++ leBytes 1 4
  else
    let ids := sortNat (nubNat (fa.map (·.1) ++ fb.map (·.1)))
    let val (l : List (Nat × List Byte)) (id : Nat) : List Byte := ((l.find? fun x => x.1 == id).map (·.2)).getD []
    match ids.find? fun id => val fa id != val fb id with
    | none => leBytes 0 4 ++ leBytes 0 4
    | some id => leBytes 1 4 ++ leBytes id 4 ++ reported (val fa id) ++ reported (val fb id)

def execCompareManifest (s : State) : Host.Outcome State Fault Refusal :=
  .next (takeCmd s 5 fun s tag b =>
    let r := compareResult s (cmdWord b 8) (cmdWord b 0x10)
    endCmd (hostWrite (manifestReady (manifestReady s (cmdWord b 8)) (cmdWord b 0x10)) (cmdWord b 0x18) r) tag 0)

def execAttest (s : State) : Host.Outcome State Fault Refusal :=
  .next (takeCmd s 7 fun s tag b =>
    endCmd (hostWrite s (cmdWord b 8) (signed ((b.drop 0x20).take 32 ++ firmwareHashes ++ orderingCode))) tag 0)

/-! ### SET-CAP (17 R503) -/

def execSetCap (s : State) : Host.Outcome State Fault Refusal :=
  .next (takeCmd s 6 fun s tag b =>
    let w := cmdWord b 8
    if 1500 ≤ w ∧ w ≤ 3000 then endCmd { s with power := { s.power with cap := w } } tag 0 else endCmd s tag 2)

/-! ### QUEUE-CTL (13 R386, R387) -/

/-- A descriptor in its ring, if it is enabled and in range. -/
def parseRing (b : List Byte) : Option Queue :=
  let base := fieldAt b 0 8
  let log2n := fieldAt b 8 1
  let prio := fieldAt b 9 1
  let asid := fieldAt b 0x0A 2
  let ctxa := fieldAt b 0x18 8
  let ctxsz := fieldAt b 0x20 8
  if fieldAt b 0x0C 4 = 1 ∧ 4 ≤ log2n ∧ log2n ≤ 20 ∧ prio ≤ 3 ∧ 1 ≤ asid ∧ asid ≤ 4095 ∧ base % (64 * 2 ^ log2n) = 0
      ∧ base + 64 * 2 ^ log2n ≤ 2 ^ 54 ∧ ctxa % 65536 = 0 ∧ ctxsz % 65536 = 0 ∧ ctxa + ctxsz ≤ 2 ^ 54 ∧ zeroAt b 0x28 24 then
    some { Queue.blank with
      enabled := true, base := base, log2n := log2n, prio := prio, asid := asid, ridxwb := fieldAt b 0x10 8, ctxa := ctxa, ctxsz := ctxsz }
  else none

/-- Enables a queue that is disabled. -/
def enableQueue (s : State) (n : Nat) (start : W64) (tag : W32) : State :=
  let s := readyRead (askHost s (s.bar0.rdtBase.toNat + 64 * n) 64) [(s.bar0.rdtBase.toNat + 64 * n) / 64]
  match parseRing (s.rdBytes (s.bar0.rdtBase.toNat + 64 * n) 64) with
  | some q => endCmd (s.setQueue n { q with ridx := start, widx := start }) tag 0
  | none => endCmd (s.modQueue n fun q => { q with errc := 5 }) tag 2

/-- A queue takes no further packet; a WAIT packet is withdrawn. -/
def startDisable (s : State) (n : Nat) : State :=
  s.modQueue n fun q => { q with
    disabling := true
    pkts := q.pkts.filter fun p => match p.work with
      | .wait _ _ _ _ _ => false
      | _ => true }

/-- Whether nothing of a queue is unfinished. -/
def queueDrained (s : State) (n : Nat) : Bool :=
  let q := s.queue n
  q.pkts.isEmpty && q.writes.isEmpty && !(s.launches.any fun x => x.2.live && x.2.queue == n) && !(s.devLaunches.any fun d => d.queue == n)

/-- A drained queue is disabled: it holds no slot. -/
def disableQueue (s : State) (n : Nat) : State :=
  s.modQueue n fun q => { q with enabled := false, disabling := false, slot := false, slotAged := false, leaving := false, aged := 0 }

/-- The number under which a QUEUE-CTL command waits: the queue, whether it enables afterwards, and the start index. -/
def ctlArg (n : Nat) (enable : Bool) (start : Nat) : Nat := n + 1024 * bit enable + 2048 * start

/-- A QUEUE-CTL command that waits for its queue to drain goes on. -/
def resumeCtl (s : State) (c : Cmd) : State :=
  let n := c.arg % 1024
  if !queueDrained s n then s
  else
    let s := disableQueue s n
    if c.arg / 1024 % 2 = 1 then enableQueue s n (BitVec.ofNat 64 (c.arg / 2048)) c.tag else endCmd s c.tag 0

/-- QUEUE-CTL with one action. -/
def queueCtl (s : State) (enable : Bool) : State :=
  match s.cmd with
  | some c => if c.op = 8 ∧ (c.arg / 1024 % 2 == 1) = enable then resumeCtl s c else s
  | none =>
    match peekCmd s with
    | none => s
    | some b =>
      if cmdOp b = 8 ∧ !cmdBad b ∧ (cmdWord b 0x10 == 1) = enable then
        let n := cmdWord b 8
        let tag := cmdTag b
        let start := cmdWord b 0x18
        let s := passCmd s
        if (s.queue n).enabled then
          let c : Cmd := ⟨8, tag, ctlArg n enable start, []⟩
          resumeCtl { startDisable s n with cmd := some c } c
        else if enable then enableQueue s n (BitVec.ofNat 64 start) tag
        else endCmd s tag 0
      else s

def execQueueEnable (s : State) : Host.Outcome State Fault Refusal := .next (queueCtl s true)
def execQueueDisable (s : State) : Host.Outcome State Fault Refusal := .next (queueCtl s false)

end Sys2Proof.Machine
end

