-- ==== Sys2Proof/Machine/Float.lean ====
section
/-! DEFINITION. The floating-point lanes (06 R175 to R195): arithmetic, elementary functions, comparison, conversion, packing,
quantisation scales, the slice residual, and the flag and mode instructions. -/

namespace Sys2Proof.Machine

/-! ### Common forms -/

/-- The lane format of an instruction's type. -/
def fmtOf (e : Enc) (dflt : Nat) : Fmt := (laneFmt (encTy e dflt)).getD f32

/-- One source of the type's width. -/
def fp1 (dflt m : Nat) (f : Fmt → RMode → Nat → Nat × Fl) (c : Ctx) (p : Pack) : Except Trap Pack :=
  let n := typeBits (encTy c.e dflt)
  laneOp c (if m = 0 then n else m) false 0
    (fun j _ => f (fmtOf c.e dflt) (rmOf p c.e) (rdSrc p (srcA c.e) n j.t j.i j.j)) p

/-- Two sources of the type's width. -/
def fp2 (dflt : Nat) (f : Fmt → RMode → Nat → Nat → Nat × Fl) (c : Ctx) (p : Pack) : Except Trap Pack :=
  let n := typeBits (encTy c.e dflt)
  laneOp c n false 0
    (fun j _ => f (fmtOf c.e dflt) (rmOf p c.e) (rdSrc p (srcA c.e) n j.t j.i j.j) (rdSrc p (srcB c.e) n j.t j.i j.j)) p

/-! ### Arithmetic (R175, R176) -/

def execFaddF32 (e : Enc) (s : State) : Host.Outcome State Fault Refusal := issue (.faddF32 e) e (onPack (fp2 0x0D fAdd)) s
def execFaddF64 (e : Enc) (s : State) : Host.Outcome State Fault Refusal := issue (.faddF64 e) e (onPack (fp2 0x0E fAdd)) s
def execFmulF32 (e : Enc) (s : State) : Host.Outcome State Fault Refusal := issue (.fmulF32 e) e (onPack (fp2 0x0D fMul)) s
def execFmulF64 (e : Enc) (s : State) : Host.Outcome State Fault Refusal := issue (.fmulF64 e) e (onPack (fp2 0x0E fMul)) s

/-- The addend: C, or D in the base form (R172). -/
def srcAddend (e : Enc) : Src := if e.ext.isSome then srcC e else .vec (encD e) 0

def fmaBody (dflt : Nat) (c : Ctx) (p : Pack) : Except Trap Pack :=
  let n := typeBits (encTy c.e dflt)
  laneOp c n false 0
    (fun j _ => fFma (fmtOf c.e dflt) (rmOf p c.e) (rdSrc p (srcA c.e) n j.t j.i j.j) (rdSrc p (srcB c.e) n j.t j.i j.j)
      (rdSrc p (srcAddend c.e) n j.t j.i j.j)) p

def execFfmaF32 (e : Enc) (s : State) : Host.Outcome State Fault Refusal := issue (.ffmaF32 e) e (onPack (fmaBody 0x0D)) s
def execFfmaF64 (e : Enc) (s : State) : Host.Outcome State Fault Refusal := issue (.ffmaF64 e) e (onPack (fmaBody 0x0E)) s
def execFdiv (e : Enc) (s : State) : Host.Outcome State Fault Refusal := issue (.fdiv e) e (onPack (fp2 0x0D fDiv)) s
def execFsqrt (e : Enc) (s : State) : Host.Outcome State Fault Refusal := issue (.fsqrt e) e (onPack (fp1 0x0D 0 fSqrt)) s

/-! ### Elementary functions (R177) -/

def execFrcp (e : Enc) (s : State) : Host.Outcome State Fault Refusal :=
  issue (.frcp e) e (onPack (fp1 0x0D 0 fun f _ a => fRcp f a)) s
def execFrsq (e : Enc) (s : State) : Host.Outcome State Fault Refusal :=
  issue (.frsq e) e (onPack (fp1 0x0D 0 fun f _ a => fRsq f a)) s
def execFex2 (e : Enc) (s : State) : Host.Outcome State Fault Refusal :=
  issue (.fex2 e) e (onPack (fp1 0x0D 0 fun _ _ a => fEx2 a)) s
def execFlg2 (e : Enc) (s : State) : Host.Outcome State Fault Refusal :=
  issue (.flg2 e) e (onPack (fp1 0x0D 0 fun _ _ a => fLg2 a)) s

/-- Under behaviour version 2 a finite nonzero input takes the Zynilo-2 table value (R177, 16 R473). -/
def versioned (bver : Nat) (tab : W32 → BitVec 4) (f : RMode → Nat → Nat × Fl) (a : Nat) : Nat × Fl :=
  let x := f32.read a
  if bver = 2 && !x.isNan && !x.isInf && !x.isZero then tableValue (tab (BitVec.ofNat 32 a)) (f .rdn a).1 (f .rup a).1
  else f .rne a

def execFsin (e : Enc) (s : State) : Host.Outcome State Fault Refusal :=
  issue (.fsin e) e (fun c s =>
    onPack (fp1 0x0D 0 fun _ _ a => versioned s.curLaunch.hdr.bver Config.fsinV2 fSinM a) c s) s
def execFcos (e : Enc) (s : State) : Host.Outcome State Fault Refusal :=
  issue (.fcos e) e (fun c s =>
    onPack (fp1 0x0D 0 fun _ _ a => versioned s.curLaunch.hdr.bver Config.fcosV2 fCosM a) c s) s

/-! ### Comparison, selection and classification (R178 to R180) -/

def execFmin (e : Enc) (s : State) : Host.Outcome State Fault Refusal :=
  issue (.fmin e) e (onPack fun c p => fp2 0x0D (fun f _ a b => fMinMax f false (encModBit c.e 0) a b) c p) s
def execFmax (e : Enc) (s : State) : Host.Outcome State Fault Refusal :=
  issue (.fmax e) e (onPack fun c p => fp2 0x0D (fun f _ a b => fMinMax f true (encModBit c.e 0) a b) c p) s

/-- The numeric order of R179, zeros equal. -/
def fBelow (x y : FVal) : Bool :=
  match x, y with
  | .inf n, .inf m => n && !m
  | .inf n, _ => n
  | _, .inf m => !m
  | _, _ => x.dy.lt y.dy

/-- fcmp: the condition, and the flags it raises (R179). -/
def fCmp (f : Fmt) (cond : Nat) (quiet : Bool) (a b : Nat) : Bool × Fl :=
  let x := f.read a
  let y := f.read b
  if x.isNan || y.isNan then
    let inv : Bool := x.isSig || y.isSig || (2 ≤ cond && cond ≤ 5 && !quiet)
    (cond == 1 || cond == 6, if inv then NV else 0)
  else
    let lt := fBelow x y
    let gt := fBelow y x
    let r : Bool := match cond with
      | 0 => !lt && !gt
      | 1 => lt || gt
      | 2 => lt
      | 3 => !gt
      | 4 => gt
      | 5 => !lt
      | 6 => false
      | _ => true
    (r, 0)

def fcmpBody (c : Ctx) (p : Pack) : Except Trap Pack :=
  let n := typeBits (encTy c.e 0x0D)
  lanePred c (fun t => fCmp (fmtOf c.e 0x0D) (encMod c.e % 8) (encModBit c.e 3) (rdSrc p (srcA c.e) n t 0 0)
    (rdSrc p (srcB c.e) n t 0 0)) p

def execFcmp (e : Enc) (s : State) : Host.Outcome State Fault Refusal := issue (.fcmp e) e (onPack fcmpBody) s

/-- The bit number of a value's class (R180). -/
def fClassBit (f : Fmt) (a : Nat) : Nat :=
  match f.read a with
  | .nan _ s _ => if s then 0 else 1
  | .inf n => if n then 2 else 9
  | .num n m _ =>
    if m = 0 then (if n then 5 else 6)
    else if bits a f.mbits f.ebits = 0 then (if n then 4 else 7)
    else if n then 3 else 8

def execFclass (e : Enc) (s : State) : Host.Outcome State Fault Refusal :=
  issue (.fclass e) e (onPack (fp1 0x0D 32 fun f _ a => (2 ^ fClassBit f a, 0))) s

/-! ### Integral values, exponents and signs (R181 to R184) -/

def fRnd (x : Bool) (f : Fmt) (md : RMode) (a : Nat) : Nat × Fl :=
  match f.read a with
  | .nan n s fr => nanResult f [.nan n s fr]
  | .inf _ => (a, 0)
  | .num n m e =>
    if m = 0 then (a, 0)
    else
      let (i, exact) := roundInt md 0 (FVal.num n m e).dy
      ((roundDy f .rne false 0 n (Dy.ofInt i)).1, if x && !exact then NX else 0)

def execFrnd (e : Enc) (s : State) : Host.Outcome State Fault Refusal :=
  issue (.frnd e) e (onPack fun c p => fp1 0x0D 0 (fRnd (encModBit c.e 0)) c p) s

/-- a × 2^n.  Beyond 8,192 either way every finite nonzero input overflows or lies far below the smallest subnormal. -/
def fScb (f : Fmt) (md : RMode) (a n : Nat) : Nat × Fl :=
  match f.read a with
  | .nan ng s fr => nanResult f [.nan ng s fr]
  | .inf _ => (a, 0)
  | .num ng m e => if m = 0 then (a, 0) else roundTo f md false 0 ng m 1 (e + clampI (-8192) 8192 (toS 32 n))

def fscbBody (c : Ctx) (p : Pack) : Except Trap Pack :=
  let n := typeBits (encTy c.e 0x0D)
  laneOp c n false 0
    (fun j _ => fScb (fmtOf c.e 0x0D) (rmOf p c.e) (rdSrc p (srcA c.e) n j.t j.i j.j) (rdSrc p (srcB c.e) 32 j.t j.i j.j)) p

def execFscb (e : Enc) (s : State) : Host.Outcome State Fault Refusal := issue (.fscb e) e (onPack fscbBody) s

def fLgb (f : Fmt) (a : Nat) : Nat × Fl :=
  match f.read a with
  | .num _ m e => if m = 0 then (0x80000000, NV) else (ofI 32 (flog2 m 1 e), 0)
  | _ => (0x7FFFFFFF, NV)

def execFlgb (e : Enc) (s : State) : Host.Outcome State Fault Refusal :=
  issue (.flgb e) e (onPack (fp1 0x0D 32 fun f _ a => fLgb f a)) s

/-- The sign bit of the result: .cp, .xs, .abs, .neg (R184). -/
def signOf (mod : Nat) (a b : Bool) : Bool :=
  match mod with
  | 0 => b
  | 1 => a != b
  | 2 => false
  | _ => !a

def execFcsg (e : Enc) (s : State) : Host.Outcome State Fault Refusal :=
  issue (.fcsg e) e (onPack fun c p => fp2 0x0D (fun f _ a b =>
    let k := f.ebits + f.mbits
    (a % 2 ^ k + 2 ^ k * bit (signOf (encMod c.e % 4) (bitAt a k) (bitAt b k)), 0)) c p) s

/-! ### Conversions (R185 to R187) -/

/-- The source type of f2i, i2f, f2f and cvtup (R172). -/
def srcTy (e : Enc) (dflt : Nat) : Nat := if encMod e % 32 = 0 then dflt else encMod e % 32

/-- Draws that an element of a conversion takes (R169, 03 R90). -/
def drawsOf (e : Enc) : Nat := if (encX e).rm = 5 then 1 else 0

def f2iVal (f : Fmt) (md : RMode) (x signed : Bool) (n a : Nat) : Nat × Fl :=
  let lo : Int := if signed then -((2 ^ (n - 1) : Nat) : Int) else 0
  let hi : Int := if signed then (2 ^ (n - 1) : Nat) - 1 else (2 ^ n : Nat) - 1
  match f.read a with
  | .nan .. => (0, NV)
  | .inf ng => (ofI n (if ng then lo else hi), NV)
  | .num ng m e =>
    let (i, exact) := roundInt md 0 (FVal.num ng m e).dy
    if i < lo then (ofI n lo, NV)
    else if hi < i then (ofI n hi, NV)
    else (ofI n i, if x && !exact then NX else 0)

def f2iBody (c : Ctx) (p : Pack) : Except Trap Pack :=
  let ty := encTy c.e 3
  let st := srcTy c.e 0x0D
  laneOp c (typeBits ty) (typeSigned ty) 0
    (fun j _ => f2iVal ((laneFmt st).getD f32) (rmOf p c.e) (encModBit c.e 5) (typeSigned ty) (typeBits ty)
      (rdSrc p (srcA c.e) (typeBits st) j.t j.i j.j)) p

def execF2i (e : Enc) (s : State) : Host.Outcome State Fault Refusal := issue (.f2i e) e (onPack f2iBody) s

def i2fBody (c : Ctx) (p : Pack) : Except Trap Pack :=
  let ty := encTy c.e 0x0D
  let st := srcTy c.e 3
  laneOp c (typeBits ty) false (drawsOf c.e)
    (fun j u =>
      let a := rdSrc p (srcA c.e) (typeBits st) j.t j.i j.j
      let i : Int := if typeSigned st then toS (typeBits st) a else a
      roundDy ((laneFmt ty).getD f32) (rmOf p c.e) false (u.headD 0) false (Dy.ofInt i)) p

def execI2f (e : Enc) (s : State) : Host.Outcome State Fault Refusal := issue (.i2f e) e (onPack i2fBody) s

/-- Whether every value of a lane format is one of another. -/
def widens (src dst : Nat) : Bool :=
  (dst == 0x0E) || (dst == 0x0D && src != 0x0E)

def f2fBody (c : Ctx) (p : Pack) : Except Trap Pack :=
  let ty := encTy c.e 0x0D
  let st := srcTy c.e 0x0E
  let sf := (laneFmt st).getD f32
  let df := (laneFmt ty).getD f32
  laneOp c (typeBits ty) false (drawsOf c.e)
    (fun j u =>
      let a := rdSrc p (srcA c.e) (typeBits st) j.t j.i j.j
      if widens st ty then widen sf df a else narrow df (rmOf p c.e) (encModBit c.e 5) (u.headD 0) (sf.read a)) p

def execF2f (e : Enc) (s : State) : Host.Outcome State Fault Refusal := issue (.f2f e) e (onPack f2fBody) s

/-! ### Packing (R188 to R190) -/

/-- Elements converted in order, each with its draw: the codes and the flags. -/
def encodeAll (t : Nat) (scl : Option ScaleWord) (md : RMode) (sat : Bool) : List FVal → List Nat → List Nat × Fl
  | [], _ => ([], 0)
  | v :: vs, us =>
    let (k, fl) := encodeElem t scl md sat (us.headD 0) v
    let (ks, fl') := encodeAll t scl md sat vs us.tail
    (k :: ks, fl ||| fl')

/-- Elements of `n` bits side by side. -/
def packElems (n : Nat) : List Nat → Nat
  | [] => 0
  | k :: l => k + 2 ^ n * packElems n l

/-- The sources of cvtpk: vA and vB, or the quad from vA. -/
def cvtpkSources (c : Ctx) (p : Pack) (j : Job) (ty : Nat) : List Nat :=
  if typeBits ty = 16 then [rdSrc p (srcA c.e) 32 j.t 0 0, rdSrc p (srcB c.e) 32 j.t 0 0]
  else (List.range 4).map fun k => rdV p (encA c.e + k) j.t

/-- cvtpk.  A uniform destination takes one draw in all (03 R90, 06 R173), and both parts round with it (DEDUCED, log entry 24). -/
def cvtpkBody (c : Ctx) (p : Pack) : Except Trap Pack :=
  let ty := encTy c.e 0
  let sat := encModBit c.e 0
  let hi := encModBit c.e 1
  let scl := encModBit c.e 2
  let n := typeBits ty
  let one := (encX c.e).kd
  let draws := if drawsOf c.e = 0 then 0 else if one then 1 else if n = 16 then 2 else 4
  laneOp c 32 false draws
    (fun j u =>
      let u := if one then List.replicate 2 (u.headD 0) else u
      let w := if scl then some (ScaleWord.ofNat (rdSrc p (srcC c.e) 32 j.t 0 0)) else none
      let (ks, fl) := encodeAll ty w (rmOf p c.e) sat ((cvtpkSources c p j ty).map f32.read) u
      if n = 16 then (packElems 16 ks, fl)
      else if n = 4 then
        let old := rdV p (encD c.e) j.t
        (if hi then old % 65536 + 65536 * packElems 4 ks else old / 65536 * 65536 + packElems 4 ks, fl)
      else (packElems 8 ks, fl)) p

def execCvtpk (e : Enc) (s : State) : Host.Outcome State Fault Refusal := issue (.cvtpk e) e (onPack cvtpkBody) s

/-- The packed elements of a word. -/
def unpackElems (n : Nat) (hi : Bool) (w : Nat) : List Nat :=
  if n = 16 then [w % 65536, w / 65536]
  else if n = 4 then (List.range 4).map fun k => bits w (4 * k + (if hi then 16 else 0)) 4
  else (List.range 4).map fun k => bits w (8 * k) n

def cvtupBody (c : Ctx) (p : Pack) : Except Trap Pack :=
  let st := srcTy c.e 0x0B
  let f := (elemFmt st).getD f16
  laneRegsFl c (fun t =>
    let els := (unpackElems (typeBits st) (encModBit c.e 5) (rdSrc p (srcA c.e) 32 t 0 0)).map (widen f f32)
    ((List.range els.length).map fun k => (encD c.e + k, (els.getD k (0, 0)).1), els.foldl (fun a x => a ||| x.2) 0)) p

def execCvtup (e : Enc) (s : State) : Host.Outcome State Fault Refusal := issue (.cvtup e) e (onPack cvtupBody) s

/-! ### Scales and residuals (R191, R193) -/

def qsclBody (c : Ctx) (p : Pack) : Except Trap Pack :=
  laneOp c 32 false 0
    (fun j _ => qscl (encTy c.e 0) (encModBit c.e 0) (rdSrc p (srcA c.e) 32 j.t 0 0) (rdSrc p (srcB c.e) 32 j.t 0 0)) p

def execQscl (e : Enc) (s : State) : Host.Outcome State Fault Refusal := issue (.qscl e) e (onPack qsclBody) s

/-- The residual of `s` digits under block exponent `ex` (R193). -/
def slresVal (f : Fmt) (s : Nat) (ex : Int) (a : Nat) : Nat × Fl :=
  match f.read a with
  | .num n m e =>
    if m = 0 then (a, 0)
    else if toS 32 (ofI 32 (ex + 1)) ≤ flog2 m 1 e then (f.qnan, NV)
    else
      let sh : Int := 7 * s - 1 - ex
      if flog2 m 1 e + sh < 0 then (a, 0)
      else
        let x := (FVal.num n m e).dy
        let k := truncInt (x.scale sh)
        let r := x.sub ⟨k, -sh⟩
        (roundDy f .rne false 0 false r).1 |> fun y => (y, 0)
  | _ => (f.qnan, NV)

def slresBody (c : Ctx) (p : Pack) : Except Trap Pack :=
  let n := typeBits (encTy c.e 0x0E)
  laneOp c n false 0
    (fun j _ => slresVal (fmtOf c.e 0x0E) (encMod c.e % 16) (toS 32 (rdSrc p (srcB c.e) 32 j.t 0 0))
      (rdSrc p (srcA c.e) n j.t 0 0)) p

def execSlres (e : Enc) (s : State) : Host.Outcome State Fault Refusal := issue (.slres e) e (onPack slresBody) s

/-! ### Flags and modes (R194, R195) -/

/-- The flags after .rd, .clr and .set. -/
def fflgNew (mod : Nat) (old b : Fl) : Fl :=
  match mod with
  | 1 => old &&& ~~~b
  | 2 => old ||| b
  | _ => old

def fflgBody (c : Ctx) (p : Pack) : Except Trap Pack :=
  let l := (lanesOf c.m p.width).map fun t => (t, (packThread p t).fflags, BitVec.ofNat 5 (rdSrc p (srcB c.e) 32 t 0 0))
  .ok (l.foldl (fun q x =>
    packModThread (wrV q (encD c.e) x.1 x.2.1.toNat) x.1 fun th => { th with fflags := fflgNew (encMod c.e % 4) x.2.1 x.2.2 }) p)

def execFflg (e : Enc) (s : State) : Host.Outcome State Fault Refusal := issue (.fflg e) e (onPack fflgBody) s

/-- frm: the old mode goes to sD; an immediate above 4 traps ILLOP 13 (R195). -/
def frmBody (c : Ctx) (p : Pack) : Except Trap Pack :=
  let k := c.e.b.toNat
  if 4 < k then .error (c.openTrap clsIllop 13 (BitVec.ofNat 64 k))
  else if encModBit c.e 0 then
    let old := p.fenv.toNat / 256 % 8
    .ok { wrS p c.e.d.toNat (BitVec.ofNat 64 old) with fenv := BitVec.ofNat 32 (putBits p.fenv.toNat 8 3 k) }
  else .ok { wrS p c.e.d.toNat (BitVec.ofNat 64 p.rm.toNat) with rm := BitVec.ofNat 32 k }

def execFrm (e : Enc) (s : State) : Host.Outcome State Fault Refusal := issue (.frm e) e (onPack frmBody) s

end Sys2Proof.Machine
end

