-- ==== Sys2Proof/Machine/Links.lean ====
section
/-! DEFINITION. BAR0, bring-up and resets, power and cooling, and the Hjelpex link (08 R229, R243; 17 R494 to R504). -/

namespace Sys2Proof.Machine

/-! ### BAR0 (17 R498) -/

def setBar0 (s : State) (f : Bar0 → Bar0) : State := { s with bar0 := f s.bar0 }

/-- The bits of a ring control register that hold a value. -/
def ctlBits (x : W64) : W64 := x &&& 0x3F

/-- A write of FQ_RESP (17 R499). -/
def answerFault (s : State) (x : W64) : Host.Outcome State Fault Refusal :=
  let asid := bits x.toNat 48 12
  let page := bits x.toNat 0 38
  if bitAt x.toNat 63 then execFaultFatal asid page s else execFaultRetry asid page s

/-- A write to a register of BAR0: aligned and of 8 bytes, or it is dropped; read-only registers keep their value. -/
def execRegisterWrite (addr size : Nat) (val : BitVec 64) (s : State) : Host.Outcome State Fault Refusal :=
  if size ≠ 8 ∨ addr % 8 ≠ 0 then .next s
  else match addr with
    | 0x100 => .next (setBar0 s fun b => { b with rdtBase := val })
    | 0x200 => .next (setBar0 s fun b => { b with fqBase := val })
    | 0x208 => .next (setBar0 s fun b => { b with fqCtl := ctlBits val })
    | 0x218 => .next (setBar0 s fun b => { b with fqRidx := val })
    | 0x220 => answerFault s val
    | 0x300 => .next (setBar0 s fun b => { b with mqBase := val })
    | 0x308 => .next (setBar0 s fun b => { b with mqCtl := ctlBits val })
    | 0x310 => .next (setBar0 s fun b => { b with eqBase := val })
    | 0x318 => .next (setBar0 s fun b => { b with eqCtl := ctlBits val })
    | 0x320 => .next (setBar0 s fun b => { b with mqWidx := val })
    | 0x338 => .next (setBar0 s fun b => { b with eqRidx := val })
    | _ => .next s

/-- DEVSTAT. -/
def devStat (s : State) : W64 :=
  BitVec.ofNat 64 (bit s.bar0.ready + 2 * bit s.power.throt + 4 * bit s.power.therm + 256 * s.bar0.bootErr.toNat)

/-- STATUS of a queue's notify page (13 R388). -/
def notifyStatus (s : State) (n : Nat) : W64 :=
  let q := s.queue n
  BitVec.ofNat 64 (bit q.enabled + 2 * bit (queuePending s n) + 4 * bit q.slot + 8 * bit q.halt + 16 * (q.errc % 16))

/-- The entries of the capability list as 16-byte numbers (01 R28, R29). -/
def capListWords (s : State) : List Nat :=
  let e (id next data : Nat) : Nat := id + 2 ^ 16 + next * 2 ^ 24 + data * 2 ^ 64
  [e 0 0x10 (8 + 3 * 2 ^ 32), e 1 0x20 256, e 2 0x30 (4 + 256), e 3 0x40 64, e 4 0x50 s.tierTwo, e 5 0x60 15,
    e 6 0x70 (4096 + 64 * 65536), e 7 0 4]

/-- What a read of BAR0 gives: an aligned one of 8 bytes the register, any other 0. -/
def bar0Read (s : State) (addr size : Nat) : W64 :=
  let b := s.bar0
  if size ≠ 8 ∨ addr % 8 ≠ 0 then 0
  else if 0x40 ≤ addr ∧ addr < 0xC0 then
    BitVec.ofNat 64 (bits ((capListWords s).getD ((addr - 0x40) / 16) 0) (addr % 16 * 8) 64)
  else match addr with
    | 0x100 => b.rdtBase
    | 0x108 => b.asidt
    | 0x200 => b.fqBase
    | 0x208 => b.fqCtl
    | 0x210 => b.fqWidx
    | 0x218 => b.fqRidx
    | 0x300 => b.mqBase
    | 0x308 => b.mqCtl
    | 0x310 => b.eqBase
    | 0x318 => b.eqCtl
    | 0x320 => b.mqWidx
    | 0x328 => b.mqRidx
    | 0x330 => b.eqWidx
    | 0x338 => b.eqRidx
    | 0x400 => devStat s
    | 0x408 => b.pwrNow.setWidth 64
    | _ => 0

/-- What an aligned 8-byte read of a notify page gives (13 R388). -/
def notifyRead (s : State) (n off : Nat) : W64 :=
  if !s.bar0.ready then 0
  else match off with
    | 0x40 => (s.queue n).ridx
    | 0x48 => (s.queue n).widx
    | 0x50 => notifyStatus s n
    | _ => 0

def Port.down : Port := ⟨false, 0, 0, false⟩

/-! ### Bring-up and resets (17 R501) -/

/-- The bytes of a table cleared. -/
def clearRange (m : List Host.Cell) (a n : Nat) : List Host.Cell := m.filter fun x => x.1 < a || a + n ≤ x.1

/-- The ASID table, the page-table area and the compression metadata cleared (08 R229, R239). -/
def clearTables (s : State) (asidt : Nat) : State :=
  { s with
    mem := Config.pageTables.foldl (fun m x => clearRange m x.1 x.2) (clearRange s.mem asidt 65536)
    detail := []
    headers := [] }

/-- Kaltia writes the capability list (01 R28 to R30). -/
def writeCapList (s : State) : State := s.wrBytes listRom ((capListWords s).flatMap fun w => leBytes w 16)

/-- The ports as link training leaves them: each up, with its peer, and whether that peer advertised compressed holding. -/
def trainedPorts (l : List (Nat × Nat)) : Tab Port :=
  l.foldl (fun t x => if x.1 < 128 then Tab.set Port.down t x.1 ⟨true, x.2 % 256, 0, 256 ≤ x.2⟩ else t) []

/-- The CXL ports in the roles that Kaltia gives them, in ascending port order (R497). -/
def cxlTable (l : List (Nat × Nat)) : Tab Nat :=
  (List.range 16).filterMap fun p => l.find? fun x => x.1 == p

/-- The expander port and its chunk that hold 4 KiB chunk `c` of tier-two: chunks go round the expanders in ascending port order, past
those that are full (R497); `fuel` bounds the rounds.  `l` gives each expander's port, the chunks it has left and its next. -/
def cxlChunk : Nat → List (Nat × Nat × Nat) → Nat → Option (Nat × Nat)
  | 0, _, _ => none
  | fuel + 1, l, c =>
    let l := l.filter fun x => x.2.1 != 0
    match minNat (l.map (·.2.1)) with
    | none => none
    | some m =>
      if c < l.length * m then (l[c % l.length]?).map fun x => (x.1, x.2.2 + c / l.length)
      else cxlChunk fuel (l.map fun x => (x.1, x.2.1 - m, x.2.2 + m)) (c - l.length * m)

/-- Where an offset of tier-two lies: the expander port and the address within it. -/
def tierTwoSpot (s : State) (off : Nat) : Option (Nat × Nat) :=
  (cxlChunk 17 ((s.cxl.filter fun x => x.2 != 0).map fun x => (x.1, (x.2 - 1) * 2 ^ 18, 0)) (off / 4096)).map fun x =>
    (x.1, x.2 * 4096 + off % 4096)

/-- Power-on or a PCIe conventional reset: every register takes its reset value, and bring-up sets READY or BOOTERR. -/
def execPowerOnReset (bootErr : Nat) (cxl : List (Nat × Nat)) (asidt : Nat) (ports : List (Nat × Nat)) (s : State) :
    Host.Outcome State Fault Refusal :=
  if 5 < bootErr ∨ asidt % 16 ≠ 0 ∨ 2 ^ 40 < asidt + 65536 then .next s
  else
    let r : State := { State.reset with
      mem := s.mem, tags := s.tags, poison := s.poison, detail := s.detail, check := s.check,
      headers := s.headers, fresh := s.fresh + 1, agenda := s.agenda }
    if bootErr ≠ 0 then .next (setBar0 r fun b => { b with bootErr := BitVec.ofNat 8 bootErr })
    else
      let r := writeCapList { clearTables r asidt with cxl := cxlTable cxl }
      .next { r with
        bar0 := { r.bar0 with asidt := BitVec.ofNat 64 asidt, ready := true }
        ports := trainedPorts ports }

/-- A function-level reset: every launch aborts without a record, and ring indices, queue state and quay tables are cleared. -/
def execFunctionLevelReset (s : State) : Host.Outcome State Fault Refusal :=
  let s := clearTables s s.bar0.asidt.toNat
  .next { s with
    bar0 := { s.bar0 with fqWidx := 0, fqRidx := 0, mqWidx := 0, mqRidx := 0, eqWidx := 0, eqRidx := 0 }
    queues := []
    launches := []
    troops := []
    gangs := []
    crews := []
    packs := []
    devLaunches := []
    copies := []
    seqs := []
    geos := []
    gather := []
    subs := []
    waiting := []
    spills := []
    rf := []
    utlb := []
    tlb := []
    faultRecs := []
    pendFaults := []
    events := []
    cmd := none
    stalled := [] }

/-! ### Power and cooling (17 R503, R504) -/

/-- The clocks are lowered once more. -/
def countThrottle (s : State) : State := s.count ctrThrotN 0 1

/-- The 1 ms average draw is at hand: above the cap the clocks are lowered once more, and at their floor stopped for part of the
time. -/
def execPowerCapWindow (watts : Nat) (s : State) : Host.Outcome State Fault Refusal :=
  let s := setBar0 s fun b => { b with pwrNow := BitVec.ofNat 32 watts }
  if capOf s < watts then
    if loweredUnit s.power.level ≤ clockFloor then .next { s with power := { s.power with gated := true } }
    else .next (countThrottle { s with power := { s.power with level := s.power.level + 1 } })
  else .next { s with power := { s.power with level := 0, gated := false } }

/-- A die has reached 105 °C. -/
def execThermalThrottle (s : State) : Host.Outcome State Fault Refusal :=
  .next (countThrottle { s with power := { s.power with lowTherm := true } })

/-- A die has reached 115 °C: every clock stops. -/
def execThermalTrip (s : State) : Host.Outcome State Fault Refusal := .next { s with power := { s.power with therm := true } }

/-- Every die has fallen to 95 °C. -/
def execThermalRestart (s : State) : Host.Outcome State Fault Refusal :=
  .next { s with power := { s.power with therm := false, lowTherm := false } }

def execCoolantFlowLow (s : State) : Host.Outcome State Fault Refusal := .next { s with power := { s.power with coolantLow := true } }
def execCoolantFlowRestored (s : State) : Host.Outcome State Fault Refusal :=
  .next { s with power := { s.power with coolantLow := false } }

/-! ### The link (17 R494 to R496) -/

def portAt (s : State) (n : Nat) : Port := Tab.get Port.down s.ports n

/-- A port is taken down after 8 failed replays; when no port reaches its peer any more, a link-down event goes out. -/
def takeDown (s : State) (n : Nat) : State :=
  let peer := (portAt s n).peer
  let s : State := { s with ports := Tab.set Port.down s.ports n Port.down }
  let s := s.count ctrLkDown 0 1
  if peerUp s peer then s else { s with events := s.events ++ [eventBytes 3 0 0 (leBytes n 1)] }

/-- A flit of a port is replayed, with or without success (R494). -/
def execFlitReplay (port : Nat) (ok : Bool) (s : State) : Host.Outcome State Fault Refusal :=
  let p := portAt s port
  if !p.up then .next s
  else
    let s := s.count ctrLkRpl 0 1
    if ok then .next { s with ports := Tab.set Port.down s.ports port { p with fails := 0 } }
    else if 7 ≤ p.fails then .next (takeDown s port)
    else .next { s with ports := Tab.set Port.down s.ports port { p with fails := p.fails + 1 } }

/-- What an atomic update of a peer stores: the new value, if it stores. -/
def linkUpdate (r : LinkReq) (op old : Nat) : Option Nat :=
  if op = 7 then (if old = r.cmp.toNat % 2 ^ (8 * r.size) then some (r.val.toNat % 2 ^ (8 * r.size)) else none)
  else some (atomCombine r.ty op old (r.val.toNat % 2 ^ (8 * r.size)))

/-- Whether a block goes compressed over the link to a peer: the peer advertised compressed holding, and the block is stored
compressed (08 R241). -/
def sentCompressed (s : State) (peer pa : Nat) : Bool :=
  (s.ports.any fun x => x.2.up && x.2.comp && x.2.peer == peer) && Tab.get 0 s.detail (pa / 256) != 0

/-- What an item's granule leaves through a port with: its bytes, and the poison bit of the flit header where the granule is poisoned,
malformed or fails its check, which counts (08 R242, R243; 15 R458). -/
def linkAnswer (s : State) (r : LinkReq) : State :=
  let s := if s.uceAt r.pa = some 3 then s.count ctrChkErr (homeQuay r.pa / 32) 1 else s
  { s with linkReply := some (BitVec.ofNat 128 (s.rdNat r.pa r.size), (s.uceAt r.pa).isSome) }

/-- An update of a peer at the home quay: it sees and clears what is gathered for the granule. -/
def linkAtomic (s : State) (r : LinkReq) (op : Nat) : State :=
  let s := readyRead s [r.pa / 64]
  if (s.uceAt r.pa).isSome then s
  else match linkUpdate r op (s.rdNat r.pa r.size) with
    | some x => performBytes s r.pa (leBytes x r.size)
    | none => s

/-- A write of a peer: a poisoned one poisons its granule (08 R243). -/
def linkWrite (s : State) (r : LinkReq) : State :=
  let s := performBytes s r.pa (leBytes (r.val.toNat % 2 ^ (8 * r.size)) r.size)
  if r.poison then { s with poison := Tab.set false s.poison (r.pa / 64) true } else s

/-- A request of a peer executes at its home quay (R496). -/
def execLinkRequest (req : LinkReq) (s : State) : Host.Outcome State Fault Refusal :=
  let ok : Bool := [1, 2, 4, 8, 16].contains req.size && req.pa % req.size == 0 && req.pa < 2 ^ 40
  if !(s.bar0.ready && ok) then .next s
  else
    let s := s.request 5 req.pa
    match req.op with
    | .read => .next (linkAnswer (readyRead s [req.pa / 64]) req)
    | .write => .next (linkWrite s req)
    | .atom op =>
      let s := linkAnswer (readyRead s [req.pa / 64]) req
      .next (if (s.uceAt req.pa).isSome then s else (linkAtomic s req op.toNat).count ctrQyAtom (homeQuay req.pa) 1)
    | .red op => .next (linkAtomic s req op.toNat)

end Sys2Proof.Machine
end

