-- ==== Sys2Proof/Machine/Dispatch.lean ====
section
/-! DEFINITION. The meaning of every instruction and event: one arm for each constructor of Instr. -/

namespace Sys2Proof.Machine

def exec (i : Instr) (s : State) : Host.Outcome State Fault Refusal :=
  match i with
  | .nop e => Sys2Proof.Machine.execNop e s
  | .bra e => Sys2Proof.Machine.execBra e s
  | .brx e => Sys2Proof.Machine.execBrx e s
  | .call e => Sys2Proof.Machine.execCall e s
  | .callReg e => Sys2Proof.Machine.execCallReg e s
  | .ret e => Sys2Proof.Machine.execRet e s
  | .conv e => Sys2Proof.Machine.execConv e s
  | .exit e => Sys2Proof.Machine.execExit e s
  | .loop e => Sys2Proof.Machine.execLoop e s
  | .loopImm e => Sys2Proof.Machine.execLoopImm e s
  | .lbrk e => Sys2Proof.Machine.execLbrk e s
  | .yield e => Sys2Proof.Machine.execYield e s
  | .trap e => Sys2Proof.Machine.execTrap e s
  | .trapReg e => Sys2Proof.Machine.execTrapReg e s
  | .tret e => Sys2Proof.Machine.execTret e s
  | .tbnd e => Sys2Proof.Machine.execTbnd e s
  | .sflg e => Sys2Proof.Machine.execSflg e s
  | .sysr e => Sys2Proof.Machine.execSysr e s
  | .sysrImm e => Sys2Proof.Machine.execSysrImm e s
  | .sysw e => Sys2Proof.Machine.execSysw e s
  | .syswImm e => Sys2Proof.Machine.execSyswImm e s
  | .lnch e => Sys2Proof.Machine.execLnch e s
  | .mov e => Sys2Proof.Machine.execMov e s
  | .movImm e => Sys2Proof.Machine.execMovImm e s
  | .movs e => Sys2Proof.Machine.execMovs e s
  | .iadd e => Sys2Proof.Machine.execIadd e s
  | .iaddImm e => Sys2Proof.Machine.execIaddImm e s
  | .isub e => Sys2Proof.Machine.execIsub e s
  | .isubImm e => Sys2Proof.Machine.execIsubImm e s
  | .imul e => Sys2Proof.Machine.execImul e s
  | .imulImm e => Sys2Proof.Machine.execImulImm e s
  | .imad e => Sys2Proof.Machine.execImad e s
  | .idiv e => Sys2Proof.Machine.execIdiv e s
  | .imin e => Sys2Proof.Machine.execImin e s
  | .iminImm e => Sys2Proof.Machine.execIminImm e s
  | .imax e => Sys2Proof.Machine.execImax e s
  | .imaxImm e => Sys2Proof.Machine.execImaxImm e s
  | .iabs e => Sys2Proof.Machine.execIabs e s
  | .ineg e => Sys2Proof.Machine.execIneg e s
  | .bfn e => Sys2Proof.Machine.execBfn e s
  | .shf e => Sys2Proof.Machine.execShf e s
  | .shfImm e => Sys2Proof.Machine.execShfImm e s
  | .bfx e => Sys2Proof.Machine.execBfx e s
  | .bfi e => Sys2Proof.Machine.execBfi e s
  | .popc e => Sys2Proof.Machine.execPopc e s
  | .clz e => Sys2Proof.Machine.execClz e s
  | .brev e => Sys2Proof.Machine.execBrev e s
  | .icmp e => Sys2Proof.Machine.execIcmp e s
  | .icmpImm e => Sys2Proof.Machine.execIcmpImm e s
  | .sel e => Sys2Proof.Machine.execSel e s
  | .lea e => Sys2Proof.Machine.execLea e s
  | .leaImm e => Sys2Proof.Machine.execLeaImm e s
  | .rkeep e => Sys2Proof.Machine.execRkeep e s
  | .rflush e => Sys2Proof.Machine.execRflush e s
  | .faddF32 e => Sys2Proof.Machine.execFaddF32 e s
  | .faddF64 e => Sys2Proof.Machine.execFaddF64 e s
  | .fmulF32 e => Sys2Proof.Machine.execFmulF32 e s
  | .fmulF64 e => Sys2Proof.Machine.execFmulF64 e s
  | .ffmaF32 e => Sys2Proof.Machine.execFfmaF32 e s
  | .ffmaF64 e => Sys2Proof.Machine.execFfmaF64 e s
  | .fdiv e => Sys2Proof.Machine.execFdiv e s
  | .fsqrt e => Sys2Proof.Machine.execFsqrt e s
  | .frcp e => Sys2Proof.Machine.execFrcp e s
  | .frsq e => Sys2Proof.Machine.execFrsq e s
  | .fex2 e => Sys2Proof.Machine.execFex2 e s
  | .flg2 e => Sys2Proof.Machine.execFlg2 e s
  | .fsin e => Sys2Proof.Machine.execFsin e s
  | .fcos e => Sys2Proof.Machine.execFcos e s
  | .fmin e => Sys2Proof.Machine.execFmin e s
  | .fmax e => Sys2Proof.Machine.execFmax e s
  | .fcmp e => Sys2Proof.Machine.execFcmp e s
  | .fclass e => Sys2Proof.Machine.execFclass e s
  | .frnd e => Sys2Proof.Machine.execFrnd e s
  | .fscb e => Sys2Proof.Machine.execFscb e s
  | .flgb e => Sys2Proof.Machine.execFlgb e s
  | .fcsg e => Sys2Proof.Machine.execFcsg e s
  | .f2i e => Sys2Proof.Machine.execF2i e s
  | .i2f e => Sys2Proof.Machine.execI2f e s
  | .f2f e => Sys2Proof.Machine.execF2f e s
  | .cvtpk e => Sys2Proof.Machine.execCvtpk e s
  | .cvtup e => Sys2Proof.Machine.execCvtup e s
  | .qscl e => Sys2Proof.Machine.execQscl e s
  | .slres e => Sys2Proof.Machine.execSlres e s
  | .fflg e => Sys2Proof.Machine.execFflg e s
  | .frm e => Sys2Proof.Machine.execFrm e s
  | .voteAll e => Sys2Proof.Machine.execVoteAll e s
  | .voteAny e => Sys2Proof.Machine.execVoteAny e s
  | .voteBallot e => Sys2Proof.Machine.execVoteBallot e s
  | .pfn e => Sys2Proof.Machine.execPfn e s
  | .pmov e => Sys2Proof.Machine.execPmov e s
  | .srd e => Sys2Proof.Machine.execSrd e s
  | .swr e => Sys2Proof.Machine.execSwr e s
  | .shflIdx e => Sys2Proof.Machine.execShflIdx e s
  | .shflIdxImm e => Sys2Proof.Machine.execShflIdxImm e s
  | .shflUp e => Sys2Proof.Machine.execShflUp e s
  | .shflUpImm e => Sys2Proof.Machine.execShflUpImm e s
  | .shflDown e => Sys2Proof.Machine.execShflDown e s
  | .shflDownImm e => Sys2Proof.Machine.execShflDownImm e s
  | .shflXor e => Sys2Proof.Machine.execShflXor e s
  | .shflXorImm e => Sys2Proof.Machine.execShflXorImm e s
  | .bcst e => Sys2Proof.Machine.execBcst e s
  | .bcstImm e => Sys2Proof.Machine.execBcstImm e s
  | .lredAdd e => Sys2Proof.Machine.execLredAdd e s
  | .lredMin e => Sys2Proof.Machine.execLredMin e s
  | .lredMax e => Sys2Proof.Machine.execLredMax e s
  | .lredAnd e => Sys2Proof.Machine.execLredAnd e s
  | .lredOr e => Sys2Proof.Machine.execLredOr e s
  | .lredXor e => Sys2Proof.Machine.execLredXor e s
  | .radd e => Sys2Proof.Machine.execRadd e s
  | .rscanInc e => Sys2Proof.Machine.execRscanInc e s
  | .rscanExc e => Sys2Proof.Machine.execRscanExc e s
  | .matchAny e => Sys2Proof.Machine.execMatchAny e s
  | .matchAll e => Sys2Proof.Machine.execMatchAll e s
  | .actv e => Sys2Proof.Machine.execActv e s
  | .ldVector e => Sys2Proof.Machine.execLdVector e s
  | .ldUniform e => Sys2Proof.Machine.execLdUniform e s
  | .stVector e => Sys2Proof.Machine.execStVector e s
  | .stUniform e => Sys2Proof.Machine.execStUniform e s
  | .ldg e => Sys2Proof.Machine.execLdg e s
  | .stg e => Sys2Proof.Machine.execStg e s
  | .cder e => Sys2Proof.Machine.execCder e s
  | .cderImm e => Sys2Proof.Machine.execCderImm e s
  | .cget e => Sys2Proof.Machine.execCget e s
  | .cset e => Sys2Proof.Machine.execCset e s
  | .cadd e => Sys2Proof.Machine.execCadd e s
  | .caddImm e => Sys2Proof.Machine.execCaddImm e s
  | .ctst e => Sys2Proof.Machine.execCtst e s
  | .cclr e => Sys2Proof.Machine.execCclr e s
  | .pgprf e => Sys2Proof.Machine.execPgprf e s
  | .bind e => Sys2Proof.Machine.execBind e s
  | .unbind e => Sys2Proof.Machine.execUnbind e s
  | .acq e => Sys2Proof.Machine.execAcq e s
  | .rel e => Sys2Proof.Machine.execRel e s
  | .fence e => Sys2Proof.Machine.execFence e s
  | .atomInt e => Sys2Proof.Machine.execAtomInt e s
  | .atomFloat e => Sys2Proof.Machine.execAtomFloat e s
  | .redInt e => Sys2Proof.Machine.execRedInt e s
  | .redFloat e => Sys2Proof.Machine.execRedFloat e s
  | .lr e => Sys2Proof.Machine.execLr e s
  | .sc e => Sys2Proof.Machine.execSc e s
  | .waitc e => Sys2Proof.Machine.execWaitc e s
  | .stand e => Sys2Proof.Machine.execStand e s
  | .unstand e => Sys2Proof.Machine.execUnstand e s
  | .stq e => Sys2Proof.Machine.execStq e s
  | .tdef e => Sys2Proof.Machine.execTdef e s
  | .tmov e => Sys2Proof.Machine.execTmov e s
  | .twait e => Sys2Proof.Machine.execTwait e s
  | .tstat e => Sys2Proof.Machine.execTstat e s
  | .trel e => Sys2Proof.Machine.execTrel e s
  | .tfill e => Sys2Proof.Machine.execTfill e s
  | .cpy e => Sys2Proof.Machine.execCpy e s
  | .cpyMm e => Sys2Proof.Machine.execCpyMm e s
  | .cpyr e => Sys2Proof.Machine.execCpyr e s
  | .cpyq e => Sys2Proof.Machine.execCpyq e s
  | .bari e => Sys2Proof.Machine.execBari e s
  | .bariImm e => Sys2Proof.Machine.execBariImm e s
  | .barr e => Sys2Proof.Machine.execBarr e s
  | .barrImm e => Sys2Proof.Machine.execBarrImm e s
  | .barw e => Sys2Proof.Machine.execBarw e s
  | .barwImm e => Sys2Proof.Machine.execBarwImm e s
  | .barx e => Sys2Proof.Machine.execBarx e s
  | .barxImm e => Sys2Proof.Machine.execBarxImm e s
  | .qpush e => Sys2Proof.Machine.execQpush e s
  | .qpop e => Sys2Proof.Machine.execQpop e s
  | .qpeek e => Sys2Proof.Machine.execQpeek e s
  | .foxgo e => Sys2Proof.Machine.execFoxgo e s
  | .foxhalt e => Sys2Proof.Machine.execFoxhalt e s
  | .mldb e => Sys2Proof.Machine.execMldb e s
  | .mrel e => Sys2Proof.Machine.execMrel e s
  | .mmaInt e => Sys2Proof.Machine.execMmaInt e s
  | .mmaFloat e => Sys2Proof.Machine.execMmaFloat e s
  | .mms e => Sys2Proof.Machine.execMms e s
  | .maccTile e => Sys2Proof.Machine.execMaccTile e s
  | .maccRegs e => Sys2Proof.Machine.execMaccRegs e s
  | .mzero e => Sys2Proof.Machine.execMzero e s
  | .mstat e => Sys2Proof.Machine.execMstat e s
  | .mxq e => Sys2Proof.Machine.execMxq e s
  | .mxdq e => Sys2Proof.Machine.execMxdq e s
  | .mtr e => Sys2Proof.Machine.execMtr e s
  | .grec e => Sys2Proof.Machine.execGrec e s
  | .gemit e => Sys2Proof.Machine.execGemit e s
  | .gfree e => Sys2Proof.Machine.execGfree e s
  | .gpool e => Sys2Proof.Machine.execGpool e s
  | .cutsel e => Sys2Proof.Machine.execCutsel e s
  | .clfetch e => Sys2Proof.Machine.execClfetch e s
  | .rsub e => Sys2Proof.Machine.execRsub e s
  | .rwait e => Sys2Proof.Machine.execRwait e s
  | .rayq e => Sys2Proof.Machine.execRayq e s
  | .raynx e => Sys2Proof.Machine.execRaynx e s
  | .visd e => Sys2Proof.Machine.execVisd e s
  | .dhash e => Sys2Proof.Machine.execDhash e s
  | .dmark e => Sys2Proof.Machine.execDmark e s
  | .unassignedOpcode op e => Sys2Proof.Machine.execUnassignedOpcode op e s
  | .deferredTrapDelivery pack => Sys2Proof.Machine.execDeferredTrapDelivery pack s
  | .issueStarvation pack => Sys2Proof.Machine.execIssueStarvation pack s
  | .subsetAgeLimit pack => Sys2Proof.Machine.execSubsetAgeLimit pack s
  | .lineRefill pack row => Sys2Proof.Machine.execLineRefill pack row s
  | .spillDrain core => Sys2Proof.Machine.execSpillDrain core s
  | .translationWalk core asid va kind space => Sys2Proof.Machine.execTranslationWalk core asid va kind space s
  | .faultRecordPost => Sys2Proof.Machine.execFaultRecordPost s
  | .faultRetry asid page => Sys2Proof.Machine.execFaultRetry asid page s
  | .faultFatal asid page => Sys2Proof.Machine.execFaultFatal asid page s
  | .quayGrantWindow quay => Sys2Proof.Machine.execQuayGrantWindow quay s
  | .mooringGrant launch moor => Sys2Proof.Machine.execMooringGrant launch moor s
  | .monitorWake pack => Sys2Proof.Machine.execMonitorWake pack s
  | .repoll quay => Sys2Proof.Machine.execRepoll quay s
  | .recall gran => Sys2Proof.Machine.execRecall gran s
  | .recallTimeout gran => Sys2Proof.Machine.execRecallTimeout gran s
  | .pushDelivery sub => Sys2Proof.Machine.execPushDelivery sub s
  | .unstandAck sub => Sys2Proof.Machine.execUnstandAck sub s
  | .copyComplete cp => Sys2Proof.Machine.execCopyComplete cp s
  | .copyAbandon cp cause => Sys2Proof.Machine.execCopyAbandon cp cause s
  | .followOnHandover cp => Sys2Proof.Machine.execFollowOnHandover cp s
  | .cpyrApply cp => Sys2Proof.Machine.execCpyrApply cp s
  | .cpyqPush cp => Sys2Proof.Machine.execCpyqPush cp s
  | .sequencerStep core => Sys2Proof.Machine.execSequencerStep core s
  | .matrixComplete core => Sys2Proof.Machine.execMatrixComplete core s
  | .cutselComplete geo => Sys2Proof.Machine.execCutselComplete geo s
  | .rsubComplete geo => Sys2Proof.Machine.execRsubComplete geo s
  | .checkpoint crew => Sys2Proof.Machine.execCheckpoint crew s
  | .uceConsume crew sub => Sys2Proof.Machine.execUceConsume crew sub s
  | .watchdogExpire pack => Sys2Proof.Machine.execWatchdogExpire pack s
  | .gateAdmit launch quay => Sys2Proof.Machine.execGateAdmit launch quay s
  | .notify queue off size nwidx => Sys2Proof.Machine.execNotify queue off size nwidx s
  | .haltClear queue => Sys2Proof.Machine.execHaltClear queue s
  | .registerWrite addr size val => Sys2Proof.Machine.execRegisterWrite addr size val s
  | .launch queue => Sys2Proof.Machine.execLaunch queue s
  | .graph queue => Sys2Proof.Machine.execGraph queue s
  | .copy queue => Sys2Proof.Machine.execCopy queue s
  | .signal queue => Sys2Proof.Machine.execSignal queue s
  | .wait queue => Sys2Proof.Machine.execWait queue s
  | .mark queue => Sys2Proof.Machine.execMark queue s
  | .waitComplete queue => Sys2Proof.Machine.execWaitComplete queue s
  | .copyPacketComplete queue idx => Sys2Proof.Machine.execCopyPacketComplete queue idx s
  | .launchComplete launch => Sys2Proof.Machine.execLaunchComplete launch s
  | .graphComplete launch => Sys2Proof.Machine.execGraphComplete launch s
  | .slotGrant queue => Sys2Proof.Machine.execSlotGrant queue s
  | .priorityAgeing queue => Sys2Proof.Machine.execPriorityAgeing queue s
  | .slotSliceExpire queue => Sys2Proof.Machine.execSlotSliceExpire queue s
  | .crewPlace launch => Sys2Proof.Machine.execCrewPlace launch s
  | .crewReturn crew => Sys2Proof.Machine.execCrewReturn crew s
  | .quantumEnd gang => Sys2Proof.Machine.execQuantumEnd gang s
  | .swapOut crew => Sys2Proof.Machine.execSwapOut crew s
  | .preemptWindowExpire crew => Sys2Proof.Machine.execPreemptWindowExpire crew s
  | .deviceLaunchStart => Sys2Proof.Machine.execDeviceLaunchStart s
  | .batchTimeout launch node => Sys2Proof.Machine.execBatchTimeout launch node s
  | .batchQuiescentLaunch launch node => Sys2Proof.Machine.execBatchQuiescentLaunch launch node s
  | .invalidate => Sys2Proof.Machine.execInvalidate s
  | .preempt => Sys2Proof.Machine.execPreempt s
  | .launchSv => Sys2Proof.Machine.execLaunchSv s
  | .makeManifest => Sys2Proof.Machine.execMakeManifest s
  | .compareManifest => Sys2Proof.Machine.execCompareManifest s
  | .setCap => Sys2Proof.Machine.execSetCap s
  | .attest => Sys2Proof.Machine.execAttest s
  | .queueEnable => Sys2Proof.Machine.execQueueEnable s
  | .queueDisable => Sys2Proof.Machine.execQueueDisable s
  | .eventPost => Sys2Proof.Machine.execEventPost s
  | .powerOnReset bootErr cxl asidt ports => Sys2Proof.Machine.execPowerOnReset bootErr cxl asidt ports s
  | .functionLevelReset => Sys2Proof.Machine.execFunctionLevelReset s
  | .powerCapWindow watts => Sys2Proof.Machine.execPowerCapWindow watts s
  | .thermalThrottle => Sys2Proof.Machine.execThermalThrottle s
  | .thermalTrip => Sys2Proof.Machine.execThermalTrip s
  | .thermalRestart => Sys2Proof.Machine.execThermalRestart s
  | .coolantFlowLow => Sys2Proof.Machine.execCoolantFlowLow s
  | .flitReplay port ok => Sys2Proof.Machine.execFlitReplay port ok s
  | .linkRequest req => Sys2Proof.Machine.execLinkRequest req s
  | .badPacket queue => Sys2Proof.Machine.execBadPacket queue s
  | .badCommand => Sys2Proof.Machine.execBadCommand s
  | .coolantFlowRestored => Sys2Proof.Machine.execCoolantFlowRestored s

end Sys2Proof.Machine
end

