-- ==== Sys2Proof/Machine/Sched.lean ====
section
/-! DEFINITION. The events that the device's own engines have ready in a state, as the meanings of those instructions (one schedule of the
many that the manual allows; 01 R2, R27). -/

namespace Sys2Proof.Machine

/-- A list from its element `n` on, the earlier ones after. -/
def rotate {α : Type} (n : Nat) (l : List α) : List α :=
  if l.isEmpty then [] else l.drop (n % l.length) ++ l.take (n % l.length)

/-- Whether a pack or fox slot belongs to a crew that must stop before it issues again: a recorded stop of a replay, or the end
of its gang's quantum (13 R403; 16 R476). -/
def mustStop (s : State) (id : Nat) : Bool :=
  let cid := if foxBase ≤ id then id - foxBase else (s.pack id).crew
  stopDue s cid || quantumDue s (s.crew cid).gang

/-- The meaning of one event of the engines. -/
abbrev Event := State → Host.Outcome State Fault Refusal

def packEvents (s : State) : List Event :=
  s.packs.flatMap fun x =>
    (match x.2.monitor with
      | some m => if m.hit then [execMonitorWake x.1] else if m.poll then [execRepoll m.quay] else []
      | none => [])
    ++ (match x.2.wait.kind with
      | .gate qs => qs.map (execGateAdmit x.2.launch)
      | .acq m => [execMooringGrant x.2.launch m]
      | _ => [])

def crewEvents (s : State) : List Event :=
  s.crews.flatMap fun x =>
    if !x.2.live then []
    else if x.2.phase == .placed then
      (if checkpointDue s x.1 then [execCheckpoint x.1] else [])
        ++ (if stopDue s x.1 then [execPreemptWindowExpire x.1] else [])
        ++ (if swapDue s x.1 then [execSwapOut x.1] else [])
        ++ (if x.2.st.tfills.isEmpty then [] else [landFill x.1])
        ++ (match x.2.st.fox.wait with
          | .gate qs => qs.map (execGateAdmit x.2.launch)
          | _ => if x.2.packs.any fun p => (s.pack p).live then [] else [execGateAdmit x.2.launch 0])
    else [execCrewReturn x.1]

def gangEvents (s : State) : List Event :=
  s.gangs.flatMap fun x => if quantumDue s x.1 then [execQuantumEnd x.1] else []

def subEvents (s : State) : List Event :=
  s.subs.flatMap fun x => match x.2 with
    | some b => if b.flight.isSome && !b.parked then [execPushDelivery x.1] else if b.ending && !b.acked && !b.parked then [execUnstandAck x.1] else []
    | none => []

def copyEvents (s : State) : List Event :=
  s.copies.flatMap fun x =>
    match x.2.phase, x.2.kind with
    | .moving, _ => [execCopyComplete x.1]
    | .follow, _ => [execFollowOnHandover x.1]
    | .staged, .reduce _ _ => [execCpyrApply x.1]
    | .staged, .queue _ _ => [execCpyqPush x.1]
    | _, _ => []

def seqEvents (s : State) : List Event :=
  s.seqs.flatMap fun x => match x.2 with
    | o :: _ => if 1024 ≤ x.1 then [] else if o.step < opSteps s o then [execSequencerStep x.1] else [execMatrixComplete x.1]
    | [] => []

def geoEvents (s : State) : List Event :=
  s.geos.flatMap fun x => match x.2 with
    | some g => match g.kind with
      | .cutsel .. => [execCutselComplete x.1]
      | .rsub .. => [execRsubComplete x.1]
    | none => []

def spillEvents (s : State) : List Event := s.spills.flatMap fun x => if x.2.isEmpty then [] else [execSpillDrain x.1]

def launchEvents (s : State) : List Event :=
  s.launches.flatMap fun x =>
    if !x.2.live then []
    else [execCrewPlace x.1, execLaunchComplete x.1, execGraphComplete x.1]
      ++ (List.range x.2.graph.nodes.length).flatMap fun n =>
        [execBatchQuiescentLaunch x.1 n] ++ (if batchDue s (nodeOf s x.1 n) then [execBatchTimeout x.1 n] else [])

/-- Events of one queue: its next packet, whatever its type, its unfinished ones, and its slot. -/
def queueEvents (s : State) : List Event :=
  s.queues.flatMap fun x =>
    if !x.2.enabled then []
    else
      (if queueIdle s x.1 then []
        else [execLaunch x.1, execGraph x.1, execCopy x.1, execSignal x.1, execWait x.1, execMark x.1, execBadPacket x.1, execWaitComplete x.1])
        ++ (x.2.pkts.map fun p => execCopyPacketComplete x.1 p.idx)
        ++ (if queuePending s x.1 || (x.2.slot && x.2.leaving) then [execSlotGrant x.1] else [])

def commandEvents (s : State) : List Event :=
  if s.cmd.isNone && (peekCmd s).isNone then []
  else [execInvalidate, execPreempt, execLaunchSv, execMakeManifest, execCompareManifest, execSetCap, execAttest, execQueueEnable, execQueueDisable, execBadCommand]

def ringEvents (s : State) : List Event :=
  (if s.faultRecs.isEmpty then [] else [execFaultRecordPost]) ++ (if s.events.isEmpty then [] else [execEventPost])
    ++ (if s.devLaunches.any (fun d => d.id.isNone) then [execDeviceLaunchStart] else [])

/-- A grant window of each quay at which requests wait. -/
def quayEvents (s : State) : List Event := s.waiting.map fun x => execQuayGrantWindow x.1

/-- Granules with a subscription and gathered contributions (10 R291). -/
def watchedGrans (s : State) : List Nat :=
  (s.subs.filterMap fun x => x.2.map fun b => b.pa / 64).eraseDups.filter fun g => gathered s g

/-- What the clocks of the mapper, of pre-emption and of the quays bring, once enough time has passed (10 R291; 13 R394, R405). -/
def timeEvents (s : State) : List Event :=
  let waiting : Bool := s.queues.any fun x => queuePending s x.1
  (s.crews.flatMap fun x => if x.2.live && x.2.phase == .placed && x.2.preempt then [execPreemptWindowExpire x.1] else [])
    ++ (s.queues.flatMap fun x =>
      if !x.2.enabled then []
      else (if queuePending s x.1 then [execPriorityAgeing x.1] else []) ++ (if waiting && x.2.slot then [execSlotSliceExpire x.1] else []))
    ++ (watchedGrans s).map execRecallTimeout

/-- What the engines could do. -/
def engineEvents (s : State) : List Event :=
  packEvents s ++ crewEvents s ++ gangEvents s ++ subEvents s ++ copyEvents s ++ seqEvents s ++ geoEvents s ++ spillEvents s
    ++ launchEvents s ++ queueEvents s ++ commandEvents s ++ ringEvents s ++ quayEvents s ++ (if timePasses s then timeEvents s else [])

/-- Bring-up as the implementation ends it (17 R501, R497; 08 R229). -/
def bringUp (s : State) : Host.Outcome State Fault Refusal :=
  execPowerOnReset (Config.bootErr % 6) Config.cxlPorts (16 * (Config.asidTable % (2 ^ 36 - 4095))) Config.portMap s

/-- Nothing happens but time. -/
def idle (s : State) : State := { s with tick := (s.tick / 65536 + 1) * 65536, fresh := s.fresh + 1, stalled := [] }

/-- What happens though every clock of the device stands: resets, the host's writes of registers, and Kaltia's events of power and
cooling (17 R501, R503, R504). -/
def alwaysOn : Instr → Bool
  | .registerWrite _ _ _ => true
  | .haltClear _ => true
  | .powerOnReset _ _ _ _ => true
  | .functionLevelReset => true
  | .powerCapWindow _ => true
  | .thermalThrottle => true
  | .thermalTrip => true
  | .thermalRestart => true
  | .coolantFlowLow => true
  | .coolantFlowRestored => true
  | _ => false

/-- The next event of the agenda, with what stays there: while the clocks stand, the first one that needs none (17 R503, R504). -/
def nextEvent (s : State) : Option (Instr × List Instr) :=
  match s.agenda.find? fun i => clocksRun s || alwaysOn i with
  | some i => some (i, s.agenda.erase i)
  | none => none

end Sys2Proof.Machine
end

