-- ==== Sys2Proof/Machine/Step.lean ====
section
/-! DEFINITION. One step of the machine: the next event of the agenda, else bring-up, else one instruction of a pack or fox
slot, else an event that the device's own engines have ready.  An instruction in the agenda leaves the turn to the machine. -/

namespace Sys2Proof.Machine

/-- Progress clears the list of stalled packs; a stall adds to it. -/
def settleStalls (old : State) : Host.Outcome State Fault Refusal → Host.Outcome State Fault Refusal
  | .next s => .next (if old.stalled.length < s.stalled.length then s else { s with stalled := [] })
  | o => o

/-- An event of the engines that changes the state, with the state after it. -/
def engineStep (s : State) : Option State :=
  (rotate (s.tick / 2 + s.tick / 65536) (engineEvents s)).findSome? fun event =>
    match event s with
    | .next t => if t = s then none else some t
    | _ => none

/-- The engines take a step, or the machine idles: a stalled pack is tried again. -/
def restStep (s : State) : Host.Outcome State Fault Refusal :=
  match engineStep s with
  | some t => settleStalls s (.next { t with tick := s.tick + 2 })
  | none => .next (idle s)

/-- The pack or fox slot that issues next: one that has not stalled, and whose crew need not stop first. -/
def chosen (s : State) : Option Cand := nextIssuer s fun c => !s.stalled.contains c.id && !mustStop s c.id

/-- One instruction issues; the engines come next. -/
def issueStep (s : State) : Host.Outcome State Fault Refusal :=
  match chosen s with
  | some c => settleStalls s (issueNext (fun i s => exec i (readyLines i s)) { s with tick := s.tick + 1 } c)
  | none => restStep s

/-- A turn of the machine: bring-up, which a failure stops; then, while the clocks run, instructions and engines in turn. -/
def ownStep (s : State) : Host.Outcome State Fault Refusal :=
  if ¬s.bar0.ready then (if s.bar0.bootErr = 0 then bringUp s else .next (idle s))
  else if ¬clocksRun s then .next (idle s)
  else if s.tick % 2 = 0 then issueStep s
  else match engineStep s with
    | some t => settleStalls s (.next { t with tick := s.tick + 1 })
    | none => issueStep s

/-- One step. -/
def step (s : State) : Host.Outcome State Fault Refusal :=
  match nextEvent s with
  | some (i, rest) =>
    if (opcodeOf i).isSome then ownStep { s with agenda := rest } else settleStalls s (exec i { s with agenda := rest })
  | none => ownStep s

/-- The state with the instruction of `nbits` bits `w` stored where the next step fetches. -/
def State.withFetchWord (s : State) (nbits w : Nat) : State := s.withCode (tableBytes nbits w)

end Sys2Proof.Machine
end

