-- ==== Sys2Proof/Laws/Decode.lean ====
section
/-! SUPPORT. Decoding undoes encoding (02 R32 to R55). -/

namespace Sys2Proof

theorem ofNat_toNat {n : Nat} (x : BitVec n) : BitVec.ofNat n x.toNat = x := by simp

theorem Enc.len_le (e : Enc) : e.len ≤ 3 := by
  obtain ⟨b, a, d, gn, g, ext, lit⟩ := e
  cases ext <;> cases lit <;> simp [Enc.len]

theorem bit_le (b : Bool) : bit b ≤ 1 := by cases b <;> decide

theorem flag_of_bit (w lo : Nat) (b : Bool) (h : w / 2 ^ lo % 2 = bit b) : flag w lo = b := by
  unfold flag; rw [h]; cases b <;> rfl

theorem ofNat_of_field {n : Nat} (w lo : Nat) (x : BitVec n) (h : w / 2 ^ lo % 2 ^ n = x.toNat) :
    BitVec.ofNat n (field w lo n) = x := by
  unfold field; rw [h]; exact ofNat_toNat x

/-- A word read back from its four bytes. -/
theorem takeWord_wordBytes (w : Nat) (h : w < 4294967296) (r : List Byte) : takeWord (wordBytes w ++ r) = some (w, r) := by
  simp only [wordBytes, takeWord, List.cons_append, List.nil_append, BitVec.toNat_ofNat, Option.some.injEq, Prod.mk.injEq,
    and_true]
  omega

theorem encodeFirst_lt (op : Nat) (e : Enc) (h : op < 256) : encodeFirst op e < 4294967296 := by
  have h1 := e.b.isLt; have h2 := e.a.isLt; have h3 := e.d.isLt; have h4 := e.g.isLt; have h5 := bit_le e.gn
  have h6 := e.len_le
  unfold encodeFirst; omega

theorem encodeW1_lt (x : Ext) : encodeW1 x < 4294967296 := by
  have := x.mod.isLt; have := x.rm.isLt; have := x.t.isLt; have := x.c.isLt; have := x.bx.isLt; have := x.ax.isLt
  have := x.dx.isLt; have := bit_le x.rc; have := bit_le x.rb; have := bit_le x.ra; have := bit_le x.gx
  unfold encodeW1; omega

theorem encodeW2_lt (x : Ext) : encodeW2 x < 4294967296 := by
  have := x.imm.isLt; have := x.mc.isLt; have := x.mb.isLt; have := x.ma.isLt; have := x.bw.isLt; have := x.bh.isLt
  have := bit_le x.kd; have := bit_le x.ka; have := bit_le x.kb; have := bit_le x.kc
  unfold encodeW2; omega

/-- Words 1 and 2 read back (R38, R39). -/
theorem decodeExt_encode (x : Ext) : decodeExt (encodeW1 x) (encodeW2 x) = x := by
  have h1 := x.mod.isLt; have h2 := x.rm.isLt; have h3 := x.t.isLt; have h4 := x.c.isLt; have h5 := x.bx.isLt
  have h6 := x.ax.isLt; have h7 := x.dx.isLt; have h8 := bit_le x.rc; have h9 := bit_le x.rb; have h10 := bit_le x.ra
  have h11 := bit_le x.gx
  have k1 := x.imm.isLt; have k2 := x.mc.isLt; have k3 := x.mb.isLt; have k4 := x.ma.isLt; have k5 := x.bw.isLt
  have k6 := x.bh.isLt; have k7 := bit_le x.kd; have k8 := bit_le x.ka; have k9 := bit_le x.kb; have k10 := bit_le x.kc
  obtain ⟨mod, rc, rb, ra, gx, rm, t, c, bx, ax, dx, imm, kd, ka, kb, kc, mc, mb, ma, bw, bh⟩ := x
  simp only at h1 h2 h3 h4 h5 h6 h7 h8 h9 h10 h11 k1 k2 k3 k4 k5 k6 k7 k8 k9 k10
  unfold decodeExt
  simp only [Ext.mk.injEq]
  refine ⟨ofNat_of_field _ _ _ ?_, flag_of_bit _ _ _ ?_, flag_of_bit _ _ _ ?_, flag_of_bit _ _ _ ?_, flag_of_bit _ _ _ ?_,
    ofNat_of_field _ _ _ ?_, ofNat_of_field _ _ _ ?_, ofNat_of_field _ _ _ ?_, ofNat_of_field _ _ _ ?_, ofNat_of_field _ _ _ ?_,
    ofNat_of_field _ _ _ ?_, ofNat_of_field _ _ _ ?_, flag_of_bit _ _ _ ?_, flag_of_bit _ _ _ ?_, flag_of_bit _ _ _ ?_,
    flag_of_bit _ _ _ ?_, ofNat_of_field _ _ _ ?_, ofNat_of_field _ _ _ ?_, ofNat_of_field _ _ _ ?_, ofNat_of_field _ _ _ ?_,
    ofNat_of_field _ _ _ ?_⟩ <;> simp only [encodeW1, encodeW2, Nat.reducePow] <;> omega

/-- The first word read back (R35). -/
theorem decodeEnc_encode (op : Nat) (e : Enc) (h : op < 256) (x : Option Ext) (l : Option W64) :
    decodeEnc (encodeFirst op e) x l = { e with ext := x, lit := l } := by
  have h1 := e.b.isLt; have h2 := e.a.isLt; have h3 := e.d.isLt; have h4 := e.g.isLt; have h5 := bit_le e.gn
  have h6 := e.len_le
  unfold decodeEnc
  simp only [Enc.mk.injEq, and_true]
  refine ⟨ofNat_of_field _ _ _ ?_, ofNat_of_field _ _ _ ?_, ofNat_of_field _ _ _ ?_, flag_of_bit _ _ _ ?_,
    ofNat_of_field _ _ _ ?_⟩ <;> simp only [encodeFirst, Nat.reducePow] <;> omega

theorem field_op (op : Nat) (e : Enc) (h : op < 256) : field (encodeFirst op e) 2 8 = op := by
  have h4 := e.g.isLt; have h5 := bit_le e.gn
  have h6 := e.len_le
  simp only [field, encodeFirst, Nat.reducePow]; omega

theorem first_len (op : Nat) (e : Enc) : encodeFirst op e % 4 = e.len := by
  have h6 := e.len_le
  simp only [encodeFirst]; omega

/-- The two words of a literal. -/
theorem lit_words (l : W64) : BitVec.ofNat 64 (l.toNat % 4294967296 + 4294967296 * (l.toNat / 4294967296)) = l := by
  rw [Nat.mod_add_div]; exact ofNat_toNat l

/-- Decoding by the first word's length field (R32). -/
theorem decode_len0 (w0 : Nat) (bs r0 : List Byte) (h : takeWord bs = some (w0, r0)) (hl : w0 % 4 = 0) :
    decode bs = some (ofOp (field w0 2 8) (decodeEnc w0 none none), r0) := by
  simp [decode, h, hl]

theorem decode_len1 (w0 w1 w2 : Nat) (bs r0 r1 r2 : List Byte) (h : takeWord bs = some (w0, r0)) (hl : w0 % 4 = 1)
    (h1 : takeWord r0 = some (w1, r1)) (h2 : takeWord r1 = some (w2, r2)) :
    decode bs = some (ofOp (field w0 2 8) (decodeEnc w0 (some (decodeExt w1 w2)) none), r2) := by
  simp [decode, h, hl, h1, h2]

theorem decode_len2 (w0 l0 l1 : Nat) (bs r0 r1 r2 : List Byte) (h : takeWord bs = some (w0, r0)) (hl : w0 % 4 = 2)
    (h1 : takeWord r0 = some (l0, r1)) (h2 : takeWord r1 = some (l1, r2)) :
    decode bs = some (ofOp (field w0 2 8) (decodeEnc w0 none (some (BitVec.ofNat 64 (l0 + 4294967296 * l1)))), r2) := by
  simp [decode, h, hl, h1, h2]

theorem decode_len3 (w0 w1 w2 l0 l1 : Nat) (bs r0 r1 r2 r3 r4 : List Byte) (h : takeWord bs = some (w0, r0)) (hl : w0 % 4 = 3)
    (h1 : takeWord r0 = some (w1, r1)) (h2 : takeWord r1 = some (w2, r2)) (h3 : takeWord r2 = some (l0, r3))
    (h4 : takeWord r3 = some (l1, r4)) :
    decode bs = some (ofOp (field w0 2 8)
      (decodeEnc w0 (some (decodeExt w1 w2)) (some (BitVec.ofNat 64 (l0 + 4294967296 * l1)))), r4) := by
  simp [decode, h, hl, h1, h2, h3, h4]

/-- Decoding undoes encoding, for an opcode and its fields. -/
theorem decode_encodeOp (op : Nat) (e : Enc) (h : op < 256) (rest : List Byte) :
    decode (encodeOp op e ++ rest) = some (ofOp op e, rest) := by
  have hf := first_len op e
  have ho := field_op op e h
  have hd := decodeEnc_encode op e h
  have hw := encodeFirst_lt op e h
  unfold encodeOp
  generalize encodeFirst op e = w at hf ho hd hw
  obtain ⟨b, a, d, gn, g, ext, lit⟩ := e
  cases lit with
  | none =>
    cases ext with
    | none =>
      rw [decode_len0 w _ rest (by simp only [List.append_nil]; exact takeWord_wordBytes w hw rest) hf, ho, hd]
    | some x =>
      rw [decode_len1 w _ _ _ _ _ rest (by simp only [List.append_nil, List.append_assoc]; exact takeWord_wordBytes w hw _) hf
        (takeWord_wordBytes _ (encodeW1_lt x) _) (takeWord_wordBytes _ (encodeW2_lt x) _), ho, hd, decodeExt_encode]
  | some l =>
    have l0 : l.toNat % 4294967296 < 4294967296 := Nat.mod_lt _ (by omega)
    have l1 : l.toNat / 4294967296 < 4294967296 := by have := l.isLt; omega
    cases ext with
    | none =>
      rw [decode_len2 w _ _ _ _ _ rest (by simp only [List.append_nil, List.append_assoc]; exact takeWord_wordBytes w hw _) hf
        (takeWord_wordBytes _ l0 _) (takeWord_wordBytes _ l1 _), ho, hd, lit_words]
    | some x =>
      rw [decode_len3 w _ _ _ _ _ _ _ _ _ rest (by simp only [List.append_assoc]; exact takeWord_wordBytes w hw _) hf
        (takeWord_wordBytes _ (encodeW1_lt x) _) (takeWord_wordBytes _ (encodeW2_lt x) _)
        (takeWord_wordBytes _ l0 _) (takeWord_wordBytes _ l1 _), ho, hd, decodeExt_encode, lit_words]

end Sys2Proof
end

