-- ==== Sys2Proof/Laws/PerInstr.lean ====
section
/-! SUPPORT. One lemma for each instruction: decoding undoes encoding (02 R32 to R55). -/

namespace Sys2Proof.Laws

/-- What holds of one instruction: its bytes decode to it whatever follows them; an event has no bytes. -/
def RoundTrip.Statement (i : Instr) : Prop :=
  WellFormed i = true → ∀ rest : List Byte,
    if (opcodeOf i).isSome then decode (encode i ++ rest) = some (i, rest) else encode i = []

theorem RoundTrip.of_opcode (i : Instr) (op : Nat) (e : Enc) (h : opcodeOf i = some (op, e)) (hop : op < 256) (hi : ofOp op e = i) :
    RoundTrip.Statement i := by
  intro _ rest
  simp only [encode, h, Option.isSome_some, if_true, decode_encodeOp op e hop rest, hi]

theorem RoundTrip.of_event (i : Instr) (h : opcodeOf i = none) : RoundTrip.Statement i := by
  intro _ rest
  simp [encode, h]

/-- The values that WellFormed calls unassigned are those that the map leaves empty. -/
theorem RoundTrip.unassigned_iff : ∀ n < 256, opUnassigned n = !opAssigned n := by decide +kernel

theorem RoundTrip.ofOp_unassigned (op : BitVec 8) (e : Enc) (h : opUnassigned op.toNat = true) :
    ofOp op.toNat e = .unassignedOpcode op e := by
  have hu := RoundTrip.unassigned_iff op.toNat op.isLt
  rw [h] at hu
  unfold opAssigned at hu
  unfold ofOp
  split
  · rename_i mk hm; rw [hm] at hu; simp at hu
  · rw [ofNat_toNat]

theorem RoundTrip.nop (e : Enc) : RoundTrip.Statement (.nop e) := RoundTrip.of_opcode _ 0x00 e rfl (by decide) rfl
theorem RoundTrip.bra (e : Enc) : RoundTrip.Statement (.bra e) := RoundTrip.of_opcode _ 0x01 e rfl (by decide) rfl
theorem RoundTrip.brx (e : Enc) : RoundTrip.Statement (.brx e) := RoundTrip.of_opcode _ 0x02 e rfl (by decide) rfl
theorem RoundTrip.call (e : Enc) : RoundTrip.Statement (.call e) := RoundTrip.of_opcode _ 0x03 e rfl (by decide) rfl
theorem RoundTrip.callReg (e : Enc) : RoundTrip.Statement (.callReg e) := RoundTrip.of_opcode _ 0x04 e rfl (by decide) rfl
theorem RoundTrip.ret (e : Enc) : RoundTrip.Statement (.ret e) := RoundTrip.of_opcode _ 0x05 e rfl (by decide) rfl
theorem RoundTrip.conv (e : Enc) : RoundTrip.Statement (.conv e) := RoundTrip.of_opcode _ 0x06 e rfl (by decide) rfl
theorem RoundTrip.exit (e : Enc) : RoundTrip.Statement (.exit e) := RoundTrip.of_opcode _ 0x07 e rfl (by decide) rfl
theorem RoundTrip.loop (e : Enc) : RoundTrip.Statement (.loop e) := RoundTrip.of_opcode _ 0x08 e rfl (by decide) rfl
theorem RoundTrip.loopImm (e : Enc) : RoundTrip.Statement (.loopImm e) := RoundTrip.of_opcode _ 0x09 e rfl (by decide) rfl
theorem RoundTrip.lbrk (e : Enc) : RoundTrip.Statement (.lbrk e) := RoundTrip.of_opcode _ 0x0A e rfl (by decide) rfl
theorem RoundTrip.yield (e : Enc) : RoundTrip.Statement (.yield e) := RoundTrip.of_opcode _ 0x0B e rfl (by decide) rfl
theorem RoundTrip.trap (e : Enc) : RoundTrip.Statement (.trap e) := RoundTrip.of_opcode _ 0x0C e rfl (by decide) rfl
theorem RoundTrip.trapReg (e : Enc) : RoundTrip.Statement (.trapReg e) := RoundTrip.of_opcode _ 0x0D e rfl (by decide) rfl
theorem RoundTrip.tret (e : Enc) : RoundTrip.Statement (.tret e) := RoundTrip.of_opcode _ 0x0E e rfl (by decide) rfl
theorem RoundTrip.tbnd (e : Enc) : RoundTrip.Statement (.tbnd e) := RoundTrip.of_opcode _ 0x0F e rfl (by decide) rfl
theorem RoundTrip.sflg (e : Enc) : RoundTrip.Statement (.sflg e) := RoundTrip.of_opcode _ 0x10 e rfl (by decide) rfl
theorem RoundTrip.sysr (e : Enc) : RoundTrip.Statement (.sysr e) := RoundTrip.of_opcode _ 0x11 e rfl (by decide) rfl
theorem RoundTrip.sysrImm (e : Enc) : RoundTrip.Statement (.sysrImm e) := RoundTrip.of_opcode _ 0x12 e rfl (by decide) rfl
theorem RoundTrip.sysw (e : Enc) : RoundTrip.Statement (.sysw e) := RoundTrip.of_opcode _ 0x13 e rfl (by decide) rfl
theorem RoundTrip.syswImm (e : Enc) : RoundTrip.Statement (.syswImm e) := RoundTrip.of_opcode _ 0x14 e rfl (by decide) rfl
theorem RoundTrip.lnch (e : Enc) : RoundTrip.Statement (.lnch e) := RoundTrip.of_opcode _ 0x15 e rfl (by decide) rfl
theorem RoundTrip.mov (e : Enc) : RoundTrip.Statement (.mov e) := RoundTrip.of_opcode _ 0x20 e rfl (by decide) rfl
theorem RoundTrip.movImm (e : Enc) : RoundTrip.Statement (.movImm e) := RoundTrip.of_opcode _ 0x21 e rfl (by decide) rfl
theorem RoundTrip.movs (e : Enc) : RoundTrip.Statement (.movs e) := RoundTrip.of_opcode _ 0x22 e rfl (by decide) rfl
theorem RoundTrip.iadd (e : Enc) : RoundTrip.Statement (.iadd e) := RoundTrip.of_opcode _ 0x23 e rfl (by decide) rfl
theorem RoundTrip.iaddImm (e : Enc) : RoundTrip.Statement (.iaddImm e) := RoundTrip.of_opcode _ 0x24 e rfl (by decide) rfl
theorem RoundTrip.isub (e : Enc) : RoundTrip.Statement (.isub e) := RoundTrip.of_opcode _ 0x25 e rfl (by decide) rfl
theorem RoundTrip.isubImm (e : Enc) : RoundTrip.Statement (.isubImm e) := RoundTrip.of_opcode _ 0x26 e rfl (by decide) rfl
theorem RoundTrip.imul (e : Enc) : RoundTrip.Statement (.imul e) := RoundTrip.of_opcode _ 0x27 e rfl (by decide) rfl
theorem RoundTrip.imulImm (e : Enc) : RoundTrip.Statement (.imulImm e) := RoundTrip.of_opcode _ 0x28 e rfl (by decide) rfl
theorem RoundTrip.imad (e : Enc) : RoundTrip.Statement (.imad e) := RoundTrip.of_opcode _ 0x29 e rfl (by decide) rfl
theorem RoundTrip.idiv (e : Enc) : RoundTrip.Statement (.idiv e) := RoundTrip.of_opcode _ 0x2A e rfl (by decide) rfl
theorem RoundTrip.imin (e : Enc) : RoundTrip.Statement (.imin e) := RoundTrip.of_opcode _ 0x2B e rfl (by decide) rfl
theorem RoundTrip.iminImm (e : Enc) : RoundTrip.Statement (.iminImm e) := RoundTrip.of_opcode _ 0x2C e rfl (by decide) rfl
theorem RoundTrip.imax (e : Enc) : RoundTrip.Statement (.imax e) := RoundTrip.of_opcode _ 0x2D e rfl (by decide) rfl
theorem RoundTrip.imaxImm (e : Enc) : RoundTrip.Statement (.imaxImm e) := RoundTrip.of_opcode _ 0x2E e rfl (by decide) rfl
theorem RoundTrip.iabs (e : Enc) : RoundTrip.Statement (.iabs e) := RoundTrip.of_opcode _ 0x2F e rfl (by decide) rfl
theorem RoundTrip.ineg (e : Enc) : RoundTrip.Statement (.ineg e) := RoundTrip.of_opcode _ 0x30 e rfl (by decide) rfl
theorem RoundTrip.bfn (e : Enc) : RoundTrip.Statement (.bfn e) := RoundTrip.of_opcode _ 0x31 e rfl (by decide) rfl
theorem RoundTrip.shf (e : Enc) : RoundTrip.Statement (.shf e) := RoundTrip.of_opcode _ 0x32 e rfl (by decide) rfl
theorem RoundTrip.shfImm (e : Enc) : RoundTrip.Statement (.shfImm e) := RoundTrip.of_opcode _ 0x33 e rfl (by decide) rfl
theorem RoundTrip.bfx (e : Enc) : RoundTrip.Statement (.bfx e) := RoundTrip.of_opcode _ 0x34 e rfl (by decide) rfl
theorem RoundTrip.bfi (e : Enc) : RoundTrip.Statement (.bfi e) := RoundTrip.of_opcode _ 0x35 e rfl (by decide) rfl
theorem RoundTrip.popc (e : Enc) : RoundTrip.Statement (.popc e) := RoundTrip.of_opcode _ 0x36 e rfl (by decide) rfl
theorem RoundTrip.clz (e : Enc) : RoundTrip.Statement (.clz e) := RoundTrip.of_opcode _ 0x37 e rfl (by decide) rfl
theorem RoundTrip.brev (e : Enc) : RoundTrip.Statement (.brev e) := RoundTrip.of_opcode _ 0x38 e rfl (by decide) rfl
theorem RoundTrip.icmp (e : Enc) : RoundTrip.Statement (.icmp e) := RoundTrip.of_opcode _ 0x39 e rfl (by decide) rfl
theorem RoundTrip.icmpImm (e : Enc) : RoundTrip.Statement (.icmpImm e) := RoundTrip.of_opcode _ 0x3A e rfl (by decide) rfl
theorem RoundTrip.sel (e : Enc) : RoundTrip.Statement (.sel e) := RoundTrip.of_opcode _ 0x3B e rfl (by decide) rfl
theorem RoundTrip.lea (e : Enc) : RoundTrip.Statement (.lea e) := RoundTrip.of_opcode _ 0x3C e rfl (by decide) rfl
theorem RoundTrip.leaImm (e : Enc) : RoundTrip.Statement (.leaImm e) := RoundTrip.of_opcode _ 0x3D e rfl (by decide) rfl
theorem RoundTrip.rkeep (e : Enc) : RoundTrip.Statement (.rkeep e) := RoundTrip.of_opcode _ 0x3E e rfl (by decide) rfl
theorem RoundTrip.rflush (e : Enc) : RoundTrip.Statement (.rflush e) := RoundTrip.of_opcode _ 0x3F e rfl (by decide) rfl
theorem RoundTrip.faddF32 (e : Enc) : RoundTrip.Statement (.faddF32 e) := RoundTrip.of_opcode _ 0x40 e rfl (by decide) rfl
theorem RoundTrip.faddF64 (e : Enc) : RoundTrip.Statement (.faddF64 e) := RoundTrip.of_opcode _ 0x41 e rfl (by decide) rfl
theorem RoundTrip.fmulF32 (e : Enc) : RoundTrip.Statement (.fmulF32 e) := RoundTrip.of_opcode _ 0x42 e rfl (by decide) rfl
theorem RoundTrip.fmulF64 (e : Enc) : RoundTrip.Statement (.fmulF64 e) := RoundTrip.of_opcode _ 0x43 e rfl (by decide) rfl
theorem RoundTrip.ffmaF32 (e : Enc) : RoundTrip.Statement (.ffmaF32 e) := RoundTrip.of_opcode _ 0x44 e rfl (by decide) rfl
theorem RoundTrip.ffmaF64 (e : Enc) : RoundTrip.Statement (.ffmaF64 e) := RoundTrip.of_opcode _ 0x45 e rfl (by decide) rfl
theorem RoundTrip.fdiv (e : Enc) : RoundTrip.Statement (.fdiv e) := RoundTrip.of_opcode _ 0x46 e rfl (by decide) rfl
theorem RoundTrip.fsqrt (e : Enc) : RoundTrip.Statement (.fsqrt e) := RoundTrip.of_opcode _ 0x47 e rfl (by decide) rfl
theorem RoundTrip.frcp (e : Enc) : RoundTrip.Statement (.frcp e) := RoundTrip.of_opcode _ 0x48 e rfl (by decide) rfl
theorem RoundTrip.frsq (e : Enc) : RoundTrip.Statement (.frsq e) := RoundTrip.of_opcode _ 0x49 e rfl (by decide) rfl
theorem RoundTrip.fex2 (e : Enc) : RoundTrip.Statement (.fex2 e) := RoundTrip.of_opcode _ 0x4A e rfl (by decide) rfl
theorem RoundTrip.flg2 (e : Enc) : RoundTrip.Statement (.flg2 e) := RoundTrip.of_opcode _ 0x4B e rfl (by decide) rfl
theorem RoundTrip.fsin (e : Enc) : RoundTrip.Statement (.fsin e) := RoundTrip.of_opcode _ 0x4C e rfl (by decide) rfl
theorem RoundTrip.fcos (e : Enc) : RoundTrip.Statement (.fcos e) := RoundTrip.of_opcode _ 0x4D e rfl (by decide) rfl
theorem RoundTrip.fmin (e : Enc) : RoundTrip.Statement (.fmin e) := RoundTrip.of_opcode _ 0x4E e rfl (by decide) rfl
theorem RoundTrip.fmax (e : Enc) : RoundTrip.Statement (.fmax e) := RoundTrip.of_opcode _ 0x4F e rfl (by decide) rfl
theorem RoundTrip.fcmp (e : Enc) : RoundTrip.Statement (.fcmp e) := RoundTrip.of_opcode _ 0x50 e rfl (by decide) rfl
theorem RoundTrip.fclass (e : Enc) : RoundTrip.Statement (.fclass e) := RoundTrip.of_opcode _ 0x51 e rfl (by decide) rfl
theorem RoundTrip.frnd (e : Enc) : RoundTrip.Statement (.frnd e) := RoundTrip.of_opcode _ 0x52 e rfl (by decide) rfl
theorem RoundTrip.fscb (e : Enc) : RoundTrip.Statement (.fscb e) := RoundTrip.of_opcode _ 0x53 e rfl (by decide) rfl
theorem RoundTrip.flgb (e : Enc) : RoundTrip.Statement (.flgb e) := RoundTrip.of_opcode _ 0x54 e rfl (by decide) rfl
theorem RoundTrip.fcsg (e : Enc) : RoundTrip.Statement (.fcsg e) := RoundTrip.of_opcode _ 0x55 e rfl (by decide) rfl
theorem RoundTrip.f2i (e : Enc) : RoundTrip.Statement (.f2i e) := RoundTrip.of_opcode _ 0x56 e rfl (by decide) rfl
theorem RoundTrip.i2f (e : Enc) : RoundTrip.Statement (.i2f e) := RoundTrip.of_opcode _ 0x57 e rfl (by decide) rfl
theorem RoundTrip.f2f (e : Enc) : RoundTrip.Statement (.f2f e) := RoundTrip.of_opcode _ 0x58 e rfl (by decide) rfl
theorem RoundTrip.cvtpk (e : Enc) : RoundTrip.Statement (.cvtpk e) := RoundTrip.of_opcode _ 0x59 e rfl (by decide) rfl
theorem RoundTrip.cvtup (e : Enc) : RoundTrip.Statement (.cvtup e) := RoundTrip.of_opcode _ 0x5A e rfl (by decide) rfl
theorem RoundTrip.qscl (e : Enc) : RoundTrip.Statement (.qscl e) := RoundTrip.of_opcode _ 0x5B e rfl (by decide) rfl
theorem RoundTrip.slres (e : Enc) : RoundTrip.Statement (.slres e) := RoundTrip.of_opcode _ 0x5C e rfl (by decide) rfl
theorem RoundTrip.fflg (e : Enc) : RoundTrip.Statement (.fflg e) := RoundTrip.of_opcode _ 0x5D e rfl (by decide) rfl
theorem RoundTrip.frm (e : Enc) : RoundTrip.Statement (.frm e) := RoundTrip.of_opcode _ 0x5E e rfl (by decide) rfl
theorem RoundTrip.voteAll (e : Enc) : RoundTrip.Statement (.voteAll e) := RoundTrip.of_opcode _ 0x60 e rfl (by decide) rfl
theorem RoundTrip.voteAny (e : Enc) : RoundTrip.Statement (.voteAny e) := RoundTrip.of_opcode _ 0x61 e rfl (by decide) rfl
theorem RoundTrip.voteBallot (e : Enc) : RoundTrip.Statement (.voteBallot e) := RoundTrip.of_opcode _ 0x62 e rfl (by decide) rfl
theorem RoundTrip.pfn (e : Enc) : RoundTrip.Statement (.pfn e) := RoundTrip.of_opcode _ 0x63 e rfl (by decide) rfl
theorem RoundTrip.pmov (e : Enc) : RoundTrip.Statement (.pmov e) := RoundTrip.of_opcode _ 0x64 e rfl (by decide) rfl
theorem RoundTrip.srd (e : Enc) : RoundTrip.Statement (.srd e) := RoundTrip.of_opcode _ 0x65 e rfl (by decide) rfl
theorem RoundTrip.swr (e : Enc) : RoundTrip.Statement (.swr e) := RoundTrip.of_opcode _ 0x66 e rfl (by decide) rfl
theorem RoundTrip.shflIdx (e : Enc) : RoundTrip.Statement (.shflIdx e) := RoundTrip.of_opcode _ 0x67 e rfl (by decide) rfl
theorem RoundTrip.shflIdxImm (e : Enc) : RoundTrip.Statement (.shflIdxImm e) := RoundTrip.of_opcode _ 0x68 e rfl (by decide) rfl
theorem RoundTrip.shflUp (e : Enc) : RoundTrip.Statement (.shflUp e) := RoundTrip.of_opcode _ 0x69 e rfl (by decide) rfl
theorem RoundTrip.shflUpImm (e : Enc) : RoundTrip.Statement (.shflUpImm e) := RoundTrip.of_opcode _ 0x6A e rfl (by decide) rfl
theorem RoundTrip.shflDown (e : Enc) : RoundTrip.Statement (.shflDown e) := RoundTrip.of_opcode _ 0x6B e rfl (by decide) rfl
theorem RoundTrip.shflDownImm (e : Enc) : RoundTrip.Statement (.shflDownImm e) := RoundTrip.of_opcode _ 0x6C e rfl (by decide) rfl
theorem RoundTrip.shflXor (e : Enc) : RoundTrip.Statement (.shflXor e) := RoundTrip.of_opcode _ 0x6D e rfl (by decide) rfl
theorem RoundTrip.shflXorImm (e : Enc) : RoundTrip.Statement (.shflXorImm e) := RoundTrip.of_opcode _ 0x6E e rfl (by decide) rfl
theorem RoundTrip.bcst (e : Enc) : RoundTrip.Statement (.bcst e) := RoundTrip.of_opcode _ 0x6F e rfl (by decide) rfl
theorem RoundTrip.bcstImm (e : Enc) : RoundTrip.Statement (.bcstImm e) := RoundTrip.of_opcode _ 0x70 e rfl (by decide) rfl
theorem RoundTrip.lredAdd (e : Enc) : RoundTrip.Statement (.lredAdd e) := RoundTrip.of_opcode _ 0x71 e rfl (by decide) rfl
theorem RoundTrip.lredMin (e : Enc) : RoundTrip.Statement (.lredMin e) := RoundTrip.of_opcode _ 0x72 e rfl (by decide) rfl
theorem RoundTrip.lredMax (e : Enc) : RoundTrip.Statement (.lredMax e) := RoundTrip.of_opcode _ 0x73 e rfl (by decide) rfl
theorem RoundTrip.lredAnd (e : Enc) : RoundTrip.Statement (.lredAnd e) := RoundTrip.of_opcode _ 0x74 e rfl (by decide) rfl
theorem RoundTrip.lredOr (e : Enc) : RoundTrip.Statement (.lredOr e) := RoundTrip.of_opcode _ 0x75 e rfl (by decide) rfl
theorem RoundTrip.lredXor (e : Enc) : RoundTrip.Statement (.lredXor e) := RoundTrip.of_opcode _ 0x76 e rfl (by decide) rfl
theorem RoundTrip.radd (e : Enc) : RoundTrip.Statement (.radd e) := RoundTrip.of_opcode _ 0x77 e rfl (by decide) rfl
theorem RoundTrip.rscanInc (e : Enc) : RoundTrip.Statement (.rscanInc e) := RoundTrip.of_opcode _ 0x78 e rfl (by decide) rfl
theorem RoundTrip.rscanExc (e : Enc) : RoundTrip.Statement (.rscanExc e) := RoundTrip.of_opcode _ 0x79 e rfl (by decide) rfl
theorem RoundTrip.matchAny (e : Enc) : RoundTrip.Statement (.matchAny e) := RoundTrip.of_opcode _ 0x7A e rfl (by decide) rfl
theorem RoundTrip.matchAll (e : Enc) : RoundTrip.Statement (.matchAll e) := RoundTrip.of_opcode _ 0x7B e rfl (by decide) rfl
theorem RoundTrip.actv (e : Enc) : RoundTrip.Statement (.actv e) := RoundTrip.of_opcode _ 0x7C e rfl (by decide) rfl
theorem RoundTrip.ldVector (e : Enc) : RoundTrip.Statement (.ldVector e) := RoundTrip.of_opcode _ 0x80 e rfl (by decide) rfl
theorem RoundTrip.ldUniform (e : Enc) : RoundTrip.Statement (.ldUniform e) := RoundTrip.of_opcode _ 0x81 e rfl (by decide) rfl
theorem RoundTrip.stVector (e : Enc) : RoundTrip.Statement (.stVector e) := RoundTrip.of_opcode _ 0x82 e rfl (by decide) rfl
theorem RoundTrip.stUniform (e : Enc) : RoundTrip.Statement (.stUniform e) := RoundTrip.of_opcode _ 0x83 e rfl (by decide) rfl
theorem RoundTrip.ldg (e : Enc) : RoundTrip.Statement (.ldg e) := RoundTrip.of_opcode _ 0x84 e rfl (by decide) rfl
theorem RoundTrip.stg (e : Enc) : RoundTrip.Statement (.stg e) := RoundTrip.of_opcode _ 0x85 e rfl (by decide) rfl
theorem RoundTrip.cder (e : Enc) : RoundTrip.Statement (.cder e) := RoundTrip.of_opcode _ 0x86 e rfl (by decide) rfl
theorem RoundTrip.cderImm (e : Enc) : RoundTrip.Statement (.cderImm e) := RoundTrip.of_opcode _ 0x87 e rfl (by decide) rfl
theorem RoundTrip.cget (e : Enc) : RoundTrip.Statement (.cget e) := RoundTrip.of_opcode _ 0x88 e rfl (by decide) rfl
theorem RoundTrip.cset (e : Enc) : RoundTrip.Statement (.cset e) := RoundTrip.of_opcode _ 0x89 e rfl (by decide) rfl
theorem RoundTrip.cadd (e : Enc) : RoundTrip.Statement (.cadd e) := RoundTrip.of_opcode _ 0x8A e rfl (by decide) rfl
theorem RoundTrip.caddImm (e : Enc) : RoundTrip.Statement (.caddImm e) := RoundTrip.of_opcode _ 0x8B e rfl (by decide) rfl
theorem RoundTrip.ctst (e : Enc) : RoundTrip.Statement (.ctst e) := RoundTrip.of_opcode _ 0x8C e rfl (by decide) rfl
theorem RoundTrip.cclr (e : Enc) : RoundTrip.Statement (.cclr e) := RoundTrip.of_opcode _ 0x8D e rfl (by decide) rfl
theorem RoundTrip.pgprf (e : Enc) : RoundTrip.Statement (.pgprf e) := RoundTrip.of_opcode _ 0x8E e rfl (by decide) rfl
theorem RoundTrip.bind (e : Enc) : RoundTrip.Statement (.bind e) := RoundTrip.of_opcode _ 0x8F e rfl (by decide) rfl
theorem RoundTrip.unbind (e : Enc) : RoundTrip.Statement (.unbind e) := RoundTrip.of_opcode _ 0x90 e rfl (by decide) rfl
theorem RoundTrip.acq (e : Enc) : RoundTrip.Statement (.acq e) := RoundTrip.of_opcode _ 0x91 e rfl (by decide) rfl
theorem RoundTrip.rel (e : Enc) : RoundTrip.Statement (.rel e) := RoundTrip.of_opcode _ 0x92 e rfl (by decide) rfl
theorem RoundTrip.fence (e : Enc) : RoundTrip.Statement (.fence e) := RoundTrip.of_opcode _ 0x93 e rfl (by decide) rfl
theorem RoundTrip.atomInt (e : Enc) : RoundTrip.Statement (.atomInt e) := RoundTrip.of_opcode _ 0x94 e rfl (by decide) rfl
theorem RoundTrip.atomFloat (e : Enc) : RoundTrip.Statement (.atomFloat e) := RoundTrip.of_opcode _ 0x95 e rfl (by decide) rfl
theorem RoundTrip.redInt (e : Enc) : RoundTrip.Statement (.redInt e) := RoundTrip.of_opcode _ 0x96 e rfl (by decide) rfl
theorem RoundTrip.redFloat (e : Enc) : RoundTrip.Statement (.redFloat e) := RoundTrip.of_opcode _ 0x97 e rfl (by decide) rfl
theorem RoundTrip.lr (e : Enc) : RoundTrip.Statement (.lr e) := RoundTrip.of_opcode _ 0x98 e rfl (by decide) rfl
theorem RoundTrip.sc (e : Enc) : RoundTrip.Statement (.sc e) := RoundTrip.of_opcode _ 0x99 e rfl (by decide) rfl
theorem RoundTrip.waitc (e : Enc) : RoundTrip.Statement (.waitc e) := RoundTrip.of_opcode _ 0x9A e rfl (by decide) rfl
theorem RoundTrip.stand (e : Enc) : RoundTrip.Statement (.stand e) := RoundTrip.of_opcode _ 0x9B e rfl (by decide) rfl
theorem RoundTrip.unstand (e : Enc) : RoundTrip.Statement (.unstand e) := RoundTrip.of_opcode _ 0x9C e rfl (by decide) rfl
theorem RoundTrip.stq (e : Enc) : RoundTrip.Statement (.stq e) := RoundTrip.of_opcode _ 0x9D e rfl (by decide) rfl
theorem RoundTrip.tdef (e : Enc) : RoundTrip.Statement (.tdef e) := RoundTrip.of_opcode _ 0xA0 e rfl (by decide) rfl
theorem RoundTrip.tmov (e : Enc) : RoundTrip.Statement (.tmov e) := RoundTrip.of_opcode _ 0xA1 e rfl (by decide) rfl
theorem RoundTrip.twait (e : Enc) : RoundTrip.Statement (.twait e) := RoundTrip.of_opcode _ 0xA2 e rfl (by decide) rfl
theorem RoundTrip.tstat (e : Enc) : RoundTrip.Statement (.tstat e) := RoundTrip.of_opcode _ 0xA3 e rfl (by decide) rfl
theorem RoundTrip.trel (e : Enc) : RoundTrip.Statement (.trel e) := RoundTrip.of_opcode _ 0xA4 e rfl (by decide) rfl
theorem RoundTrip.tfill (e : Enc) : RoundTrip.Statement (.tfill e) := RoundTrip.of_opcode _ 0xA5 e rfl (by decide) rfl
theorem RoundTrip.cpy (e : Enc) : RoundTrip.Statement (.cpy e) := RoundTrip.of_opcode _ 0xA6 e rfl (by decide) rfl
theorem RoundTrip.cpyMm (e : Enc) : RoundTrip.Statement (.cpyMm e) := RoundTrip.of_opcode _ 0xA7 e rfl (by decide) rfl
theorem RoundTrip.cpyr (e : Enc) : RoundTrip.Statement (.cpyr e) := RoundTrip.of_opcode _ 0xA8 e rfl (by decide) rfl
theorem RoundTrip.cpyq (e : Enc) : RoundTrip.Statement (.cpyq e) := RoundTrip.of_opcode _ 0xA9 e rfl (by decide) rfl
theorem RoundTrip.bari (e : Enc) : RoundTrip.Statement (.bari e) := RoundTrip.of_opcode _ 0xAA e rfl (by decide) rfl
theorem RoundTrip.bariImm (e : Enc) : RoundTrip.Statement (.bariImm e) := RoundTrip.of_opcode _ 0xAB e rfl (by decide) rfl
theorem RoundTrip.barr (e : Enc) : RoundTrip.Statement (.barr e) := RoundTrip.of_opcode _ 0xAC e rfl (by decide) rfl
theorem RoundTrip.barrImm (e : Enc) : RoundTrip.Statement (.barrImm e) := RoundTrip.of_opcode _ 0xAD e rfl (by decide) rfl
theorem RoundTrip.barw (e : Enc) : RoundTrip.Statement (.barw e) := RoundTrip.of_opcode _ 0xAE e rfl (by decide) rfl
theorem RoundTrip.barwImm (e : Enc) : RoundTrip.Statement (.barwImm e) := RoundTrip.of_opcode _ 0xAF e rfl (by decide) rfl
theorem RoundTrip.barx (e : Enc) : RoundTrip.Statement (.barx e) := RoundTrip.of_opcode _ 0xB0 e rfl (by decide) rfl
theorem RoundTrip.barxImm (e : Enc) : RoundTrip.Statement (.barxImm e) := RoundTrip.of_opcode _ 0xB1 e rfl (by decide) rfl
theorem RoundTrip.qpush (e : Enc) : RoundTrip.Statement (.qpush e) := RoundTrip.of_opcode _ 0xB2 e rfl (by decide) rfl
theorem RoundTrip.qpop (e : Enc) : RoundTrip.Statement (.qpop e) := RoundTrip.of_opcode _ 0xB3 e rfl (by decide) rfl
theorem RoundTrip.qpeek (e : Enc) : RoundTrip.Statement (.qpeek e) := RoundTrip.of_opcode _ 0xB4 e rfl (by decide) rfl
theorem RoundTrip.foxgo (e : Enc) : RoundTrip.Statement (.foxgo e) := RoundTrip.of_opcode _ 0xB5 e rfl (by decide) rfl
theorem RoundTrip.foxhalt (e : Enc) : RoundTrip.Statement (.foxhalt e) := RoundTrip.of_opcode _ 0xB6 e rfl (by decide) rfl
theorem RoundTrip.mldb (e : Enc) : RoundTrip.Statement (.mldb e) := RoundTrip.of_opcode _ 0xC0 e rfl (by decide) rfl
theorem RoundTrip.mrel (e : Enc) : RoundTrip.Statement (.mrel e) := RoundTrip.of_opcode _ 0xC1 e rfl (by decide) rfl
theorem RoundTrip.mmaInt (e : Enc) : RoundTrip.Statement (.mmaInt e) := RoundTrip.of_opcode _ 0xC2 e rfl (by decide) rfl
theorem RoundTrip.mmaFloat (e : Enc) : RoundTrip.Statement (.mmaFloat e) := RoundTrip.of_opcode _ 0xC3 e rfl (by decide) rfl
theorem RoundTrip.mms (e : Enc) : RoundTrip.Statement (.mms e) := RoundTrip.of_opcode _ 0xC4 e rfl (by decide) rfl
theorem RoundTrip.maccTile (e : Enc) : RoundTrip.Statement (.maccTile e) := RoundTrip.of_opcode _ 0xC5 e rfl (by decide) rfl
theorem RoundTrip.maccRegs (e : Enc) : RoundTrip.Statement (.maccRegs e) := RoundTrip.of_opcode _ 0xC6 e rfl (by decide) rfl
theorem RoundTrip.mzero (e : Enc) : RoundTrip.Statement (.mzero e) := RoundTrip.of_opcode _ 0xC7 e rfl (by decide) rfl
theorem RoundTrip.mstat (e : Enc) : RoundTrip.Statement (.mstat e) := RoundTrip.of_opcode _ 0xC8 e rfl (by decide) rfl
theorem RoundTrip.mxq (e : Enc) : RoundTrip.Statement (.mxq e) := RoundTrip.of_opcode _ 0xC9 e rfl (by decide) rfl
theorem RoundTrip.mxdq (e : Enc) : RoundTrip.Statement (.mxdq e) := RoundTrip.of_opcode _ 0xCA e rfl (by decide) rfl
theorem RoundTrip.mtr (e : Enc) : RoundTrip.Statement (.mtr e) := RoundTrip.of_opcode _ 0xCB e rfl (by decide) rfl
theorem RoundTrip.grec (e : Enc) : RoundTrip.Statement (.grec e) := RoundTrip.of_opcode _ 0xCC e rfl (by decide) rfl
theorem RoundTrip.gemit (e : Enc) : RoundTrip.Statement (.gemit e) := RoundTrip.of_opcode _ 0xCD e rfl (by decide) rfl
theorem RoundTrip.gfree (e : Enc) : RoundTrip.Statement (.gfree e) := RoundTrip.of_opcode _ 0xCE e rfl (by decide) rfl
theorem RoundTrip.gpool (e : Enc) : RoundTrip.Statement (.gpool e) := RoundTrip.of_opcode _ 0xCF e rfl (by decide) rfl
theorem RoundTrip.cutsel (e : Enc) : RoundTrip.Statement (.cutsel e) := RoundTrip.of_opcode _ 0xD0 e rfl (by decide) rfl
theorem RoundTrip.clfetch (e : Enc) : RoundTrip.Statement (.clfetch e) := RoundTrip.of_opcode _ 0xD1 e rfl (by decide) rfl
theorem RoundTrip.rsub (e : Enc) : RoundTrip.Statement (.rsub e) := RoundTrip.of_opcode _ 0xD2 e rfl (by decide) rfl
theorem RoundTrip.rwait (e : Enc) : RoundTrip.Statement (.rwait e) := RoundTrip.of_opcode _ 0xD3 e rfl (by decide) rfl
theorem RoundTrip.rayq (e : Enc) : RoundTrip.Statement (.rayq e) := RoundTrip.of_opcode _ 0xD4 e rfl (by decide) rfl
theorem RoundTrip.raynx (e : Enc) : RoundTrip.Statement (.raynx e) := RoundTrip.of_opcode _ 0xD5 e rfl (by decide) rfl
theorem RoundTrip.visd (e : Enc) : RoundTrip.Statement (.visd e) := RoundTrip.of_opcode _ 0xD6 e rfl (by decide) rfl
theorem RoundTrip.dhash (e : Enc) : RoundTrip.Statement (.dhash e) := RoundTrip.of_opcode _ 0xD7 e rfl (by decide) rfl
theorem RoundTrip.dmark (e : Enc) : RoundTrip.Statement (.dmark e) := RoundTrip.of_opcode _ 0xD8 e rfl (by decide) rfl
theorem RoundTrip.unassignedOpcode (op : BitVec 8) (e : Enc) : RoundTrip.Statement (.unassignedOpcode op e) := fun hw =>
  RoundTrip.of_opcode _ op.toNat e rfl op.isLt (RoundTrip.ofOp_unassigned op e hw) hw
theorem RoundTrip.deferredTrapDelivery (pack : Nat) : RoundTrip.Statement (.deferredTrapDelivery pack) := RoundTrip.of_event _ rfl
theorem RoundTrip.issueStarvation (pack : Nat) : RoundTrip.Statement (.issueStarvation pack) := RoundTrip.of_event _ rfl
theorem RoundTrip.subsetAgeLimit (pack : Nat) : RoundTrip.Statement (.subsetAgeLimit pack) := RoundTrip.of_event _ rfl
theorem RoundTrip.lineRefill (pack row : Nat) : RoundTrip.Statement (.lineRefill pack row) := RoundTrip.of_event _ rfl
theorem RoundTrip.spillDrain (core : Nat) : RoundTrip.Statement (.spillDrain core) := RoundTrip.of_event _ rfl
theorem RoundTrip.translationWalk (core asid va kind space : Nat) : RoundTrip.Statement (.translationWalk core asid va kind space) := RoundTrip.of_event _ rfl
theorem RoundTrip.faultRecordPost : RoundTrip.Statement (.faultRecordPost) := RoundTrip.of_event _ rfl
theorem RoundTrip.faultRetry (asid page : Nat) : RoundTrip.Statement (.faultRetry asid page) := RoundTrip.of_event _ rfl
theorem RoundTrip.faultFatal (asid page : Nat) : RoundTrip.Statement (.faultFatal asid page) := RoundTrip.of_event _ rfl
theorem RoundTrip.quayGrantWindow (quay : Nat) : RoundTrip.Statement (.quayGrantWindow quay) := RoundTrip.of_event _ rfl
theorem RoundTrip.mooringGrant (launch moor : Nat) : RoundTrip.Statement (.mooringGrant launch moor) := RoundTrip.of_event _ rfl
theorem RoundTrip.monitorWake (pack : Nat) : RoundTrip.Statement (.monitorWake pack) := RoundTrip.of_event _ rfl
theorem RoundTrip.repoll (quay : Nat) : RoundTrip.Statement (.repoll quay) := RoundTrip.of_event _ rfl
theorem RoundTrip.recall (gran : Nat) : RoundTrip.Statement (.recall gran) := RoundTrip.of_event _ rfl
theorem RoundTrip.recallTimeout (gran : Nat) : RoundTrip.Statement (.recallTimeout gran) := RoundTrip.of_event _ rfl
theorem RoundTrip.pushDelivery (sub : Nat) : RoundTrip.Statement (.pushDelivery sub) := RoundTrip.of_event _ rfl
theorem RoundTrip.unstandAck (sub : Nat) : RoundTrip.Statement (.unstandAck sub) := RoundTrip.of_event _ rfl
theorem RoundTrip.copyComplete (cp : Nat) : RoundTrip.Statement (.copyComplete cp) := RoundTrip.of_event _ rfl
theorem RoundTrip.copyAbandon (cp cause : Nat) : RoundTrip.Statement (.copyAbandon cp cause) := RoundTrip.of_event _ rfl
theorem RoundTrip.followOnHandover (cp : Nat) : RoundTrip.Statement (.followOnHandover cp) := RoundTrip.of_event _ rfl
theorem RoundTrip.cpyrApply (cp : Nat) : RoundTrip.Statement (.cpyrApply cp) := RoundTrip.of_event _ rfl
theorem RoundTrip.cpyqPush (cp : Nat) : RoundTrip.Statement (.cpyqPush cp) := RoundTrip.of_event _ rfl
theorem RoundTrip.sequencerStep (core : Nat) : RoundTrip.Statement (.sequencerStep core) := RoundTrip.of_event _ rfl
theorem RoundTrip.matrixComplete (core : Nat) : RoundTrip.Statement (.matrixComplete core) := RoundTrip.of_event _ rfl
theorem RoundTrip.cutselComplete (geo : Nat) : RoundTrip.Statement (.cutselComplete geo) := RoundTrip.of_event _ rfl
theorem RoundTrip.rsubComplete (geo : Nat) : RoundTrip.Statement (.rsubComplete geo) := RoundTrip.of_event _ rfl
theorem RoundTrip.checkpoint (crew : Nat) : RoundTrip.Statement (.checkpoint crew) := RoundTrip.of_event _ rfl
theorem RoundTrip.uceConsume (crew sub : Nat) : RoundTrip.Statement (.uceConsume crew sub) := RoundTrip.of_event _ rfl
theorem RoundTrip.watchdogExpire (pack : Nat) : RoundTrip.Statement (.watchdogExpire pack) := RoundTrip.of_event _ rfl
theorem RoundTrip.gateAdmit (launch quay : Nat) : RoundTrip.Statement (.gateAdmit launch quay) := RoundTrip.of_event _ rfl
theorem RoundTrip.notify (queue off size : Nat) (nwidx : BitVec 64) : RoundTrip.Statement (.notify queue off size nwidx) := RoundTrip.of_event _ rfl
theorem RoundTrip.haltClear (queue : Nat) : RoundTrip.Statement (.haltClear queue) := RoundTrip.of_event _ rfl
theorem RoundTrip.registerWrite (addr size : Nat) (val : BitVec 64) : RoundTrip.Statement (.registerWrite addr size val) := RoundTrip.of_event _ rfl
theorem RoundTrip.launch (queue : Nat) : RoundTrip.Statement (.launch queue) := RoundTrip.of_event _ rfl
theorem RoundTrip.graph (queue : Nat) : RoundTrip.Statement (.graph queue) := RoundTrip.of_event _ rfl
theorem RoundTrip.copy (queue : Nat) : RoundTrip.Statement (.copy queue) := RoundTrip.of_event _ rfl
theorem RoundTrip.signal (queue : Nat) : RoundTrip.Statement (.signal queue) := RoundTrip.of_event _ rfl
theorem RoundTrip.wait (queue : Nat) : RoundTrip.Statement (.wait queue) := RoundTrip.of_event _ rfl
theorem RoundTrip.mark (queue : Nat) : RoundTrip.Statement (.mark queue) := RoundTrip.of_event _ rfl
theorem RoundTrip.waitComplete (queue : Nat) : RoundTrip.Statement (.waitComplete queue) := RoundTrip.of_event _ rfl
theorem RoundTrip.copyPacketComplete (queue idx : Nat) : RoundTrip.Statement (.copyPacketComplete queue idx) := RoundTrip.of_event _ rfl
theorem RoundTrip.launchComplete (launch : Nat) : RoundTrip.Statement (.launchComplete launch) := RoundTrip.of_event _ rfl
theorem RoundTrip.graphComplete (launch : Nat) : RoundTrip.Statement (.graphComplete launch) := RoundTrip.of_event _ rfl
theorem RoundTrip.slotGrant (queue : Nat) : RoundTrip.Statement (.slotGrant queue) := RoundTrip.of_event _ rfl
theorem RoundTrip.priorityAgeing (queue : Nat) : RoundTrip.Statement (.priorityAgeing queue) := RoundTrip.of_event _ rfl
theorem RoundTrip.slotSliceExpire (queue : Nat) : RoundTrip.Statement (.slotSliceExpire queue) := RoundTrip.of_event _ rfl
theorem RoundTrip.crewPlace (launch : Nat) : RoundTrip.Statement (.crewPlace launch) := RoundTrip.of_event _ rfl
theorem RoundTrip.crewReturn (crew : Nat) : RoundTrip.Statement (.crewReturn crew) := RoundTrip.of_event _ rfl
theorem RoundTrip.quantumEnd (gang : Nat) : RoundTrip.Statement (.quantumEnd gang) := RoundTrip.of_event _ rfl
theorem RoundTrip.swapOut (crew : Nat) : RoundTrip.Statement (.swapOut crew) := RoundTrip.of_event _ rfl
theorem RoundTrip.preemptWindowExpire (crew : Nat) : RoundTrip.Statement (.preemptWindowExpire crew) := RoundTrip.of_event _ rfl
theorem RoundTrip.deviceLaunchStart : RoundTrip.Statement (.deviceLaunchStart) := RoundTrip.of_event _ rfl
theorem RoundTrip.batchTimeout (launch node : Nat) : RoundTrip.Statement (.batchTimeout launch node) := RoundTrip.of_event _ rfl
theorem RoundTrip.batchQuiescentLaunch (launch node : Nat) : RoundTrip.Statement (.batchQuiescentLaunch launch node) := RoundTrip.of_event _ rfl
theorem RoundTrip.invalidate : RoundTrip.Statement (.invalidate) := RoundTrip.of_event _ rfl
theorem RoundTrip.preempt : RoundTrip.Statement (.preempt) := RoundTrip.of_event _ rfl
theorem RoundTrip.launchSv : RoundTrip.Statement (.launchSv) := RoundTrip.of_event _ rfl
theorem RoundTrip.makeManifest : RoundTrip.Statement (.makeManifest) := RoundTrip.of_event _ rfl
theorem RoundTrip.compareManifest : RoundTrip.Statement (.compareManifest) := RoundTrip.of_event _ rfl
theorem RoundTrip.setCap : RoundTrip.Statement (.setCap) := RoundTrip.of_event _ rfl
theorem RoundTrip.attest : RoundTrip.Statement (.attest) := RoundTrip.of_event _ rfl
theorem RoundTrip.queueEnable : RoundTrip.Statement (.queueEnable) := RoundTrip.of_event _ rfl
theorem RoundTrip.queueDisable : RoundTrip.Statement (.queueDisable) := RoundTrip.of_event _ rfl
theorem RoundTrip.eventPost : RoundTrip.Statement (.eventPost) := RoundTrip.of_event _ rfl
theorem RoundTrip.powerOnReset (bootErr : Nat) (cxl : List (Nat × Nat)) (asidt : Nat) (ports : List (Nat × Nat)) : RoundTrip.Statement (.powerOnReset bootErr cxl asidt ports) := RoundTrip.of_event _ rfl
theorem RoundTrip.functionLevelReset : RoundTrip.Statement (.functionLevelReset) := RoundTrip.of_event _ rfl
theorem RoundTrip.powerCapWindow (watts : Nat) : RoundTrip.Statement (.powerCapWindow watts) := RoundTrip.of_event _ rfl
theorem RoundTrip.thermalThrottle : RoundTrip.Statement (.thermalThrottle) := RoundTrip.of_event _ rfl
theorem RoundTrip.thermalTrip : RoundTrip.Statement (.thermalTrip) := RoundTrip.of_event _ rfl
theorem RoundTrip.thermalRestart : RoundTrip.Statement (.thermalRestart) := RoundTrip.of_event _ rfl
theorem RoundTrip.coolantFlowLow : RoundTrip.Statement (.coolantFlowLow) := RoundTrip.of_event _ rfl
theorem RoundTrip.flitReplay (port : Nat) (ok : Bool) : RoundTrip.Statement (.flitReplay port ok) := RoundTrip.of_event _ rfl
theorem RoundTrip.linkRequest (req : LinkReq) : RoundTrip.Statement (.linkRequest req) := RoundTrip.of_event _ rfl
theorem RoundTrip.badPacket (queue : Nat) : RoundTrip.Statement (.badPacket queue) := RoundTrip.of_event _ rfl
theorem RoundTrip.badCommand : RoundTrip.Statement (.badCommand) := RoundTrip.of_event _ rfl
theorem RoundTrip.coolantFlowRestored : RoundTrip.Statement (.coolantFlowRestored) := RoundTrip.of_event _ rfl

end Sys2Proof.Laws
end

