-- ==== Sys2Proof/Safety.lean ====
section
/-! DEFINITION. The terms in which claims speak: what it takes for an instruction to issue, the state after it completes, and
what the common forms of instructions leave. -/

namespace Sys2Proof.Safety

open Sys2Proof.Machine

/-- Memory and the tables of one-bit facts are in canonical form, so that equal contents are equal data. -/
def tablesWf (s : State) : Bool :=
  memWf s.mem && Tab.wf false s.tags && Tab.wf false s.poison && Tab.wf 0 s.detail && Tab.wf 0 s.check && Tab.wf 0 s.headers && Tab.wf 0 s.counters

/-- The package cap lies in its range (17 R503). -/
def capInRange (s : State) : Bool := 1500 ≤ s.power.cap && s.power.cap ≤ 3000

/-- A step that ends in a next state. -/
def goesOn (s : State) : Prop := ∃ t, step s = .next t

end Sys2Proof.Safety

namespace Sys2Proof.Machine

/-! ### Issue and completion -/

/-- The pack named as the issuing one can issue `i`: it lives, the encoding breaks no check of 02 R57, no status that a
cutsel has still to write is among the registers named (04 R98), and in a Track launch no part of it was done in an earlier turn, before
a wait at an order gate (16 R478). -/
structure Issuable (i : Instr) (s : State) : Prop where
  pack : s.isFox = false
  live : (s.pack s.cur).live = true
  legal : illopSub (s.pack s.cur).width i = none
  ready : statusPending s s.cur (s.pack s.cur).width i = false
  begins : s.isTrack (s.pack s.cur).launch = true → untouched s s.cur = true

/-- The issuing pack, with the dead bits that its address sets (05 R137, R138). -/
def issuing (s : State) : Pack := applyDead s (s.pack s.cur) (packPc (s.pack s.cur))

/-- The state in which the instruction does its work. -/
def issued (s : State) : State := s.setPack s.cur (issuing s)

/-- Its address, and the threads whose guard holds (02 R36). -/
def issuePc (s : State) : W64 := packPc (s.pack s.cur)
def issueMask (s : State) (e : Enc) : BitVec 64 := execMask (s.pack s.cur) e
def issueCtx (s : State) (e : Enc) : Ctx := ⟨e, issueMask s e, issuePc s⟩

/-- The state after the instruction has done its work, leaving `t`, and has completed: threads of `left` have left sequence. -/
def completed (s t : State) (e : Enc) (left : BitVec 64) : State := finishAt t s.cur (issuing s) (issuePc s) e.size left

/-- The same for work on the pack alone, which leaves `q`. -/
def completedPack (s : State) (q : Pack) (e : Enc) (left : BitVec 64) : State := completed s (s.setPack s.cur q) e left

/-- The instruction has not issued after all, as at a stall or a wait: what it did leaves `t`, and the dead bits of its address are
not set (05 R137; 08 R233). -/
def notIssued (s t : State) : State := unissue t s.cur (s.pack s.cur)

/-- The instruction stalls, and is tried again. -/
def stalledIn (s t : State) : State := { notIssued s t with stalled := s.cur :: s.stalled }

/-- The pack waits in the instruction. -/
def waitsIn (s t : State) (e : Enc) (k : WaitKind) (fs : List PFault) : State := waitPack (notIssued s t) s.cur e.size k fs

/-- The state after the instruction has taken a trap instead. -/
def trapped (s : State) (e : Enc) (t : Trap) : State := takeTrap (issued s) s.cur (issuePc s) e.size t

/-! ### Lane instructions -/

/-- Register `m` of thread `u` belongs to the vector destination of an element of `n` bits. -/
def destCell (e : Enc) (n : Nat) (j : Job) (m u : Nat) : Prop :=
  u = j.t ∧ blockReg (encD e) 0 j.i j.j (colsOf n) ≤ m ∧ m < blockReg (encD e) 0 j.i j.j (colsOf n) + colsOf n

/-- The destination of an element holds the value `x`: the uniform register with KD, else the register, pair or quad. -/
def destHolds (q : Pack) (e : Enc) (signed : Bool) (n : Nat) (j : Job) (x : Nat) : Prop :=
  if (encX e).kd then rdS q e.d.toNat = uniExt signed n x
  else if n ≤ 32 then rdV q (blockReg (encD e) 0 j.i j.j (colsOf n)) j.t = x % 2 ^ 32
  else if n ≤ 64 then rdV64 q (blockReg (encD e) 0 j.i j.j (colsOf n)) j.t = x % 2 ^ 64
  else rdV128 q (blockReg (encD e) 0 j.i j.j (colsOf n)) j.t = x % 2 ^ 128

/-- The draws of the `k`-th element, counted from 0 (03 R90). -/
def drawn (c : Ctx) (d : Nat) (r : W64) (k : Nat) : List Nat :=
  if c.m = 0 then List.replicate d Config.undrawn.toNat
  else (List.range d).map fun i => (rngStep^[k * d + i + 1] r).toNat % 4294967296

/-- A thread but for its dead bits and flags. -/
def Thread.sansFl (t : Thread) : Thread := { t with vdead := 0, fflags := 0 }

/-- The elements of a lane instruction, each with its result and flags. -/
def laneOut (c : Ctx) (d : Nat) (f : Job → List Nat → Nat × Fl) (p : Pack) : List (Job × Nat × Fl) :=
  (jobsOf c p).zipIdx.map fun x => (x.1, f x.1 (drawn c d p.rng x.2))

/-- The flags that the elements of a thread raise: with a uniform destination those of the one operation. -/
def laneFlags (c : Ctx) (d : Nat) (f : Job → List Nat → Nat × Fl) (p : Pack) (u : Nat) : Fl :=
  (laneOut c d f p).foldl (fun a x => if (encX c.e).kd || x.1.t == u then a ||| x.2.2 else a) 0

/-- The pack but for the registers, flags and random state that a lane instruction may write. -/
def Pack.sansLane (p : Pack) : Pack := { p with v := [], s := [], sdead := 0, threads := [], denRows := [], rng := 0 }

/-- What a lane instruction with a value result leaves (02 R46, 03 R90, 06 R166). -/
structure LaneDone (c : Ctx) (n : Nat) (signed : Bool) (d : Nat) (f : Job → List Nat → Nat × Fl) (p q : Pack) : Prop where
  result : ∀ x ∈ laneOut c d f p, destHolds q c.e signed n x.1 x.2.1
  vector : ∀ m u, u < 64 → ((encX c.e).kd = true ∨ ∀ j ∈ jobsOf c p, ¬destCell c.e n j m u) → rdV q m u = rdV p m u
  uniform : ∀ m, ((encX c.e).kd = false ∨ m ≠ c.e.d.toNat) → rdS q m = rdS p m
  random : q.rng = if c.m = 0 then p.rng else rngStep^[(jobsOf c p).length * d] p.rng
  flags : ∀ u < p.threads.length,
    (packThread q u).fflags = if u ∈ lanesOf c.m p.width then (packThread p u).fflags ||| laneFlags c d f p u
      else (packThread p u).fflags
  threads : ∀ u, (packThread q u).sansFl = (packThread p u).sansFl
  rest : q.sansLane = p.sansLane

/-- The pack but for its threads. -/
def Pack.sansThreads (p : Pack) : Pack := { p with threads := [] }

/-- A thread but for its predicates and flags. -/
def Thread.sansPreds (t : Thread) : Thread := { t with preds := 0, fflags := 0 }

/-- What an instruction with a predicate result `f` in the threads of `l` leaves: p7 is not written (04 R113). -/
structure PredDone (d : Nat) (l : List Nat) (f : Nat → Bool) (p q : Pack) : Prop where
  result : ∀ t ∈ l, t < p.threads.length → d < 16 → d ≠ 7 → rdP q d t = f t
  others : ∀ m u, (m ≠ d ∨ u ∉ l ∨ d = 7) → rdP q m u = rdP p m u
  threads : ∀ u, (packThread q u).sansPreds = (packThread p u).sansPreds
  rest : q.sansThreads = p.sansThreads

/-- The pack but for its vector registers, with the dead bits and den rows that their writes touch. -/
def Pack.sansVec (p : Pack) : Pack := { p with v := [], threads := [], denRows := [] }

/-- What an instruction leaves that writes the registers `f t` (register and value), of each thread of `l`. -/
structure VecDone (l : List Nat) (f : Nat → List (Nat × Nat)) (p q : Pack) : Prop where
  result : ∀ t ∈ l, ∀ x ∈ f t, rdV q x.1 t = x.2 % 2 ^ 32
  others : ∀ m u, u < 64 → (u ∈ l → ∀ x ∈ f u, x.1 ≠ m) → rdV q m u = rdV p m u
  threads : ∀ u, (packThread q u).sansFl = (packThread p u).sansFl
  rest : q.sansVec = p.sansVec

end Sys2Proof.Machine
end

