-- ==== Sys2Proof/Certificates/Slice0/Obligations.lean ====
section
/-! DEFINITION. What is claimed of the model, for the provers.  The definitions of `Sys2Proof.Claims` say in the manual's own
arithmetic what an instruction's result is; each `Obligations` definition is one claim. -/

open Sys2Proof Sys2Proof.Machine

namespace Sys2Proof.Claims

/-! ### Results of lane instructions, in exact arithmetic -/

/-- A lane instruction's result: its width in bits, whether its type is signed (05 R146), the draws it takes for each element,
and the value of an element with the flags it raises. -/
structure LaneRow where
  bits : Nat
  signed : Bool
  draws : Nat
  val : Pack → Job → List Nat → Nat × Fl

/-- Operands A, B and C of an element, as the low `n` bits (05 R146, 06 R173); `Bi` is the immediate of class RI. -/
def opA (e : Enc) (n : Nat) (p : Pack) (j : Job) : Nat := rdSrc p (srcA e) n j.t j.i j.j
def opB (e : Enc) (n : Nat) (p : Pack) (j : Job) : Nat := rdSrc p (srcB e) n j.t j.i j.j
def opC (e : Enc) (n : Nat) (p : Pack) (j : Job) : Nat := rdSrc p (srcC e) n j.t j.i j.j
def opBi (e : Enc) (n : Nat) (_ : Pack) (_ : Job) : Nat := ofI n (toS 6 e.b.toNat)

/-- An operand as the number its type gives it (03 R74). -/
def num (ty x : Nat) : Int := if typeSigned ty then toS (typeBits ty) x else x

/-- The least and greatest numbers of a type. -/
def leastOf (ty : Nat) : Int := if typeSigned ty then -((2 ^ (typeBits ty - 1) : Nat) : Int) else 0
def greatestOf (ty : Nat) : Int := if typeSigned ty then ((2 ^ (typeBits ty - 1) : Nat) : Int) - 1 else ((2 ^ typeBits ty : Nat) : Int) - 1

/-- An integer result of type `ty` (default `d`) from exact arithmetic, as a pattern of its width. -/
def intRow (e : Enc) (d : Nat) (f : Nat → Pack → Job → Int) : LaneRow :=
  let ty := encTy e d
  ⟨typeBits ty, typeSigned ty, 0, fun p j _ => (ofI (typeBits ty) (f ty p j), 0)⟩

/-- A bit-pattern result (types b32 and b64, default b32). -/
def bitRow (e : Enc) (f : Nat → Pack → Job → Nat) : LaneRow :=
  let n := typeBits (encTy e 9)
  ⟨n, false, 0, fun p j _ => (f n p j, 0)⟩

/-- Two operands as numbers of the type. -/
def two (e : Enc) (b : Enc → Nat → Pack → Job → Nat) (f : Int → Int → Int) (ty : Nat) (p : Pack) (j : Job) : Int :=
  f (num ty (opA e (typeBits ty) p j)) (num ty (b e (typeBits ty) p j))

/-- A sum or difference: modulo 2^n, or with .sat the nearest number of the type (05 R151). -/
def satOr (e : Enc) (ty : Nat) (x : Int) : Int :=
  if encModBit e 0 then (if x < leastOf ty then leastOf ty else if greatestOf ty < x then greatestOf ty else x) else x

/-- Quotient and remainder toward zero; by zero all ones, and the dividend (05 R153). -/
def divide (e : Enc) (x y : Int) : Int :=
  if y = 0 then (if encModBit e 0 then x else -1) else if encModBit e 0 then Int.tmod x y else Int.tdiv x y

/-- A negation: the most negative number stays, or with .sat becomes the greatest (05 R154). -/
def negate (e : Enc) (ty : Nat) (x : Int) : Int :=
  let top : Int := (2 ^ (typeBits ty - 1) : Nat)
  if encModBit e 0 && x == -top then top - 1 else -x

/-- The position and length of a bit field, clipped to the element (05 R157). -/
def fieldAt (e : Enc) (p : Pack) (j : Job) : Nat × Nat :=
  let w := if encModBit e 0 then encImm e else opC e 32 p j
  (w % 256, w / 256 % 256)
def clipped (n : Nat) (f : Nat × Nat) : Nat := min (f.1 + f.2) n - f.1

/-- A shift of `a` by `k` bits: .l, .r, .ra, .rot (05 R156). -/
def shifted (form n a k : Nat) : Nat :=
  match form with
  | 0 => a * 2 ^ k % 2 ^ n
  | 1 => a / 2 ^ k
  | 2 => ofI n (toS n a / (2 ^ k : Nat))
  | _ => ((BitVec.ofNat n a).rotateLeft k).toNat

/-- The integer lane instructions of 05 R149 to R161 and cget, but for the carry forms of iadd and isub. -/
def integerRow : Instr → Option (Enc × LaneRow)
  | .mov e => some (e, bitRow e fun n p j => opB e n p j)
  | .movImm e => some (e, bitRow e fun n p j => opBi e n p j)
  | .iadd e => if 1 < encMod e then none else some (e, intRow e 3 fun ty p j => satOr e ty (two e opB (· + ·) ty p j))
  | .iaddImm e => if 1 < encMod e then none else some (e, intRow e 3 fun ty p j => satOr e ty (two e opBi (· + ·) ty p j))
  | .isub e => if 1 < encMod e then none else some (e, intRow e 3 fun ty p j => satOr e ty (two e opB (· - ·) ty p j))
  | .isubImm e => if 1 < encMod e then none else some (e, intRow e 3 fun ty p j => satOr e ty (two e opBi (· - ·) ty p j))
  | .imul e => some (e, intRow e 3 fun ty p j =>
      two e opB (fun x y => if encModBit e 0 then x * y / (2 ^ typeBits ty : Nat) else x * y) ty p j)
  | .imulImm e => some (e, intRow e 3 fun ty p j =>
      two e opBi (fun x y => if encModBit e 0 then x * y / (2 ^ typeBits ty : Nat) else x * y) ty p j)
  | .imad e =>
      let ty := encTy e 3
      let m := if encModBit e 0 then 2 * typeBits ty else typeBits ty
      some (e, ⟨m, typeSigned ty, 0, fun p j _ => (ofI m (two e opB (· * ·) ty p j + (opC e m p j : Nat)), 0)⟩)
  | .idiv e => some (e, intRow e 3 fun ty p j => two e opB (divide e) ty p j)
  | .imin e => some (e, intRow e 3 fun ty p j => two e opB min ty p j)
  | .iminImm e => some (e, intRow e 3 fun ty p j => two e opBi min ty p j)
  | .imax e => some (e, intRow e 3 fun ty p j => two e opB max ty p j)
  | .imaxImm e => some (e, intRow e 3 fun ty p j => two e opBi max ty p j)
  | .iabs e => some (e, intRow e 3 fun ty p j =>
      let x := toS (typeBits ty) (opA e (typeBits ty) p j)
      if x < 0 then negate e ty x else x)
  | .ineg e => some (e, intRow e 3 fun ty p j => negate e ty (toS (typeBits ty) (opA e (typeBits ty) p j)))
  | .bfn e => some (e, bitRow e fun n p j =>
      (List.range n).foldl (fun x k =>
        let row := bit ((opA e n p j).testBit k) + 2 * bit ((opB e n p j).testBit k) + 4 * bit ((opC e n p j).testBit k)
        x + if (encImm e).testBit row then 2 ^ k else 0) 0)
  | .shf e => some (e, bitRow e fun n p j => shifted (encMod e) n (opA e n p j) (opB e 32 p j))
  | .shfImm e => some (e, bitRow e fun n p j => shifted (encMod e) n (opA e n p j) e.b.toNat)
  | .bfx e => some (e, intRow e 3 fun ty p j =>
      let n := typeBits ty
      let f := fieldAt e p j
      let w := clipped n f
      let x := opA e n p j / 2 ^ f.1 % 2 ^ w
      if w = 0 then 0 else if typeSigned ty then toS w x else x)
  | .bfi e => some (e, bitRow e fun n p j =>
      let f := fieldAt e p j
      let w := clipped n f
      let a := opA e n p j
      a / 2 ^ (f.1 + w) * 2 ^ (f.1 + w) + opB e n p j % 2 ^ w * 2 ^ f.1 + a % 2 ^ f.1)
  | .popc e =>
      let n := typeBits (encTy e 9)
      some (e, ⟨32, false, 0, fun p j _ => ((List.range n).countP (opA e n p j).testBit, 0)⟩)
  | .clz e =>
      let n := typeBits (encTy e 9)
      some (e, ⟨32, false, 0, fun p j _ => (n - Nat.size (opA e n p j), 0)⟩)
  | .brev e => some (e, bitRow e fun n p j => (BitVec.ofNat n (opA e n p j)).reverse.toNat)
  | .sel e => some (e, bitRow e fun n p j => if rdP p (encC e) j.t then opA e n p j else opB e n p j)
  | .lea e =>
      let ty := encTy e 8
      some (e, ⟨64, typeSigned ty, 0, fun p j _ =>
        let x : Int := if typeSigned ty then toS 32 (opB e 32 p j) else opB e 32 p j
        (ofI 64 ((opA e 64 p j : Nat) + x * (2 ^ encMod e : Nat)), 0)⟩)
  | .leaImm e =>
      some (e, ⟨64, typeSigned (encTy e 8), 0, fun p j _ =>
        (ofI 64 ((opA e 64 p j : Nat) + toS 6 e.b.toNat * (2 ^ encMod e : Nat)), 0)⟩)
  | .cget e => some (e, ⟨64, false, 0, fun p j _ =>
      let k := rdCap p (encA e) j.t
      ((match encMod e % 8 with
        | 0 => k.cursor
        | 1 => k.base
        | 2 => k.top
        | 3 => ofI 64 ((k.top : Int) - k.base)
        | 4 => k.perm
        | 5 => k.space
        | 6 => k.colour
        | _ => (if k.tag then 1 else 0) + 256 * k.exp), 0)⟩)
  | _ => none

/-- Floating-point values of an element: format, rounding mode, operands. -/
def floatRow (e : Enc) (d bits : Nat) (f : Fmt → RMode → Pack → Job → Nat → Nat × Fl) : LaneRow :=
  let n := typeBits (encTy e d)
  ⟨if bits = 0 then n else bits, false, 0, fun p j _ => f (fmtOf e d) (rmOf p e) p j (opA e n p j)⟩

/-- The same with B. -/
def floatRow2 (e : Enc) (d : Nat) (f : Fmt → RMode → Nat → Nat → Nat × Fl) : LaneRow :=
  floatRow e d 0 fun g md p j a => f g md a (opB e (typeBits (encTy e d)) p j)

/-- The third operand of ffma: C, or D in the base form (06 R172). -/
def opAdd (e : Enc) (n : Nat) (p : Pack) (j : Job) : Nat := if e.ext.isSome then opC e n p j else rdSrc p (.vec (encD e) 0) n j.t j.i j.j

/-- The floating-point lane instructions of 06 R175 to R184. -/
def arithRow : Instr → Option (Enc × LaneRow)
  | .faddF32 e => some (e, floatRow2 e 0x0D fAdd)
  | .faddF64 e => some (e, floatRow2 e 0x0E fAdd)
  | .fmulF32 e => some (e, floatRow2 e 0x0D fMul)
  | .fmulF64 e => some (e, floatRow2 e 0x0E fMul)
  | .ffmaF32 e => some (e, floatRow e 0x0D 0 fun g md p j a =>
      fFma g md a (opB e (typeBits (encTy e 0x0D)) p j) (opAdd e (typeBits (encTy e 0x0D)) p j))
  | .ffmaF64 e => some (e, floatRow e 0x0E 0 fun g md p j a =>
      fFma g md a (opB e (typeBits (encTy e 0x0E)) p j) (opAdd e (typeBits (encTy e 0x0E)) p j))
  | .fdiv e => some (e, floatRow2 e 0x0D fDiv)
  | .fsqrt e => some (e, floatRow e 0x0D 0 fun g md _ _ a => fSqrt g md a)
  | .frcp e => some (e, floatRow e 0x0D 0 fun g _ _ _ a => fRcp g a)
  | .frsq e => some (e, floatRow e 0x0D 0 fun g _ _ _ a => fRsq g a)
  | .fex2 e => some (e, floatRow e 0x0D 0 fun _ _ _ _ a => fEx2 a)
  | .flg2 e => some (e, floatRow e 0x0D 0 fun _ _ _ _ a => fLg2 a)
  | .fmin e => some (e, floatRow2 e 0x0D fun g _ a b => fMinMax g false (encModBit e 0) a b)
  | .fmax e => some (e, floatRow2 e 0x0D fun g _ a b => fMinMax g true (encModBit e 0) a b)
  | .fclass e => some (e, floatRow e 0x0D 32 fun g _ _ _ a => (2 ^ fClassBit g a, 0))
  | .frnd e => some (e, floatRow e 0x0D 0 fun g md _ _ a => fRnd (encModBit e 0) g md a)
  | .fscb e => some (e, floatRow e 0x0D 0 fun g md p j a => fScb g md a (opB e 32 p j))
  | .flgb e => some (e, floatRow e 0x0D 32 fun g _ _ _ a => fLgb g a)
  | .fcsg e => some (e, floatRow2 e 0x0D fun g _ a b => (a % 2 ^ (g.ebits + g.mbits) + 2 ^ (g.ebits + g.mbits) *
      bit (match encMod e % 4 with
        | 0 => b.testBit (g.ebits + g.mbits)
        | 1 => a.testBit (g.ebits + g.mbits) != b.testBit (g.ebits + g.mbits)
        | 2 => false
        | _ => !a.testBit (g.ebits + g.mbits)), 0))
  | _ => none

/-- The source type that MOD[4:0] names, with the opcode's default (06 R172). -/
def fromTy (e : Enc) (d : Nat) : Nat := if encMod e % 32 = 0 then d else encMod e % 32

/-- Draws of an element: one for each rounding under the stochastic mode (03 R90). -/
def drawsAt (e : Enc) (n : Nat) : Nat := if (encX e).rm = 5 then n else 0

/-- The conversions of 06 R185 to R193 with one packed or plain result. -/
def convertRow : Instr → Option (Enc × LaneRow)
  | .f2i e =>
      let ty := encTy e 3
      let st := fromTy e 0x0D
      some (e, ⟨typeBits ty, typeSigned ty, 0, fun p j _ =>
        f2iVal ((laneFmt st).getD f32) (rmOf p e) (encModBit e 5) (typeSigned ty) (typeBits ty) (opA e (typeBits st) p j)⟩)
  | .i2f e =>
      let ty := encTy e 0x0D
      let st := fromTy e 3
      some (e, ⟨typeBits ty, false, drawsAt e 1, fun p j u =>
        roundDy ((laneFmt ty).getD f32) (rmOf p e) false (u.headD 0) false (Dy.ofInt (num st (opA e (typeBits st) p j)))⟩)
  | .f2f e =>
      let ty := encTy e 0x0D
      let st := fromTy e 0x0E
      let sf := (laneFmt st).getD f32
      let df := (laneFmt ty).getD f32
      some (e, ⟨typeBits ty, false, drawsAt e 1, fun p j u =>
        let a := opA e (typeBits st) p j
        if ty = 0x0E ∨ (ty = 0x0D ∧ st ≠ 0x0E) then widen sf df a
        else narrow df (rmOf p e) (encModBit e 5) (u.headD 0) (sf.read a)⟩)
  | .cvtpk e =>
      let ty := encTy e 0
      let n := typeBits ty
      let one := (encX e).kd
      some (e, ⟨32, false, drawsAt e (if one then 1 else if n = 16 then 2 else 4), fun p j u =>
        let u := if one then [u.headD 0, u.headD 0] else u
        let w := if encModBit e 2 then some (ScaleWord.ofNat (rdSrc p (srcC e) 32 j.t 0 0)) else none
        let src := if n = 16 then [rdSrc p (srcA e) 32 j.t 0 0, rdSrc p (srcB e) 32 j.t 0 0]
          else [rdV p (encA e) j.t, rdV p (encA e + 1) j.t, rdV p (encA e + 2) j.t, rdV p (encA e + 3) j.t]
        let r := encodeAll ty w (rmOf p e) (encModBit e 0) (src.map f32.read) u
        let old := rdV p (encD e) j.t
        (if n = 16 then packElems 16 r.1
          else if n = 4 then
            (if encModBit e 1 then old % 2 ^ 16 + 2 ^ 16 * packElems 4 r.1 else old / 2 ^ 16 * 2 ^ 16 + packElems 4 r.1)
          else packElems 8 r.1, r.2)⟩)
  | .qscl e => some (e, ⟨32, false, 0, fun p j _ => qscl (encTy e 0) (encModBit e 0) (opA e 32 p j) (opB e 32 p j)⟩)
  | .slres e => some (e, floatRow e 0x0E 0 fun g _ p j a => slresVal g (encMod e % 16) (toS 32 (opB e 32 p j)) a)
  | _ => none

/-- The lane that a shuffle or broadcast names for thread `t` (04 R125, R126), before it wraps in sint(64). -/
def laneNamed (p : Pack) (t : Nat) : Instr → Option (Enc × Int)
  | .shflIdx e => some (e, toS 32 (rdSrc p (srcB e) 32 t 0 0))
  | .shflIdxImm e => some (e, e.b.toNat)
  | .shflUp e => some (e, (t : Int) - (rdUniB p e 64 : Nat))
  | .shflUpImm e => some (e, (t : Int) - (e.b.toNat : Nat))
  | .shflDown e => some (e, (t : Int) + (rdUniB p e 64 : Nat))
  | .shflDownImm e => some (e, (t : Int) + (e.b.toNat : Nat))
  | .shflXor e => some (e, ((t ^^^ rdUniB p e 64 : Nat) : Int))
  | .shflXorImm e => some (e, ((t ^^^ e.b.toNat : Nat) : Int))
  | .bcst e => some (e, (rdUniB p e 64 : Nat))
  | .bcstImm e => some (e, e.b.toNat)
  | _ => none

/-- The value thread `j.t` takes: that of the named lane where the mask holds it, else its own. -/
def shuffled (i : Instr) (m : BitVec 64) (e : Enc) (n : Nat) (p : Pack) (j : Job) : Nat :=
  match laneNamed p j.t i with
  | some (_, k) =>
    let k := toS 64 (ofI 64 k)
    rdSrc p (srcA e) n (if 0 ≤ k ∧ k < p.width ∧ m.getLsbD k.toNat then k.toNat else j.t) 0 0
  | none => 0

/-- The cross-lane instructions with a value result (04 R125, R126, R129). -/
def crossRow (m : BitVec 64) (i : Instr) : Option (Enc × LaneRow) :=
  match laneNamed Pack.blank 0 i with
  | some (e, _) => some (e, bitRow e fun n p j => shuffled i m e n p j)
  | none =>
    match i with
    | .matchAny e =>
      let n := typeBits (encTy e 9)
      some (e, ⟨64, false, 0, fun p j _ =>
        ((maskOf ((lanesOf m p.width).filter fun t => rdSrc p (srcA e) n t 0 0 = rdSrc p (srcA e) n j.t 0 0)).toNat, 0)⟩)
    | _ => none

/-- No thread of the mask raises a flag that %fenv enables to trap (06 R167). -/
def quiet (c : Ctx) (r : LaneRow) (p : Pack) : Prop :=
  ∀ u ∈ lanesOf c.m p.width, laneFlags c r.draws (r.val p) p u &&& enabledFlags p = 0

/-- The instruction completes and leaves exactly the results of the row. -/
def LaneResult (i : Instr) (e : Enc) (r : LaneRow) (s : State) : Prop :=
  ∃ q, exec i s = .next (completedPack s q e 0) ∧
    LaneDone (issueCtx s e) r.bits r.signed r.draws (r.val (issuing s)) (issuing s) q

end Sys2Proof.Claims

/-- Every integer lane instruction of 05 completes with the manual's value in each element of its destination, and changes no
other register (R149 to R161; cget of 08 R250). -/
def Sys2Proof.Claims.IntegerLanes : Prop :=
  ∀ (i : Instr) (e : Enc) (r : Claims.LaneRow) (s : State),
    Claims.integerRow i = some (e, r) → Issuable i s → Claims.LaneResult i e r s

/-- The carry forms of iadd and isub: the sum or difference modulo 2^n with the carry or borrow in that .ci takes from pC,
and in every thread pC becomes the carry or borrow out (05 R151). -/
def Sys2Proof.Claims.CarryForms : Prop :=
  ∀ (i : Instr) (e : Enc) (subtract : Bool) (b : Enc → Nat → Pack → Job → Nat) (s : State),
    (i = .iadd e ∧ subtract = false ∧ b = Claims.opB ∨ i = .iaddImm e ∧ subtract = false ∧ b = Claims.opBi ∨
      i = .isub e ∧ subtract = true ∧ b = Claims.opB ∨ i = .isubImm e ∧ subtract = true ∧ b = Claims.opBi) →
    1 < encMod e → Issuable i s →
    let ty := encTy e 3
    let n := typeBits ty
    let p := issuing s
    let cin (t : Nat) : Nat := if encMod e = 4 ∧ rdP p (encC e) t then 1 else 0
    let x (t : Nat) : Nat := Claims.opA e n p ⟨t, 0, 0⟩
    let y (t : Nat) : Nat := b e n p ⟨t, 0, 0⟩
    ∃ p1 q, exec i s = .next (completedPack s q e 0) ∧
      LaneDone (issueCtx s e) n (typeSigned ty) 0
        (fun j _ => (if subtract then ofI n ((x j.t : Int) - y j.t - cin j.t) else (x j.t + y j.t + cin j.t) % 2 ^ n, 0)) p p1 ∧
      PredDone (encC e) (lanesOf (issueMask s e) p.width)
        (fun t => if subtract then decide (x t < y t + cin t) else decide (2 ^ n ≤ x t + y t + cin t)) p1 q

/-- The floating-point lane instructions: where no thread raises an enabled flag they complete with the value and the sticky
flags of 06 R175 to R184, rounded once in the instruction's mode. -/
def Sys2Proof.Claims.FloatLanes : Prop :=
  ∀ (i : Instr) (e : Enc) (r : Claims.LaneRow) (s : State),
    Claims.arithRow i = some (e, r) → Issuable i s → Claims.quiet (issueCtx s e) r (issuing s) → Claims.LaneResult i e r s

/-- fsin and fcos: under behaviour version 2 a finite nonzero input takes the Zynilo-2 table's value, which the manual does not
print (an open constant of the model picks it among the numbers within 2 ulp); every other input takes the correctly rounded one (06 R177). -/
def Sys2Proof.Claims.sineRow (s : State) (e : Enc) (cosine : Bool) : Claims.LaneRow :=
  let tab := if cosine then Config.fcosV2 else Config.fsinV2
  let f := if cosine then fCosM else fSinM
  Claims.floatRow e 0x0D 0 fun _ _ _ _ a =>
    match f32.read a with
    | .num _ m _ =>
      if (s.launch (s.pack s.cur).launch).hdr.bver = 2 ∧ m ≠ 0 then tableValue (tab (BitVec.ofNat 32 a)) (f .rdn a).1 (f .rup a).1
      else f .rne a
    | _ => f .rne a

/-- fsin and fcos complete with the values of their row (06 R177). -/
def Sys2Proof.Claims.SineCosine : Prop :=
  ∀ (e : Enc) (cosine : Bool) (s : State),
    let i : Instr := if cosine then .fcos e else .fsin e
    Issuable i s → Claims.quiet (issueCtx s e) (Claims.sineRow s e cosine) (issuing s) →
      Claims.LaneResult i e (Claims.sineRow s e cosine) s

/-- The conversions complete with the value and the flags of 06 R185 to R193, each stochastic rounding with the next draw of
%rng (03 R89, R90).  That the elements of a cvtpk into a uniform register share one draw is the model's choice (log entry 24), and so is
the mode field that a widening f2f accepts (log entry 14). -/
def Obligations.Conversions : Prop :=
  ∀ (i : Instr) (e : Enc) (r : Claims.LaneRow) (s : State),
    Claims.convertRow i = some (e, r) → Issuable i s → Claims.quiet (issueCtx s e) r (issuing s) → Claims.LaneResult i e r s

/-- A thread that raises a flag enabled in %fenv makes the instruction trap FPE with nothing written: the subcode holds the
enabled flags raised, %tval all flags raised by those threads, %tmask the threads (06 R170). -/
def Sys2Proof.Claims.FloatTraps : Prop :=
  ∀ (i : Instr) (e : Enc) (r : Claims.LaneRow) (s : State),
    (Claims.arithRow i = some (e, r) ∨ Claims.convertRow i = some (e, r) ∨
      i = .fsin e ∧ r = Claims.sineRow s e false ∨ i = .fcos e ∧ r = Claims.sineRow s e true) → Issuable i s →
    ¬Claims.quiet (issueCtx s e) r (issuing s) →
    let p := issuing s
    let fl := laneFlags (issueCtx s e) r.draws (r.val p) p
    let bad := (lanesOf (issueMask s e) p.width).filter fun u => fl u &&& enabledFlags p ≠ 0
    let all := bad.foldl (fun a u => a ||| fl u) 0
    exec i s = .next (trapped s e ⟨clsFpe, (all &&& enabledFlags p).toNat, BitVec.ofNat 64 all.toNat, maskOf bad⟩)

/-- The same of fcmp, whose threads raise the flags of their comparison (06 R170, R179). -/
def Sys2Proof.Claims.CompareTraps : Prop :=
  ∀ (e : Enc) (s : State), Issuable (.fcmp e) s →
    let p := issuing s
    let n := typeBits (encTy e 0x0D)
    let fl (t : Nat) : Fl := (fCmp (fmtOf e 0x0D) (encMod e % 8) (encModBit e 3) (Claims.opA e n p ⟨t, 0, 0⟩) (Claims.opB e n p ⟨t, 0, 0⟩)).2
    let bad := (lanesOf (issueMask s e) p.width).filter fun u => fl u &&& enabledFlags p ≠ 0
    let all := bad.foldl (fun a u => a ||| fl u) 0
    bad ≠ [] →
    exec (.fcmp e) s = .next (trapped s e ⟨clsFpe, (all &&& enabledFlags p).toNat, BitVec.ofNat 64 all.toNat, maskOf bad⟩)

/-- Shuffles, broadcasts and match.any: each thread takes the value of the thread named, where it is in the execution mask,
else its own (04 R125, R126, R129). -/
def Sys2Proof.Claims.CrossLanes : Prop :=
  ∀ (i : Instr) (e : Enc) (r : Claims.LaneRow) (s : State),
    Claims.crossRow (issueMask s e) i = some (e, r) → Issuable i s → Claims.LaneResult i e r s

/-- The integer lane instructions, lea and cget, and the carry forms of iadd and isub: each completes with the manual's value in every
element of its destination and changes no other register (05 R149 to R161; 08 R250). -/
def Obligations.IntegerLanes : Prop := Claims.IntegerLanes ∧ Claims.CarryForms

/-- The floating-point lane instructions: each completes with the value and the sticky flags of 06 R175 to R184 where no thread raises an
enabled flag, and else, as fcmp, traps FPE with nothing written (06 R170).  The value of fsin and fcos under behaviour version 2 is open
(log entry 7).  The model's choices are the zero extension of flgb into a uniform register, the sign that frnd keeps of a zero (log entry
25), and the 640-bit series of fex2, flg2, fsin and fcos (log entry 26). -/
def Obligations.FloatLanes : Prop := Claims.FloatLanes ∧ Claims.SineCosine ∧ Claims.FloatTraps ∧ Claims.CompareTraps
namespace Sys2Proof.Claims

/-! ### Predicate results -/

/-- A comparison of numbers by its code: eq, ne, lt, le, gt, ge (05 R159). -/
def compares (code : Nat) (x y : Int) : Bool :=
  match code with
  | 0 => x == y
  | 1 => x != y
  | 2 => decide (x < y)
  | 3 => decide (x ≤ y)
  | 4 => decide (y < x)
  | _ => decide (y ≤ x)

/-- Instructions with a predicate result in each thread of the mask `m`: the predicate of a thread, and the flags it raises
(04 R122 to R124, R129; 05 R159; 06 R179; 08 R252).  That a literal B of ctst.sub carries no tag is the model's choice (log entry
66). -/
def predRow (m : BitVec 64) : Instr → Option (Enc × (Pack → Nat → Bool × Fl))
  | .icmp e => some (e, fun p t => (compares (encMod e) (num (encTy e 3) (opA e (typeBits (encTy e 3)) p ⟨t, 0, 0⟩))
      (num (encTy e 3) (opB e (typeBits (encTy e 3)) p ⟨t, 0, 0⟩)), 0))
  | .icmpImm e => some (e, fun p t => (compares (encMod e) (num (encTy e 3) (opA e (typeBits (encTy e 3)) p ⟨t, 0, 0⟩))
      (num (encTy e 3) (opBi e (typeBits (encTy e 3)) p ⟨t, 0, 0⟩)), 0))
  | .fcmp e => some (e, fun p t => fCmp (fmtOf e 0x0D) (encMod e % 8) (encModBit e 3)
      (opA e (typeBits (encTy e 0x0D)) p ⟨t, 0, 0⟩) (opB e (typeBits (encTy e 0x0D)) p ⟨t, 0, 0⟩))
  | .ctst e => some (e, fun p t =>
      let a := rdCap p (encA e) t
      let b : Cap := match e.lit with
        | some x => ⟨false, x.setWidth 128⟩
        | none => rdCap p (encB e) t
      (if encModBit e 0 then
        a.tag && b.tag && a.space == b.space && b.base ≤ a.base && a.top ≤ b.top && (a.perm &&& b.perm) == a.perm
      else a.tag, 0))
  | .voteAll e => some (e, fun p _ => ((lanesOf m p.width).all fun t => rdP p (encA e) t, 0))
  | .voteAny e => some (e, fun p _ => ((lanesOf m p.width).any fun t => rdP p (encA e) t, 0))
  | .pfn e => some (e, fun p t =>
      ((encImm e).testBit (bit (rdP p (encA e) t) + 2 * bit (rdP p (encB e) t) + 4 * bit (rdP p (encC e) t)), 0))
  | .pmov e => if encMod e = 0 then some (e, fun p t => (rdP p (encA e) t, 0)) else none
  | .matchAll e => some (e, fun p _ =>
      let n := typeBits (encTy e 9)
      ((lanesOf m p.width).all fun t => (lanesOf m p.width).all fun u =>
        rdSrc p (srcA e) n t 0 0 == rdSrc p (srcA e) n u 0 0, 0))
  | _ => none

/-! ### Results in one uniform register -/

/-- A reduction of the values of the mask's threads: their combination by `f`, of type `ty` (04 R127). -/
def reduced (ty : Nat) (f : Nat → Nat → Nat) : List Nat → Option W64
  | [] => none
  | x :: l => some (uniExt (typeSigned ty) (typeBits ty) (l.foldl f x))

/-- The value that each per-pack special register reads (04 R120). -/
def special (s : State) (p : Pack) (n : Nat) : W64 :=
  let h := (s.launch p.launch).hdr
  if n = 2 then BitVec.ofNat 64 p.width
  else if n = 3 then p.sel
  else if n = 5 then p.fenv.setWidth 64
  else if n = 6 then p.rm.setWidth 64
  else if n = 7 then p.slb.setWidth 64
  else if n = 8 then p.sflag.setWidth 64
  else if n = 9 then BitVec.ofNat 64 h.dmode
  else if n = 10 then Config.capList.setWidth 64
  else if n = 11 then (if h.dmode = 0 then Config.clock (s.fresh + 1) else BitVec.ofNat 64 (p.issues + 1))
  else if n = 12 then p.tepc
  else if n = 13 then p.tcause.setWidth 64
  else if n = 14 then p.tmask
  else if n = 15 then p.tval
  else if n = 16 then BitVec.ofNat 64 h.bver
  else p.rng

/-- Instructions with one uniform result from the pack alone: `none` where the mask is empty and nothing is written
(04 R122, R127, R130; 05 R150; 16 R491). -/
def uniformRow (m : BitVec 64) : Instr → Option (Enc × (Pack → Option W64))
  | .movs e => some (e, fun p => (lanesOf m p.width).head?.map fun t =>
      BitVec.ofNat 64 (rdSrc p (.vec (encA e) 0) (typeBits (encTy e 9)) t 0 0))
  | .voteBallot e => some (e, fun p => some (maskOf ((lanesOf m p.width).filter fun t => rdP p (encA e) t)))
  | .actv e => some (e, fun p => some (maskOf ((List.range p.width).filter fun t => !(packThread p t).exited)))
  | .lredAdd e => some (e, fun p => reduced (encTy e 3) (fun a b => (a + b) % 2 ^ typeBits (encTy e 3))
      ((lanesOf m p.width).map fun t => opA e (typeBits (encTy e 3)) p ⟨t, 0, 0⟩))
  | .lredAnd e => some (e, fun p => reduced (encTy e 9) (fun a b => a &&& b)
      ((lanesOf m p.width).map fun t => opA e (typeBits (encTy e 9)) p ⟨t, 0, 0⟩))
  | .lredOr e => some (e, fun p => reduced (encTy e 9) (fun a b => a ||| b)
      ((lanesOf m p.width).map fun t => opA e (typeBits (encTy e 9)) p ⟨t, 0, 0⟩))
  | .lredXor e => some (e, fun p => reduced (encTy e 9) (fun a b => a ^^^ b)
      ((lanesOf m p.width).map fun t => opA e (typeBits (encTy e 9)) p ⟨t, 0, 0⟩))
  | .lredMin e => if (laneFmt (encTy e 3)).isSome then none else some (e, fun p =>
      reduced (encTy e 3) (fun a b => if num (encTy e 3) b < num (encTy e 3) a then b else a)
        ((lanesOf m p.width).map fun t => opA e (typeBits (encTy e 3)) p ⟨t, 0, 0⟩))
  | .lredMax e => if (laneFmt (encTy e 3)).isSome then none else some (e, fun p =>
      reduced (encTy e 3) (fun a b => if num (encTy e 3) a < num (encTy e 3) b then b else a)
        ((lanesOf m p.width).map fun t => opA e (typeBits (encTy e 3)) p ⟨t, 0, 0⟩))
  | .dhash e => if encMod e = 0 then some (e, fun p => some p.hash)
      else if encMod e = 1 then some (e, fun p => some (BitVec.ofNat 64 p.commit)) else none
  | _ => none

/-! ### Results in named vector registers -/

/-- Instructions that write registers of each thread of the mask `m`: register and value of each, and the flags raised
(04 R124, R128; 06 R190; 14 R441). -/
def vectorRow (m : BitVec 64) : Instr → Option (Enc × (Pack → Nat → List (Nat × Nat) × Fl))
  | .pmov e => if encMod e = 1 then some (e, fun p t => ([(encD e, ((packThread p t).preds ||| 0x80).toNat)], 0)) else none
  | .cvtup e =>
      let st := fromTy e 0x0B
      some (e, fun p t =>
        let els := (unpackElems (typeBits st) (encModBit e 5) (opA e 32 p ⟨t, 0, 0⟩)).map (widen ((elemFmt st).getD f16) f32)
        (els.zipIdx.map fun x => (encD e + x.2, x.1.1), els.foldl (fun a x => a ||| x.2) 0))
  | .radd e => some (e, fun p _ =>
      let r := laneChain (rdV p (encA e)) (lanesOf m p.width)
      ([(encD e, r.1)], r.2))
  | .rscanInc e => some (e, fun p t =>
      let r := laneChain (rdV p (encA e)) ((lanesOf m p.width).filter (· ≤ t))
      ([(encD e, r.1)], r.2))
  | .rscanExc e => some (e, fun p t =>
      let r := laneChain (rdV p (encA e)) ((lanesOf m p.width).filter (· < t))
      ([(encD e, r.1)], r.2))
  | .visd e => some (e, fun p t =>
      let w := rdV64 p (encA e) t
      ([(encD e, w / 2 ^ 32), (encD e + 1, w / 2 ^ 14 % 2 ^ 18), (encD e + 2, w / 2 ^ 7 % 2 ^ 7), (encD e + 3, w % 2 ^ 7)], 0))
  | _ => none

end Sys2Proof.Claims

/-- Comparisons, capability tests, votes and predicate functions complete with the manual's predicate in every thread of the
execution mask; p7 is never written (04 R122 to R124, R129; 05 R159; 06 R179; 08 R252).  ctst.sub with a literal in place of its second
capability is the model's choice: the literal carries no tag, so the result is 0 (log entry 66). -/
def Obligations.PredicateResults : Prop :=
  ∀ (i : Instr) (e : Enc) (f : Pack → Nat → Bool × Fl) (s : State),
    Claims.predRow (issueMask s e) i = some (e, f) → Issuable i s →
    let p := issuing s
    let l := lanesOf (issueMask s e) p.width
    (∀ t ∈ l, (f p t).2 &&& enabledFlags p = 0) →
    ∃ q, exec i s = .next (completedPack s q e 0) ∧ PredDone (encD e) l (fun t => (f p t).1) p q ∧
      ∀ u < p.threads.length, (packThread q u).fflags =
        if u ∈ l then (packThread p u).fflags ||| (f p u).2 else (packThread p u).fflags

/-- Reductions, ballots and the other instructions with one uniform result complete with it, and write nothing else; a reduction
over no thread writes nothing. -/
def Sys2Proof.Claims.UniformResults : Prop :=
  ∀ (i : Instr) (e : Enc) (f : Pack → Option W64) (s : State),
    Claims.uniformRow (issueMask s e) i = some (e, f) → Issuable i s →
    exec i s = .next (completedPack s
      (match f (issuing s) with
      | some x => wrS (issuing s) e.d.toNat x
      | none => issuing s) e 0)

/-- lred.min and lred.max over a floating-point type follow fmin and fmax in lane order, with invalid in every thread of the
mask when a source is a signalling NaN (04 R127). -/
def Sys2Proof.Claims.FloatReductions : Prop :=
  ∀ (e : Enc) (greatest : Bool) (g : Fmt) (s : State),
    let i : Instr := if greatest then .lredMax e else .lredMin e
    let p := issuing s
    let l := lanesOf (issueMask s e) p.width
    let vals := l.map fun t => Claims.opA e (typeBits (encTy e 3)) p ⟨t, 0, 0⟩
    let signals : Bool := vals.any fun v => (g.read v).isSig
    laneFmt (encTy e 3) = some g → Issuable i s → (signals = true → enabledFlags p &&& NV = 0) →
    ∃ q, exec i s = .next (completedPack s q e 0) ∧
      (∀ x r, vals = x :: r → rdS q e.d.toNat = BitVec.ofNat 64 (r.foldl (fun a b => (fMinMax g greatest (encModBit e 0) a b).1) x)) ∧
      (vals = [] → q = p) ∧ (∀ k, k ≠ e.d.toNat → rdS q k = rdS p k) ∧ (∀ k t, rdV q k t = rdV p k t) ∧
      (∀ u < p.threads.length, (packThread q u).fflags =
        if u ∈ l ∧ signals then (packThread p u).fflags ||| NV else (packThread p u).fflags) ∧
      (∀ u, (packThread q u).sansFl = (packThread p u).sansFl)

/-- pmov.unpack's inverse, cvtup, the accumulation chain and visd complete with their registers in every thread of the mask. -/
def Sys2Proof.Claims.VectorResults : Prop :=
  ∀ (i : Instr) (e : Enc) (f : Pack → Nat → List (Nat × Nat) × Fl) (s : State),
    Claims.vectorRow (issueMask s e) i = some (e, f) → Issuable i s →
    let p := issuing s
    let l := lanesOf (issueMask s e) p.width
    (∀ t ∈ l, (f p t).2 &&& enabledFlags p = 0) →
    ∃ q, exec i s = .next (completedPack s q e 0) ∧ VecDone l (fun t => (f p t).1) p q ∧
      ∀ u < p.threads.length, (packThread q u).fflags =
        if u ∈ l then (packThread p u).fflags ||| (f p u).2 else (packThread p u).fflags

/-- srd reads every special register: the per-thread ones into a vector register or pair, the per-pack ones into a uniform
register (04 R120, R121).  In Free mode %clock is an open value; reads of %slb and %sflag wait for the pack's matrix
instructions (12 R381), which the hypothesis excludes. -/
def Sys2Proof.Claims.SpecialReads : Prop :=
  ∀ (e : Enc) (s : State), Issuable (.srd e) s → ((e.b.toNat = 7 ∨ e.b.toNat = 8) → packMatBusy s s.cur = false) →
    let p := issuing s
    let n := e.b.toNat
    let l := lanesOf (issueMask s e) p.width
    if n = 0 ∨ n = 1 ∨ n = 4 then
      ∃ q, exec (.srd e) s = .next (completedPack s q e 0) ∧
        VecDone l (fun t =>
          if n = 0 then
            [(encD e, (p.wid.toNat + t) % 2 ^ 32), (encD e + 1, (p.wid.toNat + t) % 2 ^ 64 / 2 ^ 32)]
          else if n = 1 then [(encD e, t)] else [(encD e, (packThread p t).fflags.toNat)]) p q ∧
        ∀ u, (packThread q u).fflags = (packThread p u).fflags
    else
      exec (.srd e) s = .next (completed s
        ({ s with fresh := if n = 11 then s.fresh + 1 else s.fresh }.setPack s.cur (wrS p e.d.toNat (Claims.special s p n))) e 0)

/-- swr writes %fflags of the threads of the mask, %fenv, %rm and %rng where the value is in range, and traps ILLOP 13 where it
is not, whether in %fenv, in %rm or in some thread's %fflags, with nothing written (04 R120); the value that %tval then holds is open. -/
def Sys2Proof.Claims.SpecialWrites : Prop :=
  ∀ (e : Enc) (s : State), Issuable (.swr e) s →
    let p := issuing s
    let v := rdS p (encA e)
    let l := lanesOf (issueMask s e) p.width
    (e.b.toNat = 5 → v.toNat < 2048 ∧ v.toNat / 32 % 8 = 0 ∧ v.toNat / 256 % 8 ≤ 4 →
      exec (.swr e) s = .next (completedPack s { p with fenv := v.setWidth 32 } e 0)) ∧
    (e.b.toNat = 6 → v.toNat ≤ 4 → exec (.swr e) s = .next (completedPack s { p with rm := v.setWidth 32 } e 0)) ∧
    (e.b.toNat = 17 → exec (.swr e) s = .next (completedPack s { p with rng := if v = 0 then 0x9E3779B97F4A7C15 else v } e 0)) ∧
    (e.b.toNat = 4 → (∀ t ∈ l, rdV p (encA e) t < 32) →
      ∃ q, exec (.swr e) s = .next (completedPack s q e 0) ∧ q.sansThreads = p.sansThreads ∧
        ∀ u < p.threads.length, packThread q u =
          if u ∈ l then { packThread p u with fflags := BitVec.ofNat 5 (rdV p (encA e) u) } else packThread p u) ∧
    (issueMask s e ≠ 0 →
      (e.b.toNat = 6 ∧ 4 < v.toNat) ∨
        (e.b.toNat = 5 ∧ ¬(v.toNat < 2048 ∧ v.toNat / 32 % 8 = 0 ∧ v.toNat / 256 % 8 ≤ 4)) ∨
        (e.b.toNat = 4 ∧ ∃ t ∈ l, 32 ≤ rdV p (encA e) t) →
      ∃ x, exec (.swr e) s = .next (trapped s e ⟨clsIllop, 13, x, issueMask s e⟩))

/-- fflg reads a thread's sticky flags into vD and then keeps, clears or sets those that B names; frm writes %rm or the default
mode and returns the old one, and traps ILLOP 13 on an immediate above 4, changing nothing (%tval is then open, log entry 9); pmov.2 writes p0 to p15
of a thread, p7 staying 1; rkeep marks registers; rflush frees their lines, counts those that it writes back, which are dirty with a row
that is not dead, and changes no register, nor anything else where there is none of these; dhash.mix folds eight bytes into the hash (04 R124; 05 R162, R163; 06 R194, R195; 16 R491). -/
def Obligations.FlagsAndModes : Prop :=
  (∀ (e : Enc) (s : State), Issuable (.fflg e) s →
    let p := issuing s
    let l := lanesOf (issueMask s e) p.width
    ∃ q, exec (.fflg e) s = .next (completedPack s q e 0) ∧ VecDone l (fun t => [(encD e, (packThread p t).fflags.toNat)]) p q ∧
      ∀ u < p.threads.length, (packThread q u).fflags =
        if u ∈ l then
          let old := (packThread p u).fflags
          let b : Fl := BitVec.ofNat 5 (Claims.opB e 32 p ⟨u, 0, 0⟩)
          if encMod e = 1 then old &&& ~~~b else if encMod e = 2 then old ||| b else old
        else (packThread p u).fflags) ∧
  (∀ (e : Enc) (s : State), Issuable (.frm e) s → e.b.toNat ≤ 4 →
    let p := issuing s
    exec (.frm e) s = .next (completedPack s
      (if encModBit e 0 then
        { wrS p e.d.toNat (BitVec.ofNat 64 (p.fenv.toNat / 256 % 8)) with
          fenv := BitVec.ofNat 32 (p.fenv.toNat - p.fenv.toNat / 256 % 8 * 256 + e.b.toNat * 256) }
      else { wrS p e.d.toNat (p.rm.setWidth 64) with rm := BitVec.ofNat 32 e.b.toNat }) e 0)) ∧
  (∀ (e : Enc) (s : State), Issuable (.frm e) s → 4 < e.b.toNat → issueMask s e ≠ 0 →
    ∃ x, exec (.frm e) s = .next (trapped s e ⟨clsIllop, 13, x, issueMask s e⟩)) ∧
  (∀ (e : Enc) (s : State), Issuable (.pmov e) s → encMod e = 2 →
    let p := issuing s
    let l := lanesOf (issueMask s e) p.width
    ∃ q, exec (.pmov e) s = .next (completedPack s q e 0) ∧ q.sansThreads = p.sansThreads ∧
      ∀ u < p.threads.length, packThread q u =
        if u ∈ l then { packThread p u with preds := BitVec.ofNat 16 (rdV p (encA e) u) ||| 0x80 } else packThread p u) ∧
  (∀ (e : Enc) (s : State), Issuable (.rkeep e) s →
    exec (.rkeep e) s = .next (completedPack s
      { issuing s with kept := keepRegs (namedRegs (issueCtx s e) (issuing s)) (issuing s).kept } e 0)) ∧
  (∀ (e : Enc) (s : State), Issuable (.rflush e) s →
    let rs := namedRegs (issueCtx s e) (issuing s)
    let core := (s.crew (issuing s).crew).core
    let named (x : RfLine) : Bool := x.pack == s.cur && rs.contains x.row
    let back := (Tab.get [] s.rf core).filter fun x => named x && x.dirty && !lineDead (issued s) x
    let kept := (issuing s).kept &&& ~~~(rs.foldl (fun m r => m ||| (1#256 <<< r)) 0#256)
    ∃ t, exec (.rflush e) s = .next (completed s t e 0) ∧ (t.pack s.cur).kept = kept ∧
      (∀ m u, rdV (t.pack s.cur) m u = rdV (issuing s) m u) ∧ (∀ m, rdS (t.pack s.cur) m = rdS (issuing s) m) ∧
      Tab.get [] t.rf core = (Tab.get [] s.rf core).filter (fun x => !named x) ∧
      (∃ n ≤ back.length, Tab.get 0 t.counters (counterKey ctrRfWback core) =
        Tab.get 0 s.counters (counterKey ctrRfWback core) + BitVec.ofNat 64 n) ∧
      (∀ x b, back = [x] → imageBase (issued s) s.cur = some b → (rowPlaces (issued s) b (issuing s) x.row .write).isSome = true →
        Tab.get 0 t.counters (counterKey ctrRfWback core) = Tab.get 0 s.counters (counterKey ctrRfWback core) + 1) ∧
      (back = [] → t.pack s.cur = { issuing s with kept := kept } ∧ t.mem = s.mem ∧ ∀ k, k ≠ s.cur → t.pack k = s.pack k)) ∧
  (∀ (e : Enc) (s : State), Issuable (.dhash e) s → encMod e = 2 →
    exec (.dhash e) s = .next (completedPack s
      { issuing s with hash := (leBytes (rdS (issuing s) (encA e)).toNat 8).foldl (fun h b => hashByte h (2 ^ 54 - 1) b) (issuing s).hash }
      e 0))

/-- Reductions, ballots and the other instructions with one uniform result complete with it and write nothing else; a reduction over no
thread writes nothing (04 R122, R127, R130; 05 R150; 16 R491).  That lred.min and lred.max of one thread deliver a NaN with its payload is
the model's reading (log entry 25). -/
def Obligations.UniformResults : Prop := Claims.UniformResults ∧ Claims.FloatReductions

/-- Shuffles, broadcasts, match.any, pmov.unpack, cvtup, the accumulation chain and visd complete with their registers in every thread of
the execution mask, and change no other (04 R124 to R126, R128, R129; 06 R190; 14 R441). -/
def Obligations.VectorResults : Prop := Claims.CrossLanes ∧ Claims.VectorResults

/-- srd reads every special register, and swr writes %fflags, %fenv, %rm and %rng or traps ILLOP 13 on a value out of range (04 R120,
R121).  %clock in Free mode, the address that %caplist reads and %tval after that trap are open (log entries 5, 7 and 9); what %clock reads
in the other modes, one more than the instructions issued before, is log entry 16, and that the range of a uniform source is tested on all
64 bits is log entry 25. -/
def Obligations.SpecialRegisters : Prop := Claims.SpecialReads ∧ Claims.SpecialWrites

namespace Sys2Proof.Claims

/-! ### Control transfer -/

/-- Where bra and the direct call go (02 R52): the literal in bytes, or the 18-bit offset in words, from the instruction. -/
def direct (s : State) (e : Enc) : W64 :=
  match e.lit with
  | some l => issuePc s + l
  | none => issuePc s + BitVec.ofInt 64 (4 * toS 18 (encO18 e))

/-- Where brx and the indirect call take a thread: its register pair, or the uniform register. -/
def indirect (s : State) (e : Enc) (t : Nat) : W64 := BitVec.ofNat 64 (rdSrc (issuing s) (srcA e) 64 t 0 0)

/-- A branch or call: the target of each thread, and whether it is a call (04 R116). -/
def branchRow (s : State) : Instr → Option (Enc × Bool × (Nat → W64))
  | .bra e => some (e, false, fun _ => direct s e)
  | .brx e => some (e, false, indirect s e)
  | .call e => some (e, true, fun _ => direct s e)
  | .callReg e => some (e, true, indirect s e)
  | _ => none

/-- The pack after its threads of `l` have gone to their targets; nothing but their program counters and call stacks, the loop
stack and the den's copies of call entries changes. -/
structure Moved (l : List Nat) (f : Nat → Thread → Thread) (loops : List LoopEntry) (p q : Pack) : Prop where
  moved : ∀ t ∈ l, t < p.threads.length → packThread q t = f t (packThread p t)
  others : ∀ t, t ∉ l → packThread q t = packThread p t
  stack : q.loops = loops
  rest : { q with threads := [], loops := [], denRows := [] } = { p with threads := [], loops := [], denRows := [] }

/-- The range of a loop entry holds an address. -/
def holdsAddr (x : LoopEntry) (a : W64) : Bool := decide (x.start.toNat ≤ a.toNat) && decide (a.toNat ≤ x.stop.toNat)

/-- The memory, the other packs and the crews' scratchpads and windows stay as they were. -/
structure ElseSame (s t : State) : Prop where
  mem : t.mem = s.mem
  tags : t.tags = s.tags
  packs : ∀ k, k ≠ s.cur → t.pack k = s.pack k
  pads : ∀ k, (t.crew k).st = (s.crew k).st
  regions : ∀ k, (t.troop k).spm3 = (s.troop k).spm3 ∧ (t.gang k).spm2 = (s.gang k).spm2

end Sys2Proof.Claims

/-- bra, brx and both calls: each thread of the execution mask goes to its target, a call pushes the return address on the
thread's call stack, and a branch pops the loop entries whose range does not hold every target taken; a target that is no
multiple of 4 traps ALIGN at the branch (04 R110, R116; 02 R33). -/
def Sys2Proof.Claims.Branches : Prop :=
  ∀ (i : Instr) (e : Enc) (link : Bool) (tgt : Nat → W64) (s : State),
    Claims.branchRow s i = some (e, link, tgt) → Issuable i s →
    let p := issuing s
    let l := lanesOf (issueMask s e) p.width
    (link = true → ∀ t ∈ l, (packThread p t).calls.length < 1024) →
    ((∀ t ∈ l, (tgt t).toNat % 4 = 0) →
      ∃ q, exec i s = .next (completedPack s q e (issueMask s e)) ∧
        Claims.Moved l
          (fun t th => { th with pc := tgt t, calls := if link then (issuePc s + BitVec.ofNat 64 e.size) :: th.calls else th.calls })
          (if link ∨ l = [] then p.loops else p.loops.dropWhile fun x => !(l.all fun t => Claims.holdsAddr x (tgt t)))
          p q) ∧
    (∀ t r, (l.filter fun t => (tgt t).toNat % 4 ≠ 0) = t :: r →
      exec i s = .next (trapped s e ⟨clsAlign, 0, tgt t, maskOf (t :: r)⟩))

/-- What fence leaves of the order in which a crew's packs see each other's stores: with a class and a scope beyond the pack a
release is one more order of the pack's (its own stores so far and what it sees), which beyond the crew its next commit carries; a
fence without either, or of engine classes alone, leaves all as it was (09 R264 to R266, R279). -/
def Sys2Proof.Claims.fenced (e : Enc) (s t : State) : Prop :=
  let o := encO18 e
  { t with sight := s.sight } = issued s ∧
  (bits o 0 3 = 0 ∨ bits o 5 6 ≠ 0 → t.sight = s.sight) ∧
  (bitAt o 4 = true → bitAt o 3 = false → bits o 0 3 ≠ 0 → bits o 5 6 = 0 →
    t.sight = { (if 1 < bits o 0 3 then (carryAll s s.cur).sight else s.sight) with
      rels := Tab.set [] s.sight.rels s.cur ((s.fresh, s.seenBy s.cur) :: Tab.get [] s.sight.rels s.cur) })

/-- ret pops each thread's call stack; conv holds each thread of the mask at its address; exit ends them, with every dead bit set;
nop does nothing; yield has no effect but that its core chooses another pack next, if one can issue; fence changes only the
order in which the crew's packs see each other's stores, since in this model a performed write is visible at once (log entry
12, the model's choice), where the pack has no store in the spill forwarding table, from which a release would drain it;
a call on a full stack and a ret from an empty one trap ILLOP 12 with %tval 2 and 3 (04 R104, R116 to R118).  An exit that ends
a pack with moorings commits first (09 R257), which the hypothesis of the third clause excludes. -/
def Sys2Proof.Claims.ThreadControl : Prop :=
  (∀ (e : Enc) (s : State), Issuable (.ret e) s →
    let p := issuing s
    let l := lanesOf (issueMask s e) p.width
    ((∀ t ∈ l, (packThread p t).calls ≠ []) →
      ∃ q, exec (.ret e) s = .next (completedPack s q e (issueMask s e)) ∧
        Claims.Moved l (fun _ th => { th with pc := th.calls.headD 0, calls := th.calls.tail }) p.loops p q) ∧
    ((∃ t ∈ l, (packThread p t).calls = []) →
      exec (.ret e) s = .next (trapped s e ⟨clsIllop, 12, 3, issueMask s e⟩))) ∧
  (∀ (e : Enc) (s : State), Issuable (.conv e) s →
    ∃ q, exec (.conv e) s = .next (completedPack s q e (issueMask s e)) ∧
      Claims.Moved (lanesOf (issueMask s e) (issuing s).width) (fun _ th => { th with held := true, holdSize := e.size })
        (issuing s).loops (issuing s) q) ∧
  (∀ (e : Enc) (s : State), Issuable (.exit e) s →
    let l := lanesOf (issueMask s e) (issuing s).width
    ((∃ t < (issuing s).width, (packThread (issuing s) t).exited = false ∧ t ∉ l) ∨
      holdsOf s (s.pack s.cur).launch s.cur = []) →
    ∃ q, exec (.exit e) s = .next (completedPack s q e (issueMask s e)) ∧
      Claims.Moved l (fun _ th => { th with exited := true, vdead := BitVec.allOnes 256 }) (issuing s).loops (issuing s) q) ∧
  (∀ (e : Enc) (s : State), Issuable (.nop e) s → exec (.nop e) s = .next (completedPack s (issuing s) e 0)) ∧
  (∀ (e : Enc) (s : State), Issuable (.fence e) s →
    (∀ x ∈ s.spillsOf (s.crew (s.pack s.cur).crew).core, x.pack ≠ s.cur) →
    ∃ t, exec (.fence e) s = .next (completed s t e 0) ∧ Claims.fenced e s t) ∧
  (∀ (e : Enc) (s : State), Issuable (.yield e) s →
    exec (.yield e) s = .next (completed s { issued s with yields := (s.cur, true) :: s.yields } e 0)) ∧
  (∀ (e : Enc) (s : State) (i : Instr), i = .call e ∨ i = .callReg e → Issuable i s →
    (∃ t ∈ lanesOf (issueMask s e) (issuing s).width, 1024 ≤ (packThread (issuing s) t).calls.length) →
    exec i s = .next (trapped s e ⟨clsIllop, 12, 2, issueMask s e⟩))

/-- loop pushes its entry and continues at the start; with a count of 0 it passes over the loop; with four entries held it traps
ILLOP 12 with %tval 1, whatever its count; lbrk pops (04 R108, R111). -/
def Sys2Proof.Claims.Loops : Prop :=
  (∀ (e : Enc) (imm : Bool) (s : State),
    let i : Instr := if imm then .loopImm e else .loop e
    let p := issuing s
    let n : W64 := if imm then BitVec.ofNat 64 e.a.toNat else rdS p e.a.toNat
    let stop := issuePc s + BitVec.ofNat 64 (4 * (e.b.toNat * 64 + e.d.toNat))
    Issuable i s →
    (n ≠ 0 → p.loops.length < 4 →
      ∃ q, exec i s = .next (completedPack s q e p.sel) ∧
        Claims.Moved (lanesOf p.sel p.width) (fun _ th => { th with pc := issuePc s + 4 }) (⟨issuePc s + 4, stop, n⟩ :: p.loops) p q) ∧
    (4 ≤ p.loops.length → issueMask s e ≠ 0 → exec i s = .next (trapped s e ⟨clsIllop, 12, 1, issueMask s e⟩)) ∧
    (∀ size, n = 0 → p.loops.length < 4 → endSize (issued s) stop = .ok size →
      ∃ q, exec i s = .next (completedPack s q e p.sel) ∧
        Claims.Moved (lanesOf p.sel p.width) (fun _ th => { th with pc := stop + BitVec.ofNat 64 size }) p.loops p q)) ∧
  (∀ (e : Enc) (s : State), Issuable (.lbrk e) s →
    exec (.lbrk e) s = .next (completedPack s { issuing s with loops := (issuing s).loops.tail } e 0))

/-- What a completed instruction leaves besides its own effect, where its pack goes on and the crew's containment is lost already
or its den holds: the issue counts advance, and no register, memory byte, other pack or scratchpad changes (04 R101; 13 R403; 16 R476).
Where no thread is held at a conv, the threads that stay in sequence continue after the instruction, or at the start of the loop that ends
there, by the test of 04 R109, which pops the entries that are done; and a handler whose threads have all exited is left with its saved
loops (15 R450). -/
def Obligations.CompletionFrame : Prop :=
  ∀ (s t : State) (e : Enc) (left : BitVec 64),
    let p := issuing s
    let crew := p.crew
    let w := completed s t e left
    let q := t.pack s.cur
    (∃ u < q.width, (packThread q u).exited = false) → q.live = true →
    ((t.crew crew).lost = true ∨
      denUsed (countIssue (t.setPack s.cur (finishPack p q (issuePc s) e.size left)) crew) (t.crew crew).core ≤ denRoom) →
    (w.pack s.cur).issues = q.issues + 1 ∧ (w.pack s.cur).starved = false ∧
    (w.crew crew).issues = (t.crew crew).issues + 1 ∧
    (∀ m u, rdV (w.pack s.cur) m u = rdV q m u) ∧ (∀ m u, rdP (w.pack s.cur) m u = rdP q m u) ∧
    (∀ m, rdS (w.pack s.cur) m = rdS q m) ∧ (∀ m u, rdCap (w.pack s.cur) m u = rdCap q m u) ∧
    (∀ k, k ≠ s.cur → w.pack k = t.pack k) ∧ w.mem = t.mem ∧ w.tags = t.tags ∧
    (∀ k, (w.crew k).st = (t.crew k).st) ∧ (∀ k, (w.gang k).spm2 = (t.gang k).spm2) ∧ w.launches = t.launches ∧ w.troops = t.troops ∧
    let test := loopTest (issuePc s) q.loops
    let cont := (lanesOf (p.sel &&& ~~~left) q.width).filter fun u => !(packThread q u).exited
    ((∀ u < q.width, (packThread q u).held = false) →
      (∀ u ∈ cont, u < q.threads.length →
        (packThread (w.pack s.cur) u).pc = test.1.getD (issuePc s + BitVec.ofNat 64 e.size)) ∧
      (w.pack s.cur).loops =
        if q.save.inHandler = true ∧ (∀ u < q.width, q.save.mask.getLsbD u = true → (packThread q u).exited = true) then q.save.loops
        else if cont = [] then q.loops else test.2)

/-! ### Traps -/

/-- trap takes SWTRAP with its code as subcode and its operand as %tval, unless no thread's guard holds (04 R119). -/
def Sys2Proof.Claims.SoftwareTraps : Prop :=
  (∀ (e : Enc) (s : State), Issuable (.trap e) s → exec (.trap e) s = .next
    (if issueMask s e = 0 then completed s (issued s) e 0
     else trapped s e ⟨clsSwtrap, e.b.toNat, BitVec.ofNat 64 e.b.toNat, issueMask s e⟩)) ∧
  (∀ (e : Enc) (s : State), Issuable (.trapReg e) s → exec (.trapReg e) s = .next
    (if issueMask s e = 0 then completed s (issued s) e 0
     else trapped s e ⟨clsSwtrap, (rdS (issuing s) e.a.toNat).toNat % 2 ^ 16, rdS (issuing s) e.a.toNat, issueMask s e⟩))

/-- Entering the handler: %tepc, %tcause, %tval and %tmask, the save area, the subset at TRAP with an empty loop stack, and
nothing else: no register, predicate or flag, no memory byte, no other pack (15 R443, R444, R447, R448). -/
def Sys2Proof.Claims.TrapEntry : Prop :=
  ∀ (s : State) (e : Enc) (t : Trap),
    let p := issuing s
    let handler := (s.launch p.launch).hdr.trap
    let w := trapped s e t
    let q := w.pack s.cur
    handler ≠ 0 → p.save.inHandler = false → p.width ≤ p.threads.length →
    (∀ u ∈ lanesOf p.sel p.width, (packThread p u).exited = false ∧ (packThread p u).held = false) →
    q.tepc = issuePc s ∧ q.tcause = BitVec.ofNat 32 (t.sub % 2 ^ 16 * 2 ^ 8 + t.cls % 2 ^ 8) ∧ q.tmask = t.mask ∧ q.tval = t.val ∧
    q.save = ⟨p.loops, true, p.sel, issuePc s + BitVec.ofNat 64 e.size⟩ ∧ q.loops = [] ∧
    q.sel = maskOf (lanesOf p.sel p.width) ∧
    (∀ u < p.width, (packThread q u).pc = if p.sel.getLsbD u then BitVec.ofNat 64 handler else (packThread p u).pc) ∧
    (∀ u, (packThread q u).preds = (packThread p u).preds ∧ (packThread q u).fflags = (packThread p u).fflags ∧
      (packThread q u).calls = (packThread p u).calls) ∧
    (∀ m u, rdV q m u = rdV p m u) ∧ (∀ m, rdS q m = rdS p m) ∧ (∀ m u, rdCap q m u = rdCap p m u) ∧
    q.rng = p.rng ∧ q.fenv = p.fenv ∧ q.rm = p.rm ∧ q.sflag = p.sflag ∧ q.slb = p.slb ∧
    Claims.ElseSame s w

/-- A trap with TRAP 0, and a second trap in the handler, abort the crew, with WHY 1 and 2 and the trap's class, subcode and
address in the abort record (15 R449, R461, R462). -/
def Sys2Proof.Claims.TrapAborts : Prop :=
  ∀ (s : State) (e : Enc) (t : Trap),
    let p := s.pack s.cur
    ((s.launch p.launch).hdr.trap = 0 → trapped s e t = crewAbort (issued s) p.crew 1 t.cls t.sub (issuePc s)) ∧
    ((s.launch p.launch).hdr.trap ≠ 0 → p.save.inHandler = true →
      trapped s e t = crewAbort (issued s) p.crew 2 t.cls t.sub (issuePc s))

/-- tret: the subset continues at %tepc, at the saved next address, or at sA; the loop stack is restored and the in-handler bit
cleared; %tepc, %tcause, %tval and %tmask stay.  A return to the saved next address goes on in sequence after the instruction
that trapped, so the loop-end test of 04 R109 applies there; that the other two forms take no such test is the model's reading (log
entry 25).  Outside a handler it traps ILLOP 12 with %tval 4 (15 R450). -/
def Sys2Proof.Claims.TrapReturn : Prop :=
  ∀ (e : Enc) (s : State), Issuable (.tret e) s →
    let p := issuing s
    let k := e.b.toNat
    let target := if k = 0 then p.tepc else if k = 1 then p.save.next else rdS p (encA e)
    let test := if k = 1 then loopTest p.tepc p.save.loops else (none, p.save.loops)
    (k ≤ 2 → p.save.inHandler = true → (k = 2 → target.toNat % 4 = 0) →
      ∃ q, exec (.tret e) s = .next (completedPack s q e p.sel) ∧
        Claims.Moved (lanesOf p.sel p.width) (fun _ th => { th with pc := test.1.getD target }) test.2
          { p with save := { p.save with inHandler := false } } q) ∧
    (k ≤ 2 → p.save.inHandler = false → issueMask s e ≠ 0 → exec (.tret e) s = .next (trapped s e ⟨clsIllop, 12, 4, issueMask s e⟩)) ∧
    (k = 2 → p.save.inHandler = true → target.toNat % 4 ≠ 0 → issueMask s e ≠ 0 →
      exec (.tret e) s = .next (trapped s e ⟨clsAlign, 0, target, issueMask s e⟩))

/-- Every instruction whose encoding breaks a check of 02 R57 traps ILLOP with the lowest subcode that applies and the first word
as %tval, with no other effect, in a pack that has a thread to run it (or, for a guard that the instruction may not carry,
always). -/
def Sys2Proof.Claims.IllegalEncodingTraps : Prop :=
  ∀ (i : Instr) (op : Nat) (e : Enc) (s : State) (k : Nat),
    opcodeOf i = some (op, e) → s.isFox = false → (s.pack s.cur).live = true →
    statusPending s s.cur (s.pack s.cur).width i = false → illopSub (s.pack s.cur).width i = some k →
    (issueMask s e ≠ 0 ∨ guardBreach i = true) →
    exec i s = .next (trapped s e ⟨clsIllop, k, BitVec.ofNat 64 (encodeFirst op e), issueMask s e⟩)

/-- An unassigned opcode traps ILLOP 1 with the first word as %tval (02 R57). -/
def Sys2Proof.Claims.UnassignedOpcodes : Prop :=
  ∀ (op : BitVec 8) (e : Enc) (s : State), s.isFox = false → (s.pack s.cur).live = true →
    statusPending s s.cur (s.pack s.cur).width (.unassignedOpcode op e) = false → issueMask s e ≠ 0 →
    exec (.unassignedOpcode op e) s =
      .next (trapped s e ⟨clsIllop, 1, BitVec.ofNat 64 (encodeFirst op.toNat e), issueMask s e⟩)

/-- The fox slot ends in a fox fault at an instruction that it does not accept, with the ILLOP subcode that applies, and leaves
its program counter there (11 R343, R344). -/
def Sys2Proof.Claims.FoxRejects : Prop :=
  ∀ (i : Instr) (op : Nat) (e : Enc) (s : State) (k : Nat),
    opcodeOf i = some (op, e) → s.isFox = true → s.curPack.live = true → illopSub s.curPack.width i = none → foxSub i = some k →
    exec i s = .next (foxFault s (s.cur - foxBase) ⟨clsIllop, k, 0, execMask s.curPack e⟩)

/-- tbnd sets one entry of the launch's bound table; an ill-formed value traps ILLOP 13, and in Strict mode a well-formed one RACE 2, and
the table stays (%tval is open, log entry 9); sflg reads %sflag and with .clr clears
the bits named (15 R452, R466). -/
def Sys2Proof.Claims.BoundsAndStatus : Prop :=
  (∀ (e : Enc) (s : State), Issuable (.tbnd e) s →
    let p := issuing s
    let lo := rdS p (encA e)
    let hi := rdS p (encA e + 1)
    let w := (rdS p (encB e)).toNat
    w < 2 ^ 12 → s.isStrict p.launch = false →
    ∀ x, parseBound (leBytes lo.toNat 8 ++ leBytes hi.toNat 8 ++ leBytes (w / 2 ^ 8 % 4) 1 ++ leBytes (w / 2 ^ 10 % 4) 1 ++
      List.replicate 14 0) = some x →
    ∃ t, exec (.tbnd e) s = .next (completed s t e 0) ∧
      (∀ n, Tab.get BoundEntry.unused (t.launch p.launch).bounds n =
        if n = w % 256 then x else Tab.get BoundEntry.unused (s.launch p.launch).bounds n) ∧
      (∀ k, k ≠ p.launch → t.launch k = s.launch k) ∧ t.mem = s.mem ∧ t.packs = (issued s).packs) ∧
  (∀ (e : Enc) (s : State), Issuable (.tbnd e) s → issueMask s e ≠ 0 →
    let p := issuing s
    let w := (rdS p (encB e)).toNat
    let x := parseBound (leBytes (rdS p (encA e)).toNat 8 ++ leBytes (rdS p (encA e + 1)).toNat 8 ++ leBytes (w / 2 ^ 8 % 4) 1 ++
      leBytes (w / 2 ^ 10 % 4) 1 ++ List.replicate 14 0)
    (x = none ∨ 2 ^ 12 ≤ w → ∃ v, exec (.tbnd e) s = .next (trapped s e ⟨clsIllop, 13, v, issueMask s e⟩)) ∧
    (x ≠ none → w < 2 ^ 12 → s.isStrict p.launch = true →
      ∃ v, exec (.tbnd e) s = .next (trapped s e ⟨clsRace, 2, v, issueMask s e⟩))) ∧
  (∀ (e : Enc) (s : State), Issuable (.sflg e) s → packMatBusy (issued s) s.cur = false →
    let p := issuing s
    let q := wrS p e.d.toNat (p.sflag.setWidth 64)
    exec (.sflg e) s = .next (completedPack s
      (if encModBit e 0 then { q with sflag := p.sflag &&& ~~~((rdS p (encB e)).setWidth 32) } else q) e 0))

/-- sysr and sysw: in supervisor code a read returns the register, zero-extended, and a write replaces it; the immediate forms
name a register of the pack's own core.  In user code each traps PRIV 1; an unassigned selector traps ILLOP 13 (15 R467 to
R469; the order of the two is read from 15 R446, log entry 15).  %tval is open (log entry 9). -/
def Obligations.SystemRegisters : Prop :=
  ∀ (e : Enc) (write imm : Bool) (s : State),
    let i : Instr := if write then (if imm then .syswImm e else .sysw e) else if imm then .sysrImm e else .sysr e
    let p := issuing s
    let sel := if imm then e.b.toNat + 2 ^ 16 * (s.crew p.crew).core else (rdS p (encA e)).toNat
    Issuable i s →
    (∀ id unit, sysNamed sel = some (id, unit) → (s.launch (s.crew p.crew).launch).supervisor = true →
      if write then
        let x := rdS p (if imm then encA e else encB e)
        ∃ t, exec i s = .next (completed s t e 0) ∧
          sysRead t id unit = (if id = wdogId then (x.setWidth 32).setWidth 64 else x) ∧
          (∀ id' unit', sysNamed (unit' * 2 ^ 16 + id') = some (id', unit') → (id' ≠ id ∨ unit' ≠ unit) →
            sysRead t id' unit' = sysRead s id' unit') ∧
          t.mem = s.mem ∧ t.packs = (issued s).packs
      else exec i s = .next (completedPack s (wrS p e.d.toNat (sysRead s id unit)) e 0)) ∧
    (sysNamed sel ≠ none → (s.launch (s.crew p.crew).launch).supervisor = false → issueMask s e ≠ 0 →
      ∃ x, exec i s = .next (trapped s e ⟨clsPriv, 1, x, issueMask s e⟩)) ∧
    (sysNamed sel = none → issueMask s e ≠ 0 → ∃ x, exec i s = .next (trapped s e ⟨clsIllop, 13, x, issueMask s e⟩))

/-- Branches, calls, ret, conv, exit, loops, nop, yield and fence: where each thread goes, what each stack becomes, and the traps at a
target that is no multiple of 4, a full call or loop stack and an empty call stack (04 R104, R108, R110, R111, R116 to R118).  That fence
has no effect beyond its crew is the model's choice (log entry 12). -/
def Obligations.ControlFlow : Prop := Claims.Branches ∧ Claims.ThreadControl ∧ Claims.Loops

/-- trap takes SWTRAP with its code and operand, unless no thread's guard holds; tret continues at %tepc, at the saved next address or at sA,
restores the loop stack and leaves the handler, and traps outside one (04 R109, R119; 15 R450).  That tret.resume and tret.replay take no
loop-end test is the model's reading (log entry 25). -/
def Obligations.SoftwareTraps : Prop := Claims.SoftwareTraps ∧ Claims.TrapReturn

/-- Entering the handler: what %tepc, %tcause, %tval, %tmask and the save area receive, where the subset goes on, and that no register, flag
or byte of memory changes; a trap without a handler, or in one, aborts the crew (15 R443, R444, R447 to R449, R461, R462). -/
def Obligations.TrapEntry : Prop := Claims.TrapEntry ∧ Claims.TrapAborts

/-- An encoding that breaks a check of R57 and an unassigned opcode trap ILLOP with the lowest subcode and the first word as %tval; the fox
slot ends in a fox fault at what it does not accept (02 R57; 11 R343, R344).  Which words break which check is illopSub, whose readings
are log entry 14; the mask of a forbidden guard under an all-zero mask is log entry 19. -/
def Obligations.IllegalInstructions : Prop := Claims.IllegalEncodingTraps ∧ Claims.UnassignedOpcodes ∧ Claims.FoxRejects

namespace Sys2Proof.Claims

/-! ### Capabilities -/

/-- The results `f t` of a capability instruction: in kD of each thread of `l`, or once in yD (08 R220, R249 to R252). -/
structure CapDone (d : Nat) (l : List Nat) (f : Nat → Cap) (p q : Pack) : Prop where
  own : d < 16 → ∀ t ∈ l, rdK q d t = f t
  ownOthers : d < 16 → ∀ m t, t < 64 → (m ≠ d ∨ t ∉ l) → rdK q m t = rdK p m t
  ownRest : d < 16 → { q with k := [], denRows := [] } = { p with k := [], denRows := [] }
  shared : 16 ≤ d → d - 16 < p.y.length → rdY q (d - 16) = f 0
  sharedOthers : 16 ≤ d → ∀ m, m ≠ d - 16 → rdY q m = rdY p m
  sharedRest : 16 ≤ d → { q with y := [] } = { p with y := [] }

/-- A cursor is representable under a capability's bounds (08 R222). -/
def representable (c : Cap) (n : Int) : Prop :=
  c.boundsInt.1 - (2 ^ (c.exp + 12) : Nat) ≤ n ∧ n < c.boundsInt.1 + (3 * 2 ^ (c.exp + 12) : Nat) ∧ 0 ≤ n ∧ n < (2 ^ 54 : Nat)

/-- The capability with another cursor: tagged where it was and the cursor is representable, every other field copied (R251). -/
structure Repointed (c r : Cap) (n : Int) : Prop where
  cursor : r.cursor = ofI 54 n
  fields : r.n / 2 ^ 54 = c.n / 2 ^ 54
  tag : r.tag = true ↔ c.tag = true ∧ representable c n

/-- Operand B of cder, cset and cadd: 64 bits, or the immediate (02 R48). -/
def capB (imm : Bool) (s : State) (e : Enc) (t : Nat) : Int :=
  if imm then toS 6 e.b.toNat else toS 64 (rdSrc (issuing s) (srcB e) 64 t 0 0)

/-- What cder asks of its source and length, as the CAPV subcode that fails (R249). -/
def deriveFails (sv : Bool) (mode : Nat) (c : Cap) (len : Int) : Option Nat :=
  let fit := fitBounds c.cursor (c.cursor + len.toNat)
  if c.tag = false then some 1
  else if sv = false ∧ c.has pmSuper then some 3
  else if mode = 2 then none
  else if len < 0 ∨ (2 ^ 54 : Nat) < (c.cursor : Int) + len then some 7
  else if mode = 1 ∧ (fit.2.1, fit.2.2) ≠ (c.cursor, c.cursor + len.toNat) then some 7
  else if fit.2.1 < c.base ∨ c.top < fit.2.2 then some 7
  else none

/-- What cder gives where nothing fails: for .perm the permissions that B keeps, else the rounded bounds of R223 (R249). -/
structure Derived (mode : Nat) (c r : Cap) (len : Int) : Prop where
  tag : r.tag = true
  cursor : r.cursor = c.cursor
  space : r.space = c.space
  colour : r.colour = c.colour
  perm : r.perm = if mode = 2 then c.perm &&& ofI 12 len else c.perm
  base : r.base = if mode = 2 then c.base else (fitBounds c.cursor (c.cursor + len.toNat)).2.1
  top : r.top = if mode = 2 then c.top else (fitBounds c.cursor (c.cursor + len.toNat)).2.2
  exp : r.exp = if mode = 2 then c.exp else (fitBounds c.cursor (c.cursor + len.toNat)).1

/-! ### Memory accesses -/

/-- Neither order gates nor stamps: the launch runs in Free mode (16 R472). -/
def Free (s : State) : Prop :=
  (s.launch (s.pack s.cur).launch).hdr.dmode = 0 ∧ (s.launch (s.crew (s.pack s.cur).crew).launch).hdr.dmode = 0

/-- The access of a thread of size `n` bytes; `uniform` where the opcode takes per-pack capabilities only (02 R54). -/
def access (s : State) (e : Enc) (uniform : Bool) (n t : Nat) : Acc :=
  ⟨t, rdCap (issuing s) (encA e) t, mmAddr (issuing s) e uniform n t⟩

/-- The code is supervisor code. -/
def supervisor (s : State) : Bool := (s.launch (s.crew (s.pack s.cur).crew).launch).supervisor

/-- No atomic engine holds a partial of a granule (10 R291). -/
def noPartials (s : State) (g : Nat) : Prop :=
  (∀ x ∈ s.gather, ∀ l ∈ x.2, l.gran ≠ g) ∧ (∀ x ∈ s.launches, ∀ r ∈ x.2.homeRecs, r.gran ≠ g)

/-- The accesses pass the checks of R226, `chk` giving the CAPV subcode that one fails, and translate to the places `x`. -/
structure Passes (s : State) (chk : Acc → Option Nat) (n : Nat) (kind : XKind) (accs : List Acc) (x : Nat → Target) : Prop where
  capv : ∀ a ∈ accs, chk a = none
  aligned : ∀ a ∈ accs, a.addr % (n : Int) = 0
  place : ∀ a ∈ accs, resolveOne (issued s) (s.pack s.cur).crew kind a = .ok (x a.t)

/-- The checks 1 to 5 of R226 for a load. -/
def loadChk (s : State) (n : Nat) (a : Acc) : Option Nat := capSub (supervisor s) ⟨loadSpaces, pmLoad, n⟩ a.cap a.addr

/-- What the homes hold when the reads of some places are served: partials of their granules have been recalled (10 R292). -/
def served (s : State) (ts : List Target) (n : Nat) : State := readyRead (issued s) (nubNat (ts.flatMap fun y => y.grans n))

/-- The places can be read: no spill of the pack is in the forwarding table, and no place has an uncorrectable error: it is reachable,
its granule not poisoned, and what arrives passes its check, as does a granule of a scratchpad window (05 R140; 08 R242, R243; 17
R496). -/
structure Readable (s : State) (ts : List Target) (n : Nat) : Prop where
  spills : ∀ y ∈ s.spillsOf (s.crew (s.pack s.cur).crew).core, y.pack ≠ s.cur
  reach : ∀ y ∈ ts, y.loc.isPhys = true → (served s ts n).uceAt y.loc.off = none
  pads : ∀ y ∈ ts, y.loc.isPhys = false → ((served s ts n).spad y.loc).mismatch y.loc.off n = false

/-- The bytes that the crew reads at a place: its latest interval store there, else the home's (09 R262). -/
def bytesAt (s r : State) (l : Loc) (n : Nat) : List Byte := crewBytes r (s.crew (s.pack s.cur).crew).isb l n

/-- A load changes no byte of memory: what changes is what the recalls it forces change, and nothing where there are none. -/
structure OnlyServed (s r t : State) (ts : List Target) (n : Nat) : Prop where
  mem : t.mem = r.mem
  tags : t.tags = r.tags
  packs : ∀ k, k ≠ s.cur → t.pack k = r.pack k
  crews : t.crews = s.crews
  pads : t.gangs = s.gangs ∧ t.troops = s.troops
  calm : (∀ y ∈ ts, ∀ g ∈ y.grans n, noPartials s g) → r.mem = s.mem ∧ r.packs = (issued s).packs

/-- The registers that a load of type `ty` writes in a thread: one, or a pair for 64 bits (08 R246). -/
def loadRegs (e : Enc) (bs : List Byte) : List (Nat × Nat) :=
  let ty := encTy e 9
  if typeBits ty = 64 then [(encD e, leNat bs % 2 ^ 32), (encD e + 1, leNat bs / 2 ^ 32)]
  else [(encD e, if typeSigned ty then ofI 32 (toS (typeBits ty) (leNat bs)) else leNat bs)]

/-- The capability that a place delivers (08 R228). -/
def capLoaded (s r : State) (c : Cap) (y : Target) : Cap :=
  ⟨crewTag r (s.crew (s.pack s.cur).crew).isb y.loc && c.has pmLoadCap && (isWindow y.space || (y.pte.testBit 4 && decide (y.pte / 2 ^ 6 % 4 < 2))),
    BitVec.ofNat 128 (leNat (bytesAt s r y.loc 16))⟩

end Sys2Proof.Claims

/-- cset, cadd and cclr: the cursor becomes B or cursor + B in sint(64), every other field is copied, and the tag stays where the
new cursor is representable; cclr copies with tag 0.  They take no trap (08 R251, R252). -/
def Sys2Proof.Claims.CapabilityMoves : Prop :=
  (∀ (i : Instr) (e : Enc) (n : Nat → Int) (s : State),
    let c t := rdCap (issuing s) (encA e) t
    (i = .cset e ∧ (n = fun t => Claims.capB false s e t) ∨
      (i = .cadd e ∧ n = fun t => toS 64 (ofI 64 ((c t).cursor + Claims.capB false s e t))) ∨
      (i = .caddImm e ∧ n = fun t => toS 64 (ofI 64 ((c t).cursor + Claims.capB true s e t)))) →
    Issuable i s →
    ∃ q f, exec i s = .next (completedPack s q e 0) ∧
      Claims.CapDone (encD e) (lanesOf (issueMask s e) (issuing s).width) f (issuing s) q ∧
      ∀ t, Claims.Repointed (c t) (f t) (n t)) ∧
  (∀ (e : Enc) (s : State), Issuable (.cclr e) s →
    ∃ q, exec (.cclr e) s = .next (completedPack s q e 0) ∧
      Claims.CapDone (encD e) (lanesOf (issueMask s e) (issuing s).width)
        (fun t => { rdCap (issuing s) (encA e) t with tag := false }) (issuing s) q)

/-- cder narrows: where its checks hold in every thread (once for a y destination) it writes a capability with the bounds of R223
or fewer permissions; where one fails it traps CAPV with the lowest subcode and writes nothing (08 R226, R249). -/
def Sys2Proof.Claims.CapabilityDerivation : Prop :=
  ∀ (i : Instr) (e : Enc) (imm : Bool) (s : State),
    i = (if imm then .cderImm e else .cder e) → Issuable i s →
    let p := issuing s
    let l := if 16 ≤ encD e then [0] else lanesOf (issueMask s e) p.width
    let c t := rdCap p (encA e) t
    let fails t := Claims.deriveFails (Claims.supervisor s) (encMod e % 4) (c t) (Claims.capB imm s e t)
    ((∀ t ∈ l, fails t = none) →
      ∃ q f, exec i s = .next (completedPack s q e 0) ∧
        Claims.CapDone (encD e) (lanesOf (issueMask s e) p.width) f p q ∧
        ∀ t ∈ l, Claims.Derived (encMod e % 4) (c t) (f t) (Claims.capB imm s e t)) ∧
    (∀ k t, t ∈ l → fails t = some k → (∀ u ∈ l, u < t → fails u ≠ some k) →
      (∀ u ∈ l, ∀ j, fails u = some j → k ≤ j) → issueMask s e ≠ 0 →
      exec i s = .next (trapped s e ⟨clsCapv, k, BitVec.ofNat 64 (c t).cursor,
        if 16 ≤ encD e then issueMask s e else maskOf (l.filter fun u => (fails u).isSome)⟩))

/-- A representable cursor leaves the decoded bounds as they are (08 R222). -/
def Sys2Proof.Claims.RepresentableCursor : Prop :=
  ∀ (c : Cap) (n : Int), c.exp ≤ 41 → Claims.representable c n →
    (c.moveTo n).base = c.base ∧ (c.moveTo n).top = c.top ∧ (c.moveTo n).tag = c.tag

/-- The exponent of R223 is the least whose rounded bounds stay strictly below three quarters of its window, and the rounded bounds
enclose those asked for. -/
def Sys2Proof.Claims.BoundsExponent : Prop :=
  ∀ (b t : Nat), b ≤ t → t ≤ 2 ^ 54 →
    let r := fitBounds b t
    r.2.1 = b / 2 ^ r.1 * 2 ^ r.1 ∧ r.2.2 = (t + 2 ^ r.1 - 1) / 2 ^ r.1 * 2 ^ r.1 ∧ r.1 ≤ 41 ∧
    r.2.1 ≤ b ∧ t ≤ r.2.2 ∧ r.2.2 - r.2.1 < 3 * 2 ^ (r.1 + 12) ∧
    ∀ k < r.1, 3 * 2 ^ (k + 12) ≤ (t + 2 ^ k - 1) / 2 ^ k * 2 ^ k - b / 2 ^ k * 2 ^ k

/-- ld and ldg of data: every thread of the mask (for ldg, every one in bounds) reads its item, extended to its register or pair;
ldg writes 0 elsewhere and in the extended form pC; nothing else changes (08 R246, R248). -/
def Sys2Proof.Claims.Loads : Prop :=
  ∀ (e : Enc) (guarded : Bool) (s : State) (x : Nat → Target),
    let i : Instr := if guarded then .ldg e else .ldVector e
    let p := issuing s
    let l := lanesOf (issueMask s e) p.width
    let n := typeBits (encTy e 9) / 8
    let acc t := Claims.access s e false n t
    let out (t : Nat) : Bool := guarded && Claims.loadChk s n (acc t) == some 5
    let ins := l.filter fun t => !out t
    let r := Claims.served s (ins.map x) n
    Issuable i s → (guarded = false → encModBit e 0 = false) → Claims.Free s →
    Claims.Passes s (Claims.loadChk s n) n .read (ins.map acc) x → Claims.Readable s (ins.map x) n →
    ∃ t q, exec i s = .next (completed s t e 0) ∧ Claims.OnlyServed s r t (ins.map x) n ∧
      VecDone l (fun u => if out u then (Claims.loadRegs e []).map fun y => (y.1, 0) else Claims.loadRegs e (Claims.bytesAt s r (x u).loc n))
        (r.pack s.cur) q ∧
      if guarded = true ∧ e.ext.isSome then PredDone (encC e) l (fun u => !out u) q (t.pack s.cur) else t.pack s.cur = q

/-- ld of a capability delivers the bytes and the tag that R228 states. -/
def Sys2Proof.Claims.CapabilityLoads : Prop :=
  ∀ (e : Enc) (uniform : Bool) (s : State) (x : Nat → Target),
    let i : Instr := if uniform then .ldUniform e else .ldVector e
    let p := issuing s
    let l := (lanesOf (issueMask s e) p.width).take (if uniform then 1 else 64)
    let acc t := Claims.access s e uniform 16 t
    let r := Claims.served s (l.map x) 16
    Issuable i s → encModBit e 0 = true → Claims.Free s →
    Claims.Passes s (Claims.loadChk s 16) 16 .read ((lanesOf (issueMask s e) p.width).map acc) x → Claims.Readable s (l.map x) 16 →
    ∃ t, exec i s = .next (completed s t e 0) ∧ Claims.OnlyServed s r t (l.map x) 16 ∧
      if uniform then
        ∀ u, l = [u] → encD e < p.y.length →
          rdY (t.pack s.cur) (encD e) = Claims.capLoaded s r (rdCap p (encA e) 0) (x u) ∧
          { t.pack s.cur with y := [] } = { r.pack s.cur with y := [] }
      else
        (∀ u ∈ l, rdK (t.pack s.cur) (encD e) u = Claims.capLoaded s r (rdCap p (encA e) u) (x u)) ∧
        (∀ m u, u < 64 → (m ≠ encD e ∨ u ∉ l) → rdK (t.pack s.cur) m u = rdK (r.pack s.cur) m u) ∧
        { t.pack s.cur with k := [], denRows := [] } = { r.pack s.cur with k := [], denRows := [] }

/-- The uniform ld of data: one access, extended to 64 bits in sD; nothing under an all-zero mask (08 R247). -/
def Sys2Proof.Claims.UniformLoads : Prop :=
  ∀ (e : Enc) (s : State) (x : Nat → Target),
    let p := issuing s
    let n := typeBits (encTy e 9) / 8
    let l := lanesOf (issueMask s e) p.width
    Issuable (.ldUniform e) s → encModBit e 0 = false → Claims.Free s →
    Claims.Passes s (Claims.loadChk s n) n .read (l.map (Claims.access s e true n)) x →
    (l = [] → ∃ t, exec (.ldUniform e) s = .next (completed s t e 0) ∧ t.mem = s.mem ∧ t.packs = (issued s).packs) ∧
    (∀ u v, l = u :: v → Claims.Readable s [x u] n →
      let r := Claims.served s [x u] n
      let bs := Claims.bytesAt s r (x u).loc n
      ∃ t, exec (.ldUniform e) s = .next (completed s t e 0) ∧ Claims.OnlyServed s r t [x u] n ∧
        t.pack s.cur = wrS (r.pack s.cur) (encD e)
          (if typeSigned (encTy e 9) then BitVec.ofInt 64 (toS (typeBits (encTy e 9)) (leNat bs)) else BitVec.ofNat 64 (leNat bs)))

/-- The CAPV and ALIGN traps of the data forms of ld and st: the lowest failing subcode, the address of its first thread, all failing
threads; ALIGN only where no thread fails R226 (08 R226).  That %tmask holds the misaligned threads at ALIGN, and the execution mask in a
uniform form, is the model's reading (log entry 20). -/
def Obligations.AccessTraps : Prop :=
  ∀ (i : Instr) (e : Enc) (uniform store : Bool) (s : State),
    i = (if uniform then (if store then .stUniform e else .ldUniform e) else if store then .stVector e else .ldVector e) →
    Issuable i s → encModBit e 0 = false →
    let p := issuing s
    let n := typeBits (encTy e 9) / 8
    let l := lanesOf (issueMask s e) p.width
    let acc t := Claims.access s e uniform n t
    let fails t := capSub (Claims.supervisor s) (if store then ⟨storeSpaces, pmStore, n⟩ else ⟨loadSpaces, pmLoad, n⟩) (acc t).cap (acc t).addr
    (∀ k t, t ∈ l → fails t = some k → (∀ u ∈ l, u < t → fails u ≠ some k) → (∀ u ∈ l, ∀ j, fails u = some j → k ≤ j) →
      exec i s = .next (trapped s e ⟨clsCapv, k, BitVec.ofInt 64 (acc t).addr,
        if uniform then issueMask s e else maskOf (l.filter fun u => (fails u).isSome)⟩)) ∧
    ((∀ u ∈ l, fails u = none) → ∀ t r, (l.filter fun u => (acc u).addr % (n : Int) ≠ 0) = t :: r →
      exec i s = .next (trapped s e ⟨clsAlign, 0, BitVec.ofInt 64 (acc t).addr, if uniform then issueMask s e else maskOf (t :: r)⟩))

/-- pgprf changes no register and no memory byte, and never traps (08 R253). -/
def Sys2Proof.Claims.Prefetch : Prop :=
  ∀ (e : Enc) (s : State), Issuable (.pgprf e) s →
    ∃ t, exec (.pgprf e) s = .next (completed s t e 0) ∧ t.mem = s.mem ∧ t.tags = s.tags ∧ t.packs = (issued s).packs ∧
      t.crews = s.crews ∧ t.gangs = s.gangs ∧ t.troops = s.troops ∧ t.launches = s.launches ∧
      t.faultRecs = s.faultRecs ∧ t.pendFaults = s.pendFaults

/-- cset, cadd and cclr complete with the moved or untagged capability; cder completes with the narrowed one or traps CAPV with the lowest
subcode that fails (08 R226, R249, R251, R252).  That %tmask is the execution mask where the destination is a y register is the model's
reading (log entry 20). -/
def Obligations.CapabilityInstructions : Prop := Claims.CapabilityMoves ∧ Claims.CapabilityDerivation

/-- The exponent that cder chooses for bounds is the least that 08 R223 admits, and the rounded bounds enclose those asked for; a
representable cursor leaves base and top as they are (08 R222). -/
def Obligations.CapabilityFormat : Prop := Claims.RepresentableCursor ∧ Claims.BoundsExponent

/-- ld and ldg of data, and ld of a capability per thread or per pack: each completes with what stands at the translated places, the crew's own
buffered stores first, and changes nothing else but what a recall of partials changes (08 R228, R246, R248; 09 R262; 10 R291). -/
def Obligations.Loads : Prop := Claims.Loads ∧ Claims.CapabilityLoads

/-- The uniform ld of data makes one access and extends the item into sD; pgprf changes no register and no byte and never traps (08 R247, R253). -/
def Obligations.UniformLoads : Prop := Claims.UniformLoads ∧ Claims.Prefetch

namespace Sys2Proof.Claims

/-- What a thread stores: its bytes, and for a capability the tag (08 R228, R246, R247). -/
def stored (s : State) (e : Enc) (uniform capForm : Bool) (n t : Nat) : List Byte × Option Bool :=
  let p := issuing s
  if capForm then
    let k := if uniform then rdY p (encD e) else rdK p (encD e) t
    (leBytes k.n 16, some k.tag)
  else (leBytes (if uniform then (rdS p (encD e)).toNat else if n = 8 then rdV64 p (encD e) t else rdV p (encD e) t) n, none)

/-- The CAPV subcode that a store fails: the store permission, for a tagged capability store-capability too, and its global
permission outside spaces 2, 3, 4 and 6 (08 R224, R226). -/
def storeChk (s : State) (n : Nat) (v : Option Cap) (a : Acc) : Option Nat :=
  match v with
  | some k =>
    if k.tag then
      match capSub (supervisor s) ⟨storeSpaces, pmStore + pmStoreCap, n⟩ a.cap a.addr with
      | some c => some c
      | none => if k.has pmGlobal || [2, 3, 4, 6].contains a.cap.space then none else some 6
    else capSub (supervisor s) ⟨storeSpaces, pmStore, n⟩ a.cap a.addr
  | none => capSub (supervisor s) ⟨storeSpaces, pmStore, n⟩ a.cap a.addr

/-- A byte after some writes (address and bytes) have landed, the last one winning (09 R271). -/
def landed (ws : List (Nat × List Byte)) (old : Nat → Byte) (a : Nat) : Byte :=
  match ws.reverse.find? fun w => w.1 ≤ a && a < w.1 + w.2.length with
  | some w => w.2.getD (a - w.1) 0
  | none => old a

def isSpm1 : Loc → Bool
  | .spm1 _ _ => true
  | _ => false

/-- The offsets and bytes that go to places of one kind. -/
def writesAt (ts : List (Target × List Byte × Option Bool)) (f : Loc → Option Nat) : List (Nat × List Byte) :=
  ts.filterMap fun y => (f y.1.loc).map fun a => (a, y.2.1)

/-- The interval store that a target becomes. -/
def buffered (s : State) (ins : Nat) (y : Target × List Byte × Option Bool) : IStore :=
  ⟨s.cur, ins, y.1.loc, y.2.1, y.2.2, y.1.pte.testBit 5, y.1.pte.testBit 4 && decide (y.1.pte / 2 ^ 6 % 4 < 2), y.1.colour, isGated y.1.space⟩

/-- What a store of the issuing pack leaves, outside space 6 (15 R454, R455; 16 R479): bytes for SPM1 land in place; the others are
interval stores, or with containment lost land at their homes; the pack's hash takes the bytes; nothing else changes. -/
structure StoreDone (s t : State) (ts : List (Target × List Byte × Option Bool)) (p q : Pack) : Prop where
  spm1 : ∀ c a, ((t.crew c).st.spm1.byte a =
    landed (writesAt ts fun l => match l with | .spm1 k o => if k = c then some o else none | _ => none) ((s.crew c).st.spm1.byte) a)
  held : (s.crew (s.pack s.cur).crew).lost = false →
    (∃ ins, (t.crew (s.pack s.cur).crew).isb =
      (s.crew (s.pack s.cur).crew).isb ++ (ts.filter fun y => !isSpm1 y.1.loc).map (buffered s ins)) ∧
    t.mem = s.mem ∧ t.tags = s.tags ∧ (∀ g, (t.gang g).spm2 = (s.gang g).spm2) ∧ ∀ g, (t.troop g).spm3 = (s.troop g).spm3
  homes : (s.crew (s.pack s.cur).crew).lost = true →
    (t.crew (s.pack s.cur).crew).isb = (s.crew (s.pack s.cur).crew).isb ∧
    (∀ a, t.byte a = landed (writesAt ts fun l => match l with | .phys o => some o | _ => none) s.byte a) ∧
    (∀ g a, (t.gang g).spm2.byte a =
      landed (writesAt ts fun l => match l with | .spm2 k o => if k = g then some o else none | _ => none) ((s.gang g).spm2.byte) a) ∧
    (∀ g a, (t.troop g).spm3.byte a =
      landed (writesAt ts fun l => match l with | .spm3 k o => if k = g then some o else none | _ => none) ((s.troop g).spm3.byte) a)
  crews : ∀ c, c ≠ (s.pack s.cur).crew → (t.crew c).isb = (s.crew c).isb
  hash : q.hash = ts.foldl (fun h y => hashBytes h (ofI 54 y.1.addr) y.2.1) p.hash
  pack : { q with hash := 0, resv := none, monitor := none } = { p with hash := 0, resv := none, monitor := none }
  calm : (s.crew (s.pack s.cur).crew).lost = false → q.resv = p.resv ∧ q.monitor = p.monitor ∧ ∀ k, k ≠ s.cur → t.pack k = s.pack k

end Sys2Proof.Claims

/-- st, stg and the uniform st: where the accesses pass their checks and the crew's den and store buffer have room, the bytes go
where 15 R454 and R455 say, merged with the higher thread winning; ST of a capability carries its tag; stg leaves out threads out of
bounds and writes pC (08 R246 to R248; 09 R271). -/
def Sys2Proof.Claims.Stores : Prop :=
  ∀ (i : Instr) (e : Enc) (uniform guarded : Bool) (s : State) (x : Nat → Target),
    (i = .stVector e ∧ uniform = false ∧ guarded = false ∨ i = .stg e ∧ uniform = false ∧ guarded = true ∨
      i = .stUniform e ∧ uniform = true ∧ guarded = false) →
    let p := issuing s
    let crew := s.crew p.crew
    let capForm := !guarded && encModBit e 0
    let n := if capForm then 16 else typeBits (encTy e 9) / 8
    let l := lanesOf (issueMask s e) p.width
    let acc t := Claims.access s e uniform n t
    let chk (a : Acc) := Claims.storeChk s n
      (if capForm then some (if uniform then rdY p (encD e) else rdK p (encD e) a.t) else none) a
    let out (t : Nat) : Bool := guarded && chk (acc t) == some 5
    let ins := l.filter fun t => !out t
    let ts := (if uniform then ins.take 1 else ins).map fun t => (x t, Claims.stored s e uniform capForm n t)
    Issuable i s → Claims.Free s → Claims.Passes s chk n .write (ins.map acc) x →
    (∀ y ∈ ts, y.1.space ≠ 6 ∧ (y.1.loc.isPhys = true → reachable s y.1.loc.off = true ∧ ∀ g ∈ y.1.grans n, Claims.noPartials s g)) →
    (crew.lost = true → crew.isb = []) →
    (crew.lost = false → denUsed (issued s) crew.core + ts.length ≤ denRoom ∧ isbUsed (issued s) crew.core + ts.length ≤ isbRoom) →
    ∃ t q, exec i s = .next (completed s t e 0) ∧ Claims.StoreDone s t ts p q ∧
      if guarded = true ∧ e.ext.isSome then PredDone (encC e) l (fun u => !out u) q (t.pack s.cur) else t.pack s.cur = q

/-- A store to space 6 goes into the core's forwarding table while it holds fewer than 32 entries, and changes no byte elsewhere;
with 32 it stalls the pack (05 R140). -/
def Sys2Proof.Claims.ContextStores : Prop :=
  ∀ (e : Enc) (s : State) (x : Nat → Target),
    let p := issuing s
    let core := (s.crew p.crew).core
    let n := typeBits (encTy e 9) / 8
    let l := lanesOf (issueMask s e) p.width
    Issuable (.stVector e) s → encModBit e 0 = false → Claims.Free s → l ≠ [] →
    Claims.Passes s (Claims.storeChk s n none) n .write (l.map (Claims.access s e false n)) x → (∀ t ∈ l, (x t).space = 6) →
    ((s.spillsOf core).length < 32 →
      ∃ t ins, exec (.stVector e) s = .next (completed s t e 0) ∧ t.mem = s.mem ∧
        t.spillsOf core = s.spillsOf core ++
          [⟨s.cur, n, l.map fun u => (u, Claims.buffered s ins (x u, Claims.stored s e false false n u))⟩] ∧
        (∀ c, (t.crew c).isb = (s.crew c).isb ∧ (t.crew c).st = (s.crew c).st) ∧ ∀ k, k ≠ s.cur → t.pack k = s.pack k) ∧
    (32 ≤ (s.spillsOf core).length → exec (.stVector e) s = .next (stalledIn s (issued s)))

/-- One write of the device reads back, and every other byte of memory is as it was, where the home holds no partial of the granules
written; memory keeps its canonical form in any case (09 R271). -/
def Sys2Proof.Claims.MemoryReadAfterWrite : Prop :=
  ∀ (s : State) (pa : Nat) (bs : List Byte),
    (Safety.tablesWf s = true → memWf (performBytes s pa bs).mem = true) ∧
    (reachable s pa = true → (∀ g, pa / 64 ≤ g → g ≤ (pa + bs.length - 1) / 64 → Claims.noPartials s g) →
      ∀ a, (performBytes s pa bs).byte a = if pa ≤ a ∧ a < pa + bs.length then bs.getD (a - pa) 0 else s.byte a)

/-- A crew reads the bytes of its own latest interval store and else the home's (09 R262; 15 R454). -/
def Sys2Proof.Claims.StoreForwarding : Prop :=
  ∀ (s : State) (isb : List IStore) (x : IStore) (l : Loc),
    crewByte s (isb ++ [x]) l =
      if sameRegion x.loc l = true ∧ x.loc.off ≤ l.off ∧ l.off < x.loc.off + x.bytes.length then x.bytes.getD (l.off - x.loc.off) 0
      else crewByte s isb l

/-- st, stg and the uniform st put their bytes where the manual says: into SPM1, into the crew's interval store buffer, or without containment
to their homes; a store to space 6 goes into the forwarding table or stalls (05 R140; 08 R246 to R248; 09 R271; 15 R454, R455). -/
def Obligations.Stores : Prop := Claims.Stores ∧ Claims.ContextStores

/-- A write of the device reads back and leaves every other byte as it was, and memory keeps its canonical form; a crew reads its own latest
buffered store and else the home (09 R262, R271; 15 R454). -/
def Obligations.MemoryReadAfterWrite : Prop := Claims.MemoryReadAfterWrite ∧ Claims.StoreForwarding

namespace Sys2Proof.Claims

/-! ### Instructions that act at a home quay -/

/-- Memory as a function of the address, and items in it (00 R7). -/
def itemAt (m : Nat → Byte) (pa n : Nat) : Nat := leNat ((List.range n).map fun k => m (pa + k))
def put (m : Nat → Byte) (pa : Nat) (bs : List Byte) (a : Nat) : Byte :=
  if pa ≤ a ∧ a < pa + bs.length then bs.getD (a - pa) 0 else m a

/-- The value that an operation of atom or red leaves (10 R287): integer or, of format `f`, floating-point in RNE. -/
def combined (ty op old x : Nat) : Nat :=
  let n := typeBits ty
  match laneFmt ty, op with
  | some f, 0 => (fAdd f .rne old x).1
  | some f, 1 => (fMinMax f false true old x).1
  | some f, 2 => (fMinMax f true true old x).1
  | none, 0 => (old + x) % 2 ^ n
  | none, 1 => if num ty old ≤ num ty x then old else x
  | none, 2 => if num ty old ≤ num ty x then x else old
  | none, 3 => old &&& x
  | none, 4 => old ||| x
  | none, 5 => old ^^^ x
  | _, _ => x

/-- The steps of one atom in ascending lane order: each thread's item (lane and address), the memory they leave, and the old value
of each; `new` says what a thread writes over an old value, if it writes. -/
def atomRun (new : Nat → Nat → Option Nat) (size : Nat) : List (Nat × Nat) → (Nat → Byte) → (Nat → Byte) × List (Nat × Nat)
  | [], m => (m, [])
  | (t, pa) :: l, m =>
    let old := itemAt m pa size
    let m' := match new t old with
      | some v => put m pa (leBytes v size)
      | none => m
    let (m'', out) := atomRun new size l m'
    (m'', (t, old) :: out)

/-- The pack's interval stores have committed and its interval is exposed (10 R283; 15 R456), and the stores of crewmates at `places`
(place and size) whose values the pack has read have gone before, so that no later read of it goes back behind them (09 R261); that
leaves `s1`.  Beside the first, every clause holds of any commit in Free mode. -/
structure Exposed (s s1 : State) (places : List (Loc × Nat)) : Prop where
  done : (expose (issued s) s.cur).bind (fun r => catchUp r s.cur places) = .ok s1
  cur : s1.cur = s.cur
  pack : ∃ c r m f w g, s1.pack s.cur = { issuing s with commit := c, resv := r, monitor := m, sflag := f, wait := w, progress := g }
  core : (s1.crew (issuing s).crew).core = (s.crew (issuing s).crew).core
  free : (s1.launch (issuing s).launch).hdr.dmode = 0

/-- What a home serves after the pack has committed: `s1` is the state after that commit (10 R283, R291). -/
def servedFrom (s1 : State) (ts : List Target) (n : Nat) : State := readyRead s1 (nubNat (ts.flatMap fun y => y.grans n))

/-- No granule of a place has an uncorrectable error: each is reachable, not poisoned, and passes its check (08 R242, R243). -/
def sound (r : State) (ts : List Target) (n : Nat) : Prop :=
  ∀ y ∈ ts, ∀ g ∈ y.grans n, r.uceAt (64 * g) = none

/-- The pack but for what a write at a home may change in any pack: its reservation and its monitor (10 R296, R298). -/
def sansWatch (p : Pack) : Pack := { p with resv := none, monitor := none }

/-- The check of R226 for an instruction of chapter 10. -/
def quayChk (s : State) (spaces : List Nat) (perm n : Nat) (a : Acc) : Option Nat := capSub (supervisor s) ⟨spaces, perm, n⟩ a.cap a.addr

/-- The access of an instruction that acts once per pack (10 R284). -/
def once (s : State) (e : Enc) : Acc := ⟨0, rdCap (issuing s) (encA e) 0, mmAddr (issuing s) e true 1 0⟩

/-- An operand or result of `n` bytes in vector registers from `d` on. -/
def itemRegs (ty d n x : Nat) : List (Nat × Nat) :=
  if n = 16 then [(d, x % 2 ^ 32), (d + 1, x / 2 ^ 32 % 2 ^ 32), (d + 2, x / 2 ^ 64 % 2 ^ 32), (d + 3, x / 2 ^ 96)]
  else if n = 8 then [(d, x % 2 ^ 32), (d + 1, x / 2 ^ 32)]
  else [(d, if typeSigned ty then ofI 32 (toS (typeBits ty) x) else x)]
def itemOf (p : Pack) (d t n : Nat) : Nat := if n = 16 then rdV128 p d t else if n = 8 then rdV64 p d t else rdV p d t % 2 ^ (8 * n)

/-- A partial of an item in the gather buffer of a cluster. -/
def partAt (ls : List GatherLine) (g o : Nat) : Option Nat :=
  ((ls.find? fun l => l.gran == g).bind fun l => (l.parts.find? fun x => x.1 == o).map fun x => x.2.toNat)

/-- Contributions to an item, in lane order, on the partial there is. -/
def contribute (ty op : Nat) : Option Nat → List Nat → Option Nat
  | a, [] => a
  | none, x :: l => contribute ty op (some (x % 2 ^ 64)) l
  | some a, x :: l => contribute ty op (some (combined ty op (a % 2 ^ typeBits ty) x % 2 ^ 64)) l

end Sys2Proof.Claims

/-- In Free mode, with no spill of the pack in the forwarding table and every store to be committed to reachable memory without
gathered partials, an exposing instruction's commit goes through: the pack's interval stores, and those that its last release carries
from other packs, leave the buffer and perform in issue order, the pack's commit index advances, and the crew's interval is exposed
(09 R261, R264, R266; 10 R283; 15 R454, R456).  That an earlier store of the buffer to the same bytes goes with a later one, with what
its own pack stored before it, is the model's choice (log entry 12). -/
def Obligations.Exposure : Prop :=
  ∀ (s : State),
    let p := issuing s
    let isb := (s.crew p.crew).isb
    let mine := dueStores (fun x => x.pack == s.cur || orderHolds (s.carriedBy s.cur) x) isb
    s.isFox = false → (s.launch p.launch).hdr.dmode = 0 → p.crew < foxBase →
    (∀ y ∈ s.spillsOf (s.crew p.crew).core, y.pack ≠ s.cur) →
    (∀ y ∈ mine, y.loc.isPhys = true → reachable s y.loc.off = true ∧
      ∀ g ∈ (Piece.mk y.loc.off y.bytes none false false).units 64, Claims.noPartials s g) →
    ∃ s1, Claims.Exposed s s1 [] ∧ (s1.crew p.crew).exposed = true ∧ (s1.pack s.cur).commit = (p.commit + 1) % 2 ^ 24 ∧
      (s1.crew p.crew).isb = isb.filter (fun x => !mine.contains x) ∧ (∀ x ∈ isb, x.pack = s.cur → x ∈ mine) ∧
      ∀ a, s1.byte a = Claims.landed (mine.filterMap fun y => match y.loc with | .phys o => some (o, y.bytes) | _ => none) s.byte a

/-- atom: after the pack's commit each thread in ascending lane order reads the old value, combines it and writes, each seeing the
lanes below it; the threads receive the old values, and no other byte of memory changes; a cas that fails writes nothing.  Under
an all-zero mask nothing happens (10 R284, R287, R288). -/
def Obligations.Atomics : Prop :=
  ∀ (i : Instr) (e : Enc) (dflt : Nat) (s : State),
    (i = .atomInt e ∧ dflt = 3 ∨ i = .atomFloat e ∧ dflt = 0x0D) → Issuable i s →
    let p := issuing s
    let l := lanesOf (issueMask s e) p.width
    let ty := encTy e dflt
    let n := if encModBit e 0 then 16 else typeBits ty / 8
    let op := encK e % 8
    (l = [] → exec i s = .next (completed s (issued s) e 0)) ∧
    ∀ (x : Nat → Target) (s1 : State), l ≠ [] → Claims.Free s →
      Claims.Passes s (Claims.quayChk s [0, 1, 9] pmAtomic n) n .write (l.map (Claims.access s e false n)) x →
      Claims.Exposed s s1 (l.map fun t => ((x t).loc, n)) →
      let r := Claims.servedFrom s1 (l.map x) n
      Claims.sound r (l.map x) n →
      let new (t old : Nat) : Option Nat :=
        if op = 7 then (if old = Claims.itemOf p (encC e) t n then some (Claims.itemOf p (encD e) t n) else none)
        else some (if n = 16 then Claims.itemOf p (encD e) t n else Claims.combined ty op old (Claims.itemOf p (encD e) t n))
      let run := Claims.atomRun new n (l.map fun t => (t, (x t).loc.off)) r.byte
      ∃ t p1, exec i s = .next (completed s t e 0) ∧ (∀ a, t.byte a = run.1 a) ∧
        VecDone l (fun u => match run.2.find? fun y => y.1 == u with
          | some y => Claims.itemRegs ty (encD e) n y.2
          | none => []) p1 (t.pack s.cur) ∧
        Claims.sansWatch { p1 with hash := 0 } = Claims.sansWatch { s1.pack s.cur with hash := 0 } ∧
        p1.hash = l.foldl (fun h u => hashBytes h (ofI 54 (x u).addr) (leBytes (Claims.itemOf p (encD e) u n) n)) (s1.pack s.cur).hash ∧
        ∀ k, k ≠ s.cur → Claims.sansWatch (t.pack k) = Claims.sansWatch (s1.pack k)

/-- red: after the pack's commit the operands go into the lines of its cluster's gather buffer, combined in lane order with the partials
there, and no byte of memory changes, where the buffer has room and holds the granules under no other operation or type (10 R289,
R290). -/
def Obligations.Reductions : Prop :=
  ∀ (i : Instr) (e : Enc) (dflt : Nat) (s : State),
    (i = .redInt e ∧ dflt = 3 ∨ i = .redFloat e ∧ dflt = 0x0D) → Issuable i s →
    let p := issuing s
    let l := lanesOf (issueMask s e) p.width
    let ty := encTy e dflt
    let n := typeBits ty / 8
    let op := encK e % 8
    let cl := clusterOfCore (s.crew p.crew).core
    (l = [] → exec i s = .next (completed s (issued s) e 0)) ∧
    ∀ (x : Nat → Target) (s1 : State), l ≠ [] → Claims.Free s →
      Claims.Passes s (Claims.quayChk s [0, 1, 9] pmAtomic n) n .write (l.map (Claims.access s e false n)) x →
      Claims.Exposed s s1 (l.map fun t => ((x t).loc, n)) →
      let old := Tab.get [] s1.gather cl
      old.length + l.length ≤ 128 →
      (∀ y ∈ old, (∃ t ∈ l, y.gran = (x t).loc.off / 64) → y.launch = p.launch ∧ y.op = op ∧ y.ty = ty) →
      ∃ t, exec i s = .next (completed s t e 0) ∧ t.mem = s1.mem ∧ t.tags = s1.tags ∧
        (∀ u ∈ l, Claims.partAt (Tab.get [] t.gather cl) ((x u).loc.off / 64) ((x u).loc.off % 64) =
          Claims.contribute ty op (Claims.partAt old ((x u).loc.off / 64) ((x u).loc.off % 64))
            ((l.filter fun w => (x w).loc.off = (x u).loc.off).map fun w => Claims.itemOf p (encD e) w n)) ∧
        { t.pack s.cur with hash := 0 } = { s1.pack s.cur with hash := 0 } ∧ ∀ k, k ≠ s.cur → t.pack k = s1.pack k

/-- lr reads the item into sD and leaves the pack's reservation on its granule; sc stores only where the reservation covers the granule
after the pack's commit, writes the outcome to pC, and clears the reservation; the recall of a partial gathered on the granule, which
sc forces, clears the reservation first, so that it fails (10 R291); under an all-zero mask these, waitc, stand, unstand and stq do nothing (10 R284, R296, R297). -/
def Obligations.LoadReservedStoreConditional : Prop :=
  (∀ (e : Enc) (s s1 : State) (x : Target),
    let n := typeBits (encTy e 0x0A) / 8
    Issuable (.lr e) s → issueMask s e ≠ 0 → Claims.Free s →
    Claims.Passes s (Claims.quayChk s [0, 1] pmAtomic n) n .read [Claims.once s e] (fun _ => x) → Claims.Exposed s s1 [(x.loc, n)] →
    let r := Claims.servedFrom s1 [x] n
    Claims.sound r [x] n →
    let v := leNat (r.rdBytes x.loc.off n)
    ∃ t, exec (.lr e) s = .next (completed s t e 0) ∧ t.mem = r.mem ∧
      ((t.pack s.cur).resv.map fun y => y.1) = some (x.loc.off / 64) ∧
      rdS (t.pack s.cur) e.d.toNat =
        (if typeSigned (encTy e 0x0A) then BitVec.ofInt 64 (toS (typeBits (encTy e 0x0A)) v) else BitVec.ofNat 64 v) ∧
      (∀ k, k ≠ e.d.toNat → rdS (t.pack s.cur) k = rdS (s1.pack s.cur) k) ∧
      (∀ k u, rdV (t.pack s.cur) k u = rdV (s1.pack s.cur) k u ∧ rdP (t.pack s.cur) k u = rdP (s1.pack s.cur) k u)) ∧
  (∀ (e : Enc) (s s1 : State) (x : Target),
    let p := issuing s
    let n := typeBits (encTy e 0x0A) / 8
    Issuable (.sc e) s → issueMask s e ≠ 0 → Claims.Free s →
    Claims.Passes s (Claims.quayChk s [0, 1] pmAtomic n) n .write [Claims.once s e] (fun _ => x) → Claims.Exposed s s1 [(x.loc, n)] →
    reachable s1 x.loc.off = true → (∀ g ∈ x.grans n, Claims.noPartials s1 g) →
    let ok : Bool := ((s1.pack s.cur).resv.map fun y => y.1) == some (x.loc.off / 64)
    let bs := leBytes ((rdS (issuing s) e.d.toNat).toNat % 2 ^ (8 * n)) n
    ∃ t, exec (.sc e) s = .next (completed s t e 0) ∧ (t.pack s.cur).resv = none ∧
      (∀ a, t.byte a = if ok = true then Claims.put s1.byte x.loc.off bs a else s1.byte a) ∧
      (∀ k u, u < p.threads.length → rdP (t.pack s.cur) k u =
        if e.ext.isSome ∧ k = encC e ∧ k < 16 ∧ k ≠ 7 ∧ u ∈ lanesOf (issueMask s e) p.width then ok else rdP (s1.pack s.cur) k u) ∧
      (∀ k, rdS (t.pack s.cur) k = rdS (s1.pack s.cur) k) ∧ ∀ k u, rdV (t.pack s.cur) k u = rdV (s1.pack s.cur) k u) ∧
  (∀ (e : Enc) (s s1 : State) (x : Target) (cl : Nat),
    let p := issuing s
    let n := typeBits (encTy e 0x0A) / 8
    let g := x.loc.off / 64
    Issuable (.sc e) s → issueMask s e ≠ 0 → Claims.Free s →
    Claims.Passes s (Claims.quayChk s [0, 1] pmAtomic n) n .write [Claims.once s e] (fun _ => x) → Claims.Exposed s s1 [(x.loc, n)] →
    reachable s1 (g * 64) = true → ((s1.pack s.cur).resv.map fun y => y.1) = some g → (∃ y ∈ Tab.get [] s1.gather cl, y.gran = g) →
    ∃ t, exec (.sc e) s = .next (completed s t e 0) ∧ (t.pack s.cur).resv = none ∧ t.mem = (recallGran s1 g).mem ∧
      ∀ u ∈ lanesOf (issueMask s e) p.width, u < p.threads.length → e.ext.isSome → encC e < 16 → encC e ≠ 7 →
        rdP (t.pack s.cur) (encC e) u = false) ∧
  (∀ (i : Instr) (e : Enc) (s : State),
    (i = .lr e ∨ i = .sc e ∨ i = .waitc e ∨ i = .stand e ∨ i = .unstand e ∨ i = .stq e) → Issuable i s → issueMask s e = 0 →
    exec i s = .next (completed s (issued s) e 0))

/-- waitc completes at once, changing no register and no byte, where its condition holds of the item; otherwise the pack waits with a
monitor armed, or on the re-poll list of a quay with 2,048 monitors (10 R298, R300).  No store of a crewmate that the pack has read
there is still held, which would go first (09 R261). -/
def Obligations.ConditionalWait : Prop :=
  ∀ (e : Enc) (s : State) (x : Target),
    let p := issuing s
    let ty := encTy e 7
    let n := typeBits ty / 8
    Issuable (.waitc e) s → issueMask s e ≠ 0 → Claims.Free s →
    Claims.Passes s (Claims.quayChk s [0, 1] pmSub n) n .read [Claims.once s e] (fun _ => x) →
    let r := Claims.served s [x] n
    (∀ y ∈ (s.crew p.crew).isb, s.mustPrecede s.cur [(x.loc, n)] y = false) → Claims.sound r [x] n →
    let mask := if (encX e).kd then (rdS p (encC e)).toNat % 2 ^ (8 * n) else 2 ^ (8 * n) - 1
    let now := leNat (r.rdBytes x.loc.off n) &&& mask
    let want := (rdS p e.d.toNat).toNat % 2 ^ (8 * n) &&& mask
    let cond := Claims.compares (encK e % 8) (if typeSigned ty then toS (8 * n) now else now) (if typeSigned ty then toS (8 * n) want else want)
    encK e % 8 < 6 →
    (cond = true → ∃ t, exec (.waitc e) s = .next (completed s t e 0) ∧ t.mem = r.mem ∧ t.packs = r.packs) ∧
    (cond = false → ∃ t m, exec (.waitc e) s = .next (waitsIn s t e .monitor []) ∧ t.mem = r.mem ∧
      t.pack s.cur = { r.pack s.cur with monitor := some m } ∧ m.pa = x.loc.off ∧ m.size = n ∧ m.cmp = encK e % 8 ∧ m.hit = false ∧
      (m.poll = true ↔ 2048 ≤ monitorsAt r (homeQuay x.loc.off)))

/-- stand subscribes a free slot index at a quay with room: the slot's 16 bytes receive the item's value with SEQ and OVR 0, and pP the
outcome; a failed stand changes nothing.  stq reads the slot; .wait waits while SEQ is unchanged.  unstand ends the subscription, and
stalls until the last push has landed and the quay has acknowledged (10 R301, R302, R308, R309). -/
def Sys2Proof.Claims.StandingLoads : Prop :=
  (∀ (e : Enc) (s s1 : State) (x : Target),
    let p := issuing s
    let n := typeBits (encTy e 7) / 8
    let off := (rdS p e.d.toNat).toNat
    Issuable (.stand e) s → issueMask s e ≠ 0 → Claims.Free s →
    Claims.Passes s (Claims.quayChk s [0, 1] pmSub n) n .read [Claims.once s e] (fun _ => x) →
    off % 16 = 0 → off + 16 ≤ (s.crew p.crew).st.spm1.size → Claims.Exposed s s1 [(x.loc, n)] →
    let r := Claims.servedFrom s1 [x] n
    Claims.sound r [x] n →
    let ok : Bool := (slotSub s1 p.crew (encC e)).isNone && decide (subsAt r (homeQuay x.loc.off) < 4096)
    ∃ t, exec (.stand e) s = .next (completed s t e 0) ∧ t.mem = r.mem ∧ (slotSub t p.crew (encC e)).isSome = ((slotSub s1 p.crew (encC e)).isSome || ok) ∧
      (∀ a, (t.crew p.crew).st.spm1.byte a =
        if ok = true ∧ off ≤ a ∧ a < off + 16 then (leBytes (leNat (r.rdBytes x.loc.off n)) 16).getD (a - off) 0
        else (s1.crew p.crew).st.spm1.byte a) ∧
      (∀ k u, u < p.threads.length → rdP (t.pack s.cur) k u =
        if e.ext.isSome ∧ k = encK e ∧ k ≠ 7 ∧ u ∈ lanesOf (issueMask s e) p.width then ok else rdP (s1.pack s.cur) k u) ∧
      ∀ k u, rdV (t.pack s.cur) k u = rdV (s1.pack s.cur) k u) ∧
  (∀ (e : Enc) (s : State) (x : Target) (id : Nat) (b : Sub),
    let p := issuing s
    let w := (s.crew p.crew).st.spm1.rd b.off 16
    Issuable (.stq e) s → issueMask s e ≠ 0 → Claims.Free s →
    slotSub s p.crew (encC e) = some id → s.sub id = some b → b.va = ofI 54 x.addr →
    Claims.Passes s (Claims.quayChk s [0, 1] pmSub b.size) b.size .read [Claims.once s e] (fun _ => x) →
    if encModBit e 0 = true ∧ leNat ((w.drop 8).take 4) = (rdS p (e.d.toNat + 1)).toNat % 2 ^ 32 then
      exec (.stq e) s = .next (waitsIn s (issued s) e .again [])
    else
      ∃ t, exec (.stq e) s = .next (completed s t e 0) ∧ t.mem = s.mem ∧
        t.pack s.cur = wrS (wrS p e.d.toNat (BitVec.ofNat 64 (leNat (w.take 8)))) (e.d.toNat + 1) (BitVec.ofNat 64 (leNat (w.drop 8)))) ∧
  (∀ (e : Enc) (s s1 : State) (x : Target) (id : Nat) (b b1 : Sub),
    let p := issuing s
    Issuable (.unstand e) s → issueMask s e ≠ 0 → Claims.Free s →
    slotSub s p.crew (encC e) = some id → s.sub id = some b → b.va = ofI 54 x.addr → b.ending = false → b.acked = false →
    Claims.Passes s (Claims.quayChk s [0, 1] pmSub b.size) b.size .read [Claims.once s e] (fun _ => x) → Claims.Exposed s s1 [(x.loc, b.size)] →
    s1.sub id = some b1 →
    (b1.flight = none → b1.pending = none →
      ∃ t, exec (.unstand e) s = .next (completed s t e 0) ∧ slotSub t p.crew (encC e) = none ∧ t.sub id = none ∧ t.mem = s1.mem ∧
        t.pack s.cur = s1.pack s.cur) ∧
    (b1.flight ≠ none ∨ b1.pending ≠ none →
      ∃ t : State, exec (.unstand e) s = .next (stalledIn s t) ∧ t.sub id = some { b1 with ending := true, ender := s.cur } ∧ t.mem = s1.mem)) ∧
  (∀ (e : Enc) (s : State) (id : Nat) (b : Sub), Issuable (.unstand e) s → issueMask s e ≠ 0 →
    slotSub s (issuing s).crew (encC e) = some id → s.sub id = some b → b.acked = true → b.ender = s.cur →
    ∃ t, exec (.unstand e) s = .next (completed s t e 0) ∧ slotSub t (issuing s).crew (encC e) = none ∧ t.sub id = none ∧
      t.mem = s.mem ∧ t.packs = (issued s).packs)

/-- Deliveries to a slot come in the quay's order: the pending push replaces the older ones, SEQ counts the stores up to the value
delivered, and OVR those whose values never came (10 R304). -/
def Sys2Proof.Claims.PushCounts : Prop :=
  ∀ (s : State) (id : Nat) (b : Sub) (v : W64) (n : Nat),
    s.sub id = some b → b.flight = some (v, n) → b.parked = false → b.lastSeq ≠ n →
    ∃ t, exec (.pushDelivery id) s = .next t ∧
      t.sub id = some { b with flight := b.pending, pending := none, received := b.received + 1, lastSeq := n } ∧
      t.mem = s.mem ∧
      (t.crew b.crew).st.spm1.rd b.off 16 =
        leBytes v.toNat 8 ++ leBytes (n % 2 ^ 32) 4 ++ leBytes ((n - (b.received + 1)) % 2 ^ 32) 4

namespace Sys2Proof.Claims

/-- A request as the mooring stands with no other request before it (09 R258). -/
def mayHold (m : Mooring) (k : ReqKind) (n : W64) : Bool :=
  match k with
  | .plainX => m.holders.isEmpty
  | .plainSh => m.mode != .exclusive
  | .cntEq => m.holders.isEmpty && m.count == n
  | .cntGe => m.mode != .exclusive && decide (n.toNat ≤ m.count.toNat)

def requestOf (e : Enc) : ReqKind :=
  if (encX e).ka then (if encModBit e 0 then .cntGe else .cntEq) else if encModBit e 0 then .plainSh else .plainX

/-- A predicate result in every thread of the mask. -/
def PredAll (s : State) (e : Enc) (d : Nat) (b : Bool) (p q : Pack) : Prop :=
  PredDone d (lanesOf (issueMask s e) p.width) (fun _ => b) p q

end Sys2Proof.Claims

/-- acq of a mooring that no other request waits for: granted as R258 states, with the pack among its holders; a .try that is not
granted writes 0 and leaves the mooring; any other waits (09 R256, R258, R277).  An acq of a mooring that the pack holds traps
CAPV 8; that its %tmask is the execution mask is the model's reading (log entry 20). -/
def Sys2Proof.Claims.Acquire : Prop :=
  ∀ (e : Enc) (s s1 : State) (berth : Nat) (val : W64) (m : Mooring),
    let p := issuing s
    let k := berthMoor (s1.launch p.launch) berth
    Issuable (.acq e) s → namedBerth (issueCtx s e) (issued s) = .ok (s1, berth, val) →
    launchMoor (s1.launch p.launch) k = some m →
    (m.holders.contains s.cur = true → issueMask s e ≠ 0 → exec (.acq e) s = .next (trapped s e ⟨clsCapv, 8, val, issueMask s e⟩)) ∧
    (m.holders.contains s.cur = false → (s1.launch p.launch).hdr.dmode = 0 → m.waiters = [] →
      let want : W64 := if (encX e).ka then rdS p e.d.toNat else 0
      let ok := Claims.mayHold m (Claims.requestOf e) want
      (ok = true → ∃ t m', exec (.acq e) s = .next (completed s t e 0) ∧ launchMoor (t.launch p.launch) k = some m' ∧
        m'.holders = m.holders ++ [s.cur] ∧ m'.count = m.count ∧ m'.waiters = [] ∧
        m'.mode = (if encModBit e 0 then .shared else .exclusive) ∧ t.mem = s1.mem ∧
        (encTry e = true → encCnt e = false → Claims.PredAll s e e.d.toNat true (s1.pack s.cur) (t.pack s.cur)) ∧
        (encTry e = false → encCnt e = false → t.pack s.cur = s1.pack s.cur)) ∧
      (ok = false → encTry e = true → ∃ t, exec (.acq e) s = .next (completed s t e 0) ∧
        launchMoor (t.launch p.launch) k = some m ∧ Claims.PredAll s e e.d.toNat false (s1.pack s.cur) (t.pack s.cur) ∧ t.mem = s1.mem) ∧
      (ok = false → encTry e = false → ∃ t, exec (.acq e) s = .next (waitPack t s.cur e.size (.acq k) []) ∧
        launchMoor (t.launch p.launch) k = some { m with waiters := [⟨s.cur, Claims.requestOf e, want⟩] } ∧ t.mem = s1.mem))

/-- rel of a mooring that no request waits for, after the pack's commit: the pack is no holder any more, COUNT advances where it held
the mooring exclusively, and with no holder left it is free; a rel of a mooring not held traps CAPV 8 (09 R256, R278), with the
execution mask for %tmask by the model's reading (log entry 20).  The commit takes with it what the pack is guaranteed to see (09
R264, R266). -/
def Sys2Proof.Claims.Release : Prop :=
  ∀ (e : Enc) (s s1 s2 : State) (berth : Nat) (val : W64) (m : Mooring),
    let p := issuing s
    let k := berthMoor (s1.launch p.launch) berth
    Issuable (.rel e) s → namedBerth (issueCtx s e) (issued s) = .ok (s1, berth, val) →
    launchMoor (s1.launch p.launch) k = some m →
    (m.holders.contains s.cur = false → issueMask s e ≠ 0 → exec (.rel e) s = .next (trapped s e ⟨clsCapv, 8, val, issueMask s e⟩)) ∧
    (m.holders.contains s.cur = true → (s1.launch (s1.pack s.cur).launch).hdr.dmode = 0 → expose (carryAll s1 s.cur) s.cur = .ok s2 →
      (s2.launch (s2.pack s.cur).launch).hdr.dmode = 0 →
      launchMoor (s2.launch p.launch) k = some m → m.waiters = [] →
      ∃ t m', exec (.rel e) s = .next (completed s t e 0) ∧ launchMoor (t.launch p.launch) k = some m' ∧
        m'.holders = m.holders.filter (· != s.cur) ∧ m'.waiters = [] ∧
        m'.count = (if m.mode = .exclusive then m.count + 1 else m.count) ∧
        m'.mode = (if m'.holders = [] then .free else m.mode) ∧ t.mem = s2.mem ∧
        { t.pack s.cur with vc := [] } = { s2.pack s.cur with vc := [] } ∧ ∀ j, j ≠ s.cur → t.pack j = s2.pack j)

/-- In one grant pass no plain request overtakes an earlier plain request (09 R258). -/
def Sys2Proof.Claims.GrantOrder : Prop :=
  ∀ (owner : Nat → W32) (l1 l2 : List Waiter) (w : Waiter) (m : Mooring),
    w.kind.isPlain = true → (∀ y ∈ l1 ++ l2, y ≠ w) →
    w ∉ (grantScan owner (l1 ++ w :: l2) false m).2 → ∀ y ∈ l2, y.kind.isPlain = true → y ∉ l1 → y ∉ (grantScan owner (l1 ++ w :: l2) false m).2

/-- bind adds a berth at the lowest free index at or above the static table where nothing overlaps it and its mooring exists or has
room; unbind removes one whose mooring nobody holds or waits for, and the mooring with its last berth; each writes the outcome (09
R255, R275, R276). -/
def Obligations.Berths : Prop :=
  (∀ (e : Enc) (s : State) (x : Target) (i : Nat),
    let p := issuing s
    let d := (rdS p (encB e)).toNat
    let len := d % 2 ^ 32
    let m := d / 2 ^ 32 % 2 ^ 16
    let c := rdCap p (encA e) 0
    let a : Int := toS 64 (ofI 64 ((c.cursor : Int) + mmDisp e))
    let l := s.launch p.launch
    Issuable (.bind e) s → capSub (Claims.supervisor s) ⟨[0, 1], pmLoad + pmStore, len⟩ c a = none →
    d < 2 ^ 48 → len ≠ 0 → len % 64 = 0 → a % 64 = 0 →
    resolveOne (issued s) p.crew .read ⟨0, c, a⟩ = .ok x →
    i < 65536 → l.hdr.nberth ≤ i → Tab.get none l.berths i = none → (∀ k, l.hdr.nberth ≤ k → k < i → Tab.get none l.berths k ≠ none) →
    Tab.wf none l.berths = true →
    let ok : Bool := !(l.berths.any fun y => match y.2 with
        | some b => decide (ofI 54 a < b.base + b.len) && decide (b.base < ofI 54 a + len)
        | none => false) &&
      ((launchMoor l m).isSome || decide (mooringsAt s (homeQuay x.loc.off) < 1024))
    ∃ t, exec (.bind e) s = .next (completed s t e 0) ∧ Claims.PredAll s e e.d.toNat ok p (t.pack s.cur) ∧ t.mem = s.mem ∧
      (∀ k, Tab.get none (t.launch p.launch).berths k =
        if ok = true ∧ k = i then some ⟨ofI 54 a, len, m⟩ else Tab.get none l.berths k) ∧
      (∀ k, launchMoor (t.launch p.launch) k = if ok = true ∧ k = m ∧ launchMoor l m = none then
        some { Mooring.blank with quay := homeQuay x.loc.off } else launchMoor l k) ∧
      ∀ k, k ≠ s.cur → t.pack k = s.pack k) ∧
  (∀ (e : Enc) (s s1 : State) (berth : Nat) (val : W64),
    let p := issuing s
    let k := berthMoor (s1.launch p.launch) berth
    Issuable (.unbind e) s → namedBerth (issueCtx s e) (issued s) = .ok (s1, berth, val) →
    let free : Bool := match launchMoor (s1.launch p.launch) k with
      | some m => m.holders.isEmpty && m.waiters.isEmpty
      | none => true
    ∃ t, exec (.unbind e) s = .next (completed s t e 0) ∧ Claims.PredAll s e e.d.toNat free (s1.pack s.cur) (t.pack s.cur) ∧
      t.mem = s1.mem ∧
      (∀ j, Tab.get none (t.launch p.launch).berths j =
        if free = true ∧ j = berth then none else Tab.get none (s1.launch p.launch).berths j) ∧
      (Tab.wf none (s1.launch p.launch).berths = true →
        let last : Prop := ∀ j b, j ≠ berth → Tab.get none (s1.launch p.launch).berths j = some b → b.moor ≠ k
        ((free = true ∧ last) → launchMoor (t.launch p.launch) k = none) ∧
        (¬(free = true ∧ last) → launchMoor (t.launch p.launch) k = launchMoor (s1.launch p.launch) k) ∧
        ∀ j, j ≠ k → launchMoor (t.launch p.launch) j = launchMoor (s1.launch p.launch) j))

/-- Packs of the crew that wait at a barrier. -/
def Claims.waitersAt (s : State) (crew b : Nat) : List Nat :=
  (s.crew crew).packs.filter fun k => (s.pack k).live && (s.pack k).wait.kind == .barrier b

/-- bari sets EXP, barr arrives, barw consumes a completed phase or waits, barx does both; a phase completes when the arrivals reach EXP
(11 R332, R334, R336).  Here no other pack of the crew waits at the barrier, and no spill of the pack is in the forwarding table, which
an arrival would drain first (09 R265); b0 never completes by itself (R335). -/
def Obligations.Barriers : Prop :=
  ∀ (i : Instr) (e : Enc) (s : State) (b n : Nat),
    let p := issuing s
    let x := barOf s p.crew b
    let num (imm : Bool) : Nat := if imm then e.b.toNat else (rdS p (encB e)).toNat
    let settled (arr exp : Nat) : Barrier → Barrier := fun y =>
      if b ≠ 0 ∧ exp ≤ arr ∧ 0 < arr then { y with exp := exp, arr := 0, cmp := (x.cmp + 1) % 2 ^ 32 } else { y with exp := exp, arr := arr }
    let arrived := settled ((x.arr + 1) % 2 ^ 16) x.exp x
    let due (y : Barrier) : Prop := y.cmp ≠ Tab.get 0 x.waits p.idx
    let used (y : Barrier) : Barrier := { y with waits := Tab.set 0 y.waits p.idx ((Tab.get 0 x.waits p.idx + 1) % 2 ^ 32) }
    Issuable i s → s.isStrict p.launch = false →
    (∀ y ∈ s.spillsOf (s.crew p.crew).core, y.pack ≠ s.cur) → Claims.waitersAt (issued s) p.crew b = [] → b ≤ 15 →
    ((i = .bari e ∧ n = (e.lit.getD (rdS p (encB e))).toNat ∨ i = .bariImm e ∧ n = e.b.toNat) → b = e.d.toNat → b ≠ 0 → 0 < n → n < 2 ^ 16 →
      ∃ t, exec i s = .next (completed s t e 0) ∧ barOf t p.crew b = settled x.arr n x ∧
        (∀ k, k ≠ b → barOf t p.crew k = barOf s p.crew k) ∧ t.mem = s.mem ∧ t.packs = (issued s).packs) ∧
    ((i = .barr e ∧ b = num false ∨ i = .barrImm e ∧ b = num true) → b ≠ 0 →
      ∃ t, exec i s = .next (completed s t e 0) ∧ barOf t p.crew b = arrived ∧
        (∀ k, k ≠ b → barOf t p.crew k = barOf s p.crew k) ∧ t.mem = s.mem ∧ t.packs = (issued s).packs) ∧
    ((i = .barw e ∧ b = num false ∨ i = .barwImm e ∧ b = num true) → b ≠ 0 →
      (due x → ∃ t, exec i s = .next (completed s t e 0) ∧ barOf t p.crew b = used x ∧ t.mem = s.mem ∧ t.packs = (issued s).packs) ∧
      (¬due x → exec i s = .next (waitsIn s (issued s) e (.barrier b) []))) ∧
    ((i = .barx e ∧ b = num false ∨ i = .barxImm e ∧ b = num true) →
      (due arrived → ∃ t, exec i s = .next (completed s t e 0) ∧ barOf t p.crew b = used arrived ∧ t.mem = s.mem ∧
        { t.pack s.cur with arrival := none } = { p with arrival := none } ∧ ∀ k, k ≠ s.cur → t.pack k = s.pack k) ∧
      (¬due arrived → ∃ t, exec i s = .next (waitsIn s t e (.barrier b) []) ∧ barOf t p.crew b = arrived ∧ t.mem = s.mem ∧
        { t.pack s.cur with arrival := none } = { p with arrival := none } ∧ ∀ k, k ≠ s.cur → t.pack k = s.pack k)) ∧
    (((i = .bari e ∨ i = .bariImm e) ∧ e.d.toNat = 0 ∨ (i = .barr e ∨ i = .barw e) ∧ num false = 0 ∨ (i = .barrImm e ∨ i = .barwImm e) ∧ num true = 0) →
      issueMask s e ≠ 0 → ∃ v, exec i s = .next (trapped s e ⟨clsIllop, 13, v, issueMask s e⟩))

/-- stand binds a slot or fails, stq reads the slot or waits, unstand ends the subscription or stalls, and a delivery writes the value with
SEQ and OVR (10 R301, R302, R304, R308, R309). -/
def Obligations.StandingLoads : Prop := Claims.StandingLoads ∧ Claims.PushCounts

/-- acq of a mooring that no other request waits for is granted, fails or waits; rel after the commit gives the hold up; a pack that holds, or
does not hold, the mooring traps CAPV 8; no plain request overtakes an earlier plain request in one grant pass (09 R256, R258, R277, R278). -/
def Obligations.Moorings : Prop := Claims.Acquire ∧ Claims.Release ∧ Claims.GrantOrder

namespace Sys2Proof.Claims

/-! ### Tiles (07 R204 to R218) -/

/-- The geometry words that R212 allows. -/
def geometry (g : Nat) : Prop :=
  1 ≤ g % 2 ^ 16 ∧ g % 2 ^ 16 ≤ 4096 ∧ 1 ≤ g / 2 ^ 16 % 2 ^ 12 ∧ g / 2 ^ 16 % 2 ^ 12 ≤ 1024 ∧ g / 2 ^ 28 % 2 ^ 4 = 0 ∧
  g / 2 ^ 16 % 2 ^ 12 ≤ g / 2 ^ 32 % 2 ^ 24 ∧ g / 2 ^ 56 = 0

/-- Bytes from the base to the end of the last row (R211). -/
def extentOf (g : Nat) : Nat := (g % 2 ^ 16 - 1) * (g / 2 ^ 32 % 2 ^ 24) * 64 + g / 2 ^ 16 % 2 ^ 12 * 64

/-- An entry of the tile table becomes `x` and nothing else of the machine changes but the issuing pack, which is `q`. -/
structure TileDone (s t : State) (crew h : Nat) (x : Tile) (q : Pack) : Prop where
  entry : tileAt t crew h = x
  others : ∀ k, k ≠ h → tileAt t crew k = tileAt s crew k
  pack : t.pack s.cur = q
  packs : ∀ k, k ≠ s.cur → t.pack k = s.pack k
  mem : t.mem = s.mem
  pads : (t.crew crew).st.spm1 = (s.crew crew).st.spm1 ∧ t.gangs = s.gangs ∧ t.troops = s.troops
  crews : ∀ k, k ≠ crew → t.crew k = s.crew k

/-- The window of a space as a crew sees it (07 R198). -/
def window (s : State) (crew space : Nat) : Spad := s.spad (windowLoc s crew space 0)

/-- Bit `j` of a row of bytes. -/
def rowBit (w : Spad) (off j : Nat) : Bool := (w.byte (off + j / 8)).toNat.testBit (j % 8)

end Sys2Proof.Claims

/-- tdef, tmov and tmov.view define, rename and view: the entry gets the manual's fields, the other handles and all bytes stay, in memory
and in the scratchpads; what had completed on the tile that tmov names is observed (07 R211 to R214; 16 R484). -/
def Obligations.TileDefinition : Prop :=
  (∀ (e : Enc) (h : Nat) (s : State),
    let p := issuing s
    let c := rdY p e.a.toNat
    let g := rdS p (encB e)
    let base := c.cursor + encImm e * 64
    Issuable (.tdef e) s → c.tag = true → (c.space = 2 ∨ c.space = 3 ∨ c.space = 4) →
    (Claims.supervisor s = true ∨ c.has pmSuper = false) → base % 64 = 0 → Claims.geometry g.toNat →
    c.base ≤ base → base + Claims.extentOf g.toNat ≤ c.top →
    (if encModBit e 0 = true then
      h < 64 ∧ (tileAt s p.crew h).defined = false ∧ (∀ k < h, (tileAt s p.crew k).defined = true) ∧ s.isStrict p.launch = false
     else h = e.d.toNat ∧ (tileAt s p.crew h).defined = false) →
    ∃ t, exec (.tdef e) s = .next (completed s t e 0) ∧
      Claims.TileDone s t p.crew h
        { defined := true, fill := 0, drain := 0, replay := false, space := c.space, base := base, geom := g, ty := encTy e 9,
          perm := c.perm, colour := c.colour, flags := 0, mfill := [] }
        (if encModBit e 0 = true then wrS p e.d.toNat (BitVec.ofNat 64 h) else p)) ∧
  (∀ (e : Enc) (s : State),
    let p := issuing s
    let x := tileAt s p.crew e.a.toNat
    Issuable (.tmov e) s → encModBit e 0 = false → x.defined = true → x.fill = 0 → x.drain = 0 →
    (e.a = e.d ∨ (tileAt s p.crew e.d.toNat).defined = false) →
    ∃ t, exec (.tmov e) s = .next (completed s t e 0) ∧ tileAt t p.crew e.d.toNat = x ∧
      (e.a ≠ e.d → (tileAt t p.crew e.a.toNat).defined = false) ∧
      (∀ k, k ≠ e.a.toNat → k ≠ e.d.toNat → tileAt t p.crew k = tileAt s p.crew k) ∧ t.mem = s.mem ∧
      (t.crew p.crew).st.spm1 = (s.crew p.crew).st.spm1 ∧ t.gangs = s.gangs ∧ t.troops = s.troops ∧
      (∀ k, k ≠ p.crew → t.crew k = s.crew k) ∧ t.pack s.cur = observeTiles p [e.a.toNat] ∧ ∀ k, k ≠ s.cur → t.pack k = s.pack k) ∧
  (∀ (e : Enc) (s : State),
    let p := issuing s
    let x := tileAt s p.crew e.a.toNat
    let w := (rdS p (encB e)).toNat
    let first := w % 2 ^ 16
    let n := w / 2 ^ 16
    Issuable (.tmov e) s → encModBit e 0 = true → x.defined = true → x.fill = 0 → (tileAt s p.crew e.d.toNat).defined = false →
    n < 2 ^ 16 → 1 ≤ n → first + n ≤ x.geom.toNat % 2 ^ 16 →
    ∃ t y, exec (.tmov e) s = .next (completed s t e 0) ∧ Claims.TileDone s t p.crew e.d.toNat y (observeTiles p [e.a.toNat]) ∧
      y = { x with
        base := x.base + first * (x.geom.toNat / 2 ^ 32 % 2 ^ 24 * 64)
        geom := y.geom, fill := 0, drain := 0, replay := false, mfill := [] } ∧
      y.geom.toNat % 2 ^ 16 = n ∧ y.geom.toNat / 2 ^ 16 = x.geom.toNat / 2 ^ 16)

/-- twait, tstat, trel and tfill: twait completes on a ready or empty tile (.rd: with no fill), with what has completed on the tile
observed (16 R484), else the pack stalls; tstat reads the entry; trel empties a ready tile; tfill raises the fill count of a ready tile
and changes no byte, and when it lands it writes every row with the pattern's low bits, over and over, and no other byte, clears the
tags there, and the fill count falls (07 R215 to R218; 08 R228).  tmov, trel and tfill of a tile that fills or drains, and tmov.view of
one that fills, stall (07 R206). -/
def Sys2Proof.Claims.TileInstructions : Prop :=
  (∀ (e : Enc) (s : State),
    let p := issuing s
    let x := tileAt s p.crew e.b.toNat
    Issuable (.twait e) s →
    if x.defined = false ∨ x.fill = 0 ∧ (encModBit e 0 = true ∨ x.drain = 0) then
      exec (.twait e) s = .next (completedPack s (observeTiles p [e.b.toNat]) e 0)
    else
      exec (.twait e) s = .next (stalledIn s ((issued s).count ctrTileStall (s.crew p.crew).core 1))) ∧
  (∀ (e : Enc) (s : State),
    let p := issuing s
    let x := tileAt s p.crew e.b.toNat
    Issuable (.tstat e) s → (encMod e % 4 = 0 → s.isStrict p.launch = false) →
    exec (.tstat e) s = .next (completedPack s (wrS p e.d.toNat (BitVec.ofNat 64
      (if x.defined = false then 0
       else match encMod e % 4 with
        | 0 => (if x.fill ≠ 0 then 2 else if x.drain ≠ 0 then 3 else 1) + 2 ^ 2 * x.fill + 2 ^ 8 * x.drain + 2 ^ 14 * bit x.replay +
            2 ^ 15 * x.ty + 2 ^ 20 * x.space
        | 1 => x.geom.toNat
        | 2 => x.base % 2 ^ 54
        | _ => x.perm))) e 0)) ∧
  (∀ (e : Enc) (s : State),
    let p := issuing s
    let x := tileAt s p.crew e.b.toNat
    Issuable (.trel e) s → (x.defined = true → x.fill = 0 ∧ x.drain = 0) →
    ∃ t, exec (.trel e) s = .next (completed s t e 0) ∧ (tileAt t p.crew e.b.toNat).defined = false ∧
      (∀ k, k ≠ e.b.toNat → tileAt t p.crew k = tileAt s p.crew k) ∧ t.mem = s.mem ∧
      t.pack s.cur = (if x.defined = true then observeTiles p [e.b.toNat] else p) ∧ (∀ k, k ≠ s.cur → t.pack k = s.pack k) ∧
      (t.crew p.crew).st.spm1 = (s.crew p.crew).st.spm1 ∧ t.gangs = s.gangs ∧ t.troops = s.troops) ∧
  (∀ (i : Instr) (e : Enc) (h : Nat) (s : State),
    let p := issuing s
    let x := tileAt s p.crew h
    let view := encModBit e 0
    let word := (rdS p (encB e)).toNat
    (i = .trel e ∧ h = e.b.toNat ∨ i = .tfill e ∧ h = e.d.toNat ∨
      i = .tmov e ∧ h = e.a.toNat ∧
        (view = false ∧ (e.a = e.d ∨ (tileAt s p.crew e.d.toNat).defined = false) ∨
          view = true ∧ (tileAt s p.crew e.d.toNat).defined = false ∧ word < 2 ^ 32 ∧ 1 ≤ word / 2 ^ 16 ∧
            word % 2 ^ 16 + word / 2 ^ 16 ≤ x.geom.toNat % 2 ^ 16)) →
    Issuable i s → x.defined = true → x.fill ≠ 0 ∨ x.drain ≠ 0 ∧ ¬(i = .tmov e ∧ view = true) →
    exec i s = .next (stalledIn s ((issued s).count ctrTileStall (s.crew p.crew).core 1))) ∧
  (∀ (e : Enc) (s : State),
    let p := issuing s
    let h := e.d.toNat
    let x := tileAt s p.crew h
    let w := typeBits (encTy e 9)
    Issuable (.tfill e) s → s.isStrict p.launch = false → x.defined = true → x.fill = 0 → x.drain = 0 → 0 < w →
    ∃ t f, exec (.tfill e) s = .next (completed s t e 0) ∧ t.mem = s.mem ∧ t.pack s.cur = observeTiles p [h] ∧
      (∀ k, k ≠ s.cur → t.pack k = s.pack k) ∧
      tileAt t p.crew h = { x with fill := 1, mfill := otherFiller :: x.mfill } ∧
      (∀ k, k ≠ h → tileAt t p.crew k = tileAt s p.crew k) ∧ (t.crew p.crew).st.spm1 = (s.crew p.crew).st.spm1 ∧
      t.gangs = s.gangs ∧ t.troops = s.troops ∧ (t.crew p.crew).st.tfills = (s.crew p.crew).st.tfills ++ [f] ∧ f.tile = h ∧
      f.bytes.length = x.geom.toNat / 2 ^ 16 % 2 ^ 12 * 64 ∧
      ∀ j < 8 * f.bytes.length, (f.bytes.getD (j / 8) 0).toNat.testBit (j % 8) = (rdS p e.a.toNat).toNat.testBit (j % w)) ∧
  (∀ (crew : Nat) (s : State) (f : TileFill) (l : List TileFill),
    let x := tileAt s crew f.tile
    let rows := x.geom.toNat % 2 ^ 16
    let len := f.bytes.length
    let pitch := x.geom.toNat / 2 ^ 32 % 2 ^ 24 * 64
    (s.crew crew).st.tfills = f :: l → (s.crew crew).live = true → (∃ q ∈ (s.crew crew).packs, (s.pack q).live = true) →
    (x.space = 2 ∨ x.space = 3 ∨ x.space = 4) → len ≤ pitch →
    (x.space = 2 → (s.crew crew).lost = true ∨ denUsed s (s.crew crew).core + rows * (len / 64 + 2) ≤ denRoom) →
    ∃ t, landFill crew s = .next t ∧ t.mem = s.mem ∧ (t.crew crew).st.tfills = l ∧
      tileAt t crew f.tile = { x with fill := x.fill - 1, mfill := x.mfill.erase otherFiller } ∧
      (∀ k, k ≠ f.tile → tileAt t crew k = tileAt s crew k) ∧
      (∀ i < rows, ∀ j < 8 * len, Claims.rowBit (Claims.window t crew x.space) (x.base + i * pitch) j =
        (f.bytes.getD (j / 8) 0).toNat.testBit (j % 8)) ∧
      (∀ i < rows, ∀ j < len, (Claims.window t crew x.space).tagAt (x.base + i * pitch + j) = false) ∧
      ∀ a, (∀ i < rows, ¬(x.base + i * pitch ≤ a ∧ a < x.base + i * pitch + len)) →
        (Claims.window t crew x.space).byte a = (Claims.window s crew x.space).byte a)

/-- The TILE traps of chapter 7: an instruction that names an empty handle traps 4 (but tstat, twait and trel), a defined destination of
tdef traps 1 and of tmov 5, and a bad geometry word or region of tdef 3, with the handle in %tval; tdef.any traps 2 with no empty handle
and 3 with one, and tmov.view traps 6 on a bad view word: there the manual names no handle, so that %tval[7:0] is free (07 R206, R209,
R211, R212, R214).  Copies trap 7, by CopyChecks. -/
def Sys2Proof.Claims.TileTraps : Prop :=
  (∀ (i : Instr) (e : Enc) (h : Nat) (s : State),
    (i = .tmov e ∧ h = e.a.toNat ∨ i = .tfill e ∧ h = e.d.toNat) → Issuable i s →
    (tileAt s (issuing s).crew h).defined = false → issueMask s e ≠ 0 →
    exec i s = .next (trapped s e ⟨clsTile, 4, BitVec.ofNat 64 h, issueMask s e⟩)) ∧
  (∀ (e : Enc) (s : State),
    let c := rdY (issuing s) e.a.toNat
    Issuable (.tdef e) s → encModBit e 0 = false → c.tag = true → (c.space = 2 ∨ c.space = 3 ∨ c.space = 4) → c.has pmSuper = false →
    (c.cursor + encImm e * 64) % 64 = 0 → (tileAt s (issuing s).crew e.d.toNat).defined = true → issueMask s e ≠ 0 →
    exec (.tdef e) s = .next (trapped s e ⟨clsTile, 1, BitVec.ofNat 64 e.d.toNat, issueMask s e⟩)) ∧
  (∀ (e : Enc) (s : State), Issuable (.tmov e) s → e.a ≠ e.d → (tileAt s (issuing s).crew e.a.toNat).defined = true →
    (tileAt s (issuing s).crew e.d.toNat).defined = true → issueMask s e ≠ 0 →
    exec (.tmov e) s = .next (trapped s e ⟨clsTile, 5, BitVec.ofNat 64 e.d.toNat, issueMask s e⟩)) ∧
  (∀ (e : Enc) (s : State),
    let p := issuing s
    let c := rdY p e.a.toNat
    let g := (rdS p (encB e)).toNat
    let base := c.cursor + encImm e * 64
    let any := encModBit e 0
    let full : Prop := ∀ k < 64, (tileAt s p.crew k).defined = true
    Issuable (.tdef e) s → c.tag = true → (c.space = 2 ∨ c.space = 3 ∨ c.space = 4) → c.has pmSuper = false → base % 64 = 0 →
    issueMask s e ≠ 0 →
    (any = true → full → ∃ v : W64, v.toNat < 256 ∧ exec (.tdef e) s = .next (trapped s e ⟨clsTile, 2, v, issueMask s e⟩)) ∧
    (¬(Claims.geometry g ∧ c.base ≤ base ∧ base + Claims.extentOf g ≤ c.top) →
      (any = true → ¬full → ∃ v : W64, v.toNat < 256 ∧ exec (.tdef e) s = .next (trapped s e ⟨clsTile, 3, v, issueMask s e⟩)) ∧
      (any = false → (tileAt s p.crew e.d.toNat).defined = false →
        exec (.tdef e) s = .next (trapped s e ⟨clsTile, 3, BitVec.ofNat 64 e.d.toNat, issueMask s e⟩)))) ∧
  (∀ (e : Enc) (s : State),
    let p := issuing s
    let x := tileAt s p.crew e.a.toNat
    let w := (rdS p (encB e)).toNat
    Issuable (.tmov e) s → encModBit e 0 = true → x.defined = true → (tileAt s p.crew e.d.toNat).defined = false →
    (2 ^ 32 ≤ w ∨ w / 2 ^ 16 = 0 ∨ x.geom.toNat % 2 ^ 16 < w % 2 ^ 16 + w / 2 ^ 16) → issueMask s e ≠ 0 →
    ∃ v : W64, v.toNat < 256 ∧ exec (.tmov e) s = .next (trapped s e ⟨clsTile, 6, v, issueMask s e⟩))

namespace Sys2Proof.Claims

/-! ### Stream queues and copies (11) -/

/-- The entries that qpush adds: an end marker, a transposed block's W-element vectors, or one vector with 0 for threads outside the
mask (R338). -/
def pushed (s : State) (e : Enc) : List QEntry :=
  let p := issuing s
  let n := (encX e).bh.toNat + 1
  if encModBit e 0 then [.stop]
  else if encModBit e 1 then
    (List.range n).map fun j => .data ((List.range p.width).map fun t =>
      BitVec.ofNat 32 (rdV p (encA e + 16 * ((j * p.width + t) % n)) ((j * p.width + t) / n)))
  else [.data ((List.range p.width).map fun t => if (issueMask s e).getLsbD t then BitVec.ofNat 32 (rdV p (encA e) t) else 0)]

/-- The header of the launch that the issuing crew belongs to. -/
def header (s : State) : Header := (s.launch (s.crew (s.pack s.cur).crew).launch).hdr

end Sys2Proof.Claims

/-- qpush adds its entries at the tail of a queue with room and stalls without; qpop takes the head: data into vD of the mask's
threads, an end marker ends the top loop, an empty queue stalls; qpeek reads the status word; foxgo starts an idle fox slot and
foxhalt stops a running one.  Packs of a crew without stream resources trap COPYR 2, and foxgo and the copies of a pack that is not the
producer COPYR 1 (11 R312, R313, R337 to R345).  That qpush.tr reads its block whatever the mask, and that foxhalt leaves a faulted slot
whose markers are still to be pushed, are the model's readings (log entry 40). -/
def Obligations.StreamQueues : Prop :=
  (∀ (e : Enc) (s : State), Issuable (.qpush e) s → (Claims.header s).stream = true → (Claims.header s).dmode = 0 →
    let p := issuing s
    let x := queueOf s p.crew e.d.toNat
    let es := Claims.pushed s e
    (x.entries.length + es.length ≤ 32 → ∃ t, exec (.qpush e) s = .next (completed s t e 0) ∧
      queueOf t p.crew e.d.toNat = { x with entries := x.entries ++ es } ∧
      (∀ k, k ≠ e.d.toNat → queueOf t p.crew k = queueOf s p.crew k) ∧ t.mem = s.mem ∧ t.packs = (issued s).packs) ∧
    (32 < x.entries.length + es.length →
      exec (.qpush e) s = .next (stalledIn s ((issued s).count ctrQStall (s.crew p.crew).core 1)))) ∧
  (∀ (e : Enc) (s : State), Issuable (.qpop e) s → (Claims.header s).stream = true → (Claims.header s).dmode = 0 →
    s.isStrict (issuing s).launch = false →
    let p := issuing s
    let q := e.a.toNat
    let x := queueOf s p.crew q
    (s.crew p.crew).st.fox.marks = [] →
    (∀ l r, x.entries = .data l :: r → ∃ t, exec (.qpop e) s = .next (completed s t e 0) ∧
      (queueOf t p.crew q).entries = r ∧ (∀ k, k ≠ q → queueOf t p.crew k = queueOf s p.crew k) ∧ t.mem = s.mem ∧
      VecDone (lanesOf (issueMask s e) p.width) (fun u => [(encD e, (l.getD u 0).toNat)]) p (t.pack s.cur)) ∧
    (∀ r, x.entries = .stop :: r → p.loops = [] → ∃ t, exec (.qpop e) s = .next (completed s t e 0) ∧
      (queueOf t p.crew q).entries = r ∧ t.mem = s.mem ∧ t.packs = (issued s).packs) ∧
    (∀ r y ys size, x.entries = .stop :: r → p.loops = y :: ys →
      endSize (dropHead (issued s) p.crew q) y.stop = .ok size →
      ∃ t, exec (.qpop e) s = .next (completed s t e p.sel) ∧ (queueOf t p.crew q).entries = r ∧ t.mem = s.mem ∧
        Claims.Moved (lanesOf p.sel p.width) (fun _ th => { th with pc := y.stop + BitVec.ofNat 64 size }) ys p (t.pack s.cur)) ∧
    (∀ f r, x.entries = .error :: r → (s.crew p.crew).st.fox.fault = some f → issueMask s e ≠ 0 →
      exec (.qpop e) s = .next (trapped s e { f with mask := issueMask s e })) ∧
    (x.entries = [] → exec (.qpop e) s = .next (stalledIn s ((issued s).count ctrQStall (s.crew p.crew).core 1)))) ∧
  (∀ (e : Enc) (s : State), Issuable (.qpeek e) s → (Claims.header s).stream = true → s.isStrict (issuing s).launch = false →
    let p := issuing s
    let x := queueOf s p.crew e.a.toNat
    exec (.qpeek e) s = .next (completedPack s (wrS p e.d.toNat (BitVec.ofNat 64
      (x.entries.length + 64 * bit (x.entries.head? == some .stop) + 128 * bit (x.entries.head? == some .error) +
        2 ^ 14 * (match (s.crew p.crew).st.fox.status with
          | .idle => 0
          | .running => 1
          | .faulted => 3)))) e 0)) ∧
  (∀ (e : Enc) (s : State), Issuable (.foxgo e) s → (Claims.header s).stream = true → (issuing s).idx = (Claims.header s).prod →
    let p := issuing s
    let free : Bool := (s.crew p.crew).st.fox.status != .running
    ∃ t, exec (.foxgo e) s = .next (completed s t e 0) ∧ Claims.PredAll s e e.d.toNat free p (t.pack s.cur) ∧ t.mem = s.mem ∧
      (free = false → t.crew p.crew = s.crew p.crew) ∧
      (free = true → ∀ f, f = (t.crew p.crew).st.fox →
        f.status = .running ∧ f.pc = BitVec.ofNat 64 ((Claims.header s).text + (rdS p (encA e)).toNat) ∧ f.fault = none ∧
        f.loops = [] ∧ f.v = [] ∧ f.y = p.y ∧ (∀ k < 4, Tab.get 0 f.s k = rdS p (encB e + k)) ∧ (∀ k, 4 ≤ k → Tab.get 0 f.s k = 0) ∧
        ∀ k < 8, (queueOf t p.crew k).entries = (queueOf s p.crew k).entries.filter (· != .error))) ∧
  (∀ (e : Enc) (s : State), Issuable (.foxhalt e) s → (Claims.header s).stream = true →
    let p := issuing s
    let f := (s.crew p.crew).st.fox
    ∃ t, exec (.foxhalt e) s = .next (completed s t e 0) ∧ t.mem = s.mem ∧ t.packs = (issued s).packs ∧
      (t.crew p.crew).st.fox =
        if f.status = .running ∧ f.fault = none then { f with status := .idle, wait := .none } else f) ∧
  (∀ (i : Instr) (e : Enc) (s : State), (i = .qpush e ∨ i = .qpop e ∨ i = .qpeek e ∨ i = .foxhalt e) → Issuable i s →
    (Claims.header s).stream = false → issueMask s e ≠ 0 → exec i s = .next (trapped s e ⟨clsCopyr, 2, 0, issueMask s e⟩)) ∧
  (∀ (i : Instr) (e : Enc) (s : State), (i = .foxgo e ∨ i = .cpyq e) → Issuable i s → (issuing s).idx = (Claims.header s).prod →
    (Claims.header s).stream = false → issueMask s e ≠ 0 → exec i s = .next (trapped s e ⟨clsCopyr, 2, 0, issueMask s e⟩)) ∧
  (∀ (i : Instr) (e : Enc) (s : State), (i = .foxgo e ∨ i = .cpy e ∨ i = .cpyMm e ∨ i = .cpyr e ∨ i = .cpyq e) → Issuable i s →
    (issuing s).idx ≠ (Claims.header s).prod → issueMask s e ≠ 0 → exec i s = .next (trapped s e ⟨clsCopyr, 1, 0, issueMask s e⟩))

namespace Sys2Proof.Claims

/-- The copy instructions: kind, anchor of a follow-on, and whether stream resources are asked for (11 R311, R327, R328, R340). -/
def copyRow : Instr → Option (Enc × CopyKind × Option Nat × Bool)
  | .cpy e => some (e, .plain, none, false)
  | .cpyMm e => some (e, .mm, some (encC e), false)
  | .cpyr e => some (e, .reduce (encMod e) (encTy e 0), none, false)
  | .cpyq e => some (e, .queue e.d.toNat (encModBit e 0), none, true)
  | _ => none

/-- The descriptor: sixteen uniform registers from B on (R314). -/
def descriptor (s : State) (e : Enc) : List W64 := (List.range 16).map fun k => rdS (issuing s) (encB e + k)

/-- What the instruction names: source yA, destination yD, scale capability (R311, R314). -/
def copyArgs (s : State) (e : Enc) (k : CopyKind) : CopyArgs :=
  ⟨k, descriptor s e, rdY (issuing s) (encA e), if k.isQueue then Cap.null else rdY (issuing s) (encD e),
    rdY (issuing s) (dScap (descriptor s e))⟩

end Sys2Proof.Claims

/-- A copy instruction of the producer that passes the checks of 11 R319 takes a slot and completes: its copy is in flight with the
descriptor and capabilities it named, its tiles count one more fill or drain, and no byte changes beyond those of the commit that an
exposing copy makes; a copy of no elements completes at once and takes no slot; under an all-zero mask nothing happens.  A check that
fails traps (04 R112; 11 R311, R315, R318, R319, R330).  That a copy of no elements needs its destination tile ready and runs no
follow-on is the model's reading (log entry 46). -/
def Sys2Proof.Claims.CopyIssue : Prop :=
  ∀ (i : Instr) (e : Enc) (k : CopyKind) (follow : Option Nat) (stream : Bool) (s : State),
    Claims.copyRow i = some (e, k, follow, stream) → Issuable i s →
    (issuing s).idx = (Claims.header s).prod → (stream = true → (Claims.header s).stream = true) →
    let p := issuing s
    let x := Claims.copyArgs s e k
    let tiles (m : Option MatPlan) : List Nat := (if dDtp x.d then [dDtile x.d] else []) ++ (if dStp x.d then [dStile x.d] else []) ++
      ((m.map fun y => y.fills ++ y.reads).getD [])
    let begun (m : Option MatPlan) : State := { issued s with fresh := s.fresh + 1 }.setPack s.cur (observeTiles p (tiles m))
    (issueMask s e = 0 → exec i s = .next (completed s (issued s) e 0)) ∧
    (issueMask s e ≠ 0 → ∀ t, copyTrap (issueCtx s e) (issued s) x = some t → exec i s = .next (trapped s e t)) ∧
    (∀ (m : Option MatPlan) (s1 : State), issueMask s e ≠ 0 → copyTrap (issueCtx s e) (issued s) x = none → Claims.Free s →
      (match follow with
        | none => m = none
        | some a => ∃ y, followPlan (issueCtx s e) (issued s) x.d ((List.range 4).map fun j => rdS p (a + j)) = .ok y ∧ m = some y) →
      copyTilesReady (issued s) p.crew s.cur x.d m = true → slotsUsed (issued s) (s.crew p.crew).core < 64 →
      (if copyExposes x then expose (begun m) s.cur else .ok (begun m)) = .ok s1 → s1.cur = s.cur →
      (s1.pack s.cur).crew = p.crew → (s1.pack s.cur).launch = p.launch →
      (dCount x.d = 0 → k.isQueue = false →
        ∃ t, exec i s = .next (completed s (if dBarp x.d then arriveCopy t p.crew (dBar x.d) else t) e 0) ∧ t.mem = s1.mem ∧
          t.packs = s1.packs ∧ t.copies = s1.copies ∧ t.crews = s1.crews) ∧
      (dCount x.d ≠ 0 → ∃ t, exec i s = .next (completed s t e 0) ∧ t.mem = s1.mem ∧ t.packs = s1.packs ∧
        t.copyAt s.fresh = ⟨true, (s.crew p.crew).core, p.crew, s.cur, k, x.d, x.src, x.dst, x.scap, (s.launch p.launch).asid, .moving,
          false, [], (t.copyAt s.fresh).follow, s.fresh, [], []⟩ ∧
        (∀ h, (tileAt t p.crew h).fill = (tileAt s1 p.crew h).fill +
          ((if dDtp x.d then [dDtile x.d] else []) ++ ((m.map (·.fills)).getD [])).count h) ∧
        (∀ h, (tileAt t p.crew h).drain = (tileAt s1 p.crew h).drain + (if dStp x.d then [dStile x.d] else []).count h)))

namespace Sys2Proof.Claims

/-- A capability passes the first four checks of R226 for an access that needs a permission. -/
def passesCap (s : State) (spaces : List Nat) (perm : Nat) (c : Cap) : Prop :=
  c.tag = true ∧ c.space ∈ spaces ∧ (supervisor s = true ∨ c.has pmSuper = false ∧ c.space ≠ 6) ∧ c.has perm = true

end Sys2Proof.Claims

/-- The checks of 11 R319, in their order, for copies with XF 0 or 1: an untagged source or destination traps CAPV 1, and a source without
the copy-source permission CAPV 4, with the cursor; then ALIGN for a cursor or stride that the element size does not divide; then CPYA 2
for a reserved bit of word 0, or more than five dimensions; then CPYA 1 for a source corner outside sint(64) (11 R317, here of one
dimension); then TILE 4 or 7 for the destination tile of a copy (here one of no elements).  Which of several cursors and strides ALIGN
names first (source cursor, destination cursor, source strides, destination strides), and that the source comes before the destination in
CAPV, are the model's choice (log entry 45). -/
def Sys2Proof.Claims.CopyChecks : Prop :=
  ∀ (i : Instr) (e : Enc) (k : CopyKind) (follow : Option Nat) (stream : Bool) (s : State),
    Claims.copyRow i = some (e, k, follow, stream) → Issuable i s → issueMask s e ≠ 0 →
    (issuing s).idx = (Claims.header s).prod → (stream = true → (Claims.header s).stream = true) →
    let p := issuing s
    let w (j : Nat) : Nat := ((Claims.descriptor s e).getD j 0).toNat
    let src := rdY p (encA e)
    let dst := rdY p (encD e)
    let n : Int := 2 ^ (w 0 / 2 ^ 7 % 8)
    let srcOk := Claims.passesCap s [0, 1, 2, 3, 4, 5, 6, 8, 9] pmCopySrc src
    let dstOk := k.isQueue = true ∨ Claims.passesCap s [0, 1, 2, 3, 4, 6, 8, 9]
      (match k with
        | .reduce _ _ => if dst.space ≤ 1 then pmCopyDst + pmAtomic else pmCopyDst
        | _ => pmCopyDst) dst
    let ints : List Int := [(src.cursor : Int)] ++ (if k.isQueue then [] else [(dst.cursor : Int)]) ++
      (List.range 5).map (fun j => toS 64 (w (8 + j))) ++ (List.range 5).map (fun j => toS 32 (w (13 + j / 2) / 2 ^ (32 * (j % 2)) % 2 ^ 32))
    let trap (cls sub : Nat) (v : W64) : Prop := exec i s = .next (trapped s e ⟨cls, sub, v, issueMask s e⟩)
    w 0 / 2 ^ 4 % 8 ≤ 1 →
    (src.tag = false → trap clsCapv 1 (BitVec.ofNat 64 src.cursor)) ∧
    (srcOk → k.isQueue = false → dst.tag = false → trap clsCapv 1 (BitVec.ofNat 64 dst.cursor)) ∧
    (src.tag = true → src.space ∈ [0, 1, 2, 3, 4, 5, 8, 9] → src.has pmSuper = false → src.has pmCopySrc = false → dstOk →
      trap clsCapv 4 (BitVec.ofNat 64 src.cursor)) ∧
    (srcOk → dstOk → w 0 / 2 ^ 7 % 8 ≤ 4 → ∀ l x r, ints = l ++ x :: r → (∀ y ∈ l, y % n = 0) → x % n ≠ 0 →
      trap clsAlign 0 (BitVec.ofInt 64 x)) ∧
    (srcOk → dstOk → (∀ x ∈ ints, x % n = 0) →
      (2 ^ 47 ≤ w 0 ∨ (w 0).testBit 3 = true ∨ 5 ≤ w 0 % 8 → trap clsCpya 2 0) ∧
      (k = .plain → w 0 / 2 ^ 7 ≤ 4 → w 0 % 2 ^ 7 = 0 → 1 ≤ w 2 → w 2 < 2 ^ 31 → w 13 < 2 ^ 32 →
        (∀ j < 16, j ≠ 0 → j ≠ 1 → j ≠ 2 → j ≠ 8 → j ≠ 13 → w j = 0) →
        let last := ((w 2 : Int) - 1) * toS 64 (w 8)
        (last < -2 ^ 63 ∨ 2 ^ 63 ≤ last ∨ src.cursor + last < -2 ^ 63 ∨ 2 ^ 63 ≤ src.cursor + last) → trap clsCpya 1 0) ∧
      (∀ h < 64, k = .plain → w 0 % 2 ^ 7 = 0 → w 0 / 2 ^ 7 % 2 ^ 23 ≤ 4 → w 0 / 2 ^ 30 = h + 2 ^ 6 →
        (∀ j < 16, j ≠ 0 → j ≠ 1 → j ≠ 8 → j ≠ 13 → w j = 0) → w 13 < 2 ^ 32 →
        let x := tileAt s p.crew h
        (x.defined = false → trap clsTile 4 (BitVec.ofNat 64 h)) ∧
        (x.defined = true → x.space ≠ dst.space → trap clsTile 7 (BitVec.ofNat 64 h))))

/-- A copy instruction takes the first check of 11 R319 that fails, and else its slot, with its counts raised and the bytes as they were
(11 R311, R315 to R319, R330). -/
def Obligations.CopyIssue : Prop := Claims.CopyIssue ∧ Claims.CopyChecks

/-- A plain copy without transform, tiles, barrier or follow-on, from physical memory to physical memory, lands whole at its completion: each
destination element inside the destination's bounds takes the bytes of its source element, or of the fill value where that lies out of
bounds, later elements over earlier ones (the model's choice, log entry 44), and no other byte changes (11 R315, R316, R324). -/
def Obligations.CopyLanding : Prop :=
  ∀ (s : State) (id : Nat) (src dst : Nat → Target),
    let c := s.copyAt id
    let d := c.desc
    let n := 2 ^ dElog d
    let ix (j : Nat) : List Nat := c.idx j
    let held (k : Cap) (a : Int) : Bool := capHolds k a n
    c.live = true → c.phase = .moving → c.kind = .plain → c.follow = none → c.late = [] → onCore s c.crew = true →
    dXf d = 0 → dElog d ≤ 4 → dStp d = false → dDtp d = false → dBarp d = false → c.dst.space ≠ 3 → c.dst.space ≠ 4 →
    (s.launch (s.crew c.crew).launch).hdr.dmode = 0 → Tab.get [] s.tlb (clusterOfCore c.core) = [] →
    (∃ q ∈ (s.crew c.crew).packs, (s.pack q).live = true) →
    (∀ j < c.count, (c.sa (ix j)) % n = 0 ∧ (c.da (ix j)) % n = 0 ∧ 0 ≤ c.sa (ix j) ∧ 0 ≤ c.da (ix j)) →
    (∀ j < c.count, held c.src (c.sa (ix j)) = true → copyPlace s c c.src false (c.sa (ix j)).toNat = .ok (src j)) →
    (∀ j < c.count, held c.dst (c.da (ix j)) = true → copyPlace s c c.dst true (c.da (ix j)).toNat = .ok (dst j)) →
    (∀ j, (src j).loc.isPhys = true ∧ (dst j).loc.isPhys = true ∧ reachable s (src j).loc.off = true ∧ reachable s (dst j).loc.off = true ∧
      s.uceAt (src j).loc.off = none ∧ ∀ g, g = (src j).loc.off / 64 ∨ g = (dst j).loc.off / 64 → Claims.noPartials s g) →
    ∃ t, exec (.copyComplete id) s = .next t ∧ t.copyAt id = Copy.blank ∧
      ∀ a, t.byte a = Claims.landed
        ((List.range c.count).filterMap fun j =>
          if held c.dst (c.da (ix j)) = true then
            some ((dst j).loc.off, if held c.src (c.sa (ix j)) = true then s.rdBytes (src j).loc.off n else leBytes (dW d 1) n)
          else none) s.byte a

/-- twait, tstat, trel and tfill complete with the effect on the entry and the bytes of the tile, or stall; the TILE traps of an empty or a
defined handle (07 R206, R209, R215 to R218).  That a crew's tfills land one after the other, each whole, is log entry 39. -/
def Obligations.TileInstructions : Prop := Claims.TileInstructions ∧ Claims.TileTraps
namespace Sys2Proof.Claims

/-! ### Matrix instructions (12) -/

/-- The group at local macro `m0` is what an instruction asks for: within the allotment, loaded, of this base, type, slice count and
shape (12 R359). -/
def groupFits (s : State) (m0 ty sl w : Nat) : Prop :=
  let g := crewMacro (s.crew (s.pack s.cur).crew).st m0
  m0 < (header s).macros ∧ g.loaded = true ∧ g.base = m0 ∧ g.ty = ty ∧ g.s = sl ∧ g.kv = w / 2 ^ 4 % 2 ^ 6 ∧ g.ng = w / 2 ^ 10 % 2 ^ 3

/-- M, N and K of a shape word, and its reserved bits (12 R356). -/
def dimM (w : Nat) : Nat := 16 * (w % 16 + 1)
def dimN (w : Nat) : Nat := 64 * (w / 2 ^ 10 % 8 + 1)
def dimK (w : Nat) : Nat := 64 * (w / 2 ^ 4 % 64 + 1)
def shapeFits (w : Nat) : Prop := w / 2 ^ 13 % 8 = 0 ∧ w / 2 ^ 48 = 0

/-- What a matrix instruction asks of the sequencer: its kind, the tiles it uses (types, place, rows, row bytes, written or read), the
accumulator that may still be filling, and the conditions that its operands meet besides the tiles (12 R357, R359, R363, R365, R373,
R376 to R378). -/
structure MatAsk where
  e : Enc
  kind : MatKind
  uses : List TileUse
  acc : Option Nat
  ok : Prop

/-- A scale tile is used with a block format only. -/
def scales (t h rows blocks : Nat) (write : Bool) : List TileUse :=
  if typeMx t || typeDxb t then [⟨h, [if typeDxb t then 6 else 5], false, rows, blocks * (if typeDxb t then 2 else 1), write⟩] else []

/-- Each matrix instruction that goes to the sequencer, but mldb. -/
def matAsk (s : State) : Instr → Option MatAsk :=
  let p := issuing s
  let mma (e : Enc) : MatAsk :=
    let w := (rdS p (encB e)).toNat
    let ta := encTy e 0
    let tb := encMod e % 32
    let imm := encImm e
    let m0 := imm / 2 ^ 8 % 8
    let g := crewMacro (s.crew p.crew).st m0
    let kb0 := w / 2 ^ 16 % 2 ^ 4
    let zp := (encMod e).testBit 5
    let int : Bool := (ta == 1 || ta == 0x1C) && (tb == 1 || tb == 0x1C)
    { e := e
      kind := .mma (encD e) (encA e) (encC e) ta tb w m0
        (if zp then some ((List.range (dimM w)).map fun r => toS 8 (rdV p (imm % 256 + r / p.width) (r % p.width))) else none)
        (imm.testBit 11) g (header s).bver
      uses := [⟨encD e, [if int then 3 else 0x0D], true, dimM w, 4 * dimN w, true⟩,
        ⟨encA e, [ta], false, dimM w, dimK w * typeBits ta / 8, false⟩] ++ scales ta (encC e) (dimM w) (dimK w / 32) false
      acc := some (encD e)
      ok := (zp = true → imm % 256 + (dimM w + p.width - 1) / p.width ≤ 256) ∧ shapeFits w ∧ groupFits s m0 tb 0 w ∧
        ((typeMx ta || typeDxb ta) = true → w / 2 ^ 32 % 2 ^ 4 = kb0) ∧
        ((typeMx tb || typeDxb tb) = true → g.kb0b % 2 ^ 4 = kb0) }
  fun
  | .mmaInt e => some (mma e)
  | .mmaFloat e => some (mma e)
  | .mms e =>
    let w := (rdS p (encB e)).toNat
    let ty := encTy e 0
    let sl := sliceCount ty (encMod e % 16)
    let m0 := encImm e / 2 ^ 8 % 8
    some {
      e := e
      kind := .mms (encD e) (encA e) ty sl w m0 ((encMod e).testBit 4) (if (encX e).rm = 6 then p.rm.toNat else (encX e).rm.toNat)
        (crewMacro (s.crew p.crew).st m0)
      uses := [⟨encD e, [ty], true, dimM w, dimN w * typeBits ty / 8, true⟩,
        ⟨encA e, [ty], false, dimM w, dimK w * typeBits ty / 8, false⟩]
      acc := if (encMod e).testBit 4 then some (encD e) else none
      ok := shapeFits w ∧ groupFits s m0 ty sl w }
  | .maccTile e =>
    let x := tileAt s p.crew (encA e)
    let bound := if (encMod e).testBit 1 then some (Tab.get BoundEntry.unused (s.launch (s.crew p.crew).launch).bounds (encC e)) else none
    some {
      e := e
      kind := .macc (encD e) (encA e) (encTy e 0) (toS 8 (encImm e)) ((encMod e).testBit 0) bound
        (if (encX e).rm = 6 then p.rm.toNat else (encX e).rm.toNat)
      uses := [⟨encA e, [3, 0x0D], true, x.rows, x.rowBytes, false⟩,
        ⟨encD e, [encTy e 0], false, x.rows, x.rowBytes / 4 * typeBits (encTy e 0) / 8, true⟩]
      acc := none
      ok := x.fill = 0 ∧ x.drain = 0 ∧ ∀ b, bound = some b → boundTrapAt s p.crew x e (rmOf p e) b = none }
  | .mzero e =>
    let x := tileAt s p.crew e.b.toNat
    some { e := e, kind := .mzero e.b.toNat, uses := [⟨e.b.toNat, [], false, x.rows, x.rowBytes, true⟩], acc := none, ok := True }
  | .mxq e =>
    let st := if encMod e % 32 = 0 then 0x0D else encMod e % 32
    let x := tileAt s p.crew (encA e)
    let blocks := (x.rowBytes * 8 / typeBits st + 31) / 32
    some {
      e := e
      kind := .mxq (encD e) (encA e) (encC e) (encTy e 0) st ((encMod e).testBit 5)
        (if (encX e).rm = 6 then p.rm.toNat else (encX e).rm.toNat)
      uses := [⟨encD e, [encTy e 0], false, x.rows, blocks * (32 * typeBits (encTy e 0) / 8), true⟩,
        ⟨encA e, [st], false, x.rows, x.rowBytes, false⟩] ++ scales (encTy e 0) (encC e) x.rows blocks true
      acc := none
      ok := typeMx (encTy e 0) = true ∨ typeDxb (encTy e 0) = true }
  | .mxdq e =>
    let st := encMod e % 32
    let x := tileAt s p.crew (encA e)
    let blocks := x.rowBytes / (32 * typeBits st / 8)
    some {
      e := e
      kind := .mxdq (encD e) (encA e) (encC e) (encTy e 0) st ((encMod e).testBit 5)
        (if (encX e).rm = 6 then p.rm.toNat else (encX e).rm.toNat)
      uses := [⟨encD e, [encTy e 0], false, x.rows, blocks * 32 * typeBits (encTy e 0) / 8, true⟩,
        ⟨encA e, [st], false, x.rows, x.rowBytes, false⟩] ++ scales st (encC e) x.rows blocks false
      acc := none
      ok := typeMx st = true ∨ typeDxb st = true }
  | .mtr e =>
    let w := typeBits (encTy e 9)
    let x := tileAt s p.crew (encA e)
    let any := (List.range 29).filter fun t => t ≠ 0 && typeBits t == w
    some {
      e := e
      kind := .mtr (encD e) (encA e) (encTy e 9)
      uses := [⟨encD e, any, false, x.rowBytes / (w / 8), x.rows * w / 8, true⟩, ⟨encA e, any, false, x.rows, x.rowBytes, false⟩]
      acc := none
      ok := True }
  | _ => none

/-- A tile serves a use: defined, with the matrix permission, of the type, in SPM1 where asked, and large enough (12 R359). -/
def serves (x : Tile) (u : TileUse) : Prop :=
  x.defined = true ∧ x.perm &&& pmMatrix ≠ 0 ∧ (u.types = [] ∨ x.ty ∈ u.types) ∧ (u.spm1 = true → x.space = 2) ∧
  u.rows ≤ x.geom.toNat % 2 ^ 16 ∧ u.bytes ≤ x.geom.toNat / 2 ^ 16 % 2 ^ 12 * 64

/-- The state of the tile allows the use by a pack (07 R206). -/
def open_ (x : Tile) (pid : Nat) (written : Bool) (acc : Bool) (u : TileUse) : Prop :=
  if u.write = true then x.drain = 0 ∧ (x.fill = 0 ∨ acc = true ∧ x.fill < 63 ∧ ∀ q ∈ x.mfill, q = pid)
  else written = true ∨ x.fill = 0 ∧ x.drain < 63

/-- The distinct tiles written and read, and the tiles' readiness. -/
def fillsOf (l : List TileUse) : List Nat := nubNat ((l.filter fun u => u.write).map (·.h))
def drainsOf (l : List TileUse) : List Nat := nubNat ((l.filter fun u => !u.write).map (·.h))
def allOpen (s : State) (l : List TileUse) (acc : Option Nat) : Prop :=
  ∀ u ∈ l, open_ (tileAt s (s.pack s.cur).crew u.h) s.cur (decide (u.h ∈ fillsOf l)) (decide (acc = some u.h)) u

/-- A matrix instruction has entered the queue of its core: at the end, with its tiles' counts raised by one each; its pack has observed
what completed on those tiles (16 R484); nothing else of the tiles changes, no byte of memory or of the scratchpads, and no other
pack. -/
structure Queued (s t : State) (kind : MatKind) (uses : List TileUse) : Prop where
  queue : t.seq (s.crew (s.pack s.cur).crew).core = s.seq (s.crew (s.pack s.cur).crew).core ++
    [⟨(s.pack s.cur).crew, s.cur, issuePc s, kind, fillsOf uses, drainsOf uses, 0, none, matOp + s.fresh + 1⟩]
  queues : ∀ k, k ≠ (s.crew (s.pack s.cur).crew).core → t.seq k = s.seq k
  tiles : ∀ h, let x := tileAt t (s.pack s.cur).crew h
    let y := tileAt s (s.pack s.cur).crew h
    x.fill = y.fill + (fillsOf uses).count h ∧ x.drain = y.drain + (drainsOf uses).count h ∧
    { x with fill := y.fill, drain := y.drain, mfill := y.mfill } = y
  mem : t.mem = s.mem
  pack : t.pack s.cur = observeTiles (issuing s) (fillsOf uses ++ drainsOf uses)
  packs : ∀ k, k ≠ s.cur → t.pack k = s.pack k
  pads : ∀ k, (t.crew k).st.spm1 = (s.crew k).st.spm1
  regions : t.gangs = s.gangs ∧ t.troops = s.troops

end Sys2Proof.Claims

/-- mma, mms, macc (tile), mzero, mxq, mxdq and mtr issue into the sequencer of their core, in order, when their operands pass the
checks of 12 R359 and the tiles are ready for them; on a full queue of 16 the pack stalls and the stall is counted; a tile that is
not ready stalls too (07 R206, R219; 12 R357, R359, R367, R385).  In Strict mode the granules are stamped as well, which the premise
Free leaves out. -/
def Obligations.MatrixIssue : Prop :=
  ∀ (i : Instr) (q : Claims.MatAsk) (s : State), Claims.matAsk s i = some q → Issuable i s → Claims.Free s →
    let p := issuing s
    let core := (s.crew p.crew).core
    q.ok → (∀ u ∈ q.uses, Claims.serves (tileAt s p.crew u.h) u) →
    (Claims.allOpen s q.uses q.acc → (s.seq core).length < 16 →
      ∃ t, exec i s = .next (completed s t q.e 0) ∧ Claims.Queued s t q.kind q.uses) ∧
    (Claims.allOpen s q.uses q.acc → 16 ≤ (s.seq core).length →
      exec i s = .next (stalledIn s ((issued s).count ctrMxQfull core 1))) ∧
    (¬Claims.allOpen s q.uses q.acc →
      exec i s = .next (stalledIn s ((issued s).count ctrTileStall core 1)))

/-- mldb issues the load of a group and gives its macros their record; a macro already loaded traps MACRO 2, one outside the allotment
MACRO 1, a column of more than 8192 bytes MACRO 4, with no effect (12 R351, R352, R360).  With a sparsity map the pack stalls until the
map tile may be read, whose live vectors the load then counts; that this comes before the checks, and that MACRO names the lowest macro
concerned, are the model's readings (log entry 42). -/
def Sys2Proof.Claims.GroupLoad : Prop :=
  ∀ (e : Enc) (s : State), Issuable (.mldb e) s → Claims.Free s →
    let p := issuing s
    let ty := encTy e 0
    let w := (rdS p (encB e)).toNat
    let m0 := encImm e % 8
    let map := encImm e / 2 ^ 3 % 2 ^ 6
    let sp := encMod e / 2 ^ 4
    let sl := sliceCount ty (encMod e % 16)
    let live := if sp = 0 then Claims.dimK w / 64 else mapLive s p.crew map (Claims.dimK w / 64)
    let kst := if sp = 2 then 32 * live else 64 * live
    let uses : List TileUse := ⟨encA e, [ty], false, Claims.dimN w, kst * typeBits ty / 8, false⟩ ::
      Claims.scales ty (encC e) (Claims.dimN w) (Claims.dimK w / 32) false ++
      (if sp = 0 then [] else [⟨map, [0x0A], false, if sp = 2 then 1 + Claims.dimN w else 1, 8 * max 1 live, false⟩])
    let depth := if sl ≠ 0 then Claims.dimK w * sl else kst * typeBits ty / 8
    let split : Bool := 1024 < depth && Claims.dimN w ≤ 256 && m0 == 0 && (Claims.header s).macros == 8 && !(encImm e).testBit 9
    let ms := (List.range (Claims.dimN w / 64)).map (· + m0) ++
      if split then (List.range (Claims.dimN w / 64)).map (· + 4) else []
    let g : MacroRec := ⟨true, m0, ty, sl, w / 2 ^ 4 % 2 ^ 6, w / 2 ^ 10 % 2 ^ 3, split, sp, w / 2 ^ 16 % 2 ^ 16, p.idx, []⟩
    let mac (k : Nat) : MacroRec := crewMacro (s.crew p.crew).st k
    Claims.shapeFits w → w % 16 = 0 → (sp ≠ 0 → (tileAt s p.crew map).fill = 0 ∧ (tileAt s p.crew map).drain < 63) →
    (∀ u ∈ uses, Claims.serves (tileAt s p.crew u.h) u) →
    ((∀ m ∈ ms, m < (Claims.header s).macros ∧ (mac m).loaded = false) → depth ≤ 8192 → Claims.allOpen s uses none →
      (s.seq (s.crew p.crew).core).length < 16 →
      ∃ t, exec (.mldb e) s = .next (completed s t e 0) ∧
        Claims.Queued s t (.mldb (some (encA e)) (if typeMx ty || typeDxb ty then some (encC e) else none)
          (if sp = 0 then none else some map) ty sl w m0 sp split g) uses ∧
        ∀ m, crewMacro (t.crew p.crew).st m = if m ∈ ms then g else mac m) ∧
    (∀ m ∈ ms, (Claims.header s).macros ≤ m → (∀ k ∈ ms, k < m → k < (Claims.header s).macros) → issueMask s e ≠ 0 →
      exec (.mldb e) s = .next (trapped s e ⟨clsMacro, 1, BitVec.ofNat 64 m, issueMask s e⟩)) ∧
    (∀ m ∈ ms, (mac m).loaded = true → (∀ k ∈ ms, k < (Claims.header s).macros ∧ (k < m → (mac k).loaded = false)) → issueMask s e ≠ 0 →
      exec (.mldb e) s = .next (trapped s e ⟨clsMacro, 2, BitVec.ofNat 64 m, issueMask s e⟩)) ∧
    ((∀ m ∈ ms, m < (Claims.header s).macros ∧ (mac m).loaded = false) → 8192 < depth → issueMask s e ≠ 0 →
      exec (.mldb e) s = .next (trapped s e ⟨clsMacro, 4, BitVec.ofNat 64 m0, issueMask s e⟩))

/-- What mma and mms trap on: a tile without the matrix permission, an empty handle, an unfit tile, a group outside the allotment, not
loaded under this base, of another type or slice count, or of another shape; then an mma whose scales are out of step with the data
traps SCALE with the labels, and in Strict mode the use of a group of another pack that no consumed phase orders traps RACE 3 (12 R354,
R357, R359, R365; 15 R446). -/
def Sys2Proof.Claims.MatrixTraps : Prop :=
  ∀ (i : Instr) (q : Claims.MatAsk) (s : State) (m0 ty sl w : Nat),
    (i = .mms q.e ∨ i = .mmaInt q.e ∨ i = .mmaFloat q.e) → Claims.matAsk s i = some q → Issuable i s → issueMask s q.e ≠ 0 →
    let p := issuing s
    let g := crewMacro (s.crew p.crew).st m0
    let m := issueMask s q.e
    w = (rdS p (encB q.e)).toNat → Claims.shapeFits w → m0 = encImm q.e / 2 ^ 8 % 8 → (i ≠ .mms q.e → (encMod q.e).testBit 5 = false) →
    (i = .mms q.e ∧ ty = encTy q.e 0 ∧ sl = sliceCount ty (encMod q.e % 16) ∨ i ≠ .mms q.e ∧ ty = encMod q.e % 32 ∧ sl = 0) →
    (∀ u ∈ q.uses, (tileAt s p.crew u.h).defined = true ∧ (tileAt s p.crew u.h).perm &&& pmMatrix = 0 →
      ∃ x, exec i s = .next (trapped s q.e ⟨clsCapv, 4, x, m⟩)) ∧
    ((∀ u ∈ q.uses, (tileAt s p.crew u.h).perm &&& pmMatrix ≠ 0 ∨ (tileAt s p.crew u.h).defined = false) →
      (∃ u ∈ q.uses, (tileAt s p.crew u.h).defined = false) →
      ∃ h ∈ q.uses.map (·.h), (tileAt s p.crew h).defined = false ∧
        exec i s = .next (trapped s q.e ⟨clsTile, 4, BitVec.ofNat 64 h, m⟩)) ∧
    ((∀ u ∈ q.uses, (tileAt s p.crew u.h).defined = true ∧ (tileAt s p.crew u.h).perm &&& pmMatrix ≠ 0) →
      (∃ u ∈ q.uses, ¬Claims.serves (tileAt s p.crew u.h) u) →
      ∃ u ∈ q.uses, ¬Claims.serves (tileAt s p.crew u.h) u ∧
        exec i s = .next (trapped s q.e ⟨clsTile, 7, BitVec.ofNat 64 u.h, m⟩)) ∧
    ((∀ u ∈ q.uses, Claims.serves (tileAt s p.crew u.h) u) →
      ((Claims.header s).macros ≤ m0 → exec i s = .next (trapped s q.e ⟨clsMacro, 1, BitVec.ofNat 64 m0, m⟩)) ∧
      (m0 < (Claims.header s).macros → g.loaded = false ∨ g.base ≠ m0 →
        exec i s = .next (trapped s q.e ⟨clsMacro, 2, BitVec.ofNat 64 m0, m⟩)) ∧
      (m0 < (Claims.header s).macros → g.loaded = true → g.base = m0 → g.ty ≠ ty ∨ g.s ≠ sl →
        exec i s = .next (trapped s q.e ⟨clsMacro, 3, BitVec.ofNat 64 m0, m⟩)) ∧
      (m0 < (Claims.header s).macros → g.loaded = true → g.base = m0 → g.ty = ty → g.s = sl →
        g.kv ≠ w / 2 ^ 4 % 2 ^ 6 ∨ g.ng ≠ w / 2 ^ 10 % 2 ^ 3 →
        exec i s = .next (trapped s q.e ⟨clsMacro, 4, BitVec.ofNat 64 m0, m⟩)) ∧
      (Claims.groupFits s m0 ty sl w →
        let block (t : Nat) : Bool := typeMx t || typeDxb t
        let ta := encTy q.e 0
        let kb0 := w / 2 ^ 16 % 16
        let ks := w / 2 ^ 32 % 16
        let mma : Prop := i ≠ .mms q.e
        let stepA : Prop := mma ∧ block ta = true ∧ ks ≠ kb0
        let stepB : Prop := mma ∧ block ty = true ∧ g.kb0b % 16 ≠ kb0
        (stepA → exec i s = .next (trapped s q.e ⟨clsScale, 1, BitVec.ofNat 64 (16 * kb0 + 256 * ks), m⟩)) ∧
        (¬stepA → stepB → exec i s = .next (trapped s q.e ⟨clsScale, 1, BitVec.ofNat 64 (1 + 16 * kb0 + 256 * (g.kb0b % 16)), m⟩)) ∧
        (¬stepA → ¬stepB → s.isStrict p.launch = true → g.loader ≠ p.idx →
          (∀ y ∈ g.larr, ∀ ph, y.2 = some ph →
            let d := (Tab.get 0 (crewBar (s.crew p.crew).st y.1).waits p.idx + 2 ^ 32 - ph) % 2 ^ 32
            d = 0 ∨ 2 ^ 31 ≤ d) →
          ∃ v, exec i s = .next (trapped s q.e ⟨clsRace, 3, v, m⟩))))

/-- mrel empties the records of a group; mstat reads the flag word, 64 loss bits, the loss record or a macro's record, with what
completed on the tile, or of the pack's matrix instructions, observed (16 R484); macc (regs) writes
the converted elements of the tile to the registers of the mask's threads, and raises flags, with what completed on the tile observed
(12 R362, R373, R374, R375, R382). -/
def Sys2Proof.Claims.MatrixImmediate : Prop :=
  (∀ (e : Enc) (s : State), Issuable (.mrel e) s →
    let p := issuing s
    let m0 := e.b.toNat
    let mac (k : Nat) : MacroRec := crewMacro (s.crew p.crew).st k
    m0 < 8 → m0 < (Claims.header s).macros → (mac m0).loaded = true → (mac m0).base = m0 →
    ∃ t, exec (.mrel e) s = .next (completed s t e 0) ∧ t.mem = s.mem ∧ t.packs = (issued s).packs ∧ t.seqs = s.seqs ∧
      ∀ m, if m < 8 ∧ (mac m).loaded = true ∧ (mac m).base = m0 then (crewMacro (t.crew p.crew).st m).loaded = false
        else crewMacro (t.crew p.crew).st m = mac m) ∧
  (∀ (e : Enc) (s : State), Issuable (.mstat e) s →
    let p := issuing s
    let st := (s.crew p.crew).st
    let h := encA e
    let x := tileAt s p.crew h
    let w := (rdS p (encB e)).toNat
    let g := crewMacro st w
    let answer (seen : Nat × Nat × Nat × Nat → Bool) (v : Nat) : Prop :=
      exec (.mstat e) s = .next (completedPack s (observe (wrS p e.d.toNat (BitVec.ofNat 64 v)) seen) e 0)
    let ofTile (o : Nat × Nat × Nat × Nat) : Bool := o.2.1 == 0 && o.2.2.1 == h
    let ofMatrix (o : Nat × Nat × Nat × Nat) : Bool := o.2.1 == 0 && decide (matOp ≤ o.1 / 2 ^ 64)
    (encMod e ≤ 1 → x.defined = true → x.perm &&& pmMatrix ≠ 0 → x.fill = 0 → (encMod e = 1 → w < 2 ^ 11) →
      answer ofTile (if encMod e = 0 then x.flags.toNat
        else if st.loss.valid = true ∧ st.loss.tile = h then
          ((List.range 64).map fun k => bit (st.loss.bits.contains (512 * (w % 256) + 64 * (w / 256) + k)) * 2 ^ k).sum
        else 0)) ∧
    (encMod e = 2 → packMatBusy (issued s) s.cur = false →
      answer ofMatrix (if st.loss.valid = true then st.loss.tile + 2 ^ 6 else 0)) ∧
    (encMod e = 3 → packMatBusy (issued s) s.cur = false → w < 8 → w < (Claims.header s).macros →
      answer ofMatrix (bit g.loaded + 2 * bit (g.loaded && g.base == w) + 2 ^ 2 * g.base + 2 ^ 5 * g.ty + 2 ^ 10 * g.s + 2 ^ 14 * g.kv +
        2 ^ 20 * g.ng + 2 ^ 23 * bit g.split + 2 ^ 24 * g.sp + 2 ^ 26 * g.kb0b))) ∧
  (∀ (e : Enc) (s : State), Issuable (.maccRegs e) s → Claims.Free s →
    let p := issuing s
    let x := tileAt s p.crew (encA e)
    let w := (rdS p (encB e)).toNat
    let l := lanesOf (issueMask s e) p.width
    let bound := if (encMod e).testBit 1 then some (Tab.get BoundEntry.unused (s.launch (s.crew p.crew).launch).bounds (encC e)) else none
    let out (i t : Nat) : Nat × Fl × BitVec 16 × Bool :=
      maccElem x.ty (encTy e 0) (toS 8 (encImm e)) (rmOf p e) ((encMod e).testBit 0) bound
        (accElem s p.crew x (w % 2 ^ 16 + i) (w / 2 ^ 16 + t))
    let inside (i t : Nat) : Bool := decide (w % 2 ^ 16 + i < x.rows) && decide (w / 2 ^ 16 + t < x.rowBytes / 4)
    let rows (t : Nat) : List Nat := (List.range ((encX e).bh.toNat + 1)).filter fun i => inside i t
    let raised (t : Nat) : Fl := (rows t).foldl (fun a i => a ||| (out i t).2.1) 0
    w < 2 ^ 32 → x.defined = true → x.perm &&& pmMatrix ≠ 0 → (x.ty = 3 ∨ x.ty = 0x0D) → x.space = 2 → x.fill = 0 →
    p.width ≤ p.threads.length →
    (∀ t ∈ l, raised t &&& enabledFlags p = 0) →
    (∀ b, bound = some b → b.action = 2 → ∀ t ∈ l, ∀ i ∈ rows t, (out i t).2.2.2 = false) →
    ∃ q, exec (.maccRegs e) s = .next (completedPack s q e 0) ∧
      VecDone l (fun t => (rows t).map fun i => (encD e + 16 * i, (out i t).1)) (observeTiles p [encA e]) { q with sflag := p.sflag } ∧
      (∀ t < p.width, (packThread q t).fflags = (packThread p t).fflags ||| if t ∈ l then raised t else 0) ∧
      (∀ k < 32, q.sflag.getLsbD k = (p.sflag.getLsbD k || (decide (k < 6) &&
        l.any fun t => (rows t).any fun i => (out i t).2.2.1.getLsbD (k + 5)))))

namespace Sys2Proof.Claims

/-- Element `k` of `w` bits of a row of bytes: the first in the low bits of the first byte (03 R67, R81). -/
def rowCode (w : Nat) (f : Nat → Byte) (k : Nat) : Nat :=
  leNat ((List.range (w / 8 + 2)).map fun i => f (w * k / 8 + i)) / 2 ^ (w * k % 8) % 2 ^ w

/-- Byte `j` of row `i` of a tile, and element `c` of `w` bits of that row (07 R211). -/
def tileByte (s : State) (crew h i j : Nat) : Byte :=
  let x := tileAt s crew h
  (window s crew x.space).byte (x.base + i * (x.pitch * 64) + j)
def cell (s : State) (crew h w i c : Nat) : Nat := rowCode w (tileByte s crew h i) c

/-- An offset lies in the first `n` bytes of one of the first `rows` rows of a tile. -/
def inRows (x : Tile) (rows n a : Nat) : Prop := ∃ i < rows, x.base + i * (x.pitch * 64) ≤ a ∧ a < x.base + i * (x.pitch * 64) + n

/-- `o` heads the queue of a core and its last step has run; it is no follow-on, what it reads passes its checks (08 R242), a pack of its
crew has not ended, and the destination tiles `ds` (tile, rows, bytes of a row) lie in windows, with room in the den for SPM1 (12 R367,
R368; 15 R454). -/
structure AtHead (s : State) (core : Nat) (o : MatOp) (l : List MatOp) (ds : List (Nat × Nat × Nat)) : Prop where
  queue : s.seq core = o :: l
  core : core < 1024
  own : o.copy = none
  steps : opSteps s o ≤ o.step
  sound : s.uceRanges (matPlaces s o) = none
  live : ∃ k ∈ (s.crew o.crew).packs, (s.pack k).live = true
  windows : ∀ d ∈ ds, let x := tileAt s o.crew d.1
    (x.space = 2 ∨ x.space = 3 ∨ x.space = 4) ∧ x.rowGran ≤ x.pitch ∧ d.2.2 ≤ x.rowBytes
  room : (s.crew o.crew).lost = true ∨ denUsed s (s.crew o.crew).core +
    ((ds.filter fun d => (tileAt s o.crew d.1).space == 2).map fun d => d.2.1 * ((tileAt s o.crew d.1).rowGran + 1)).sum ≤ denRoom

/-- It has left the queue; the fill count of its tiles has fallen; no byte of memory has changed, and no byte of a window but in the rows
written. -/
structure Completed (s t : State) (core : Nat) (o : MatOp) (l : List MatOp) (ds : List (Nat × Nat × Nat)) : Prop where
  queue : t.seq core = l
  mem : t.mem = s.mem
  counts : ∀ d ∈ ds, (tileAt t o.crew d.1).fill = (tileAt s o.crew d.1).fill - o.fills.count d.1
  bytes : ∀ sp, (sp = 2 ∨ sp = 3 ∨ sp = 4) → ∀ a,
    (∀ d ∈ ds, (tileAt s o.crew d.1).space = sp → ¬inRows (tileAt s o.crew d.1) d.2.1 d.2.2 a) →
    (window t o.crew sp).byte a = (window s o.crew sp).byte a

/-- The scale of block `b` from the bytes of a scale row: one byte, or Ehi and Elo; 2^0 for a plain format (03 R81). -/
def scaleAt (t : Nat) (f : Nat → Byte) (b : Nat) : Nat × Nat :=
  if typeDxb t then ((f (2 * b)).toNat, (f (2 * b + 1)).toNat) else if typeMx t then ((f b).toNat, 0) else (127, 0)

/-- Vector `v` of a group is live: bit `v` of the first 8 bytes of map row 0 (12 R361). -/
def liveVec (g : MacroRec) (b : BGroup) (v : Nat) : Bool := g.sp == 0 || (leNat ((b.map.headD []).take 8)).testBit v

/-- The kept positions of block `k` of column `c` of a group, in A and in the stored column (12 R361). -/
def keptAt (g : MacroRec) (b : BGroup) (c k : Nat) : List (Nat × Nat) :=
  let rank := ((List.range (k / 2)).filter (liveVec g b)).length
  if g.sp = 2 then
    let word := leNat (((b.map.getD (c + 1) []).drop (8 * rank)).take 8)
    (List.range 16).map fun q =>
      let j := 8 * (k % 2) + q / 2
      (64 * (k / 2) + 4 * j + word / 2 ^ (4 * j + 2 * (q % 2)) % 4, 32 * rank + 2 * j + q % 2)
  else (List.range 32).map fun i => (32 * k + i, 64 * rank + 32 * (k % 2) + i)

def clamp32 (x : Int) : Int := max (-2 ^ 31) (min (2 ^ 31 - 1) x)

/-- Element (r, c) of the accumulator that mma leaves (12 R363, R364).  Integers: the exact sum of each block's products joins its chain and
is clamped.  Floats: the exact sum of each block's products is rounded to binary32 and added under RNE; behaviour version 2 takes FP8 and
MXFP8 in blocks of 16, rounded toward zero. -/
def mmaCell (s : State) (crew acc a scale ta tb w m0 : Nat) (zp : Option (List Int)) (g : MacroRec) (bver r c : Nat) : Nat :=
  let b := Tab.get BGroup.blank (s.crew crew).st.bdata m0
  let n := dimK w / 64
  let blocks (upper : Bool) : List Nat := (List.range (2 * n)).filter fun k =>
    liveVec g b (k / 2) && (g.split && decide ((n + 1) / 2 ≤ k / 2)) == upper
  let int : Bool := (ta == 1 || ta == 0x1C) && (tb == 1 || tb == 0x1C)
  let z : Option Int := zp.map fun l => l.getD r 0
  let ac (k : Nat) : Nat := cell s crew a (typeBits ta) r k
  let bc (k : Nat) : Nat := rowCode (typeBits tb) (fun j => (b.rows.getD c []).getD j 0) k
  let old := cell s crew acc 32 r c
  if int then
    let prod (x : Nat × Nat) : Int := (toS (typeBits ta) (ac x.1) - z.getD 0) * toS (typeBits tb) (bc x.2)
    let run (x : Int) (l : List Nat) : Int := l.foldl (fun y k => clamp32 (y + ((keptAt g b c k).map prod).sum)) x
    let lo := run (toS 32 old) (blocks false)
    ofI 32 (if g.split then clamp32 (lo + run 0 (blocks true)) else lo)
  else
    let fp8 : Bool := bver == 2 && [0x0F, 0x10, 0x15, 0x16].any fun t => ta == t || tb == t
    let prod (k : Nat) (x : Nat × Nat) : FVal :=
      let sa := scaleAt ta (tileByte s crew scale r) k
      let sb := scaleAt tb (fun j => (b.scales.getD c []).getD j 0) k
      let va := match z with
        | none => blockValue ta (ac x.1) sa.1 sa.2
        | some z => if ta = 0x14 ∧ sa.1 = 0xFF then .nan false false 0
          else .num (decide (toS 8 (ac x.1) - z < 0)) (toS 8 (ac x.1) - z).natAbs (if ta = 0x14 then (sa.1 : Int) - 127 - 6 else 0)
      vMul va (blockValue tb (bc x.2) sb.1 sb.2)
    let parts (k : Nat) : List (List (Nat × Nat)) :=
      if fp8 then [(keptAt g b c k).filter (·.1 % 32 < 16), (keptAt g b c k).filter (16 ≤ ·.1 % 32)] else [keptAt g b c k]
    let add (k y : Nat) (q : List (Nat × Nat)) : Nat :=
      (fAdd f32 .rne y (narrow f32 (if fp8 then .rtz else .rne) false 0 (vSum (q.map (prod k)))).1).1
    let run (x : Nat) (l : List Nat) : Nat := l.foldl (fun y k => (parts k).foldl (add k) y) x
    let lo := run old (blocks false)
    if g.split then (fAdd f32 .rne lo (run 0 (blocks true))).1 else lo

end Sys2Proof.Claims

/-- What an instruction at the head of a core's sequencer leaves when it completes: mzero zero bytes and flags; mtr the transpose; mma, in
each element of the accumulator, the chain of 12 R363; mms the recombined sum of R370 and R371, with the loss record set; macc the
converted elements, bounded; mxq the codes of each block under its scale word, and the scale words; mxdq the values under their scales.
Nothing else is written (12 R363, R364, R367, R370 to R373, R375 to R378). -/
def Sys2Proof.Claims.MatrixEffects : Prop :=
  ∀ (s : State) (core : Nat) (o : MatOp) (l : List MatOp),
    let x (h : Nat) : Tile := tileAt s o.crew h
    let cell (s : State) (h w i c : Nat) : Nat := Claims.cell s o.crew h w i c
    (∀ h, o.kind = .mzero h → let ds := [(h, (x h).rows, (x h).rowBytes)]
      Claims.AtHead s core o l ds → ∃ t, exec (.matrixComplete core) s = .next t ∧ Claims.Completed s t core o l ds ∧
        (tileAt t o.crew h).flags = 0 ∧ ∀ i < (x h).rows, ∀ k < (x h).rowBytes, Claims.tileByte t o.crew h i k = 0) ∧
    (∀ dst src ty, o.kind = .mtr dst src ty → (typeBits ty = 8 ∨ typeBits ty = 16 ∨ typeBits ty = 32 ∨ typeBits ty = 64) →
      let n := (x src).rowBytes / (typeBits ty / 8)
      let ds := [(dst, n, (x src).rows * typeBits ty / 8)]
      Claims.AtHead s core o l ds → ∃ t, exec (.matrixComplete core) s = .next t ∧ Claims.Completed s t core o l ds ∧
        ∀ i < (x src).rows, ∀ c < n, cell t dst (typeBits ty) c i = cell s src (typeBits ty) i c) ∧
    (∀ acc a scale ta tb w m0 zp susp g bver, o.kind = .mma acc a scale ta tb w m0 zp susp g bver →
      (zp ≠ none → ta = 1 ∨ ta = 0x14) → (susp = true → (s.pack o.pack).live = true) →
      let ds := [(acc, Claims.dimM w, 4 * Claims.dimN w)]
      Claims.AtHead s core o l ds → ∃ t, exec (.matrixComplete core) s = .next t ∧ Claims.Completed s t core o l ds ∧
        ∀ r < Claims.dimM w, ∀ c < Claims.dimN w,
          cell t acc 32 r c = Claims.mmaCell s o.crew acc a scale ta tb w m0 zp g bver r c % 2 ^ 32) ∧
    (∀ out a ty sl w m0 add rm g f, o.kind = .mms out a ty sl w m0 add rm g → laneFmt ty = some f →
      let b := Tab.get BGroup.blank (s.crew o.crew).st.bdata m0
      let ds := [(out, Claims.dimM w, Claims.dimN w * typeBits ty / 8)]
      let elem (r c : Nat) : MmsOut := mmsElem f sl (RMode.ofCode rm)
        ((List.range (Claims.dimK w)).map fun k => f.read (cell s a (typeBits ty) r k))
        ((List.range (Claims.dimK w)).map fun k => f.read (Claims.rowCode (typeBits ty) (fun j => (b.rows.getD c []).getD j 0) k))
        (if add then some (f.read (cell s out (typeBits ty) r c)) else none)
      Claims.AtHead s core o l ds → ∃ t, exec (.matrixComplete core) s = .next t ∧ Claims.Completed s t core o l ds ∧
        (∀ r < Claims.dimM w, ∀ c < Claims.dimN w, cell t out (typeBits ty) r c = (elem r c).code % 2 ^ typeBits ty) ∧
        (t.crew o.crew).st.loss.valid = true ∧ (t.crew o.crew).st.loss.tile = out ∧
        ∀ r < Claims.dimM w, ∀ c < Claims.dimN w,
          512 * r + c ∈ (t.crew o.crew).st.loss.bits ↔ (elem r c).loss = true ∨ (elem r c).win = true) ∧
    (∀ dst src ty n sat b rm, o.kind = .macc dst src ty n sat b rm → typeBits ty ≠ 0 →
      let k := (x src).rowBytes / 4
      let ds := [(dst, (x src).rows, (k * typeBits ty + 7) / 8)]
      Claims.AtHead s core o l ds → ∃ t, exec (.matrixComplete core) s = .next t ∧ Claims.Completed s t core o l ds ∧
        ∀ i < (x src).rows, ∀ c < k, cell t dst (typeBits ty) i c =
          (maccElem (x src).ty ty n (RMode.ofCode rm) sat b (cell s src 32 i c)).1 % 2 ^ typeBits ty) ∧
    (∀ dst src scale ty st sat rm f, o.kind = .mxq dst src scale ty st sat rm → laneFmt st = some f →
      (typeMx ty || typeDxb ty) = true →
      let n := (x src).rowBytes * 8 / typeBits st
      let nb := (n + 31) / 32
      let k := if typeDxb ty then 2 else 1
      let ds := [(dst, (x src).rows, nb * (4 * typeBits ty)), (scale, (x src).rows, nb * k)]
      let v (i c : Nat) : FVal := f.read (cell s src (typeBits st) i c)
      let word (i b : Nat) : Nat := (blockWord ty (((List.range 32).filter fun j => 32 * b + j < n).map fun j => v i (32 * b + j))).1
      (∀ a, (x dst).space = (x scale).space → Claims.inRows (x dst) (x src).rows (nb * (4 * typeBits ty)) a →
        ¬Claims.inRows (x scale) (x src).rows (nb * k) a) →
      Claims.AtHead s core o l ds → ∃ t, exec (.matrixComplete core) s = .next t ∧ Claims.Completed s t core o l ds ∧
        ∀ i < (x src).rows, ∀ b < nb,
          (∀ j < 32, cell t dst (typeBits ty) i (32 * b + j) =
            if 32 * b + j < n then
              (encodeElem ty (some (ScaleWord.ofNat (word i b))) (RMode.ofCode rm) sat 0 (v i (32 * b + j))).1 % 2 ^ typeBits ty
            else 0) ∧
          ∀ j < k, Claims.tileByte t o.crew scale i (b * k + j) = BitVec.ofNat 8 (word i b / 256 ^ j)) ∧
    (∀ dst src scale ty st sat rm f, o.kind = .mxdq dst src scale ty st sat rm → laneFmt ty = some f →
      (typeMx st || typeDxb st) = true →
      let nb := (x src).rowBytes / (4 * typeBits st)
      let ds := [(dst, (x src).rows, nb * (4 * typeBits ty))]
      Claims.AtHead s core o l ds → ∃ t, exec (.matrixComplete core) s = .next t ∧ Claims.Completed s t core o l ds ∧
        ∀ i < (x src).rows, ∀ j < 32 * nb,
          let d := Claims.scaleAt st (Claims.tileByte s o.crew scale i) (j / 32)
          cell t dst (typeBits ty) i j =
            (narrow f (RMode.ofCode rm) sat 0 (blockValue st (cell s src (typeBits st) i j) d.1 d.2)).1 % 2 ^ typeBits ty)

/-- An element of mms that loses nothing is the exact dot product, plus the old value with .acc, rounded once (12 R370, R371): where no
digit and no bit of the register is lost, and every operand is finite. -/
def Sys2Proof.Claims.SliceExact : Prop :=
  ∀ (f : Fmt) (sl n : Nat) (md : RMode) (a b : List FVal) (old : Option FVal),
    a.length = 64 * n → b.length = 64 * n → (∀ v ∈ a ++ b ++ old.toList, v.isNan = false ∧ v.isInf = false) →
    (∀ neg m e, old = some (.num neg m e) → m < 2 ^ 64) →
    let r := mmsElem f sl md a b old
    r.loss = false → r.win = false →
    (r.code, r.fl) = roundDy f md false 0 (md == .rdn)
      (((a.zip b).map fun v => v.1.dy.mul v.2.dy).foldl Dy.add ((old.map FVal.dy).getD ⟨0, 0⟩))

/-- mldb queues the load of a group and gives its macros their record, or traps MACRO; what mma and mms trap on, in the order of 12 R359 (12
R351, R352, R354, R357, R359, R360, R365; 15 R446). -/
def Obligations.GroupLoad : Prop := Claims.GroupLoad ∧ Claims.MatrixTraps

/-- mrel, mstat and macc into registers complete at once with their result; what each instruction of the sequencer but mldb leaves when it
completes; and an mms that loses nothing is exact (12 R362 to R364, R367, R370 to R378, R382).
Which operands mark an element invalid, and the scale of a block with a NaN or an infinity, are readings of log entry 41. -/
def Obligations.MatrixEffects : Prop := Claims.MatrixImmediate ∧ Claims.MatrixEffects ∧ Claims.SliceExact
namespace Sys2Proof.Claims

/-! ### Work graphs and device launches (13 R407 to R416) -/

/-- The graph of the issuing pack's launch. -/
def graph (s : State) : Graph := (s.launch (s.pack s.cur).launch).graph

/-- The record states are in canonical form and name no record outside the pool. -/
def graphWf (g : Graph) : Prop := Tab.wf Rec.free g.recs = true ∧ ∀ h, g.pooln ≤ h → g.record h = Rec.free

/-- Records of the pool in use. -/
def usedRecs (g : Graph) : Nat := ((List.range g.pooln).filter fun h => g.record h ≠ Rec.free).length

/-- Record `h` becomes `r`; the other records, the nodes and the rest of the machine but the issuing pack stay. -/
structure RecDone (s t : State) (h : Nat) (r : Rec) : Prop where
  entry : (t.launch (s.pack s.cur).launch).graph.record h = r
  others : ∀ k, k ≠ h → (t.launch (s.pack s.cur).launch).graph.record k = (graph s).record k
  nodes : (t.launch (s.pack s.cur).launch).graph.nodes = (graph s).nodes
  mem : t.mem = s.mem
  packs : ∀ k, k ≠ s.cur → t.pack k = s.pack k
  launches : ∀ k, k ≠ (s.pack s.cur).launch → t.launch k = s.launch k
  crews : t.crews = s.crews

end Sys2Proof.Claims

/-- grec takes the lowest free record, which becomes held by the crew; with none free grec.try answers all ones and grec waits, counted;
gfree marks a held or delivered record for freeing; gpool reads the used and free counts, gpool.node the node's counters (13 R410, R414,
R417). -/
def Sys2Proof.Claims.GraphRecords : Prop :=
  (∀ (e : Enc) (s : State) (h : Nat), Issuable (.grec e) s → Claims.Free s → (Claims.graph s).present = true →
    Claims.graphWf (Claims.graph s) → h < (Claims.graph s).pooln → (Claims.graph s).record h = Rec.free →
    (∀ k < h, (Claims.graph s).record k ≠ Rec.free) →
    ∃ t, exec (.grec e) s = .next (completed s t e 0) ∧ Claims.RecDone s t h ⟨.held, (issuing s).crew, true, none⟩ ∧
      t.pack s.cur = wrS (issuing s) e.d.toNat (BitVec.ofNat 64 h)) ∧
  (∀ (e : Enc) (s : State), Issuable (.grec e) s → Claims.Free s → (Claims.graph s).present = true →
    Claims.graphWf (Claims.graph s) → (∀ k < (Claims.graph s).pooln, (Claims.graph s).record k ≠ Rec.free) →
    exec (.grec e) s = .next
      (if encModBit e 0 = true then completedPack s (wrS (issuing s) e.d.toNat 0xFFFFFFFFFFFFFFFF) e 0
       else waitsIn s ((issued s).count ctrGrStall 0 1) e .record [])) ∧
  (∀ (e : Enc) (s : State) (h : Nat), Issuable (.gfree e) s → Claims.Free s → (Claims.graph s).present = true →
    h = (rdS (issuing s) (encA e)).toNat → h < 2 ^ 24 → h < (Claims.graph s).pooln →
    let r := (Claims.graph s).record h
    (r.state = .held ∨ r.state = .delivered) → r.freeing = none →
    ∃ t, exec (.gfree e) s = .next (completed s t e 0) ∧ Claims.RecDone s t h { r with freeing := some (issuing s).crew } ∧
      t.pack s.cur = issuing s) ∧
  (∀ (e : Enc) (s : State), Issuable (.gpool e) s → Claims.Free s → (Claims.graph s).present = true →
    let g := Claims.graph s
    let answer (v : Nat) : Prop := exec (.gpool e) s = .next (completedPack s (wrS (issuing s) e.d.toNat (BitVec.ofNat 64 v)) e 0)
    (encModBit e 0 = false → Claims.graphWf g → g.pooln < 2 ^ 24 →
      answer (Claims.usedRecs g * 2 ^ 24 + (g.pooln - Claims.usedRecs g))) ∧
    (encModBit e 0 = true → ∀ n x, n = (rdS (issuing s) (encB e)).toNat → n ≠ 0 → g.nodes[n]? = some x →
      answer (x.launched % 2 ^ 32 * 2 ^ 32 + nodeCrews (issued s) (issuing s).launch n % 2 ^ 16 * 2 ^ 16 + x.fill.length % 2 ^ 16)))

/-- gemit, after the commit of an exposure, moves a record into the open batch of a node; the batch launches when it holds BATCH records,
which are then delivered to a crew to be placed (13 R411, R414).  (In Track mode the joins have their recorded order, which the
premise Free leaves out.) -/
def Sys2Proof.Claims.GraphEmit : Prop :=
  ∀ (e : Enc) (s s1 : State) (h n : Nat) (x : Node), Issuable (.gemit e) s → Claims.Free s → (Claims.graph s).present = true →
    let p := issuing s
    let lid := p.launch
    let g := Claims.graph s
    let r := g.record h
    h = (rdS p (encA e)).toNat → h < 2 ^ 24 → h < g.pooln → n = (rdS p (encB e)).toNat → n ≠ 0 → n < g.nodes.length →
    (r.state = .held ∨ r.state = .delivered) →
    expose (issued s) s.cur = .ok s1 → (s1.pack s.cur).launch = lid → (s1.launch lid).hdr.dmode = 0 → s1.cur = s.cur →
    (s1.launch lid).graph.nodes[n]? = some x →
    ∃ t, exec (.gemit e) s = .next (completed s t e 0) ∧ t.mem = s1.mem ∧ t.packs = s1.packs ∧ t.crews = s1.crews ∧
      (∀ m, m ≠ n → (t.launch lid).graph.nodes[m]? = (s1.launch lid).graph.nodes[m]?) ∧
      (x.fill.length + 1 < x.batch →
        (t.launch lid).graph.nodes[n]? = some { x with fill := x.fill ++ [h] } ∧
        (t.launch lid).graph.ready = (s1.launch lid).graph.ready ∧
        ((t.launch lid).graph.record h).state = .emitted ∧
        ∀ k, k ≠ h → (t.launch lid).graph.record k = (s1.launch lid).graph.record k) ∧
      (x.batch ≤ x.fill.length + 1 →
        (t.launch lid).graph.nodes[n]? = some { x with fill := [], launched := x.launched + 1 } ∧
        (∃ lin, (t.launch lid).graph.ready = (s1.launch lid).graph.ready ++ [(lin, n, x.fill ++ [h])]) ∧
        (∀ k ∈ x.fill ++ [h], ((t.launch lid).graph.record k).state = .delivered) ∧
        ∀ k, k ∉ x.fill ++ [h] → (t.launch lid).graph.record k = (s1.launch lid).graph.record k)

/-- The traps of the graph instructions: outside a graph launch, with a handle or node outside its range, ILLOP 13, and with a record in
a state not accepted ILLOP 14; all four trap RACE 2 in Strict mode (13 R414). -/
def Sys2Proof.Claims.GraphTraps : Prop :=
  ∀ (i : Instr) (e : Enc) (s : State), (i = .grec e ∨ i = .gemit e ∨ i = .gfree e ∨ i = .gpool e) → Issuable i s → issueMask s e ≠ 0 →
    let g := Claims.graph s
    let m := issueMask s e
    let h := rdS (issuing s) (encA e)
    let n := rdS (issuing s) (encB e)
    let r := g.record h.toNat
    (g.present = false → ∃ x, exec i s = .next (trapped s e ⟨clsIllop, 13, x, m⟩)) ∧
    (g.present = true → (i = .gemit e ∨ i = .gfree e) →
      (2 ^ 24 ≤ h.toNat ∨ g.pooln ≤ h.toNat → exec i s = .next (trapped s e ⟨clsIllop, 13, h, m⟩)) ∧
      (h.toNat < 2 ^ 24 → h.toNat < g.pooln → (i = .gemit e → n ≠ 0 ∧ n.toNat < g.nodes.length) →
        ¬(r.state = .held ∨ r.state = .delivered) → exec i s = .next (trapped s e ⟨clsIllop, 14, h, m⟩)) ∧
      (h.toNat < 2 ^ 24 → h.toNat < g.pooln → i = .gemit e → n = 0 ∨ g.nodes.length ≤ n.toNat →
        exec i s = .next (trapped s e ⟨clsIllop, 13, n, m⟩))) ∧
    (g.present = true → s.isStrict (issuing s).launch = true →
      (i = .gemit e ∨ i = .gfree e → h.toNat < 2 ^ 24 ∧ h.toNat < g.pooln ∧ (r.state = .held ∨ r.state = .delivered)) →
      (i = .gfree e → r.freeing = none) →
      (i = .gemit e ∨ i = .gpool e ∧ encModBit e 0 = true → n ≠ 0 ∧ n.toNat < g.nodes.length) →
      ∃ x, exec i s = .next (trapped s e ⟨clsRace, 2, x, m⟩))

/-- lnch enters a device launch in the package table after the commit of an exposure and writes 1 to its predicate, or 0 with a full
table; under an all-zero mask it does nothing (13 R407). -/
def Sys2Proof.Claims.DeviceLaunch : Prop :=
  ∀ (e : Enc) (s : State), Issuable (.lnch e) s →
    let p := issuing s
    let l := s.launch p.launch
    let k := rdY p (encA e)
    (issueMask s e = 0 → exec (.lnch e) s = .next (completed s (issued s) e 0)) ∧
    (issueMask s e ≠ 0 → Claims.Free s → k.tag = true → k.space = 0 → (Claims.supervisor s = true ∨ k.has pmSuper = false) →
      k.has pmLoad = true → k.base ≤ k.cursor → k.cursor + 320 ≤ k.top → k.cursor % 64 = 0 →
      ∀ s1, expose (issued s) s.cur = .ok s1 → s1.cur = s.cur → (s1.pack s.cur).launch = p.launch →
        (s1.launch p.launch).hdr.dmode = 0 →
        ∃ t, exec (.lnch e) s = .next (completed s t e 0) ∧ t.mem = s1.mem ∧ t.crews = s1.crews ∧ t.launches = s1.launches ∧
          Claims.PredAll s e e.d.toNat (decide (s1.devLaunches.length < 4096)) (s1.pack s.cur) (t.pack s.cur) ∧
          t.devLaunches = s1.devLaunches ++ if s1.devLaunches.length < 4096 then
            [⟨l.queue, l.asid, k.cursor, (rdS p (encB e)).toNat, l.prio, s.cur, l.supervisor, none⟩] else []) ∧
    (issueMask s e ≠ 0 → s.isStrict p.launch = true → k.tag = true → k.space = 0 → k.has pmSuper = false → k.has pmLoad = true →
      k.base ≤ k.cursor → k.cursor + 320 ≤ k.top → k.cursor % 64 = 0 →
      ∃ x, exec (.lnch e) s = .next (trapped s e ⟨clsRace, 2, x, issueMask s e⟩))

namespace Sys2Proof.Claims

/-! ### Geometry (14) -/

/-- An operation of an engine has been queued: a new operation of kind `k` on `unit`, the pack's count one more, no byte changed since
`s1`. -/
structure GeoQueued (s s1 t : State) (unit : Nat) (k : GeoKind) : Prop where
  op : ∃ n, t.geoOp n = some ⟨unit, (s.pack s.cur).crew, s.cur, (s.launch (s.crew (s.pack s.cur).crew).launch).asid, k, none, n⟩ ∧
    s1.geoOp n = none ∧ ∀ m, m ≠ n → t.geoOp m = s1.geoOp m
  pack : t.pack s.cur = { s1.pack s.cur with geo := (s1.pack s.cur).geo + 1 }
  packs : ∀ m, m ≠ s.cur → t.pack m = s1.pack m
  mem : t.mem = s1.mem
  crews : t.crews = s1.crews

/-- Outstanding operations of one kind on a unit. -/
def geoCount (s : State) (unit : Nat) (cut : Bool) : Nat := geosOn s unit cut

/-- A capability that an engine may use over `n` bytes from `at_`. -/
def usable (s : State) (k : Cap) (spaces : List Nat) (perm at_ n : Nat) : Prop :=
  k.tag = true ∧ k.space ∈ spaces ∧ (supervisor s = true ∨ k.has pmSuper = false) ∧ k.has perm = true ∧ k.base ≤ at_ ∧ at_ + n ≤ k.top

/-- The four parameter registers. -/
def params (s : State) (e : Enc) : List Nat := (List.range 4).map fun k => (rdS (issuing s) (encB e + k)).toNat

end Sys2Proof.Claims

/-- cutsel and rsub take a place in their engine's queue when their parameters and capabilities pass the checks of 14 R438, and stall on a
full queue (16 and 32 operations); rwait completes once few enough of the pack's operations are outstanding, observing those complete, and stalls before (14 R418,
R419, R424, R431, R434, R438, R439).  rsub first commits as an exposure; under an all-zero mask it does nothing. -/
def Sys2Proof.Claims.GeometryIssue : Prop :=
  (∀ (e : Enc) (s : State), Issuable (.cutsel e) s → s.geoOp s.fresh = none →
    let p := issuing s
    let w := Claims.params s e
    let ray := encModBit e 0
    let val := encModBit e 1
    let ya := rdY p (encA e)
    let yc := rdY p (encC e)
    let lcap := w.getD 2 0 % 2 ^ 32
    let qcap := w.getD 2 0 / 2 ^ 32
    let unit := (s.crew p.crew).core / 128
    ya.tag = true → (ya.space = 0 ∨ ya.space = 1) → (Claims.supervisor s = true ∨ ya.has pmSuper = false) → ya.has pmLoad = true →
    (val = true ∨
      (gFinite (w.getD 0 0 % 2 ^ 32) = true ∧ (gPositive (w.getD 0 0 % 2 ^ 32) = true ∨ (f32.read (w.getD 0 0 % 2 ^ 32)).isZero = true) ∧
        gPositive (w.getD 0 0 / 2 ^ 32) = true ∧
        w.getD 1 0 % 2 ^ 32 ≤ 127 ∧ 1 ≤ w.getD 1 0 / 2 ^ 32 ∧ w.getD 1 0 % 2 ^ 32 + w.getD 1 0 / 2 ^ 32 ≤ 128 ∧
        lcap ≤ 2 ^ 24 ∧ qcap ≤ 2 ^ 24 ∧ w.getD 3 0 % 256 = 0 ∧
        Claims.usable s yc (if ray then [0, 4] else [0]) pmStore yc.cursor
          (if ray then 64 + 4104 * lcap + 8 * qcap else 8 * lcap + 8 * qcap) ∧
        yc.cursor % (if ray then 64 else 8) = 0)) →
    (Claims.geoCount s unit true < 16 → ∃ t, exec (.cutsel e) s = .next (completed s t e 0) ∧
      Claims.GeoQueued s (issued s) t unit (.cutsel ya yc w ray val (encD e))) ∧
    (16 ≤ Claims.geoCount s unit true → exec (.cutsel e) s = .next (stalledIn s (issued s)))) ∧
  (∀ (e : Enc) (s : State), Issuable (.rsub e) s →
    let p := issuing s
    let w := Claims.params s e
    let pre := encModBit e 0
    let yd := rdY p (encD e)
    let ya := rdY p (encA e)
    let yg := rdY p (w.getD 2 0 % 8)
    let f := w.getD 0 0 % 2 ^ 32
    let n := w.getD 0 0 / 2 ^ 32
    let wd := w.getD 1 0 % 2 ^ 16
    let h := w.getD 1 0 / 2 ^ 16 % 2 ^ 16
    let pitch := w.getD 1 0 / 2 ^ 32
    let size := if pre then 2560 else 8
    let unit := (s.crew p.crew).core / 8
    (issueMask s e = 0 → exec (.rsub e) s = .next (completed s (issued s) e 0)) ∧
    (issueMask s e ≠ 0 → f + n ≤ 2 ^ 18 → 1 ≤ wd → wd ≤ 16384 → 1 ≤ h → h ≤ 16384 → wd ≤ pitch →
      w.getD 2 0 % 2 ^ 32 < 8 → w.getD 2 0 / 2 ^ 32 % 256 = 0 → w.getD 3 0 = 0 →
      (pre = false → yg.tag = true ∧ (yg.space = 0 ∨ yg.space = 1) ∧ (Claims.supervisor s = true ∨ yg.has pmSuper = false) ∧
        yg.has pmLoad = true) →
      Claims.usable s ya [0, 2, 3, 4] pmLoad (ya.cursor + size * f) (size * n) →
      Claims.usable s yd [0, 2, 3, 4] (pmLoad + pmStore) yd.cursor (8 * (pitch * (h - 1) + wd)) →
      yd.cursor % 8 = 0 → ya.cursor % (if pre then 64 else 8) = 0 →
      (32 ≤ Claims.geoCount s unit false → exec (.rsub e) s = .next (stalledIn s (issued s))) ∧
      ∀ s1, Claims.geoCount s unit false < 32 → expose (issued s) s.cur = .ok s1 → s1.cur = s.cur → (s1.pack s.cur).crew = p.crew →
        (s1.crew p.crew).launch = (s.crew p.crew).launch →
        (s1.launch (s.crew p.crew).launch).asid = (s.launch (s.crew p.crew).launch).asid → s1.geoOp s1.fresh = none →
        ∃ t, exec (.rsub e) s = .next (completed s t e 0) ∧ Claims.GeoQueued s s1 t unit (.rsub yd ya yg w pre (encModBit e 1)))) ∧
  (∀ (e : Enc) (s : State), Issuable (.rwait e) s →
    exec (.rwait e) s = .next
      (if (issuing s).geo ≤ e.b.toNat then completedPack s (observe (issuing s) fun o => o.2.1 == 2) e 0 else stalledIn s (issued s)))

/-- An operation that completes frees its place and lowers its pack's count; cutsel.val writes its result, and cutsel the status word of
R430: entries and requests written, what did not fit, a lost top group, and instances skipped (14 R419, R424, R430); an operation that
waits for a page, whose crew is away, or that an older one of its engine is ahead of, stays (14 R418, R438). -/
def Sys2Proof.Claims.GeometryCompletion : Prop :=
  (∀ (s : State) (id : Nat) (g : GeoOp) (ya yc : Cap) (w : List Nat) (ray : Bool) (sd : Nat) (n : Nat) (log : GLog),
    s.geoOp id = some g → g.kind = .cutsel ya yc w ray true sd → g.stall = none → onCore s g.crew = true → (s.pack g.pack).live = true →
    engineHead s g = true → g.pack ∈ (s.crew g.crew).packs → (s.launch (s.crew g.crew).launch).hdr.dmode = 0 →
    s.isStrict (s.pack g.pack).launch = false → (∀ x ∈ log, ∀ a, x.gate = some a → Claims.noPartials s a) →
    (validate ⟨s, g.crew, g.asid, none, []⟩ ya ya.cursor).run.run [] = (.ok n, log) →
    ∃ t, exec (.cutselComplete id) s = .next t ∧ t.geoOp id = none ∧ t.mem = s.mem ∧
      t.pack g.pack = { wrS (s.pack g.pack) sd (BitVec.ofNat 64 n) with geo := (s.pack g.pack).geo - 1 } ∧
      ∀ k, k ≠ g.pack → t.pack k = s.pack k) ∧
  (∀ (s : State) (id : Nat) (g : GeoOp) (ya yc : Cap) (w : List Nat) (ray : Bool) (sd : Nat) (o : CutOut) (log : GLog) (ws : List GWrite),
    s.geoOp id = some g → g.kind = .cutsel ya yc w ray false sd → sd < 64 → g.stall = none → onCore s g.crew = true →
    (s.pack g.pack).live = true → engineHead s g = true → g.pack ∈ (s.crew g.crew).packs →
    (s.launch (s.crew g.crew).launch).hdr.dmode = 0 → s.isStrict (s.pack g.pack).launch = false → yc.space ≠ 2 →
    let env : GEnv := ⟨s, g.crew, g.asid, none, []⟩
    let word (i k : Nat) : Nat := w.getD i 0 / 2 ^ (32 * k) % 2 ^ 32
    let insts := (List.range (word 1 1)).map (word 1 0 + ·)
    (cutAll env ya (ya.cursor + w.getD 3 0) (word 0 0) (word 0 1) ray insts ⟨[], [], [], false, false, false, 0⟩).run.run [] = (.ok o, log) →
    geoWrites env yc (cutOutput yc w ray o).1 = .ok ws →
    let pages := (nubNat (o.noted.map (·.1))).length
    let status := min o.sel.length (word 2 0) + 2 ^ 32 * (min pages (word 2 1) % 2 ^ 16) +
      2 ^ 48 * bit (decide (word 2 0 < o.sel.length)) + 2 ^ 49 * bit (decide (word 2 1 < pages)) + 2 ^ 50 * bit o.miss +
      2 ^ 51 * bit o.bad + 2 ^ 52 * bit o.oob
    ∃ t, exec (.cutselComplete id) s = .next t ∧ t.geoOp id = none ∧ rdS (t.pack g.pack) sd = BitVec.ofNat 64 status ∧
      (t.pack g.pack).geo = (s.pack g.pack).geo - 1) ∧
  (∀ (s : State) (id : Nat) (i : Instr), (i = .cutselComplete id ∨ i = .rsubComplete id) →
    (s.geoOp id = none ∨ ∃ g, s.geoOp id = some g ∧ (g.stall ≠ none ∨ onCore s g.crew = false ∨ engineHead s g = false)) → exec i s = .next s)

/-- A fragment of an unsigned maximum: the pixel, in SPM2, SPM3 or memory, keeps the larger word, so that the buffer does not depend on the
order of fragments (14 R433). -/
def Sys2Proof.Claims.FragmentOrder : Prop :=
  ∀ (s : State) (g : GeoOp) (k : Cap) (x y : Machine.GWrite),
    (∃ o p q, (x.loc = .spm2 o p ∧ y.loc = .spm2 o q ∨ x.loc = .spm3 o p ∧ y.loc = .spm3 o q ∨
        x.loc = .phys p ∧ y.loc = .phys q ∧
          ∀ a, (a = p ∨ a = q) → a % 8 = 0 ∧ reachable s a = true ∧ Claims.noPartials s (a / 64)) ∧
      (p = q ∨ p + 8 ≤ q ∨ q + 8 ≤ p)) → x.bytes.length = 8 → y.bytes.length = 8 →
    let r := writeFrag g k s x
    r.locBytes x.loc 8 = leBytes (max (leNat (s.locBytes x.loc 8)) (leNat x.bytes)) 8 ∧
    (writeFrag g k (writeFrag g k s x) y).locBytes x.loc 8 = (writeFrag g k (writeFrag g k s y) x).locBytes x.loc 8

namespace Sys2Proof.Claims

/-- Only the queries of the issuing crew have changed, and the issuing pack. -/
structure OnlyRays (s t : State) : Prop where
  mem : t.mem = s.mem
  packs : ∀ k, k ≠ s.cur → t.pack k = s.pack k
  crews : ∀ c, c ≠ (s.pack s.cur).crew → t.crew c = s.crew c
  crew : let c := (s.pack s.cur).crew
    { t.crew c with st := { (t.crew c).st with rays := [] } } = { s.crew c with st := { (s.crew c).st with rays := [] } }
  pads : t.gangs = s.gangs ∧ t.troops = s.troops

/-- What a thread's query delivers, `x`, with the region read as `env` reads it: the least candidate, in the order of R436, above the last
one delivered, or none where there is no such candidate.  The candidates are those of the tree of each list entry that can be read (14
R429, R435, R436). -/
def NextOf (env : GEnv) (q : RayQuery) (x : Option RayHit) : Prop :=
  let k := q.region
  let above (h : RayHit) : Prop := ∀ y, q.last = some y → y.before h = true
  ∀ r b, rayOf (q.ray.map (·.toNat)) = some r → k.tag = true → k.has pmLoad = true → k.space ≤ 4 →
    ((geoRead env k k.cursor 8).run.run []).1 = .ok b →
    ∃ lcap, ∀ cand : RayHit → Prop,
      (∀ h, cand h ↔ h.idx < leNat (b.take 4) ∧ h.idx ≤ (k.top - k.cursor) / 4096 ∧
        ∃ tree, ((geoRead env k (k.cursor + 64 + 8 * lcap + 4096 * h.idx) 4096).run.run []).1 = .ok tree ∧
          h ∈ treeHits (q.ray.map (·.toNat)) r h.idx tree) →
      match x with
      | none => ∀ h, cand h → ¬above h
      | some h => cand h ∧ above h ∧ ∀ y, cand y → above y → y.before h = false

end Sys2Proof.Claims

/-- rayq starts a query of each thread of the mask, replacing the thread's own; raynx.commit delivers the current candidate and
raynx.abort none, and both end the query; raynx.next delivers the least candidate above the last one in the key's order, each thread by
its own reads, and ends without a trap a query whose region faults fatally, which delivers none (14 R435, R436, R438).  Nothing else of
the crew and no byte changes. -/
def Sys2Proof.Claims.RayQueries : Prop :=
  (∀ (e : Enc) (s : State), Issuable (.rayq e) s →
    let p := issuing s
    let l := lanesOf (issueMask s e) p.width
    ∃ t, exec (.rayq e) s = .next (completed s t e 0) ∧ Claims.OnlyRays s t ∧ t.packs = (issued s).packs ∧
      (∀ u < 64, Tab.get none (t.crew p.crew).st.rays (64 * p.idx + u) = if u ∈ l then
          some ⟨(List.range 8).map fun k => BitVec.ofNat 32 (rdV p (encA e + k) u), rdY p (encB e), none, none⟩
        else Tab.get none (s.crew p.crew).st.rays (64 * p.idx + u)) ∧
      (∀ k, k < 64 * p.idx ∨ 64 * p.idx + 64 ≤ k →
        Tab.get none (t.crew p.crew).st.rays k = Tab.get none (s.crew p.crew).st.rays k)) ∧
  (∀ (e : Enc) (s : State), Issuable (.raynx e) s → encMod e ≠ 0 →
    let p := issuing s
    let l := lanesOf (issueMask s e) p.width
    let hit (u : Nat) : Option RayHit :=
      if encMod e = 1 then (Tab.get none (s.crew p.crew).st.rays (64 * p.idx + u)).bind (·.current) else none
    ∃ t, exec (.raynx e) s = .next (completed s t e 0) ∧ Claims.OnlyRays s t ∧
      (∀ u ∈ l, Tab.get none (t.crew p.crew).st.rays (64 * p.idx + u) = none) ∧
      (∀ k, (∀ u ∈ l, k ≠ 64 * p.idx + u) →
        Tab.get none (t.crew p.crew).st.rays k = Tab.get none (s.crew p.crew).st.rays k) ∧
      VecDone l (fun u => match hit u with
        | none => [(encD e, 0x7F800000), (encD e + 1, 0), (encD e + 2, 0), (encD e + 3, 0xFFFFFFFF)]
        | some h => (List.range 4).zip h.out |>.map fun x => (encD e + x.1, x.2.toNat)) p (t.pack s.cur)) ∧
  (∀ (e : Enc) (s : State), Issuable (.raynx e) s → encMod e = 0 → Claims.Free s →
    let p := issuing s
    let l := lanesOf (issueMask s e) p.width
    let env : GEnv := ⟨issued s, p.crew, (s.launch (s.crew p.crew).launch).asid, none, []⟩
    let runs := threadRuns (threadHit env (s.crew p.crew).st p.idx) l
    let hs := runValues runs
    stopUce (runStops runs) = none → (∀ f ∈ stopFaults (runStops runs), replayable f.code = false) →
    (∀ x ∈ runLog runs, ∀ a, x.gate = some a → Claims.noPartials s a) →
    ∃ t, exec (.raynx e) s = .next (completed s t e 0) ∧ Claims.OnlyRays s t ∧
      (∀ k, (∀ u ∈ l, k ≠ 64 * p.idx + u) →
        Tab.get none (t.crew p.crew).st.rays k = Tab.get none (s.crew p.crew).st.rays k) ∧
      (∀ u h q, (u, h) ∈ hs → Tab.get none (s.crew p.crew).st.rays (64 * p.idx + u) = some q → Claims.NextOf env q h) ∧
      (∀ x ∈ runStops runs, Tab.get none (t.crew p.crew).st.rays (64 * p.idx + x.1) = none) ∧
      (∀ u h, (u, h) ∈ hs → Tab.get none (t.crew p.crew).st.rays (64 * p.idx + u) =
        match Tab.get none (s.crew p.crew).st.rays (64 * p.idx + u), h with
        | some q, some x => some { q with last := some x, current := some x }
        | _, _ => none) ∧
      VecDone l (fun u => match (hs.find? fun x => x.1 == u).bind (·.2) with
        | none => [(encD e, 0x7F800000), (encD e + 1, 0), (encD e + 2, 0), (encD e + 3, 0xFFFFFFFF)]
        | some h => (List.range 4).zip h.out |>.map fun x => (encD e + x.1, x.2.toNat)) p (t.pack s.cur))

/-- The five words of clfetch for index `i`: the last names the cluster's NV, NT and MAT as its header reads; a cluster whose counts
are not 1 to 128 gives four zeros; else a vertex has each coordinate, the origin's plus the stored count times 2^PE, rounded once, and
zeros past the vertices; a triangle its three indices, with bit 31 where each names a vertex, and zero past the triangles (14 R421, R422,
R440). -/
def Sys2Proof.Claims.Fetched (env : GEnv) (k : Cap) (at_ i : Nat) (w : List Nat) : Prop :=
  ∃ b, ((geoRead env k at_ 64).run.run []).1 = .ok b ∧
    let c := parseCluster b
    w.length = 5 ∧ w[4]? = some (c.nv + c.nt * 2 ^ 8 + c.mat * 2 ^ 16) ∧
    (c.nv = 0 ∨ 128 < c.nv ∨ c.nt = 0 ∨ 128 < c.nt → w.take 4 = [0, 0, 0, 0]) ∧
    (c.nv ≤ i → w.take 3 = [0, 0, 0]) ∧ (c.nt ≤ i → w[3]? = some 0) ∧
    let page := at_ / 2 ^ 17 * 2 ^ 17
    (1 ≤ c.nv → c.nv ≤ 128 → 1 ≤ c.nt → c.nt ≤ 128 →
      (i < c.nv → ∃ v, ((geoRead env k (page + c.voff + 6 * i) 6).run.run []).1 = .ok v ∧
        ∀ j < 3, ∀ n m x, f32.read (c.origin.getD j 0) = .num n m x → w[j]? =
          some (roundDy f32 .rne false 0 false ((FVal.num n m x).dy.add ⟨toS 16 (leNat ((v.drop (2 * j)).take 2)), c.pe⟩)).1) ∧
      (i < c.nt → ∃ l, ((readStrip env k page c.ioff (i + 1)).run.run []).1 = .ok l ∧
        ∀ t0 t1 t2 y, l[i]? = some (t0, t1, t2, y) → w[3]? =
          some (t0 + t1 * 2 ^ 8 + t2 * 2 ^ 16 + 2 ^ 31 * bit (decide (t0 < c.nv ∧ t1 < c.nv ∧ t2 < c.nv)))))

/-- clfetch writes five words to each thread of the mask from the cluster that it reads: NV, NT and MAT, the thread's vertex and its
triangle; with an all-zero mask nothing happens; a header outside yA, and a thread's own read outside it, trap CAPV 5, the second for
the threads that read so (14 R440). -/
def Sys2Proof.Claims.ClusterFetch : Prop :=
  ∀ (e : Enc) (s : State), Issuable (.clfetch e) s →
    let p := issuing s
    let l := lanesOf (issueMask s e) p.width
    let k := rdY p (encA e)
    let at_ := (rdS p (encB e)).toNat % 2 ^ 40 * 64
    let env : GEnv := ⟨issued s, p.crew, if k.space = 6 then 0 else (s.launch (s.crew p.crew).launch).asid,
      some (s.crew p.crew).core, (s.crew p.crew).isb⟩
    (l = [] → exec (.clfetch e) s = .next (completed s (issued s) e 0)) ∧
    (l ≠ [] → (∀ y ∈ s.spillsOf (s.crew p.crew).core, y.pack ≠ s.cur) → Claims.usable s k [0, 1, 2, 3, 4, 5, 6, 8, 9] pmLoad at_ 64 → (k.space = 6 → Claims.supervisor s = true) → Claims.Free s →
      let runs := threadRuns (fun u => clThread env k at_ (encMod e * p.width + u)) l
      (∀ x r, stopBounds (runStops runs) = x :: r →
        exec (.clfetch e) s = .next (trapped s e ⟨clsCapv, 5, BitVec.ofNat 64 x.2, maskOf ((x :: r).map (·.1))⟩)) ∧
      (laneStops (runStops runs) = none → (∀ x ∈ runLog runs, ∀ a, x.gate = some a → Claims.noPartials s a) →
      ∃ t, exec (.clfetch e) s = .next (completed s t e 0) ∧ t.mem = s.mem ∧
        VecDone l (fun u => (List.range 5).map fun j =>
          (encD e + j, ((((runValues runs).find? fun x => x.1 == u).map (·.2)).getD []).getD j 0)) p (t.pack s.cur)) ∧
      (∀ x ∈ runValues runs, Claims.Fetched env k at_ (encMod e * p.width + x.1) x.2)) ∧
    (l ≠ [] → k.tag = true → k.space ∈ [0, 1, 2, 3, 4, 5, 8, 9] → (Claims.supervisor s = true ∨ k.has pmSuper = false) →
      k.has pmLoad = true → at_ < k.base ∨ k.top < at_ + 64 →
      exec (.clfetch e) s = .next (trapped s e ⟨clsCapv, 5, BitVec.ofNat 64 at_, issueMask s e⟩))

/-- dmark outside Track mode does nothing (16 R492). -/
def Sys2Proof.Claims.Marks : Prop :=
  ∀ (e : Enc) (s : State), Issuable (.dmark e) s → s.isTrack (issuing s).launch = false →
    exec (.dmark e) s = .next (completed s (issued s) e 0)

/-- tbnd sets one entry of the launch's bound table; sflg reads %sflag and with .clr clears the bits named; dmark outside Track mode does
nothing (15 R452, R466; 16 R492). -/
def Obligations.BoundsStatusMarks : Prop := Claims.BoundsAndStatus ∧ Claims.Marks

/-- grec takes the lowest free record, or fails, or waits; gfree marks a record; gpool reads counts; and the ILLOP and RACE traps of the graph
instructions (13 R410, R414, R417). -/
def Obligations.GraphRecords : Prop := Claims.GraphRecords ∧ Claims.GraphTraps

/-- gemit moves a record into the open batch of its node, which launches when it is full; lnch enters a device launch in the package table
(13 R407, R411, R414). -/
def Obligations.GraphEmit : Prop := Claims.GraphEmit ∧ Claims.DeviceLaunch

/-- cutsel and rsub take a place in their engine's queue or stall, and rwait completes or stalls; a validation or a selection that completes
writes its status; an operation that waits stays; two fragments leave the same word in either order (14 R418, R419, R424, R430, R431, R433,
R434, R438, R439).
What a refinement reads, and when, is a reading (log entry 59). -/
def Obligations.Geometry : Prop := Claims.GeometryIssue ∧ Claims.GeometryCompletion ∧ Claims.FragmentOrder

/-- rayq starts a query, raynx delivers the next candidate or ends the query, and clfetch writes the five words of a cluster's vertex and
triangle or traps CAPV 5 (14 R435, R436, R440).
The layout of a ray tree, and the corner values of a ray, are the model's (log entry 60). -/
def Obligations.RayQueries : Prop := Claims.RayQueries ∧ Claims.ClusterFetch
namespace Sys2Proof.Claims

/-! ### Events of the device's own -/

/-- A write of `n` bytes at a physical address meets no partial and reaches its home (10 R291; 17 R495). -/
def calmAt (s : State) (pa n : Nat) : Prop :=
  reachable s pa = true ∧ ∀ g, pa / 64 ≤ g → g ≤ (pa + n - 1) / 64 → noPartials s g

/-- Of a pack, everything that a trap at its present instruction sets (15 R444, R447, R448). -/
structure Trapped (q p : Pack) (cls sub : Nat) (mask : BitVec 64) : Prop where
  epc : q.tepc = packPc p
  cause : q.tcause = BitVec.ofNat 32 (sub % 2 ^ 16 * 2 ^ 8 + cls % 2 ^ 8)
  mask : q.tmask = mask
  handler : q.save.inHandler = true
  waits : q.wait = Wait.none

/-- The pack takes traps: its launch has a handler, in which it is not already, and its crew is on its core. -/
def mayTrap (s : State) (k : Nat) : Prop :=
  (s.pack k).live = true ∧ onCore s (s.pack k).crew = true ∧ (s.launch (s.pack k).launch).hdr.trap ≠ 0 ∧ (s.pack k).save.inHandler = false

/-- The completion event of a management command joins the waiting events, and the command is over (17 R500). -/
structure Answered (s t : State) (tag : W32) (status : W64) : Prop where
  event : t.events = s.events ++ [leBytes 1 1 ++ leBytes 0 3 ++ leBytes tag.toNat 4 ++ leBytes status.toNat 8 ++ leBytes 0 16 ++
    List.replicate 32 0]
  ended : t.cmd = none

/-- The granules of the next command's place in the ring hold no partials. -/
def quietCmd (s : State) : Prop := ∀ g, hostPa (cmdAt s) / 64 ≤ g → g ≤ (hostPa (cmdAt s) + 63) / 64 → noPartials s g

/-- The next command on the ring is `b`, well formed, of opcode `op`, and its bytes are at their home. -/
def nextCmd (s : State) (op : Nat) (b : List Byte) : Prop :=
  s.cmd = none ∧ peekCmd s = some b ∧ cmdOp b = op ∧ cmdBad b = false ∧ quietCmd s

/-- The next packet of a queue may be taken and is `b`; `s1` is the state after its bytes were read (13 R390). -/
def nextPkt (s s1 : State) (n : Nat) (b : List Byte) : Prop :=
  canTake (s.queue n) = true ∧ readPkt s n = .ok (s1, b) ∧ ((pktOrd b = true ∨ pktType b = 4 ∨ pktType b = 6) → (s.queue n).pkts = [])

/-- Of queues that may lose a slot, each the pair of its number and its state, `x` has the lowest priority, and among those of that
priority has held its slot longest. -/
def loser (l : List (Nat × Queue)) (x : Nat × Queue) : Prop :=
  x ∈ l ∧ ∀ y ∈ l, y.1 ≠ x.1 → x.2.prio < y.2.prio ∨ x.2.prio = y.2.prio ∧ x.2.slotOrder < y.2.slotOrder

/-- Queue `v` loses its slot to a pending queue of effective priority `p`: to rule 2 of 13 R394 if a queue of lower priority holds a slot that
it is not losing already, else to rule 3, among those of equal priority that have held their slot for 200 µs. -/
def loses (s : State) (v : Nat) (x : Queue) (p : Nat) : Prop :=
  let held := s.queues.filter fun y => y.2.slot && !y.2.leaving
  loser (held.filter fun y => y.2.prio < p) (v, x) ∨
    (∀ y ∈ held, p ≤ y.2.prio) ∧ loser (held.filter fun y => y.2.prio == p && y.2.slotAged) (v, x)

end Sys2Proof.Claims

/-- Events of a pack: the oldest deferred trap is delivered at the selected instruction; a pack passed over is marked; a selection takes
the oldest threads that have waited 1,024 issues, else those at the lowest address; a pack idle to the watchdog's limit traps WDOG;
a missing register line of a pack's next instruction is allotted, and its row is refilled if the image holds it; the oldest spill drains
as interval stores (04 R99, R101; 05 R134, R140; 15 R445, R464).  Which waits are subcode 2 of WDOG, and when a refill comes, are the
model's (log entries 30 and 22). -/
def Obligations.PackEvents : Prop :=
  (∀ (s : State) (k : Nat) (t : Trap) (l : List Trap), Claims.mayTrap s k → (s.pack k).wait.kind = .none → (s.pack k).sel ≠ 0 →
    (s.pack k).deferred = t :: l → (s.pack k).progress.sent = false →
    ∃ s', exec (.deferredTrapDelivery k) s = .next s' ∧ Claims.Trapped (s'.pack k) (s.pack k) t.cls t.sub (s.pack k).sel ∧
      (s'.pack k).deferred = l ∧ (s'.pack k).tval = t.val ∧ s'.mem = s.mem ∧ ∀ j, j ≠ k → s'.pack j = s.pack j) ∧
  (∀ (s : State) (k : Nat), (s.pack k).live = true → onCore s (s.pack k).crew = true → (s.pack k).wait.kind = .none →
    let p := s.pack k
    let run := runThreads p
    let pc (u : Nat) : Nat := (packThread p u).pc.toNat
    let age (u : Nat) : Nat := (packThread p u).age
    exec (.issueStarvation k) s = .next (s.setPack k { p with starved := true }) ∧
    ∃ m x, exec (.subsetAgeLimit k) s = .next (s.setPack k { p with sel := m }) ∧
      (∀ u < 64, m.getLsbD u = true ↔ u ∈ run ∧ pc u = x) ∧
      (run ≠ [] → ∃ u ∈ run, pc u = x ∧
        (if ∃ v ∈ run, 1024 ≤ age v then
          1024 ≤ age u ∧ (∀ v ∈ run, age v ≤ age u) ∧ ∀ v ∈ run, age v = age u → x ≤ pc v
         else ∀ v ∈ run, x ≤ pc v))) ∧
  (∀ (s : State) (k : Nat), Claims.mayTrap s k → s.wdogLim ≠ 0 → clocksRun s = true →
    (waitsR100 (s.pack k) = true ∨ (s.pack k).wait.kind = .none ∧ k ∈ s.stalled ∨ ∃ a v, (s.pack k).wait.kind = .fault a v) →
    ∃ s', exec (.watchdogExpire k) s = .next s' ∧
      Claims.Trapped (s'.pack k) (s.pack k) clsWdog (if waitsR100 (s.pack k) = true then 2 else 1) (s.pack k).sel ∧
      s'.mem = s.mem ∧ ∀ j, j ≠ k → s'.pack j = s.pack j) ∧
  (∀ (s : State) (k row : Nat),
    let core := s.coreOf (s.pack k).crew
    let l := Tab.get [] s.rf core
    let q := packQuads (s.pack k)
    let own (i : Instr) : List Nat := (instrRows (s.pack k) i).1 ++ (instrRows (s.pack k) i).2
    let hasLine (r : Nat) : Prop := ∃ x ∈ l, x.pack = k ∧ x.row = r
    ((s.pack k).live = false ∨ onCore s (s.pack k).crew = false ∨ (nextInstr s k).2 = none ∨
        (∃ i, (nextInstr s k).2 = some i ∧ (row ∉ own i ∨ hasLine row)) → exec (.lineRefill k row) s = .next s) ∧
    ((s.pack k).live = true → onCore s (s.pack k).crew = true → ∀ i sec, (nextInstr s k).2 = some i → row ∈ own i →
      (∀ r ∈ own i, r ≠ row → hasLine r) → ¬hasLine row → freeSector l q.1 q.2 = some sec →
      ∃ s', exec (.lineRefill k row) s = .next s' ∧ Tab.get [] s'.rf core = ⟨k, row, q.1, q.2, sec, false⟩ :: l ∧
        s'.counters = s.counters ∧ s'.mem = s.mem ∧ ((s.pack k).imaged.contains row = false → s'.packs = s.packs))) ∧
  (∀ (s : State) (core : Nat) (e : Spill) (l : List Spill), s.spillsOf core = e :: l →
    let crew := (s.pack e.pack).crew
    (∀ x ∈ e.items, x.2.loc.isPhys = true) → (s.crew crew).lost = false →
    let items := (e.items.map (·.2)).eraseDups
    isbUsed s (s.crew crew).core + isbItems items [] ≤ isbRoom →
    ∃ s', exec (.spillDrain core) s = .next s' ∧ s'.spillsOf core = l ∧ (s'.crew crew).isb = (s.crew crew).isb ++ items ∧
      s'.mem = s.mem ∧ s'.packs = s.packs)

/-- Faults and errors: a walk fills the caches or posts its fault; a record goes to the ring; a retry frees the page's waiters; a fatal answer
traps XLATE; the queries of a raynx end instead; an uncorrectable error takes the crew back to its checkpoint or, exposed, without
containment or met again in the den, aborts it; a corrected one counts, and an array error poisons its granule (08 R231 to
R233, R243, R244; 14 R438; 15 R458, R459, R462, R463; 17 R499).  That errors arise as events is the model's choice (log entry 29). -/
def Obligations.FaultEvents : Prop :=
  (∀ (s : State) (core asid va kind space k : Nat), (k, s.crew k) ∈ s.crews → onCore s k = true → (s.crew k).core = core →
    asid = (if space = 6 then 0 else (s.launch (s.crew k).launch).asid) → va < 2 ^ 54 → kind ≤ 2 → space ≤ 15 → isWindow space = false →
    let way : XKind := if kind = 1 then .write else if kind = 2 then .fetch else .read
    (∀ x, walk s asid va way space = .ok x → ∃ t, exec (.translationWalk core asid va kind space) s = .next t ∧
      (Tab.get [] t.utlb core).head? = some ⟨asid, x.level, va / 2 ^ pageBits x.level, BitVec.ofNat 64 x.pte⟩ ∧
      (Tab.get [] t.tlb (core / 8)).head? = some ⟨asid, x.level, va / 2 ^ pageBits x.level, BitVec.ofNat 64 x.pte⟩ ∧
      t.mem = s.mem ∧ t.packs = s.packs) ∧
    (∀ code, walk s asid va way space = .error code → 1 ≤ code → code ≤ 3 →
      (∀ f ∈ s.pendFaults, ¬(f.sett = core / 128 ∧ f.asid = asid ∧ f.page = va / 65536)) →
      (s.pendFaults.filter fun f => f.sett == core / 128).length < 1024 →
      ∃ t, exec (.translationWalk core asid va kind space) s = .next t ∧
        t.pendFaults = s.pendFaults ++ [⟨core / 128, asid, va / 65536, code⟩] ∧ t.faultRecs.length = s.faultRecs.length + 1 ∧
        t.mem = s.mem ∧ t.packs = s.packs)) ∧
  (∀ (s : State) (r : List Byte) (l : List (List Byte)), s.faultRecs = r :: l →
    let b := s.bar0
    let n := 2 ^ (b.fqCtl.toNat % 32)
    let pa := 2 ^ 50 + (b.fqBase.toNat + 32 * (b.fqWidx.toNat % n)) % 2 ^ 48
    b.fqCtl.getLsbD 5 = true → (b.fqWidx - b.fqRidx).toNat < n → Claims.calmAt s pa r.length →
    ∃ t, exec .faultRecordPost s = .next t ∧ t.faultRecs = l ∧ t.bar0 = { b with fqWidx := b.fqWidx + 1 } ∧
      ∀ a, t.byte a = Claims.put s.byte pa r a) ∧
  (∀ (s : State) (asid page k : Nat),
    ((∀ f ∈ s.pendFaults, ¬(f.asid = asid ∧ f.page = page)) → exec (.faultRetry asid page) s = .next s) ∧
    ((∃ f ∈ s.pendFaults, f.asid = asid ∧ f.page = page) → ∃ t, exec (.faultRetry asid page) s = .next t ∧
      t.pendFaults = s.pendFaults.filter (fun f => !(f.asid == asid && f.page == page)) ∧
      (waitsPage (s.pack k) asid page = true → (t.pack k).wait = Wait.none ∧ (t.pack k).threads = (s.pack k).threads))) ∧
  (∀ (s : State) (asid page k : Nat) (f : PFault) (l : List PFault), (∃ f ∈ s.pendFaults, f.asid = asid ∧ f.page = page) →
    Claims.mayTrap s k → waitsPage (s.pack k) asid page = true → (k, s.pack k) ∈ s.packs →
    (∀ j, j ≠ k → waitsPage (s.pack j) asid page = false) → (∀ c, (s.crew c).st.fox.wait ≠ .fault asid page) →
    s.copies = [] → s.geos = [] → (∀ n, (s.queue n).stall = none) →
    (s.pack k).wait.faults.filter (fun f => f.asid == asid && f.va / 65536 == page) = f :: l →
    ((∀ a v, (s.pack k).wait.kind ≠ .ray a v) →
      ∃ t, exec (.faultFatal asid page) s = .next t ∧ Claims.Trapped (t.pack k) (s.pack k) clsXlate f.code (maskOf ((f :: l).map (·.t))) ∧
        (t.pack k).tval = BitVec.ofNat 64 f.va) ∧
    ((∃ a v, (s.pack k).wait.kind = .ray a v) →
      ∃ t, exec (.faultFatal asid page) s = .next t ∧ (t.pack k).wait = Wait.none ∧ (t.pack k).threads = (s.pack k).threads ∧
        ∀ g ∈ f :: l, Tab.get none (t.crew (s.pack k).crew).st.rays (64 * (s.pack k).idx + g.t) = none)) ∧
  (∀ (s : State) (crew sub : Nat), onCore s crew = true → 1 ≤ sub → sub ≤ 5 →
    let c := s.crew crew
    (c.lost = false → c.exposed = false → c.slots = [] → (c.ckPacks.map (·.1)).Nodup → (∀ p ∈ c.packs, (s.pack p).denImage = []) →
      ∃ t, exec (.uceConsume crew sub) s = .next t ∧ (t.crew crew).st = c.ck ∧ (t.crew crew).isb = [] ∧ (t.crew crew).exposed = false ∧
        t.mem = s.mem ∧ ∀ x ∈ c.ckPacks, (t.pack x.1).threads = x.2.threads ∧ (t.pack x.1).v = x.2.v ∧ (t.pack x.1).s = x.2.s ∧
          (t.pack x.1).y = x.2.y ∧ (t.pack x.1).k = x.2.k ∧ (t.pack x.1).loops = x.2.loops ∧
          (t.pack x.1).sflag = x.2.sflag ||| 0x200 ∧ (t.pack x.1).resv = none) ∧
    (c.lost = true ∨ c.exposed = true → ∃ t ev, exec (.uceConsume crew sub) s = .next t ∧ t.events = s.events ++ [ev] ∧
      ev.length = 64 ∧ ev.getD 0 0 = 2 ∧ ev.getD 50 0 = BitVec.ofNat 8 clsUce ∧ ev.getD 51 0 = (if c.lost = true then 4 else 3) ∧
      (t.crew crew).live = false ∧ (t.launch c.launch).aborted = true)) ∧
  (∀ (s : State) (crew : Nat), let c := s.crew crew
    onCore s crew = true → c.lost = false → c.exposed = false →
    ∃ t ev, exec (.uceConsume crew 6) s = .next t ∧ t.events = s.events ++ [ev] ∧ ev.length = 64 ∧ ev.getD 0 0 = 2 ∧
      ev.getD 50 0 = BitVec.ofNat 8 clsUce ∧ ev.getD 51 0 = 5 ∧ (t.crew crew).live = false ∧ (t.launch c.launch).aborted = true) ∧
  (∀ (s : State) (crew n : Nat),
    exec (.uceConsume crew (16 * n + 7)) s = .next (if n < 2048 then s.count ctrSramCe n 1 else s) ∧
    exec (.uceConsume crew (16 * n + 8)) s = .next (if n < 256 then s.count ctrEccCe n 1 else s) ∧
    exec (.uceConsume crew (16 * n + 10)) s = .next (if n < 256 then s.count ctrLcrcRpl n 1 else s) ∧
    ∃ t, exec (.uceConsume crew (16 * n + 9)) s = .next t ∧ t.mem = s.mem ∧ t.packs = s.packs ∧
      ∀ a, t.poisoned a = if a / 64 = n then true else s.poisoned a)

/-- Events at quays: a grant window gives each engine class its share of 64 grants, and passes on what a class does not claim; a mooring's quay grants its first request when nobody holds it; a satisfied monitor and a
re-poll whose condition holds end their packs' waits; a recall combines a granule's partials; an ended
subscription whose last push has landed is acknowledged (01 R25, R26; 09 R258; 10 R291, R298, R300, R308).  The coding of OWNER is the model's choice (log entry 34). -/
def Obligations.QuayEvents : Prop :=
  (∀ (s : State) (q : Nat), let w := Tab.get [] s.waiting q
    w.length = 7 ∨ w = [] →
    ∃ t, exec (.quayGrantWindow q) s = .next t ∧ t.mem = s.mem ∧ t.packs = s.packs ∧
      (∀ k, k ≠ q → Tab.get [] t.waiting k = Tab.get [] s.waiting k) ∧
      let l := Tab.get [] t.waiting q
      (∀ c < 7, l.getD c 0 ≤ w.getD c 0 - ([16, 6, 16, 6, 6, 10, 4] : List Nat).getD c 0) ∧ l.sum = w.sum - 64) ∧
  (∀ (s : State) (lid m : Nat) (x : Mooring) (w : Waiter) (l : List Waiter), launchMoor (s.launch lid) m = some x →
    x.holders = [] → x.waiters = w :: l → w.kind = .plainX → (∀ v ∈ l, v.kind = .plainX ∨ v.kind = .plainSh) → (∀ v ∈ l, v.pack ≠ w.pack) →
    onCore s (s.pack w.pack).crew = true → (∃ u < (s.pack w.pack).width, (packThread (s.pack w.pack) u).exited = false) →
    ∃ t, exec (.mooringGrant lid m) s = .next t ∧ (t.pack w.pack).wait = Wait.none ∧
      launchMoor (t.launch lid) m = some { x with
        mode := .exclusive, holders := [w.pack], waiters := l
        owner := BitVec.ofNat 32 ((s.crew (s.pack w.pack).crew).core * 64 + (s.pack w.pack).slot) }) ∧
  (∀ (s : State) (k : Nat) (m : Monitor), (s.pack k).monitor = some m → m.hit = true → (s.pack k).live = true →
    (∃ u < (s.pack k).width, (packThread (s.pack k) u).exited = false) →
    ∃ t, exec (.monitorWake k) s = .next t ∧ (t.pack k).monitor = none ∧
      (t.pack k).wait.kind = if (s.crew (s.pack k).crew).phase = .placed then .none else .ended) ∧
  (∀ (s : State) (k q : Nat) (m : Monitor), (s.pack k).monitor = some m → m.poll = true → m.quay = q → s.packs.map (·.1) = [k] →
    Claims.noPartials s (m.pa / 64) → (∃ u < (s.pack k).width, (packThread (s.pack k) u).exited = false) →
    ∃ t, exec (.repoll q) s = .next t ∧
      if m.holds (s.rdNat m.pa m.size) = true then (t.pack k).monitor = none ∧
        (t.pack k).wait.kind = (if (s.crew (s.pack k).crew).phase = .placed then .none else .ended)
      else t = s) ∧
  (∀ (s : State) (g cl : Nat) (line : GatherLine) (o : Nat) (x : W64), s.gather = [(cl, [line])] → line.gran = g → line.parts = [(o, x)] →
    (∀ y ∈ s.launches, y.2.homeRecs = []) → (s.launch line.launch).hdr.dmode = 0 → reachable s (g * 64 + o) = true →
    s.poisoned (g * 64 + o) = false →
    let n := typeBits line.ty / 8
    0 < n → o + n ≤ 64 → o % n = 0 →
    (∀ i, i = .recall g ∨ i = .recallTimeout g ∧ (∃ k b, (k, some b) ∈ s.subs ∧ b.pa / 64 = g) →
      ∃ t, exec i s = .next t ∧ t.gather = [] ∧
        ∀ a, t.byte a = Claims.put s.byte (g * 64 + o)
          (leBytes (Claims.combined line.ty line.op (Claims.itemAt s.byte (g * 64 + o) n) (x.toNat % 2 ^ typeBits line.ty)) n) a)) ∧
  (∀ (s : State) (g : Nat), s.gather = [] → (∀ y ∈ s.launches, y.2.homeRecs = []) →
    exec (.recall g) s = .next s ∧ exec (.recallTimeout g) s = .next s) ∧
  (∀ (s : State) (id : Nat) (b : Sub), s.sub id = some b → b.ending = true → b.flight = none → b.pending = none →
    exec (.unstandAck id) s = .next (s.setSub id (some { b with acked := true })))

/-- Engines: a sequencer step; an abandoned copy that stays to be replayed, or is a consumed error the second time; the hand-over of a follow-on; the combination of a staged
reduce-copy; one entry pushed by a queue copy; a raster submission that completes (11 R325, R327, R328, R340; 12 R367, R368; 14
R419, R433).  That a copy has its whole effect at its completion event, and that hardware errors come as events, are the model's choices
(log entries 46, 29). -/
def Obligations.EngineEvents : Prop :=
  (∀ (s : State) (core : Nat) (o : MatOp) (l : List MatOp), core < 1024 → s.seq core = o :: l → o.step < opSteps s o →
    exec (.sequencerStep core) s = .next ((s.setSeq core ({ o with step := o.step + 1 } :: l)).count ctrMxStep core 1)) ∧
  (∀ (s : State) (id cause : Nat), let c := s.copyAt id
    c.live = true → c.phase = .moving → onCore s c.crew = true → cause < 512 →
    ((cause % 2 = 0 → c.replayed = false) →
      ∃ t, exec (.copyAbandon id cause) s = .next t ∧ t.copyAt id = { c with replayed := c.replayed || cause % 2 == 0, stage := [] } ∧
        t.mem = s.mem ∧ t.packs = s.packs ∧ (dDtp c.desc = true → (tileAt t c.crew (dDtile c.desc)).replay = true)) ∧
    (cause % 2 = 0 → c.replayed = true → exec (.copyAbandon id cause) s = exec (.uceConsume c.crew 3) s)) ∧
  (∀ (s : State) (id : Nat) (o : MatOp), let c := s.copyAt id
    let core := (s.crew c.crew).core
    c.live = true → c.phase = .follow → onCore s c.crew = true → c.follow = some o → followTrap s c.crew o.kind = none →
    (tileAt s c.crew (dDtile c.desc)).fill = 0 → (tileAt s c.crew (dDtile c.desc)).drain = 0 →
    (∀ h ∈ o.drains, (tileAt s c.crew h).fill = 0 ∧ (tileAt s c.crew h).drain < 63) → (s.seq core).length < 16 →
    ∃ t, exec (.followOnHandover id) s = .next t ∧ t.seq core = s.seq core ++ [o] ∧ t.copyAt id = { c with follow := none } ∧
      t.mem = s.mem ∧ t.packs = s.packs) ∧
  (∀ (s : State) (id op ty : Nat) (dst : Nat → Target), let c := s.copyAt id
    let n := typeBits ty / 8
    let ix (j : Nat) : List Nat := c.idx j
    c.live = true → c.phase = .staged → onCore s c.crew = true → c.kind = .reduce op ty →
    dXf c.desc = 0 → dDstSize c.desc = n → 0 < n → c.stage.length = c.count → c.count ≤ 4096 → (∀ x ∈ c.stage, x.length = n) → c.dst.space ≠ 3 → c.dst.space ≠ 4 →
    dStp c.desc = false → dDtp c.desc = false → dBarp c.desc = false → (s.launch (s.crew c.crew).launch).hdr.dmode = 0 →
    Tab.get [] s.tlb (c.core / 8) = [] → (∃ q ∈ (s.crew c.crew).packs, (s.pack q).live = true) →
    (∀ j < c.count, c.da (ix j) % n = 0 ∧ 0 ≤ c.da (ix j)) → 64 % n = 0 →
    (∀ j < c.count, capHolds c.dst (c.da (ix j)) n = true → copyPlace s c c.dst true (c.da (ix j)).toNat = .ok (dst j)) →
    (∀ j, (dst j).loc.isPhys = true ∧ s.uceAt (dst j).loc.off = none ∧
      Claims.noPartials s ((dst j).loc.off / 64) ∧ (dst j).loc.off % n = 0) →
    ∃ t, exec (.cpyrApply id) s = .next t ∧ t.copyAt id = Copy.blank ∧
      ∀ a, t.byte a = ((List.range c.count).foldl (fun m j =>
        if capHolds c.dst (c.da (ix j)) n = true then
          Claims.put m (dst j).loc.off (leBytes (Claims.combined ty op (Claims.itemAt m (dst j).loc.off n) (leNat (c.stage.getD j []))) n)
        else m) s.byte) a) ∧
  (∀ (s : State) (id q : Nat) (stop : Bool) (e : List Byte) (rest : List (List Byte)), let c := s.copyAt id
    let w := 2 ^ (s.launch (s.crew c.crew).launch).hdr.pwl
    let x := queueOf s c.crew q
    c.live = true → c.phase = .staged → onCore s c.crew = true → c.kind = .queue q stop → c.stage = e :: rest → rest ≠ [] →
    (s.launch (s.crew c.crew).launch).hdr.dmode = 0 → x.entries.length < 32 →
    ∃ t, exec (.cpyqPush id) s = .next t ∧ t.copyAt id = { c with stage := rest } ∧ t.mem = s.mem ∧ t.packs = s.packs ∧
      queueOf t c.crew q = { x with entries := x.entries ++
        [if e = [] then .stop else .data ((List.range w).map fun i => BitVec.ofNat 32 (leNat ((e.drop (4 * i)).take 4)))] }) ∧
  (∀ (s : State) (id : Nat) (g : GeoOp) (yd ya yg : Cap) (w : List Nat) (pre both : Bool) (o : RasterOut) (log : GLog) (ws : List GWrite),
    let env : GEnv := ⟨s, g.crew, g.asid, none, []⟩
    s.geoOp id = some g → g.kind = .rsub yd ya yg w pre both → g.stall = none → engineHead s g = true → onCore s g.crew = true → (s.pack g.pack).live = true →
    g.pack ∈ (s.crew g.crew).packs → (s.launch (s.crew g.crew).launch).hdr.dmode = 0 → s.isStrict (s.pack g.pack).launch = false →
    (rasterAll env ya yg (w.getD 1 0 % 2 ^ 16) (w.getD 1 0 / 2 ^ 16 % 2 ^ 16) (w.getD 2 0 / 2 ^ 32 % 2 ^ 32) pre both
      ((List.range (w.getD 0 0 / 2 ^ 32 % 2 ^ 32)).map (w.getD 0 0 % 2 ^ 32 + ·)) ⟨[], 0, 0, 0⟩).run.run [] = (.ok o, log) →
    geoWrites env yd (o.frags.map fun f => (yd.cursor + 8 * (f.y * (w.getD 1 0 / 2 ^ 32 % 2 ^ 32) + f.x), leBytes f.word 8)) = .ok ws →
    (∀ x ∈ ws, x.loc.isPhys = false ∧ (s.spad x.loc).mismatch x.loc.off 8 = false) → (∀ x ∈ log, ∀ a, x.gate = some a → Claims.noPartials s a) → isGated yd.space = false →
    ∃ t, exec (.rsubComplete id) s = .next t ∧ t.geoOp id = none ∧ t.mem = s.mem ∧
      (t.pack g.pack).geo = (s.pack g.pack).geo - 1 ∧ ∀ l, t.spad l = (ws.foldl (writeFrag g yd) s).spad l)

/-- Events of crews: a checkpoint, the placement and return of crews, the end of a quantum, and stops (09 R269; 13 R399 to R406; 15
R453, R455; 16 R478).  Placement and the blocks allotted, saves and what an image holds, and the restart of a quantum's count follow
the readings of log entries 48, 50 and 51. -/
def Obligations.CrewEvents : Prop :=
  (∀ (s : State) (crew : Nat), let c := s.crew crew
    checkpointDue s crew = true → (s.launch c.launch).hdr.dmode = 0 → c.isb = [] → c.preempt = false →
    (∀ p ∈ c.packs, (s.pack p).crew = crew ∧ (s.pack p).launch = c.launch ∧ (∀ y ∈ s.spillsOf c.core, y.pack ≠ p) ∧
      ((s.pack p).live = true → ∃ u < (s.pack p).width, (packThread (s.pack p) u).exited = false)) →
    ∃ t, exec (.checkpoint crew) s = .next t ∧ (t.crew crew).ck = (t.crew crew).st ∧ (t.crew crew).exposed = false ∧
      (t.crew crew).lost = false ∧ (t.crew crew).den = [] ∧ (t.crew crew).ckPacks = c.packs.map (fun p => (p, t.pack p)) ∧
      (barOf t crew 0).arr = 0 ∧ (barOf t crew 0).cmp = ((barOf s crew 0).cmp + 1) % 2 ^ 32 ∧ t.mem = s.mem) ∧
  (∀ (s : State) (crew : Nat), checkpointDue s crew = false → exec (.checkpoint crew) s = .next s) ∧
  (∀ (s : State) (lid q : Nat),
    ((s.isTrack lid = false ∨ (s.launch lid).track.replay = false) → exec (.gateAdmit lid q) s = .next s) ∧
    (s.isTrack lid = true → (s.launch lid).track.replay = true →
      (∀ x ∈ s.crews, x.2.live = true → x.2.launch = lid → ∃ p ∈ x.2.packs, (s.pack p).live = true) → ∃ t, exec (.gateAdmit lid q) s = .next t ∧ t.mem = s.mem ∧
      ∀ k, t.pack k = if (s.pack k).live = true ∧ (s.pack k).launch = lid ∧ (s.pack k).wait.kind.waitsAt q = true ∧
          gateShut s lid (s.pack k).lin q = false then { s.pack k with wait := Wait.none } else s.pack k)) ∧
  (∀ (s t : State) (lid node : Nat) (lins recs : List Nat), let l := s.launch lid
    swappedFirst s l.prio 0 = false → l.hdr.dmode = 0 → l.track.replay = false → l.track.pendDivg = none →
    nextCrews l = some (lins, node, recs) → placeNext s lid = some t →
    exec (.crewPlace lid) s = .next t ∧ t.mem = s.mem ∧
      ∃ ids : List Nat, ids.length = lins.length ∧ ∀ i < lins.length,
        let c := t.crew (ids.getD i 0)
        c.live = true ∧ c.phase = .placed ∧ c.launch = lid ∧ c.lin = lins.getD i 0 ∧ c.packs.length = l.hdr.packs ∧
        c.ck = c.st ∧ c.isb = [] ∧ ∀ p ∈ c.packs, (t.pack p).fenv = l.hdr.fenv ∧ (t.pack p).width = 2 ^ l.hdr.pwl ∧
          (t.pack p).crew = ids.getD i 0 ∧ ∀ u < 2 ^ l.hdr.pwl, (packThread (t.pack p) u).pc =
            BitVec.ofNat 64 (if node = 0 then l.hdr.entry else l.hdr.text + (l.graph.nodes.getD node Node.blank).entry)) ∧
  (∀ (s t : State) (crew : Nat), let c := s.crew crew
    let l := s.launch c.launch
    (c.phase ≠ .swapped → swappedFirst s l.prio c.gang = false) → l.hdr.dmode = 0 → l.track.replay = false →
    (∀ k ∈ returnCrews s crew, (s.crew k).launch = c.launch ∧ ∀ p ∈ (s.crew k).packs, (s.pack p).wait.kind = .none) →
    crew ∈ returnCrews s crew → returnNow s crew = some t →
    exec (.crewReturn crew) s = .next t ∧ (t.crew crew).live = true ∧ (t.crew crew).phase = .placed ∧
      ((t.crew crew).lost = c.lost → (t.crew crew).isb = c.isb)) ∧
  (∀ (s : State) (gang : Nat), let g := s.gang gang
    let n := (s.launch g.launch).hdr.quantum
    (g.live = true → g.cluster ≠ none → n ≠ 0 → n * 65536 ≤ g.issues → ∃ t, exec (.quantumEnd gang) s = .next t ∧
      (t.gang gang).issues = 0 ∧ t.mem = s.mem ∧ t.packs = s.packs ∧
      (∀ cl, g.cluster = some cl → pendingOn s cl (s.launch g.launch).prio = true → ∀ k ∈ g.crews, onCore s k = true →
        (s.launch (s.crew k).launch).track.replay = false → (t.crew k).preempt = true)) ∧
    (g.live = false ∨ g.cluster = none ∨ n = 0 ∨ g.issues < n * 65536 → exec (.quantumEnd gang) s = .next s)) ∧
  (∀ (s : State) (crew : Nat) (i : Instr), let c := s.crew crew
    (i = .swapOut crew ∧ swapDue s crew = true ∨ i = .preemptWindowExpire crew ∧ c.preempt = true) → canStop s crew = true → c.core < 1024 →
    (s.launch c.launch).hdr.dmode = 0 → (s.launch c.launch).track.replay = false → imageFault s crew .write = none →
    (∀ p ∈ c.packs, ∀ y ∈ s.spillsOf c.core, y.pack ≠ p) →
    ∃ t, exec i s = .next t ∧ (t.crew crew).phase = (if allWait s crew = true then .swapped else .pending) ∧
      (t.crew crew).preempt = false ∧ ((t.crew crew).lost = c.lost → (t.crew crew).isb = c.isb) ∧ (∀ p ∈ c.packs, (t.pack p).resv = none) ∧
      ∀ o ∈ t.seq c.core, o.crew ≠ crew)

/-- Events of queues: notify and HALT, the taking of each kind of packet, the packets' effects and completions, and the mapper's slots and
clocks, with the queue that loses its slot under rules 2 and 3 of R394 (13 R387 to R395).  What a COPY packet's error reports, and that a
slot once promised goes to the queue that it was taken for, are the model's (log entries 51 and 52). -/
def Obligations.QueueEvents : Prop :=
  (∀ (s : State) (n : Nat) (w : BitVec 64), let q := s.queue n
    s.bar0.ready = true → n < 1024 →
    (q.enabled = true → q.disabling = false → (w - q.ridx).toNat ≤ 2 ^ q.log2n → (w - q.widx).toNat < 2 ^ 63 →
      ∃ t, exec (.notify n 0 64 w) s = .next t ∧ (t.queue n).widx = w ∧ (t.queue n).ridx = q.ridx ∧ (t.queue n).halt = q.halt ∧ t.mem = s.mem) ∧
    (q.enabled = true → q.disabling = false → 2 ^ q.log2n < (w - q.ridx).toNat ∨ 2 ^ 63 ≤ (w - q.widx).toNat →
      exec (.notify n 0 64 w) s = .next (s.setQueue n { q with halt := true, errc := 1 })) ∧
    exec (.notify n 0x50 8 w) s = .next (if w.getLsbD 3 = true then s.setQueue n { q with halt := false, errc := 0 } else s) ∧
    (∀ off size, ¬(off = 0 ∧ size = 64) → ¬(off = 0x50 ∧ size = 8) → exec (.notify n off size w) s = .next (s.count ctrMapBadw 0 1)) ∧
    exec (.haltClear n) s = .next (s.setQueue n { q with halt := false, errc := 0 })) ∧
  (∀ (s s1 : State) (n : Nat) (b : List Byte), Claims.nextPkt s s1 n b →
    let q := s.queue n
    let i := q.ridx.toNat
    let word (k : Nat) : Nat := leNat ((b.drop (8 * k)).take 8)
    (∀ e, (e = .launch n ∧ pktType b = 1 ∧ pktStart q false = none ∨ e = .graph n ∧ pktType b = 2 ∧ pktStart q true = none) → pktBad b = false →
      ∃ t, exec e s = .next t ∧ (t.queue n).ridx = q.ridx + 1) ∧
    (pktType b = 3 → pktBad b = false → ∃ t, exec (.copy n) s = .next t ∧ (t.queue n).ridx = q.ridx + 1 ∧
      (t.queue n).pkts = q.pkts ++ [⟨i, word 4, .copy (word 1) (word 2) (word 3) false⟩]) ∧
    (pktType b = 4 → pktBad b = false → (∀ p ∈ q.pkts, p.work.holds = false) → ∃ t, exec (.signal n) s = .next t ∧ (t.queue n).ridx = q.ridx + 1) ∧
    (pktType b = 5 → pktBad b = false → ∃ t, exec (.wait n) s = .next t ∧ (t.queue n).ridx = q.ridx + 1 ∧
      (t.queue n).pkts = q.pkts ++ [⟨i, 0, .wait (word 1) (BitVec.ofNat 64 (word 2)) (BitVec.ofNat 64 (word 3)) (word 4 % 8)
        ((word 4).testBit 3)⟩]) ∧
    (pktType b = 6 → pktBad b = false → ∃ t, exec (.mark n) s = .next t ∧ (t.queue n).ridx = q.ridx + 1 ∧
      (t.queue n).marks = q.marks ++ [BitVec.ofNat 64 (word 1)]) ∧
    (pktBad b = true → ∃ t, exec (.badPacket n) s = .next t ∧ (t.queue n).ridx = q.ridx + 1 ∧ (t.queue n).halt = true ∧
      (t.queue n).errc = 2)) ∧
  (∀ (s s1 : State) (n : Nat) (p : Pkt) (h : Nat) (x : Loaded) (gr : Bool), let q := s.queue n
    let e : Instr := if gr then .graph n else .launch n
    pktStart q gr = some (p, h) → q.stall = none → q.writes = [] → q.halt = false →
    loadLaunch s ⟨q.asid, h, gr, some q.ctxsz⟩ = .ok (s1, x) → x.hdr.dmode = 0 →
    ∃ t, exec e s = .next t ∧ (t.launch s1.fresh).live = true ∧ (t.launch s1.fresh).hdr = x.hdr ∧ (t.launch s1.fresh).queue = n ∧
      (t.launch s1.fresh).asid = q.asid ∧ (t.launch s1.fresh).prio = min x.hdr.prio q.prio ∧ (t.launch s1.fresh).supervisor = false ∧
      t.mem = s1.mem) ∧
  (∀ (s : State) (n : Nat) (p : Pkt) (h k : Nat) (gr : Bool), let q := s.queue n
    let e : Instr := if gr then .graph n else .launch n
    pktStart q gr = some (p, h) → q.pkts.find? (fun y => y.idx == p.idx) = some p → q.stall = none → q.writes = [] → q.halt = false →
    loadLaunch s ⟨q.asid, h, gr, some q.ctxsz⟩ = .error (.reject k) →
    ∃ t, exec e s = .next t ∧ (t.queue n).halt = true ∧ (p.done = 0 → (t.queue n).errc = 3 ∧ t.mem = s.mem) ∧
      (t.queue n).pkts = q.pkts.filter (fun y => y.idx != p.idx)) ∧
  (∀ (s : State) (n : Nat) (p : Pkt) (l : List Pkt) (a k : Nat) (v : W64) (x : Xl), let q := s.queue n
    let size := if k = 1 then 4 else 8
    q.pkts = p :: l → p.work = .signal a v k → q.stall = none → q.halt = false → walk s q.asid a .write spaceAny = .ok x →
    Claims.calmAt s x.pa size → x.pa % size = 0 → (k = 2 → s.uceAt x.pa = none) →
    ∃ t, exec (.signal n) s = .next t ∧ (t.queue n).pkts = l.filter (fun y => y.idx != p.idx) ∧
      ∀ a, t.byte a = Claims.put s.byte x.pa
        (leBytes (if k = 2 then (Claims.itemAt s.byte x.pa 8 + v.toNat) % 2 ^ 64 else v.toNat) size) a) ∧
  (∀ (s s1 : State) (n : Nat) (p : Pkt) (l : List Pkt) (a cmp : Nat) (v k : W64) (sg : Bool) (b : List Byte), let q := s.queue n
    q.pkts = p :: l → p.work = .wait a v k cmp sg → q.stall = none → q.halt = false → devRead s q.asid a 8 = .ok (s1, b) →
    let x := leNat b &&& k.toNat
    let y := v.toNat &&& k.toNat
    if Claims.compares cmp (if sg then toS 64 x else x) (if sg then toS 64 y else y) = true then
      ∃ t, exec (.waitComplete n) s = .next t ∧ (t.queue n).pkts = l.filter (fun y => y.idx != p.idx) ∧ t.mem = s1.mem
    else exec (.waitComplete n) s = .next s) ∧
  (∀ (s s1 s2 : State) (n : Nat) (p : Pkt) (src dst count : Nat) (b : List Byte), let q := s.queue n
    q.pkts.find? (fun y => y.idx == p.idx) = some p → p.work = .copy src dst count false → q.slot = true → q.stall = none →
    devRead s q.asid src count = .ok (s1, b) → devWrite s1 q.asid dst b = .ok s2 →
    ∃ t, exec (.copyPacketComplete n p.idx) s = .next t ∧ (t.queue n).pkts = q.pkts.filter (fun y => y.idx != p.idx) ∧
      (p.done = 0 → t.mem = s2.mem)) ∧
  (∀ (s : State) (n : Nat), firstPending s = some n → (s.queues.filter fun x => x.2.slot).length < 32 →
    ∃ t, exec (.slotGrant n) s = .next t ∧ (t.queue n).slot = true ∧ t.mem = s.mem ∧ ∀ k, k ≠ n → t.queue k = s.queue k) ∧
  (∀ (s : State) (n : Nat), (s.queue n).slot = true → (s.queue n).leaving = true →
    let m := (s.queue n).taker
    (queuePending s m = false → ∃ t, exec (.slotGrant n) s = .next t ∧ (t.queue n).slot = true ∧ (t.queue n).leaving = false ∧
      t.mem = s.mem ∧ ∀ k, k ≠ n → t.queue k = s.queue k) ∧
    (queuePending s m = true → queueCrews s n = [] → ∃ t, exec (.slotGrant n) s = .next t ∧ (t.queue n).slot = false ∧
      (t.queue n).leaving = false ∧ (t.queue m).slot = true ∧ t.counters = (s.count ctrMapSwitch 0 1).counters ∧ t.mem = s.mem ∧
      ∀ k, k ≠ n → k ≠ m → t.queue k = s.queue k) ∧
    (queuePending s m = true → queueCrews s n ≠ [] → exec (.slotGrant n) s = .next s)) ∧
  (∀ (s : State) (n v : Nat) (x : Queue), firstPending s = some n → 32 ≤ (s.queues.filter fun x => x.2.slot).length → v ≠ n →
    (∀ y ∈ s.queues, ¬(y.2.slot = true ∧ y.2.leaving = true ∧ y.2.taker = n)) → Claims.loses s v x (effPrio (s.queue n)) →
    (queueCrews s v = [] → ∃ t, exec (.slotGrant n) s = .next t ∧ (t.queue v).slot = false ∧ (t.queue n).slot = true ∧
      t.counters = (s.count ctrMapSwitch 0 1).counters ∧ t.mem = s.mem ∧ ∀ k, k ≠ n → k ≠ v → t.queue k = s.queue k) ∧
    (∀ c, onCore s c = true → (s.launch (s.crew c).launch).queue = v →
      ∃ t, exec (.slotGrant n) s = .next t ∧ (t.queue v).leaving = true ∧ (t.queue v).taker = n ∧ t.queue n = s.queue n ∧
        ((s.launch (s.crew c).launch).track.replay = false → (t.crew c).preempt = true) ∧ t.mem = s.mem ∧
        ∀ k, k ≠ v → t.queue k = s.queue k)) ∧
  (∀ (s : State) (n : Nat), let q := s.queue n
    exec (.priorityAgeing n) s = .next (if queuePending s n = true then s.setQueue n { q with aged := min 3 (q.aged + 1) } else s) ∧
    exec (.slotSliceExpire n) s = .next (if q.slot = true then s.setQueue n { q with slotAged := true } else s))

/-- A launch completes when none of its crews is left, with its word; device launches start; a batch launches partly filled at its time-out,
which GR_TOUT counts, and every open batch of a graph when it is quiet (13 R392, R407, R411, R412, R417). -/
def Obligations.LaunchEvents : Prop :=
  (∀ (s : State) (lid : Nat) (e : Instr) (count : Nat), let l := s.launch lid
    (e = .launchComplete lid ∧ l.graph.present = false ∧ count = 0 ∨
      e = .graphComplete lid ∧ l.graph.present = true ∧ l.graph.ready = [] ∧ (∀ x ∈ l.graph.nodes, x.fill = []) ∧
        count = (l.graph.recs.filter fun x => x.2.state == .held || x.2.state == .delivered).length) →
    l.live = true → l.gangs ≤ l.nextGang → (∀ x ∈ s.crews, ¬(x.2.live = true ∧ x.2.launch = lid)) → l.hdr.dmode = 0 →
    s.gather = [] → l.homeRecs = [] →
    (∃ t, exec e s = .next t ∧ (t.launch lid).live = false) ∧
    (∀ n i p d x, l.origin = .packet n i → (s.queue n).pkts.find? (fun y => y.idx == i) = some p → p.done = d + 1 → (d + 1) % 8 = 0 →
      (s.queue n).writes = [] → (s.queue n).stall = none → walk s (s.queue n).asid (d + 1) .write spaceAny = .ok x → x.pa % 8 = 0 →
      Claims.calmAt s x.pa 8 →
      ∃ t, exec e s = .next t ∧ (t.queue n).pkts = (s.queue n).pkts.filter (fun y => y.idx != i) ∧
        ∀ a, t.byte a = Claims.put s.byte x.pa (leBytes (count % 2 ^ 32 * 2 ^ 32 + if l.aborted = true then 3 else 1) 8) a)) ∧
  (∀ (s : State) (lid : Nat), ((s.launch lid).live = false ∨ ∃ x ∈ s.crews, x.2.live = true ∧ x.2.launch = lid) →
    exec (.launchComplete lid) s = .next s ∧ exec (.graphComplete lid) s = .next s) ∧
  (∀ (s s1 : State) (d : DevLaunch) (x : Loaded), nextDevice s = some d → d.queue < 1024 →
    loadLaunch s ⟨d.asid, d.header, false, some (s.queue d.queue).ctxsz⟩ = .ok (s1, x) → x.hdr.dmode = 0 →
    ∃ t, exec .deviceLaunchStart s = .next t ∧ (t.launch s1.fresh).live = true ∧ (t.launch s1.fresh).hdr = x.hdr ∧
      (t.launch s1.fresh).asid = d.asid ∧ (t.launch s1.fresh).prio = min (min x.hdr.prio d.prio) (s.queue d.queue).prio ∧
      (t.launch s1.fresh).supervisor = d.supervisor ∧ t.mem = s1.mem) ∧
  (∀ (s : State) (lid n h : Nat) (r : List Nat) (x : Node), let l := s.launch lid
    l.live = true → n ≠ 0 → l.hdr.dmode = 0 → l.graph.nodes[n]? = some x → x.fill = h :: r →
    ∃ t, exec (.batchTimeout lid n) s = .next t ∧ (t.launch lid).graph.nodes[n]? = some { x with fill := [], launched := x.launched + 1 } ∧
      (∃ lin, (t.launch lid).graph.ready = l.graph.ready ++ [(lin, n, h :: r)]) ∧
      (∀ k ∈ h :: r, ((t.launch lid).graph.record k).state = .delivered) ∧
      (∀ k, k ∉ h :: r → (t.launch lid).graph.record k = l.graph.record k) ∧
      t.counters = (s.count ctrGrTout 0 1).counters ∧ t.mem = s.mem ∧ t.packs = s.packs) ∧
  (∀ (s : State) (lid n : Nat), let l := s.launch lid
    let fill (m : Nat) : List Nat := if m = 0 then [] else (l.graph.nodes.getD m Node.blank).fill
    graphQuiet s lid = true → n ≠ 0 → l.hdr.dmode = 0 →
    ∃ t, exec (.batchQuiescentLaunch lid n) s = .next t ∧
      (t.launch lid).graph.ready.map (·.2) = ((List.range l.graph.nodes.length).filter fun m => fill m ≠ []).map (fun m => (m, fill m)) ∧
      (∀ m x, l.graph.nodes[m]? = some x →
        (t.launch lid).graph.nodes[m]? = some (if fill m = [] then x else { x with fill := [], launched := x.launched + 1 })) ∧
      (∀ k, (t.launch lid).graph.record k = if ∃ m < l.graph.nodes.length, k ∈ fill m then ⟨.delivered, 0, false, none⟩
        else l.graph.record k) ∧
      t.counters = s.counters ∧ t.mem = s.mem ∧ t.packs = s.packs)

/-- Management commands: each takes its command from the ring, has its effect, and answers with an event; an ill-formed one answers status 1
(08 R235; 13 R386, R387, R405; 16 R488, R489; 17 R500, R502, R503).  The addresses of the operands and the layout of manifests and
comparisons are the model's (log entries 53 and 54), and signatures are open (log entry 6). -/
def Obligations.CommandEvents : Prop :=
  (∀ (s : State) (b : List Byte), s.cmd = none → peekCmd s = some b → cmdBad b = true → Claims.quietCmd s →
    ∃ t, exec .badCommand s = .next t ∧ Claims.Answered s t (cmdTag b) 1 ∧ t.bar0.mqRidx = s.bar0.mqRidx + 1 ∧ t.mem = s.mem) ∧
  (∀ (s : State) (b : List Byte), Claims.nextCmd s 6 b →
    let w := cmdWord b 8
    ∃ t, exec .setCap s = .next t ∧ Claims.Answered s t (cmdTag b) (if 1500 ≤ w ∧ w ≤ 3000 then 0 else 2) ∧
      t.power.cap = (if 1500 ≤ w ∧ w ≤ 3000 then w else s.power.cap) ∧ t.mem = s.mem) ∧
  (∀ (s : State) (b : List Byte), Claims.nextCmd s 1 b →
    let asid := cmdWord b 8 % 4096
    let va := cmdWord b 0x10
    let n := cmdWord b 0x18
    let hit (x : TlbEntry) : Bool := x.asid == asid && (n == 0 || (x.page * 2 ^ pageBits x.level < va + n &&
      va < x.page * 2 ^ pageBits x.level + 2 ^ pageBits x.level))
    ((∀ x ∈ s.launches, x.2.hdr.dmode = 0) ∨ gatheredOf s asid = []) →
    ∃ t, exec .invalidate s = .next t ∧ (∀ k, Tab.get [] t.utlb k = (Tab.get [] s.utlb k).filter (fun x => !hit x)) ∧
      (∀ k, Tab.get [] t.tlb k = (Tab.get [] s.tlb k).filter (fun x => !hit x)) ∧ (gatheredOf s asid = [] → t.mem = s.mem) ∧
      (oldStores s asid s.fresh = false → Claims.Answered s t (cmdTag b) 0)) ∧
  (∀ (s : State) (b : List Byte), Claims.nextCmd s 2 b →
    let cs := queueCrews s (cmdWord b 8)
    ∃ t, exec .preempt s = .next t ∧ t.mem = s.mem ∧ (cs = [] → Claims.Answered s t (cmdTag b) 0) ∧
      (∀ k ∈ cs, (s.launch (s.crew k).launch).track.replay = false → (t.crew k).preempt = true)) ∧
  (∀ (s s1 : State) (b : List Byte) (x : Loaded), Claims.nextCmd s 3 b →
    loadLaunch s ⟨cmdWord b 0x10 % 4096, cmdWord b 8, false, none⟩ = .ok (s1, x) → x.hdr.dmode = 0 →
    ∃ t, exec .launchSv s = .next t ∧ (t.launch s1.fresh).live = true ∧ (t.launch s1.fresh).hdr = x.hdr ∧
      (t.launch s1.fresh).supervisor = true ∧ (t.launch s1.fresh).prio = 3 ∧ (t.launch s1.fresh).asid = cmdWord b 0x10 % 4096 ∧
      t.cmd = some ⟨3, cmdTag b, s1.fresh, []⟩ ∧ t.mem = s1.mem) ∧
  (∀ (s : State) (b : List Byte) (l : Launch), Claims.nextCmd s 4 b → launchOf (passCmd s) (cmdWord b 8) = some l →
    let body := manifestBody (passCmd s) l
    let pa := 2 ^ 50 + cmdWord b 0x10 % 2 ^ 48
    (cmdWord b 0x18 < body.length + 7856 → ∃ t, exec .makeManifest s = .next t ∧ Claims.Answered s t (cmdTag b) 2 ∧ t.mem = s.mem) ∧
    (body.length + 7856 ≤ cmdWord b 0x18 → Claims.calmAt s pa (body ++ Config.signature body).length →
      ∃ t, exec .makeManifest s = .next t ∧ Claims.Answered s t (cmdTag b) 0 ∧
        ∀ a, t.byte a = Claims.put s.byte pa (body ++ Config.signature body) a)) ∧
  (∀ (s : State) (b : List Byte), Claims.nextCmd s 5 b →
    let r := compareResult (passCmd s) (cmdWord b 8) (cmdWord b 0x10)
    let pa := 2 ^ 50 + cmdWord b 0x18 % 2 ^ 48
    (∀ g, Claims.noPartials s g) → Claims.calmAt s pa r.length → ∃ t, exec .compareManifest s = .next t ∧ Claims.Answered s t (cmdTag b) 0 ∧
      ∀ a, t.byte a = Claims.put s.byte pa r a) ∧
  (∀ (s : State) (b : List Byte), Claims.nextCmd s 7 b →
    let body := (b.drop 0x20).take 32 ++ firmwareHashes ++ orderingCode
    let pa := 2 ^ 50 + cmdWord b 8 % 2 ^ 48
    Claims.calmAt s pa (body ++ Config.signature body).length →
    ∃ t, exec .attest s = .next t ∧ Claims.Answered s t (cmdTag b) 0 ∧
      ∀ a, t.byte a = Claims.put s.byte pa (body ++ Config.signature body) a) ∧
  (∀ (s : State) (b : List Byte) (n : Nat), Claims.nextCmd s 8 b → n = cmdWord b 8 →
    let at_ := s.bar0.rdtBase.toNat + 64 * n
    (cmdWord b 0x10 = 1 → (s.queue n).enabled = false → Claims.noPartials s (at_ / 64) →
      (∀ q, parseRing (s.rdBytes at_ 64) = some q → ∃ t, exec .queueEnable s = .next t ∧ Claims.Answered s t (cmdTag b) 0 ∧
        t.queue n = { q with ridx := BitVec.ofNat 64 (cmdWord b 0x18), widx := BitVec.ofNat 64 (cmdWord b 0x18) } ∧ t.mem = s.mem) ∧
      (parseRing (s.rdBytes at_ 64) = none → ∃ t, exec .queueEnable s = .next t ∧ Claims.Answered s t (cmdTag b) 2 ∧
        t.queue n = { s.queue n with errc := 5 } ∧ t.mem = s.mem)) ∧
    (cmdWord b 0x10 = 2 → (s.queue n).enabled = false → ∃ t, exec .queueDisable s = .next t ∧ Claims.Answered s t (cmdTag b) 0 ∧
      t.queue n = s.queue n ∧ t.mem = s.mem) ∧
    (cmdWord b 0x10 = 2 → (s.queue n).enabled = true → (s.queue n).pkts = [] → (s.queue n).writes = [] →
      (∀ x ∈ s.launches, ¬(x.2.live = true ∧ x.2.queue = n)) → (∀ d ∈ s.devLaunches, d.queue ≠ n) →
      ∃ t, exec .queueDisable s = .next t ∧ Claims.Answered s t (cmdTag b) 0 ∧ (t.queue n).enabled = false ∧ (t.queue n).slot = false ∧
        t.mem = s.mem)) ∧
  (∀ (s : State) (r : List Byte) (l : List (List Byte)), s.events = r :: l →
    let b := s.bar0
    let n := 2 ^ (b.eqCtl.toNat % 32)
    let pa := 2 ^ 50 + (b.eqBase.toNat + 64 * (b.eqWidx.toNat % n)) % 2 ^ 48
    b.eqCtl.getLsbD 5 = true → (b.eqWidx - b.eqRidx).toNat < n → Claims.calmAt s pa r.length →
    ∃ t, exec .eventPost s = .next t ∧ t.events = l ∧ t.bar0 = { b with eqWidx := b.eqWidx + 1 } ∧ ∀ a, t.byte a = Claims.put s.byte pa r a)

/-- Power, cooling, resets, BAR0 writes and the link: what each changes, and that it changes nothing else of memory and packs but where it
says so (17 R494 to R504).  That power-on keeps the other bytes of memory, where the page tables and the capability list lie, what a
function-level reset keeps, and how a peer is represented are the model's choices (log entries 1, 55, 57 and 68), and that
power and temperature come as events is its reading (log entry 58). -/
def Obligations.PlatformEvents : Prop :=
  (∀ (s : State) (err asidt : Nat) (cxl ports : List (Nat × Nat)), err ≤ 5 → asidt % 16 = 0 → asidt + 65536 ≤ 2 ^ 40 →
    ∃ t, exec (.powerOnReset err cxl asidt ports) s = .next t ∧ t.packs = [] ∧ t.launches = [] ∧ t.queues = [] ∧ t.power = State.reset.power ∧
      t.bar0.ready = (err == 0) ∧ t.bar0.bootErr = BitVec.ofNat 8 err ∧
      (err = 0 → t.bar0.asidt = BitVec.ofNat 64 asidt ∧
        t.tierTwo = min 32768 (((List.range 16).filterMap fun p => cxl.find? fun x => x.1 == p).map (·.2 - 1)).sum ∧
        (∀ i < 128, t.byte (listRom + i) = (leBytes ((capListWords t).getD (i / 16) 0) 16).getD (i % 16) 0) ∧
        ∀ a, a < listRom ∨ listRom + 128 ≤ a → t.byte a =
          if asidt ≤ a ∧ a < asidt + 65536 ∨ ∃ x ∈ Config.pageTables, x.1 ≤ a ∧ a < x.1 + x.2 then 0 else s.byte a) ∧
      (err ≠ 0 → t.mem = s.mem)) ∧
  (∀ (s : State), ∃ t, exec .functionLevelReset s = .next t ∧ t.packs = [] ∧ t.crews = [] ∧ t.launches = [] ∧ t.queues = [] ∧ t.events = [] ∧
    t.faultRecs = [] ∧ t.cmd = none ∧ t.power = s.power ∧ t.ports = s.ports ∧ t.bar0.ready = s.bar0.ready ∧
    t.bar0 = { s.bar0 with fqWidx := 0, fqRidx := 0, mqWidx := 0, mqRidx := 0, eqWidx := 0, eqRidx := 0 }) ∧
  (∀ (s : State) (addr size : Nat) (val : BitVec 64), addr ≠ 0x220 →
    ∃ t, exec (.registerWrite addr size val) s = .next t ∧ t.mem = s.mem ∧ t.packs = s.packs ∧
      (∀ a, a ≠ addr → bar0Read t a 8 = bar0Read s a 8) ∧
      bar0Read t addr 8 = if size = 8 ∧ addr ∈ [0x100, 0x200, 0x218, 0x300, 0x310, 0x320, 0x338] then val
        else if size = 8 ∧ addr ∈ [0x208, 0x308, 0x318] then val &&& 0x3F else bar0Read s addr 8) ∧
  (∀ (s : State) (addr size : Nat), size ≠ 8 ∨ addr % 8 ≠ 0 → bar0Read s addr size = 0) ∧
  (∀ (s : State) (val : BitVec 64), exec (.registerWrite 0x220 8 val) s =
    exec (if val.getLsbD 63 = true then .faultFatal (val.toNat / 2 ^ 48 % 2 ^ 12) (val.toNat % 2 ^ 38)
      else .faultRetry (val.toNat / 2 ^ 48 % 2 ^ 12) (val.toNat % 2 ^ 38)) s) ∧
  (∀ (s : State) (w : Nat), let cap := if s.power.coolantLow = true ∧ Config.isModule = true then min s.power.cap 2000 else s.power.cap
    ∃ t, exec (.powerCapWindow w) s = .next t ∧ t.bar0.pwrNow = BitVec.ofNat 32 w ∧ t.mem = s.mem ∧ t.packs = s.packs ∧
      t.power = if cap < w then
          (if loweredUnit s.power.level ≤ 233334 then { s.power with gated := true } else { s.power with level := s.power.level + 1 })
        else { s.power with level := 0, gated := false }) ∧
  (∀ (s : State), (∃ t, exec .thermalThrottle s = .next t ∧ t.power = { s.power with lowTherm := true } ∧ t.mem = s.mem ∧ t.packs = s.packs) ∧
    exec .thermalTrip s = .next { s with power := { s.power with therm := true } } ∧
    exec .thermalRestart s = .next { s with power := { s.power with therm := false, lowTherm := false } } ∧
    exec .coolantFlowLow s = .next { s with power := { s.power with coolantLow := true } } ∧
    exec .coolantFlowRestored s = .next { s with power := { s.power with coolantLow := false } }) ∧
  (∀ (s : State) (n : Nat) (ok : Bool), let p := portAt s n
    (p.up = false → exec (.flitReplay n ok) s = .next s) ∧
    (p.up = true → ∃ t, exec (.flitReplay n ok) s = .next t ∧ t.mem = s.mem ∧ t.packs = s.packs ∧
      portAt t n = (if ok = true then { p with fails := 0 } else if 7 ≤ p.fails then Port.down else { p with fails := p.fails + 1 }))) ∧
  (∀ (s : State) (r : LinkReq), s.bar0.ready = true → (r.size = 1 ∨ r.size = 2 ∨ r.size = 4 ∨ r.size = 8 ∨ r.size = 16) →
    r.pa % r.size = 0 → r.pa < 2 ^ 40 → Claims.calmAt s r.pa r.size →
    let old := Claims.itemAt s.byte r.pa r.size
    let new := r.val.toNat % 2 ^ (8 * r.size)
    (r.op = .read → ∃ t, exec (.linkRequest r) s = .next t ∧ t.mem = s.mem ∧
      t.linkReply = some (BitVec.ofNat 128 old, (s.uceAt r.pa).isSome)) ∧
    (r.op = .write → ∃ t, exec (.linkRequest r) s = .next t ∧
      (∀ a, t.byte a = Claims.put s.byte r.pa (leBytes new r.size) a) ∧
      (r.poison = true → t.poisoned r.pa = true)) ∧
    (∀ op, r.op = .atom op ∨ r.op = .red op → s.uceAt r.pa = none → typeBits r.ty = 8 * r.size →
      ∃ t, exec (.linkRequest r) s = .next t ∧ (r.op = .atom op → t.linkReply = some (BitVec.ofNat 128 old, false)) ∧
        ∀ a, t.byte a = Claims.put s.byte r.pa (leBytes (
          if op.toNat = 7 then (if old = r.cmp.toNat % 2 ^ (8 * r.size) then new else old)
          else Claims.combined r.ty op.toNat old new) r.size) a))
namespace Sys2Proof.Claims

/-! ### The machine as a whole -/

/-- An instruction without guard, extension or literal: its B, A and D fields. -/
def plainEnc (b a d : Nat) : Enc := ⟨BitVec.ofNat 6 b, BitVec.ofNat 6 a, BitVec.ofNat 6 d, false, 7, none, none⟩

/-- The state but for what translations note: the translation caches, and the counters of their hits, misses and walks (08 R232, R244). -/
def sansXlate (s : State) : State := { s with utlb := [], tlb := [], counters := [] }

/-- The instruction `i` stands at `pc` in the code of a crew's launch: each of its words lies in .text, and its page may be fetched, gives no
uncorrectable error where the word lies, and holds the word (02 R32, R33; 08 R227, R243). -/
def codeAt (s : State) (crew : Nat) (pc : Nat) (i : Instr) : Prop :=
  let c := s.crew crew
  let l := s.launch c.launch
  ∀ j, 4 * j < (encode i).length → l.hdr.text ≤ pc + 4 * j ∧ pc + 4 * j + 4 ≤ l.hdr.text + l.hdr.textsz ∧
    ∃ x, walk s l.asid (pc + 4 * j) .fetch 0 = .ok x ∧ s.spoiled x.pa = none ∧
      ∀ k < 4, s.byte (x.pa + k) = (encode i).getD (4 * j + k) 0

/-- The state in which the chosen candidate's instruction is fetched: it is the issuing one, and the next core's turn comes after it. -/
def turning (s : State) (c : Cand) : State := { s with tick := s.tick + 1, cur := c.id, turn := c.core + 1 }

end Sys2Proof.Claims

/-- Words written out from the encodings that the manual works, and the instructions that they stand for: iadd.i32 v5, v3, v9 and
iadd.i32 v2, v2, 100000 (02 R50); exit, bra to +0x40 and loop 10 (04); twait t5 and tdef (07); atom.cas (10); grec s11 (13). -/
def Obligations.DecodeWords : Prop :=
  decodeTableWord 32 0x24315C8C = some (.iadd (Claims.plainEnc 9 3 5)) ∧
  decodeTableWord 96 0x186A000209C8E = some (.iadd { Claims.plainEnc 0 2 2 with lit := some 100000 }) ∧
  decodeTableWord 32 0x00001C1C = some (.exit (Claims.plainEnc 0 0 0)) ∧
  decodeTableWord 32 0x00041C04 = some (.bra (Claims.plainEnc 0 0 16)) ∧
  decodeTableWord 32 0x00A15C24 = some (.loopImm (Claims.plainEnc 0 10 5)) ∧
  decodeTableWord 32 0x14001E88 = some (.twait (Claims.plainEnc 5 0 0)) ∧
  (∃ x, decodeTableWord 96 (0x2870DE81 + 0x0003C000 * 2 ^ 32 + 0x00100000 * 2 ^ 64) =
    some (.tdef { Claims.plainEnc 10 7 3 with ext := some x }) ∧ x.t = 0x0F ∧ x.imm = 16 ∧ x.mod = 0) ∧
  (∃ x, decodeTableWord 96 (0x09111E51 + 0x5001C180 * 2 ^ 32 + 0x00007000 * 2 ^ 64) =
    some (.atomInt { Claims.plainEnc 2 17 4 with ext := some x }) ∧ x.mod = 20 ∧ x.t = 7 ∧ x.c = 6 ∧ x.ka = true ∧ x.kb = true ∧ x.kc = true ∧
      x.kd = false) ∧
  decodeTableWord 32 0x0002DF30 = some (.grec (Claims.plainEnc 0 0 11))

/-- Decoding undoes encoding, for every well-formed instruction and every value of every field; an event has no encoding. -/
def Obligations.DecodeUndoesEncode : Prop :=
  ∀ (i : Instr) (rest : List Byte), WellFormed i = true →
    if (opcodeOf i).isSome then decode (encode i ++ rest) = some (i, rest) else encode i = []

/-- Encoding undoes decoding: what decodes is well formed, and its words are the words read; decoding refuses only bytes that end inside an
instruction, whose length the first word gives. -/
def Obligations.EncodeUndoesDecode : Prop :=
  (∀ (bs rest : List Byte) (i : Instr), decode bs = some (i, rest) →
    WellFormed i = true ∧ (opcodeOf i).isSome = true ∧ encode i ++ rest = bs ∧
      (encode i).length = [4, 12, 12, 20].getD ((bs.getD 0 0).toNat % 4) 0) ∧
  (∀ bs : List Byte, decode bs = none ↔ bs.length < 4 ∨ bs.length < [4, 12, 12, 20].getD ((bs.getD 0 0).toNat % 4) 0)

/-- A step runs the next event of the agenda, where an instruction leaves the turn to the machine; else, at the packs' turn or when the
engines have nothing to do, the instruction fetched for the pack or fox slot chosen, whatever it is, once its registers have their lines,
which changes nothing else where none is missing; what stands at the pc is what is fetched; a stall is remembered until something
changes; while the clocks are stopped (17 R504) nothing issues and no engine acts.  The turns of packs and engines, that a miss stalls
no longer than the step, and the order in which packs are chosen are the model's choices (log entries 4, 22 and 63). -/
def Obligations.StepRunsDecoded : Prop :=
  (∀ (s t : State) (i : Instr) (rest : List Instr), s.agenda = i :: rest → clocksRun s = true ∨ alwaysOn i = true →
    (opcodeOf i = none → exec i { s with agenda := rest } = .next t →
      step s = .next (if s.stalled.length < t.stalled.length then t else { t with stalled := [] })) ∧
    (opcodeOf i ≠ none → step s = ownStep { s with agenda := rest })) ∧
  (∀ (s : State), s.bar0.ready = true → clocksRun s = false → (∀ i ∈ s.agenda, alwaysOn i = false) →
    ∃ t, step s = .next t ∧ t.packs = s.packs ∧ t.crews = s.crews ∧ t.mem = s.mem ∧ t.agenda = s.agenda) ∧
  (∀ (s s2 t : State) (c : Cand) (i : Instr), s.agenda = [] → s.bar0.ready = true → clocksRun s = true →
    (s.tick % 2 = 0 ∨ engineStep s = none) → chosen s = some c →
    let s1 := Claims.turning s c
    (s1.isFox = true ∨ s1.curPack.deferred = [] ∨ s1.curPack.save.inHandler = true ∨ s1.curPack.progress.sent = true) →
    fetch s1 s1.curCrewId (packPc s1.curPack) s1.curPack.sel = .instr i s2 →
    exec i (readyLines i s2) = .next t →
    step s = .next (if s.stalled.length < t.stalled.length then t else { t with stalled := [] })) ∧
  (∀ (s : State) (i : Instr), let r := instrRows s.curPack i
    (s.isFox = true ∨ r = ([], []) → readyLines i s = s) ∧
    (missing s (s.coreOf s.curPack.crew) s.cur (r.1 ++ r.2) = [] →
      let t := readyLines i s
      t.packs = s.packs ∧ t.crews = s.crews ∧ t.mem = s.mem ∧ t.counters = s.counters)) ∧
  (∀ (s s2 : State) (crew : Nat) (pc m : W64) (i : Instr), (∀ g, Claims.noPartials s g) → fetch s crew pc m = .instr i s2 →
    Claims.sansXlate s2 = Claims.sansXlate s) ∧
  (∀ (s : State) (crew : Nat) (pc m : W64) (i : Instr), WellFormed i = true → (opcodeOf i).isSome = true → Claims.codeAt s crew pc.toNat i →
    (∀ g, Claims.noPartials s g) → Tab.get [] s.utlb (s.crew crew).core = [] → Tab.get [] s.tlb ((s.crew crew).core / 8) = [] →
    ∃ s2, fetch s crew pc m = .instr i s2)

/-- After reset every queue is disabled, READY is 0, no launch, crew or pack is placed, every counter reads 0, the watchdog's limit is 0x2000 and
the package cap 3,000 W; until bring-up has set READY no instruction issues, and the first step is bring-up, which a failure stops for good
(17 R498, R501, R503); bring-up ends as open constants say (log entries 4 and 8). -/
def Obligations.ResetState : Prop :=
  let s := State.reset
  s.bar0.ready = false ∧ (∀ n, (s.queue n).enabled = false) ∧ (∀ n, (s.launch n).live = false) ∧ (∀ n, (s.crew n).live = false) ∧
  (∀ n, (s.pack n).live = false) ∧ s.power.cap = 3000 ∧ s.wdogLim = 0x2000 ∧ (∀ k, Tab.get 0 s.counters k = 0) ∧
  Safety.tablesWf s = true ∧ Safety.capInRange s = true ∧
  (∀ u : State, u.agenda = [] → u.bar0.ready = false →
    (u.bar0.bootErr = 0 →
      step u = execPowerOnReset (Config.bootErr % 6) Config.cxlPorts (16 * (Config.asidTable % (2 ^ 36 - 4095))) Config.portMap u) ∧
    (u.bar0.bootErr ≠ 0 → ∃ t, step u = .next t ∧ t.bar0 = u.bar0 ∧ t.mem = u.mem ∧ t.packs = u.packs))

/-- Every step keeps memory and the tables beside it in their canonical form. -/
def Obligations.StepKeepsTables : Prop :=
  ∀ s t : State, Safety.tablesWf s = true → step s = .next t → Safety.tablesWf t = true

/-- Every step keeps the package cap in its range of 1,500 to 3,000 W. -/
def Obligations.StepKeepsCap : Prop :=
  ∀ s t : State, Safety.capInRange s = true → step s = .next t → Safety.capInRange t = true

/-- No step and no instruction ends in a refusal, and an instruction stops the machine only in a state that names no
living pack; that such a state is a fault is the model's choice (log entry 63). -/
def Obligations.NothingRefused : Prop :=
  (∀ (i : Instr) (s : State), match exec i s with
    | .next _ => True
    | .refused _ => False
    | .fault r => r = .noIssuingPack ∧ s.isFox = false ∧ (s.pack s.cur).live = false) ∧
  (∀ (s : State) (r : Refusal), step s ≠ .refused r)
end

