-- ==== Sys2Proof/Laws/Tab.lean ====
section
/-! SUPPORT. Reads after writes of a finite table, and its canonical form. -/

namespace Sys2Proof.Machine

variable {β : Type}

@[simp] theorem Tab.get_nil (d : β) (k : Nat) : Tab.get d [] k = d := rfl
@[simp] theorem Tab.get_cons (d : β) (a : Nat) (b : β) (t : List (Nat × β)) (k : Nat) :
    Tab.get d ((a, b) :: t) k = if a = k then b else Tab.get d t k := rfl

theorem Tab.get_erase_same (d : β) (l : List (Nat × β)) (k : Nat) : Tab.get d (Tab.erase l k) k = d := by
  induction l with
  | nil => rfl
  | cons x t ih =>
    obtain ⟨a, b⟩ := x
    unfold Tab.erase
    by_cases h : a = k
    · simp [h, ih]
    · simp [h, ih]

theorem Tab.get_erase_other (d : β) (l : List (Nat × β)) {k j : Nat} (hj : j ≠ k) :
    Tab.get d (Tab.erase l k) j = Tab.get d l j := by
  induction l with
  | nil => rfl
  | cons x t ih =>
    obtain ⟨a, b⟩ := x
    unfold Tab.erase
    by_cases h : a = k
    · subst h; simp [ih, Ne.symm hj]
    · simp [h, ih]

theorem Tab.get_insert_same (d : β) (l : List (Nat × β)) (k : Nat) (v : β) (h : ∀ x ∈ l, x.1 ≠ k) :
    Tab.get d (Tab.insert l k v) k = v := by
  induction l with
  | nil => simp [Tab.insert]
  | cons x t ih =>
    obtain ⟨a, b⟩ := x
    unfold Tab.insert
    have ha : a ≠ k := h (a, b) (by simp)
    split
    · simp
    · simp [ha, ih fun y hy => h y (List.mem_cons_of_mem _ hy)]

theorem Tab.get_insert_other (d : β) (l : List (Nat × β)) {k j : Nat} (v : β) (hj : j ≠ k) :
    Tab.get d (Tab.insert l k v) j = Tab.get d l j := by
  induction l with
  | nil => simp [Tab.insert, Ne.symm hj]
  | cons x t ih =>
    obtain ⟨a, b⟩ := x
    unfold Tab.insert
    split
    · simp [Ne.symm hj]
    · simp [ih]

theorem Tab.not_mem_erase (l : List (Nat × β)) (k : Nat) : ∀ x ∈ Tab.erase l k, x.1 ≠ k := by
  induction l with
  | nil => intro x hx; simp [Tab.erase] at hx
  | cons y t ih =>
    obtain ⟨a, b⟩ := y
    intro x hx
    unfold Tab.erase at hx
    split at hx
    · exact ih x hx
    · rcases List.mem_cons.mp hx with rfl | h
      · assumption
      · exact ih x h

/-- A key reads what was last written to it. -/
@[simp] theorem Tab.get_set_same [DecidableEq β] (d : β) (l : List (Nat × β)) (k : Nat) (v : β) :
    Tab.get d (Tab.set d l k v) k = v := by
  unfold Tab.set
  split
  · rename_i h; rw [h]; exact Tab.get_erase_same d l k
  · exact Tab.get_insert_same d _ k v (Tab.not_mem_erase l k)

/-- A write leaves every other key as it was. -/
theorem Tab.get_set_other [DecidableEq β] (d : β) (l : List (Nat × β)) {k j : Nat} (v : β) (h : j ≠ k) :
    Tab.get d (Tab.set d l k v) j = Tab.get d l j := by
  unfold Tab.set
  split
  · exact Tab.get_erase_other d l h
  · rw [Tab.get_insert_other d _ v h]; exact Tab.get_erase_other d l h

theorem Tab.get_set [DecidableEq β] (d : β) (l : List (Nat × β)) (k j : Nat) (v : β) :
    Tab.get d (Tab.set d l k v) j = if j = k then v else Tab.get d l j := by
  by_cases h : j = k
  · subst h; simp
  · simp [h, Tab.get_set_other d l v h]

/-- The canonical form as two plain facts: keys strictly rise, and no entry holds the default. -/
theorem Tab.wf_iff [DecidableEq β] (d : β) (l : List (Nat × β)) :
    Tab.wf d l = true ↔ l.Pairwise (fun x y => x.1 < y.1) ∧ ∀ x ∈ l, x.2 ≠ d := by
  induction l with
  | nil => simp [Tab.wf]
  | cons x t ih =>
    obtain ⟨a, v⟩ := x
    cases t with
    | nil => simp [Tab.wf]
    | cons y t =>
      obtain ⟨b, w⟩ := y
      simp only [Tab.wf, Bool.and_eq_true, decide_eq_true_eq, ih]
      constructor
      · rintro ⟨⟨hv, hab⟩, hp, hd⟩
        refine ⟨List.pairwise_cons.mpr ⟨?_, hp⟩, ?_⟩
        · intro z hz
          rcases List.mem_cons.mp hz with rfl | hz
          · exact hab
          · exact lt_trans hab ((List.pairwise_cons.mp hp).1 z hz)
        · intro z hz
          rcases List.mem_cons.mp hz with rfl | hz
          · simpa using hv
          · exact hd z hz
      · rintro ⟨hp, hd⟩
        have h1 := List.pairwise_cons.mp hp
        exact ⟨⟨by simpa using hd (a, v) (by simp), h1.1 (b, w) (by simp)⟩, h1.2, fun z hz => hd z (List.mem_cons_of_mem _ hz)⟩

theorem Tab.erase_sublist (l : List (Nat × β)) (k : Nat) : (Tab.erase l k).Sublist l := by
  induction l with
  | nil => exact List.Sublist.slnil
  | cons x t ih =>
    obtain ⟨a, b⟩ := x
    unfold Tab.erase
    split
    · exact ih.cons _
    · exact ih.cons_cons _

theorem Tab.mem_insert (l : List (Nat × β)) (k : Nat) (v : β) (x : Nat × β) :
    x ∈ Tab.insert l k v ↔ x = (k, v) ∨ x ∈ l := by
  induction l with
  | nil => simp [Tab.insert]
  | cons y t ih =>
    obtain ⟨a, b⟩ := y
    unfold Tab.insert
    split
    · simp
    · simp only [List.mem_cons, ih]; tauto

theorem Tab.insert_pairwise (l : List (Nat × β)) (k : Nat) (v : β) (hp : l.Pairwise fun x y => x.1 < y.1)
    (hk : ∀ x ∈ l, x.1 ≠ k) : (Tab.insert l k v).Pairwise fun x y => x.1 < y.1 := by
  induction l with
  | nil => simp [Tab.insert]
  | cons y t ih =>
    obtain ⟨a, b⟩ := y
    have h1 := List.pairwise_cons.mp hp
    unfold Tab.insert
    split
    · rename_i hlt
      refine List.pairwise_cons.mpr ⟨?_, hp⟩
      intro z hz
      rcases List.mem_cons.mp hz with rfl | hz
      · exact hlt
      · exact lt_trans hlt (h1.1 z hz)
    · rename_i hge
      have hak : a < k := by have := hk (a, b) (by simp); simp only at this; omega
      refine List.pairwise_cons.mpr ⟨?_, ih h1.2 fun x hx => hk x (List.mem_cons_of_mem _ hx)⟩
      intro z hz
      rcases (Tab.mem_insert t k v z).mp hz with rfl | hz
      · exact hak
      · exact h1.1 z hz

theorem Tab.wf_erase [DecidableEq β] (d : β) (l : List (Nat × β)) (k : Nat) (h : Tab.wf d l = true) :
    Tab.wf d (Tab.erase l k) = true := by
  rw [Tab.wf_iff] at *
  exact ⟨h.1.sublist (Tab.erase_sublist l k), fun x hx => h.2 x ((Tab.erase_sublist l k).subset hx)⟩

/-- A write keeps the canonical form. -/
theorem Tab.wf_set [DecidableEq β] (d : β) (l : List (Nat × β)) (k : Nat) (v : β) (h : Tab.wf d l = true) :
    Tab.wf d (Tab.set d l k v) = true := by
  have he := Tab.wf_erase d l k h
  unfold Tab.set
  split
  · exact he
  · rename_i hv
    rw [Tab.wf_iff] at *
    refine ⟨Tab.insert_pairwise _ k v he.1 (Tab.not_mem_erase l k), fun x hx => ?_⟩
    rcases (Tab.mem_insert _ k v x).mp hx with rfl | hx
    · exact hv
    · exact he.2 x hx

/-- Dropping entries keeps the canonical form. -/
theorem Tab.wf_filter [DecidableEq β] (d : β) (l : List (Nat × β)) (p : Nat × β → Bool) (h : Tab.wf d l = true) :
    Tab.wf d (l.filter p) = true := by
  rw [Tab.wf_iff] at *
  exact ⟨h.1.sublist List.filter_sublist, fun x hx => h.2 x (List.mem_of_mem_filter hx)⟩

end Sys2Proof.Machine
end

