-- ==== Sys2Proof/Laws/Regs.lean ====
section
/-! SUPPORT. Register reads after register writes of a pack: each kind of register reads back what was written, and every other
register is as it was. -/

namespace Sys2Proof.Machine

/-! ### Lists -/

@[simp] theorem modAt_length {α : Type} (f : α → α) (l : List α) (i : Nat) : (modAt f l i).length = l.length := by
  induction l generalizing i with
  | nil => rfl
  | cons x l ih => cases i <;> simp [modAt, ih]

theorem modAt_getElem? {α : Type} (f : α → α) (l : List α) (i j : Nat) :
    (modAt f l i)[j]? = if j = i then l[j]?.map f else l[j]? := by
  induction l generalizing i j with
  | nil => simp [modAt]
  | cons x l ih =>
    cases i with
    | zero => cases j <;> simp [modAt]
    | succ i => cases j <;> simp [modAt, ih]

/-- A thread after a change of one thread. -/
theorem packThread_packModThread (p : Pack) (t u : Nat) (f : Thread → Thread) :
    packThread (packModThread p t f) u = if u = t ∧ t < p.threads.length then f (packThread p t) else packThread p u := by
  unfold packThread packModThread
  simp only [List.getD_eq_getElem?_getD, modAt_getElem?]
  by_cases h : u = t
  · subst h
    by_cases hl : u < p.threads.length <;> simp [hl]
  · simp [h]

@[simp] theorem Thread.blank_vdead : Thread.blank.vdead = 0 := rfl

theorem packThread_of_ge (p : Pack) (t : Nat) (h : p.threads.length ≤ t) : packThread p t = Thread.blank := by
  simp [packThread, List.getD_eq_getElem?_getD, List.getElem?_eq_none h]

/-! ### Vector registers -/

theorem packThread_wrV (p : Pack) (n t x u : Nat) :
    packThread (wrV p n t x) u =
      if u = t ∧ t < p.threads.length then { packThread p t with vdead := (packThread p t).vdead &&& ~~~(1#256 <<< n) }
      else packThread p u :=
  packThread_packModThread p t u _

/-- A vector register reads back what was written, as a 32-bit word. -/
theorem rdV_wrV_same (p : Pack) (n t x : Nat) : rdV (wrV p n t x) n t = x % 2 ^ 32 := by
  have hv : (packThread (wrV p n t x) t).vdead.getLsbD n = false := by
    rw [packThread_wrV]
    by_cases h : t < p.threads.length
    · by_cases hn : n < 256 <;> simp [h, hn]
    · simp [h, packThread_of_ge p t (Nat.le_of_not_lt h)]
  unfold rdV
  rw [hv]
  simp [wrV, noteRow]

/-- A write of one vector register of one thread leaves the others as they were. -/
theorem rdV_wrV_other (p : Pack) {n t m u : Nat} (x : Nat) (ht : t < 64) (hu : u < 64) (h : ¬(m = n ∧ u = t)) :
    rdV (wrV p n t x) m u = rdV p m u := by
  have hk : 64 * m + u ≠ 64 * n + t := by omega
  have hv : (packThread (wrV p n t x) u).vdead.getLsbD m = (packThread p u).vdead.getLsbD m := by
    rw [packThread_wrV]
    by_cases hc : u = t ∧ t < p.threads.length
    · obtain ⟨rfl, hc⟩ := hc
      have hmn : m ≠ n := fun e => h ⟨e, rfl⟩
      simp only [hc, and_self, if_true]
      by_cases hm : m < 256
      · simp [hm]; omega
      · simp [BitVec.getLsbD_of_ge _ _ (Nat.le_of_not_lt hm)]
    · simp [hc]
  unfold rdV
  rw [hv]
  simp [wrV, noteRow, Tab.get_set_other _ _ _ hk]

theorem rdV_wrV (p : Pack) (n t x m u : Nat) (ht : t < 64) (hu : u < 64) :
    rdV (wrV p n t x) m u = if m = n ∧ u = t then x % 2 ^ 32 else rdV p m u := by
  split
  · rename_i h; obtain ⟨rfl, rfl⟩ := h; exact rdV_wrV_same p m u x
  · rename_i h; exact rdV_wrV_other p x ht hu h

theorem rdV_lt (p : Pack) (n t : Nat) : rdV p n t < 2 ^ 32 := by
  unfold rdV; split
  · norm_num
  · exact (Tab.get (0 : W32) p.v (64 * n + t)).isLt

/-- The pack but for what a write of vector registers may touch. -/
def Pack.sansV (p : Pack) : Pack := { p with v := [], threads := [], denRows := [] }

@[simp] theorem wrV_sansV (p : Pack) (n t x : Nat) : (wrV p n t x).sansV = p.sansV := rfl
@[simp] theorem wrV_length (p : Pack) (n t x : Nat) : (wrV p n t x).threads.length = p.threads.length := by simp [wrV, noteRow]

/-- A thread but for its dead bits. -/
def Thread.sansDead (t : Thread) : Thread := { t with vdead := 0 }

@[simp] theorem wrV_sansDead (p : Pack) (n t x u : Nat) :
    (packThread (wrV p n t x) u).sansDead = (packThread p u).sansDead := by
  rw [packThread_wrV]
  by_cases h : u = t ∧ t < p.threads.length
  · obtain ⟨rfl, h⟩ := h; simp [h, Thread.sansDead]
  · simp [h]

/-! ### Uniform registers -/

/-- A uniform register reads back what was written. -/
@[simp] theorem rdS_wrS_same (p : Pack) (n : Nat) (x : W64) : rdS (wrS p n x) n = x := by
  have hd : (wrS p n x).sdead.getLsbD n = false := by
    by_cases hn : n < 64 <;> simp [wrS, hn]
  unfold rdS; rw [hd]; simp [wrS]

/-- A write of one uniform register leaves the others as they were. -/
theorem rdS_wrS_other (p : Pack) {n m : Nat} (x : W64) (h : m ≠ n) : rdS (wrS p n x) m = rdS p m := by
  have hd : (wrS p n x).sdead.getLsbD m = p.sdead.getLsbD m := by
    by_cases hm : m < 64
    · simp [wrS, hm]; omega
    · simp [BitVec.getLsbD_of_ge _ _ (Nat.le_of_not_lt hm)]
  unfold rdS; rw [hd]; simp [wrS, Tab.get_set_other _ _ _ h]

@[simp] theorem rdV_wrS (p : Pack) (n : Nat) (x : W64) (m t : Nat) : rdV (wrS p n x) m t = rdV p m t := rfl
@[simp] theorem rdP_wrS (p : Pack) (n : Nat) (x : W64) (m t : Nat) : rdP (wrS p n x) m t = rdP p m t := rfl
@[simp] theorem packThread_wrS (p : Pack) (n : Nat) (x : W64) (t : Nat) : packThread (wrS p n x) t = packThread p t := rfl
@[simp] theorem rdS_wrV (p : Pack) (n t x m : Nat) : rdS (wrV p n t x) m = rdS p m := rfl
@[simp] theorem rdP_wrV (p : Pack) (n t x m u : Nat) : rdP (wrV p n t x) m u = rdP p m u := by
  have := wrV_sansDead p n t x u
  unfold rdP
  rw [show (packThread (wrV p n t x) u).preds = (packThread p u).preds by simpa [Thread.sansDead] using congrArg Thread.preds this]

/-! ### Predicates -/

/-- A predicate other than p7 reads back what was written. -/
theorem rdP_wrP_same (p : Pack) (n t : Nat) (b : Bool) (hn : n < 16) (h7 : n ≠ 7) (ht : t < p.threads.length) :
    rdP (wrP p n t b) n t = b := by
  unfold rdP wrP
  simp only [h7, if_false]
  rw [packThread_packModThread]
  cases b <;> simp [ht, h7, hn]

/-- A write of one predicate of one thread leaves the others as they were. -/
theorem rdP_wrP_other (p : Pack) {n t m u : Nat} (b : Bool) (h : ¬(m = n ∧ u = t)) : rdP (wrP p n t b) m u = rdP p m u := by
  unfold rdP wrP
  by_cases h7 : n = 7
  · simp [h7]
  · simp only [h7, if_false]
    rw [packThread_packModThread]
    by_cases hc : u = t ∧ t < p.threads.length
    · obtain ⟨rfl, hc⟩ := hc
      have hmn : m ≠ n := fun e => h ⟨e, rfl⟩
      by_cases hm : m < 16
      · cases b
        · simp [hc, hm]; grind
        · simp [hc]; grind
      · cases b <;> simp [BitVec.getLsbD_of_ge _ _ (Nat.le_of_not_lt hm)]
    · simp [hc]

/-- A write of p7 changes nothing (04 R113). -/
@[simp] theorem wrP_seven (p : Pack) (t : Nat) (b : Bool) : wrP p 7 t b = p := rfl

/-! ### Capability registers -/

@[simp] theorem rdK_wrK_same (p : Pack) (n t : Nat) (c : Cap) : rdK (wrK p n t c) n t = c := by
  simp [rdK, wrK, noteRow]

theorem rdK_wrK_other (p : Pack) {n t m u : Nat} (c : Cap) (ht : t < 64) (hu : u < 64) (h : ¬(m = n ∧ u = t)) :
    rdK (wrK p n t c) m u = rdK p m u := by
  have hk : 64 * m + u ≠ 64 * n + t := by omega
  simp [rdK, wrK, noteRow, Tab.get_set_other _ _ _ hk]

theorem rdY_wrY_same (p : Pack) (n : Nat) (c : Cap) (h : n < p.y.length) : rdY (wrY p n c) n = c := by
  simp only [rdY, wrY, List.getD_eq_getElem?_getD, modAt_getElem?]
  simp [h]

theorem rdY_wrY_other (p : Pack) {n m : Nat} (c : Cap) (h : m ≠ n) : rdY (wrY p n c) m = rdY p m := by
  simp only [rdY, wrY, List.getD_eq_getElem?_getD, modAt_getElem?]
  simp [h]

/-! ### Lanes -/

theorem mem_lanesOf (m : BitVec 64) (w t : Nat) : t ∈ lanesOf m w ↔ t < w ∧ m.getLsbD t = true := by
  simp [lanesOf]

theorem lanesOf_lt {m : BitVec 64} {w t : Nat} (h : t ∈ lanesOf m w) : t < 64 := by
  by_contra hc
  have := (mem_lanesOf m w t).mp h
  rw [BitVec.getLsbD_of_ge _ _ (Nat.le_of_not_lt hc)] at this
  exact absurd this.2 (by simp)

theorem lanesOf_nodup (m : BitVec 64) (w : Nat) : (lanesOf m w).Nodup := List.nodup_range.filter _

end Sys2Proof.Machine
end

