-- ==== Sys2Proof/Laws/Lanes.lean ====
section
/-! SUPPORT. What a lane instruction leaves: each element of its destination holds its result, and nothing else of the pack's
registers changes but the flags and the random state. -/

namespace Sys2Proof.Machine

/-! ### The destination -/

/-- The destination block stays inside the register grid (02 R43, R44). -/
def BlockFits (e : Enc) (n : Nat) : Prop :=
  ∀ b ∈ blockElems e, encD e / 16 + b.1 ≤ 15 ∧ encD e % 16 + b.2 * colsOf n + colsOf n ≤ 16

/-! ### Many writes of vector registers -/

/-- Writes of vector registers: register, thread and value of each. -/
def wrAll (p : Pack) (l : List (Nat × Nat × Nat)) : Pack := l.foldl (fun q c => wrV q c.1 c.2.1 c.2.2) p

@[simp] theorem wrAll_nil (p : Pack) : wrAll p [] = p := rfl
theorem wrAll_cons (p : Pack) (c : Nat × Nat × Nat) (l : List (Nat × Nat × Nat)) :
    wrAll p (c :: l) = wrAll (wrV p c.1 c.2.1 c.2.2) l := rfl
theorem wrAll_append (p : Pack) (l k : List (Nat × Nat × Nat)) : wrAll p (l ++ k) = wrAll (wrAll p l) k :=
  List.foldl_append ..

/-- A register that no write names is as it was. -/
theorem rdV_wrAll_other (l : List (Nat × Nat × Nat)) (p : Pack) (m u : Nat) (hu : u < 64) (hl : ∀ c ∈ l, c.2.1 < 64)
    (h : ∀ c ∈ l, ¬(m = c.1 ∧ u = c.2.1)) : rdV (wrAll p l) m u = rdV p m u := by
  induction l generalizing p with
  | nil => rfl
  | cons c l ih =>
    rw [wrAll_cons, ih _ (fun x hx => hl x (List.mem_cons_of_mem _ hx)) fun x hx => h x (List.mem_cons_of_mem _ hx)]
    exact rdV_wrV_other p _ (hl c (by simp)) hu (h c (by simp))

/-- Where the registers written are distinct, each reads back its value. -/
theorem rdV_wrAll_mem (l : List (Nat × Nat × Nat)) (p : Pack) (hl : ∀ c ∈ l, c.2.1 < 64)
    (hd : l.Pairwise fun a b => ¬(a.1 = b.1 ∧ a.2.1 = b.2.1)) (c : Nat × Nat × Nat) (hc : c ∈ l) :
    rdV (wrAll p l) c.1 c.2.1 = c.2.2 % 2 ^ 32 := by
  induction l generalizing p with
  | nil => simp at hc
  | cons a l ih =>
    rw [wrAll_cons]
    have hp := List.pairwise_cons.mp hd
    rcases List.mem_cons.mp hc with rfl | hm
    · rw [rdV_wrAll_other l _ _ _ (hl c (by simp)) (fun x hx => hl x (List.mem_cons_of_mem _ hx)) (hp.1)]
      exact rdV_wrV_same ..
    · exact ih _ (fun x hx => hl x (List.mem_cons_of_mem _ hx)) hp.2 hm

theorem wrAll_sansV (l : List (Nat × Nat × Nat)) (p : Pack) : (wrAll p l).sansV = p.sansV := by
  induction l generalizing p with
  | nil => rfl
  | cons c l ih => rw [wrAll_cons, ih]; rfl

theorem wrAll_sansDead (l : List (Nat × Nat × Nat)) (p : Pack) (u : Nat) :
    (packThread (wrAll p l) u).sansDead = (packThread p u).sansDead := by
  induction l generalizing p with
  | nil => rfl
  | cons c l ih => rw [wrAll_cons, ih]; simp

theorem wrAll_length (l : List (Nat × Nat × Nat)) (p : Pack) : (wrAll p l).threads.length = p.threads.length := by
  induction l generalizing p with
  | nil => rfl
  | cons c l ih => rw [wrAll_cons, ih]; simp

/-! ### Writes of elements -/

/-- The registers that one element's write touches, with their values. -/
def elemCells (e : Enc) (n : Nat) (j : Job) (x : Nat) : List (Nat × Nat × Nat) :=
  let r := blockReg (encD e) 0 j.i j.j (colsOf n)
  if n ≤ 32 then [(r, j.t, x)]
  else if n ≤ 64 then [(r, j.t, x % 4294967296), (r + 1, j.t, x / 4294967296)]
  else [(r, j.t, x % 2 ^ 64 % 4294967296), (r + 1, j.t, x % 2 ^ 64 / 4294967296),
    (r + 2, j.t, x / 2 ^ 64 % 4294967296), (r + 3, j.t, x / 2 ^ 64 / 4294967296)]

theorem wrD_vector (p : Pack) (e : Enc) (signed : Bool) (n x : Nat) (j : Job) (hk : (encX e).kd = false) :
    wrD p e signed n j.t j.i j.j x = wrAll p (elemCells e n j x) := by
  unfold wrD elemCells
  simp only [hk, Bool.false_eq_true, if_false]
  split
  · rfl
  · split <;> rfl

theorem elemCells_spec (e : Enc) (n : Nat) (j : Job) (x : Nat) (c : Nat × Nat × Nat) (hc : c ∈ elemCells e n j x) :
    destCell e n j c.1 c.2.1 := by
  unfold elemCells at hc
  unfold destCell
  generalize blockReg (encD e) 0 j.i j.j (colsOf n) = r at *
  unfold colsOf
  by_cases h1 : n ≤ 32
  · simp [h1] at hc ⊢; simp [hc]
  · by_cases h2 : n ≤ 64
    · simp [h1, h2] at hc ⊢; rcases hc with rfl | rfl <;> simp
    · simp [h1, h2] at hc ⊢; rcases hc with rfl | rfl | rfl | rfl <;> simp

theorem elemCells_pairwise (e : Enc) (n : Nat) (j : Job) (x : Nat) :
    (elemCells e n j x).Pairwise fun a b => ¬(a.1 = b.1 ∧ a.2.1 = b.2.1) := by
  unfold elemCells
  split
  · simp
  · split <;> simp

/-- Elements of one block in a thread do not share a register. -/
theorem destCell_unique (e : Enc) (n : Nat) (fit : BlockFits e n) {j k : Job} (hj : (j.i, j.j) ∈ blockElems e)
    (hk : (k.i, k.j) ∈ blockElems e) {m u : Nat} (h1 : destCell e n j m u) (h2 : destCell e n k m u) : j = k := by
  obtain ⟨a1, b1⟩ := fit _ hj
  obtain ⟨a2, b2⟩ := fit _ hk
  obtain ⟨t1, l1, g1⟩ := h1
  obtain ⟨t2, l2, g2⟩ := h2
  simp only [blockReg] at *
  have hc : 0 < colsOf n := by unfold colsOf; split <;> [skip; split] <;> omega
  have hi : j.i = k.i := by omega
  have hjj : j.j = k.j := by
    by_contra hne
    rcases Nat.lt_or_gt_of_ne hne with h | h
    · have : (j.j + 1) * colsOf n ≤ k.j * colsOf n := Nat.mul_le_mul_right _ h
      rw [Nat.add_mul] at this; omega
    · have : (k.j + 1) * colsOf n ≤ j.j * colsOf n := Nat.mul_le_mul_right _ h
      rw [Nat.add_mul] at this; omega
  cases j; cases k; simp_all

/-- Results of elements, as one list of register writes. -/
def outCells (e : Enc) (n : Nat) (out : List (Job × Nat × Fl)) : List (Nat × Nat × Nat) :=
  out.flatMap fun x => elemCells e n x.1 x.2.1

theorem foldl_wrD_vector (e : Enc) (signed : Bool) (n : Nat) (hk : (encX e).kd = false) (out : List (Job × Nat × Fl)) (p : Pack) :
    out.foldl (fun q x => wrD q e signed n x.1.t x.1.i x.1.j x.2.1) p = wrAll p (outCells e n out) := by
  induction out generalizing p with
  | nil => rfl
  | cons x l ih =>
    simp only [List.foldl_cons, outCells, List.flatMap_cons, wrAll_append]
    rw [wrD_vector _ _ _ _ _ _ hk, ih]; rfl

/-- What the elements' writes leave, for elements of distinct places. -/
theorem outCells_pairwise (e : Enc) (n : Nat) (fit : BlockFits e n) (out : List (Job × Nat × Fl))
    (hb : ∀ x ∈ out, (x.1.i, x.1.j) ∈ blockElems e) (hd : (out.map (·.1)).Nodup) :
    (outCells e n out).Pairwise fun a b => ¬(a.1 = b.1 ∧ a.2.1 = b.2.1) := by
  induction out with
  | nil => simp [outCells]
  | cons x l ih =>
    simp only [List.map_cons, List.nodup_cons] at hd
    simp only [outCells, List.flatMap_cons, List.pairwise_append]
    refine ⟨elemCells_pairwise .., ih (fun y hy => hb y (List.mem_cons_of_mem _ hy)) hd.2, ?_⟩
    intro a ha b hb' hab
    obtain ⟨y, hy, hby⟩ := List.mem_flatMap.mp hb'
    have h1 := elemCells_spec e n x.1 x.2.1 a ha
    have h2 := elemCells_spec e n y.1 y.2.1 b hby
    rw [← hab.1, ← hab.2] at h2
    have := destCell_unique e n fit (hb x (by simp)) (hb y (List.mem_cons_of_mem _ hy)) h1 h2
    exact hd.1 (this ▸ List.mem_map_of_mem hy)

/-! ### The elements -/

theorem blockElems_nodup (e : Enc) : (blockElems e).Nodup := by
  unfold blockElems
  rw [List.nodup_flatMap]
  refine ⟨fun i _ => (List.nodup_range).map fun a b h => (Prod.mk.inj h).2, ?_⟩
  apply List.Pairwise.imp _ (List.nodup_range (n := (encX e).bh.toNat + 1))
  intro a b hab
  simp only [Function.onFun, List.disjoint_left, List.mem_map]
  rintro _ ⟨j, _, rfl⟩ ⟨k, _, hk⟩
  exact hab (Prod.mk.inj hk).1.symm

theorem jobsOf_vector (c : Ctx) (p : Pack) (hk : (encX c.e).kd = false) (j : Job) :
    j ∈ jobsOf c p ↔ j.t ∈ lanesOf c.m p.width ∧ (j.i, j.j) ∈ blockElems c.e := by
  unfold jobsOf
  simp only [hk, Bool.false_eq_true, if_false, List.mem_flatMap, List.mem_map]
  constructor
  · rintro ⟨t, ht, b, hb, rfl⟩; exact ⟨ht, hb⟩
  · rintro ⟨ht, hb⟩; exact ⟨j.t, ht, (j.i, j.j), hb, rfl⟩

theorem jobsOf_nodup (c : Ctx) (p : Pack) : (jobsOf c p).Nodup := by
  unfold jobsOf
  split
  · simp
  · rw [List.nodup_flatMap]
    refine ⟨fun t _ => (blockElems_nodup c.e).map fun a b h => ?_, ?_⟩
    · simp only [Job.mk.injEq, true_and] at h; exact Prod.ext h.1 h.2
    · apply List.Pairwise.imp _ (lanesOf_nodup c.m p.width)
      intro a b hab
      simp only [Function.onFun, List.disjoint_left, List.mem_map]
      rintro _ ⟨j, _, rfl⟩ ⟨k, _, hk⟩
      exact hab (Job.mk.inj hk).1.symm

theorem takeDraws_eq (d : Nat) (r : W64) :
    takeDraws d r = ((List.range d).map fun i => (rngStep^[i + 1] r).toNat % 4294967296, rngStep^[d] r) := by
  induction d generalizing r with
  | zero => rfl
  | succ d ih => simp [takeDraws, ih, List.range_succ_eq_map, Function.comp_def]

/-- Every element is computed from the registers as they stood, with its own draws. -/
theorem runJobs_eq (c : Ctx) (d : Nat) (f : Job → List Nat → Nat × Fl) (l : List Job) (r : W64) :
    runJobs c d f l r =
      (l.zipIdx.map fun x => (x.1, f x.1 (drawn c d r x.2)), if c.m = 0 then r else rngStep^[l.length * d] r) := by
  induction l generalizing r with
  | nil => simp [runJobs]
  | cons j l ih =>
    unfold runJobs drawsFor
    by_cases hm : c.m = 0
    · simp only [hm, if_true, ih, List.zipIdx_cons, List.map_cons, drawn]
      rw [List.zipIdx_eq_map_add (i := 0 + 1)]
      simp [Function.comp_def]
    · simp only [hm, if_false, takeDraws_eq, ih, List.zipIdx_cons, List.map_cons, drawn, List.length_cons]
      rw [List.zipIdx_eq_map_add (i := 0 + 1)]
      have h1 (k i : Nat) : rngStep^[k * d + i + 1] (rngStep^[d] r) = rngStep^[(1 + k) * d + i + 1] r := by
        rw [← Function.iterate_add_apply]; congr 1; ring
      have h2 : rngStep^[l.length * d] (rngStep^[d] r) = rngStep^[(l.length + 1) * d] r := by
        rw [← Function.iterate_add_apply]; congr 1; ring
      have h3 (k : Nat) : drawn c d (rngStep^[d] r) k = drawn c d r (1 + k) := by simp only [drawn, hm, if_false, h1]
      simp only [drawn, hm, if_false] at h3
      simp only [List.map_map, Function.comp_def, h2, h3, Nat.zero_mul, Nat.zero_add]

/-! ### Flags -/

theorem raiseFlags_eq (p : Pack) (l : List (Nat × Fl)) : ∃ ths, raiseFlags p l = { p with threads := ths } := by
  induction l generalizing p with
  | nil => exact ⟨p.threads, rfl⟩
  | cons x l ih =>
    obtain ⟨ths, h⟩ := ih (packModThread p x.1 fun th => { th with fflags := th.fflags ||| x.2 })
    exact ⟨ths, h⟩

theorem raiseFlags_thread (p : Pack) (l : List (Nat × Fl)) (u : Nat) :
    { packThread (raiseFlags p l) u with fflags := 0 } = ({ packThread p u with fflags := 0 } : Thread) := by
  induction l generalizing p with
  | nil => rfl
  | cons x l ih =>
    show { packThread (raiseFlags (packModThread p x.1 _) l) u with fflags := 0 } = _
    rw [ih, packThread_packModThread]
    split
    · rename_i h; rw [h.1]
    · rfl

theorem raiseFlags_rdV (p : Pack) (l : List (Nat × Fl)) (m u : Nat) : rdV (raiseFlags p l) m u = rdV p m u := by
  have h := congrArg Thread.vdead (raiseFlags_thread p l u)
  obtain ⟨ths, he⟩ := raiseFlags_eq p l
  have hv : (raiseFlags p l).v = p.v := by rw [he]
  unfold rdV
  rw [hv]
  simp only at h
  rw [h]

theorem raiseFlags_rdS (p : Pack) (l : List (Nat × Fl)) (m : Nat) : rdS (raiseFlags p l) m = rdS p m := by
  obtain ⟨ths, he⟩ := raiseFlags_eq p l
  rw [he]; rfl

/-- The sticky flags of a thread after its raised flags are added. -/
theorem raiseFlags_fflags (p : Pack) (l : List (Nat × Fl)) (u : Nat) (hu : u < p.threads.length) :
    (packThread (raiseFlags p l) u).fflags =
      l.foldl (fun a x => if x.1 = u then a ||| x.2 else a) (packThread p u).fflags := by
  induction l generalizing p with
  | nil => rfl
  | cons x l ih =>
    show (packThread (raiseFlags (packModThread p x.1 _) l) u).fflags = _
    rw [ih _ (by simpa [packModThread] using hu), packThread_packModThread, List.foldl_cons]
    by_cases h : u = x.1
    · subst h; simp [hu]
    · simp [h, Ne.symm h]

/-! ### The whole instruction -/

theorem laneOut_map_fst (c : Ctx) (d : Nat) (f : Job → List Nat → Nat × Fl) (p : Pack) :
    (laneOut c d f p).map (·.1) = jobsOf c p := by
  simp [laneOut, Function.comp_def]

theorem mem_laneOut_job {c : Ctx} {d : Nat} {f : Job → List Nat → Nat × Fl} {p : Pack} {x : Job × Nat × Fl}
    (h : x ∈ laneOut c d f p) : x.1 ∈ jobsOf c p := by
  rw [← laneOut_map_fst c d f p]; exact List.mem_map_of_mem h

theorem laneOp_eq (c : Ctx) (n : Nat) (signed : Bool) (d : Nat) (f : Job → List Nat → Nat × Fl) (p : Pack) :
    laneOp c n signed d f p =
      match fpeTrap p (jobFlags c p (laneOut c d f p)) with
      | some t => .error t
      | none => .ok { raiseFlags ((laneOut c d f p).foldl (fun q x => wrD q c.e signed n x.1.t x.1.i x.1.j x.2.1) p)
          (jobFlags c p (laneOut c d f p)) with
          rng := if c.m = 0 then p.rng else rngStep^[(jobsOf c p).length * d] p.rng } := by
  unfold laneOp laneOut
  rw [runJobs_eq] <;> rfl

theorem jobFlags_eq (c : Ctx) (d : Nat) (f : Job → List Nat → Nat × Fl) (p : Pack) :
    jobFlags c p (laneOut c d f p) = (lanesOf c.m p.width).map fun t => (t, laneFlags c d f p t) := by
  unfold jobFlags laneFlags
  by_cases hk : (encX c.e).kd = true <;> simp [hk]

theorem foldl_flags_mapped (l : List Nat) (g : Nat → Fl) (u : Nat) (a : Fl) (hn : l.Nodup) :
    (l.map fun t => (t, g t)).foldl (fun a x => if x.1 = u then a ||| x.2 else a) a = if u ∈ l then a ||| g u else a := by
  induction l generalizing a with
  | nil => rfl
  | cons t l ih =>
    obtain ⟨h1, h2⟩ := List.nodup_cons.mp hn
    simp only [List.map_cons, List.foldl_cons, ih _ h2, List.mem_cons]
    by_cases h : t = u
    · subst h; simp [h1]
    · simp [h, Ne.symm h]

theorem or_and_zero {a b m : Fl} (h1 : a &&& m = 0) (h2 : b &&& m = 0) : (a ||| b) &&& m = 0 := by
  ext i hi
  have e1 := congrArg (fun x : Fl => x.getLsbD i) h1
  have e2 := congrArg (fun x : Fl => x.getLsbD i) h2
  simp at e1 e2 ⊢
  grind

/-- Where no element raises an enabled flag the instruction completes. -/
theorem laneOp_completes (c : Ctx) (n : Nat) (signed : Bool) (d : Nat) (f : Job → List Nat → Nat × Fl) (p : Pack)
    (h : ∀ x ∈ laneOut c d f p, x.2.2 &&& enabledFlags p = 0) : ∃ q, laneOp c n signed d f p = .ok q := by
  have hz : ∀ u, laneFlags c d f p u &&& enabledFlags p = 0 := by
    intro u
    unfold laneFlags
    have gen : ∀ (l : List (Job × Nat × Fl)) (a : Fl), (∀ x ∈ l, x.2.2 &&& enabledFlags p = 0) → a &&& enabledFlags p = 0 →
        l.foldl (fun a x => if (encX c.e).kd || x.1.t == u then a ||| x.2.2 else a) a &&& enabledFlags p = 0 := by
      intro l
      induction l with
      | nil => intro a _ ha; exact ha
      | cons x l ih =>
        intro a hl ha
        rw [List.foldl_cons]
        apply ih _ fun y hy => hl y (List.mem_cons_of_mem _ hy)
        split
        · exact or_and_zero ha (hl x (by simp))
        · exact ha
    exact gen _ 0 h (by simp)
  have hf : fpeTrap p (jobFlags c p (laneOut c d f p)) = none := by
    rw [jobFlags_eq]
    unfold fpeTrap
    have : ((lanesOf c.m p.width).map fun t => (t, laneFlags c d f p t)).filter (fun x => x.2 &&& enabledFlags p ≠ 0) = [] := by
      rw [List.filter_eq_nil_iff]
      intro x hx
      obtain ⟨t, _, rfl⟩ := List.mem_map.mp hx
      simp [hz t]
    simp only [this]; rfl
  rw [laneOp_eq, hf]
  exact ⟨_, rfl⟩

theorem rdV64_val (p : Pack) (r t x : Nat) (h0 : rdV p r t = x % 4294967296 % 2 ^ 32) (h1 : rdV p (r + 1) t = x / 4294967296 % 2 ^ 32) :
    rdV64 p r t = x % 2 ^ 64 := by
  unfold rdV64; rw [h0, h1]; omega

/-- The writes of some elements. -/
def wrOut (e : Enc) (signed : Bool) (n : Nat) (out : List (Job × Nat × Fl)) (p : Pack) : Pack :=
  out.foldl (fun q x => wrD q e signed n x.1.t x.1.i x.1.j x.2.1) p

theorem wrOut_vector (e : Enc) (signed : Bool) (n : Nat) (hk : (encX e).kd = false) (out : List (Job × Nat × Fl)) (p : Pack) :
    wrOut e signed n out p = wrAll p (outCells e n out) := foldl_wrD_vector e signed n hk out p

theorem wrOut_uniform_cons (e : Enc) (signed : Bool) (n : Nat) (hk : (encX e).kd = true) (x : Job × Nat × Fl)
    (out : List (Job × Nat × Fl)) (p : Pack) :
    wrOut e signed n (x :: out) p = wrOut e signed n out (wrS p e.d.toNat (uniExt signed n x.2.1)) := by
  simp [wrOut, wrD, hk]

/-- A uniform destination leaves the threads and vector registers alone. -/
theorem wrOut_uniform (e : Enc) (signed : Bool) (n : Nat) (hk : (encX e).kd = true) (out : List (Job × Nat × Fl)) (p : Pack) :
    (wrOut e signed n out p).threads = p.threads ∧ (wrOut e signed n out p).v = p.v ∧
      (wrOut e signed n out p).sansLane = p.sansLane ∧ ∀ m, m ≠ e.d.toNat → rdS (wrOut e signed n out p) m = rdS p m := by
  induction out generalizing p with
  | nil => exact ⟨rfl, rfl, rfl, fun _ _ => rfl⟩
  | cons x l ih =>
    rw [wrOut_uniform_cons _ _ _ hk]
    obtain ⟨h1, h2, h3, h4⟩ := ih (wrS p e.d.toNat (uniExt signed n x.2.1))
    exact ⟨h1, h2, h3, fun m hm => (h4 m hm).trans (rdS_wrS_other p _ hm)⟩

theorem sansLane_of_sansV {p q : Pack} (h : p.sansV = q.sansV) : p.sansLane = q.sansLane := by
  have h1 : p.sansV.sansLane = q.sansV.sansLane := congrArg Pack.sansLane h
  have e (r : Pack) : r.sansV.sansLane = r.sansLane := by cases r; rfl
  rw [e, e] at h1
  exact h1

theorem wrOut_sansLane (e : Enc) (signed : Bool) (n : Nat) (out : List (Job × Nat × Fl)) (p : Pack) :
    (wrOut e signed n out p).sansLane = p.sansLane := by
  by_cases hk : (encX e).kd = true
  · exact (wrOut_uniform e signed n hk out p).2.2.1
  · rw [wrOut_vector _ _ _ (by simpa using hk)]; exact sansLane_of_sansV (wrAll_sansV _ _)

theorem wrOut_thread (e : Enc) (signed : Bool) (n : Nat) (out : List (Job × Nat × Fl)) (p : Pack) (u : Nat) :
    (packThread (wrOut e signed n out p) u).sansDead = (packThread p u).sansDead := by
  by_cases hk : (encX e).kd = true
  · unfold packThread; rw [(wrOut_uniform e signed n hk out p).1]
  · rw [wrOut_vector _ _ _ (by simpa using hk)]; exact wrAll_sansDead _ _ _

theorem wrOut_length (e : Enc) (signed : Bool) (n : Nat) (out : List (Job × Nat × Fl)) (p : Pack) :
    (wrOut e signed n out p).threads.length = p.threads.length := by
  by_cases hk : (encX e).kd = true
  · rw [(wrOut_uniform e signed n hk out p).1]
  · rw [wrOut_vector _ _ _ (by simpa using hk)]; exact wrAll_length _ _

theorem wrOut_rdS (e : Enc) (signed : Bool) (n : Nat) (out : List (Job × Nat × Fl)) (p : Pack) (m : Nat)
    (h : (encX e).kd = false ∨ m ≠ e.d.toNat) : rdS (wrOut e signed n out p) m = rdS p m := by
  by_cases hk : (encX e).kd = true
  · exact (wrOut_uniform e signed n hk out p).2.2.2 m (h.resolve_left (by simp [hk]))
  · rw [wrOut_vector _ _ _ (by simpa using hk)]
    have := wrAll_sansV (outCells e n out) p
    unfold rdS
    rw [show (wrAll p (outCells e n out)).sdead = p.sdead from by simpa [Pack.sansV] using congrArg Pack.sdead this,
      show (wrAll p (outCells e n out)).s = p.s from by simpa [Pack.sansV] using congrArg Pack.s this]

theorem outCells_lt (e : Enc) (n : Nat) (out : List (Job × Nat × Fl)) (ht : ∀ x ∈ out, x.1.t < 64) :
    ∀ c ∈ outCells e n out, c.2.1 < 64 := by
  intro c hc
  obtain ⟨y, hy, hcy⟩ := List.mem_flatMap.mp hc
  rw [(elemCells_spec _ _ _ _ _ hcy).1]
  exact ht y hy

theorem wrOut_rdV (e : Enc) (signed : Bool) (n : Nat) (out : List (Job × Nat × Fl)) (p : Pack) (m u : Nat) (hu : u < 64)
    (ht : (encX e).kd = false → ∀ x ∈ out, x.1.t < 64) (h : (encX e).kd = true ∨ ∀ x ∈ out, ¬destCell e n x.1 m u) :
    rdV (wrOut e signed n out p) m u = rdV p m u := by
  by_cases hk : (encX e).kd = true
  · obtain ⟨h1, h2, -, -⟩ := wrOut_uniform e signed n hk out p
    unfold rdV packThread
    rw [h1, h2]
  · have hk' : (encX e).kd = false := by simpa using hk
    rw [wrOut_vector _ _ _ hk']
    apply rdV_wrAll_other _ _ _ _ hu (outCells_lt e n out (ht hk'))
    intro c hc hme
    obtain ⟨y, hy, hcy⟩ := List.mem_flatMap.mp hc
    have := elemCells_spec _ _ _ _ _ hcy
    rw [← hme.1, ← hme.2] at this
    exact (h.resolve_left (by simp [hk'])) y hy this

theorem rdV128_val (p : Pack) (r t x : Nat) (h0 : rdV64 p r t = x % 2 ^ 64 % 2 ^ 64) (h1 : rdV64 p (r + 2) t = x / 2 ^ 64 % 2 ^ 64) :
    rdV128 p r t = x % 2 ^ 128 := by
  unfold rdV128; rw [h0, h1]; omega

/-- Each element's destination reads back its result. -/
theorem wrOut_holds (e : Enc) (signed : Bool) (n : Nat) (out : List (Job × Nat × Fl)) (p : Pack)
    (fit : (encX e).kd = false → BlockFits e n) (ht : (encX e).kd = false → ∀ x ∈ out, x.1.t < 64)
    (hb : (encX e).kd = false → ∀ x ∈ out, (x.1.i, x.1.j) ∈ blockElems e) (hd : (out.map (·.1)).Nodup)
    (h1 : (encX e).kd = true → out.length ≤ 1) (x : Job × Nat × Fl) (hx : x ∈ out) :
    destHolds (wrOut e signed n out p) e signed n x.1 x.2.1 := by
  by_cases hk : (encX e).kd = true
  · have ho : out = [x] := by
      match out, h1 hk, hx with
      | [y], _, hx => rw [List.mem_singleton.mp hx]
    unfold destHolds
    simp only [hk, if_true, ho, wrOut_uniform_cons _ _ _ hk]
    exact rdS_wrS_same ..
  · have hk' : (encX e).kd = false := by simpa using hk
    have hpw := outCells_pairwise e n (fit hk') out (hb hk') hd
    have hlt := outCells_lt e n out (ht hk')
    have key (c : Nat × Nat × Nat) (hc : c ∈ elemCells e n x.1 x.2.1) :
        rdV (wrOut e signed n out p) c.1 c.2.1 = c.2.2 % 2 ^ 32 := by
      rw [wrOut_vector _ _ _ hk']
      exact rdV_wrAll_mem _ p hlt hpw c (List.mem_flatMap.mpr ⟨x, hx, hc⟩)
    generalize wrOut e signed n out p = w at key
    unfold destHolds
    simp only [hk', Bool.false_eq_true, if_false]
    unfold elemCells at key
    generalize blockReg (encD e) 0 x.1.i x.1.j (colsOf n) = r at *
    by_cases hn : n ≤ 32
    · simp only [hn, if_true] at key ⊢
      exact key (r, x.1.t, x.2.1) (by simp)
    · by_cases hn2 : n ≤ 64
      · simp only [hn, hn2, if_false, if_true] at key ⊢
        exact rdV64_val _ _ _ _ (key (r, x.1.t, _) (by simp)) (key (r + 1, x.1.t, _) (by simp))
      · simp only [hn, hn2, if_false] at key ⊢
        exact rdV128_val _ _ _ _ (rdV64_val _ _ _ _ (key (r, x.1.t, _) (by simp)) (key (r + 1, x.1.t, _) (by simp)))
          (rdV64_val _ _ _ _ (key (r + 2, x.1.t, _) (by simp)) (key (r + 3, x.1.t, _) (by simp)))

theorem destHolds_congr {p q : Pack} (e : Enc) (signed : Bool) (n : Nat) (j : Job) (x : Nat)
    (hv : ∀ m u, rdV q m u = rdV p m u) (hs : ∀ m, rdS q m = rdS p m) (h : destHolds p e signed n j x) :
    destHolds q e signed n j x := by
  unfold destHolds rdV128 rdV64 at *
  simp only [hv, hs]
  exact h

/-- Everything a lane instruction that completes leaves. -/
theorem laneOp_done (c : Ctx) (n : Nat) (signed : Bool) (d : Nat) (f : Job → List Nat → Nat × Fl) (p q : Pack)
    (fit : (encX c.e).kd = false → BlockFits c.e n) (h : laneOp c n signed d f p = .ok q) : LaneDone c n signed d f p q := by
  rw [laneOp_eq] at h
  split at h
  · cases h
  · injection h with h
    subst h
    have hfl := jobFlags_eq c d f p
    generalize jobFlags c p (laneOut c d f p) = fl at *
    have hlt (hk : (encX c.e).kd = false) : ∀ x ∈ laneOut c d f p, x.1.t < 64 := fun x hx =>
      lanesOf_lt ((jobsOf_vector c p hk x.1).mp (mem_laneOut_job hx)).1
    have hbl (hk : (encX c.e).kd = false) : ∀ x ∈ laneOut c d f p, (x.1.i, x.1.j) ∈ blockElems c.e := fun x hx =>
      ((jobsOf_vector c p hk x.1).mp (mem_laneOut_job hx)).2
    have hnd : ((laneOut c d f p).map (·.1)).Nodup := by rw [laneOut_map_fst]; exact jobsOf_nodup c p
    have hone (hk : (encX c.e).kd = true) : (laneOut c d f p).length ≤ 1 := by
      have : (laneOut c d f p).length = (jobsOf c p).length := by simp [laneOut]
      rw [this]; simp [jobsOf, hk]
    have hjob (x : Job × Nat × Fl) (hx : x ∈ laneOut c d f p) : x.1 ∈ jobsOf c p := mem_laneOut_job hx
    have holds := wrOut_holds c.e signed n (laneOut c d f p) p fit hlt hbl hnd hone
    have frameV := wrOut_rdV c.e signed n (laneOut c d f p) p
    have frameS := wrOut_rdS c.e signed n (laneOut c d f p) p
    have frameT := wrOut_thread c.e signed n (laneOut c d f p) p
    have len := wrOut_length c.e signed n (laneOut c d f p) p
    have lane := wrOut_sansLane c.e signed n (laneOut c d f p) p
    change ∀ _, _ at holds
    rw [show (laneOut c d f p).foldl (fun q x => wrD q c.e signed n x.1.t x.1.i x.1.j x.2.1) p =
      wrOut c.e signed n (laneOut c d f p) p from rfl]
    generalize wrOut c.e signed n (laneOut c d f p) p = w at *
    refine ⟨?_, ?_, ?_, rfl, ?_, ?_, ?_⟩
    · exact fun x hx => destHolds_congr _ _ _ _ _ (fun m u => raiseFlags_rdV w fl m u) (fun m => raiseFlags_rdS w fl m) (holds x hx)
    · intro m u hu hor
      exact (raiseFlags_rdV w fl m u).trans (frameV m u hu hlt (hor.imp id fun g x hx => g x.1 (hjob x hx)))
    · exact fun m hor => (raiseFlags_rdS w fl m).trans (frameS m hor)
    · intro u hu
      refine (raiseFlags_fflags w fl u (by rw [len]; exact hu)).trans ?_
      have hff : (packThread w u).fflags = (packThread p u).fflags := by
        simpa [Thread.sansDead] using congrArg Thread.fflags (frameT u)
      rw [hff, hfl, foldl_flags_mapped _ _ _ _ (lanesOf_nodup _ _)]
    · intro u
      have h1 := raiseFlags_thread w fl u
      have h2 := frameT u
      show (packThread (raiseFlags w fl) u).sansFl = _
      generalize packThread (raiseFlags w fl) u = a at *
      generalize packThread w u = b at *
      generalize packThread p u = cc at *
      cases a; cases b; cases cc
      simp_all [Thread.sansFl, Thread.sansDead]
    · obtain ⟨ths, hths⟩ := raiseFlags_eq w fl
      rw [hths]
      exact lane

end Sys2Proof.Machine
end

