-- ==== Sys2Proof/Laws/Illop.lean ====
section
/-! SUPPORT. What the encoding checks of 02 R57 promise of an instruction that passes them. -/

namespace Sys2Proof.Machine

theorem sub_nil {b : Bool} {n : Nat} : sub b n = [] ↔ b = false := by
  cases b <;> simp [sub]

theorem leastSub_none {l : List Nat} : leastSub l = none ↔ l = [] := by
  cases l with
  | nil => simp [leastSub]
  | cons x l => simp only [leastSub]; split <;> simp

/-- An instruction that passes has a row and breaks none of its checks. -/
theorem legal_row {w : Nat} {i : Instr} {o : Nat} {e : Enc} {r : Row} (h : illopSub w i = none) (ho : opcodeOf i = some (o, e))
    (hr : rowOf w i = some r) : rowSubs r e = [] := by
  unfold illopSub at h
  split at h
  · cases h
  · rw [ho, hr] at h; exact (List.append_eq_nil_iff.mp (List.append_eq_nil_iff.mp (leastSub_none.mp h)).1).1

theorem blockElems_one {e : Enc} (hh : (encX e).bh = 0) (hw : (encX e).bw = 0) : blockElems e = [(0, 0)] := by
  unfold blockElems; rw [hh, hw]; rfl

theorem blockElems_of_blockSubs {r : Row} {e : Enc} (hb : r.block = false) (h : blockSubs r e = []) : blockElems e = [(0, 0)] := by
  unfold blockSubs at h
  simp only [hb, Bool.not_false, if_true, sub_nil, Bool.or_eq_false_iff, Bool.not_eq_false', Bool.and_eq_true, decide_eq_true_eq] at h
  exact blockElems_one h.1.1 h.1.2

/-- What a vector destination's field check says of its block. -/
theorem fits_of_fldSubs {e : Enc} {n : Nat} {f : Fld} (hf : f = .vec n ∨ f = .vecOnly n)
    (h : fldSubs (blockElems e) f (encD e) false 0 = []) : BlockFits e n := by
  have h2 : (blockElems e).any (fun b => decide (15 < encD e / 16 + b.1) || decide (15 < encD e % 16 + b.2 * colsOf n + colsOf n - 1)) = false := by
    rcases hf with rfl | rfl
    · simp only [fldSubs, Bool.false_eq_true, if_false, List.append_eq_nil_iff, sub_nil] at h
      simpa using h.2
    · simp only [fldSubs, List.append_eq_nil_iff, sub_nil] at h
      simpa using h.2.2
  intro b hb
  rw [List.any_eq_false] at h2
  have := h2 b hb
  simp only [Bool.or_eq_true, decide_eq_true_eq, not_or, not_lt] at this
  have hc : 0 < colsOf n := by unfold colsOf; split <;> [skip; split] <;> omega
  omega

/-- The destination block of a legal instruction with a vector destination of `n` bits fits the register grid. -/
theorem legal_fits {w : Nat} {i : Instr} {o : Nat} {e : Enc} {r : Row} {n : Nat} (h : illopSub w i = none)
    (ho : opcodeOf i = some (o, e)) (hr : rowOf w i = some r) (hd : r.d = .vec n ∨ r.d = .vecOnly n)
    (hf : r.form = .rr ∨ r.form = .ri ∨ r.form = .xe) (hk : (encX e).kd = false) : BlockFits e n := by
  have h0 := legal_row h ho hr
  unfold rowSubs at h0
  have hreg : (decide (r.form = .rr) || decide (r.form = .ri) || decide (r.form = .xe) || decide (r.form = .mm)) = true := by
    rcases hf with h | h | h <;> simp [h]
  have hmm : decide (r.form ≠ .mm) = true := by rcases hf with h | h | h <;> simp [h]
  simp only [hreg, hmm, Bool.and_true, if_true, List.append_eq_nil_iff] at h0
  have hfld : fldSubs (if r.block then blockElems e else [(0, 0)]) r.d (encD e) (encX e).kd 0 = [] := by tauto
  have hblk : blockSubs r e = [] := by tauto
  rw [hk] at hfld
  cases hb : r.block with
  | false =>
    have hone := blockElems_of_blockSubs hb hblk
    rw [hb] at hfld
    simp only [Bool.false_eq_true, if_false] at hfld
    rw [← hone] at hfld
    exact fits_of_fldSubs hd hfld
  | true =>
    rw [hb] at hfld
    simp only [if_true] at hfld
    exact fits_of_fldSubs hd hfld

end Sys2Proof.Machine
end

