-- ==== Sys2Proof/Laws/State.lean ====
section
/-! SUPPORT. What each update of the state leaves as it was, and what it changes: one lemma for each field and update. -/

namespace Sys2Proof.Machine

/-! ### setPack -/

@[simp] theorem State.setPack_mem (s : State) (n : Nat) (p : Pack) : (s.setPack n p).mem = s.mem := rfl
@[simp] theorem State.setPack_tags (s : State) (n : Nat) (p : Pack) : (s.setPack n p).tags = s.tags := rfl
@[simp] theorem State.setPack_poison (s : State) (n : Nat) (p : Pack) : (s.setPack n p).poison = s.poison := rfl
@[simp] theorem State.setPack_detail (s : State) (n : Nat) (p : Pack) : (s.setPack n p).detail = s.detail := rfl
@[simp] theorem State.setPack_check (s : State) (n : Nat) (p : Pack) : (s.setPack n p).check = s.check := rfl
@[simp] theorem State.setPack_headers (s : State) (n : Nat) (p : Pack) : (s.setPack n p).headers = s.headers := rfl
@[simp] theorem State.setPack_waiting (s : State) (n : Nat) (p : Pack) : (s.setPack n p).waiting = s.waiting := rfl
@[simp] theorem State.setPack_sight (s : State) (n : Nat) (p : Pack) : (s.setPack n p).sight = s.sight := rfl
@[simp] theorem State.setPack_bar0 (s : State) (n : Nat) (p : Pack) : (s.setPack n p).bar0 = s.bar0 := rfl
@[simp] theorem State.setPack_power (s : State) (n : Nat) (p : Pack) : (s.setPack n p).power = s.power := rfl
@[simp] theorem State.setPack_cxl (s : State) (n : Nat) (p : Pack) : (s.setPack n p).cxl = s.cxl := rfl
@[simp] theorem State.setPack_counters (s : State) (n : Nat) (p : Pack) : (s.setPack n p).counters = s.counters := rfl
@[simp] theorem State.setPack_wdogLim (s : State) (n : Nat) (p : Pack) : (s.setPack n p).wdogLim = s.wdogLim := rfl
@[simp] theorem State.setPack_ports (s : State) (n : Nat) (p : Pack) : (s.setPack n p).ports = s.ports := rfl
@[simp] theorem State.setPack_linkReply (s : State) (n : Nat) (p : Pack) : (s.setPack n p).linkReply = s.linkReply := rfl
@[simp] theorem State.setPack_queues (s : State) (n : Nat) (p : Pack) : (s.setPack n p).queues = s.queues := rfl
@[simp] theorem State.setPack_launches (s : State) (n : Nat) (p : Pack) : (s.setPack n p).launches = s.launches := rfl
@[simp] theorem State.setPack_troops (s : State) (n : Nat) (p : Pack) : (s.setPack n p).troops = s.troops := rfl
@[simp] theorem State.setPack_gangs (s : State) (n : Nat) (p : Pack) : (s.setPack n p).gangs = s.gangs := rfl
@[simp] theorem State.setPack_crews (s : State) (n : Nat) (p : Pack) : (s.setPack n p).crews = s.crews := rfl
@[simp] theorem State.setPack_devLaunches (s : State) (n : Nat) (p : Pack) : (s.setPack n p).devLaunches = s.devLaunches := rfl
@[simp] theorem State.setPack_copies (s : State) (n : Nat) (p : Pack) : (s.setPack n p).copies = s.copies := rfl
@[simp] theorem State.setPack_seqs (s : State) (n : Nat) (p : Pack) : (s.setPack n p).seqs = s.seqs := rfl
@[simp] theorem State.setPack_geos (s : State) (n : Nat) (p : Pack) : (s.setPack n p).geos = s.geos := rfl
@[simp] theorem State.setPack_rayRegions (s : State) (n : Nat) (p : Pack) : (s.setPack n p).rayRegions = s.rayRegions := rfl
@[simp] theorem State.setPack_gather (s : State) (n : Nat) (p : Pack) : (s.setPack n p).gather = s.gather := rfl
@[simp] theorem State.setPack_subs (s : State) (n : Nat) (p : Pack) : (s.setPack n p).subs = s.subs := rfl
@[simp] theorem State.setPack_spills (s : State) (n : Nat) (p : Pack) : (s.setPack n p).spills = s.spills := rfl
@[simp] theorem State.setPack_rf (s : State) (n : Nat) (p : Pack) : (s.setPack n p).rf = s.rf := rfl
@[simp] theorem State.setPack_utlb (s : State) (n : Nat) (p : Pack) : (s.setPack n p).utlb = s.utlb := rfl
@[simp] theorem State.setPack_tlb (s : State) (n : Nat) (p : Pack) : (s.setPack n p).tlb = s.tlb := rfl
@[simp] theorem State.setPack_faultRecs (s : State) (n : Nat) (p : Pack) : (s.setPack n p).faultRecs = s.faultRecs := rfl
@[simp] theorem State.setPack_pendFaults (s : State) (n : Nat) (p : Pack) : (s.setPack n p).pendFaults = s.pendFaults := rfl
@[simp] theorem State.setPack_faultSeq (s : State) (n : Nat) (p : Pack) : (s.setPack n p).faultSeq = s.faultSeq := rfl
@[simp] theorem State.setPack_events (s : State) (n : Nat) (p : Pack) : (s.setPack n p).events = s.events := rfl
@[simp] theorem State.setPack_cmd (s : State) (n : Nat) (p : Pack) : (s.setPack n p).cmd = s.cmd := rfl
@[simp] theorem State.setPack_cur (s : State) (n : Nat) (p : Pack) : (s.setPack n p).cur = s.cur := rfl
@[simp] theorem State.setPack_stalled (s : State) (n : Nat) (p : Pack) : (s.setPack n p).stalled = s.stalled := rfl
@[simp] theorem State.setPack_yields (s : State) (n : Nat) (p : Pack) : (s.setPack n p).yields = s.yields := rfl
@[simp] theorem State.setPack_turn (s : State) (n : Nat) (p : Pack) : (s.setPack n p).turn = s.turn := rfl
@[simp] theorem State.setPack_tick (s : State) (n : Nat) (p : Pack) : (s.setPack n p).tick = s.tick := rfl
@[simp] theorem State.setPack_fresh (s : State) (n : Nat) (p : Pack) : (s.setPack n p).fresh = s.fresh := rfl
@[simp] theorem State.setPack_agenda (s : State) (n : Nat) (p : Pack) : (s.setPack n p).agenda = s.agenda := rfl
@[simp] theorem State.setPack_crew (s : State) (n : Nat) (p : Pack) (k : Nat) : (s.setPack n p).crew k = s.crew k := rfl
@[simp] theorem State.setPack_gang (s : State) (n : Nat) (p : Pack) (k : Nat) : (s.setPack n p).gang k = s.gang k := rfl
@[simp] theorem State.setPack_troop (s : State) (n : Nat) (p : Pack) (k : Nat) : (s.setPack n p).troop k = s.troop k := rfl
@[simp] theorem State.setPack_launch (s : State) (n : Nat) (p : Pack) (k : Nat) : (s.setPack n p).launch k = s.launch k := rfl
@[simp] theorem State.setPack_queue (s : State) (n : Nat) (p : Pack) (k : Nat) : (s.setPack n p).queue k = s.queue k := rfl
@[simp] theorem State.setPack_copyAt (s : State) (n : Nat) (p : Pack) (k : Nat) : (s.setPack n p).copyAt k = s.copyAt k := rfl
@[simp] theorem State.setPack_sub (s : State) (n : Nat) (p : Pack) (k : Nat) : (s.setPack n p).sub k = s.sub k := rfl
@[simp] theorem State.setPack_geoOp (s : State) (n : Nat) (p : Pack) (k : Nat) : (s.setPack n p).geoOp k = s.geoOp k := rfl
@[simp] theorem State.setPack_seq (s : State) (n : Nat) (p : Pack) (k : Nat) : (s.setPack n p).seq k = s.seq k := rfl
@[simp] theorem State.setPack_spillsOf (s : State) (n : Nat) (p : Pack) (k : Nat) : (s.setPack n p).spillsOf k = s.spillsOf k := rfl
@[simp] theorem State.setPack_byte (s : State) (n : Nat) (p : Pack) (k : Nat) : (s.setPack n p).byte k = s.byte k := rfl
/-- What `setPack` writes reads back. -/
@[simp] theorem State.setPack_pack_same (s : State) (n : Nat) (p : Pack) : (s.setPack n p).pack n = p :=
  Tab.get_set_same _ _ _ _
/-- `setPack` leaves every other record as it was. -/
theorem State.setPack_pack_other (s : State) (n : Nat) (p : Pack) (k : Nat) (h : k ≠ n) :
    (s.setPack n p).pack k = s.pack k := Tab.get_set_other _ _ _ h

/-! ### setCrew -/

@[simp] theorem State.setCrew_mem (s : State) (n : Nat) (c : Crew) : (s.setCrew n c).mem = s.mem := rfl
@[simp] theorem State.setCrew_tags (s : State) (n : Nat) (c : Crew) : (s.setCrew n c).tags = s.tags := rfl
@[simp] theorem State.setCrew_poison (s : State) (n : Nat) (c : Crew) : (s.setCrew n c).poison = s.poison := rfl
@[simp] theorem State.setCrew_detail (s : State) (n : Nat) (c : Crew) : (s.setCrew n c).detail = s.detail := rfl
@[simp] theorem State.setCrew_check (s : State) (n : Nat) (c : Crew) : (s.setCrew n c).check = s.check := rfl
@[simp] theorem State.setCrew_headers (s : State) (n : Nat) (c : Crew) : (s.setCrew n c).headers = s.headers := rfl
@[simp] theorem State.setCrew_waiting (s : State) (n : Nat) (c : Crew) : (s.setCrew n c).waiting = s.waiting := rfl
@[simp] theorem State.setCrew_sight (s : State) (n : Nat) (c : Crew) : (s.setCrew n c).sight = s.sight := rfl
@[simp] theorem State.setCrew_bar0 (s : State) (n : Nat) (c : Crew) : (s.setCrew n c).bar0 = s.bar0 := rfl
@[simp] theorem State.setCrew_power (s : State) (n : Nat) (c : Crew) : (s.setCrew n c).power = s.power := rfl
@[simp] theorem State.setCrew_cxl (s : State) (n : Nat) (c : Crew) : (s.setCrew n c).cxl = s.cxl := rfl
@[simp] theorem State.setCrew_counters (s : State) (n : Nat) (c : Crew) : (s.setCrew n c).counters = s.counters := rfl
@[simp] theorem State.setCrew_wdogLim (s : State) (n : Nat) (c : Crew) : (s.setCrew n c).wdogLim = s.wdogLim := rfl
@[simp] theorem State.setCrew_ports (s : State) (n : Nat) (c : Crew) : (s.setCrew n c).ports = s.ports := rfl
@[simp] theorem State.setCrew_linkReply (s : State) (n : Nat) (c : Crew) : (s.setCrew n c).linkReply = s.linkReply := rfl
@[simp] theorem State.setCrew_queues (s : State) (n : Nat) (c : Crew) : (s.setCrew n c).queues = s.queues := rfl
@[simp] theorem State.setCrew_launches (s : State) (n : Nat) (c : Crew) : (s.setCrew n c).launches = s.launches := rfl
@[simp] theorem State.setCrew_troops (s : State) (n : Nat) (c : Crew) : (s.setCrew n c).troops = s.troops := rfl
@[simp] theorem State.setCrew_gangs (s : State) (n : Nat) (c : Crew) : (s.setCrew n c).gangs = s.gangs := rfl
@[simp] theorem State.setCrew_packs (s : State) (n : Nat) (c : Crew) : (s.setCrew n c).packs = s.packs := rfl
@[simp] theorem State.setCrew_devLaunches (s : State) (n : Nat) (c : Crew) : (s.setCrew n c).devLaunches = s.devLaunches := rfl
@[simp] theorem State.setCrew_copies (s : State) (n : Nat) (c : Crew) : (s.setCrew n c).copies = s.copies := rfl
@[simp] theorem State.setCrew_seqs (s : State) (n : Nat) (c : Crew) : (s.setCrew n c).seqs = s.seqs := rfl
@[simp] theorem State.setCrew_geos (s : State) (n : Nat) (c : Crew) : (s.setCrew n c).geos = s.geos := rfl
@[simp] theorem State.setCrew_rayRegions (s : State) (n : Nat) (c : Crew) : (s.setCrew n c).rayRegions = s.rayRegions := rfl
@[simp] theorem State.setCrew_gather (s : State) (n : Nat) (c : Crew) : (s.setCrew n c).gather = s.gather := rfl
@[simp] theorem State.setCrew_subs (s : State) (n : Nat) (c : Crew) : (s.setCrew n c).subs = s.subs := rfl
@[simp] theorem State.setCrew_spills (s : State) (n : Nat) (c : Crew) : (s.setCrew n c).spills = s.spills := rfl
@[simp] theorem State.setCrew_rf (s : State) (n : Nat) (c : Crew) : (s.setCrew n c).rf = s.rf := rfl
@[simp] theorem State.setCrew_utlb (s : State) (n : Nat) (c : Crew) : (s.setCrew n c).utlb = s.utlb := rfl
@[simp] theorem State.setCrew_tlb (s : State) (n : Nat) (c : Crew) : (s.setCrew n c).tlb = s.tlb := rfl
@[simp] theorem State.setCrew_faultRecs (s : State) (n : Nat) (c : Crew) : (s.setCrew n c).faultRecs = s.faultRecs := rfl
@[simp] theorem State.setCrew_pendFaults (s : State) (n : Nat) (c : Crew) : (s.setCrew n c).pendFaults = s.pendFaults := rfl
@[simp] theorem State.setCrew_faultSeq (s : State) (n : Nat) (c : Crew) : (s.setCrew n c).faultSeq = s.faultSeq := rfl
@[simp] theorem State.setCrew_events (s : State) (n : Nat) (c : Crew) : (s.setCrew n c).events = s.events := rfl
@[simp] theorem State.setCrew_cmd (s : State) (n : Nat) (c : Crew) : (s.setCrew n c).cmd = s.cmd := rfl
@[simp] theorem State.setCrew_cur (s : State) (n : Nat) (c : Crew) : (s.setCrew n c).cur = s.cur := rfl
@[simp] theorem State.setCrew_stalled (s : State) (n : Nat) (c : Crew) : (s.setCrew n c).stalled = s.stalled := rfl
@[simp] theorem State.setCrew_yields (s : State) (n : Nat) (c : Crew) : (s.setCrew n c).yields = s.yields := rfl
@[simp] theorem State.setCrew_turn (s : State) (n : Nat) (c : Crew) : (s.setCrew n c).turn = s.turn := rfl
@[simp] theorem State.setCrew_tick (s : State) (n : Nat) (c : Crew) : (s.setCrew n c).tick = s.tick := rfl
@[simp] theorem State.setCrew_fresh (s : State) (n : Nat) (c : Crew) : (s.setCrew n c).fresh = s.fresh := rfl
@[simp] theorem State.setCrew_agenda (s : State) (n : Nat) (c : Crew) : (s.setCrew n c).agenda = s.agenda := rfl
@[simp] theorem State.setCrew_pack (s : State) (n : Nat) (c : Crew) (k : Nat) : (s.setCrew n c).pack k = s.pack k := rfl
@[simp] theorem State.setCrew_gang (s : State) (n : Nat) (c : Crew) (k : Nat) : (s.setCrew n c).gang k = s.gang k := rfl
@[simp] theorem State.setCrew_troop (s : State) (n : Nat) (c : Crew) (k : Nat) : (s.setCrew n c).troop k = s.troop k := rfl
@[simp] theorem State.setCrew_launch (s : State) (n : Nat) (c : Crew) (k : Nat) : (s.setCrew n c).launch k = s.launch k := rfl
@[simp] theorem State.setCrew_queue (s : State) (n : Nat) (c : Crew) (k : Nat) : (s.setCrew n c).queue k = s.queue k := rfl
@[simp] theorem State.setCrew_copyAt (s : State) (n : Nat) (c : Crew) (k : Nat) : (s.setCrew n c).copyAt k = s.copyAt k := rfl
@[simp] theorem State.setCrew_sub (s : State) (n : Nat) (c : Crew) (k : Nat) : (s.setCrew n c).sub k = s.sub k := rfl
@[simp] theorem State.setCrew_geoOp (s : State) (n : Nat) (c : Crew) (k : Nat) : (s.setCrew n c).geoOp k = s.geoOp k := rfl
@[simp] theorem State.setCrew_seq (s : State) (n : Nat) (c : Crew) (k : Nat) : (s.setCrew n c).seq k = s.seq k := rfl
@[simp] theorem State.setCrew_spillsOf (s : State) (n : Nat) (c : Crew) (k : Nat) : (s.setCrew n c).spillsOf k = s.spillsOf k := rfl
@[simp] theorem State.setCrew_byte (s : State) (n : Nat) (c : Crew) (k : Nat) : (s.setCrew n c).byte k = s.byte k := rfl
/-- What `setCrew` writes reads back. -/
@[simp] theorem State.setCrew_crew_same (s : State) (n : Nat) (c : Crew) : (s.setCrew n c).crew n = c :=
  Tab.get_set_same _ _ _ _
/-- `setCrew` leaves every other record as it was. -/
theorem State.setCrew_crew_other (s : State) (n : Nat) (c : Crew) (k : Nat) (h : k ≠ n) :
    (s.setCrew n c).crew k = s.crew k := Tab.get_set_other _ _ _ h

/-! ### setGang -/

@[simp] theorem State.setGang_mem (s : State) (n : Nat) (g : Gang) : (s.setGang n g).mem = s.mem := rfl
@[simp] theorem State.setGang_tags (s : State) (n : Nat) (g : Gang) : (s.setGang n g).tags = s.tags := rfl
@[simp] theorem State.setGang_poison (s : State) (n : Nat) (g : Gang) : (s.setGang n g).poison = s.poison := rfl
@[simp] theorem State.setGang_detail (s : State) (n : Nat) (g : Gang) : (s.setGang n g).detail = s.detail := rfl
@[simp] theorem State.setGang_check (s : State) (n : Nat) (g : Gang) : (s.setGang n g).check = s.check := rfl
@[simp] theorem State.setGang_headers (s : State) (n : Nat) (g : Gang) : (s.setGang n g).headers = s.headers := rfl
@[simp] theorem State.setGang_waiting (s : State) (n : Nat) (g : Gang) : (s.setGang n g).waiting = s.waiting := rfl
@[simp] theorem State.setGang_sight (s : State) (n : Nat) (g : Gang) : (s.setGang n g).sight = s.sight := rfl
@[simp] theorem State.setGang_bar0 (s : State) (n : Nat) (g : Gang) : (s.setGang n g).bar0 = s.bar0 := rfl
@[simp] theorem State.setGang_power (s : State) (n : Nat) (g : Gang) : (s.setGang n g).power = s.power := rfl
@[simp] theorem State.setGang_cxl (s : State) (n : Nat) (g : Gang) : (s.setGang n g).cxl = s.cxl := rfl
@[simp] theorem State.setGang_counters (s : State) (n : Nat) (g : Gang) : (s.setGang n g).counters = s.counters := rfl
@[simp] theorem State.setGang_wdogLim (s : State) (n : Nat) (g : Gang) : (s.setGang n g).wdogLim = s.wdogLim := rfl
@[simp] theorem State.setGang_ports (s : State) (n : Nat) (g : Gang) : (s.setGang n g).ports = s.ports := rfl
@[simp] theorem State.setGang_linkReply (s : State) (n : Nat) (g : Gang) : (s.setGang n g).linkReply = s.linkReply := rfl
@[simp] theorem State.setGang_queues (s : State) (n : Nat) (g : Gang) : (s.setGang n g).queues = s.queues := rfl
@[simp] theorem State.setGang_launches (s : State) (n : Nat) (g : Gang) : (s.setGang n g).launches = s.launches := rfl
@[simp] theorem State.setGang_troops (s : State) (n : Nat) (g : Gang) : (s.setGang n g).troops = s.troops := rfl
@[simp] theorem State.setGang_crews (s : State) (n : Nat) (g : Gang) : (s.setGang n g).crews = s.crews := rfl
@[simp] theorem State.setGang_packs (s : State) (n : Nat) (g : Gang) : (s.setGang n g).packs = s.packs := rfl
@[simp] theorem State.setGang_devLaunches (s : State) (n : Nat) (g : Gang) : (s.setGang n g).devLaunches = s.devLaunches := rfl
@[simp] theorem State.setGang_copies (s : State) (n : Nat) (g : Gang) : (s.setGang n g).copies = s.copies := rfl
@[simp] theorem State.setGang_seqs (s : State) (n : Nat) (g : Gang) : (s.setGang n g).seqs = s.seqs := rfl
@[simp] theorem State.setGang_geos (s : State) (n : Nat) (g : Gang) : (s.setGang n g).geos = s.geos := rfl
@[simp] theorem State.setGang_rayRegions (s : State) (n : Nat) (g : Gang) : (s.setGang n g).rayRegions = s.rayRegions := rfl
@[simp] theorem State.setGang_gather (s : State) (n : Nat) (g : Gang) : (s.setGang n g).gather = s.gather := rfl
@[simp] theorem State.setGang_subs (s : State) (n : Nat) (g : Gang) : (s.setGang n g).subs = s.subs := rfl
@[simp] theorem State.setGang_spills (s : State) (n : Nat) (g : Gang) : (s.setGang n g).spills = s.spills := rfl
@[simp] theorem State.setGang_rf (s : State) (n : Nat) (g : Gang) : (s.setGang n g).rf = s.rf := rfl
@[simp] theorem State.setGang_utlb (s : State) (n : Nat) (g : Gang) : (s.setGang n g).utlb = s.utlb := rfl
@[simp] theorem State.setGang_tlb (s : State) (n : Nat) (g : Gang) : (s.setGang n g).tlb = s.tlb := rfl
@[simp] theorem State.setGang_faultRecs (s : State) (n : Nat) (g : Gang) : (s.setGang n g).faultRecs = s.faultRecs := rfl
@[simp] theorem State.setGang_pendFaults (s : State) (n : Nat) (g : Gang) : (s.setGang n g).pendFaults = s.pendFaults := rfl
@[simp] theorem State.setGang_faultSeq (s : State) (n : Nat) (g : Gang) : (s.setGang n g).faultSeq = s.faultSeq := rfl
@[simp] theorem State.setGang_events (s : State) (n : Nat) (g : Gang) : (s.setGang n g).events = s.events := rfl
@[simp] theorem State.setGang_cmd (s : State) (n : Nat) (g : Gang) : (s.setGang n g).cmd = s.cmd := rfl
@[simp] theorem State.setGang_cur (s : State) (n : Nat) (g : Gang) : (s.setGang n g).cur = s.cur := rfl
@[simp] theorem State.setGang_stalled (s : State) (n : Nat) (g : Gang) : (s.setGang n g).stalled = s.stalled := rfl
@[simp] theorem State.setGang_yields (s : State) (n : Nat) (g : Gang) : (s.setGang n g).yields = s.yields := rfl
@[simp] theorem State.setGang_turn (s : State) (n : Nat) (g : Gang) : (s.setGang n g).turn = s.turn := rfl
@[simp] theorem State.setGang_tick (s : State) (n : Nat) (g : Gang) : (s.setGang n g).tick = s.tick := rfl
@[simp] theorem State.setGang_fresh (s : State) (n : Nat) (g : Gang) : (s.setGang n g).fresh = s.fresh := rfl
@[simp] theorem State.setGang_agenda (s : State) (n : Nat) (g : Gang) : (s.setGang n g).agenda = s.agenda := rfl
@[simp] theorem State.setGang_pack (s : State) (n : Nat) (g : Gang) (k : Nat) : (s.setGang n g).pack k = s.pack k := rfl
@[simp] theorem State.setGang_crew (s : State) (n : Nat) (g : Gang) (k : Nat) : (s.setGang n g).crew k = s.crew k := rfl
@[simp] theorem State.setGang_troop (s : State) (n : Nat) (g : Gang) (k : Nat) : (s.setGang n g).troop k = s.troop k := rfl
@[simp] theorem State.setGang_launch (s : State) (n : Nat) (g : Gang) (k : Nat) : (s.setGang n g).launch k = s.launch k := rfl
@[simp] theorem State.setGang_queue (s : State) (n : Nat) (g : Gang) (k : Nat) : (s.setGang n g).queue k = s.queue k := rfl
@[simp] theorem State.setGang_copyAt (s : State) (n : Nat) (g : Gang) (k : Nat) : (s.setGang n g).copyAt k = s.copyAt k := rfl
@[simp] theorem State.setGang_sub (s : State) (n : Nat) (g : Gang) (k : Nat) : (s.setGang n g).sub k = s.sub k := rfl
@[simp] theorem State.setGang_geoOp (s : State) (n : Nat) (g : Gang) (k : Nat) : (s.setGang n g).geoOp k = s.geoOp k := rfl
@[simp] theorem State.setGang_seq (s : State) (n : Nat) (g : Gang) (k : Nat) : (s.setGang n g).seq k = s.seq k := rfl
@[simp] theorem State.setGang_spillsOf (s : State) (n : Nat) (g : Gang) (k : Nat) : (s.setGang n g).spillsOf k = s.spillsOf k := rfl
@[simp] theorem State.setGang_byte (s : State) (n : Nat) (g : Gang) (k : Nat) : (s.setGang n g).byte k = s.byte k := rfl
/-- What `setGang` writes reads back. -/
@[simp] theorem State.setGang_gang_same (s : State) (n : Nat) (g : Gang) : (s.setGang n g).gang n = g :=
  Tab.get_set_same _ _ _ _
/-- `setGang` leaves every other record as it was. -/
theorem State.setGang_gang_other (s : State) (n : Nat) (g : Gang) (k : Nat) (h : k ≠ n) :
    (s.setGang n g).gang k = s.gang k := Tab.get_set_other _ _ _ h

/-! ### setTroop -/

@[simp] theorem State.setTroop_mem (s : State) (n : Nat) (t : Troop) : (s.setTroop n t).mem = s.mem := rfl
@[simp] theorem State.setTroop_tags (s : State) (n : Nat) (t : Troop) : (s.setTroop n t).tags = s.tags := rfl
@[simp] theorem State.setTroop_poison (s : State) (n : Nat) (t : Troop) : (s.setTroop n t).poison = s.poison := rfl
@[simp] theorem State.setTroop_detail (s : State) (n : Nat) (t : Troop) : (s.setTroop n t).detail = s.detail := rfl
@[simp] theorem State.setTroop_check (s : State) (n : Nat) (t : Troop) : (s.setTroop n t).check = s.check := rfl
@[simp] theorem State.setTroop_headers (s : State) (n : Nat) (t : Troop) : (s.setTroop n t).headers = s.headers := rfl
@[simp] theorem State.setTroop_waiting (s : State) (n : Nat) (t : Troop) : (s.setTroop n t).waiting = s.waiting := rfl
@[simp] theorem State.setTroop_sight (s : State) (n : Nat) (t : Troop) : (s.setTroop n t).sight = s.sight := rfl
@[simp] theorem State.setTroop_bar0 (s : State) (n : Nat) (t : Troop) : (s.setTroop n t).bar0 = s.bar0 := rfl
@[simp] theorem State.setTroop_power (s : State) (n : Nat) (t : Troop) : (s.setTroop n t).power = s.power := rfl
@[simp] theorem State.setTroop_cxl (s : State) (n : Nat) (t : Troop) : (s.setTroop n t).cxl = s.cxl := rfl
@[simp] theorem State.setTroop_counters (s : State) (n : Nat) (t : Troop) : (s.setTroop n t).counters = s.counters := rfl
@[simp] theorem State.setTroop_wdogLim (s : State) (n : Nat) (t : Troop) : (s.setTroop n t).wdogLim = s.wdogLim := rfl
@[simp] theorem State.setTroop_ports (s : State) (n : Nat) (t : Troop) : (s.setTroop n t).ports = s.ports := rfl
@[simp] theorem State.setTroop_linkReply (s : State) (n : Nat) (t : Troop) : (s.setTroop n t).linkReply = s.linkReply := rfl
@[simp] theorem State.setTroop_queues (s : State) (n : Nat) (t : Troop) : (s.setTroop n t).queues = s.queues := rfl
@[simp] theorem State.setTroop_launches (s : State) (n : Nat) (t : Troop) : (s.setTroop n t).launches = s.launches := rfl
@[simp] theorem State.setTroop_gangs (s : State) (n : Nat) (t : Troop) : (s.setTroop n t).gangs = s.gangs := rfl
@[simp] theorem State.setTroop_crews (s : State) (n : Nat) (t : Troop) : (s.setTroop n t).crews = s.crews := rfl
@[simp] theorem State.setTroop_packs (s : State) (n : Nat) (t : Troop) : (s.setTroop n t).packs = s.packs := rfl
@[simp] theorem State.setTroop_devLaunches (s : State) (n : Nat) (t : Troop) : (s.setTroop n t).devLaunches = s.devLaunches := rfl
@[simp] theorem State.setTroop_copies (s : State) (n : Nat) (t : Troop) : (s.setTroop n t).copies = s.copies := rfl
@[simp] theorem State.setTroop_seqs (s : State) (n : Nat) (t : Troop) : (s.setTroop n t).seqs = s.seqs := rfl
@[simp] theorem State.setTroop_geos (s : State) (n : Nat) (t : Troop) : (s.setTroop n t).geos = s.geos := rfl
@[simp] theorem State.setTroop_rayRegions (s : State) (n : Nat) (t : Troop) : (s.setTroop n t).rayRegions = s.rayRegions := rfl
@[simp] theorem State.setTroop_gather (s : State) (n : Nat) (t : Troop) : (s.setTroop n t).gather = s.gather := rfl
@[simp] theorem State.setTroop_subs (s : State) (n : Nat) (t : Troop) : (s.setTroop n t).subs = s.subs := rfl
@[simp] theorem State.setTroop_spills (s : State) (n : Nat) (t : Troop) : (s.setTroop n t).spills = s.spills := rfl
@[simp] theorem State.setTroop_rf (s : State) (n : Nat) (t : Troop) : (s.setTroop n t).rf = s.rf := rfl
@[simp] theorem State.setTroop_utlb (s : State) (n : Nat) (t : Troop) : (s.setTroop n t).utlb = s.utlb := rfl
@[simp] theorem State.setTroop_tlb (s : State) (n : Nat) (t : Troop) : (s.setTroop n t).tlb = s.tlb := rfl
@[simp] theorem State.setTroop_faultRecs (s : State) (n : Nat) (t : Troop) : (s.setTroop n t).faultRecs = s.faultRecs := rfl
@[simp] theorem State.setTroop_pendFaults (s : State) (n : Nat) (t : Troop) : (s.setTroop n t).pendFaults = s.pendFaults := rfl
@[simp] theorem State.setTroop_faultSeq (s : State) (n : Nat) (t : Troop) : (s.setTroop n t).faultSeq = s.faultSeq := rfl
@[simp] theorem State.setTroop_events (s : State) (n : Nat) (t : Troop) : (s.setTroop n t).events = s.events := rfl
@[simp] theorem State.setTroop_cmd (s : State) (n : Nat) (t : Troop) : (s.setTroop n t).cmd = s.cmd := rfl
@[simp] theorem State.setTroop_cur (s : State) (n : Nat) (t : Troop) : (s.setTroop n t).cur = s.cur := rfl
@[simp] theorem State.setTroop_stalled (s : State) (n : Nat) (t : Troop) : (s.setTroop n t).stalled = s.stalled := rfl
@[simp] theorem State.setTroop_yields (s : State) (n : Nat) (t : Troop) : (s.setTroop n t).yields = s.yields := rfl
@[simp] theorem State.setTroop_turn (s : State) (n : Nat) (t : Troop) : (s.setTroop n t).turn = s.turn := rfl
@[simp] theorem State.setTroop_tick (s : State) (n : Nat) (t : Troop) : (s.setTroop n t).tick = s.tick := rfl
@[simp] theorem State.setTroop_fresh (s : State) (n : Nat) (t : Troop) : (s.setTroop n t).fresh = s.fresh := rfl
@[simp] theorem State.setTroop_agenda (s : State) (n : Nat) (t : Troop) : (s.setTroop n t).agenda = s.agenda := rfl
@[simp] theorem State.setTroop_pack (s : State) (n : Nat) (t : Troop) (k : Nat) : (s.setTroop n t).pack k = s.pack k := rfl
@[simp] theorem State.setTroop_crew (s : State) (n : Nat) (t : Troop) (k : Nat) : (s.setTroop n t).crew k = s.crew k := rfl
@[simp] theorem State.setTroop_gang (s : State) (n : Nat) (t : Troop) (k : Nat) : (s.setTroop n t).gang k = s.gang k := rfl
@[simp] theorem State.setTroop_launch (s : State) (n : Nat) (t : Troop) (k : Nat) : (s.setTroop n t).launch k = s.launch k := rfl
@[simp] theorem State.setTroop_queue (s : State) (n : Nat) (t : Troop) (k : Nat) : (s.setTroop n t).queue k = s.queue k := rfl
@[simp] theorem State.setTroop_copyAt (s : State) (n : Nat) (t : Troop) (k : Nat) : (s.setTroop n t).copyAt k = s.copyAt k := rfl
@[simp] theorem State.setTroop_sub (s : State) (n : Nat) (t : Troop) (k : Nat) : (s.setTroop n t).sub k = s.sub k := rfl
@[simp] theorem State.setTroop_geoOp (s : State) (n : Nat) (t : Troop) (k : Nat) : (s.setTroop n t).geoOp k = s.geoOp k := rfl
@[simp] theorem State.setTroop_seq (s : State) (n : Nat) (t : Troop) (k : Nat) : (s.setTroop n t).seq k = s.seq k := rfl
@[simp] theorem State.setTroop_spillsOf (s : State) (n : Nat) (t : Troop) (k : Nat) : (s.setTroop n t).spillsOf k = s.spillsOf k := rfl
@[simp] theorem State.setTroop_byte (s : State) (n : Nat) (t : Troop) (k : Nat) : (s.setTroop n t).byte k = s.byte k := rfl
/-- What `setTroop` writes reads back. -/
@[simp] theorem State.setTroop_troop_same (s : State) (n : Nat) (t : Troop) : (s.setTroop n t).troop n = t :=
  Tab.get_set_same _ _ _ _
/-- `setTroop` leaves every other record as it was. -/
theorem State.setTroop_troop_other (s : State) (n : Nat) (t : Troop) (k : Nat) (h : k ≠ n) :
    (s.setTroop n t).troop k = s.troop k := Tab.get_set_other _ _ _ h

/-! ### setLaunch -/

@[simp] theorem State.setLaunch_mem (s : State) (n : Nat) (l : Launch) : (s.setLaunch n l).mem = s.mem := rfl
@[simp] theorem State.setLaunch_tags (s : State) (n : Nat) (l : Launch) : (s.setLaunch n l).tags = s.tags := rfl
@[simp] theorem State.setLaunch_poison (s : State) (n : Nat) (l : Launch) : (s.setLaunch n l).poison = s.poison := rfl
@[simp] theorem State.setLaunch_detail (s : State) (n : Nat) (l : Launch) : (s.setLaunch n l).detail = s.detail := rfl
@[simp] theorem State.setLaunch_check (s : State) (n : Nat) (l : Launch) : (s.setLaunch n l).check = s.check := rfl
@[simp] theorem State.setLaunch_headers (s : State) (n : Nat) (l : Launch) : (s.setLaunch n l).headers = s.headers := rfl
@[simp] theorem State.setLaunch_waiting (s : State) (n : Nat) (l : Launch) : (s.setLaunch n l).waiting = s.waiting := rfl
@[simp] theorem State.setLaunch_sight (s : State) (n : Nat) (l : Launch) : (s.setLaunch n l).sight = s.sight := rfl
@[simp] theorem State.setLaunch_bar0 (s : State) (n : Nat) (l : Launch) : (s.setLaunch n l).bar0 = s.bar0 := rfl
@[simp] theorem State.setLaunch_power (s : State) (n : Nat) (l : Launch) : (s.setLaunch n l).power = s.power := rfl
@[simp] theorem State.setLaunch_cxl (s : State) (n : Nat) (l : Launch) : (s.setLaunch n l).cxl = s.cxl := rfl
@[simp] theorem State.setLaunch_counters (s : State) (n : Nat) (l : Launch) : (s.setLaunch n l).counters = s.counters := rfl
@[simp] theorem State.setLaunch_wdogLim (s : State) (n : Nat) (l : Launch) : (s.setLaunch n l).wdogLim = s.wdogLim := rfl
@[simp] theorem State.setLaunch_ports (s : State) (n : Nat) (l : Launch) : (s.setLaunch n l).ports = s.ports := rfl
@[simp] theorem State.setLaunch_linkReply (s : State) (n : Nat) (l : Launch) : (s.setLaunch n l).linkReply = s.linkReply := rfl
@[simp] theorem State.setLaunch_queues (s : State) (n : Nat) (l : Launch) : (s.setLaunch n l).queues = s.queues := rfl
@[simp] theorem State.setLaunch_troops (s : State) (n : Nat) (l : Launch) : (s.setLaunch n l).troops = s.troops := rfl
@[simp] theorem State.setLaunch_gangs (s : State) (n : Nat) (l : Launch) : (s.setLaunch n l).gangs = s.gangs := rfl
@[simp] theorem State.setLaunch_crews (s : State) (n : Nat) (l : Launch) : (s.setLaunch n l).crews = s.crews := rfl
@[simp] theorem State.setLaunch_packs (s : State) (n : Nat) (l : Launch) : (s.setLaunch n l).packs = s.packs := rfl
@[simp] theorem State.setLaunch_devLaunches (s : State) (n : Nat) (l : Launch) : (s.setLaunch n l).devLaunches = s.devLaunches := rfl
@[simp] theorem State.setLaunch_copies (s : State) (n : Nat) (l : Launch) : (s.setLaunch n l).copies = s.copies := rfl
@[simp] theorem State.setLaunch_seqs (s : State) (n : Nat) (l : Launch) : (s.setLaunch n l).seqs = s.seqs := rfl
@[simp] theorem State.setLaunch_geos (s : State) (n : Nat) (l : Launch) : (s.setLaunch n l).geos = s.geos := rfl
@[simp] theorem State.setLaunch_rayRegions (s : State) (n : Nat) (l : Launch) : (s.setLaunch n l).rayRegions = s.rayRegions := rfl
@[simp] theorem State.setLaunch_gather (s : State) (n : Nat) (l : Launch) : (s.setLaunch n l).gather = s.gather := rfl
@[simp] theorem State.setLaunch_subs (s : State) (n : Nat) (l : Launch) : (s.setLaunch n l).subs = s.subs := rfl
@[simp] theorem State.setLaunch_spills (s : State) (n : Nat) (l : Launch) : (s.setLaunch n l).spills = s.spills := rfl
@[simp] theorem State.setLaunch_rf (s : State) (n : Nat) (l : Launch) : (s.setLaunch n l).rf = s.rf := rfl
@[simp] theorem State.setLaunch_utlb (s : State) (n : Nat) (l : Launch) : (s.setLaunch n l).utlb = s.utlb := rfl
@[simp] theorem State.setLaunch_tlb (s : State) (n : Nat) (l : Launch) : (s.setLaunch n l).tlb = s.tlb := rfl
@[simp] theorem State.setLaunch_faultRecs (s : State) (n : Nat) (l : Launch) : (s.setLaunch n l).faultRecs = s.faultRecs := rfl
@[simp] theorem State.setLaunch_pendFaults (s : State) (n : Nat) (l : Launch) : (s.setLaunch n l).pendFaults = s.pendFaults := rfl
@[simp] theorem State.setLaunch_faultSeq (s : State) (n : Nat) (l : Launch) : (s.setLaunch n l).faultSeq = s.faultSeq := rfl
@[simp] theorem State.setLaunch_events (s : State) (n : Nat) (l : Launch) : (s.setLaunch n l).events = s.events := rfl
@[simp] theorem State.setLaunch_cmd (s : State) (n : Nat) (l : Launch) : (s.setLaunch n l).cmd = s.cmd := rfl
@[simp] theorem State.setLaunch_cur (s : State) (n : Nat) (l : Launch) : (s.setLaunch n l).cur = s.cur := rfl
@[simp] theorem State.setLaunch_stalled (s : State) (n : Nat) (l : Launch) : (s.setLaunch n l).stalled = s.stalled := rfl
@[simp] theorem State.setLaunch_yields (s : State) (n : Nat) (l : Launch) : (s.setLaunch n l).yields = s.yields := rfl
@[simp] theorem State.setLaunch_turn (s : State) (n : Nat) (l : Launch) : (s.setLaunch n l).turn = s.turn := rfl
@[simp] theorem State.setLaunch_tick (s : State) (n : Nat) (l : Launch) : (s.setLaunch n l).tick = s.tick := rfl
@[simp] theorem State.setLaunch_fresh (s : State) (n : Nat) (l : Launch) : (s.setLaunch n l).fresh = s.fresh := rfl
@[simp] theorem State.setLaunch_agenda (s : State) (n : Nat) (l : Launch) : (s.setLaunch n l).agenda = s.agenda := rfl
@[simp] theorem State.setLaunch_pack (s : State) (n : Nat) (l : Launch) (k : Nat) : (s.setLaunch n l).pack k = s.pack k := rfl
@[simp] theorem State.setLaunch_crew (s : State) (n : Nat) (l : Launch) (k : Nat) : (s.setLaunch n l).crew k = s.crew k := rfl
@[simp] theorem State.setLaunch_gang (s : State) (n : Nat) (l : Launch) (k : Nat) : (s.setLaunch n l).gang k = s.gang k := rfl
@[simp] theorem State.setLaunch_troop (s : State) (n : Nat) (l : Launch) (k : Nat) : (s.setLaunch n l).troop k = s.troop k := rfl
@[simp] theorem State.setLaunch_queue (s : State) (n : Nat) (l : Launch) (k : Nat) : (s.setLaunch n l).queue k = s.queue k := rfl
@[simp] theorem State.setLaunch_copyAt (s : State) (n : Nat) (l : Launch) (k : Nat) : (s.setLaunch n l).copyAt k = s.copyAt k := rfl
@[simp] theorem State.setLaunch_sub (s : State) (n : Nat) (l : Launch) (k : Nat) : (s.setLaunch n l).sub k = s.sub k := rfl
@[simp] theorem State.setLaunch_geoOp (s : State) (n : Nat) (l : Launch) (k : Nat) : (s.setLaunch n l).geoOp k = s.geoOp k := rfl
@[simp] theorem State.setLaunch_seq (s : State) (n : Nat) (l : Launch) (k : Nat) : (s.setLaunch n l).seq k = s.seq k := rfl
@[simp] theorem State.setLaunch_spillsOf (s : State) (n : Nat) (l : Launch) (k : Nat) : (s.setLaunch n l).spillsOf k = s.spillsOf k := rfl
@[simp] theorem State.setLaunch_byte (s : State) (n : Nat) (l : Launch) (k : Nat) : (s.setLaunch n l).byte k = s.byte k := rfl
/-- What `setLaunch` writes reads back. -/
@[simp] theorem State.setLaunch_launch_same (s : State) (n : Nat) (l : Launch) : (s.setLaunch n l).launch n = l :=
  Tab.get_set_same _ _ _ _
/-- `setLaunch` leaves every other record as it was. -/
theorem State.setLaunch_launch_other (s : State) (n : Nat) (l : Launch) (k : Nat) (h : k ≠ n) :
    (s.setLaunch n l).launch k = s.launch k := Tab.get_set_other _ _ _ h

/-! ### setQueue -/

@[simp] theorem State.setQueue_mem (s : State) (n : Nat) (q : Queue) : (s.setQueue n q).mem = s.mem := rfl
@[simp] theorem State.setQueue_tags (s : State) (n : Nat) (q : Queue) : (s.setQueue n q).tags = s.tags := rfl
@[simp] theorem State.setQueue_poison (s : State) (n : Nat) (q : Queue) : (s.setQueue n q).poison = s.poison := rfl
@[simp] theorem State.setQueue_detail (s : State) (n : Nat) (q : Queue) : (s.setQueue n q).detail = s.detail := rfl
@[simp] theorem State.setQueue_check (s : State) (n : Nat) (q : Queue) : (s.setQueue n q).check = s.check := rfl
@[simp] theorem State.setQueue_headers (s : State) (n : Nat) (q : Queue) : (s.setQueue n q).headers = s.headers := rfl
@[simp] theorem State.setQueue_waiting (s : State) (n : Nat) (q : Queue) : (s.setQueue n q).waiting = s.waiting := rfl
@[simp] theorem State.setQueue_sight (s : State) (n : Nat) (q : Queue) : (s.setQueue n q).sight = s.sight := rfl
@[simp] theorem State.setQueue_bar0 (s : State) (n : Nat) (q : Queue) : (s.setQueue n q).bar0 = s.bar0 := rfl
@[simp] theorem State.setQueue_power (s : State) (n : Nat) (q : Queue) : (s.setQueue n q).power = s.power := rfl
@[simp] theorem State.setQueue_cxl (s : State) (n : Nat) (q : Queue) : (s.setQueue n q).cxl = s.cxl := rfl
@[simp] theorem State.setQueue_counters (s : State) (n : Nat) (q : Queue) : (s.setQueue n q).counters = s.counters := rfl
@[simp] theorem State.setQueue_wdogLim (s : State) (n : Nat) (q : Queue) : (s.setQueue n q).wdogLim = s.wdogLim := rfl
@[simp] theorem State.setQueue_ports (s : State) (n : Nat) (q : Queue) : (s.setQueue n q).ports = s.ports := rfl
@[simp] theorem State.setQueue_linkReply (s : State) (n : Nat) (q : Queue) : (s.setQueue n q).linkReply = s.linkReply := rfl
@[simp] theorem State.setQueue_launches (s : State) (n : Nat) (q : Queue) : (s.setQueue n q).launches = s.launches := rfl
@[simp] theorem State.setQueue_troops (s : State) (n : Nat) (q : Queue) : (s.setQueue n q).troops = s.troops := rfl
@[simp] theorem State.setQueue_gangs (s : State) (n : Nat) (q : Queue) : (s.setQueue n q).gangs = s.gangs := rfl
@[simp] theorem State.setQueue_crews (s : State) (n : Nat) (q : Queue) : (s.setQueue n q).crews = s.crews := rfl
@[simp] theorem State.setQueue_packs (s : State) (n : Nat) (q : Queue) : (s.setQueue n q).packs = s.packs := rfl
@[simp] theorem State.setQueue_devLaunches (s : State) (n : Nat) (q : Queue) : (s.setQueue n q).devLaunches = s.devLaunches := rfl
@[simp] theorem State.setQueue_copies (s : State) (n : Nat) (q : Queue) : (s.setQueue n q).copies = s.copies := rfl
@[simp] theorem State.setQueue_seqs (s : State) (n : Nat) (q : Queue) : (s.setQueue n q).seqs = s.seqs := rfl
@[simp] theorem State.setQueue_geos (s : State) (n : Nat) (q : Queue) : (s.setQueue n q).geos = s.geos := rfl
@[simp] theorem State.setQueue_rayRegions (s : State) (n : Nat) (q : Queue) : (s.setQueue n q).rayRegions = s.rayRegions := rfl
@[simp] theorem State.setQueue_gather (s : State) (n : Nat) (q : Queue) : (s.setQueue n q).gather = s.gather := rfl
@[simp] theorem State.setQueue_subs (s : State) (n : Nat) (q : Queue) : (s.setQueue n q).subs = s.subs := rfl
@[simp] theorem State.setQueue_spills (s : State) (n : Nat) (q : Queue) : (s.setQueue n q).spills = s.spills := rfl
@[simp] theorem State.setQueue_rf (s : State) (n : Nat) (q : Queue) : (s.setQueue n q).rf = s.rf := rfl
@[simp] theorem State.setQueue_utlb (s : State) (n : Nat) (q : Queue) : (s.setQueue n q).utlb = s.utlb := rfl
@[simp] theorem State.setQueue_tlb (s : State) (n : Nat) (q : Queue) : (s.setQueue n q).tlb = s.tlb := rfl
@[simp] theorem State.setQueue_faultRecs (s : State) (n : Nat) (q : Queue) : (s.setQueue n q).faultRecs = s.faultRecs := rfl
@[simp] theorem State.setQueue_pendFaults (s : State) (n : Nat) (q : Queue) : (s.setQueue n q).pendFaults = s.pendFaults := rfl
@[simp] theorem State.setQueue_faultSeq (s : State) (n : Nat) (q : Queue) : (s.setQueue n q).faultSeq = s.faultSeq := rfl
@[simp] theorem State.setQueue_events (s : State) (n : Nat) (q : Queue) : (s.setQueue n q).events = s.events := rfl
@[simp] theorem State.setQueue_cmd (s : State) (n : Nat) (q : Queue) : (s.setQueue n q).cmd = s.cmd := rfl
@[simp] theorem State.setQueue_cur (s : State) (n : Nat) (q : Queue) : (s.setQueue n q).cur = s.cur := rfl
@[simp] theorem State.setQueue_stalled (s : State) (n : Nat) (q : Queue) : (s.setQueue n q).stalled = s.stalled := rfl
@[simp] theorem State.setQueue_yields (s : State) (n : Nat) (q : Queue) : (s.setQueue n q).yields = s.yields := rfl
@[simp] theorem State.setQueue_turn (s : State) (n : Nat) (q : Queue) : (s.setQueue n q).turn = s.turn := rfl
@[simp] theorem State.setQueue_tick (s : State) (n : Nat) (q : Queue) : (s.setQueue n q).tick = s.tick := rfl
@[simp] theorem State.setQueue_fresh (s : State) (n : Nat) (q : Queue) : (s.setQueue n q).fresh = s.fresh := rfl
@[simp] theorem State.setQueue_agenda (s : State) (n : Nat) (q : Queue) : (s.setQueue n q).agenda = s.agenda := rfl
@[simp] theorem State.setQueue_pack (s : State) (n : Nat) (q : Queue) (k : Nat) : (s.setQueue n q).pack k = s.pack k := rfl
@[simp] theorem State.setQueue_crew (s : State) (n : Nat) (q : Queue) (k : Nat) : (s.setQueue n q).crew k = s.crew k := rfl
@[simp] theorem State.setQueue_gang (s : State) (n : Nat) (q : Queue) (k : Nat) : (s.setQueue n q).gang k = s.gang k := rfl
@[simp] theorem State.setQueue_troop (s : State) (n : Nat) (q : Queue) (k : Nat) : (s.setQueue n q).troop k = s.troop k := rfl
@[simp] theorem State.setQueue_launch (s : State) (n : Nat) (q : Queue) (k : Nat) : (s.setQueue n q).launch k = s.launch k := rfl
@[simp] theorem State.setQueue_copyAt (s : State) (n : Nat) (q : Queue) (k : Nat) : (s.setQueue n q).copyAt k = s.copyAt k := rfl
@[simp] theorem State.setQueue_sub (s : State) (n : Nat) (q : Queue) (k : Nat) : (s.setQueue n q).sub k = s.sub k := rfl
@[simp] theorem State.setQueue_geoOp (s : State) (n : Nat) (q : Queue) (k : Nat) : (s.setQueue n q).geoOp k = s.geoOp k := rfl
@[simp] theorem State.setQueue_seq (s : State) (n : Nat) (q : Queue) (k : Nat) : (s.setQueue n q).seq k = s.seq k := rfl
@[simp] theorem State.setQueue_spillsOf (s : State) (n : Nat) (q : Queue) (k : Nat) : (s.setQueue n q).spillsOf k = s.spillsOf k := rfl
@[simp] theorem State.setQueue_byte (s : State) (n : Nat) (q : Queue) (k : Nat) : (s.setQueue n q).byte k = s.byte k := rfl
/-- What `setQueue` writes reads back. -/
@[simp] theorem State.setQueue_queue_same (s : State) (n : Nat) (q : Queue) : (s.setQueue n q).queue n = q :=
  Tab.get_set_same _ _ _ _
/-- `setQueue` leaves every other record as it was. -/
theorem State.setQueue_queue_other (s : State) (n : Nat) (q : Queue) (k : Nat) (h : k ≠ n) :
    (s.setQueue n q).queue k = s.queue k := Tab.get_set_other _ _ _ h

/-! ### setCopy -/

@[simp] theorem State.setCopy_mem (s : State) (n : Nat) (c : Copy) : (s.setCopy n c).mem = s.mem := rfl
@[simp] theorem State.setCopy_tags (s : State) (n : Nat) (c : Copy) : (s.setCopy n c).tags = s.tags := rfl
@[simp] theorem State.setCopy_poison (s : State) (n : Nat) (c : Copy) : (s.setCopy n c).poison = s.poison := rfl
@[simp] theorem State.setCopy_detail (s : State) (n : Nat) (c : Copy) : (s.setCopy n c).detail = s.detail := rfl
@[simp] theorem State.setCopy_check (s : State) (n : Nat) (c : Copy) : (s.setCopy n c).check = s.check := rfl
@[simp] theorem State.setCopy_headers (s : State) (n : Nat) (c : Copy) : (s.setCopy n c).headers = s.headers := rfl
@[simp] theorem State.setCopy_waiting (s : State) (n : Nat) (c : Copy) : (s.setCopy n c).waiting = s.waiting := rfl
@[simp] theorem State.setCopy_sight (s : State) (n : Nat) (c : Copy) : (s.setCopy n c).sight = s.sight := rfl
@[simp] theorem State.setCopy_bar0 (s : State) (n : Nat) (c : Copy) : (s.setCopy n c).bar0 = s.bar0 := rfl
@[simp] theorem State.setCopy_power (s : State) (n : Nat) (c : Copy) : (s.setCopy n c).power = s.power := rfl
@[simp] theorem State.setCopy_cxl (s : State) (n : Nat) (c : Copy) : (s.setCopy n c).cxl = s.cxl := rfl
@[simp] theorem State.setCopy_counters (s : State) (n : Nat) (c : Copy) : (s.setCopy n c).counters = s.counters := rfl
@[simp] theorem State.setCopy_wdogLim (s : State) (n : Nat) (c : Copy) : (s.setCopy n c).wdogLim = s.wdogLim := rfl
@[simp] theorem State.setCopy_ports (s : State) (n : Nat) (c : Copy) : (s.setCopy n c).ports = s.ports := rfl
@[simp] theorem State.setCopy_linkReply (s : State) (n : Nat) (c : Copy) : (s.setCopy n c).linkReply = s.linkReply := rfl
@[simp] theorem State.setCopy_queues (s : State) (n : Nat) (c : Copy) : (s.setCopy n c).queues = s.queues := rfl
@[simp] theorem State.setCopy_launches (s : State) (n : Nat) (c : Copy) : (s.setCopy n c).launches = s.launches := rfl
@[simp] theorem State.setCopy_troops (s : State) (n : Nat) (c : Copy) : (s.setCopy n c).troops = s.troops := rfl
@[simp] theorem State.setCopy_gangs (s : State) (n : Nat) (c : Copy) : (s.setCopy n c).gangs = s.gangs := rfl
@[simp] theorem State.setCopy_crews (s : State) (n : Nat) (c : Copy) : (s.setCopy n c).crews = s.crews := rfl
@[simp] theorem State.setCopy_packs (s : State) (n : Nat) (c : Copy) : (s.setCopy n c).packs = s.packs := rfl
@[simp] theorem State.setCopy_devLaunches (s : State) (n : Nat) (c : Copy) : (s.setCopy n c).devLaunches = s.devLaunches := rfl
@[simp] theorem State.setCopy_seqs (s : State) (n : Nat) (c : Copy) : (s.setCopy n c).seqs = s.seqs := rfl
@[simp] theorem State.setCopy_geos (s : State) (n : Nat) (c : Copy) : (s.setCopy n c).geos = s.geos := rfl
@[simp] theorem State.setCopy_rayRegions (s : State) (n : Nat) (c : Copy) : (s.setCopy n c).rayRegions = s.rayRegions := rfl
@[simp] theorem State.setCopy_gather (s : State) (n : Nat) (c : Copy) : (s.setCopy n c).gather = s.gather := rfl
@[simp] theorem State.setCopy_subs (s : State) (n : Nat) (c : Copy) : (s.setCopy n c).subs = s.subs := rfl
@[simp] theorem State.setCopy_spills (s : State) (n : Nat) (c : Copy) : (s.setCopy n c).spills = s.spills := rfl
@[simp] theorem State.setCopy_rf (s : State) (n : Nat) (c : Copy) : (s.setCopy n c).rf = s.rf := rfl
@[simp] theorem State.setCopy_utlb (s : State) (n : Nat) (c : Copy) : (s.setCopy n c).utlb = s.utlb := rfl
@[simp] theorem State.setCopy_tlb (s : State) (n : Nat) (c : Copy) : (s.setCopy n c).tlb = s.tlb := rfl
@[simp] theorem State.setCopy_faultRecs (s : State) (n : Nat) (c : Copy) : (s.setCopy n c).faultRecs = s.faultRecs := rfl
@[simp] theorem State.setCopy_pendFaults (s : State) (n : Nat) (c : Copy) : (s.setCopy n c).pendFaults = s.pendFaults := rfl
@[simp] theorem State.setCopy_faultSeq (s : State) (n : Nat) (c : Copy) : (s.setCopy n c).faultSeq = s.faultSeq := rfl
@[simp] theorem State.setCopy_events (s : State) (n : Nat) (c : Copy) : (s.setCopy n c).events = s.events := rfl
@[simp] theorem State.setCopy_cmd (s : State) (n : Nat) (c : Copy) : (s.setCopy n c).cmd = s.cmd := rfl
@[simp] theorem State.setCopy_cur (s : State) (n : Nat) (c : Copy) : (s.setCopy n c).cur = s.cur := rfl
@[simp] theorem State.setCopy_stalled (s : State) (n : Nat) (c : Copy) : (s.setCopy n c).stalled = s.stalled := rfl
@[simp] theorem State.setCopy_yields (s : State) (n : Nat) (c : Copy) : (s.setCopy n c).yields = s.yields := rfl
@[simp] theorem State.setCopy_turn (s : State) (n : Nat) (c : Copy) : (s.setCopy n c).turn = s.turn := rfl
@[simp] theorem State.setCopy_tick (s : State) (n : Nat) (c : Copy) : (s.setCopy n c).tick = s.tick := rfl
@[simp] theorem State.setCopy_fresh (s : State) (n : Nat) (c : Copy) : (s.setCopy n c).fresh = s.fresh := rfl
@[simp] theorem State.setCopy_agenda (s : State) (n : Nat) (c : Copy) : (s.setCopy n c).agenda = s.agenda := rfl
@[simp] theorem State.setCopy_pack (s : State) (n : Nat) (c : Copy) (k : Nat) : (s.setCopy n c).pack k = s.pack k := rfl
@[simp] theorem State.setCopy_crew (s : State) (n : Nat) (c : Copy) (k : Nat) : (s.setCopy n c).crew k = s.crew k := rfl
@[simp] theorem State.setCopy_gang (s : State) (n : Nat) (c : Copy) (k : Nat) : (s.setCopy n c).gang k = s.gang k := rfl
@[simp] theorem State.setCopy_troop (s : State) (n : Nat) (c : Copy) (k : Nat) : (s.setCopy n c).troop k = s.troop k := rfl
@[simp] theorem State.setCopy_launch (s : State) (n : Nat) (c : Copy) (k : Nat) : (s.setCopy n c).launch k = s.launch k := rfl
@[simp] theorem State.setCopy_queue (s : State) (n : Nat) (c : Copy) (k : Nat) : (s.setCopy n c).queue k = s.queue k := rfl
@[simp] theorem State.setCopy_sub (s : State) (n : Nat) (c : Copy) (k : Nat) : (s.setCopy n c).sub k = s.sub k := rfl
@[simp] theorem State.setCopy_geoOp (s : State) (n : Nat) (c : Copy) (k : Nat) : (s.setCopy n c).geoOp k = s.geoOp k := rfl
@[simp] theorem State.setCopy_seq (s : State) (n : Nat) (c : Copy) (k : Nat) : (s.setCopy n c).seq k = s.seq k := rfl
@[simp] theorem State.setCopy_spillsOf (s : State) (n : Nat) (c : Copy) (k : Nat) : (s.setCopy n c).spillsOf k = s.spillsOf k := rfl
@[simp] theorem State.setCopy_byte (s : State) (n : Nat) (c : Copy) (k : Nat) : (s.setCopy n c).byte k = s.byte k := rfl
/-- What `setCopy` writes reads back. -/
@[simp] theorem State.setCopy_copyAt_same (s : State) (n : Nat) (c : Copy) : (s.setCopy n c).copyAt n = c :=
  Tab.get_set_same _ _ _ _
/-- `setCopy` leaves every other record as it was. -/
theorem State.setCopy_copyAt_other (s : State) (n : Nat) (c : Copy) (k : Nat) (h : k ≠ n) :
    (s.setCopy n c).copyAt k = s.copyAt k := Tab.get_set_other _ _ _ h

/-! ### setSub -/

@[simp] theorem State.setSub_mem (s : State) (n : Nat) (x : Option Sub) : (s.setSub n x).mem = s.mem := rfl
@[simp] theorem State.setSub_tags (s : State) (n : Nat) (x : Option Sub) : (s.setSub n x).tags = s.tags := rfl
@[simp] theorem State.setSub_poison (s : State) (n : Nat) (x : Option Sub) : (s.setSub n x).poison = s.poison := rfl
@[simp] theorem State.setSub_detail (s : State) (n : Nat) (x : Option Sub) : (s.setSub n x).detail = s.detail := rfl
@[simp] theorem State.setSub_check (s : State) (n : Nat) (x : Option Sub) : (s.setSub n x).check = s.check := rfl
@[simp] theorem State.setSub_headers (s : State) (n : Nat) (x : Option Sub) : (s.setSub n x).headers = s.headers := rfl
@[simp] theorem State.setSub_waiting (s : State) (n : Nat) (x : Option Sub) : (s.setSub n x).waiting = s.waiting := rfl
@[simp] theorem State.setSub_sight (s : State) (n : Nat) (x : Option Sub) : (s.setSub n x).sight = s.sight := rfl
@[simp] theorem State.setSub_bar0 (s : State) (n : Nat) (x : Option Sub) : (s.setSub n x).bar0 = s.bar0 := rfl
@[simp] theorem State.setSub_power (s : State) (n : Nat) (x : Option Sub) : (s.setSub n x).power = s.power := rfl
@[simp] theorem State.setSub_cxl (s : State) (n : Nat) (x : Option Sub) : (s.setSub n x).cxl = s.cxl := rfl
@[simp] theorem State.setSub_counters (s : State) (n : Nat) (x : Option Sub) : (s.setSub n x).counters = s.counters := rfl
@[simp] theorem State.setSub_wdogLim (s : State) (n : Nat) (x : Option Sub) : (s.setSub n x).wdogLim = s.wdogLim := rfl
@[simp] theorem State.setSub_ports (s : State) (n : Nat) (x : Option Sub) : (s.setSub n x).ports = s.ports := rfl
@[simp] theorem State.setSub_linkReply (s : State) (n : Nat) (x : Option Sub) : (s.setSub n x).linkReply = s.linkReply := rfl
@[simp] theorem State.setSub_queues (s : State) (n : Nat) (x : Option Sub) : (s.setSub n x).queues = s.queues := rfl
@[simp] theorem State.setSub_launches (s : State) (n : Nat) (x : Option Sub) : (s.setSub n x).launches = s.launches := rfl
@[simp] theorem State.setSub_troops (s : State) (n : Nat) (x : Option Sub) : (s.setSub n x).troops = s.troops := rfl
@[simp] theorem State.setSub_gangs (s : State) (n : Nat) (x : Option Sub) : (s.setSub n x).gangs = s.gangs := rfl
@[simp] theorem State.setSub_crews (s : State) (n : Nat) (x : Option Sub) : (s.setSub n x).crews = s.crews := rfl
@[simp] theorem State.setSub_packs (s : State) (n : Nat) (x : Option Sub) : (s.setSub n x).packs = s.packs := rfl
@[simp] theorem State.setSub_devLaunches (s : State) (n : Nat) (x : Option Sub) : (s.setSub n x).devLaunches = s.devLaunches := rfl
@[simp] theorem State.setSub_copies (s : State) (n : Nat) (x : Option Sub) : (s.setSub n x).copies = s.copies := rfl
@[simp] theorem State.setSub_seqs (s : State) (n : Nat) (x : Option Sub) : (s.setSub n x).seqs = s.seqs := rfl
@[simp] theorem State.setSub_geos (s : State) (n : Nat) (x : Option Sub) : (s.setSub n x).geos = s.geos := rfl
@[simp] theorem State.setSub_rayRegions (s : State) (n : Nat) (x : Option Sub) : (s.setSub n x).rayRegions = s.rayRegions := rfl
@[simp] theorem State.setSub_gather (s : State) (n : Nat) (x : Option Sub) : (s.setSub n x).gather = s.gather := rfl
@[simp] theorem State.setSub_spills (s : State) (n : Nat) (x : Option Sub) : (s.setSub n x).spills = s.spills := rfl
@[simp] theorem State.setSub_rf (s : State) (n : Nat) (x : Option Sub) : (s.setSub n x).rf = s.rf := rfl
@[simp] theorem State.setSub_utlb (s : State) (n : Nat) (x : Option Sub) : (s.setSub n x).utlb = s.utlb := rfl
@[simp] theorem State.setSub_tlb (s : State) (n : Nat) (x : Option Sub) : (s.setSub n x).tlb = s.tlb := rfl
@[simp] theorem State.setSub_faultRecs (s : State) (n : Nat) (x : Option Sub) : (s.setSub n x).faultRecs = s.faultRecs := rfl
@[simp] theorem State.setSub_pendFaults (s : State) (n : Nat) (x : Option Sub) : (s.setSub n x).pendFaults = s.pendFaults := rfl
@[simp] theorem State.setSub_faultSeq (s : State) (n : Nat) (x : Option Sub) : (s.setSub n x).faultSeq = s.faultSeq := rfl
@[simp] theorem State.setSub_events (s : State) (n : Nat) (x : Option Sub) : (s.setSub n x).events = s.events := rfl
@[simp] theorem State.setSub_cmd (s : State) (n : Nat) (x : Option Sub) : (s.setSub n x).cmd = s.cmd := rfl
@[simp] theorem State.setSub_cur (s : State) (n : Nat) (x : Option Sub) : (s.setSub n x).cur = s.cur := rfl
@[simp] theorem State.setSub_stalled (s : State) (n : Nat) (x : Option Sub) : (s.setSub n x).stalled = s.stalled := rfl
@[simp] theorem State.setSub_yields (s : State) (n : Nat) (x : Option Sub) : (s.setSub n x).yields = s.yields := rfl
@[simp] theorem State.setSub_turn (s : State) (n : Nat) (x : Option Sub) : (s.setSub n x).turn = s.turn := rfl
@[simp] theorem State.setSub_tick (s : State) (n : Nat) (x : Option Sub) : (s.setSub n x).tick = s.tick := rfl
@[simp] theorem State.setSub_fresh (s : State) (n : Nat) (x : Option Sub) : (s.setSub n x).fresh = s.fresh := rfl
@[simp] theorem State.setSub_agenda (s : State) (n : Nat) (x : Option Sub) : (s.setSub n x).agenda = s.agenda := rfl
@[simp] theorem State.setSub_pack (s : State) (n : Nat) (x : Option Sub) (k : Nat) : (s.setSub n x).pack k = s.pack k := rfl
@[simp] theorem State.setSub_crew (s : State) (n : Nat) (x : Option Sub) (k : Nat) : (s.setSub n x).crew k = s.crew k := rfl
@[simp] theorem State.setSub_gang (s : State) (n : Nat) (x : Option Sub) (k : Nat) : (s.setSub n x).gang k = s.gang k := rfl
@[simp] theorem State.setSub_troop (s : State) (n : Nat) (x : Option Sub) (k : Nat) : (s.setSub n x).troop k = s.troop k := rfl
@[simp] theorem State.setSub_launch (s : State) (n : Nat) (x : Option Sub) (k : Nat) : (s.setSub n x).launch k = s.launch k := rfl
@[simp] theorem State.setSub_queue (s : State) (n : Nat) (x : Option Sub) (k : Nat) : (s.setSub n x).queue k = s.queue k := rfl
@[simp] theorem State.setSub_copyAt (s : State) (n : Nat) (x : Option Sub) (k : Nat) : (s.setSub n x).copyAt k = s.copyAt k := rfl
@[simp] theorem State.setSub_geoOp (s : State) (n : Nat) (x : Option Sub) (k : Nat) : (s.setSub n x).geoOp k = s.geoOp k := rfl
@[simp] theorem State.setSub_seq (s : State) (n : Nat) (x : Option Sub) (k : Nat) : (s.setSub n x).seq k = s.seq k := rfl
@[simp] theorem State.setSub_spillsOf (s : State) (n : Nat) (x : Option Sub) (k : Nat) : (s.setSub n x).spillsOf k = s.spillsOf k := rfl
@[simp] theorem State.setSub_byte (s : State) (n : Nat) (x : Option Sub) (k : Nat) : (s.setSub n x).byte k = s.byte k := rfl
/-- What `setSub` writes reads back. -/
@[simp] theorem State.setSub_sub_same (s : State) (n : Nat) (x : Option Sub) : (s.setSub n x).sub n = x :=
  Tab.get_set_same _ _ _ _
/-- `setSub` leaves every other record as it was. -/
theorem State.setSub_sub_other (s : State) (n : Nat) (x : Option Sub) (k : Nat) (h : k ≠ n) :
    (s.setSub n x).sub k = s.sub k := Tab.get_set_other _ _ _ h

/-! ### setGeo -/

@[simp] theorem State.setGeo_mem (s : State) (n : Nat) (g : Option GeoOp) : (s.setGeo n g).mem = s.mem := rfl
@[simp] theorem State.setGeo_tags (s : State) (n : Nat) (g : Option GeoOp) : (s.setGeo n g).tags = s.tags := rfl
@[simp] theorem State.setGeo_poison (s : State) (n : Nat) (g : Option GeoOp) : (s.setGeo n g).poison = s.poison := rfl
@[simp] theorem State.setGeo_detail (s : State) (n : Nat) (g : Option GeoOp) : (s.setGeo n g).detail = s.detail := rfl
@[simp] theorem State.setGeo_check (s : State) (n : Nat) (g : Option GeoOp) : (s.setGeo n g).check = s.check := rfl
@[simp] theorem State.setGeo_headers (s : State) (n : Nat) (g : Option GeoOp) : (s.setGeo n g).headers = s.headers := rfl
@[simp] theorem State.setGeo_waiting (s : State) (n : Nat) (g : Option GeoOp) : (s.setGeo n g).waiting = s.waiting := rfl
@[simp] theorem State.setGeo_sight (s : State) (n : Nat) (g : Option GeoOp) : (s.setGeo n g).sight = s.sight := rfl
@[simp] theorem State.setGeo_bar0 (s : State) (n : Nat) (g : Option GeoOp) : (s.setGeo n g).bar0 = s.bar0 := rfl
@[simp] theorem State.setGeo_power (s : State) (n : Nat) (g : Option GeoOp) : (s.setGeo n g).power = s.power := rfl
@[simp] theorem State.setGeo_cxl (s : State) (n : Nat) (g : Option GeoOp) : (s.setGeo n g).cxl = s.cxl := rfl
@[simp] theorem State.setGeo_counters (s : State) (n : Nat) (g : Option GeoOp) : (s.setGeo n g).counters = s.counters := rfl
@[simp] theorem State.setGeo_wdogLim (s : State) (n : Nat) (g : Option GeoOp) : (s.setGeo n g).wdogLim = s.wdogLim := rfl
@[simp] theorem State.setGeo_ports (s : State) (n : Nat) (g : Option GeoOp) : (s.setGeo n g).ports = s.ports := rfl
@[simp] theorem State.setGeo_linkReply (s : State) (n : Nat) (g : Option GeoOp) : (s.setGeo n g).linkReply = s.linkReply := rfl
@[simp] theorem State.setGeo_queues (s : State) (n : Nat) (g : Option GeoOp) : (s.setGeo n g).queues = s.queues := rfl
@[simp] theorem State.setGeo_launches (s : State) (n : Nat) (g : Option GeoOp) : (s.setGeo n g).launches = s.launches := rfl
@[simp] theorem State.setGeo_troops (s : State) (n : Nat) (g : Option GeoOp) : (s.setGeo n g).troops = s.troops := rfl
@[simp] theorem State.setGeo_gangs (s : State) (n : Nat) (g : Option GeoOp) : (s.setGeo n g).gangs = s.gangs := rfl
@[simp] theorem State.setGeo_crews (s : State) (n : Nat) (g : Option GeoOp) : (s.setGeo n g).crews = s.crews := rfl
@[simp] theorem State.setGeo_packs (s : State) (n : Nat) (g : Option GeoOp) : (s.setGeo n g).packs = s.packs := rfl
@[simp] theorem State.setGeo_devLaunches (s : State) (n : Nat) (g : Option GeoOp) : (s.setGeo n g).devLaunches = s.devLaunches := rfl
@[simp] theorem State.setGeo_copies (s : State) (n : Nat) (g : Option GeoOp) : (s.setGeo n g).copies = s.copies := rfl
@[simp] theorem State.setGeo_seqs (s : State) (n : Nat) (g : Option GeoOp) : (s.setGeo n g).seqs = s.seqs := rfl
@[simp] theorem State.setGeo_rayRegions (s : State) (n : Nat) (g : Option GeoOp) : (s.setGeo n g).rayRegions = s.rayRegions := rfl
@[simp] theorem State.setGeo_gather (s : State) (n : Nat) (g : Option GeoOp) : (s.setGeo n g).gather = s.gather := rfl
@[simp] theorem State.setGeo_subs (s : State) (n : Nat) (g : Option GeoOp) : (s.setGeo n g).subs = s.subs := rfl
@[simp] theorem State.setGeo_spills (s : State) (n : Nat) (g : Option GeoOp) : (s.setGeo n g).spills = s.spills := rfl
@[simp] theorem State.setGeo_rf (s : State) (n : Nat) (g : Option GeoOp) : (s.setGeo n g).rf = s.rf := rfl
@[simp] theorem State.setGeo_utlb (s : State) (n : Nat) (g : Option GeoOp) : (s.setGeo n g).utlb = s.utlb := rfl
@[simp] theorem State.setGeo_tlb (s : State) (n : Nat) (g : Option GeoOp) : (s.setGeo n g).tlb = s.tlb := rfl
@[simp] theorem State.setGeo_faultRecs (s : State) (n : Nat) (g : Option GeoOp) : (s.setGeo n g).faultRecs = s.faultRecs := rfl
@[simp] theorem State.setGeo_pendFaults (s : State) (n : Nat) (g : Option GeoOp) : (s.setGeo n g).pendFaults = s.pendFaults := rfl
@[simp] theorem State.setGeo_faultSeq (s : State) (n : Nat) (g : Option GeoOp) : (s.setGeo n g).faultSeq = s.faultSeq := rfl
@[simp] theorem State.setGeo_events (s : State) (n : Nat) (g : Option GeoOp) : (s.setGeo n g).events = s.events := rfl
@[simp] theorem State.setGeo_cmd (s : State) (n : Nat) (g : Option GeoOp) : (s.setGeo n g).cmd = s.cmd := rfl
@[simp] theorem State.setGeo_cur (s : State) (n : Nat) (g : Option GeoOp) : (s.setGeo n g).cur = s.cur := rfl
@[simp] theorem State.setGeo_stalled (s : State) (n : Nat) (g : Option GeoOp) : (s.setGeo n g).stalled = s.stalled := rfl
@[simp] theorem State.setGeo_yields (s : State) (n : Nat) (g : Option GeoOp) : (s.setGeo n g).yields = s.yields := rfl
@[simp] theorem State.setGeo_turn (s : State) (n : Nat) (g : Option GeoOp) : (s.setGeo n g).turn = s.turn := rfl
@[simp] theorem State.setGeo_tick (s : State) (n : Nat) (g : Option GeoOp) : (s.setGeo n g).tick = s.tick := rfl
@[simp] theorem State.setGeo_fresh (s : State) (n : Nat) (g : Option GeoOp) : (s.setGeo n g).fresh = s.fresh := rfl
@[simp] theorem State.setGeo_agenda (s : State) (n : Nat) (g : Option GeoOp) : (s.setGeo n g).agenda = s.agenda := rfl
@[simp] theorem State.setGeo_pack (s : State) (n : Nat) (g : Option GeoOp) (k : Nat) : (s.setGeo n g).pack k = s.pack k := rfl
@[simp] theorem State.setGeo_crew (s : State) (n : Nat) (g : Option GeoOp) (k : Nat) : (s.setGeo n g).crew k = s.crew k := rfl
@[simp] theorem State.setGeo_gang (s : State) (n : Nat) (g : Option GeoOp) (k : Nat) : (s.setGeo n g).gang k = s.gang k := rfl
@[simp] theorem State.setGeo_troop (s : State) (n : Nat) (g : Option GeoOp) (k : Nat) : (s.setGeo n g).troop k = s.troop k := rfl
@[simp] theorem State.setGeo_launch (s : State) (n : Nat) (g : Option GeoOp) (k : Nat) : (s.setGeo n g).launch k = s.launch k := rfl
@[simp] theorem State.setGeo_queue (s : State) (n : Nat) (g : Option GeoOp) (k : Nat) : (s.setGeo n g).queue k = s.queue k := rfl
@[simp] theorem State.setGeo_copyAt (s : State) (n : Nat) (g : Option GeoOp) (k : Nat) : (s.setGeo n g).copyAt k = s.copyAt k := rfl
@[simp] theorem State.setGeo_sub (s : State) (n : Nat) (g : Option GeoOp) (k : Nat) : (s.setGeo n g).sub k = s.sub k := rfl
@[simp] theorem State.setGeo_seq (s : State) (n : Nat) (g : Option GeoOp) (k : Nat) : (s.setGeo n g).seq k = s.seq k := rfl
@[simp] theorem State.setGeo_spillsOf (s : State) (n : Nat) (g : Option GeoOp) (k : Nat) : (s.setGeo n g).spillsOf k = s.spillsOf k := rfl
@[simp] theorem State.setGeo_byte (s : State) (n : Nat) (g : Option GeoOp) (k : Nat) : (s.setGeo n g).byte k = s.byte k := rfl
/-- What `setGeo` writes reads back. -/
@[simp] theorem State.setGeo_geoOp_same (s : State) (n : Nat) (g : Option GeoOp) : (s.setGeo n g).geoOp n = g :=
  Tab.get_set_same _ _ _ _
/-- `setGeo` leaves every other record as it was. -/
theorem State.setGeo_geoOp_other (s : State) (n : Nat) (g : Option GeoOp) (k : Nat) (h : k ≠ n) :
    (s.setGeo n g).geoOp k = s.geoOp k := Tab.get_set_other _ _ _ h

/-! ### setSeq -/

@[simp] theorem State.setSeq_mem (s : State) (n : Nat) (l : List MatOp) : (s.setSeq n l).mem = s.mem := rfl
@[simp] theorem State.setSeq_tags (s : State) (n : Nat) (l : List MatOp) : (s.setSeq n l).tags = s.tags := rfl
@[simp] theorem State.setSeq_poison (s : State) (n : Nat) (l : List MatOp) : (s.setSeq n l).poison = s.poison := rfl
@[simp] theorem State.setSeq_detail (s : State) (n : Nat) (l : List MatOp) : (s.setSeq n l).detail = s.detail := rfl
@[simp] theorem State.setSeq_check (s : State) (n : Nat) (l : List MatOp) : (s.setSeq n l).check = s.check := rfl
@[simp] theorem State.setSeq_headers (s : State) (n : Nat) (l : List MatOp) : (s.setSeq n l).headers = s.headers := rfl
@[simp] theorem State.setSeq_waiting (s : State) (n : Nat) (l : List MatOp) : (s.setSeq n l).waiting = s.waiting := rfl
@[simp] theorem State.setSeq_sight (s : State) (n : Nat) (l : List MatOp) : (s.setSeq n l).sight = s.sight := rfl
@[simp] theorem State.setSeq_bar0 (s : State) (n : Nat) (l : List MatOp) : (s.setSeq n l).bar0 = s.bar0 := rfl
@[simp] theorem State.setSeq_power (s : State) (n : Nat) (l : List MatOp) : (s.setSeq n l).power = s.power := rfl
@[simp] theorem State.setSeq_cxl (s : State) (n : Nat) (l : List MatOp) : (s.setSeq n l).cxl = s.cxl := rfl
@[simp] theorem State.setSeq_counters (s : State) (n : Nat) (l : List MatOp) : (s.setSeq n l).counters = s.counters := rfl
@[simp] theorem State.setSeq_wdogLim (s : State) (n : Nat) (l : List MatOp) : (s.setSeq n l).wdogLim = s.wdogLim := rfl
@[simp] theorem State.setSeq_ports (s : State) (n : Nat) (l : List MatOp) : (s.setSeq n l).ports = s.ports := rfl
@[simp] theorem State.setSeq_linkReply (s : State) (n : Nat) (l : List MatOp) : (s.setSeq n l).linkReply = s.linkReply := rfl
@[simp] theorem State.setSeq_queues (s : State) (n : Nat) (l : List MatOp) : (s.setSeq n l).queues = s.queues := rfl
@[simp] theorem State.setSeq_launches (s : State) (n : Nat) (l : List MatOp) : (s.setSeq n l).launches = s.launches := rfl
@[simp] theorem State.setSeq_troops (s : State) (n : Nat) (l : List MatOp) : (s.setSeq n l).troops = s.troops := rfl
@[simp] theorem State.setSeq_gangs (s : State) (n : Nat) (l : List MatOp) : (s.setSeq n l).gangs = s.gangs := rfl
@[simp] theorem State.setSeq_crews (s : State) (n : Nat) (l : List MatOp) : (s.setSeq n l).crews = s.crews := rfl
@[simp] theorem State.setSeq_packs (s : State) (n : Nat) (l : List MatOp) : (s.setSeq n l).packs = s.packs := rfl
@[simp] theorem State.setSeq_devLaunches (s : State) (n : Nat) (l : List MatOp) : (s.setSeq n l).devLaunches = s.devLaunches := rfl
@[simp] theorem State.setSeq_copies (s : State) (n : Nat) (l : List MatOp) : (s.setSeq n l).copies = s.copies := rfl
@[simp] theorem State.setSeq_geos (s : State) (n : Nat) (l : List MatOp) : (s.setSeq n l).geos = s.geos := rfl
@[simp] theorem State.setSeq_rayRegions (s : State) (n : Nat) (l : List MatOp) : (s.setSeq n l).rayRegions = s.rayRegions := rfl
@[simp] theorem State.setSeq_gather (s : State) (n : Nat) (l : List MatOp) : (s.setSeq n l).gather = s.gather := rfl
@[simp] theorem State.setSeq_subs (s : State) (n : Nat) (l : List MatOp) : (s.setSeq n l).subs = s.subs := rfl
@[simp] theorem State.setSeq_spills (s : State) (n : Nat) (l : List MatOp) : (s.setSeq n l).spills = s.spills := rfl
@[simp] theorem State.setSeq_rf (s : State) (n : Nat) (l : List MatOp) : (s.setSeq n l).rf = s.rf := rfl
@[simp] theorem State.setSeq_utlb (s : State) (n : Nat) (l : List MatOp) : (s.setSeq n l).utlb = s.utlb := rfl
@[simp] theorem State.setSeq_tlb (s : State) (n : Nat) (l : List MatOp) : (s.setSeq n l).tlb = s.tlb := rfl
@[simp] theorem State.setSeq_faultRecs (s : State) (n : Nat) (l : List MatOp) : (s.setSeq n l).faultRecs = s.faultRecs := rfl
@[simp] theorem State.setSeq_pendFaults (s : State) (n : Nat) (l : List MatOp) : (s.setSeq n l).pendFaults = s.pendFaults := rfl
@[simp] theorem State.setSeq_faultSeq (s : State) (n : Nat) (l : List MatOp) : (s.setSeq n l).faultSeq = s.faultSeq := rfl
@[simp] theorem State.setSeq_events (s : State) (n : Nat) (l : List MatOp) : (s.setSeq n l).events = s.events := rfl
@[simp] theorem State.setSeq_cmd (s : State) (n : Nat) (l : List MatOp) : (s.setSeq n l).cmd = s.cmd := rfl
@[simp] theorem State.setSeq_cur (s : State) (n : Nat) (l : List MatOp) : (s.setSeq n l).cur = s.cur := rfl
@[simp] theorem State.setSeq_stalled (s : State) (n : Nat) (l : List MatOp) : (s.setSeq n l).stalled = s.stalled := rfl
@[simp] theorem State.setSeq_yields (s : State) (n : Nat) (l : List MatOp) : (s.setSeq n l).yields = s.yields := rfl
@[simp] theorem State.setSeq_turn (s : State) (n : Nat) (l : List MatOp) : (s.setSeq n l).turn = s.turn := rfl
@[simp] theorem State.setSeq_tick (s : State) (n : Nat) (l : List MatOp) : (s.setSeq n l).tick = s.tick := rfl
@[simp] theorem State.setSeq_fresh (s : State) (n : Nat) (l : List MatOp) : (s.setSeq n l).fresh = s.fresh := rfl
@[simp] theorem State.setSeq_agenda (s : State) (n : Nat) (l : List MatOp) : (s.setSeq n l).agenda = s.agenda := rfl
@[simp] theorem State.setSeq_pack (s : State) (n : Nat) (l : List MatOp) (k : Nat) : (s.setSeq n l).pack k = s.pack k := rfl
@[simp] theorem State.setSeq_crew (s : State) (n : Nat) (l : List MatOp) (k : Nat) : (s.setSeq n l).crew k = s.crew k := rfl
@[simp] theorem State.setSeq_gang (s : State) (n : Nat) (l : List MatOp) (k : Nat) : (s.setSeq n l).gang k = s.gang k := rfl
@[simp] theorem State.setSeq_troop (s : State) (n : Nat) (l : List MatOp) (k : Nat) : (s.setSeq n l).troop k = s.troop k := rfl
@[simp] theorem State.setSeq_launch (s : State) (n : Nat) (l : List MatOp) (k : Nat) : (s.setSeq n l).launch k = s.launch k := rfl
@[simp] theorem State.setSeq_queue (s : State) (n : Nat) (l : List MatOp) (k : Nat) : (s.setSeq n l).queue k = s.queue k := rfl
@[simp] theorem State.setSeq_copyAt (s : State) (n : Nat) (l : List MatOp) (k : Nat) : (s.setSeq n l).copyAt k = s.copyAt k := rfl
@[simp] theorem State.setSeq_sub (s : State) (n : Nat) (l : List MatOp) (k : Nat) : (s.setSeq n l).sub k = s.sub k := rfl
@[simp] theorem State.setSeq_geoOp (s : State) (n : Nat) (l : List MatOp) (k : Nat) : (s.setSeq n l).geoOp k = s.geoOp k := rfl
@[simp] theorem State.setSeq_spillsOf (s : State) (n : Nat) (l : List MatOp) (k : Nat) : (s.setSeq n l).spillsOf k = s.spillsOf k := rfl
@[simp] theorem State.setSeq_byte (s : State) (n : Nat) (l : List MatOp) (k : Nat) : (s.setSeq n l).byte k = s.byte k := rfl
/-- What `setSeq` writes reads back. -/
@[simp] theorem State.setSeq_seq_same (s : State) (n : Nat) (l : List MatOp) : (s.setSeq n l).seq n = l :=
  Tab.get_set_same _ _ _ _
/-- `setSeq` leaves every other record as it was. -/
theorem State.setSeq_seq_other (s : State) (n : Nat) (l : List MatOp) (k : Nat) (h : k ≠ n) :
    (s.setSeq n l).seq k = s.seq k := Tab.get_set_other _ _ _ h

/-! ### setSpills -/

@[simp] theorem State.setSpills_mem (s : State) (n : Nat) (l : List Spill) : (s.setSpills n l).mem = s.mem := rfl
@[simp] theorem State.setSpills_tags (s : State) (n : Nat) (l : List Spill) : (s.setSpills n l).tags = s.tags := rfl
@[simp] theorem State.setSpills_poison (s : State) (n : Nat) (l : List Spill) : (s.setSpills n l).poison = s.poison := rfl
@[simp] theorem State.setSpills_detail (s : State) (n : Nat) (l : List Spill) : (s.setSpills n l).detail = s.detail := rfl
@[simp] theorem State.setSpills_check (s : State) (n : Nat) (l : List Spill) : (s.setSpills n l).check = s.check := rfl
@[simp] theorem State.setSpills_headers (s : State) (n : Nat) (l : List Spill) : (s.setSpills n l).headers = s.headers := rfl
@[simp] theorem State.setSpills_waiting (s : State) (n : Nat) (l : List Spill) : (s.setSpills n l).waiting = s.waiting := rfl
@[simp] theorem State.setSpills_sight (s : State) (n : Nat) (l : List Spill) : (s.setSpills n l).sight = s.sight := rfl
@[simp] theorem State.setSpills_bar0 (s : State) (n : Nat) (l : List Spill) : (s.setSpills n l).bar0 = s.bar0 := rfl
@[simp] theorem State.setSpills_power (s : State) (n : Nat) (l : List Spill) : (s.setSpills n l).power = s.power := rfl
@[simp] theorem State.setSpills_cxl (s : State) (n : Nat) (l : List Spill) : (s.setSpills n l).cxl = s.cxl := rfl
@[simp] theorem State.setSpills_counters (s : State) (n : Nat) (l : List Spill) : (s.setSpills n l).counters = s.counters := rfl
@[simp] theorem State.setSpills_wdogLim (s : State) (n : Nat) (l : List Spill) : (s.setSpills n l).wdogLim = s.wdogLim := rfl
@[simp] theorem State.setSpills_ports (s : State) (n : Nat) (l : List Spill) : (s.setSpills n l).ports = s.ports := rfl
@[simp] theorem State.setSpills_linkReply (s : State) (n : Nat) (l : List Spill) : (s.setSpills n l).linkReply = s.linkReply := rfl
@[simp] theorem State.setSpills_queues (s : State) (n : Nat) (l : List Spill) : (s.setSpills n l).queues = s.queues := rfl
@[simp] theorem State.setSpills_launches (s : State) (n : Nat) (l : List Spill) : (s.setSpills n l).launches = s.launches := rfl
@[simp] theorem State.setSpills_troops (s : State) (n : Nat) (l : List Spill) : (s.setSpills n l).troops = s.troops := rfl
@[simp] theorem State.setSpills_gangs (s : State) (n : Nat) (l : List Spill) : (s.setSpills n l).gangs = s.gangs := rfl
@[simp] theorem State.setSpills_crews (s : State) (n : Nat) (l : List Spill) : (s.setSpills n l).crews = s.crews := rfl
@[simp] theorem State.setSpills_packs (s : State) (n : Nat) (l : List Spill) : (s.setSpills n l).packs = s.packs := rfl
@[simp] theorem State.setSpills_devLaunches (s : State) (n : Nat) (l : List Spill) : (s.setSpills n l).devLaunches = s.devLaunches := rfl
@[simp] theorem State.setSpills_copies (s : State) (n : Nat) (l : List Spill) : (s.setSpills n l).copies = s.copies := rfl
@[simp] theorem State.setSpills_seqs (s : State) (n : Nat) (l : List Spill) : (s.setSpills n l).seqs = s.seqs := rfl
@[simp] theorem State.setSpills_geos (s : State) (n : Nat) (l : List Spill) : (s.setSpills n l).geos = s.geos := rfl
@[simp] theorem State.setSpills_rayRegions (s : State) (n : Nat) (l : List Spill) : (s.setSpills n l).rayRegions = s.rayRegions := rfl
@[simp] theorem State.setSpills_gather (s : State) (n : Nat) (l : List Spill) : (s.setSpills n l).gather = s.gather := rfl
@[simp] theorem State.setSpills_subs (s : State) (n : Nat) (l : List Spill) : (s.setSpills n l).subs = s.subs := rfl
@[simp] theorem State.setSpills_rf (s : State) (n : Nat) (l : List Spill) : (s.setSpills n l).rf = s.rf := rfl
@[simp] theorem State.setSpills_utlb (s : State) (n : Nat) (l : List Spill) : (s.setSpills n l).utlb = s.utlb := rfl
@[simp] theorem State.setSpills_tlb (s : State) (n : Nat) (l : List Spill) : (s.setSpills n l).tlb = s.tlb := rfl
@[simp] theorem State.setSpills_faultRecs (s : State) (n : Nat) (l : List Spill) : (s.setSpills n l).faultRecs = s.faultRecs := rfl
@[simp] theorem State.setSpills_pendFaults (s : State) (n : Nat) (l : List Spill) : (s.setSpills n l).pendFaults = s.pendFaults := rfl
@[simp] theorem State.setSpills_faultSeq (s : State) (n : Nat) (l : List Spill) : (s.setSpills n l).faultSeq = s.faultSeq := rfl
@[simp] theorem State.setSpills_events (s : State) (n : Nat) (l : List Spill) : (s.setSpills n l).events = s.events := rfl
@[simp] theorem State.setSpills_cmd (s : State) (n : Nat) (l : List Spill) : (s.setSpills n l).cmd = s.cmd := rfl
@[simp] theorem State.setSpills_cur (s : State) (n : Nat) (l : List Spill) : (s.setSpills n l).cur = s.cur := rfl
@[simp] theorem State.setSpills_stalled (s : State) (n : Nat) (l : List Spill) : (s.setSpills n l).stalled = s.stalled := rfl
@[simp] theorem State.setSpills_yields (s : State) (n : Nat) (l : List Spill) : (s.setSpills n l).yields = s.yields := rfl
@[simp] theorem State.setSpills_turn (s : State) (n : Nat) (l : List Spill) : (s.setSpills n l).turn = s.turn := rfl
@[simp] theorem State.setSpills_tick (s : State) (n : Nat) (l : List Spill) : (s.setSpills n l).tick = s.tick := rfl
@[simp] theorem State.setSpills_fresh (s : State) (n : Nat) (l : List Spill) : (s.setSpills n l).fresh = s.fresh := rfl
@[simp] theorem State.setSpills_agenda (s : State) (n : Nat) (l : List Spill) : (s.setSpills n l).agenda = s.agenda := rfl
@[simp] theorem State.setSpills_pack (s : State) (n : Nat) (l : List Spill) (k : Nat) : (s.setSpills n l).pack k = s.pack k := rfl
@[simp] theorem State.setSpills_crew (s : State) (n : Nat) (l : List Spill) (k : Nat) : (s.setSpills n l).crew k = s.crew k := rfl
@[simp] theorem State.setSpills_gang (s : State) (n : Nat) (l : List Spill) (k : Nat) : (s.setSpills n l).gang k = s.gang k := rfl
@[simp] theorem State.setSpills_troop (s : State) (n : Nat) (l : List Spill) (k : Nat) : (s.setSpills n l).troop k = s.troop k := rfl
@[simp] theorem State.setSpills_launch (s : State) (n : Nat) (l : List Spill) (k : Nat) : (s.setSpills n l).launch k = s.launch k := rfl
@[simp] theorem State.setSpills_queue (s : State) (n : Nat) (l : List Spill) (k : Nat) : (s.setSpills n l).queue k = s.queue k := rfl
@[simp] theorem State.setSpills_copyAt (s : State) (n : Nat) (l : List Spill) (k : Nat) : (s.setSpills n l).copyAt k = s.copyAt k := rfl
@[simp] theorem State.setSpills_sub (s : State) (n : Nat) (l : List Spill) (k : Nat) : (s.setSpills n l).sub k = s.sub k := rfl
@[simp] theorem State.setSpills_geoOp (s : State) (n : Nat) (l : List Spill) (k : Nat) : (s.setSpills n l).geoOp k = s.geoOp k := rfl
@[simp] theorem State.setSpills_seq (s : State) (n : Nat) (l : List Spill) (k : Nat) : (s.setSpills n l).seq k = s.seq k := rfl
@[simp] theorem State.setSpills_byte (s : State) (n : Nat) (l : List Spill) (k : Nat) : (s.setSpills n l).byte k = s.byte k := rfl
/-- What `setSpills` writes reads back. -/
@[simp] theorem State.setSpills_spillsOf_same (s : State) (n : Nat) (l : List Spill) : (s.setSpills n l).spillsOf n = l :=
  Tab.get_set_same _ _ _ _
/-- `setSpills` leaves every other record as it was. -/
theorem State.setSpills_spillsOf_other (s : State) (n : Nat) (l : List Spill) (k : Nat) (h : k ≠ n) :
    (s.setSpills n l).spillsOf k = s.spillsOf k := Tab.get_set_other _ _ _ h

/-! ### setByte -/

@[simp] theorem State.setByte_tags (s : State) (n : Nat) (b : Byte) : (s.setByte n b).tags = s.tags := rfl
@[simp] theorem State.setByte_poison (s : State) (n : Nat) (b : Byte) : (s.setByte n b).poison = s.poison := rfl
@[simp] theorem State.setByte_detail (s : State) (n : Nat) (b : Byte) : (s.setByte n b).detail = s.detail := rfl
@[simp] theorem State.setByte_check (s : State) (n : Nat) (b : Byte) : (s.setByte n b).check = s.check := rfl
@[simp] theorem State.setByte_headers (s : State) (n : Nat) (b : Byte) : (s.setByte n b).headers = s.headers := rfl
@[simp] theorem State.setByte_waiting (s : State) (n : Nat) (b : Byte) : (s.setByte n b).waiting = s.waiting := rfl
@[simp] theorem State.setByte_sight (s : State) (n : Nat) (b : Byte) : (s.setByte n b).sight = s.sight := rfl
@[simp] theorem State.setByte_bar0 (s : State) (n : Nat) (b : Byte) : (s.setByte n b).bar0 = s.bar0 := rfl
@[simp] theorem State.setByte_power (s : State) (n : Nat) (b : Byte) : (s.setByte n b).power = s.power := rfl
@[simp] theorem State.setByte_cxl (s : State) (n : Nat) (b : Byte) : (s.setByte n b).cxl = s.cxl := rfl
@[simp] theorem State.setByte_counters (s : State) (n : Nat) (b : Byte) : (s.setByte n b).counters = s.counters := rfl
@[simp] theorem State.setByte_wdogLim (s : State) (n : Nat) (b : Byte) : (s.setByte n b).wdogLim = s.wdogLim := rfl
@[simp] theorem State.setByte_ports (s : State) (n : Nat) (b : Byte) : (s.setByte n b).ports = s.ports := rfl
@[simp] theorem State.setByte_linkReply (s : State) (n : Nat) (b : Byte) : (s.setByte n b).linkReply = s.linkReply := rfl
@[simp] theorem State.setByte_queues (s : State) (n : Nat) (b : Byte) : (s.setByte n b).queues = s.queues := rfl
@[simp] theorem State.setByte_launches (s : State) (n : Nat) (b : Byte) : (s.setByte n b).launches = s.launches := rfl
@[simp] theorem State.setByte_troops (s : State) (n : Nat) (b : Byte) : (s.setByte n b).troops = s.troops := rfl
@[simp] theorem State.setByte_gangs (s : State) (n : Nat) (b : Byte) : (s.setByte n b).gangs = s.gangs := rfl
@[simp] theorem State.setByte_crews (s : State) (n : Nat) (b : Byte) : (s.setByte n b).crews = s.crews := rfl
@[simp] theorem State.setByte_packs (s : State) (n : Nat) (b : Byte) : (s.setByte n b).packs = s.packs := rfl
@[simp] theorem State.setByte_devLaunches (s : State) (n : Nat) (b : Byte) : (s.setByte n b).devLaunches = s.devLaunches := rfl
@[simp] theorem State.setByte_copies (s : State) (n : Nat) (b : Byte) : (s.setByte n b).copies = s.copies := rfl
@[simp] theorem State.setByte_seqs (s : State) (n : Nat) (b : Byte) : (s.setByte n b).seqs = s.seqs := rfl
@[simp] theorem State.setByte_geos (s : State) (n : Nat) (b : Byte) : (s.setByte n b).geos = s.geos := rfl
@[simp] theorem State.setByte_rayRegions (s : State) (n : Nat) (b : Byte) : (s.setByte n b).rayRegions = s.rayRegions := rfl
@[simp] theorem State.setByte_gather (s : State) (n : Nat) (b : Byte) : (s.setByte n b).gather = s.gather := rfl
@[simp] theorem State.setByte_subs (s : State) (n : Nat) (b : Byte) : (s.setByte n b).subs = s.subs := rfl
@[simp] theorem State.setByte_spills (s : State) (n : Nat) (b : Byte) : (s.setByte n b).spills = s.spills := rfl
@[simp] theorem State.setByte_rf (s : State) (n : Nat) (b : Byte) : (s.setByte n b).rf = s.rf := rfl
@[simp] theorem State.setByte_utlb (s : State) (n : Nat) (b : Byte) : (s.setByte n b).utlb = s.utlb := rfl
@[simp] theorem State.setByte_tlb (s : State) (n : Nat) (b : Byte) : (s.setByte n b).tlb = s.tlb := rfl
@[simp] theorem State.setByte_faultRecs (s : State) (n : Nat) (b : Byte) : (s.setByte n b).faultRecs = s.faultRecs := rfl
@[simp] theorem State.setByte_pendFaults (s : State) (n : Nat) (b : Byte) : (s.setByte n b).pendFaults = s.pendFaults := rfl
@[simp] theorem State.setByte_faultSeq (s : State) (n : Nat) (b : Byte) : (s.setByte n b).faultSeq = s.faultSeq := rfl
@[simp] theorem State.setByte_events (s : State) (n : Nat) (b : Byte) : (s.setByte n b).events = s.events := rfl
@[simp] theorem State.setByte_cmd (s : State) (n : Nat) (b : Byte) : (s.setByte n b).cmd = s.cmd := rfl
@[simp] theorem State.setByte_cur (s : State) (n : Nat) (b : Byte) : (s.setByte n b).cur = s.cur := rfl
@[simp] theorem State.setByte_stalled (s : State) (n : Nat) (b : Byte) : (s.setByte n b).stalled = s.stalled := rfl
@[simp] theorem State.setByte_yields (s : State) (n : Nat) (b : Byte) : (s.setByte n b).yields = s.yields := rfl
@[simp] theorem State.setByte_turn (s : State) (n : Nat) (b : Byte) : (s.setByte n b).turn = s.turn := rfl
@[simp] theorem State.setByte_tick (s : State) (n : Nat) (b : Byte) : (s.setByte n b).tick = s.tick := rfl
@[simp] theorem State.setByte_fresh (s : State) (n : Nat) (b : Byte) : (s.setByte n b).fresh = s.fresh := rfl
@[simp] theorem State.setByte_agenda (s : State) (n : Nat) (b : Byte) : (s.setByte n b).agenda = s.agenda := rfl
@[simp] theorem State.setByte_pack (s : State) (n : Nat) (b : Byte) (k : Nat) : (s.setByte n b).pack k = s.pack k := rfl
@[simp] theorem State.setByte_crew (s : State) (n : Nat) (b : Byte) (k : Nat) : (s.setByte n b).crew k = s.crew k := rfl
@[simp] theorem State.setByte_gang (s : State) (n : Nat) (b : Byte) (k : Nat) : (s.setByte n b).gang k = s.gang k := rfl
@[simp] theorem State.setByte_troop (s : State) (n : Nat) (b : Byte) (k : Nat) : (s.setByte n b).troop k = s.troop k := rfl
@[simp] theorem State.setByte_launch (s : State) (n : Nat) (b : Byte) (k : Nat) : (s.setByte n b).launch k = s.launch k := rfl
@[simp] theorem State.setByte_queue (s : State) (n : Nat) (b : Byte) (k : Nat) : (s.setByte n b).queue k = s.queue k := rfl
@[simp] theorem State.setByte_copyAt (s : State) (n : Nat) (b : Byte) (k : Nat) : (s.setByte n b).copyAt k = s.copyAt k := rfl
@[simp] theorem State.setByte_sub (s : State) (n : Nat) (b : Byte) (k : Nat) : (s.setByte n b).sub k = s.sub k := rfl
@[simp] theorem State.setByte_geoOp (s : State) (n : Nat) (b : Byte) (k : Nat) : (s.setByte n b).geoOp k = s.geoOp k := rfl
@[simp] theorem State.setByte_seq (s : State) (n : Nat) (b : Byte) (k : Nat) : (s.setByte n b).seq k = s.seq k := rfl
@[simp] theorem State.setByte_spillsOf (s : State) (n : Nat) (b : Byte) (k : Nat) : (s.setByte n b).spillsOf k = s.spillsOf k := rfl
/-- What `setByte` writes reads back. -/
@[simp] theorem State.setByte_byte_same (s : State) (n : Nat) (b : Byte) : (s.setByte n b).byte n = b :=
  Tab.get_set_same _ _ _ _
/-- `setByte` leaves every other record as it was. -/
theorem State.setByte_byte_other (s : State) (n : Nat) (b : Byte) (k : Nat) (h : k ≠ n) :
    (s.setByte n b).byte k = s.byte k := Tab.get_set_other _ _ _ h

/-! ### count -/

@[simp] theorem State.count_mem (s : State) (i u n : Nat) : (s.count i u n).mem = s.mem := rfl
@[simp] theorem State.count_tags (s : State) (i u n : Nat) : (s.count i u n).tags = s.tags := rfl
@[simp] theorem State.count_poison (s : State) (i u n : Nat) : (s.count i u n).poison = s.poison := rfl
@[simp] theorem State.count_detail (s : State) (i u n : Nat) : (s.count i u n).detail = s.detail := rfl
@[simp] theorem State.count_check (s : State) (i u n : Nat) : (s.count i u n).check = s.check := rfl
@[simp] theorem State.count_headers (s : State) (i u n : Nat) : (s.count i u n).headers = s.headers := rfl
@[simp] theorem State.count_waiting (s : State) (i u n : Nat) : (s.count i u n).waiting = s.waiting := rfl
@[simp] theorem State.count_sight (s : State) (i u n : Nat) : (s.count i u n).sight = s.sight := rfl
@[simp] theorem State.count_bar0 (s : State) (i u n : Nat) : (s.count i u n).bar0 = s.bar0 := rfl
@[simp] theorem State.count_power (s : State) (i u n : Nat) : (s.count i u n).power = s.power := rfl
@[simp] theorem State.count_cxl (s : State) (i u n : Nat) : (s.count i u n).cxl = s.cxl := rfl
@[simp] theorem State.count_wdogLim (s : State) (i u n : Nat) : (s.count i u n).wdogLim = s.wdogLim := rfl
@[simp] theorem State.count_ports (s : State) (i u n : Nat) : (s.count i u n).ports = s.ports := rfl
@[simp] theorem State.count_linkReply (s : State) (i u n : Nat) : (s.count i u n).linkReply = s.linkReply := rfl
@[simp] theorem State.count_queues (s : State) (i u n : Nat) : (s.count i u n).queues = s.queues := rfl
@[simp] theorem State.count_launches (s : State) (i u n : Nat) : (s.count i u n).launches = s.launches := rfl
@[simp] theorem State.count_troops (s : State) (i u n : Nat) : (s.count i u n).troops = s.troops := rfl
@[simp] theorem State.count_gangs (s : State) (i u n : Nat) : (s.count i u n).gangs = s.gangs := rfl
@[simp] theorem State.count_crews (s : State) (i u n : Nat) : (s.count i u n).crews = s.crews := rfl
@[simp] theorem State.count_packs (s : State) (i u n : Nat) : (s.count i u n).packs = s.packs := rfl
@[simp] theorem State.count_devLaunches (s : State) (i u n : Nat) : (s.count i u n).devLaunches = s.devLaunches := rfl
@[simp] theorem State.count_copies (s : State) (i u n : Nat) : (s.count i u n).copies = s.copies := rfl
@[simp] theorem State.count_seqs (s : State) (i u n : Nat) : (s.count i u n).seqs = s.seqs := rfl
@[simp] theorem State.count_geos (s : State) (i u n : Nat) : (s.count i u n).geos = s.geos := rfl
@[simp] theorem State.count_rayRegions (s : State) (i u n : Nat) : (s.count i u n).rayRegions = s.rayRegions := rfl
@[simp] theorem State.count_gather (s : State) (i u n : Nat) : (s.count i u n).gather = s.gather := rfl
@[simp] theorem State.count_subs (s : State) (i u n : Nat) : (s.count i u n).subs = s.subs := rfl
@[simp] theorem State.count_spills (s : State) (i u n : Nat) : (s.count i u n).spills = s.spills := rfl
@[simp] theorem State.count_rf (s : State) (i u n : Nat) : (s.count i u n).rf = s.rf := rfl
@[simp] theorem State.count_utlb (s : State) (i u n : Nat) : (s.count i u n).utlb = s.utlb := rfl
@[simp] theorem State.count_tlb (s : State) (i u n : Nat) : (s.count i u n).tlb = s.tlb := rfl
@[simp] theorem State.count_faultRecs (s : State) (i u n : Nat) : (s.count i u n).faultRecs = s.faultRecs := rfl
@[simp] theorem State.count_pendFaults (s : State) (i u n : Nat) : (s.count i u n).pendFaults = s.pendFaults := rfl
@[simp] theorem State.count_faultSeq (s : State) (i u n : Nat) : (s.count i u n).faultSeq = s.faultSeq := rfl
@[simp] theorem State.count_events (s : State) (i u n : Nat) : (s.count i u n).events = s.events := rfl
@[simp] theorem State.count_cmd (s : State) (i u n : Nat) : (s.count i u n).cmd = s.cmd := rfl
@[simp] theorem State.count_cur (s : State) (i u n : Nat) : (s.count i u n).cur = s.cur := rfl
@[simp] theorem State.count_stalled (s : State) (i u n : Nat) : (s.count i u n).stalled = s.stalled := rfl
@[simp] theorem State.count_yields (s : State) (i u n : Nat) : (s.count i u n).yields = s.yields := rfl
@[simp] theorem State.count_turn (s : State) (i u n : Nat) : (s.count i u n).turn = s.turn := rfl
@[simp] theorem State.count_tick (s : State) (i u n : Nat) : (s.count i u n).tick = s.tick := rfl
@[simp] theorem State.count_fresh (s : State) (i u n : Nat) : (s.count i u n).fresh = s.fresh := rfl
@[simp] theorem State.count_agenda (s : State) (i u n : Nat) : (s.count i u n).agenda = s.agenda := rfl
@[simp] theorem State.count_pack (s : State) (i u n : Nat) (k : Nat) : (s.count i u n).pack k = s.pack k := rfl
@[simp] theorem State.count_crew (s : State) (i u n : Nat) (k : Nat) : (s.count i u n).crew k = s.crew k := rfl
@[simp] theorem State.count_gang (s : State) (i u n : Nat) (k : Nat) : (s.count i u n).gang k = s.gang k := rfl
@[simp] theorem State.count_troop (s : State) (i u n : Nat) (k : Nat) : (s.count i u n).troop k = s.troop k := rfl
@[simp] theorem State.count_launch (s : State) (i u n : Nat) (k : Nat) : (s.count i u n).launch k = s.launch k := rfl
@[simp] theorem State.count_queue (s : State) (i u n : Nat) (k : Nat) : (s.count i u n).queue k = s.queue k := rfl
@[simp] theorem State.count_copyAt (s : State) (i u n : Nat) (k : Nat) : (s.count i u n).copyAt k = s.copyAt k := rfl
@[simp] theorem State.count_sub (s : State) (i u n : Nat) (k : Nat) : (s.count i u n).sub k = s.sub k := rfl
@[simp] theorem State.count_geoOp (s : State) (i u n : Nat) (k : Nat) : (s.count i u n).geoOp k = s.geoOp k := rfl
@[simp] theorem State.count_seq (s : State) (i u n : Nat) (k : Nat) : (s.count i u n).seq k = s.seq k := rfl
@[simp] theorem State.count_spillsOf (s : State) (i u n : Nat) (k : Nat) : (s.count i u n).spillsOf k = s.spillsOf k := rfl
@[simp] theorem State.count_byte (s : State) (i u n : Nat) (k : Nat) : (s.count i u n).byte k = s.byte k := rfl

end Sys2Proof.Machine
end

