-- ==== Sys2Proof/Laws/Issue.lean ====
section
/-! SUPPORT. What `issue` answers: the wrapper opened once, so that a lemma about an instruction need only look at its body. -/

namespace Sys2Proof.Machine

/-! ### Writing a record twice -/

theorem Tab.erase_of_not_mem {β : Type} (l : List (Nat × β)) (k : Nat) (h : ∀ x ∈ l, x.1 ≠ k) : Tab.erase l k = l := by
  induction l with
  | nil => rfl
  | cons x t ih =>
    obtain ⟨a, b⟩ := x
    unfold Tab.erase
    rw [if_neg (h (a, b) (by simp)), ih fun y hy => h y (List.mem_cons_of_mem _ hy)]

theorem Tab.erase_insert {β : Type} (l : List (Nat × β)) (k : Nat) (v : β) (h : ∀ x ∈ l, x.1 ≠ k) :
    Tab.erase (Tab.insert l k v) k = l := by
  induction l with
  | nil => simp [Tab.insert, Tab.erase]
  | cons x t ih =>
    obtain ⟨a, b⟩ := x
    have ha : a ≠ k := h (a, b) (by simp)
    have ht : ∀ y ∈ t, y.1 ≠ k := fun y hy => h y (List.mem_cons_of_mem _ hy)
    unfold Tab.insert
    split
    · simp [Tab.erase, ha, Tab.erase_of_not_mem t k ht]
    · simp [Tab.erase, ha, ih ht]

/-- The last write of a key is the one that counts. -/
@[simp] theorem Tab.set_set {β : Type} [DecidableEq β] (d : β) (l : List (Nat × β)) (k : Nat) (v w : β) :
    Tab.set d (Tab.set d l k v) k w = Tab.set d l k w := by
  have h : Tab.erase (Tab.set d l k v) k = Tab.erase l k := by
    unfold Tab.set
    split
    · exact Tab.erase_of_not_mem _ _ (Tab.not_mem_erase l k)
    · exact Tab.erase_insert _ _ _ (Tab.not_mem_erase l k)
  unfold Tab.set at h ⊢
  rw [h]

@[simp] theorem State.setPack_setPack (s : State) (n : Nat) (p q : Pack) : (s.setPack n p).setPack n q = s.setPack n q := by
  simp [State.setPack]

@[simp] theorem State.setLaunch_setLaunch (s : State) (n : Nat) (p q : Launch) :
    (s.setLaunch n p).setLaunch n q = s.setLaunch n q := by
  simp [State.setLaunch]

@[simp] theorem State.setCrew_setCrew (s : State) (n : Nat) (p q : Crew) : (s.setCrew n p).setCrew n q = s.setCrew n q := by
  simp [State.setCrew]

/-! ### The state in which an instruction does its work -/

@[simp] theorem issued_cur (s : State) : (issued s).cur = s.cur := rfl
@[simp] theorem issued_isFox (s : State) : (issued s).isFox = s.isFox := rfl
@[simp] theorem issued_pack (s : State) : (issued s).pack s.cur = issuing s := State.setPack_pack_same s s.cur _
@[simp] theorem issued_mem (s : State) : (issued s).mem = s.mem := rfl
@[simp] theorem issued_crews (s : State) : (issued s).crews = s.crews := rfl
@[simp] theorem issued_crew (s : State) (k : Nat) : (issued s).crew k = s.crew k := rfl
@[simp] theorem issued_gang (s : State) (k : Nat) : (issued s).gang k = s.gang k := rfl
@[simp] theorem issued_troop (s : State) (k : Nat) : (issued s).troop k = s.troop k := rfl
@[simp] theorem issued_launch (s : State) (k : Nat) : (issued s).launch k = s.launch k := rfl
@[simp] theorem issued_launches (s : State) : (issued s).launches = s.launches := rfl
@[simp] theorem issued_seqs (s : State) : (issued s).seqs = s.seqs := rfl
@[simp] theorem issued_fresh (s : State) : (issued s).fresh = s.fresh := rfl

theorem issued_curPack (s : State) (h : s.isFox = false) : (issued s).curPack = issuing s := by
  unfold State.curPack
  rw [issued_isFox, h]
  exact issued_pack s

theorem issued_setCur (s : State) (h : s.isFox = false) (q : Pack) : (issued s).setCur q = s.setPack s.cur q := by
  unfold State.setCur
  rw [issued_isFox, h]
  exact State.setPack_setPack s s.cur _ q

theorem State.setCur_pack (s : State) (h : s.isFox = false) (q : Pack) : s.setCur q = s.setPack s.cur q := by
  unfold State.setCur; rw [h]; rfl

theorem State.curPack_pack (s : State) (h : s.isFox = false) : s.curPack = s.pack s.cur := by
  unfold State.curPack; rw [h]; rfl

theorem State.curCrewId_pack (s : State) (h : s.isFox = false) : s.curCrewId = (s.pack s.cur).crew := by
  unfold State.curCrewId; rw [h]; rfl

/-! ### Dead bits change nothing but what registers read -/

theorem modThreads_fields (p : Pack) (l : List Nat) (f : Thread → Thread) :
    ∃ ths, modThreads p l f = { p with threads := ths } := by
  induction l generalizing p with
  | nil => exact ⟨p.threads, rfl⟩
  | cons t l ih =>
    obtain ⟨ths, h⟩ := ih (packModThread p t f)
    exact ⟨ths, h⟩

/-- The issuing pack is the pack but for dead bits. -/
theorem issuing_fields (s : State) :
    ∃ ths sd, issuing s = { s.pack s.cur with threads := ths, sdead := sd } := by
  unfold issuing applyDead
  split
  · exact ⟨_, _, rfl⟩
  · rename_i x _
    obtain ⟨ths, h⟩ := modThreads_fields (s.pack s.cur) (lanesOf (s.pack s.cur).sel (s.pack s.cur).width)
      (fun th => { th with vdead := th.vdead ||| ~~~x.vmask })
    simp only
    rw [h]
    split
    · exact ⟨ths, _, rfl⟩
    · exact ⟨ths, _, rfl⟩

@[simp] theorem issuing_crew (s : State) : (issuing s).crew = (s.pack s.cur).crew := by
  obtain ⟨_, _, h⟩ := issuing_fields s; rw [h]
@[simp] theorem issuing_launch (s : State) : (issuing s).launch = (s.pack s.cur).launch := by
  obtain ⟨_, _, h⟩ := issuing_fields s; rw [h]
@[simp] theorem issuing_width (s : State) : (issuing s).width = (s.pack s.cur).width := by
  obtain ⟨_, _, h⟩ := issuing_fields s; rw [h]
@[simp] theorem issuing_sel (s : State) : (issuing s).sel = (s.pack s.cur).sel := by
  obtain ⟨_, _, h⟩ := issuing_fields s; rw [h]
@[simp] theorem issuing_loops (s : State) : (issuing s).loops = (s.pack s.cur).loops := by
  obtain ⟨_, _, h⟩ := issuing_fields s; rw [h]
@[simp] theorem issuing_save (s : State) : (issuing s).save = (s.pack s.cur).save := by
  obtain ⟨_, _, h⟩ := issuing_fields s; rw [h]
@[simp] theorem issuing_issues (s : State) : (issuing s).issues = (s.pack s.cur).issues := by
  obtain ⟨_, _, h⟩ := issuing_fields s; rw [h]
@[simp] theorem issuing_idx (s : State) : (issuing s).idx = (s.pack s.cur).idx := by
  obtain ⟨_, _, h⟩ := issuing_fields s; rw [h]
@[simp] theorem issuing_lin (s : State) : (issuing s).lin = (s.pack s.cur).lin := by
  obtain ⟨_, _, h⟩ := issuing_fields s; rw [h]
@[simp] theorem issuing_fenv (s : State) : (issuing s).fenv = (s.pack s.cur).fenv := by
  obtain ⟨_, _, h⟩ := issuing_fields s; rw [h]
@[simp] theorem issuing_live (s : State) : (issuing s).live = (s.pack s.cur).live := by
  obtain ⟨_, _, h⟩ := issuing_fields s; rw [h]

/-! ### What `issue` answers -/

variable {i : Instr} {e : Enc} {body : Ctx → State → Res} {s : State}

@[simp] theorem issuing_progress (s : State) : (issuing s).progress = (s.pack s.cur).progress := by
  obtain ⟨_, _, h⟩ := issuing_fields s; rw [h]

@[simp] theorem issued_isTrack (s : State) (k : Nat) : (issued s).isTrack k = s.isTrack k := rfl

/-- Dead bits leave what an earlier turn did of the instruction alone. -/
@[simp] theorem issued_untouched (s : State) : untouched (issued s) s.cur = untouched s s.cur := by
  unfold untouched madeHere
  simp

theorem issued_begins (h : Issuable i s) : ((issued s).isTrack (s.pack s.cur).launch && !untouched (issued s) s.cur) = false := by
  cases ht : s.isTrack (s.pack s.cur).launch
  · simp [ht]
  · simp [h.begins ht]

/-- Where no part of an instruction was done before, there is nothing to settle. -/
theorem settled_begins (h : Issuable i s) : settled (issued s) s.cur = issued s := by
  unfold settled
  have := issued_begins h
  simp only [issued_pack, issuing_launch, this, Bool.false_eq_true, if_false]

/-- The wrapper for an instruction that passes the checks of R57. -/
theorem issue_legal (h : Issuable i s) :
    issue i e body s = .next
      (match attempt i body (issueCtx s e) (issued s) with
      | .done t left => completed s t e left
      | .trap t => if issueMask s e = 0 then completed s (issued s) e 0 else trapped s e t
      | .fatal t l k =>
        if issueMask s e = 0 then completed s (issued s) e 0 else takeTrap (recordFatal (issued s) l k) s.cur (issuePc s) e.size t
      | .stall t => { unissue t s.cur (s.pack s.cur) with stalled := s.cur :: t.stalled }
      | .wait t k fs =>
        if issueMask s e = 0 && k.isFault then completed s (issued s) e 0
        else waitPack (unissue (if k.isGate || k.isFault then t else settled t s.cur) s.cur (s.pack s.cur)) s.cur e.size k fs
      | .gone t => t) := by
  have hs := settled_begins h
  unfold issue issuePack
  simp only [h.pack, h.live, h.legal, h.ready, Bool.false_eq_true, if_false, if_true]
  rw [State.setPack_pack_same]
  unfold issued at hs
  unfold issuing at hs
  rw [hs]
  rfl

/-- The pack keeps no part of its instruction from an earlier turn. -/
theorem attempt_begins (h : Issuable i s) :
    attempt i body (issueCtx s e) (issued s) = body (issueCtx s e) (issued s) ∨
      ((issued s).isTrack (s.pack s.cur).launch = true ∧ (issued s).curPack.progress = Progress.none ∧
        attempt i body (issueCtx s e) (issued s) = trackBody i body (issueCtx s e) (issued s)) := by
  unfold attempt
  rw [issued_curPack s h.pack, issuing_launch]
  cases ht : (issued s).isTrack (s.pack s.cur).launch
  · left; simp
  · right
    have hu := h.begins ht
    unfold untouched at hu
    simp only [Bool.and_eq_true, decide_eq_true_eq] at hu
    exact ⟨rfl, by rw [issuing_progress]; exact hu.1, by simp⟩

/-- A body that is done at once, and keeps no admission, is the attempt. -/
theorem attempt_done (h : Issuable i s) {t : State} {left : BitVec 64} (hb : body (issueCtx s e) (issued s) = .done t left)
    (hm : s.isTrack (s.pack s.cur).launch = true → madeHere t s.cur = false) :
    attempt i body (issueCtx s e) (issued s) = .done t left := by
  rcases attempt_begins (e := e) (body := body) h with h1 | ⟨ht, hp, h1⟩
  · rw [h1, hb]
  · rw [h1]
    unfold trackBody
    simp only [hp, Progress.none, List.isEmpty_nil, if_true, hb, issued_cur, issued_untouched, h.begins ht, hm ht, Bool.not_false,
      Bool.and_self]

/-- A body that traps is the attempt. -/
theorem attempt_trap (h : Issuable i s) {t : Trap} (hb : body (issueCtx s e) (issued s) = .trap t) :
    attempt i body (issueCtx s e) (issued s) = .trap t := by
  rcases attempt_begins (e := e) (body := body) h with h1 | ⟨_, hp, h1⟩
  · rw [h1, hb]
  · rw [h1]
    unfold trackBody
    simp only [hp, Progress.none, List.isEmpty_nil, if_true, hb]

/-- The body is done: the instruction completes. -/
theorem issue_done (h : Issuable i s) {t : State} {left : BitVec 64} (hb : body (issueCtx s e) (issued s) = .done t left)
    (hm : s.isTrack (s.pack s.cur).launch = true → madeHere t s.cur = false) :
    issue i e body s = .next (completed s t e left) := by
  rw [issue_legal h, attempt_done h hb hm]

/-- The body traps, and some thread's guard holds: the pack takes the trap. -/
theorem issue_trap (h : Issuable i s) {t : Trap} (hb : body (issueCtx s e) (issued s) = .trap t) (hm : issueMask s e ≠ 0) :
    issue i e body s = .next (trapped s e t) := by
  rw [issue_legal h, attempt_trap h hb]; simp only [hm, if_false]

/-- Under an all-zero mask a trap is a skip (04 R112). -/
theorem issue_skip (h : Issuable i s) {t : Trap} (hb : body (issueCtx s e) (issued s) = .trap t) (hm : issueMask s e = 0) :
    issue i e body s = .next (completed s (issued s) e 0) := by
  rw [issue_legal h, attempt_trap h hb]; simp only [hm, if_true]

/-- Work on the pack alone. -/
theorem issue_onPack_done (h : Issuable i s) {f : Ctx → Pack → Except Trap Pack} {q : Pack}
    (hb : f (issueCtx s e) (issuing s) = .ok q) (hl : q.launch = (s.pack s.cur).launch) (hn : q.lin = (s.pack s.cur).lin) :
    issue i e (onPack f) s = .next (completedPack s q e 0) := by
  refine issue_done h ?_ fun ht => ?_
  · unfold onPack
    rw [issued_curPack s h.pack, hb]
    simp only [issued_setCur s h.pack]
  · have hu := h.begins ht
    unfold untouched madeHere at hu
    unfold madeHere
    simp only [State.setPack_pack_same, hl, hn, State.setPack_launch]
    simp only [Bool.and_eq_true, Bool.not_eq_true'] at hu
    exact hu.2

theorem issue_onPack_trap (h : Issuable i s) {f : Ctx → Pack → Except Trap Pack} {t : Trap}
    (hb : f (issueCtx s e) (issuing s) = .error t) (hm : issueMask s e ≠ 0) :
    issue i e (onPack f) s = .next (trapped s e t) := by
  refine issue_trap h ?_ hm
  unfold onPack
  rw [issued_curPack s h.pack, hb]

/-- An encoding that breaks R57 traps ILLOP with the lowest subcode, in any pack that has a thread to run it (02 R57). -/
theorem issue_illop (hf : s.isFox = false) (hl : (s.pack s.cur).live = true)
    (hr : statusPending s s.cur (s.pack s.cur).width i = false) {k : Nat} (hk : illopSub (s.pack s.cur).width i = some k)
    (hm : issueMask s e ≠ 0 ∨ guardBreach i = true) :
    issue i e body s = .next (trapped s e
      ⟨clsIllop, k, BitVec.ofNat 64 (encodeFirst ((opcodeOf i).map (·.1) |>.getD 0) e), issueMask s e⟩) := by
  unfold issue issuePack
  simp only [hf, hl, hk, hr, Bool.false_eq_true, if_false, if_true]
  have hm : (decide (execMask (s.pack s.cur) e = 0) && !guardBreach i) = false := by
    rcases hm with hm | hm
    · rw [decide_eq_false (show ¬execMask (s.pack s.cur) e = 0 from hm)]; rfl
    · simp [hm]
  simp only [hm, Bool.false_eq_true, if_false]
  rfl

end Sys2Proof.Machine
end

