-- ==== Sys2Proof/Laws/Mem.lean ====
section
/-! SUPPORT. Memory: reads after writes, and the canonical form, which every operation on memory keeps. -/

namespace Sys2Proof.Machine

/-! ### Bytes -/

theorem State.setByte_byte (s : State) (pa a : Nat) (b : Byte) : (s.setByte pa b).byte a = if a = pa then b else s.byte a := by
  simp [State.byte, State.setByte, Tab.get_set]

/-- A run of bytes reads back, and every other byte is as it was. -/
theorem State.wrBytes_byte (s : State) (pa : Nat) (l : List Byte) (a : Nat) :
    (s.wrBytes pa l).byte a = if pa ≤ a ∧ a < pa + l.length then l.getD (a - pa) 0 else s.byte a := by
  induction l generalizing s pa with
  | nil => simp [State.wrBytes]
  | cons b l ih =>
    simp only [State.wrBytes, ih, State.setByte_byte, List.length_cons]
    by_cases h1 : pa + 1 ≤ a ∧ a < pa + 1 + l.length
    · have h2 : pa ≤ a ∧ a < pa + (l.length + 1) := by omega
      have h3 : a - pa = (a - (pa + 1)) + 1 := by omega
      simp only [h1, h2, and_self, if_true, h3, List.getD_cons_succ]
    · by_cases h4 : a = pa
      · subst h4; rw [if_neg h1]; simp
      · have h2 : ¬(pa ≤ a ∧ a < pa + (l.length + 1)) := by omega
        rw [if_neg h1, if_neg h4, if_neg h2]

/-- Only memory changes. -/
theorem State.wrBytes_fields (s : State) (pa : Nat) (l : List Byte) : ∃ m, s.wrBytes pa l = { s with mem := m } := by
  induction l generalizing s pa with
  | nil => exact ⟨s.mem, rfl⟩
  | cons b l ih => obtain ⟨m, h⟩ := ih (s.setByte pa b) (pa + 1); exact ⟨m, by rw [State.wrBytes, h]; rfl⟩

/-! ### The canonical form -/

theorem State.setByte_wf (s : State) (pa : Nat) (b : Byte) (h : memWf s.mem = true) : memWf (s.setByte pa b).mem = true :=
  Tab.wf_set _ _ _ _ h

theorem State.wrBytes_wf (s : State) (pa : Nat) (l : List Byte) (h : memWf s.mem = true) : memWf (s.wrBytes pa l).mem = true := by
  induction l generalizing s pa with
  | nil => exact h
  | cons b l ih => exact ih _ _ (s.setByte_wf pa b h)

/-- A fold of steps that keep a property keeps it. -/
theorem foldl_keeps {α : Type} (P : State → Prop) (f : State → α → State) (hf : ∀ s x, P s → P (f s x)) (l : List α) (s : State)
    (h : P s) : P (l.foldl f s) := by
  induction l generalizing s with
  | nil => exact h
  | cons x l ih => exact ih _ (hf s x h)

@[simp] theorem clearResv_mem (s : State) (g : Nat) : (clearResv s g).mem = s.mem := rfl
@[simp] theorem fireMonitors_mem (s : State) (g : Nat) : (fireMonitors s g).mem = s.mem := rfl

/-- The subscriptions' pushes leave memory alone. -/
@[simp] theorem pushSubs_mem (s : State) (g : Nat) (num : Sub → Nat) (t : Nat → Bool) : (pushSubs s g num t).mem = s.mem := by
  unfold pushSubs
  refine foldl_keeps (fun x => x.mem = s.mem) _ (fun s' x h => ?_) _ s rfl
  split
  · split
    · split
      · simpa using h
      · simp only [State.setSub_mem, apply_ite State.mem, State.count_mem, ite_self]; exact h
    · exact h
  · exact h

@[simp] theorem noteWrite_mem (s : State) (g : Nat) (num : Sub → Nat) (t : Nat → Bool) : (noteWrite s g num t).mem = s.mem := by
  simp [noteWrite]

@[simp] theorem setDetail_mem (s : State) (b n : Nat) : (setDetail s b n).mem = s.mem := rfl

@[simp] theorem codeBlocks_mem (s : State) (ps : List Piece) : (codeBlocks s ps).mem = s.mem := by
  unfold codeBlocks
  refine foldl_keeps (fun x => x.mem = s.mem) _ (fun s' x h => ?_) _ s rfl
  simp only
  split
  · split <;> simpa using h
  · simpa using h

theorem landPieces_wf (s : State) (ps : List Piece) (h : memWf s.mem = true) : memWf (landPieces s ps).mem = true := by
  unfold landPieces
  refine foldl_keeps (fun x => memWf x.mem = true) _ (fun s' x h => ?_) _ s h
  exact State.wrBytes_wf s' _ _ h

theorem combineParts_wf (s : State) (g op ty : Nat) (ps : Tab W64) (cs : List (List Nat)) (h : memWf s.mem = true) :
    memWf (combineParts s g op ty ps cs).mem = true := by
  unfold combineParts
  simp only
  split
  · exact h
  · rw [noteWrite_mem]
    exact foldl_keeps (fun x => memWf x.mem = true) _ (fun s' x h => State.wrBytes_wf s' _ _ h) _ s h

theorem recallGran_wf (s : State) (g : Nat) (h : memWf s.mem = true) : memWf (recallGran s g).mem = true := by
  unfold recallGran
  split
  · simp only
    have h3 : ∀ (l : List (Nat × Launch)) (s0 : State), memWf s0.mem = true →
        memWf (l.foldl (fun s x => writeUsed s x.2 g) s0).mem = true := fun l s0 h0 =>
      foldl_keeps (fun x => memWf x.mem = true) _ (fun s' x h => by
        unfold writeUsed; split
        · exact State.wrBytes_wf s' _ _ h
        · exact h) l s0 h0
    have h1 : ∀ l : List Nat, memWf (l.foldl (fun s cl =>
        ((Tab.get [] ((homeRecsOf s g cl).foldl (fun s r => combineParts s g r.op r.ty r.parts r.counts) s).gather cl).filter
          fun l => l.gran == g).foldl (fun s l => combineParts s g l.op l.ty l.parts l.counts)
          ((homeRecsOf s g cl).foldl (fun s r => combineParts s g r.op r.ty r.parts r.counts) s)) s).mem = true := fun l =>
      foldl_keeps (fun x => memWf x.mem = true) _ (fun s' cl h =>
        foldl_keeps (fun x => memWf x.mem = true) _ (fun s' l h => combineParts_wf s' _ _ _ _ _ h) _ _
          (foldl_keeps (fun x => memWf x.mem = true) _ (fun s' r h => combineParts_wf s' _ _ _ _ _ h) _ _ h)) l s h
    split
    · exact h3 _ _ (h1 _)
    · exact h3 _ _ (h1 _)
  · exact h

/-- A write at its homes keeps memory's canonical form. -/
theorem performPieces_wf (s : State) (ps : List Piece) (h : memWf s.mem = true) : memWf (performPieces s ps).mem = true := by
  unfold performPieces
  simp only
  refine foldl_keeps (fun x => memWf x.mem = true) _ (fun s' g h => ?_) _ _ ?_
  · simp only [noteWrite_mem, apply_ite State.mem, ite_self]; exact h
  · rw [codeBlocks_mem]
    apply landPieces_wf
    refine foldl_keeps (fun x => memWf x.mem = true) _ (fun s' g h => recallGran_wf s' g h) _ _ ?_
    simp only [apply_ite State.mem, State.count_mem, ite_self]; exact h

theorem performBytes_wf (s : State) (pa : Nat) (bs : List Byte) (h : memWf s.mem = true) : memWf (performBytes s pa bs).mem = true :=
  performPieces_wf s _ h

@[simp] theorem State.wrSpad_mem (s : State) (l : Loc) (bs : List Byte) (t : Option Bool) : (s.wrSpad l bs t).mem = s.mem := by
  unfold State.wrSpad
  split
  · rfl
  · rfl
  · simp [State.modGang]
  · rfl

@[simp] theorem countXpand_mem (s : State) (cl : Nat) (l : List (Loc × Nat)) : (countXpand s cl l).mem = s.mem := by
  unfold countXpand; simp only; split <;> rfl

@[simp] theorem countPartial_mem (s : State) (cl : Nat) (l : List (Loc × Nat)) : (countPartial s cl l).mem = s.mem := by
  unfold countPartial; simp only; split <;> rfl

/-- The windows' part of a store of an instruction leaves memory alone. -/
theorem foldl_wrSpad_mem (s : State) (l : List IStore) :
    (l.foldl (fun s x => if x.loc.isPhys then s else s.wrSpad x.loc x.bytes x.tag) s).mem = s.mem := by
  refine foldl_keeps (fun x => x.mem = s.mem) _ (fun s' x h => ?_) _ s rfl
  split
  · exact h
  · rw [State.wrSpad_mem]; exact h

/-- A store of an instruction keeps memory's canonical form. -/
theorem performStores_wf (s : State) (l : List IStore) (h : memWf s.mem = true) : memWf (performStores s l).mem = true := by
  unfold performStores
  simp only
  have h1 (s0 : State) (h0 : s0.mem = s.mem) :
      memWf (l.foldl (fun s x => if x.loc.isPhys then s else s.wrSpad x.loc x.bytes x.tag) s0).mem = true := by
    rw [foldl_wrSpad_mem, h0]; exact h
  split
  · exact h1 _ (by cases l <;> simp)
  · exact performPieces_wf _ _ (h1 _ (by cases l <;> simp))

/-- What a home does before a read keeps memory's canonical form. -/
theorem readyRead_wf (s : State) (gs : List Nat) (h : memWf s.mem = true) : memWf (readyRead s gs).mem = true := by
  unfold readyRead
  refine foldl_keeps (fun x => memWf x.mem = true) _ (fun s' g h => ?_) _ s h
  have := recallGran_wf s' g h
  simp only
  split
  · exact this
  · exact this

/-! ### A write where nothing is gathered -/

/-- No partial of a granule waits to be combined. -/
def gathersNone (s : State) (g : Nat) : Bool :=
  !((s.gather.any fun x => x.2.any fun l => l.gran == g) || (s.launches.any fun x => x.2.homeRecs.any fun r => r.gran == g))

theorem recallGran_none (s : State) (g : Nat) (h : gathersNone s g = true) : recallGran s g = s := by
  unfold recallGran
  unfold gathersNone at h
  rw [if_neg (by simpa using h)]

theorem foldl_recall_none (s : State) (gs : List Nat) (h : ∀ g ∈ gs, gathersNone s g = true) : gs.foldl recallGran s = s := by
  induction gs with
  | nil => rfl
  | cons g gs ih => rw [List.foldl_cons, recallGran_none s g (h g (by simp)), ih fun x hx => h x (List.mem_cons_of_mem _ hx)]

theorem foldl_notes_mem (ps : List Piece) (gs : List Nat) (s : State) :
    (gs.foldl (fun s g =>
      let all := (List.range 64).all fun i => ps.any fun p => p.covers (g * 64 + i)
      let s := { s with poison := if all then Tab.set false s.poison g false else s.poison, check := Tab.set 0 s.check g 0 }
      noteWrite s g (fun _ => 1) fun a => ps.any fun p => p.covers a) s).mem = s.mem := by
  refine foldl_keeps (fun x => x.mem = s.mem) _ (fun s' g h => ?_) _ s rfl
  simp only [noteWrite_mem, apply_ite State.mem, ite_self]; exact h

/-- The device's own write of one run of bytes: they read back, and every other byte is as it was. -/
theorem performBytes_byte (s : State) (pa : Nat) (bs : List Byte) (hr : reachable s pa = true)
    (hg : ∀ g, gathersNone s g = true) (a : Nat) :
    (performBytes s pa bs).byte a = if pa ≤ a ∧ a < pa + bs.length then bs.getD (a - pa) 0 else s.byte a := by
  have h1 : (performBytes s pa bs).mem = (s.wrBytes pa bs).mem := by
    unfold performBytes performPieces
    simp only [List.filter_cons, hr, Bool.not_true, Bool.false_eq_true, if_false, if_true, List.filter_nil, List.isEmpty_nil]
    rw [foldl_notes_mem, codeBlocks_mem]
    rw [foldl_recall_none _ _ fun g _ => hg g]
    simp [landPieces]
  unfold State.byte
  rw [h1]
  exact s.wrBytes_byte pa bs a

end Sys2Proof.Machine
end

