-- ==== Sys2Proof/Tests/Slice0.lean ====
section
/-! SUPPORT. The model's own tests: terms that well-formedness refuses; words from the manual's encodings and what they decode
to; single steps with the values that the manual works; and for each claim a state and operands that meet its hypotheses. -/

namespace Sys2Proof.Tests

set_option Elab.async false

open Sys2Proof Sys2Proof.Machine

/-! ### Well-formedness: an ill-formed term for each check -/

theorem wf_unassigned : WellFormed (.unassignedOpcode 0x20 (Claims.plainEnc 0 0 0)) = false := by decide
theorem wf_unassigned_ok : WellFormed (.unassignedOpcode 0x16 (Claims.plainEnc 0 0 0)) = true := by decide
theorem wf_row : WellFormed (.lineRefill 0 2368) = false := by decide
theorem wf_core : WellFormed (.spillDrain 1024) = false ∧ WellFormed (.sequencerStep 1024) = false ∧
    WellFormed (.matrixComplete 1024) = false := by decide
theorem wf_walk : WellFormed (.translationWalk 1024 0 0 0 0) = false ∧ WellFormed (.translationWalk 0 4096 0 0 0) = false ∧
    WellFormed (.translationWalk 0 0 (2 ^ 54) 0 0) = false ∧ WellFormed (.translationWalk 0 0 0 3 0) = false ∧
    WellFormed (.translationWalk 0 0 0 0 10) = false := by decide
theorem wf_fault : WellFormed (.faultRetry 4096 0) = false ∧ WellFormed (.faultRetry 0 (2 ^ 38)) = false ∧
    WellFormed (.faultFatal 4096 0) = false := by decide
theorem wf_quay : WellFormed (.quayGrantWindow 256) = false ∧ WellFormed (.repoll 256) = false ∧ WellFormed (.gateAdmit 0 256) = false := by
  decide
theorem wf_mooring : WellFormed (.mooringGrant 0 65536) = false := by decide
theorem wf_gran : WellFormed (.recall (2 ^ 50)) = false ∧ WellFormed (.recallTimeout (2 ^ 50)) = false := by decide
theorem wf_cause : WellFormed (.copyAbandon 0 512) = false ∧ WellFormed (.uceConsume 0 0) = false ∧ WellFormed (.uceConsume 0 13) = false := by
  decide
theorem wf_notify : WellFormed (.notify 1024 0 64 0) = false ∧ WellFormed (.notify 0 4096 64 0) = false := by decide
theorem wf_register : WellFormed (.registerWrite 65536 8 0) = false := by decide
theorem wf_queue : WellFormed (.launch 1024) = false ∧ WellFormed (.graph 1024) = false ∧ WellFormed (.copy 1024) = false ∧
    WellFormed (.signal 1024) = false ∧ WellFormed (.wait 1024) = false ∧ WellFormed (.mark 1024) = false ∧
    WellFormed (.badPacket 1024) = false ∧ WellFormed (.waitComplete 1024) = false ∧ WellFormed (.copyPacketComplete 1024 0) = false ∧
    WellFormed (.slotGrant 1024) = false ∧ WellFormed (.priorityAgeing 1024) = false ∧ WellFormed (.slotSliceExpire 1024) = false ∧
    WellFormed (.haltClear 1024) = false := by decide
theorem wf_node : WellFormed (.batchTimeout 0 0) = false ∧ WellFormed (.batchQuiescentLaunch 0 256) = false := by decide
theorem wf_bringUp : WellFormed (.powerOnReset 6 [] 0 []) = false ∧ WellFormed (.powerOnReset 0 [(16, 0)] 0 []) = false ∧
    WellFormed (.powerOnReset 0 [] 8 []) = false ∧ WellFormed (.powerOnReset 0 [] (2 ^ 40) []) = false ∧
    WellFormed (.powerOnReset 0 [] 0 [(128, 0)]) = false ∧ WellFormed (.powerOnReset 0 [] 0 [(0, 512)]) = false := by decide
theorem wf_link : WellFormed (.flitReplay 128 0) = false := by decide

/-! ### Decoding: words from the manual's encodings, their fields taken out by hand (02 R35, R38, R39) -/

/-- The words of an extended instruction as the table's number. -/
def ext3 (w0 w1 w2 : Nat) : Nat := w0 + w1 * 2 ^ 32 + w2 * 2 ^ 64

/-- The extended words with every field 0. -/
def x0 : Ext where
  mod := 0
  rc := false
  rb := false
  ra := false
  gx := false
  rm := 0
  t := 0
  c := 0
  bx := 0
  ax := 0
  dx := 0
  imm := 0
  kd := false
  ka := false
  kb := false
  kc := false
  mc := 0
  mb := 0
  ma := 0
  bw := 0
  bh := 0

def pe (b a d : Nat) : Enc := Claims.plainEnc b a d
def xe (b a d : Nat) (x : Ext) : Enc := { pe b a d with ext := some x }

/-- iadd.i32 v5, v3, v9 and iadd.i32 v2, v2, 100000 (02 R50). -/
theorem decode_iadd : decodeTableWord 32 0x24315C8C = some (.iadd (pe 9 3 5)) := by decide +kernel
theorem decode_iadd_literal : decodeTableWord 96 (0x00209C8E + 100000 * 2 ^ 32) =
    some (.iadd { pe 0 2 2 with lit := some 100000 }) := by decide +kernel
/-- ?!p9 ffma.f64.rtz v10, v20, v40, v60 (02). -/
theorem decode_ffma : decodeTableWord 96 (ext3 0xA142A515 0x004B8F00 0) =
    some (.ffmaF64 { xe 40 20 10 { x0 with gx := true, rm := 1, t := 14, c := 60 } with gn := true, g := 1 }) := by decide +kernel
/-- exit; bra +0x40; loop 10 (04). -/
theorem decode_exit : decodeTableWord 32 0x00001C1C = some (.exit (pe 0 0 0)) := by decide +kernel
theorem decode_bra : decodeTableWord 32 0x00041C04 = some (.bra (pe 0 0 16)) := by decide +kernel
theorem decode_loop : decodeTableWord 32 0x00A15C24 = some (.loopImm (pe 0 10 5)) := by decide +kernel
/-- iadd.co.n32 v0, v2, v4, p1 (05 R151). -/
theorem decode_carry : decodeTableWord 96 (ext3 0x10201C8D 0x0801C040 0) =
    some (.iadd (xe 4 2 0 { x0 with mod := 2, t := 7, c := 1 })) := by decide +kernel
/-- cvtpk.scl.sat.e4m3.rne v8, v4, v20 (06). -/
theorem decode_cvtpk : decodeTableWord 96 (ext3 0x00421D65 0x1403C500 0) =
    some (.cvtpk (xe 0 4 8 { x0 with mod := 5, t := 15, c := 20 })) := by decide +kernel
/-- ?p1 rscan.inc.f32 v8, v4 (04 R128). -/
theorem decode_rscan : decodeTableWord 32 0x004205E0 = some (.rscanInc { pe 0 4 8 with g := 1 }) := by decide +kernel
/-- twait t5; tdef.e4m3 t3, y7, s10, 16 (07). -/
theorem decode_twait : decodeTableWord 32 0x14001E88 = some (.twait (pe 5 0 0)) := by decide +kernel
theorem decode_tdef : decodeTableWord 96 (ext3 0x2870DE81 0x0003C000 0x00100000) =
    some (.tdef (xe 10 7 3 { x0 with t := 15, imm := 16 })) := by decide +kernel
/-- ld.b32 v4, [y1 + v2*4 + 64]; the same ldg with p3 (08). -/
theorem decode_ld : decodeTableWord 96 (ext3 0x09111E01 0x50024000 0x00400000) =
    some (.ldVector (xe 2 17 4 { x0 with mod := 20, t := 9, imm := 64 })) := by decide +kernel
theorem decode_ldg : decodeTableWord 96 (ext3 0x09111E11 0x500240C0 0x00400000) =
    some (.ldg (xe 2 17 4 { x0 with mod := 20, t := 9, c := 3, imm := 64 })) := by decide +kernel
/-- acq.sh [y1 + 64]; fence.rel.crew; fence.geo.lane (09). -/
theorem decode_acq : decodeTableWord 96 (ext3 0x01101E45 0x04000000 0x00400000) =
    some (.acq (xe 0 17 0 { x0 with mod := 1, imm := 64 })) := by decide +kernel
theorem decode_fence : decodeTableWord 32 0x00045E4C = some (.fence (pe 0 0 17)) := by decide +kernel
theorem decode_fence_geo : decodeTableWord 32 0x00271E4C = some (.fence (pe 0 2 28)) := by decide +kernel
/-- atom.cas.n32 v4, [y1 + v2*4], v6; stand; waitc.ge.n32 s6, [y1 + 8]; stq.wait (10). -/
theorem decode_atom : decodeTableWord 96 (ext3 0x09111E51 0x5001C180 0x00007000) =
    some (.atomInt (xe 2 17 4 { x0 with mod := 20, t := 7, c := 6, ka := true, kb := true, kc := true })) := by decide +kernel
theorem decode_stand : decodeTableWord 96 (ext3 0x01229E6D 0x0001C140 0x00003000) =
    some (.stand (xe 0 18 10 { x0 with t := 7, c := 5, kb := true, kc := true })) := by decide +kernel
theorem decode_waitc : decodeTableWord 96 (ext3 0x01119E69 0x0001C000 0x00085000) =
    some (.waitc (xe 0 17 6 { x0 with t := 7, imm := 8, ka := true, kc := true })) := by decide +kernel
theorem decode_stq : decodeTableWord 96 (ext3 0x01031E75 0x04000000 0) =
    some (.stq (xe 0 16 12 { x0 with mod := 1 })) := by decide +kernel
/-- cpy y2, y1, s16 (11). -/
theorem decode_cpy : decodeTableWord 96 (ext3 0x40109E99 0 0) = some (.cpy (xe 16 1 2 x0)) := by decide +kernel
/-- mma, mldb and mms of the worked examples (12). -/
theorem decode_mma : decodeTableWord 96 (ext3 0x50211F0D 0x58058140 0) =
    some (.mmaFloat (xe 20 2 4 { x0 with mod := 22, t := 22, c := 5 })) := by decide +kernel
theorem decode_mldb : decodeTableWord 96 (ext3 0x50301F01 0x20038000 0) =
    some (.mldb (xe 20 3 0 { x0 with mod := 8, t := 14 })) := by decide +kernel
theorem decode_mms : decodeTableWord 96 (ext3 0x50219F11 0x20038000 0) =
    some (.mms (xe 20 2 6 { x0 with mod := 8, t := 14 })) := by decide +kernel
/-- lnch p2, y1, s6; gemit s4, s5; grec s11 (13). -/
theorem decode_lnch : decodeTableWord 32 0x18109C54 = some (.lnch (pe 6 1 2)) := by decide +kernel
theorem decode_gemit : decodeTableWord 32 0x14401F34 = some (.gemit (pe 5 4 0)) := by decide +kernel
theorem decode_grec : decodeTableWord 32 0x0002DF30 = some (.grec (pe 0 0 11)) := by decide +kernel
/-- cutsel s4, y1, s8, y2; rsub y3, y2, s12; rwait 0; visd v12, v10; clfetch (14). -/
theorem decode_cutsel : decodeTableWord 96 (ext3 0x20111F41 0x80 0) = some (.cutsel (xe 8 1 4 { x0 with c := 2 })) := by decide +kernel
theorem decode_rsub : decodeTableWord 32 0x3020DF48 = some (.rsub (pe 12 2 3)) := by decide +kernel
theorem decode_rwait : decodeTableWord 32 0x00001F4C = some (.rwait (pe 0 0 0)) := by decide +kernel
theorem decode_visd : decodeTableWord 32 0x00A31F58 = some (.visd (pe 0 10 12)) := by decide +kernel
theorem decode_clfetch : decodeTableWord 32 0x5C1C1F44 = some (.clfetch (pe 23 1 48)) := by decide +kernel
/-- tret.skip; tbnd s20, s22; sflg s4 (15); dhash s4; dmark 5 (16). -/
theorem decode_tret : decodeTableWord 32 0x04001C38 = some (.tret (pe 1 0 0)) := by decide +kernel
theorem decode_tbnd : decodeTableWord 32 0x59401C3C = some (.tbnd (pe 22 20 0)) := by decide +kernel
theorem decode_sflg : decodeTableWord 32 0x00011C40 = some (.sflg (pe 0 0 4)) := by decide +kernel
theorem decode_dhash : decodeTableWord 32 0x00011F5C = some (.dhash (pe 0 0 4)) := by decide +kernel
theorem decode_dmark : decodeTableWord 32 0x14001F60 = some (.dmark (pe 5 0 0)) := by decide +kernel
/-- An unassigned opcode decodes to its own term (02 R55, R57); bytes that end inside an instruction do not decode. -/
theorem decode_unassigned : decodeTableWord 32 0x00001C58 = some (.unassignedOpcode 0x16 (pe 0 0 0)) := by decide +kernel
theorem decode_short : decode [0x8D, 0x1C, 0x20, 0x10] = none := by decide +kernel
/-- The encoder writes the words of the manual. -/
theorem encode_tdef : encode (.tdef (xe 10 7 3 { x0 with t := 15, imm := 16 })) =
    [0x81, 0xDE, 0x70, 0x28, 0x00, 0xC0, 0x03, 0x00, 0x00, 0x00, 0x10, 0x00] := by decide +kernel

/-! ### Small states -/

/-- A launch of one crew of one pack of 16 threads at 0x10000, with a trap handler at 0x10100. -/
def bare : State := (State.reset.withCode []).modLaunch 0 fun l => { l with hdr := { l.hdr with trap := 0x10100 } }
/-- The same after a change of its pack. -/
def withPack (f : Pack → Pack) : State := bare.modPack 0 f
/-- Thread 0's register `r` holds `x`. -/
def vs (l : List (Nat × W32)) (p : Pack) : Pack := l.foldl (fun p x => wrV p x.1 0 x.2.toNat) p
/-- Uniform registers. -/
def ss (l : List (Nat × W64)) (p : Pack) : Pack := l.foldl (fun p x => wrS p x.1 x.2) p
/-- The state after an instruction. -/
def after (o : Host.Outcome State Fault Refusal) : State :=
  match o with
  | .next t => t
  | _ => State.reset
def run (i : Instr) (s : State) : State := after (exec i s)
/-- Register `r` of thread 0, uniform register `r`, and the flags of thread 0, afterwards. -/
def vAfter (i : Instr) (s : State) (r : Nat) : Nat := rdV ((run i s).pack 0) r 0
def sAfter (i : Instr) (s : State) (r : Nat) : Nat := (rdS ((run i s).pack 0) r).toNat
def flAfter (i : Instr) (s : State) : Nat := (packThread ((run i s).pack 0) 0).fflags.toNat
/-- %tcause, %tval and the handler bit afterwards. -/
def trapAfter (i : Instr) (s : State) : Nat × Nat × Bool :=
  let p := (run i s).pack 0
  (p.tcause.toNat, p.tval.toNat, p.save.inHandler)
/-- The type code of an extended instruction. -/
def ty (t : Nat) : Ext := { x0 with t := BitVec.ofNat 5 t }

/-! ### Single steps, with the values that the manual works -/

/-- iadd.co.n32 and iadd.cy.n32 add 64 bits from halves (05 R151). -/
theorem step_carry : vAfter (.iadd (xe 4 2 0 { x0 with mod := 2, t := 7, c := 1 })) (withPack (vs [(2, 0xFFFFFFF0), (4, 0x20)])) 0 = 0x10 ∧
    rdP ((run (.iadd (xe 4 2 0 { x0 with mod := 2, t := 7, c := 1 })) (withPack (vs [(2, 0xFFFFFFF0), (4, 0x20)]))).pack 0) 1 0 = true := by
  decide +kernel
/-- bfx.i32 of 0xF00 at 8, of length 4, and bfx.n32 (05 R157). -/
theorem step_bfx : vAfter (.bfx (xe 0 2 0 { x0 with mod := 1, imm := 0x408 })) (withPack (vs [(2, 0xF00)])) 0 = 0xFFFFFFFF ∧
    vAfter (.bfx (xe 0 2 0 { x0 with mod := 1, imm := 0x408, t := 7 })) (withPack (vs [(2, 0xF00)])) 0 = 15 := by decide +kernel
/-- A division by zero gives all ones, and the remainder the dividend (05 R153). -/
theorem step_idiv : vAfter (.idiv (pe 4 2 0)) (withPack (vs [(2, 7)])) 0 = 0xFFFFFFFF := by decide +kernel
/-- popc of 0xF0F0 is 8; clz of 1 is 31 (05 R158). -/
theorem step_popc : vAfter (.popc (pe 0 2 0)) (withPack (vs [(2, 0xF0F0)])) 0 = 8 ∧
    vAfter (.clz (pe 0 2 0)) (withPack (vs [(2, 1)])) 0 = 31 := by decide +kernel
/-- 1.0 + 2^-24 is a tie, to even, and inexact (06 R175; 04 R128). -/
theorem step_fadd : vAfter (.faddF32 (pe 4 2 0)) (withPack (vs [(2, 0x3F800000), (4, 0x33800000)])) 0 = 0x3F800000 ∧
    flAfter (.faddF32 (pe 4 2 0)) (withPack (vs [(2, 0x3F800000), (4, 0x33800000)])) = 0x10 := by decide +kernel
/-- f2i.i32.f32.rne of 2.5 is 2 (06 R185). -/
theorem step_f2i : vAfter (.f2i (pe 0 2 0)) (withPack (vs [(2, 0x40200000)])) 0 = 2 ∧
    flAfter (.f2i (pe 0 2 0)) (withPack (vs [(2, 0x40200000)])) = 0 := by decide +kernel
/-- The worked stochastic draw: 1 + 2^-11 to binary16 with %rng 1 (03 R89). -/
theorem step_stochastic : let i : Instr := .f2f (xe 0 2 0 { x0 with mod := 0x0D, rm := 5, t := 0x0B })
    let s := withPack fun p => vs [(2, 0x3F801000)] { p with threads := p.threads.zipIdx.map fun x => { x.1 with exited := x.2 != 0 }, sel := 1 }
    vAfter i s 0 = 0x3C01 ∧ ((run i s).pack 0).rng = 0x40822041 := by decide +kernel
/-- qscl.e4m3 of a row maximum of 3.0 gives 0x78, and cvtpk encodes 3.0, -1.0, 0.1, 0 as 0x0055F07C (06 R192). -/
theorem step_qscl : vAfter (.qscl (xe 0 30 20 (ty 15))) (withPack (vs [(30, 0x40400000)])) 20 = 0x78 := by decide +kernel
theorem step_cvtpk : vAfter (.cvtpk (xe 0 4 8 { x0 with mod := 5, t := 15, c := 20 }))
    (withPack (vs [(4, 0x40400000), (5, 0xBF800000), (6, 0x3DCCCCCD), (20, 0x78)])) 8 = 0x0055F07C := by decide +kernel
/-- The worked scan, in lane 4 (04 R128). -/
theorem step_rscan : let s := withPack fun p =>
      let p := [(0, 0x3F800000), (1, 0x33800000), (2, 0x41100000), (3, 0x33800000), (4, 0x33800000)].foldl (fun p x => wrV p 4 x.1 x.2) p
      { p with threads := p.threads.zipIdx.map fun x =>
          { x.1 with preds := if [0, 1, 3, 4].contains x.2 then x.1.preds ||| 2 else x.1.preds } }
    let q := (run (.rscanInc { pe 0 4 8 with g := 1 }) s).pack 0
    rdV q 8 4 = 0x3F800002 ∧ rdV q 8 3 = 0x3F800001 ∧ rdV q 8 2 = 0 ∧ (packThread q 4).fflags = 0x10 := by decide +kernel
/-- visd of a word of depth 5, list index 3, triangle 2 and instance 1 (14 R441). -/
theorem step_visd : let s := withPack (vs [(10, 3 * 2 ^ 14 + 2 * 2 ^ 7 + 1), (11, 5)])
    vAfter (.visd (pe 0 10 12)) s 12 = 5 ∧ vAfter (.visd (pe 0 10 12)) s 13 = 3 ∧ vAfter (.visd (pe 0 10 12)) s 14 = 2 ∧
      vAfter (.visd (pe 0 10 12)) s 15 = 1 := by decide +kernel
/-- bra +0x40 from 0x10000 (02 R52); exit leaves no thread; loop 10 at 0x10000 to its end at 0x10014 (04 R108). -/
theorem step_bra : packPc ((run (.bra (pe 0 0 16)) bare).pack 0) = 0x10040 := by decide +kernel
theorem step_loop : ((run (.loopImm (pe 0 10 5)) bare).pack 0).loops = [⟨0x10004, 0x10014, 10⟩] := by decide +kernel
/-- trap 5 saves its address, its cause and its mask, and goes to the handler (15 R444 to R448); tret.skip goes past it (R450). -/
theorem step_trap : let q := (run (.trap (pe 5 0 0)) bare).pack 0
    q.tepc = 0x10000 ∧ q.tcause.toNat = 5 * 256 + clsSwtrap ∧ q.tmask = 0xFFFF ∧ packPc q = 0x10100 ∧ q.save.inHandler = true := by
  decide +kernel
theorem step_tret : packPc ((run (.tret (pe 1 0 0)) (run (.trap (pe 5 0 0)) bare)).pack 0) = 0x10004 ∧
    ((run (.tret (pe 1 0 0)) (run (.trap (pe 5 0 0)) bare)).pack 0).save.inHandler = false := by decide +kernel
/-- Outside a handler tret traps ILLOP 12 (15 R450); an unassigned opcode traps ILLOP 1 with its first word (02 R57). -/
theorem step_tret_outside : trapAfter (.tret (pe 1 0 0)) bare = (12 * 256 + clsIllop, 4, true) := by decide +kernel
theorem step_unassigned : (trapAfter (.unassignedOpcode 0x16 (pe 0 0 0)) bare).1 = 1 * 256 + clsIllop := by decide +kernel
/-- The worked capability: 64 KiB of SPM1, cursor 0x400, colour 5, and its representable cursors (08 R222, R223). -/
theorem step_capability : mkCap 0x400 0 65536 0x38F 2 5 = ⟨true, 0x00000523_8F800000_00C00000_00000400⟩ ∧
    ((mkCap 0x400 0 65536 0x38F 2 5).moveTo (0x400 + 98304)).tag = false ∧
    ((mkCap 0x400 0 65536 0x38F 2 5).moveTo (98304 - 1)).tag = true := by decide +kernel
/-- The worked identifier (04 R95). -/
theorem step_identifier : (5 + 2 * 2 ^ 6 + 9 * 2 ^ 8 + 3 * 2 ^ 12 + 1 * 2 ^ 16 + 7 * 2 ^ 19 : Nat) = 0x393985 := by decide
/-- srd %lane in lane 3, and the vote and ballot of a full mask (04 R120, R122). -/
theorem step_lane : rdV ((run (.srd (pe 1 0 4)) bare).pack 0) 4 3 = 3 := by decide +kernel
theorem step_ballot : sAfter (.voteBallot (pe 0 7 2)) bare 2 = 0xFFFF := by decide +kernel
/-- shfl.xor 1 exchanges neighbours (04 R125). -/
theorem step_shfl : let s := withPack fun p => wrV (wrV p 2 0 11) 2 1 22
    rdV ((run (.shflXorImm (pe 1 2 4)) s).pack 0) 4 0 = 22 ∧ rdV ((run (.shflXorImm (pe 1 2 4)) s).pack 0) 4 1 = 11 := by decide +kernel

/-! ### Witnesses: for each claim, a state and operands that meet its hypotheses together -/

/-- What Issuable asks, as a test. -/
def canIssue (i : Instr) (s : State) : Bool :=
  !s.isFox && (s.pack s.cur).live && (illopSub (s.pack s.cur).width i == none) && !statusPending s s.cur (s.pack s.cur).width i
    && (!s.isTrack (s.pack s.cur).launch || untouched s s.cur)
theorem issuable {i : Instr} {s : State} (h : canIssue i s = true) : Issuable i s := by
  simp only [canIssue, Bool.and_eq_true, Bool.not_eq_true', beq_iff_eq] at h
  exact ⟨h.1.1.1.1, h.1.1.1.2, h.1.1.2, h.1.2, fun ht => by simpa [ht] using h.2⟩
def quietB (c : Ctx) (r : Claims.LaneRow) (p : Pack) : Bool :=
  (lanesOf c.m p.width).all fun u => laneFlags c r.draws (r.val p) p u &&& enabledFlags p == 0
theorem quiet_iff (c : Ctx) (r : Claims.LaneRow) (p : Pack) : quietB c r p = true ↔ Claims.quiet c r p := by
  simp [quietB, Claims.quiet]

/-- Flags enabled in %fenv. -/
def strictFp (p : Pack) : Pack := { p with fenv := 0x1F }

theorem witness_IntegerLanes : ∃ i e r s, Claims.integerRow i = some (e, r) ∧ Issuable i s :=
  ⟨.iadd (pe 9 3 5), _, _, bare, rfl, issuable (by decide +kernel)⟩
theorem witness_CarryForms : ∃ e s, 1 < encMod e ∧ encMod e = 4 ∧ Issuable (.iadd e) s :=
  ⟨xe 4 2 0 { x0 with mod := 4, t := 7, c := 1 }, bare, by decide +kernel, by decide +kernel, issuable (by decide +kernel)⟩
theorem witness_CarryForms_immediate : ∃ e s, encMod e = 2 ∧ Issuable (.isubImm e) s :=
  ⟨xe 4 2 0 { x0 with mod := 2, t := 7, c := 1 }, bare, by decide +kernel, issuable (by decide +kernel)⟩
theorem witness_FloatLanes : ∃ i e r s, Claims.arithRow i = some (e, r) ∧ Issuable i s ∧ Claims.quiet (issueCtx s e) r (issuing s) :=
  ⟨.faddF32 (pe 4 2 0), _, _, withPack strictFp, rfl, issuable (by decide +kernel), (quiet_iff _ _ _).mp (by decide +kernel)⟩
theorem witness_SineCosine : ∃ s : State, Issuable (.fcos (pe 0 2 4)) s ∧ (s.launch (s.pack s.cur).launch).hdr.bver = 3 ∧
    Claims.quiet (issueCtx s (pe 0 2 4)) (Claims.sineRow s (pe 0 2 4) true) (issuing s) :=
  ⟨withPack strictFp, issuable (by decide +kernel), by decide +kernel, (quiet_iff _ _ _).mp (by decide +kernel)⟩
/-- fsin of an infinity and a comparison with a signalling NaN, with every flag enabled. -/
def improper : State := withPack fun p => vs [(2, 0x7F800000), (4, 0x7F800001)] (strictFp p)
theorem witness_FloatTraps_sine : Issuable (.fsin (pe 0 2 6)) improper ∧
    ¬Claims.quiet (issueCtx improper (pe 0 2 6)) (Claims.sineRow improper (pe 0 2 6) false) (issuing improper) :=
  ⟨issuable (by decide +kernel), fun h => by have := (quiet_iff _ _ _).mpr h; revert this; decide +kernel⟩
theorem witness_CompareTraps : let p := issuing improper
    Issuable (.fcmp (pe 4 2 1)) improper ∧
    ((fCmp (fmtOf (pe 4 2 1) 0x0D) 0 false (rdV p 2 0) (rdV p 4 0)).2 &&& enabledFlags p) ≠ 0 :=
  ⟨issuable (by decide +kernel), by decide +kernel⟩
theorem witness_FloatTraps : ∃ i e r s, Claims.arithRow i = some (e, r) ∧ Issuable i s ∧ ¬Claims.quiet (issueCtx s e) r (issuing s) :=
  ⟨.fdiv (pe 4 2 0), _, _, withPack strictFp, rfl, issuable (by decide +kernel), fun h => by
    have := (quiet_iff _ _ _).mpr h; revert this; decide +kernel⟩
theorem witness_Conversions : ∃ i e r s, Claims.convertRow i = some (e, r) ∧ Issuable i s ∧ Claims.quiet (issueCtx s e) r (issuing s) :=
  ⟨.f2i (pe 0 2 0), _, _, bare, rfl, issuable (by decide +kernel), (quiet_iff _ _ _).mp (by decide +kernel)⟩
theorem witness_CrossLanes : ∃ i e r s, Claims.crossRow (issueMask s e) i = some (e, r) ∧ Issuable i s :=
  ⟨.shflXorImm (pe 1 2 4), _, _, bare, rfl, issuable (by decide +kernel)⟩
theorem witness_CrossLanes_match : ∃ i e r s, Claims.crossRow (issueMask s e) i = some (e, r) ∧ Issuable i s :=
  ⟨.matchAny (pe 0 2 4), _, _, bare, rfl, issuable (by decide +kernel)⟩

theorem witness_PredicateResults : ∃ i e f s, Claims.predRow (issueMask s e) i = some (e, f) ∧ Issuable i s ∧
    ∀ t ∈ lanesOf (issueMask s e) (issuing s).width, (f (issuing s) t).2 &&& enabledFlags (issuing s) = 0 :=
  ⟨.icmp (pe 4 2 1), _, _, bare, rfl, issuable (by decide +kernel), by decide +kernel⟩
theorem witness_UniformResults : ∃ i e f s, Claims.uniformRow (issueMask s e) i = some (e, f) ∧ Issuable i s :=
  ⟨.lredAdd (pe 0 2 4), _, _, bare, rfl, issuable (by decide +kernel)⟩
theorem witness_FloatReductions : ∃ e g s, laneFmt (encTy e 3) = some g ∧ Issuable (.lredMin e) s :=
  ⟨xe 0 2 4 (ty 13), _, bare, rfl, issuable (by decide +kernel)⟩
theorem witness_VectorResults : ∃ i e f s, Claims.vectorRow (issueMask s e) i = some (e, f) ∧ Issuable i s ∧
    ∀ t ∈ lanesOf (issueMask s e) (issuing s).width, (f (issuing s) t).2 &&& enabledFlags (issuing s) = 0 :=
  ⟨.visd (pe 0 10 12), _, _, bare, rfl, issuable (by decide +kernel), by decide +kernel⟩
theorem witness_SpecialReads : (∀ n, n < 18 → Issuable (.srd (pe n 0 4)) bare) ∧ packMatBusy bare bare.cur = false := by
  refine ⟨fun n hn => issuable ?_, by decide +kernel⟩
  revert n; decide +kernel
theorem witness_SpecialWrites : (∀ n ∈ [4, 5, 6, 17], Issuable (.swr (pe n 2 0)) bare) ∧ issueMask bare (pe 6 2 0) ≠ 0 ∧
    (rdS (issuing (withPack (ss [(2, 4)]))) 2).toNat = 4 ∧ (rdS (issuing (withPack (ss [(2, 5)]))) 2).toNat = 5 ∧
    rdV (issuing (withPack (vs [(2, 31)]))) 2 0 = 31 ∧ rdV (issuing (withPack (vs [(2, 32)]))) 2 0 = 32 := by
  refine ⟨fun n hn => issuable ?_, by decide +kernel⟩
  revert n; decide +kernel
theorem witness_FlagsAndModes : Issuable (.fflg (xe 3 0 4 { x0 with mod := 1 })) bare ∧ Issuable (.frm (pe 4 0 4)) bare ∧
    Issuable (.pmov (xe 0 4 0 { x0 with mod := 2 })) bare ∧ Issuable (.dhash (xe 0 4 0 { x0 with mod := 2 })) bare :=
  ⟨issuable (by decide +kernel), issuable (by decide +kernel), issuable (by decide +kernel), issuable (by decide +kernel)⟩
theorem witness_FlagsAndModes_lines : Issuable (.rkeep (pe 0 4 0)) bare ∧ Issuable (.rflush (pe 0 4 0)) bare :=
  ⟨issuable (by decide +kernel), issuable (by decide +kernel)⟩
theorem witness_FlagsAndModes_trap : Issuable (.frm (pe 5 0 4)) bare ∧ Issuable (.frm (pe 63 0 4)) bare ∧ issueMask bare (pe 5 0 4) ≠ 0 :=
  ⟨issuable (by decide +kernel), issuable (by decide +kernel), by decide +kernel⟩

theorem witness_Branches : ∃ i e link tgt s, Claims.branchRow s i = some (e, link, tgt) ∧ Issuable i s ∧ link = true ∧
    (∀ t ∈ lanesOf (issueMask s e) (issuing s).width, (packThread (issuing s) t).calls.length < 1024) ∧
    ∀ t ∈ lanesOf (issueMask s e) (issuing s).width, (tgt t).toNat % 4 = 0 :=
  ⟨.call (pe 0 0 16), _, _, _, bare, rfl, issuable (by decide +kernel), rfl, by decide +kernel⟩
theorem witness_Branches_misaligned : ∃ e tgt s, Claims.branchRow s (.callReg e) = some (e, true, tgt) ∧ Issuable (.callReg e) s ∧
    (lanesOf (issueMask s e) (issuing s).width).filter (fun t => (tgt t).toNat % 4 ≠ 0) = List.range 16 :=
  ⟨xe 0 4 0 { x0 with ka := true }, _, withPack (ss [(4, 0x10002)]), rfl, issuable (by decide +kernel), by decide +kernel⟩
/-- A pack whose threads each hold one return address, and one whose call stacks are full. -/
def called (n : Nat) : State := withPack fun p => { p with threads := p.threads.map fun x => { x with calls := List.replicate n 0x10004 } }
theorem witness_ThreadControl : Issuable (.ret (pe 0 0 0)) (called 1) ∧
    (∀ t ∈ lanesOf (issueMask (called 1) (pe 0 0 0)) (issuing (called 1)).width, (packThread (issuing (called 1)) t).calls ≠ []) ∧
    Issuable (.ret (pe 0 0 0)) bare ∧ (packThread (issuing bare) 0).calls = [] ∧ Issuable (.conv (pe 0 0 0)) bare ∧
    Issuable (.exit (pe 0 0 0)) bare ∧ holdsOf bare 0 0 = [] ∧ Issuable (.nop (pe 0 0 0)) bare ∧ Issuable (.fence (pe 0 0 17)) bare ∧
    Issuable (.yield (pe 0 0 0)) bare ∧ Issuable (.call (pe 0 0 16)) (called 1024) ∧
    1024 ≤ (packThread (issuing (called 1024)) 0).calls.length :=
  ⟨issuable (by decide +kernel), by decide +kernel, issuable (by decide +kernel), by decide +kernel, issuable (by decide +kernel),
    issuable (by decide +kernel), by decide +kernel, issuable (by decide +kernel), issuable (by decide +kernel), issuable (by decide +kernel),
    issuable (by decide +kernel), by decide +kernel⟩
/-- A pack with four loops. -/
def looped : State := withPack fun p => { p with loops := List.replicate 4 ⟨0x10000, 0x10010, 1⟩ }
theorem witness_Loops : Issuable (.loopImm (pe 0 10 5)) bare ∧ (issuing bare).loops.length < 4 ∧ Issuable (.loopImm (pe 0 10 5)) looped ∧
    4 ≤ (issuing looped).loops.length ∧ issueMask looped (pe 0 10 5) ≠ 0 ∧ Issuable (.loop (pe 0 4 5)) bare ∧ rdS (issuing bare) 4 = 0 ∧
    endSize (issued bare) (issuePc bare + BitVec.ofNat 64 (4 * 5)) = .ok 4 ∧ Issuable (.lbrk (pe 0 0 0)) looped :=
  ⟨issuable (by decide +kernel), by decide +kernel, issuable (by decide +kernel), by decide +kernel, by decide +kernel,
    issuable (by decide +kernel), by decide +kernel, by rfl, issuable (by decide +kernel)⟩
theorem witness_CompletionFrame : (∃ u < (bare.pack bare.cur).width, (packThread (bare.pack bare.cur) u).exited = false) ∧
    (bare.pack bare.cur).live = true ∧ (issuing bare).save.inHandler = false ∧ (bare.pack bare.cur).save.inHandler = false ∧
    denUsed (countIssue (bare.setPack bare.cur (finishPack (issuing bare) (bare.pack bare.cur) (issuePc bare) 4 0)) (issuing bare).crew)
      (bare.crew (issuing bare).crew).core ≤ denRoom ∧ (bare.pack bare.cur).loops = [] :=
  ⟨⟨0, by decide +kernel⟩, by decide +kernel⟩
/-- A loop with an iteration left, and one with none, end at the issuing instruction; a handler whose saved threads have exited. -/
def ending (n : W64) : State := withPack fun p => { p with loops := [⟨0x10040, 0x10000, n⟩, ⟨0x10080, 0x10100, 5⟩] }
def handled : State := withPack fun p => { p with
  save := { p.save with inHandler := true, mask := 1 }
  threads := p.threads.zipIdx.map fun x => if x.2 = 0 then { x.1 with exited := true } else x.1
  sel := 0xFFFE }
theorem witness_CompletionFrame_loops : loopTest (issuePc (ending 2)) ((ending 2).pack 0).loops = (some 0x10040, [⟨0x10040, 0x10000, 1⟩, ⟨0x10080, 0x10100, 5⟩]) ∧
    loopTest (issuePc (ending 1)) ((ending 1).pack 0).loops = (none, [⟨0x10080, 0x10100, 5⟩]) ∧
    (∀ u < ((ending 2).pack 0).width, (packThread ((ending 2).pack 0) u).held = false) ∧ (handled.pack 0).save.inHandler = true ∧
    (∀ u < (handled.pack 0).width, (handled.pack 0).save.mask.getLsbD u = true → (packThread (handled.pack 0) u).exited = true) ∧
    (packThread (handled.pack 0) 1).exited = false := by decide +kernel
theorem witness_SoftwareTraps : Issuable (.trap (pe 5 0 0)) bare ∧ Issuable (.trapReg (pe 0 4 0)) bare ∧ issueMask bare (pe 5 0 0) ≠ 0 :=
  ⟨issuable (by decide +kernel), issuable (by decide +kernel), by decide +kernel⟩
theorem witness_TrapEntry : (bare.launch (issuing bare).launch).hdr.trap ≠ 0 ∧ (issuing bare).save.inHandler = false ∧
    (issuing bare).width ≤ (issuing bare).threads.length ∧
    (∀ u ∈ lanesOf (issuing bare).sel (issuing bare).width, (packThread (issuing bare) u).exited = false ∧ (packThread (issuing bare) u).held = false) := by
  decide +kernel
/-- A pack in its handler, and a launch without one. -/
def handling : State := withPack fun p => { p with save := { p.save with inHandler := true, next := 0x10004 }, tepc := 0x10000 }
def handlerless : State := State.reset.withCode []
theorem witness_TrapAborts : (handlerless.launch (handlerless.pack handlerless.cur).launch).hdr.trap = 0 ∧
    (handling.launch (handling.pack handling.cur).launch).hdr.trap ≠ 0 ∧ (handling.pack handling.cur).save.inHandler = true := by decide +kernel
theorem witness_TrapReturn : Issuable (.tret (pe 0 0 0)) handling ∧ Issuable (.tret (pe 1 0 0)) handling ∧ Issuable (.tret (pe 2 4 0)) handling ∧
    (issuing handling).save.inHandler = true ∧ (rdS (issuing handling) 4).toNat % 4 = 0 ∧ Issuable (.tret (pe 0 0 0)) bare ∧
    (issuing bare).save.inHandler = false ∧ issueMask bare (pe 0 0 0) ≠ 0 :=
  ⟨issuable (by decide +kernel), issuable (by decide +kernel), issuable (by decide +kernel), by decide +kernel, by decide +kernel,
    issuable (by decide +kernel), by decide +kernel⟩
theorem witness_TrapReturn_misaligned : let s := handling.modPack 0 (ss [(4, 0x10002)])
    Issuable (.tret (pe 2 4 0)) s ∧ (issuing s).save.inHandler = true ∧ (rdS (issuing s) (encA (pe 2 4 0))).toNat % 4 ≠ 0 ∧ issueMask s (pe 2 4 0) ≠ 0 :=
  ⟨issuable (by decide +kernel), by decide +kernel⟩
theorem witness_IllegalEncodingTraps : let i : Instr := .mov (pe 9 3 5)
    opcodeOf i = some (0x20, pe 9 3 5) ∧ bare.isFox = false ∧ (bare.pack bare.cur).live = true ∧
    statusPending bare bare.cur (bare.pack bare.cur).width i = false ∧ illopSub (bare.pack bare.cur).width i = some 3 ∧
    issueMask bare (pe 9 3 5) ≠ 0 := by decide +kernel
theorem witness_IllegalEncodingTraps_guard : guardBreach (.tret { pe 0 0 0 with g := 1 }) = true ∧
    (illopSub (bare.pack bare.cur).width (.tret { pe 0 0 0 with g := 1 })).isSome = true := by decide +kernel
theorem witness_UnassignedOpcodes : bare.isFox = false ∧ (bare.pack bare.cur).live = true ∧
    statusPending bare bare.cur (bare.pack bare.cur).width (.unassignedOpcode 0x16 (pe 0 0 0)) = false ∧ issueMask bare (pe 0 0 0) ≠ 0 := by
  decide +kernel
/-- The crew's fox slot runs. -/
def foxed : State := { bare.modSt 0 (fun c => { c with fox := { c.fox with status := .running, pc := 0x10000 } }) with cur := foxBase }
theorem witness_FoxRejects : let i : Instr := .barw (pe 2 0 0)
    opcodeOf i = some (0xAE, pe 2 0 0) ∧ foxed.isFox = true ∧ foxed.curPack.live = true ∧ illopSub foxed.curPack.width i = none ∧
    (foxSub i).isSome = true := by decide +kernel
/-- A bound entry in s20, s21 and its index in s22. -/
def bounded : State := withPack (ss [(20, 0), (21, 0), (22, 0)])
theorem witness_BoundsAndStatus : Issuable (.tbnd (pe 22 20 0)) bounded ∧ (rdS (issuing bounded) 22).toNat < 2 ^ 12 ∧
    bounded.isStrict (issuing bounded).launch = false ∧
    (parseBound (leBytes 0 8 ++ leBytes 0 8 ++ leBytes 0 1 ++ leBytes 0 1 ++ List.replicate 14 0)).isSome = true ∧
    Issuable (.sflg (pe 0 0 4)) bare ∧ packMatBusy (issued bare) bare.cur = false :=
  ⟨issuable (by decide +kernel), by decide +kernel, by decide +kernel, by decide +kernel, issuable (by decide +kernel), by decide +kernel⟩
theorem witness_BoundsAndStatus_traps : let strictB := bounded.modLaunch 0 fun l => { l with hdr := { l.hdr with dmode := 2 } }
    (rdS (issuing (withPack (ss [(22, 0x1000)]))) 22).toNat = 2 ^ 12 ∧
    parseBound (leBytes 0 8 ++ leBytes 0 8 ++ leBytes 3 1 ++ leBytes 0 1 ++ List.replicate 14 0) = none ∧ issueMask bounded (pe 22 20 0) ≠ 0 ∧
    Issuable (.tbnd (pe 22 20 0)) strictB ∧ strictB.isStrict (issuing strictB).launch = true :=
  ⟨by decide +kernel, by decide +kernel, by decide +kernel, issuable (by decide +kernel), by decide +kernel⟩
/-- Supervisor code. -/
def super : State := bare.modLaunch 0 fun l => { l with supervisor := true }
theorem witness_SystemRegisters : Issuable (.sysrImm (pe 0 0 4)) super ∧
    sysNamed (0 + 2 ^ 16 * (super.crew (issuing super).crew).core) = some (0, 0) ∧
    (super.launch (super.crew (issuing super).crew).launch).supervisor = true ∧ Issuable (.syswImm (pe 0 4 0)) super ∧
    Issuable (.sysr (pe 0 4 2)) bare ∧ sysNamed (rdS (issuing bare) 4).toNat ≠ none ∧
    (bare.launch (bare.crew (issuing bare).crew).launch).supervisor = false ∧ issueMask bare (pe 0 4 2) ≠ 0 ∧ sysNamed 0xFFFF = none ∧
    Issuable (.sysw (pe 6 4 0)) super :=
  ⟨issuable (by decide +kernel), by decide +kernel, by decide +kernel, issuable (by decide +kernel), issuable (by decide +kernel),
    by decide +kernel, by decide +kernel, by decide +kernel, by decide +kernel, issuable (by decide +kernel)⟩
/-- A guarded lbrk is ILLOP 3 (04 R115), a loop of no iterations with four entries held ILLOP 12 (R108), cvtpk to .i8 in a stochastic mode
ILLOP 6 (02 R40; 06 R169). -/
theorem step_encoding_traps : (trapAfter (.lbrk { pe 0 0 0 with gn := true, g := 3 }) looped).1 = 3 * 256 + clsIllop ∧
    trapAfter (.loopImm (pe 0 0 5)) looped = (12 * 256 + clsIllop, 1, true) ∧
    (trapAfter (.cvtpk (xe 0 4 8 { x0 with t := 1, rm := 5 })) bare).1 = 6 * 256 + clsIllop := by decide +kernel

/-! ### Witnesses of the memory instructions -/

/-- Every permission but that of supervisor code. -/
def allPerm : Nat := 0xBFF
/-- y0 holds 4 KiB of HBM at 0x20000, y1 the crew's 64 KiB of SPM1, y2 a window on space 6; k0 is y0 in every thread; s1 to s5 hold 1 to 5. -/
def mapped : State :=
  ((bare.modPack 0 fun p => { p with
      y := [mkCap 0x20000 0x20000 0x21000 allPerm 0 0, mkCap 0 0 65536 pmWindow 2 0, { mkCap 0x20000 0x20000 0x21000 allPerm 6 0 with tag := true },
        Cap.null, Cap.null, Cap.null, Cap.null, Cap.null]
      k := (List.range 16).map fun t => (t, mkCap 0x20000 0x20000 0x21000 allPerm 0 0)
      s := [(1, 1), (2, 2), (3, 3), (4, 4), (5, 5)] }).modSt 0 fun c => { c with spm1 := { c.spm1 with size := 65536 } }).setByte 0x20000 0x5A

/-- The place an access translates to. -/
def place (s : State) (kind : XKind) (a : Acc) : Target :=
  match resolveOne (issued s) (s.pack s.cur).crew kind a with
  | .ok y => y
  | .error _ => ⟨0, 0, .phys 0, 0, 0, 0, 0⟩
def placed (s : State) (kind : XKind) (a : Acc) (x : Target) : Bool :=
  match resolveOne (issued s) (s.pack s.cur).crew kind a with
  | .ok y => y == x
  | .error _ => false
theorem placed_eq {s : State} {kind : XKind} {a : Acc} {x : Target} (h : placed s kind a x = true) :
    resolveOne (issued s) (s.pack s.cur).crew kind a = .ok x := by
  unfold placed at h
  split at h
  · rename_i y hy; rw [hy, beq_iff_eq.mp h]
  · cases h
def passesB (s : State) (chk : Acc → Option Nat) (n : Nat) (kind : XKind) (accs : List Acc) (x : Nat → Target) : Bool :=
  accs.all fun a => (chk a == none) && decide (a.addr % (n : Int) = 0) && placed s kind a (x a.t)
theorem passes {s : State} {chk : Acc → Option Nat} {n : Nat} {kind : XKind} {accs : List Acc} {x : Nat → Target}
    (h : passesB s chk n kind accs x = true) : Claims.Passes s chk n kind accs x := by
  simp only [passesB, List.all_eq_true, Bool.and_eq_true, beq_iff_eq, decide_eq_true_eq] at h
  exact ⟨fun a ha => (h a ha).1.1, fun a ha => (h a ha).1.2, fun a ha => placed_eq (h a ha).2⟩
def calmB (s : State) (g : Nat) : Bool :=
  (s.gather.all fun x => x.2.all fun l => l.gran != g) && s.launches.all fun x => x.2.homeRecs.all fun r => r.gran != g
theorem calm {s : State} {g : Nat} (h : calmB s g = true) : Claims.noPartials s g := by
  simp only [calmB, Bool.and_eq_true, List.all_eq_true, bne_iff_ne, ne_eq] at h
  exact h
def readableB (s : State) (ts : List Target) (n : Nat) : Bool :=
  ((s.spillsOf (s.crew (s.pack s.cur).crew).core).all fun y => y.pack != s.cur) &&
    ts.all fun y => (!y.loc.isPhys || (Claims.served s ts n).uceAt y.loc.off == none) &&
      (y.loc.isPhys || !((Claims.served s ts n).spad y.loc).mismatch y.loc.off n)
theorem readable {s : State} {ts : List Target} {n : Nat} (h : readableB s ts n = true) : Claims.Readable s ts n := by
  simp only [readableB, Bool.and_eq_true, List.all_eq_true, bne_iff_ne, ne_eq, Bool.or_eq_true, Bool.not_eq_true', beq_iff_eq] at h
  refine ⟨h.1, fun y hy hp => ?_, fun y hy hp => ?_⟩ <;> have := h.2 y hy <;> simp only [hp] at this
  · simpa using this.1
  · simpa using this.2

theorem witness_CapabilityMoves : Issuable (.cset (pe 2 0 2)) mapped ∧ Issuable (.cadd (pe 2 0 2)) mapped ∧
    Issuable (.caddImm (pe 8 16 17)) mapped ∧ Issuable (.cclr (pe 0 16 3)) mapped :=
  ⟨issuable (by decide +kernel), issuable (by decide +kernel), issuable (by decide +kernel), issuable (by decide +kernel)⟩
/-- cder to y3 of 8 bytes; of −1 bytes. -/
theorem witness_CapabilityDerivation : Issuable (.cderImm (pe 8 16 19)) mapped ∧
    Claims.deriveFails (Claims.supervisor mapped) (encMod (pe 8 16 19) % 4) (rdCap (issuing mapped) (encA (pe 8 16 19)) 0)
      (Claims.capB true mapped (pe 8 16 19) 0) = none ∧
    Issuable (.cderImm (pe 63 16 19)) mapped ∧
    Claims.deriveFails (Claims.supervisor mapped) (encMod (pe 63 16 19) % 4) (rdCap (issuing mapped) (encA (pe 63 16 19)) 0)
      (Claims.capB true mapped (pe 63 16 19) 0) = some 7 ∧ issueMask mapped (pe 63 16 19) ≠ 0 :=
  ⟨issuable (by decide +kernel), by decide +kernel, issuable (by decide +kernel), by decide +kernel⟩
theorem witness_RepresentableCursor : (mkCap 0x400 0 65536 0x38F 2 5).exp ≤ 41 ∧ Claims.representable (mkCap 0x400 0 65536 0x38F 2 5) 0 ∧
    Claims.representable (mkCap 0x400 0 65536 0x38F 2 5) 98303 := by
  unfold Claims.representable; decide +kernel
theorem witness_BoundsExponent : (0 : Nat) ≤ 2 ^ 54 ∧ (2 ^ 54 : Nat) ≤ 2 ^ 54 := by decide

/-- ld.b32 v4, [y0]; the same guarded; of a capability. -/
theorem witness_Loads : let e := pe 0 16 4
    let l := lanesOf (issueMask mapped e) (issuing mapped).width
    let acc := Claims.access mapped e false 4
    Issuable (.ldVector e) mapped ∧ encModBit e 0 = false ∧ Claims.Free mapped ∧
    Claims.Passes mapped (Claims.loadChk mapped 4) 4 .read (l.map acc) (fun t => place mapped .read (acc t)) ∧
    Claims.Readable mapped (l.map fun t => place mapped .read (acc t)) 4 :=
  ⟨issuable (by decide +kernel), by decide +kernel, ⟨by decide +kernel, by decide +kernel⟩, passes (by decide +kernel), readable (by decide +kernel)⟩
/-- ldg with v0 as index: thread 0 in bounds, thread 1 out of them. -/
def indexed : State := mapped.modPack 0 fun p => wrV p 0 1 0x1000
theorem witness_Loads_guarded : let e := xe 0 16 4 { x0 with mod := 16, t := 9, c := 3 }
    let l := lanesOf (issueMask indexed e) (issuing indexed).width
    let acc := Claims.access indexed e false 4
    let ins := l.filter fun t => !(Claims.loadChk indexed 4 (acc t) == some 5)
    Issuable (.ldg e) indexed ∧ Claims.Free indexed ∧ ins.length = 15 ∧
    Claims.Passes indexed (Claims.loadChk indexed 4) 4 .read (ins.map acc) (fun t => place indexed .read (acc t)) ∧
    Claims.Readable indexed (ins.map fun t => place indexed .read (acc t)) 4 :=
  ⟨issuable (by decide +kernel), ⟨by decide +kernel, by decide +kernel⟩, by decide +kernel, passes (by decide +kernel), readable (by decide +kernel)⟩
theorem witness_CapabilityLoads : let e := xe 0 16 2 { x0 with mod := 1, imm := 16 }
    let l := lanesOf (issueMask mapped e) (issuing mapped).width
    let acc := Claims.access mapped e false 16
    Issuable (.ldVector e) mapped ∧ encModBit e 0 = true ∧ Claims.Free mapped ∧
    Claims.Passes mapped (Claims.loadChk mapped 16) 16 .read (l.map acc) (fun t => place mapped .read (acc t)) ∧
    Claims.Readable mapped ((l.take 64).map fun t => place mapped .read (acc t)) 16 :=
  ⟨issuable (by decide +kernel), by decide +kernel, ⟨by decide +kernel, by decide +kernel⟩, passes (by decide +kernel), readable (by decide +kernel)⟩
theorem witness_CapabilityLoads_uniform : let e := xe 0 16 3 { x0 with mod := 1, imm := 16 }
    let l := lanesOf (issueMask mapped e) (issuing mapped).width
    let acc := Claims.access mapped e true 16
    Issuable (.ldUniform e) mapped ∧ encModBit e 0 = true ∧ encD e < (issuing mapped).y.length ∧
    Claims.Passes mapped (Claims.loadChk mapped 16) 16 .read (l.map acc) (fun t => place mapped .read (acc t)) ∧
    Claims.Readable mapped ((l.take 1).map fun t => place mapped .read (acc t)) 16 :=
  ⟨issuable (by decide +kernel), by decide +kernel, by decide +kernel, passes (by decide +kernel), readable (by decide +kernel)⟩
theorem witness_UniformLoads : let e := pe 0 16 6
    let l := lanesOf (issueMask mapped e) (issuing mapped).width
    let acc := Claims.access mapped e true 4
    Issuable (.ldUniform e) mapped ∧ encModBit e 0 = false ∧ Claims.Free mapped ∧ l = 0 :: (List.range 16).tail ∧
    Claims.Passes mapped (Claims.loadChk mapped 4) 4 .read (l.map acc) (fun t => place mapped .read (acc t)) ∧
    Claims.Readable mapped [place mapped .read (acc 0)] 4 :=
  ⟨issuable (by decide +kernel), by decide +kernel, ⟨by decide +kernel, by decide +kernel⟩, by decide +kernel, passes (by decide +kernel),
    readable (by decide +kernel)⟩
/-- Under a guard that no thread's p1 meets. -/
theorem witness_UniformLoads_none : let e := { pe 0 16 6 with g := 1 }
    Issuable (.ldUniform e) mapped ∧ lanesOf (issueMask mapped e) (issuing mapped).width = [] :=
  ⟨issuable (by decide +kernel), by decide +kernel⟩
/-- A load through the null capability of y3, and one at an odd address. -/
theorem witness_AccessTraps : let e := pe 0 19 4
    let l := lanesOf (issueMask mapped e) (issuing mapped).width
    Issuable (.ldVector e) mapped ∧ encModBit e 0 = false ∧ 0 ∈ l ∧
    ∀ t ∈ l, capSub (Claims.supervisor mapped) ⟨loadSpaces, pmLoad, 4⟩ (Claims.access mapped e false 4 t).cap (Claims.access mapped e false 4 t).addr = some 1 :=
  ⟨issuable (by decide +kernel), by decide +kernel⟩
theorem witness_AccessTraps_align : let e := xe 0 16 4 { x0 with imm := 1 }
    let l := lanesOf (issueMask mapped e) (issuing mapped).width
    Issuable (.stVector e) mapped ∧
    (∀ t ∈ l, capSub (Claims.supervisor mapped) ⟨storeSpaces, pmStore, 4⟩ (Claims.access mapped e false 4 t).cap (Claims.access mapped e false 4 t).addr = none) ∧
    (l.filter fun u => (Claims.access mapped e false 4 u).addr % (4 : Int) ≠ 0) = 0 :: (List.range 16).tail :=
  ⟨issuable (by decide +kernel), by decide +kernel⟩
theorem witness_Prefetch : Issuable (.pgprf (pe 0 16 0)) mapped := issuable (by decide +kernel)

/-- st.b32 [y0], v4; and once containment is lost. -/
def lost : State := mapped.modCrew 0 fun c => { c with lost := true }
theorem witness_Stores : let e := pe 0 16 4
    let l := lanesOf (issueMask mapped e) (issuing mapped).width
    let acc := Claims.access mapped e false 4
    let x := fun t => place mapped .write (acc t)
    Issuable (.stVector e) mapped ∧ Claims.Free mapped ∧ Claims.Passes mapped (Claims.storeChk mapped 4 none) 4 .write (l.map acc) x ∧
    (∀ t ∈ l, (x t).space ≠ 6 ∧ reachable mapped (x t).loc.off = true ∧ ∀ g ∈ (x t).grans 4, calmB mapped g = true) ∧
    (mapped.crew (issuing mapped).crew).lost = false ∧
    denUsed (issued mapped) (mapped.crew (issuing mapped).crew).core + l.length ≤ denRoom ∧
    isbUsed (issued mapped) (mapped.crew (issuing mapped).crew).core + l.length ≤ isbRoom :=
  ⟨issuable (by decide +kernel), ⟨by decide +kernel, by decide +kernel⟩, passes (by decide +kernel), by decide +kernel⟩
theorem witness_Stores_lost : let e := xe 0 16 4 { x0 with t := 10 }
    let l := lanesOf (issueMask lost e) (issuing lost).width
    let acc := Claims.access lost e true 8
    let x := fun t => place lost .write (acc t)
    Issuable (.stUniform e) lost ∧ Claims.Free lost ∧ Claims.Passes lost (Claims.storeChk lost 8 none) 8 .write (l.map acc) x ∧
    (∀ t ∈ l, (x t).space ≠ 6 ∧ reachable lost (x t).loc.off = true ∧ ∀ g ∈ (x t).grans 8, calmB lost g = true) ∧
    (lost.crew (issuing lost).crew).lost = true ∧ (lost.crew (issuing lost).crew).isb = [] :=
  ⟨issuable (by decide +kernel), ⟨by decide +kernel, by decide +kernel⟩, passes (by decide +kernel), by decide +kernel⟩
theorem witness_Stores_guarded : let e := xe 0 16 4 { x0 with mod := 16, t := 9, c := 3 }
    let l := lanesOf (issueMask indexed e) (issuing indexed).width
    let acc := Claims.access indexed e false 4
    let ins := l.filter fun t => !(Claims.storeChk indexed 4 none (acc t) == some 5)
    Issuable (.stg e) indexed ∧ ins.length = 15 ∧
    Claims.Passes indexed (Claims.storeChk indexed 4 none) 4 .write (ins.map acc) (fun t => place indexed .write (acc t)) :=
  ⟨issuable (by decide +kernel), by decide +kernel, passes (by decide +kernel)⟩
/-- A store of supervisor code to space 6, mapped by the reserved address space; and with a full forwarding table. -/
def context : State := ((mapped.modLaunch 0 fun l => { l with supervisor := true }).wrBytes mapped.bar0.asidt.toNat (leBytes (probeRoot + 1) 16))
def contextFull : State := context.setSpills 0 (List.replicate 32 ⟨1, 4, []⟩)
theorem witness_ContextStores : let e := pe 0 18 4
    let l := lanesOf (issueMask context e) (issuing context).width
    let acc := Claims.access context e false 4
    let x := fun t => place context .write (acc t)
    Issuable (.stVector e) context ∧ Claims.Free context ∧ l ≠ [] ∧
    Claims.Passes context (Claims.storeChk context 4 none) 4 .write (l.map acc) x ∧ (∀ t ∈ l, (x t).space = 6) ∧
    (context.spillsOf 0).length < 32 ∧ Issuable (.stVector e) contextFull ∧ 32 ≤ (contextFull.spillsOf 0).length ∧
    Claims.Passes contextFull (Claims.storeChk contextFull 4 none) 4 .write (l.map (Claims.access contextFull e false 4))
      (fun t => place contextFull .write (Claims.access contextFull e false 4 t)) :=
  ⟨issuable (by decide +kernel), ⟨by decide +kernel, by decide +kernel⟩, by decide +kernel, passes (by decide +kernel), by decide +kernel,
    by decide +kernel, issuable (by decide +kernel), by decide +kernel, passes (by decide +kernel)⟩
theorem witness_MemoryReadAfterWrite : Safety.tablesWf mapped = true ∧ reachable mapped 0x20000 = true ∧ calmB mapped (0x20000 / 64) = true ∧
    (performBytes mapped 0x20000 [1, 2]).byte 0x20001 = 2 := by decide +kernel

/-! ### Witnesses of the instructions that act at a quay, of berths and of barriers -/

abbrev Places := List (Loc × Nat)
def exposed (s : State) (l : Places) : State :=
  match (expose (issued s) s.cur).bind (fun r => catchUp r s.cur l) with
  | .ok t => t
  | .error _ => s
def exposesB (s : State) (l : Places) : Bool :=
  match (expose (issued s) s.cur).bind (fun r => catchUp r s.cur l) with
  | .ok _ => true
  | .error _ => false
theorem exposes {s : State} {l : Places} (h : exposesB s l = true) (hc : (exposed s l).cur = s.cur)
    (hp : (exposed s l).pack s.cur = { issuing s with commit := ((exposed s l).pack s.cur).commit, resv := ((exposed s l).pack s.cur).resv, monitor := ((exposed s l).pack s.cur).monitor, sflag := ((exposed s l).pack s.cur).sflag, wait := ((exposed s l).pack s.cur).wait, progress := ((exposed s l).pack s.cur).progress })
    (hk : ((exposed s l).crew (issuing s).crew).core = (s.crew (issuing s).crew).core)
    (hf : ((exposed s l).launch (issuing s).launch).hdr.dmode = 0) : Claims.Exposed s (exposed s l) l := by
  refine ⟨?_, hc, ⟨_, _, _, _, _, _, hp⟩, hk, hf⟩
  unfold exposesB at h
  unfold exposed
  split <;> simp_all
def soundB (r : State) (ts : List Target) (n : Nat) : Bool :=
  ts.all fun y => (y.grans n).all fun g => r.uceAt (64 * g) == none
theorem sound {r : State} {ts : List Target} {n : Nat} (h : soundB r ts n = true) : Claims.sound r ts n := by
  intro y hy g hg
  exact eq_of_beq (List.all_eq_true.mp (List.all_eq_true.mp h y hy) g hg)

/-- A state with a buffered store of the issuing pack. -/
def storing : State := mapped.modCrew 0 fun c => { c with isb := [⟨0, 0, .phys 0x20000, [7, 7, 7, 7], none, false, false, 0, true⟩] }
theorem exposed_storing : Claims.Exposed storing (exposed storing []) [] :=
  exposes (by decide +kernel) (by decide +kernel) (by decide +kernel) (by decide +kernel) (by decide +kernel)
theorem witness_Exposure : storing.isFox = false ∧ (storing.launch (issuing storing).launch).hdr.dmode = 0 ∧ (issuing storing).crew < foxBase ∧
    (∀ y ∈ storing.spillsOf (storing.crew (issuing storing).crew).core, y.pack ≠ storing.cur) ∧
    (dueStores (fun x => x.pack == storing.cur || orderHolds (storing.carriedBy storing.cur) x) (storing.crew (issuing storing).crew).isb).length = 1 ∧
    ∀ y ∈ dueStores (fun x => x.pack == storing.cur || orderHolds (storing.carriedBy storing.cur) x) (storing.crew (issuing storing).crew).isb,
      y.loc.isPhys = true → reachable storing y.loc.off = true ∧ ∀ g ∈ (Piece.mk y.loc.off y.bytes none false false).units 64, calmB storing g = true := by decide +kernel
/-- atom.add.n32 v4, [y0] and red.add.n32 of the same; under a guard that no thread meets. -/
def atomE : Enc := xe 0 16 4 { x0 with t := 7 }
def atomX (t : Nat) : Target := place mapped .write (Claims.access mapped atomE false 4 t)
def atomPlaces : Places := (lanesOf (issueMask mapped atomE) (issuing mapped).width).map fun t => ((atomX t).loc, 4)
theorem exposed_mapped : Claims.Exposed mapped (exposed mapped atomPlaces) atomPlaces :=
  exposes (by decide +kernel) (by decide +kernel) (by decide +kernel) (by decide +kernel) (by decide +kernel)
theorem witness_Atomics : let l := lanesOf (issueMask mapped atomE) (issuing mapped).width
    let acc := Claims.access mapped atomE false 4
    let x := atomX
    Issuable (.atomInt atomE) mapped ∧ l ≠ [] ∧ Claims.Free mapped ∧
    Claims.Passes mapped (Claims.quayChk mapped [0, 1, 9] pmAtomic 4) 4 .write (l.map acc) x ∧ Claims.Exposed mapped (exposed mapped atomPlaces) (l.map fun t => ((x t).loc, 4)) ∧
    Claims.sound (Claims.servedFrom (exposed mapped atomPlaces) (l.map x) 4) (l.map x) 4 :=
  ⟨issuable (by decide +kernel), by decide +kernel, ⟨by decide +kernel, by decide +kernel⟩, passes (by decide +kernel), exposed_mapped,
    sound (by decide +kernel)⟩
theorem witness_Atomics_none : Issuable (.atomInt { atomE with g := 1 }) mapped ∧
    lanesOf (issueMask mapped { atomE with g := 1 }) (issuing mapped).width = [] ∧ Issuable (.atomFloat (xe 0 16 4 (ty 13))) mapped :=
  ⟨issuable (by decide +kernel), by decide +kernel, issuable (by decide +kernel)⟩
theorem witness_Reductions : let l := lanesOf (issueMask mapped atomE) (issuing mapped).width
    let acc := Claims.access mapped atomE false 4
    let x := atomX
    Issuable (.redInt atomE) mapped ∧ l ≠ [] ∧ Claims.Free mapped ∧
    Claims.Passes mapped (Claims.quayChk mapped [0, 1, 9] pmAtomic 4) 4 .write (l.map acc) x ∧
    (Tab.get [] (exposed mapped atomPlaces).gather 0).length + l.length ≤ 128 ∧ Issuable (.redFloat (xe 0 16 4 (ty 13))) mapped :=
  ⟨issuable (by decide +kernel), by decide +kernel, ⟨by decide +kernel, by decide +kernel⟩, passes (by decide +kernel), by decide +kernel,
    issuable (by decide +kernel)⟩
def lrPlaces (s : State) : Places := [((place s .read (Claims.once s (pe 0 16 4))).loc, 8)]
theorem witness_LoadReservedStoreConditional : let e := pe 0 16 4
    let exposed := fun s => exposed s (lrPlaces s)
    Claims.Exposed mapped (exposed mapped) (lrPlaces mapped) ∧ (place mapped .write (Claims.once mapped e)).loc = (place mapped .read (Claims.once mapped e)).loc ∧
    Issuable (.lr e) mapped ∧ Issuable (.sc e) mapped ∧ issueMask mapped e ≠ 0 ∧ Claims.Free mapped ∧
    Claims.Passes mapped (Claims.quayChk mapped [0, 1] pmAtomic 8) 8 .read [Claims.once mapped e] (fun _ => place mapped .read (Claims.once mapped e)) ∧
    Claims.Passes mapped (Claims.quayChk mapped [0, 1] pmAtomic 8) 8 .write [Claims.once mapped e] (fun _ => place mapped .write (Claims.once mapped e)) ∧
    Claims.sound (Claims.servedFrom (exposed mapped) [place mapped .read (Claims.once mapped e)] 8) [place mapped .read (Claims.once mapped e)] 8 ∧
    reachable (exposed mapped) (place mapped .write (Claims.once mapped e)).loc.off = true ∧
    ∀ g ∈ (place mapped .write (Claims.once mapped e)).grans 8, calmB (exposed mapped) g = true :=
  ⟨exposes (by decide +kernel) (by decide +kernel) (by decide +kernel) (by decide +kernel) (by decide +kernel), by decide +kernel, issuable (by decide +kernel), issuable (by decide +kernel), by decide +kernel, ⟨by decide +kernel, by decide +kernel⟩, passes (by decide +kernel),
    passes (by decide +kernel), sound (by decide +kernel), by decide +kernel⟩
/-- A reservation on the granule of an item that has a partial reservedOver in cluster 0. -/
def reservedOver : State := (run (.redInt atomE) mapped).modPack 0 fun p => { p with resv := some (0x20000 / 64, 1) }
theorem witness_LoadReserved_recall : let e := pe 0 16 4
    let x := place reservedOver .write (Claims.once reservedOver e)
    let ps : Places := [(x.loc, 8)]
    Issuable (.sc e) reservedOver ∧ issueMask reservedOver e ≠ 0 ∧ Claims.Free reservedOver ∧
    Claims.Passes reservedOver (Claims.quayChk reservedOver [0, 1] pmAtomic 8) 8 .write [Claims.once reservedOver e] (fun _ => x) ∧
    Claims.Exposed reservedOver (exposed reservedOver ps) ps ∧ reachable (exposed reservedOver ps) (x.loc.off / 64 * 64) = true ∧
    (((exposed reservedOver ps).pack reservedOver.cur).resv.map fun y => y.1) = some (x.loc.off / 64) ∧
    ∃ y ∈ Tab.get [] (exposed reservedOver ps).gather 0, y.gran = x.loc.off / 64 :=
  ⟨issuable (by decide +kernel), by decide +kernel, ⟨by decide +kernel, by decide +kernel⟩, passes (by decide +kernel),
    exposes (by decide +kernel) (by decide +kernel) (by decide +kernel) (by decide +kernel) (by decide +kernel), by decide +kernel⟩
theorem witness_LoadReserved_none : let e := { pe 0 16 4 with g := 1 }
    Issuable (.lr e) mapped ∧ Issuable (.sc e) mapped ∧ issueMask mapped e = 0 :=
  ⟨issuable (by decide +kernel), issuable (by decide +kernel), by decide +kernel⟩
/-- waitc.eq of 0x5A, which holds, and waitc.ne of it, which does not. -/
def waiting : State := mapped.modPack 0 (ss [(6, 0x5A)])
theorem witness_ConditionalWait : let e := pe 0 16 6
    Issuable (.waitc e) waiting ∧ issueMask waiting e ≠ 0 ∧ Claims.Free waiting ∧
    Claims.Passes waiting (Claims.quayChk waiting [0, 1] pmSub 4) 4 .read [Claims.once waiting e] (fun _ => place waiting .read (Claims.once waiting e)) ∧
    Claims.sound (Claims.served waiting [place waiting .read (Claims.once waiting e)] 4) [place waiting .read (Claims.once waiting e)] 4 ∧
    encK e % 8 < 6 ∧ leNat ((Claims.served waiting [place waiting .read (Claims.once waiting e)] 4).rdBytes (place waiting .read (Claims.once waiting e)).loc.off 4) = 0x5A ∧
    Issuable (.waitc (xe 0 16 6 { x0 with kc := true })) waiting :=
  ⟨issuable (by decide +kernel), by decide +kernel, ⟨by decide +kernel, by decide +kernel⟩, passes (by decide +kernel), sound (by decide +kernel),
    by decide +kernel, by decide +kernel, issuable (by decide +kernel)⟩
/-- stand of the item at y0 into slot 5 at SPM1 offset 0x40; a state in which that slot is subscribed. -/
def standE : Enc := xe 0 16 10 { x0 with c := 5 }
def slotted : State := mapped.modPack 0 (ss [(10, 0x40)])
def subbed : State :=
  (slotted.modCrew 0 fun c => { c with slots := [(5, some 9)] }).setSub 9
    (some ⟨0, 1, 0, 5, 0x20000, 0x20000, 4, 0x40, 0, 0, 0, some (7, 1), none, false, false, 0, false⟩)
def standPlaces : Places := [((place slotted .read (Claims.once slotted standE)).loc, 4)]
theorem exposed_slotted : Claims.Exposed slotted (exposed slotted standPlaces) standPlaces :=
  exposes (by decide +kernel) (by decide +kernel) (by decide +kernel) (by decide +kernel) (by decide +kernel)
theorem witness_StandingLoads : Issuable (.stand standE) slotted ∧ issueMask slotted standE ≠ 0 ∧ Claims.Free slotted ∧
    Claims.Passes slotted (Claims.quayChk slotted [0, 1] pmSub 4) 4 .read [Claims.once slotted standE] (fun _ => place slotted .read (Claims.once slotted standE)) ∧
    (rdS (issuing slotted) 10).toNat % 16 = 0 ∧ (rdS (issuing slotted) 10).toNat + 16 ≤ (slotted.crew 0).st.spm1.size ∧
    Claims.sound (Claims.servedFrom (exposed slotted standPlaces) [place slotted .read (Claims.once slotted standE)] 4) [place slotted .read (Claims.once slotted standE)] 4 :=
  ⟨issuable (by decide +kernel), by decide +kernel, ⟨by decide +kernel, by decide +kernel⟩, passes (by decide +kernel), by decide +kernel,
    by decide +kernel, sound (by decide +kernel)⟩
theorem witness_StandingLoads_read : let e := xe 0 16 12 { x0 with c := 5 }
    Issuable (.stq e) subbed ∧ issueMask subbed e ≠ 0 ∧ Claims.Free subbed ∧ slotSub subbed (issuing subbed).crew (encC e) = some 9 ∧
    (subbed.sub 9).map (·.va) = some (ofI 54 (place subbed .read (Claims.once subbed e)).addr) ∧
    Claims.Passes subbed (Claims.quayChk subbed [0, 1] pmSub 4) 4 .read [Claims.once subbed e] (fun _ => place subbed .read (Claims.once subbed e)) ∧
    Issuable (.stq (xe 0 16 12 { x0 with c := 5, mod := 1 })) subbed ∧
    leNat ((((subbed.crew 0).st.spm1.rd 0x40 16).drop 8).take 4) = (rdS (issuing subbed) 13).toNat % 2 ^ 32 :=
  ⟨issuable (by decide +kernel), by decide +kernel, ⟨by decide +kernel, by decide +kernel⟩, by decide +kernel, by decide +kernel, passes (by decide +kernel),
    issuable (by decide +kernel), by decide +kernel⟩
def idleSub : State := (subbed.modPack 0 fun p => { p with s := [] }).setSub 9 (some ⟨0, 1, 0, 5, 0x20000, 0x20000, 4, 0x40, 0, 0, 0, none, none, false, false, 0, false⟩)
theorem witness_StandingLoads_leave : let e := xe 0 16 0 { x0 with c := 5 }
    let ps : Places := [((place idleSub .read (Claims.once idleSub e)).loc, 4)]
    Issuable (.unstand e) idleSub ∧ issueMask idleSub e ≠ 0 ∧ Claims.Free idleSub ∧ slotSub idleSub (issuing idleSub).crew (encC e) = some 9 ∧
    (idleSub.sub 9).map (fun b => (b.va, b.ending, b.acked)) = some (ofI 54 (place idleSub .read (Claims.once idleSub e)).addr, false, false) ∧
    Claims.Passes idleSub (Claims.quayChk idleSub [0, 1] pmSub 4) 4 .read [Claims.once idleSub e] (fun _ => place idleSub .read (Claims.once idleSub e)) ∧
    Claims.Exposed idleSub (exposed idleSub ps) ps ∧ ((exposed idleSub ps).sub 9).map (fun b => (b.flight, b.pending)) = some (none, none) ∧
    ((exposed subbed ps).sub 9).map (·.flight) ≠ some none :=
  ⟨issuable (by decide +kernel), by decide +kernel, ⟨by decide +kernel, by decide +kernel⟩, by decide +kernel, by decide +kernel, passes (by decide +kernel),
    exposes (by decide +kernel) (by decide +kernel) (by decide +kernel) (by decide +kernel) (by decide +kernel), by decide +kernel⟩
/-- That subscription, ended by pack 0 and acknowledged. -/
def ackedSub : State := subbed.setSub 9 (some ⟨0, 1, 0, 5, 0x20000, 0x20000, 4, 0x40, 0, 0, 0, none, none, false, true, 0, true⟩)
theorem witness_StandingLoads_end : let e := xe 0 16 0 { x0 with c := 5 }
    Issuable (.unstand e) ackedSub ∧ issueMask ackedSub e ≠ 0 ∧ slotSub ackedSub (issuing ackedSub).crew (encC e) = some 9 ∧
    (ackedSub.sub 9).map (fun b => (b.acked, b.ender)) = some (true, ackedSub.cur) :=
  ⟨issuable (by decide +kernel), by decide +kernel⟩
theorem witness_PushCounts : ∃ b : Sub, subbed.sub 9 = some b ∧ b.flight = some (7, 1) ∧ b.parked = false ∧ b.lastSeq ≠ 1 :=
  ⟨⟨0, 1, 0, 5, 0x20000, 0x20000, 4, 0x40, 0, 0, 0, some (7, 1), none, false, false, 0, false⟩, by decide +kernel⟩

/-- A berth at 0x20000 with mooring 7, which nobody holds; which pack 0 holds; which another holds exclusively. -/
def mooredBy (holders : List Nat) (mode : MoorMode) : State :=
  mapped.modLaunch 0 fun l => { l with
    berths := [(0, some ⟨0x20000, 64, 7⟩)]
    moors := [(7, some { Mooring.blank with holders := holders, mode := mode })] }
def mooredAt (s : State) : State × Nat × W64 :=
  match namedBerth (issueCtx s (pe 0 16 0)) (issued s) with
  | .ok x => x
  | .error _ => (s, 99, 0)
def nameableB (s : State) : Bool :=
  match namedBerth (issueCtx s (pe 0 16 0)) (issued s) with
  | .ok _ => true
  | .error _ => false
theorem nameable {s : State} (h : nameableB s = true) : namedBerth (issueCtx s (pe 0 16 0)) (issued s) = .ok (mooredAt s) := by
  unfold nameableB at h
  unfold mooredAt
  split <;> simp_all
/-- The first clause's hypotheses for a state, and that its mooring has these holders and no waiter. -/
def moorB (s : State) (holders : List Nat) : Bool :=
  canIssue (.acq (pe 0 16 0)) s && canIssue (.rel (pe 0 16 0)) s && canIssue (.unbind (pe 0 16 1)) s && nameableB s &&
    (((mooredAt s).1.launch (issuing s).launch).hdr.dmode == 0) &&
    (match launchMoor ((mooredAt s).1.launch (issuing s).launch) (berthMoor ((mooredAt s).1.launch (issuing s).launch) (mooredAt s).2.1) with
      | some m => m.holders == holders && m.waiters.isEmpty
      | none => false)
theorem witness_Acquire : moorB (mooredBy [] .free) [] = true ∧ moorB (mooredBy [0] .exclusive) [0] = true ∧
    moorB (mooredBy [5] .exclusive) [5] = true ∧ issueMask mapped (pe 0 16 0) ≠ 0 ∧
    canIssue (.acq (xe 0 16 3 { x0 with kb := true })) (mooredBy [5] .exclusive) = true := by decide +kernel
def afterRel : State :=
  match expose (mooredAt (mooredBy [0] .exclusive)).1 0 with
  | .ok t => t
  | .error _ => State.reset
theorem witness_Release : expose (mooredAt (mooredBy [0] .exclusive)).1 0 = .ok afterRel ∧
    (afterRel.launch (afterRel.pack 0).launch).hdr.dmode = 0 ∧ (launchMoor (afterRel.launch 0) 7).map (·.holders) = some [0] := by
  refine ⟨?_, by decide +kernel⟩
  have : (match expose (mooredAt (mooredBy [0] .exclusive)).1 0 with | .ok _ => true | .error _ => false) = true := by decide +kernel
  unfold afterRel
  split <;> simp_all
theorem witness_GrantOrder : let w : Waiter := ⟨1, .plainX, 0⟩
    let l2 : List Waiter := [⟨2, .plainSh, 0⟩]
    w.kind.isPlain = true ∧ (∀ y ∈ [] ++ l2, y ≠ w) ∧
    w ∉ (grantScan (fun _ => 0) ([] ++ w :: l2) false { Mooring.blank with mode := .shared, holders := [9] }).2 := by decide +kernel
/-- bind of 64 bytes with mooring 3 at y0 into berth 0. -/
def binding : State := mapped.modPack 0 (ss [(4, 3 * 2 ^ 32 + 64)])
theorem witness_Berths : let e := pe 4 16 3
    let c := rdCap (issuing binding) (encA e) 0
    let a : Int := toS 64 (ofI 64 ((c.cursor : Int) + mmDisp e))
    Issuable (.bind e) binding ∧ capSub (Claims.supervisor binding) ⟨[0, 1], pmLoad + pmStore, 64⟩ c a = none ∧
    (rdS (issuing binding) (encB e)).toNat = 3 * 2 ^ 32 + 64 ∧ a % 64 = 0 ∧ placed binding .read ⟨0, c, a⟩ (place binding .read ⟨0, c, a⟩) = true ∧
    (binding.launch 0).hdr.nberth ≤ 0 ∧ Tab.get none (binding.launch 0).berths 0 = none ∧ Tab.wf none (binding.launch 0).berths = true :=
  ⟨issuable (by decide +kernel), by decide +kernel⟩
theorem witness_Barriers : issued bare = bare ∧ canIssue (.bariImm (pe 2 0 1)) bare = true ∧ canIssue (.barrImm (pe 1 0 0)) bare = true ∧
    canIssue (.barwImm (pe 1 0 0)) bare = true ∧ canIssue (.barxImm (pe 1 0 0)) bare = true ∧ canIssue (.barx (pe 4 0 0)) bare = true ∧
    bare.isStrict (issuing bare).launch = false ∧ Claims.waitersAt (issued bare) (issuing bare).crew 1 = [] ∧
    (rdS (issuing (withPack (ss [(4, 15)]))) 4).toNat = 15 ∧ issueMask bare (pe 0 0 0) ≠ 0 := by decide +kernel
/-- Barrier 1 of two arrivals has had one: a barx completes its phase; barrier 1 as it is leaves it waiting. -/
def arrivedOnce : State := bare.modSt 0 fun c => crewSetBar c 1 { Barrier.blank with exp := 2, arr := 1 }
theorem witness_Barriers_due : (barOf arrivedOnce 0 1).exp = 2 ∧ (barOf arrivedOnce 0 1).arr = 1 ∧ canIssue (.barxImm (pe 1 0 0)) arrivedOnce = true ∧
    Claims.waitersAt (issued arrivedOnce) (issuing arrivedOnce).crew 1 = [] := by decide +kernel

/-! Single steps of the same. -/

/-- Lanes 0, 1 and 2 add 1, 2 and 3 to an item of 10: the lanes receive 10, 11 and 13, and the item ends at 16 (10 R288). -/
theorem step_atom : let s := (mapped.setByte 0x20000 10).modPack 0 fun p =>
      { wrV (wrV (wrV p 4 0 1) 4 1 2) 4 2 3 with sel := 7, threads := p.threads.zipIdx.map fun x => { x.1 with exited := 2 < x.2 } }
    let t := run (.atomInt atomE) s
    rdV (t.pack 0) 4 0 = 10 ∧ rdV (t.pack 0) 4 1 = 11 ∧ rdV (t.pack 0) 4 2 = 13 ∧ t.byte 0x20000 = 16 := by decide +kernel
theorem step_ld : rdV ((run (.ldVector (pe 0 16 4)) mapped).pack 0) 4 3 = 0x5A := by decide +kernel
theorem step_st : ((run (.stUniform (xe 0 16 5 (ty 9))) mapped).crew 0).isb.length = 1 ∧
    (run (.stUniform (xe 0 16 5 (ty 9))) mapped).mem = mapped.mem ∧ (run (.stUniform (xe 0 16 5 (ty 9))) lost).byte 0x20000 = 5 := by decide +kernel
theorem step_sc : let s := run (.lr (pe 0 16 4)) mapped
    (rdS (s.pack 0) 4).toNat = 0x5A ∧ (run (.sc (xe 0 16 5 { x0 with c := 3 })) s).byte 0x20000 = 5 ∧
    rdP ((run (.sc (xe 0 16 5 { x0 with c := 3 })) s).pack 0) 3 0 = true := by decide +kernel
theorem step_stand : let t := run (.stand standE) slotted
    (t.crew 0).st.spm1.byte 0x40 = 0x5A ∧ (slotSub t 0 5).isSome = true := by decide +kernel
theorem step_push : ((run (.pushDelivery 9) subbed).crew 0).st.spm1.rd 0x40 16 = [7, 0, 0, 0, 0, 0, 0, 0, 1, 0, 0, 0, 0, 0, 0, 0] := by decide +kernel
theorem step_unstand : slotSub (run (.unstand (xe 0 16 0 { x0 with c := 5 })) idleSub) 0 5 = none ∧
    (slotSub (run (.unstand (xe 0 16 0 { x0 with c := 5 })) subbed) 0 5).isSome = true ∧
    slotSub (run (.unstand (xe 0 16 0 { x0 with c := 5 })) ackedSub) 0 5 = none := by decide +kernel
theorem step_acq : (launchMoor ((run (.acq (pe 0 16 0)) (mooredBy [] .free)).launch 0) 7).map (fun m => (m.holders, m.mode)) = some ([0], .exclusive) := by
  decide +kernel
theorem step_rel : (launchMoor ((run (.rel (pe 0 16 0)) (mooredBy [0] .exclusive)).launch 0) 7).map (fun m => (m.holders, m.mode, m.count)) =
    some ([], .free, 1) := by decide +kernel
theorem step_bind : Tab.get none ((run (.bind (pe 4 16 3)) binding).launch 0).berths 0 = some ⟨0x20000, 64, 3⟩ ∧
    rdP ((run (.bind (pe 4 16 3)) binding).pack 0) 3 0 = true := by decide +kernel
theorem step_barx : (barOf (run (.barxImm (pe 1 0 0)) arrivedOnce) 0 1).cmp = 1 ∧ (barOf (run (.barxImm (pe 1 0 0)) arrivedOnce) 0 1).arr = 0 ∧
    ((run (.barxImm (pe 1 0 0)) arrivedOnce).pack 0).wait = Wait.none := by decide +kernel

/-! ### Witnesses of tiles, stream queues and copies -/

/-- A copy instruction of a descriptor at s16, from y0 to y3. -/
def copyE : Enc := xe 16 0 3 x0
/-- A ready tile of 4 rows of 64 bytes, 128 bytes apart, at SPM1 offset 0x100. -/
def tile0 : Tile := ⟨true, 0, 0, false, 2, 0x100, BitVec.ofNat 64 (4 + 2 ^ 16 + 2 ^ 33), 15, pmWindow, 0, 0, []⟩
/-- Handle 3 is that tile; s10 its geometry, s11 rows 1 and 2, s12 a pattern. -/
def tiled : State := (mapped.modPack 0 (ss [(10, BitVec.ofNat 64 (4 + 2 ^ 16 + 2 ^ 33)), (11, 0x20001), (12, 0xA5)])).modSt 0 fun c =>
  crewSetTile c 3 tile0
theorem witness_TileDefinition : let e := xe 10 1 5 { x0 with t := 15, imm := 4 }
    let c := rdY (issuing tiled) 1
    Issuable (.tdef e) tiled ∧ c.tag = true ∧ c.space = 2 ∧ c.has pmSuper = false ∧ (c.cursor + encImm e * 64) % 64 = 0 ∧
    Claims.geometry (rdS (issuing tiled) 10).toNat ∧ c.base ≤ c.cursor + encImm e * 64 ∧
    c.cursor + encImm e * 64 + Claims.extentOf (rdS (issuing tiled) 10).toNat ≤ c.top ∧ (tileAt tiled 0 5).defined = false ∧
    tiled.isStrict (issuing tiled).launch = false ∧ Issuable (.tdef (xe 10 1 5 { x0 with t := 15, imm := 4, mod := 1 })) tiled ∧
    (tileAt tiled 0 0).defined = false := by
  refine ⟨issuable (by decide +kernel), by decide +kernel, by decide +kernel, by decide +kernel, by decide +kernel, ?_, by decide +kernel,
    ?_, by decide +kernel, by decide +kernel, issuable (by decide +kernel), by decide +kernel⟩
  · unfold Claims.geometry; decide +kernel
  · unfold Claims.extentOf; decide +kernel
theorem witness_TileDefinition_move : Issuable (.tmov (pe 0 3 6)) tiled ∧ tileAt tiled (issuing tiled).crew 3 = tile0 ∧
    (tileAt tiled (issuing tiled).crew 6).defined = false ∧ Issuable (.tmov (pe 0 3 3)) tiled ∧
    Issuable (.tmov (xe 11 3 6 { x0 with mod := 1 })) tiled ∧ (rdS (issuing tiled) 11).toNat = 2 * 2 ^ 16 + 1 :=
  ⟨issuable (by decide +kernel), by decide +kernel, by decide +kernel, issuable (by decide +kernel), issuable (by decide +kernel), by decide +kernel⟩
/-- A tile that is being filled. -/
def filling : State := tiled.modSt 0 fun c => crewSetTile c 4 { tile0 with fill := 1, mfill := [2 ^ 32] }
theorem witness_TileInstructions : Issuable (.twait (pe 3 0 0)) filling ∧ Issuable (.twait (pe 4 0 0)) filling ∧
    (issuing filling).opsDone = [] ∧ (tileAt filling 0 4).fill = 1 ∧ (∀ k < 4, Issuable (.tstat (xe 3 0 5 { x0 with mod := BitVec.ofNat 6 k })) filling) ∧
    filling.isStrict (issuing filling).launch = false ∧ Issuable (.trel (pe 3 0 0)) filling ∧ Issuable (.trel (pe 9 0 0)) filling ∧
    (tileAt filling 0 9).defined = false ∧ Issuable (.tfill (xe 0 12 3 x0)) filling ∧ tileAt filling 0 3 = tile0 ∧
    denUsed (issued filling) (filling.crew 0).core + 4 * 2 ≤ denRoom := by
  refine ⟨issuable (by decide +kernel), issuable (by decide +kernel), by decide +kernel, by decide +kernel, fun k hk => issuable ?_, by decide +kernel,
    issuable (by decide +kernel), issuable (by decide +kernel), by decide +kernel, issuable (by decide +kernel), by decide +kernel⟩
  revert k; decide +kernel
/-- A tfill of tile 3 in flight. -/
def tilling : State := run (.tfill (xe 0 12 3 (ty 15))) tiled
theorem witness_TileInstructions_land : (∃ f, (tilling.crew 0).st.tfills = f :: [] ∧ f.tile = 3 ∧ f.bytes.length = 64) ∧
    (tilling.crew 0).live = true ∧ (∃ q ∈ (tilling.crew 0).packs, (tilling.pack q).live = true) ∧ (tileAt tilling 0 3).space = 2 ∧
    denUsed tilling (tilling.crew 0).core + 4 * (64 / 64 + 2) ≤ denRoom := by
  refine ⟨⟨(tilling.crew 0).st.tfills.headD ⟨0, 0, 0, []⟩, ?_⟩, ?_⟩ <;> decide +kernel
theorem witness_TileTraps : Issuable (.tmov (pe 0 9 3)) tiled ∧ Issuable (.tfill (xe 0 12 9 x0)) tiled ∧ (tileAt tiled (issuing tiled).crew 9).defined = false ∧
    Issuable (.tdef (xe 10 1 3 { x0 with t := 15 })) tiled ∧ (rdY (issuing tiled) 1).tag = true ∧ (tileAt tiled (issuing tiled).crew 3).defined = true ∧
    Issuable (.tmov (pe 0 4 3)) filling ∧ (tileAt filling (issuing filling).crew 4).defined = true ∧ issueMask tiled (pe 0 9 3) ≠ 0 :=
  ⟨issuable (by decide +kernel), issuable (by decide +kernel), by decide +kernel, issuable (by decide +kernel), by decide +kernel, by decide +kernel,
    issuable (by decide +kernel), by decide +kernel⟩
/-- A tile that is being read; a table without an empty handle; a geometry of no rows and a view of none. -/
def draining : State := tiled.modSt 0 fun c => crewSetTile c 4 { tile0 with drain := 1 }
def crowdedTiles : State := tiled.modSt 0 fun c => (List.range 64).foldl (fun c k => crewSetTile c k tile0) c
def flat : State := tiled.modPack 0 (ss [(10, 0), (11, 0)])
theorem witness_TileInstructions_stall : (∀ s ∈ [filling, draining], Issuable (.trel (pe 4 0 0)) s ∧ Issuable (.tfill (xe 0 12 4 x0)) s ∧
      Issuable (.tmov (pe 0 4 6)) s) ∧ Issuable (.tmov (xe 11 4 6 { x0 with mod := 1 })) filling ∧ (rdS (issuing filling) 11).toNat = 2 * 2 ^ 16 + 1 ∧
    (tileAt filling 0 4).fill = 1 ∧ (tileAt draining 0 4).drain = 1 ∧ (tileAt filling 0 6).defined = false := by
  refine ⟨fun s hs => ⟨issuable ?_, issuable ?_, issuable ?_⟩, issuable (by decide +kernel), by decide +kernel⟩ <;>
    (revert s; decide +kernel)
theorem witness_TileTraps_words : Issuable (.tdef (xe 10 1 5 { x0 with t := 15, mod := 1 })) crowdedTiles ∧ (∀ k < 64, (tileAt crowdedTiles 0 k).defined = true) ∧
    Issuable (.tdef (xe 10 1 5 { x0 with t := 15, mod := 1 })) flat ∧ Issuable (.tdef (xe 10 1 5 { x0 with t := 15 })) flat ∧ ¬Claims.geometry 0 ∧
    (rdS (issuing flat) 10).toNat = 0 ∧ (rdY (issuing flat) 1).tag = true ∧ (rdY (issuing flat) 1).space = 2 ∧ (tileAt flat 0 5).defined = false ∧
    Issuable (.tmov (xe 11 3 6 { x0 with mod := 1 })) flat ∧ (rdS (issuing flat) 11).toNat / 2 ^ 16 = 0 := by
  refine ⟨issuable (by decide +kernel), by decide +kernel, issuable (by decide +kernel), issuable (by decide +kernel), ?_, by decide +kernel, by decide +kernel,
    by decide +kernel, by decide +kernel, issuable (by decide +kernel), by decide +kernel⟩
  unfold Claims.geometry; decide
/-- No handle is free, no rows, an empty view (07 R209, R211, R214). -/
theorem step_tile_words : (trapAfter (.tdef (xe 10 1 5 { x0 with t := 15, mod := 1 })) crowdedTiles).1 = 2 * 256 + clsTile ∧
    trapAfter (.tdef (xe 10 1 5 { x0 with t := 15 })) flat = (3 * 256 + clsTile, 5, true) ∧
    (trapAfter (.tmov (xe 11 3 6 { x0 with mod := 1 })) flat).1 = 6 * 256 + clsTile ∧ (run (.trel (pe 4 0 0)) draining).stalled = [0] := by decide +kernel

/-- The same launch with stream resources; its queues 0 to 3 hold nothing, a vector, an end marker and 32 vectors; and one whose fox slot has faulted. -/
def streamed : State := (tiled.modLaunch 0 fun l => { l with hdr := { l.hdr with stream := true, prod := 0 } }).modSt 0 fun c =>
  crewSetQueue (crewSetQueue (crewSetQueue c 1 ⟨[.data ((List.range 16).map (BitVec.ofNat 32))], none, none⟩) 2 ⟨[.stop], none, none⟩)
    3 ⟨List.replicate 32 (.data []), none, none⟩
def broken : State := (streamed.modSt 0 fun c =>
  { crewSetQueue c 4 ⟨[.error], none, none⟩ with fox := { c.fox with status := .faulted, fault := some ⟨clsCapv, 1, 0x33, 0⟩ } })
def loopingQ : State := streamed.modPack 0 fun p => { p with loops := [⟨0x10000, 0x10010, 3⟩] }
theorem witness_StreamQueues_push : (Claims.header streamed).stream = true ∧ (Claims.header streamed).dmode = 0 ∧ Issuable (.qpush (pe 0 4 0)) streamed ∧
    Issuable (.qpush (pe 0 4 3)) streamed ∧ (queueOf streamed 0 0).entries.length + (Claims.pushed streamed (pe 0 4 0)).length = 1 ∧
    (queueOf streamed 0 3).entries.length + (Claims.pushed streamed (pe 0 4 3)).length = 33 ∧
    Issuable (.qpush (xe 0 0 0 { x0 with mod := 1 })) streamed ∧ Issuable (.qpush (xe 0 4 0 { x0 with mod := 2, bh := 1 })) streamed :=
  ⟨by decide +kernel, by decide +kernel, issuable (by decide +kernel), issuable (by decide +kernel), by decide +kernel, by decide +kernel,
    issuable (by decide +kernel), issuable (by decide +kernel)⟩
theorem witness_StreamQueues_pop : (∀ q < 5, Issuable (.qpop (pe 0 q 4)) broken) ∧ (∀ q < 5, Issuable (.qpeek (pe 0 q 4)) broken) ∧
    endSize (dropHead (issued loopingQ) 0 2) 0x10010 = .ok 4 ∧ broken.isStrict (issuing broken).launch = false ∧
    (broken.crew (issuing broken).crew).st.fox.marks = [] ∧ (queueOf broken 0 1).entries.length = 1 ∧ (queueOf broken 0 2).entries = [.stop] ∧
    (queueOf broken 0 4).entries = [.error] ∧ (queueOf broken 0 0).entries = [] ∧ (issuing broken).loops = [] ∧ (issuing loopingQ).loops ≠ [] := by
  refine ⟨fun q hq => issuable ?_, fun q hq => issuable ?_, rfl, by decide +kernel⟩ <;> (revert q; decide +kernel)
/-- A running fox slot; a pack that is not the producer. -/
def foxRuns : State := streamed.modSt 0 fun c => { c with fox := { c.fox with status := .running } }
def other : State := streamed.modLaunch 0 fun l => { l with hdr := { l.hdr with prod := 1 } }
def unstreamed : State := streamed.modLaunch 0 fun l => { l with hdr := { l.hdr with stream := false } }
theorem witness_StreamQueues_fox : Issuable (.foxgo (pe 12 10 1)) streamed ∧ (issuing streamed).idx = (Claims.header streamed).prod ∧
    (streamed.crew 0).st.fox.status = .idle ∧ Issuable (.foxgo (pe 12 10 1)) foxRuns ∧ Issuable (.foxhalt (pe 0 0 0)) foxRuns ∧
    (foxRuns.crew 0).st.fox.fault = none ∧ Issuable (.foxhalt (pe 0 0 0)) tiled ∧ (Claims.header tiled).stream = false ∧
    Issuable (.qpeek (pe 0 1 4)) tiled ∧ issueMask tiled (pe 0 0 0) ≠ 0 ∧ Issuable (.foxgo (pe 12 10 1)) other ∧ Issuable (.cpy copyE) other ∧
    (issuing other).idx ≠ (Claims.header other).prod ∧ Issuable (.foxgo (pe 12 10 1)) unstreamed ∧ Issuable (.cpyq (xe 16 0 1 x0)) unstreamed ∧
    (issuing unstreamed).idx = (Claims.header unstreamed).prod ∧ (Claims.header unstreamed).stream = false :=
  ⟨issuable (by decide +kernel), by decide +kernel, by decide +kernel, issuable (by decide +kernel), issuable (by decide +kernel), by decide +kernel,
    issuable (by decide +kernel), by decide +kernel, issuable (by decide +kernel), by decide +kernel, issuable (by decide +kernel),
    issuable (by decide +kernel), by decide +kernel, issuable (by decide +kernel), issuable (by decide +kernel), by decide +kernel⟩

/-- s16 to s31 describe 8 elements of 4 bytes, from y0 to y3; y2 is not a source. -/
def copying : State := (streamed.modPack 0 fun p => { ss [(16, 0x100), (18, 8), (24, 4), (29, 4)] p with
  y := p.y.set 3 (mkCap 0x20100 0x20000 0x21000 allPerm 0 0) }).setByte 0x20004 0x77
def copyBegun : State := ({ issued copying with fresh := copying.fresh + 1 } : State).setPack 0 (observeTiles (issuing copying) [])
def copyK : State :=
  match expose copyBegun 0 with
  | .ok t => t
  | .error _ => State.reset
theorem witness_CopyIssue : let x := Claims.copyArgs copying copyE .plain
    Claims.copyRow (.cpy copyE) = some (copyE, .plain, none, false) ∧ Issuable (.cpy copyE) copying ∧
    (issuing copying).idx = (Claims.header copying).prod ∧ issueMask copying copyE ≠ 0 ∧ copyTrap (issueCtx copying copyE) (issued copying) x = none ∧
    Claims.Free copying ∧ copyTilesReady (issued copying) 0 0 x.d none = true ∧ slotsUsed (issued copying) 0 < 64 ∧ emptyCopy x = false ∧
    copyExposes x = true ∧ expose copyBegun 0 = .ok copyK ∧ copyK.cur = copying.cur ∧
    (copyK.pack 0).crew = (issuing copying).crew ∧ (copyK.pack 0).launch = (issuing copying).launch := by
  refine ⟨rfl, issuable (by decide +kernel), by decide +kernel, by decide +kernel, by decide +kernel, ⟨by decide +kernel, by decide +kernel⟩,
    by decide +kernel, by decide +kernel, by decide +kernel, by decide +kernel, ?_, by decide +kernel⟩
  have : (match expose copyBegun 0 with | .ok _ => true | .error _ => false) = true := by decide +kernel
  unfold copyK
  split <;> simp_all
/-- A copy of no elements, which takes no slot. -/
def copyNone : State := copying.modPack 0 (ss [(18, 0)])
theorem witness_CopyIssue_none : let x := Claims.copyArgs copyNone copyE .plain
    dCount x.d = 0 ∧ dCount (Claims.copyArgs copying copyE .plain).d ≠ 0 ∧ copyTrap (issueCtx copyNone copyE) (issued copyNone) x = none ∧
    copyTilesReady (issued copyNone) 0 0 x.d none = true := by decide +kernel
theorem witness_CopyIssue_others : Issuable (.cpyr (xe 16 0 3 { x0 with t := 9 })) copying ∧ Issuable (.cpyq (xe 16 0 1 x0)) copying ∧
    Issuable (.cpyMm (xe 16 0 3 { x0 with c := 32 })) copying ∧ Issuable (.cpy { copyE with g := 1 }) copying ∧ issueMask copying { copyE with g := 1 } = 0 ∧
    (copyTrap (issueCtx copying copyE) (issued copying) (Claims.copyArgs copying (xe 16 1 3 x0) .plain)).isSome = false ∧
    (copyTrap (issueCtx copying copyE) (issued copying) (Claims.copyArgs copying (xe 16 4 3 x0) .plain)).isSome = true :=
  ⟨issuable (by decide +kernel), issuable (by decide +kernel), issuable (by decide +kernel), issuable (by decide +kernel), by decide +kernel⟩
/-- The same with other words of the descriptor. -/
def copyWith (l : List (Nat × W64)) : State := copying.modPack 0 (ss l)
/-- A stride of 5; a reserved bit; a source corner at 7 × 2^62; and tiles 9, which is empty, and 3, which lies in SPM1, for a copy of no elements. -/
def copyBad : List State := [copyWith [(24, 5)], copyWith [(16, 0x108)], copyWith [(24, 0x4000000000000000)],
  copyWith [(16, 0x1240000100), (18, 0), (24, 4)], copyWith [(16, 0x10C0000100), (18, 0), (24, 4)]]
theorem witness_CopyChecks : (∀ s ∈ copying :: copyBad, Issuable (.cpy copyE) s ∧ issueMask s copyE ≠ 0 ∧ (issuing s).idx = (Claims.header s).prod ∧
      Claims.passesCap s [0, 1, 2, 3, 4, 5, 6, 8, 9] pmCopySrc (rdY (issuing s) 0) ∧
      Claims.passesCap s [0, 1, 2, 3, 4, 6, 8, 9] pmCopyDst (rdY (issuing s) 3)) ∧
    (rdY (issuing copying) 4).tag = false ∧ Issuable (.cpy (xe 16 4 3 x0)) copying ∧ Issuable (.cpy (xe 16 0 4 x0)) copying := by
  refine ⟨fun s hs => ⟨issuable ?_, ?_, ?_, ?_, ?_⟩, by decide +kernel, issuable (by decide +kernel), issuable (by decide +kernel)⟩ <;>
    (try unfold Claims.passesCap) <;> (revert s; decide +kernel)
/-- The checks of R319, one after the other. -/
theorem step_copy_checks : trapAfter (.cpy (xe 16 4 3 x0)) copying = (1 * 256 + clsCapv, 0, true) ∧
    trapAfter (.cpy (xe 16 0 4 x0)) copying = (1 * 256 + clsCapv, 0, true) ∧
    copyBad.map (fun s => (trapAfter (.cpy copyE) s).1) = [clsAlign, 2 * 256 + clsCpya, 1 * 256 + clsCpya, 4 * 256 + clsTile, 7 * 256 + clsTile] ∧
    (trapAfter (.cpy copyE) (copyWith [(24, 5)])).2.1 = 5 := by decide +kernel
/-- That copy in flight, under number 1. -/
def flying : State := copying.setCopy 1 ⟨true, 0, 0, 0, .plain, Claims.descriptor copying copyE, mkCap 0x20000 0x20000 0x21000 allPerm 0 0,
  mkCap 0x20100 0x20000 0x21000 allPerm 0 0, Cap.null, 1, .moving, false, [], none, 1, [], []⟩
def copyAtPlace (s : State) (c : Copy) (k : Cap) (w : Bool) (a : Int) : Target :=
  match copyPlace s c k w a.toNat with
  | .ok t => t
  | .error _ => ⟨0, 0, .phys 0, 0, 0, 0, 0⟩
def copyGoes (s : State) (c : Copy) (k : Cap) (w : Bool) (a : Int) : Bool :=
  match copyPlace s c k w a.toNat with
  | .ok _ => true
  | .error _ => false
theorem copyGoes_eq {s : State} {c : Copy} {k : Cap} {w : Bool} {a : Int} (h : copyGoes s c k w a = true) :
    copyPlace s c k w a.toNat = .ok (copyAtPlace s c k w a) := by
  unfold copyGoes at h
  unfold copyAtPlace
  split <;> simp_all
theorem witness_CopyLanding : let c := flying.copyAt 1
    (∀ j < 8, copyPlace flying c c.src false (c.sa (c.idx j)).toNat = .ok (copyAtPlace flying c c.src false (c.sa (c.idx j)))) ∧
    (∀ j < 8, copyPlace flying c c.dst true (c.da (c.idx j)).toNat = .ok (copyAtPlace flying c c.dst true (c.da (c.idx j)))) ∧
    c.live = true ∧ c.phase = .moving ∧ c.follow = none ∧ onCore flying c.crew = true ∧ dXf c.desc = 0 ∧ dElog c.desc = 2 ∧ dStp c.desc = false ∧
    dDtp c.desc = false ∧ dBarp c.desc = false ∧ (flying.launch (flying.crew c.crew).launch).hdr.dmode = 0 ∧
    Tab.get [] flying.tlb (clusterOfCore c.core) = [] ∧ (∃ q ∈ (flying.crew c.crew).packs, (flying.pack q).live = true) ∧ c.count = 8 ∧
    (∀ j < 8, (c.sa (c.idx j)) % 4 = 0 ∧ (c.da (c.idx j)) % 4 = 0 ∧ 0 ≤ c.sa (c.idx j) ∧ 0 ≤ c.da (c.idx j)) ∧
    ∀ j < 8, (copyAtPlace flying c c.src false (c.sa (c.idx j))).loc = .phys (0x20000 + 4 * j) ∧
      (copyAtPlace flying c c.dst true (c.da (c.idx j))).loc = .phys (0x20100 + 4 * j) ∧ reachable flying (0x20100 + 4 * j) = true ∧
      flying.uceAt (0x20000 + 4 * j) = none ∧ calmB flying ((0x20000 + 4 * j) / 64) = true ∧ calmB flying ((0x20100 + 4 * j) / 64) = true := by
  have h1 : ∀ j < 8, copyGoes flying (flying.copyAt 1) (flying.copyAt 1).src false ((flying.copyAt 1).sa ((flying.copyAt 1).idx j)) = true := by decide +kernel
  have h2 : ∀ j < 8, copyGoes flying (flying.copyAt 1) (flying.copyAt 1).dst true ((flying.copyAt 1).da ((flying.copyAt 1).idx j)) = true := by decide +kernel
  exact ⟨fun j hj => copyGoes_eq (h1 j hj), fun j hj => copyGoes_eq (h2 j hj), by decide +kernel⟩

/-! Single steps of the same. -/

/-- tdef of the tile, and the status word 0x278001 of a ready E4M3 tile in SPM1 (07 R211, R216). -/
theorem step_tdef : let t := run (.tdef (xe 10 1 5 { x0 with t := 15, imm := 4 })) tiled
    tileAt t 0 5 = tile0 ∧ sAfter (.tstat (pe 5 0 9)) t 9 = 0x278001 := by decide +kernel
theorem step_tmov_view : let x := tileAt (run (.tmov (xe 11 3 6 { x0 with mod := 1 })) tiled) 0 6
    x.base = 0x180 ∧ x.geom.toNat = 2 + 2 ^ 16 + 2 ^ 33 ∧ x.defined = true := by decide +kernel
/-- tfill repeats the low 8 bits of the pattern in each row, and leaves the bytes between the rows (07 R218). -/
theorem step_tfill : let w := Claims.window (after (landFill 0 (run (.tfill (xe 0 12 3 (ty 15))) tiled))) 0 2
    w.byte 0x100 = 0xA5 ∧ w.byte 0x13F = 0xA5 ∧ w.byte 0x140 = 0 ∧ w.byte 0x180 = 0xA5 ∧ w.byte 0xFF = 0 := by decide +kernel
theorem step_tmov_empty : trapAfter (.tmov (pe 0 9 3)) tiled = (4 * 256 + clsTile, 9, true) := by decide +kernel
theorem step_qpop : vAfter (.qpop (pe 0 1 4)) streamed 4 = 0 ∧ rdV ((run (.qpop (pe 0 1 4)) streamed).pack 0) 4 7 = 7 ∧
    packPc ((run (.qpop (pe 0 2 4)) loopingQ).pack 0) = 0x10014 ∧ (run (.qpop (pe 0 0 4)) streamed).stalled = [0] := by decide +kernel
theorem step_qpop_error : trapAfter (.qpop (pe 0 4 4)) broken = (1 * 256 + clsCapv, 0x33, true) := by decide +kernel
theorem step_qpush : (queueOf (run (.qpush (pe 0 4 0)) streamed) 0 0).entries = [.data (List.replicate 16 0)] := by decide +kernel
theorem step_foxgo : let t := run (.foxgo (pe 12 10 1)) streamed
    rdP (t.pack 0) 1 0 = true ∧ (t.crew 0).st.fox.status = .running ∧ Tab.get 0 (t.crew 0).st.fox.s 0 = 0xA5 := by decide +kernel
/-- The copy is issued, and lands at its completion (11 R311, R324). -/
theorem step_cpy : let t := run (.copyComplete copying.fresh) (run (.cpy copyE) copying)
    ((run (.cpy copyE) copying).copyAt copying.fresh).live = true ∧ (run (.cpy copyE) copying).byte 0x20104 = 0 ∧ t.byte 0x20104 = 0x77 ∧ t.byte 0x20100 = 0x5A := by
  decide +kernel
theorem step_copyr : trapAfter (.cpy copyE) other = (1 * 256 + clsCopyr, 0, true) ∧ trapAfter (.qpeek (pe 0 1 4)) tiled = (2 * 256 + clsCopyr, 0, true) := by
  decide +kernel

/-! ### Witnesses of the matrix instructions -/

/-- A ready tile of the matrix permission. -/
def matTile (space rows gran base ty : Nat) : Tile :=
  ⟨true, 0, 0, false, space, base, BitVec.ofNat 64 (rows + 2 ^ 16 * gran + 2 ^ 32 * gran), ty, pmWindow, 0, 0, []⟩
/-- A loaded group at local macro 0 of signed bytes, of one vector and one column group. -/
def group0 : MacroRec := ⟨true, 0, 1, 0, 0, 0, false, 0, 0, 0, []⟩
/-- Tiles 0 (accumulator), 1 (A), 2 (B), 3 (bytes of 16 rows), 4 (empty), 5 (an E4M3 MX tile), 6 (its scales), 7 (floats); a group at macro 0, a
tile of another permission at 8, and one that is being filled at 9. -/
def matrixed : State := (bare.modLaunch 0 fun l => { l with hdr := { l.hdr with macros := 8 } }).modSt 0 fun c =>
  let c := { c with spm1 := { c.spm1 with size := 65536 } }
  let c := crewSetTile c 0 (matTile 2 16 4 0 3)
  let c := crewSetTile c 1 (matTile 2 16 1 0x2000 1)
  let c := crewSetTile c 2 (matTile 2 64 1 0x3000 1)
  let c := crewSetTile c 3 (matTile 2 16 1 0x5000 1)
  let c := crewSetTile c 5 (matTile 2 16 1 0x6000 0x15)
  let c := crewSetTile c 6 (matTile 2 16 1 0x7000 5)
  let c := crewSetTile c 7 (matTile 2 64 4 0x8000 0x0D)
  let c := crewSetTile c 8 { matTile 2 16 1 0x2000 1 with perm := 0 }
  let c := crewSetTile (crewSetTile c 10 (matTile 2 16 4 0xD000 0x0D)) 11 (matTile 2 16 4 0xB000 0x0D)
  let c := crewSetMacro c 2 { group0 with base := 2, ty := 0x0D, s := 4 }
  let c := crewSetTile c 9 { matTile 2 16 1 0xC000 1 with fill := 1, mfill := [2 ^ 32] }
  crewSetMacro c 0 group0
/-- The same with a full queue. -/
def matFull : State := matrixed.setSeq 0 (List.replicate 16 ⟨0, 0, 0x10000, .mzero 3, [3], [], 0, none, 1⟩)
/-- mma of tile 1 into tile 0. -/
def mmaE : Enc := xe 0 1 0 { x0 with t := 1, mod := 1 }
def servesB (s : State) (l : List TileUse) : Bool := l.all fun u =>
  let x := tileAt s (s.pack s.cur).crew u.h
  x.defined && (x.perm &&& pmMatrix != 0) && (u.types == [] || u.types.contains x.ty) && (!u.spm1 || x.space == 2) &&
    decide (u.rows ≤ x.geom.toNat % 2 ^ 16) && decide (u.bytes ≤ x.geom.toNat / 2 ^ 16 % 2 ^ 12 * 64)
theorem serve {s : State} {l : List TileUse} (h : servesB s l = true) :
    ∀ u ∈ l, Claims.serves (tileAt s (s.pack s.cur).crew u.h) u := by
  intro u hu
  have := (List.all_eq_true.mp h) u hu
  simp only [Bool.and_eq_true, Bool.or_eq_true, bne_iff_ne, beq_iff_eq, decide_eq_true_eq, Bool.not_eq_true', List.contains_iff_mem] at this
  obtain ⟨⟨⟨⟨⟨a, b⟩, c⟩, d⟩, e⟩, f⟩ := this
  exact ⟨a, b, c, fun x => by simpa [x] using d, e, f⟩
def openB (s : State) (l : List TileUse) (acc : Option Nat) : Bool := l.all fun u =>
  let x := tileAt s (s.pack s.cur).crew u.h
  if u.write then x.drain == 0 && (x.fill == 0 || (acc == some u.h && decide (x.fill < 63) && x.mfill.all (· == s.cur)))
  else decide (u.h ∈ Claims.fillsOf l) || (x.fill == 0 && decide (x.drain < 63))
theorem openB_iff (s : State) (l : List TileUse) (acc : Option Nat) : openB s l acc = true ↔ Claims.allOpen s l acc := by
  simp only [openB, Claims.allOpen, Claims.open_, List.all_eq_true]
  refine forall_congr' fun u => forall_congr' fun _ => ?_
  split <;> simp [and_assoc]
theorem witness_MatrixIssue : ∃ q, Claims.matAsk matrixed (.mmaInt mmaE) = some q ∧ Issuable (.mmaInt mmaE) matrixed ∧ Claims.Free matrixed ∧ q.ok ∧
    (∀ u ∈ q.uses, Claims.serves (tileAt matrixed (issuing matrixed).crew u.h) u) ∧ Claims.allOpen matrixed q.uses q.acc ∧
    (matrixed.seq (matrixed.crew (issuing matrixed).crew).core).length < 16 := by
  refine ⟨_, rfl, issuable (by decide +kernel), ⟨by decide +kernel, by decide +kernel⟩, ?_, serve (s := matrixed) (by decide +kernel),
    (openB_iff _ _ _).mp (by decide +kernel), by decide +kernel⟩
  show _ ∧ Claims.shapeFits _ ∧ Claims.groupFits _ _ _ _ _ ∧ _
  unfold Claims.shapeFits Claims.groupFits
  decide +kernel
theorem witness_MatrixIssue_full : ∃ q, Claims.matAsk matFull (.mzero (pe 3 0 0)) = some q ∧ Issuable (.mzero (pe 3 0 0)) matFull ∧ Claims.Free matFull ∧ q.ok ∧
    (∀ u ∈ q.uses, Claims.serves (tileAt matFull (issuing matFull).crew u.h) u) ∧ Claims.allOpen matFull q.uses q.acc ∧
    16 ≤ (matFull.seq (matFull.crew (issuing matFull).crew).core).length :=
  ⟨_, rfl, issuable (by decide +kernel), ⟨by decide +kernel, by decide +kernel⟩, trivial, serve (s := matFull) (by decide +kernel),
    (openB_iff _ _ _).mp (by decide +kernel), by decide +kernel⟩
theorem witness_MatrixIssue_stall : ∃ q, Claims.matAsk matrixed (.mzero (pe 9 0 0)) = some q ∧ Issuable (.mzero (pe 9 0 0)) matrixed ∧ q.ok ∧
    (∀ u ∈ q.uses, Claims.serves (tileAt matrixed (issuing matrixed).crew u.h) u) ∧ ¬Claims.allOpen matrixed q.uses q.acc :=
  ⟨_, rfl, issuable (by decide +kernel), trivial, serve (s := matrixed) (by decide +kernel), fun h => by
    have := (openB_iff _ _ _).mpr h; revert this; decide +kernel⟩
/-- The other forms may issue: mms of floats, macc of the accumulator, mxq, mxdq, mtr, and mma of an MX tile with its scales. -/
theorem witness_MatrixIssue_forms : Issuable (.mms (xe 0 7 7 { x0 with t := 0x0D, mod := 4 })) matrixed ∧
    Issuable (.maccTile (xe 0 0 3 { x0 with t := 1 })) matrixed ∧ Issuable (.mxq (xe 0 7 5 { x0 with t := 0x15, c := 6 })) matrixed ∧
    Issuable (.mxdq (xe 0 5 7 { x0 with t := 0x0D, mod := 0x15, c := 6 })) matrixed ∧ Issuable (.mtr (xe 0 1 3 { x0 with t := 5 })) matrixed ∧
    Issuable (.mmaFloat (xe 0 5 7 { x0 with t := 0x15, mod := 0x15, c := 6 })) matrixed :=
  ⟨issuable (by decide +kernel), issuable (by decide +kernel), issuable (by decide +kernel), issuable (by decide +kernel), issuable (by decide +kernel),
    issuable (by decide +kernel)⟩
/-- mldb of tile 2 into macro 1, which is empty; into macro 0; and where the launch has one macro. -/
def mldbE (m : Nat) : Enc := xe 0 2 0 { x0 with t := 1, imm := BitVec.ofNat 16 m }
def oneMacro : State := matrixed.modLaunch 0 fun l => { l with hdr := { l.hdr with macros := 1 } }
theorem witness_GroupLoad : let uses : List TileUse := [⟨2, [1], false, 64, 64, false⟩]
    (∀ m < 8, Issuable (.mldb (mldbE m)) matrixed ∧ Issuable (.mldb (mldbE m)) oneMacro) ∧ Claims.Free matrixed ∧
    (∀ u ∈ uses, Claims.serves (tileAt matrixed (issuing matrixed).crew u.h) u) ∧ Claims.allOpen matrixed uses none ∧
    (crewMacro (matrixed.crew 0).st 1).loaded = false ∧ (crewMacro (matrixed.crew 0).st 0).loaded = true ∧ (Claims.header matrixed).macros = 8 ∧
    (Claims.header oneMacro).macros = 1 ∧ issueMask matrixed (mldbE 0) ≠ 0 := by
  refine ⟨fun m hm => ⟨issuable ?_, issuable ?_⟩, ⟨by decide +kernel, by decide +kernel⟩, serve (s := matrixed) (by decide +kernel),
    (openB_iff _ _ _).mp (by decide +kernel), by decide +kernel⟩ <;>
    (revert m; decide +kernel)
/-- The states of each trap: A's permission, an empty tile, an unfit tile, and the group's checks (macro 1 is empty; another type; another shape). -/
theorem witness_MatrixTraps : Issuable (.mmaInt (xe 0 8 0 { x0 with t := 1, mod := 1 })) matrixed ∧ (tileAt matrixed 0 8).perm &&& pmMatrix = 0 ∧
    Issuable (.mmaInt (xe 0 4 0 { x0 with t := 1, mod := 1 })) matrixed ∧ (tileAt matrixed 0 4).defined = false ∧
    Issuable (.mmaInt (xe 0 7 0 { x0 with t := 1, mod := 1 })) matrixed ∧ (tileAt matrixed 0 7).ty = 0x0D ∧
    Issuable (.mmaInt (xe 0 1 0 { x0 with t := 1, mod := 1, imm := 0x100 })) oneMacro ∧
    Issuable (.mmaInt (xe 0 1 0 { x0 with t := 1, mod := 1, imm := 0x100 })) matrixed ∧
    Issuable (.mmaInt (xe 0 3 0 { x0 with t := 1, mod := 0x1C })) matrixed ∧ issueMask matrixed mmaE ≠ 0 := by
  exact ⟨issuable (by decide +kernel), by decide +kernel, issuable (by decide +kernel), by decide +kernel, issuable (by decide +kernel),
    by decide +kernel, issuable (by decide +kernel), issuable (by decide +kernel), issuable (by decide +kernel), by decide +kernel⟩
theorem witness_MatrixTraps_shape : let s := matrixed.modSt 0 fun c => crewSetMacro c 0 { group0 with ng := 1 }
    Issuable (.mmaInt mmaE) s ∧ (crewMacro (s.crew 0).st 0).ng = 1 := ⟨issuable (by decide +kernel), by decide +kernel⟩
/-- Groups of MX bytes whose labels are out of step with A's scales, and with their own; a group that pack 1 has loaded, in Strict mode. -/
def mxGroup (w : W64) (b : Nat) : State := (matrixed.modSt 0 fun c => crewSetMacro c 0 { group0 with ty := 0x15, kb0b := b }).modPack 0 (ss [(0, w)])
def lent : State := (matrixed.modLaunch 0 fun l => { l with hdr := { l.hdr with dmode := 2 } }).modSt 0 fun c => crewSetMacro c 0 { group0 with loader := 1 }
def mxE : Enc := xe 0 5 7 { x0 with t := 0x15, mod := 0x15, c := 6 }
theorem witness_MatrixTraps_scale : Issuable (.mmaFloat mxE) (mxGroup 0x100000000 0) ∧ Issuable (.mmaFloat mxE) (mxGroup 0 3) ∧
    (rdS (issuing (mxGroup 0x100000000 0)) 0).toNat / 2 ^ 32 % 16 = 1 ∧ (crewMacro ((mxGroup 0 3).crew 0).st 0).kb0b % 16 = 3 ∧ typeMx 0x15 = true ∧
    Issuable (.mmaInt mmaE) lent ∧ lent.isStrict (issuing lent).launch = true ∧ (crewMacro (lent.crew 0).st 0).loader ≠ (issuing lent).idx ∧
    (crewMacro (lent.crew 0).st 0).larr = [] ∧ (trapAfter (.mmaInt mmaE) lent).1 = 3 * 256 + clsRace ∧
    trapAfter (.mmaFloat mxE) (mxGroup 0x100000000 0) = (256 + clsScale, 256, true) ∧ trapAfter (.mmaFloat mxE) (mxGroup 0 3) = (256 + clsScale, 769, true) :=
  ⟨issuable (by decide +kernel), issuable (by decide +kernel), by decide +kernel, by decide +kernel, by decide +kernel, issuable (by decide +kernel),
    by decide +kernel⟩
theorem witness_MatrixImmediate : Issuable (.mrel (pe 0 0 0)) matrixed ∧ (crewMacro (matrixed.crew 0).st 0) = group0 ∧
    (∀ k < 4, Issuable (.mstat (xe 0 0 5 { x0 with mod := BitVec.ofNat 6 k })) matrixed) ∧ packMatBusy (issued matrixed) matrixed.cur = false ∧
    (tileAt matrixed 0 0).fill = 0 ∧ Issuable (.maccRegs (xe 5 0 8 { x0 with t := 3 })) matrixed ∧ Claims.Free matrixed ∧
    (issuing matrixed).width ≤ (issuing matrixed).threads.length ∧ enabledFlags (issuing matrixed) = 0 := by
  refine ⟨issuable (by decide +kernel), by decide +kernel, fun k hk => issuable ?_, by decide +kernel, by decide +kernel, issuable (by decide +kernel),
    ⟨by decide +kernel, by decide +kernel⟩, by decide +kernel⟩
  revert k; decide +kernel
/-- An instruction of the sequencer alone in the queue of core 0, with its last step run. -/
def headOp (i : Instr) : MatOp := ((run i matrixed).seq 0).headD ⟨0, 0, 0, .mzero 0, [], [], 0, none, 0⟩
def headed (i : Instr) : State := (run i matrixed).setSeq 0 [{ headOp i with step := opSteps (run i matrixed) (headOp i) }]
/-- mzero, mtr, mma, mms, macc, mxq and mxdq, with the tiles that each writes. -/
def heads : List (Instr × List (Nat × Nat × Nat)) := [(.mzero (pe 3 0 0), [(3, 16, 64)]), (.mtr (xe 0 1 2 { x0 with t := 5 }), [(2, 64, 16)]),
  (.mmaInt mmaE, [(0, 16, 256)]), (.mms (xe 0 7 10 { x0 with t := 0x0D, mod := 4, imm := 0x200 }), [(10, 16, 256)]),
  (.maccTile (xe 0 0 3 { x0 with t := 1 }), [(3, 16, 64)]), (.mxq (xe 0 10 5 { x0 with t := 0x15, c := 6 }), [(5, 16, 64), (6, 16, 2)]),
  (.mxdq (xe 0 5 11 { x0 with t := 0x0D, mod := 0x15, c := 6 }), [(11, 16, 256)])]
def zeroing : State := headed (.mzero (pe 3 0 0))
theorem witness_MatrixEffects : ∀ x ∈ heads, Claims.AtHead (headed x.1) 0 ((headed x.1).seq 0 |>.headD (headOp x.1)) [] x.2 := by
  intro x hx
  constructor <;> (revert x; decide +kernel)
theorem witness_MatrixEffects_kinds : heads.map (fun x => match (headOp x.1).kind with
    | .mzero .. => 0 | .mtr .. => 1 | .mma .. => 2 | .mms .. => 3 | .macc .. => 4 | .mxq .. => 5 | .mxdq .. => 6 | _ => 7) = [0, 1, 2, 3, 4, 5, 6] := by
  decide +kernel
/-- 64 products of 1.0 and 2.0 in seven slices: 128.0, exactly (12 R371). -/
theorem witness_SliceExact : let r := mmsElem f32 7 .rne (List.replicate 64 (f32.read 0x3F800000)) (List.replicate 64 (f32.read 0x40000000)) none
    r.loss = false ∧ r.win = false ∧ r.code = 0x43000000 ∧ r.fl = 0 := by decide +kernel

/-! Single steps of the same. -/

theorem step_mma : let t := run (.mmaInt mmaE) matrixed
    (t.seq 0).length = 1 ∧ (tileAt t 0 0).fill = 1 ∧ (tileAt t 0 1).drain = 1 := by decide +kernel
theorem step_mma_traps : trapAfter (.mmaInt (xe 0 4 0 { x0 with t := 1, mod := 1 })) matrixed = (4 * 256 + clsTile, 4, true) ∧
    trapAfter (.mmaInt (xe 0 7 0 { x0 with t := 1, mod := 1 })) matrixed = (7 * 256 + clsTile, 7, true) ∧
    trapAfter (.mmaInt (xe 0 1 0 { x0 with t := 1, mod := 1, imm := 0x100 })) oneMacro = (1 * 256 + clsMacro, 1, true) ∧
    trapAfter (.mmaInt (xe 0 1 0 { x0 with t := 1, mod := 1, imm := 0x100 })) matrixed = (2 * 256 + clsMacro, 1, true) := by decide +kernel
theorem step_mldb : let t := run (.mldb (mldbE 1)) matrixed
    crewMacro (t.crew 0).st 1 = { group0 with base := 1 } ∧ (t.seq 0).length = 1 ∧
    trapAfter (.mldb (mldbE 0)) matrixed = (2 * 256 + clsMacro, 0, true) ∧ trapAfter (.mldb (mldbE 3)) oneMacro = (1 * 256 + clsMacro, 3, true) := by
  decide +kernel
/-- Two blocks of 32 products of 2 and 3: each adds 192 (12 R363). -/
theorem step_chain : (mmaElem true false false 5 (mmaPartials ⟨1, 1, 1, 0, false, false⟩ (List.replicate 64 2) [] (List.replicate 64 3) [] [] [0] none)).lo = 389 := by
  decide +kernel
theorem step_mrel : (crewMacro ((run (.mrel (pe 0 0 0)) matrixed).crew 0).st 0).loaded = false := by decide +kernel
theorem step_mstat : sAfter (.mstat (xe 0 0 5 { x0 with mod := 3 })) matrixed 5 = 3 + 2 ^ 5 := by decide +kernel
/-- macc (regs) of an element of 9 by 2^-1, ties to even (12 R374). -/
theorem step_macc : vAfter (.maccRegs (xe 5 0 8 { x0 with t := 3, imm := 0xFF }))
    (matrixed.modSt 0 fun c => { c with spm1 := { c.spm1 with bytes := [(0, 10)] } }) 8 = 5 := by decide +kernel
theorem step_mzero : let t := run (.matrixComplete 0) (zeroing.modSt 0 fun c => { c with spm1 := { c.spm1 with bytes := [(0x4FFF, 1), (0x5000, 1), (0x53FF, 1), (0x5400, 1)] } })
    (t.crew 0).st.spm1.bytes = [(0x4FFF, 1), (0x5400, 1)] ∧ t.seq 0 = [] := by decide +kernel

/-! ### Witnesses of work graphs, device launches and geometry -/

/-- A graph of a pool of 4 records and two nodes, of batches of 2 and 3; record 0 is held, 1 emitted, in node 1's open batch. -/
def graph0 : Graph := ⟨true, 64, 4, 0x30000, [⟨0, 2, 0, [], 0, 0⟩, ⟨0, 3, 0, [1], 5, 0⟩],
  [(0, ⟨.held, 0, false, none⟩), (1, ⟨.emitted, 0, false, none⟩)], []⟩
def graphed : State := (mapped.modLaunch 0 fun l => { l with graph := graph0 }).modPack 0 (ss [(7, 0), (8, 1), (9, 9)])
/-- The same with a full pool; with two records in the open batch. -/
def fullPool : State := graphed.modLaunch 0 fun l => { l with graph := { graph0 with pooln := 2 } }
def nearly : State := graphed.modLaunch 0 fun l => { l with graph := { graph0 with nodes := [⟨0, 2, 0, [], 0, 0⟩, ⟨0, 3, 0, [1, 2], 5, 0⟩] } }
def strictly : State := graphed.modLaunch 0 fun l => { l with hdr := { l.hdr with dmode := 2 } }
theorem witness_GraphRecords : Issuable (.grec (pe 0 0 4)) graphed ∧ Claims.Free graphed ∧ (Claims.graph graphed).present = true ∧
    Tab.wf Rec.free (Claims.graph graphed).recs = true ∧ (∀ h, 4 ≤ h → (Claims.graph graphed).record h = Rec.free) ∧
    (Claims.graph graphed).record 2 = Rec.free ∧ (∀ k < 2, (Claims.graph graphed).record k ≠ Rec.free) ∧
    Issuable (.grec (pe 0 0 4)) fullPool ∧ Claims.Free fullPool ∧ (∀ h, 2 ≤ h → (Claims.graph fullPool).record h = Rec.free) ∧
    (∀ k < (Claims.graph fullPool).pooln, (Claims.graph fullPool).record k ≠ Rec.free) ∧ Issuable (.gfree (pe 0 7 0)) graphed ∧
    (rdS (issuing graphed) 7).toNat = 0 ∧ (Claims.graph graphed).record 0 = ⟨.held, 0, false, none⟩ ∧ Issuable (.gpool (pe 0 0 4)) graphed ∧
    Issuable (.gpool (xe 8 0 4 { x0 with mod := 1 })) graphed ∧ (rdS (issuing graphed) 8).toNat = 1 := by
  have h (g : Graph) (hg : g.recs = graph0.recs) : ∀ h, 2 ≤ h → g.record h = Rec.free := by
    intro h hh
    have : h ≠ 0 ∧ h ≠ 1 := by omega
    simp [Graph.record, hg, graph0, Tab.get, Ne.symm this.1, Ne.symm this.2]
  exact ⟨issuable (by decide +kernel), ⟨by decide +kernel, by decide +kernel⟩, by decide +kernel, by decide +kernel,
    fun x hx => h _ (by decide +kernel) x (by omega), by decide +kernel, by decide +kernel, issuable (by decide +kernel),
    ⟨by decide +kernel, by decide +kernel⟩, h _ (by decide +kernel), by decide +kernel, issuable (by decide +kernel), by decide +kernel, by decide +kernel,
    issuable (by decide +kernel), issuable (by decide +kernel), by decide +kernel⟩
def emitted (s : State) : State :=
  match expose (issued s) s.cur with
  | .ok t => t
  | .error _ => State.reset
def emitsB (s : State) : Bool :=
  match expose (issued s) s.cur with
  | .ok _ => true
  | .error _ => false
theorem emits {s : State} (h : emitsB s = true) : expose (issued s) s.cur = .ok (emitted s) := by
  unfold emitsB at h
  unfold emitted
  split <;> simp_all
/-- An open batch of one of three, and of two of three. -/
theorem witness_GraphEmit : ∀ s ∈ [graphed, nearly], Issuable (.gemit (pe 8 7 0)) s ∧ Claims.Free s ∧ (Claims.graph s).present = true ∧
    (rdS (issuing s) 7).toNat = 0 ∧ (rdS (issuing s) 8).toNat = 1 ∧ ((Claims.graph s).record 0).state = .held ∧
    expose (issued s) s.cur = .ok (emitted s) ∧ ((emitted s).pack s.cur).launch = (issuing s).launch ∧
    ((emitted s).launch (issuing s).launch).hdr.dmode = 0 ∧ (emitted s).cur = s.cur ∧
    ((emitted s).launch (issuing s).launch).graph.nodes.length = 2 := by
  intro s hs
  have e : s = graphed ∨ s = nearly := by simpa using hs
  rcases e with rfl | rfl <;>
  exact ⟨issuable (by decide +kernel), ⟨by decide +kernel, by decide +kernel⟩, by decide +kernel, by decide +kernel, by decide +kernel,
    by decide +kernel, emits (by decide +kernel), by decide +kernel⟩
theorem witness_GraphTraps : Issuable (.grec (pe 0 0 4)) mapped ∧ (Claims.graph mapped).present = false ∧ issueMask mapped (pe 0 0 4) ≠ 0 ∧
    Issuable (.gfree (pe 0 9 0)) graphed ∧ (rdS (issuing graphed) 9).toNat = 9 ∧ Issuable (.gfree (pe 0 8 0)) graphed ∧
    ((Claims.graph graphed).record 1).state = .emitted ∧ Issuable (.gemit (pe 7 7 0)) graphed ∧ Issuable (.gemit (pe 9 7 0)) graphed ∧
    Issuable (.grec (pe 0 0 4)) strictly ∧ strictly.isStrict (issuing strictly).launch = true ∧ Issuable (.gemit (pe 8 7 0)) strictly ∧
    issueMask strictly (pe 8 7 0) ≠ 0 ∧ Issuable (.gpool (pe 0 0 4)) strictly :=
  ⟨issuable (by decide +kernel), by decide +kernel, by decide +kernel, issuable (by decide +kernel), by decide +kernel, issuable (by decide +kernel),
    by decide +kernel, issuable (by decide +kernel), issuable (by decide +kernel), issuable (by decide +kernel), by decide +kernel,
    issuable (by decide +kernel), by decide +kernel, issuable (by decide +kernel)⟩
theorem witness_DeviceLaunch : Issuable (.lnch (pe 8 0 1)) graphed ∧ Claims.Free graphed ∧ Issuable (.lnch (pe 8 0 1)) strictly ∧
    Issuable (.lnch { pe 8 0 1 with g := 2 }) graphed ∧ expose (issued graphed) graphed.cur = .ok (emitted graphed) ∧ issueMask graphed (pe 8 0 1) ≠ 0 ∧
    (rdY (issuing graphed) 0).tag = true ∧ (rdY (issuing graphed) 0).space = 0 ∧ (rdY (issuing graphed) 0).has pmSuper = false ∧
    (rdY (issuing graphed) 0).has pmLoad = true ∧ (rdY (issuing graphed) 0).base ≤ (rdY (issuing graphed) 0).cursor ∧
    (rdY (issuing graphed) 0).cursor + 320 ≤ (rdY (issuing graphed) 0).top ∧ (rdY (issuing graphed) 0).cursor % 64 = 0 ∧
    issueMask graphed { pe 8 0 1 with g := 2 } = 0 :=
  ⟨issuable (by decide +kernel), ⟨by decide +kernel, by decide +kernel⟩, issuable (by decide +kernel), issuable (by decide +kernel),
    emits (by decide +kernel), by decide +kernel⟩

/-- s16 to s19 are a cut's parameters (error 1.0, near distance 1.0, one instance, room for 4 words and 4 requests), s20 to s23 a submission's. -/
def drawn : State := mapped.modPack 0 fun p => ss [(16, 0x3F8000003F800000), (17, 0x100000000), (18, 0x400000004), (20, 0x100000000), (21, 0x400020004),
  (6, 0x801)] p
theorem witness_GeometryIssue : let w := Claims.params drawn (xe 16 0 4 x0)
    Issuable (.cutsel (xe 16 0 4 x0)) drawn ∧ Issuable (.cutsel (xe 0 0 4 { x0 with mod := 2 })) drawn ∧
    drawn.geoOp drawn.fresh = none ∧ (rdY (issuing drawn) 0).tag = true ∧
    (rdY (issuing drawn) 0).space = 0 ∧ (rdY (issuing drawn) 0).has pmSuper = false ∧ (rdY (issuing drawn) 0).has pmLoad = true ∧
    gFinite (w.getD 0 0 % 2 ^ 32) = true ∧ gPositive (w.getD 0 0 % 2 ^ 32) = true ∧ gPositive (w.getD 0 0 / 2 ^ 32) = true ∧
    w.getD 1 0 % 2 ^ 32 = 0 ∧ w.getD 1 0 / 2 ^ 32 = 1 ∧ w.getD 2 0 % 2 ^ 32 = 4 ∧ w.getD 2 0 / 2 ^ 32 = 4 ∧ w.getD 3 0 % 256 = 0 ∧
    (rdY (issuing drawn) 0).has pmStore = true ∧ (rdY (issuing drawn) 0).base ≤ (rdY (issuing drawn) 0).cursor ∧
    (rdY (issuing drawn) 0).cursor + 64 ≤ (rdY (issuing drawn) 0).top ∧ (rdY (issuing drawn) 0).cursor % 8 = 0 ∧ Claims.geoCount drawn 0 true = 0 :=
  ⟨issuable (by decide +kernel), issuable (by decide +kernel), by decide +kernel⟩
theorem witness_GeometryIssue_raster : let e := xe 20 0 0 x0
    let w := Claims.params drawn e
    Issuable (.rsub e) drawn ∧ Issuable (.rsub { e with g := 2 }) drawn ∧ Issuable (.rwait (pe 0 0 0)) drawn ∧
    expose (issued drawn) drawn.cur = .ok (emitted drawn) ∧
    issueMask drawn e ≠ 0 ∧ w.getD 0 0 % 2 ^ 32 + w.getD 0 0 / 2 ^ 32 = 1 ∧ w.getD 1 0 % 2 ^ 16 = 4 ∧
    w.getD 1 0 / 2 ^ 16 % 2 ^ 16 = 2 ∧ w.getD 1 0 / 2 ^ 32 = 4 ∧ w.getD 2 0 = 0 ∧ w.getD 3 0 = 0 ∧
    (rdY (issuing drawn) 0).has (pmLoad + pmStore) = true ∧ (rdY (issuing drawn) 0).cursor + 64 ≤ (rdY (issuing drawn) 0).top ∧
    (rdY (issuing drawn) 0).cursor % 64 = 0 ∧ Claims.geoCount drawn 0 false = 0 ∧
    (emitted drawn).cur = drawn.cur ∧ ((emitted drawn).pack 0).crew = (issuing drawn).crew ∧ ((emitted drawn).launch 0).asid = (drawn.launch 0).asid ∧
    (emitted drawn).geoOp (emitted drawn).fresh = none ∧ issueMask drawn { e with g := 2 } = 0 ∧ (issuing drawn).geo = 0 :=
  ⟨issuable (by decide +kernel), issuable (by decide +kernel), issuable (by decide +kernel), emits (by decide +kernel), by decide +kernel⟩
/-- The results of an engine's reads. -/
def geoOkB {α : Type} (x : GM α) : Bool :=
  match x.run.run [] with
  | (.ok _, _) => true
  | _ => false
theorem geoOk {α : Type} {x : GM α} (h : geoOkB x = true) : ∃ r log, x.run.run [] = (.ok r, log) := by
  unfold geoOkB at h
  split at h
  · exact ⟨_, _, by assumption⟩
  · cases h
def logB (s : State) (log : GLog) : Bool := log.all fun y => match y.gate with
  | some a => calmB s a
  | none => true
theorem logCalm {s : State} {log : GLog} (h : logB s log = true) : ∀ y ∈ log, ∀ a, y.gate = some a → Claims.noPartials s a := by
  simp only [logB, List.all_eq_true] at h
  intro y hy a ha
  have := h y hy
  simp only [ha] at this
  exact calm this
/-- A validation in flight, under number 3. -/
def valOp : GeoOp := ⟨0, 0, 0, 1, .cutsel (rdY (issuing drawn) 0) Cap.null [] false true 9, none, 3⟩
def validating : State := drawn.setGeo 3 (some valOp)
theorem witness_GeometryCompletion : let g := valOp
    ∃ n log, validating.geoOp 3 = some g ∧ g.stall = none ∧ onCore validating g.crew = true ∧
    (validating.pack g.pack).live = true ∧ g.pack ∈ (validating.crew g.crew).packs ∧ (validating.launch (validating.crew g.crew).launch).hdr.dmode = 0 ∧
    (validate ⟨validating, g.crew, g.asid, none, []⟩ (rdY (issuing drawn) 0) (rdY (issuing drawn) 0).cursor).run.run [] = (.ok n, log) ∧
    (∀ x ∈ log, ∀ a, x.gate = some a → Claims.noPartials validating a) ∧ engineHead validating g = true ∧
    validating.isStrict (validating.pack g.pack).launch = false ∧ validating.geoOp 4 = none := by
  obtain ⟨n, log, h⟩ := geoOk (x := validate ⟨validating, 0, 1, none, []⟩ (rdY (issuing drawn) 0) (rdY (issuing drawn) 0).cursor) (by decide +kernel)
  refine ⟨n, log, by decide +kernel, rfl, by decide +kernel, by decide +kernel, by decide +kernel, by decide +kernel, h,
    logCalm ?_, by decide +kernel⟩
  rw [show log = ((validate ⟨validating, 0, 1, none, []⟩ (rdY (issuing drawn) 0) (rdY (issuing drawn) 0).cursor).run.run []).2 by rw [h]]
  decide +kernel
/-- A selection in flight, under number 3, that writes at 0x20800. -/
def cutCap : Cap := mkCap 0x20800 0x20000 0x21000 allPerm 0 0
def cutting : State := drawn.setGeo 3 (some ⟨0, 0, 0, 1, .cutsel (rdY (issuing drawn) 0) cutCap (Claims.params drawn (xe 16 0 4 x0)) false false 9, none, 3⟩)
theorem witness_GeometryCompletion_cut : let env : GEnv := ⟨cutting, 0, 1, none, []⟩
    let ya := rdY (issuing drawn) 0
    (match (cutAll env ya ya.cursor 0x3F800000 0x3F800000 false [0] ⟨[], [], [], false, false, false, 0⟩).run.run [] with
      | (.ok o, _) => match geoWrites env cutCap (cutOutput cutCap (Claims.params drawn (xe 16 0 4 x0)) false o).1 with
        | .ok _ => true
        | .error _ => false
      | _ => false) = true ∧ onCore cutting 0 = true ∧ (cutting.pack 0).live = true ∧ cutting.isStrict 0 = false ∧
    (run (.cutselComplete 3) cutting).geoOp 3 = none := by decide +kernel
theorem witness_FragmentOrder_memory : ∀ a ∈ [0x20000, 0x20008], a % 8 = 0 ∧ reachable bare a = true ∧ calmB bare (a / 64) = true := by decide +kernel
theorem witness_FragmentOrder : let x : GWrite := ⟨.spm2 0 0, none, 0, [1, 0, 0, 0, 0, 0, 0, 0]⟩
    let y : GWrite := ⟨.spm2 0 8, none, 8, [2, 0, 0, 0, 0, 0, 0, 0]⟩
    (∃ o p q, (x.loc = .spm2 o p ∧ y.loc = .spm2 o q ∨ x.loc = .spm3 o p ∧ y.loc = .spm3 o q) ∧ (p = q ∨ p + 8 ≤ q ∨ q + 8 ≤ p)) ∧
    x.bytes.length = 8 ∧ y.bytes.length = 8 := ⟨⟨0, 0, 8, .inl ⟨rfl, rfl⟩, by decide⟩, rfl, rfl⟩
/-- A query of thread 0. -/
def raying : State := drawn.modSt 0 fun c => { c with rays := [(0, some ⟨List.replicate 8 0, mkCap 0x20000 0x20000 0x21000 allPerm 0 0, none, none⟩)] }
theorem witness_RayQueries : Issuable (.rayq (xe 0 8 0 x0)) raying ∧ (∀ k < 3, Issuable (.raynx (xe 0 0 8 { x0 with mod := BitVec.ofNat 6 k })) raying) ∧
    Claims.Free raying ∧
    let runs := threadRuns (threadHit ⟨issued raying, 0, 1, none, []⟩ (raying.crew 0).st 0) (List.range 16)
    stopUce (runStops runs) = none ∧ (stopFaults (runStops runs)).all (fun f => !replayable f.code) = true ∧ (runValues runs).length = 16 ∧
      ∀ x ∈ runLog runs, ∀ a, x.gate = some a → Claims.noPartials raying a := by
  refine ⟨issuable (by decide +kernel), fun k hk => issuable ?_, ⟨by decide +kernel, by decide +kernel⟩, by decide +kernel, by decide +kernel,
    by decide +kernel, logCalm (by decide +kernel)⟩
  revert k; decide +kernel
/-- clfetch of the cluster at 0x20040, and of one outside the capability. -/
def clE : Enc := xe 6 0 8 x0
theorem witness_ClusterFetch : Issuable (.clfetch clE) drawn ∧ lanesOf (issueMask drawn clE) (issuing drawn).width ≠ [] ∧ Claims.Free drawn ∧
    Claims.usable drawn (rdY (issuing drawn) 0) [0, 1, 2, 3, 4, 5, 6, 8, 9] pmLoad 0x20040 64 ∧ (rdS (issuing drawn) 6).toNat * 64 = 0x20040 ∧
    (let runs := threadRuns (fun u => clThread ⟨issued drawn, 0, 1, some 0, []⟩ (rdY (issuing drawn) 0) 0x20040 u) (List.range 16);
      laneStops (runStops runs) = none ∧ (runValues runs).length = 16 ∧ ∀ x ∈ runLog runs, ∀ a, x.gate = some a → Claims.noPartials drawn a) ∧
    Issuable (.clfetch (xe 0 0 8 x0)) drawn ∧ (rdS (issuing drawn) 0).toNat = 0 ∧ Issuable (.clfetch { clE with g := 2 }) drawn ∧
    lanesOf (issueMask drawn { clE with g := 2 }) (issuing drawn).width = [] := by
  refine ⟨issuable (by decide +kernel), by decide +kernel, ⟨by decide +kernel, by decide +kernel⟩, ?_, by decide +kernel,
    ⟨by decide +kernel, by decide +kernel, logCalm (by decide +kernel)⟩, issuable (by decide +kernel), by decide +kernel,
    issuable (by decide +kernel), by decide +kernel⟩
  unfold Claims.usable Claims.supervisor
  decide +kernel
/-- A cluster of three vertices that lie past the capability's end. -/
def farVertices : State := ((drawn.setByte 0x2004D 3).setByte 0x2004E 1).setByte 0x20059 0x10
theorem witness_ClusterFetch_bounds : Issuable (.clfetch clE) farVertices ∧
    Claims.usable farVertices (rdY (issuing farVertices) 0) [0, 1, 2, 3, 4, 5, 6, 8, 9] pmLoad 0x20040 64 ∧
    stopBounds (runStops (threadRuns (fun u => clThread ⟨issued farVertices, 0, 1, some 0, []⟩ (rdY (issuing farVertices) 0) 0x20040 u) (List.range 16))) =
      [(0, 0x21000), (1, 0x21006), (2, 0x2100C)] := by
  refine ⟨issuable (by decide +kernel), ?_, by decide +kernel⟩
  unfold Claims.usable Claims.supervisor
  decide +kernel
theorem witness_Marks : Issuable (.dmark (pe 0 0 0)) drawn ∧ drawn.isTrack (issuing drawn).launch = false :=
  ⟨issuable (by decide +kernel), by decide +kernel⟩

/-! Single steps of the same. -/

theorem step_grec : sAfter (.grec (pe 0 0 4)) graphed 4 = 2 ∧
    ((run (.grec (pe 0 0 4)) fullPool).pack 0).wait.kind = .record ∧ (rdS ((run (.grec (xe 0 0 4 { x0 with mod := 1 })) fullPool).pack 0) 4).toNat = 2 ^ 64 - 1 := by
  decide +kernel
theorem step_gpool : sAfter (.gpool (pe 0 0 4)) graphed 4 = 2 * 2 ^ 24 + 2 ∧ sAfter (.gpool (xe 8 0 4 { x0 with mod := 1 })) graphed 4 = 5 * 2 ^ 32 + 1 := by
  decide +kernel
theorem step_gemit : let t := run (.gemit (pe 8 7 0)) nearly
    (t.launch 0).graph.nodes[1]? = some ⟨0, 3, 0, [], 6, 0⟩ ∧ ((t.launch 0).graph.ready.map fun x => x.2) = [(1, [1, 2, 0])] ∧
    ((t.launch 0).graph.record 1).state = .delivered ∧ ((run (.gemit (pe 8 7 0)) graphed).launch 0).graph.ready = [] := by decide +kernel
theorem step_graph_traps : trapAfter (.gfree (pe 0 9 0)) graphed = (13 * 256 + clsIllop, 9, true) ∧
    trapAfter (.gfree (pe 0 8 0)) graphed = (14 * 256 + clsIllop, 1, true) ∧ trapAfter (.gemit (pe 9 7 0)) graphed = (13 * 256 + clsIllop, 9, true) ∧
    (trapAfter (.grec (pe 0 0 4)) mapped).1 = 13 * 256 + clsIllop ∧ (trapAfter (.grec (pe 0 0 4)) strictly).1 = 2 * 256 + clsRace := by decide +kernel
theorem step_lnch : let t := run (.lnch (pe 8 0 1)) graphed
    t.devLaunches.map (·.header) = [0x20000] ∧ rdP (t.pack 0) 1 0 = true := by decide +kernel
theorem step_cutsel : ((run (.cutsel (xe 16 0 4 x0)) drawn).pack 0).geo = 1 ∧ ((run (.rsub (xe 20 0 0 x0)) drawn).pack 0).geo = 1 ∧
    (run (.rwait (pe 0 0 0)) (run (.cutsel (xe 16 0 4 x0)) drawn)).stalled = [0] := by decide +kernel
theorem step_validate : let t := run (.cutselComplete 3) validating
    t.geoOp 3 = none ∧ (t.pack 0).geo = 0 := by decide +kernel
theorem step_rayq : Tab.get none ((run (.rayq (xe 0 8 0 x0)) drawn).crew 0).st.rays 5 = some ⟨List.replicate 8 0, rdY (issuing drawn) 0, none, none⟩ ∧
    Tab.get none ((run (.raynx (xe 0 0 8 { x0 with mod := 2 })) raying).crew 0).st.rays 0 = none ∧
    vAfter (.raynx (xe 0 0 8 { x0 with mod := 2 })) raying 8 = 0x7F800000 := by decide +kernel
theorem step_clfetch : vAfter (.clfetch clE) (drawn.setByte 0x2004D 3) 12 = 3 ∧
    trapAfter (.clfetch (xe 0 0 8 x0)) drawn = (5 * 256 + clsCapv, 0, true) := by decide +kernel

/-! ### Witnesses of the events -/

/-- What an existence claim asks of a result. -/
def okB {ε α : Type} : Except ε α → Bool
  | .ok _ => true
  | .error _ => false
theorem okOf {ε α : Type} {x : Except ε α} (h : okB x = true) : ∃ r, x = .ok r := by
  cases x with
  | ok r => exact ⟨r, rfl⟩
  | error e => cases h
theorem someOf {α : Type} {x : Option α} (h : x.isSome = true) : ∃ r, x = some r := Option.isSome_iff_exists.mp h

/-- Pack 0 has a deferred trap; has stalled; waits on page 2 of ASID 1, which has a pending fault; a spill waits on core 0. -/
def deferring : State := withPack fun p => { p with deferred := [⟨clsSusp, 1, 0x10000, 0⟩, ⟨clsXlate, 4, 0x77, 0⟩] }
def idling : State := { bare with stalled := [0] }
def paging : State := { withPack fun p => { p with wait := ⟨.fault 1 2, 4, [⟨3, 1, 0x20010, 2⟩, ⟨5, 1, 0x20020, 2⟩]⟩ } with pendFaults := [⟨0, 1, 2, 2⟩] }
def spilling : State := bare.setSpills 0 [⟨0, 4, [(0, ⟨0, 0, .phys 0x20000, [1, 2, 3, 4], none, false, false, 0, true⟩)]⟩]
theorem may (s : State) (h : ((s.pack 0).live && onCore s (s.pack 0).crew && ((s.launch (s.pack 0).launch).hdr.trap != 0) &&
    !(s.pack 0).save.inHandler) = true) : Claims.mayTrap s 0 := by
  simpa [Claims.mayTrap, and_assoc] using h
/-- iadd.i32 v5, v3, v9 is next, and its two sources have their lines. -/
def lined : State := { State.reset.withCode (encode (.iadd (pe 9 3 5))) with rf := [(0, [⟨0, 9, 0, 1, 1, false⟩, ⟨0, 3, 0, 1, 0, false⟩])] }
theorem witness_PackEvents_line : (lined.pack 0).live = true ∧ onCore lined 0 = true ∧ (nextInstr lined 0).2 = some (.iadd (pe 9 3 5)) ∧
    instrRows (lined.pack 0) (.iadd (pe 9 3 5)) = ([3, 9], [5]) ∧ (∀ x ∈ Tab.get [] lined.rf 0, x.row ≠ 5) ∧
    freeSector (Tab.get [] lined.rf 0) (packQuads (lined.pack 0)).1 (packQuads (lined.pack 0)).2 = some 2 ∧ (lined.pack 1).live = false := by decide +kernel
theorem witness_PackEvents : Claims.mayTrap deferring 0 ∧ (deferring.pack 0).wait.kind = .none ∧ (deferring.pack 0).sel ≠ 0 ∧
    (deferring.pack 0).deferred.length = 2 ∧ Claims.mayTrap idling 0 ∧ idling.wdogLim ≠ 0 ∧ clocksRun idling = true ∧
    (idling.pack 0).wait.kind = .none ∧ Claims.mayTrap paging 0 ∧ (paging.pack 0).wait.kind = .fault 1 2 ∧ (spilling.spillsOf 0).length = 1 ∧ (spilling.crew 0).lost = false ∧
    isbUsed spilling 0 + 1 ≤ isbRoom :=
  ⟨may _ (by decide +kernel), by decide +kernel, by decide +kernel, by decide +kernel, may _ (by decide +kernel), by decide +kernel, by decide +kernel,
    by decide +kernel, may _ (by decide +kernel), by decide +kernel⟩
theorem step_deferred : let q := (run (.deferredTrapDelivery 0) deferring).pack 0
    q.tepc = 0x10000 ∧ q.tcause.toNat = 256 + clsSusp ∧ q.tmask = 0xFFFF ∧ q.save.inHandler = true ∧ q.deferred.length = 1 := by decide +kernel
theorem step_pack_events : (run (.issueStarvation 0) bare).pack 0 = { bare.pack 0 with starved := true } ∧
    ((run (.subsetAgeLimit 0) (withPack fun p => { p with threads := p.threads.zipIdx.map fun x => if x.2 = 3 then { x.1 with age := 1024, pc := 0x10040 } else x.1 })).pack 0).sel = 8 ∧
    ((run (.watchdogExpire 0) idling).pack 0).tcause.toNat = 256 + clsWdog ∧
    Tab.get [] (run (.lineRefill 0 5) lined).rf 0 = ⟨0, 5, 0, 1, 2, false⟩ :: Tab.get [] lined.rf 0 ∧ Tab.get [] (run (.lineRefill 0 7) lined).rf 0 = Tab.get [] lined.rf 0 ∧ ((run (.spillDrain 0) spilling).crew 0).isb.length = 1 ∧
    (run (.spillDrain 0) spilling).spillsOf 0 = [] := by decide +kernel

/-- A record waits for the fault ring, which is enabled at host address 0 with 16 entries. -/
def recording : State := { bare with faultRecs := [List.replicate 32 7], bar0 := { bare.bar0 with fqCtl := 0x24 } }
/-- A crew with a checkpoint; one that is exposed. -/
def checkpointed : State := { (bare.modCrew 0 fun c => { c with ck := c.st, ckPacks := [(0, bare.pack 0)] }).modPack 0 (vs [(4, 9)]) with stalled := [] }
def exposedCrew : State := checkpointed.modCrew 0 fun c => { c with exposed := true }
theorem witness_FaultEvents_walk : (0, bare.crew 0) ∈ bare.crews ∧ onCore bare 0 = true ∧ (bare.crew 0).core = 0 ∧ (bare.launch 0).asid = 1 ∧
    (∃ x, walk bare 1 0x20000 .read 0 = .ok x) ∧ (match walk bare 1 (2 ^ 40) .read 0 with | .error k => k == 1 | _ => false) = true ∧ bare.pendFaults = [] := by
  refine ⟨by decide +kernel, by decide +kernel, by decide +kernel, by decide +kernel, okOf (by decide +kernel), by decide +kernel⟩
theorem witness_FaultEvents_ring : let b := recording.bar0
    recording.faultRecs.length = 1 ∧ b.fqCtl.getLsbD 5 = true ∧ (b.fqWidx - b.fqRidx).toNat < 2 ^ (b.fqCtl.toNat % 32) ∧
    Claims.calmAt recording (2 ^ 50) 32 := by
  refine ⟨by decide +kernel, by decide +kernel, by decide +kernel, by decide +kernel, fun g _ _ => ?_⟩
  have h1 : recording.gather = [] := by decide +kernel
  have h2 : (recording.launches.all fun x => x.2.homeRecs.isEmpty) = true := by decide +kernel
  refine ⟨by simp [h1], fun x hx r hr => ?_⟩
  have := List.all_eq_true.mp h2 x hx
  rw [List.isEmpty_iff] at this
  simp [this] at hr
theorem witness_FaultEvents_answer : (∃ f ∈ paging.pendFaults, f.asid = 1 ∧ f.page = 2) ∧ ¬(∃ f ∈ paging.pendFaults, f.asid = 1 ∧ f.page = 3) ∧
    waitsPage (paging.pack 0) 1 2 = true ∧ Claims.mayTrap paging 0 ∧ (0, paging.pack 0) ∈ paging.packs ∧ paging.packs.length = 1 ∧
    (∀ x ∈ paging.crews, x.2.st.fox.wait = .none) ∧ paging.copies = [] ∧ paging.geos = [] ∧ paging.queues = [] ∧
    (paging.pack 0).wait.faults.filter (fun f => f.asid == 1 && f.va / 65536 == 2) = [⟨3, 1, 0x20010, 2⟩, ⟨5, 1, 0x20020, 2⟩] :=
  ⟨by decide +kernel, by decide +kernel, by decide +kernel, may _ (by decide +kernel), by decide +kernel⟩
theorem witness_FaultEvents_uce : onCore checkpointed 0 = true ∧ (checkpointed.crew 0).lost = false ∧ (checkpointed.crew 0).exposed = false ∧
    (checkpointed.crew 0).slots = [] ∧ ((checkpointed.crew 0).ckPacks.map (·.1)).Nodup ∧
    (∀ p ∈ (checkpointed.crew 0).packs, (checkpointed.pack p).denImage = []) ∧ (exposedCrew.crew 0).exposed = true := by decide +kernel
/-- Two queries of pack 0 wait for the page. -/
def rayPaging : State := (paging.modPack 0 fun p => { p with wait := { p.wait with kind := .ray 1 2 } }).modSt 0 fun c =>
  { c with rays := [(3, some ⟨[], Cap.null, none, none⟩), (4, some ⟨[], Cap.null, none, none⟩)] }
theorem witness_FaultEvents_ray : Claims.mayTrap rayPaging 0 ∧ waitsPage (rayPaging.pack 0) 1 2 = true ∧ (rayPaging.pack 0).wait.kind = .ray 1 2 ∧
    (rayPaging.pack 0).wait.faults.filter (fun f => f.asid == 1 && f.va / 65536 == 2) = [⟨3, 1, 0x20010, 2⟩, ⟨5, 1, 0x20020, 2⟩] ∧
    rayPaging.copies = [] ∧ rayPaging.geos = [] ∧ rayPaging.queues = [] :=
  ⟨may _ (by decide +kernel), by decide +kernel⟩
theorem step_fault_events : (Tab.get [] (run (.translationWalk 0 1 0x20000 0 0) bare).utlb 0).length = 1 ∧
    (run (.translationWalk 0 1 (2 ^ 40) 0 0) bare).pendFaults = [⟨0, 1, 2 ^ 24, 1⟩] ∧
    (run .faultRecordPost recording).bar0.fqWidx = 1 ∧ (run .faultRecordPost recording).byte (2 ^ 50 + 31) = 7 ∧
    ((run (.faultRetry 1 2) paging).pack 0).wait = Wait.none ∧ (run (.faultRetry 1 2) paging).pendFaults = [] := by decide +kernel
theorem step_fatal : let q := (run (.faultFatal 1 2) paging).pack 0
    q.tcause.toNat = 2 * 256 + clsXlate ∧ q.tval = 0x20010 ∧ q.tmask = 0x28 := by decide +kernel
/-- The queries that met the fault end, and the other stays (14 R438). -/
theorem step_fatal_ray : let t := run (.faultFatal 1 2) rayPaging
    (t.pack 0).wait = Wait.none ∧ (t.pack 0).save.inHandler = false ∧ Tab.get none (t.crew 0).st.rays 3 = none ∧
    (Tab.get none (t.crew 0).st.rays 4).isSome = true := by decide +kernel
/-- A corrected array error of quay 3 counts; one that is not poisons granule 0x800; one in the den aborts with WHY 5 (08 R243; 15 R459, R462). -/
theorem step_array_errors : (run (.uceConsume 0 (16 * 3 + 8)) bare).counters = (bare.count ctrEccCe 3 1).counters ∧
    (run (.uceConsume 0 (16 * 0x800 + 9)) bare).poisoned 0x20010 = true ∧
    ((run (.uceConsume 0 6) checkpointed).events.headD []).getD 51 0 = 5 := by decide +kernel
theorem step_uce : rdV ((run (.uceConsume 0 1) checkpointed).pack 0) 4 0 = 0 ∧ ((run (.uceConsume 0 1) checkpointed).pack 0).sflag = 0x200 ∧
    ((run (.uceConsume 0 1) exposedCrew).crew 0).live = false ∧ (run (.uceConsume 0 1) exposedCrew).events.length = 1 ∧
    ((run (.uceConsume 0 1) exposedCrew).events.headD []).getD 51 0 = 3 := by decide +kernel

/-- A waiter of a free mooring; a monitor that has been hit; one on the re-poll list; a gathered partial; an ended subscription. -/
def granting : State := ((mooredBy [] .free).modLaunch 0 fun l => { l with moors := [(7, some { Mooring.blank with waiters := [⟨0, .plainX, 0⟩, ⟨3, .plainSh, 0⟩] })] }).modPack 0
  fun p => { p with wait := ⟨.acq 7, 4, []⟩ }
def monitored (poll hit : Bool) : State := mapped.modPack 0 fun p => { p with wait := ⟨.monitor, 4, []⟩, monitor := some ⟨2, 1, 0x20000, 4, 0, false, 0x5A, 0xFFFFFFFF, poll, hit⟩ }
def gathered : State := { mapped with gather := [(0, [⟨1, 0, 0x800, 0, 7, [(0, 5)], [[0]], 0, []⟩])] }
def endedSub : State := subbed.setSub 9 (some ⟨0, 1, 0, 5, 0x20000, 0x20000, 4, 0x40, 0, 0, 0, none, none, false, true, 0, false⟩)
/-- 20 lane requests and 10 copy requests wait at quay 3. -/
def crowded : State := { bare with waiting := [(3, [20, 0, 10, 0, 0, 0, 0])] }
theorem witness_QuayEvents : launchMoor (granting.launch 0) 7 = some { Mooring.blank with waiters := [⟨0, .plainX, 0⟩, ⟨3, .plainSh, 0⟩] } ∧
    onCore granting (granting.pack 0).crew = true ∧ (∃ u < (granting.pack 0).width, (packThread (granting.pack 0) u).exited = false) ∧
    ((monitored false true).pack 0).monitor.isSome = true ∧ ((monitored false true).pack 0).live = true ∧ (monitored true false).packs.map (·.1) = [0] ∧
    calmB (monitored true false) (0x20000 / 64) = true ∧ (∀ y ∈ gathered.launches, y.2.homeRecs = []) ∧ (gathered.launch 0).hdr.dmode = 0 ∧
    reachable gathered 0x20000 = true ∧ gathered.poisoned 0x20000 = false ∧ mapped.gather = [] ∧
    (endedSub.sub 9).map (fun b => (b.ending, b.flight, b.pending)) = some (true, none, none) ∧ (Tab.get [] crowded.waiting 3).length = 7 :=
  ⟨by decide +kernel, by decide +kernel, ⟨0, by decide +kernel⟩, by decide +kernel⟩
theorem step_quay_events : ((run (.mooringGrant 0 7) granting).pack 0).wait = Wait.none ∧
    (launchMoor ((run (.mooringGrant 0 7) granting).launch 0) 7).map (fun m => (m.holders, m.waiters.length)) = some ([0], 1) ∧
    ((run (.monitorWake 0) (monitored false true)).pack 0).wait.kind = .none ∧ ((run (.monitorWake 0) (monitored false true)).pack 0).monitor = none ∧
    ((run (.repoll 2) (monitored true false)).pack 0).monitor = none ∧ (run (.recall 0x800) gathered).byte 0x20000 = 0x5F ∧
    (run (.recall 0x800) gathered).gather = [] ∧ ((run (.unstandAck 9) endedSub).sub 9).map (·.acked) = some true ∧
    (run (.quayGrantWindow 3) crowded).waiting = [] ∧ Tab.get [] (run (.quayGrantWindow 3) { crowded with waiting := [(3, [90, 0, 10, 0, 0, 0, 0])] }).waiting 3 =
      [36, 0, 0, 0, 0, 0, 0] := by
  decide +kernel

/-- A reduce-copy with its elements staged, a queue copy with two entries staged, a copy whose follow-on waits, and a submission in flight. -/
def staged : State := copying.setCopy 1 ⟨true, 0, 0, 0, .reduce 0 9, Claims.descriptor copying copyE, mkCap 0x20000 0x20000 0x21000 allPerm 0 0,
  mkCap 0x20100 0x20000 0x21000 allPerm 0 0, Cap.null, 1, .staged, false, List.replicate 8 [1, 0, 0, 0], none, 1, [], []⟩
def pushing : State := copying.setCopy 1 ⟨true, 0, 0, 0, .queue 0 true, Claims.descriptor copying copyE, mkCap 0x20000 0x20000 0x21000 allPerm 0 0,
  Cap.null, Cap.null, 1, .staged, false, [List.replicate 64 1, []], none, 1, [], []⟩
def follow0 : MatOp := ⟨0, 0, 0x10000, .mzero 3, [3], [], 0, some 1, 2⟩
def handing : State := flying.setCopy 1 { flying.copyAt 1 with phase := .follow, follow := some follow0 }
def rastering : State := (drawn.modGang 0 fun g => { g with spm2 := { g.spm2 with size := 65536 } }).setGeo 3 (some
  ⟨0, 0, 0, 1, .rsub (mkCap 0 0 4096 allPerm 3 0) (rdY (issuing drawn) 0) (rdY (issuing drawn) 0) [0, 0x400020004, 0, 0] false false, none, 3⟩)
theorem witness_EngineEvents : (flying.copyAt 1).live = true ∧ (flying.copyAt 1).phase = .moving ∧ onCore flying 0 = true ∧
    (handing.copyAt 1).phase = .follow ∧ followTrap handing 0 follow0.kind = none ∧ (tileAt handing 0 0).fill = 0 ∧ (handing.seq 0).length < 16 ∧
    (pushing.copyAt 1).phase = .staged ∧ (queueOf pushing 0 0).entries.length < 32 ∧ (pushing.copies.filter fun x => x.2.live).length = 1 ∧
    (staged.copyAt 1).phase = .staged ∧ (staged.copyAt 1).stage.length = (staged.copyAt 1).count ∧ (staged.copyAt 1).count ≤ 4096 ∧ staged.uceAt 0x20100 = none ∧ dDstSize (staged.copyAt 1).desc = 4 ∧
    (∀ j < 8, (copyAtPlace staged (staged.copyAt 1) (staged.copyAt 1).dst true ((staged.copyAt 1).da ((staged.copyAt 1).idx j))).loc = .phys (0x20100 + 4 * j) ∧
      copyGoes staged (staged.copyAt 1) (staged.copyAt 1).dst true ((staged.copyAt 1).da ((staged.copyAt 1).idx j)) = true) := by decide +kernel
def removed : State := flying.setCopy 1 { flying.copyAt 1 with replayed := true }
theorem witness_EngineEvents_again : (removed.copyAt 1).live = true ∧ (removed.copyAt 1).phase = .moving ∧ (removed.copyAt 1).replayed = true ∧
    onCore removed 0 = true := by decide +kernel
theorem witness_EngineEvents_step : let s := matrixed.setSeq 0 [⟨0, 0, 0x10000, .mma 0 1 0 1 1 0 0 none false group0 3, [0], [1], 0, none, 1⟩]
    opSteps s ⟨0, 0, 0x10000, .mma 0 1 0 1 1 0 0 none false group0 3, [0], [1], 0, none, 1⟩ = 1 := by decide +kernel
theorem witness_EngineEvents_raster : ∃ o log, (rasterAll ⟨rastering, 0, 1, none, []⟩ (rdY (issuing drawn) 0) (rdY (issuing drawn) 0) 4 2 0 false false [] ⟨[], 0, 0, 0⟩).run.run [] =
    (.ok o, log) ∧ o.frags = [] ∧ onCore rastering 0 = true ∧ (rastering.pack 0).live = true ∧
    (rastering.geoOp 3).map (engineHead rastering) = some true :=
  ⟨_, _, rfl, rfl, by decide +kernel⟩
theorem step_engine_events : (run (.copyAbandon 1 0) flying).copyAt 1 = { flying.copyAt 1 with replayed := true } ∧
    (run (.followOnHandover 1) handing).seq 0 = [follow0] ∧ (run (.cpyrApply 1) staged).byte 0x20104 = 1 ∧ (run (.cpyrApply 1) staged).byte 0x2011C = 1 ∧
    (run (.cpyrApply 1) staged).copyAt 1 = Copy.blank ∧ ((run (.cpyqPush 1) pushing).copyAt 1).stage = [[]] ∧
    (queueOf (run (.cpyqPush 1) pushing) 0 0).entries = [.data (List.replicate 16 0x1010101)] ∧ (run (.rsubComplete 3) rastering).geoOp 3 = none := by
  decide +kernel

/-- The crew's barrier b0 is due: its one pack waits at it. -/
def atB0 : State := (bare.modSt 0 fun c => crewSetBar c 0 { Barrier.blank with exp := 1, arr := 1, waits := [(0, 0)] }).modPack 0 fun p => { p with wait := ⟨.barrier 0, 4, []⟩ }
/-- A header at 0x50000, and queue 5 with a slot, whose ring at 0x40000 holds a packet of a type; 0x60000 is its completion word. -/
def headered : State :=
  (((((bare.wrBytes 0x50000 (leBytes 0x10000 8 ++ leBytes 0x10000 8 ++ leBytes 4096 4 ++ [4, 1, 4])).wrBytes 0x5001C [1, 0xFF]).wrBytes 0x50030
    [1, 0, 1, 0, 1, 0, 3, 0, 1]).wrBytes 0x50040 [16]).setQueue 5 { Queue.blank with
      enabled := true, slot := true, base := 0x40000, log2n := 4, asid := 1, prio := 2, ctxsz := 2 ^ 21, widx := 1 })
def ringed (w : List Nat) : State := headered.wrBytes 0x40000 (w.flatMap fun x => leBytes x 8)
def launching : State := headered.modQueue 5 fun q => { q with ridx := 1, pkts := [⟨0, 0x60000, .start false 0x50000⟩] }
def loadedReq : LaunchReq := ⟨1, 0x50000, false, some (2 ^ 21)⟩
theorem witness_QueueEvents_packets : ∀ w ∈ [[1, 0x50000, 0x60000], [2, 0x50000, 0x60000], [3, 0x20000, 0x20100, 4, 0], [4, 0x60000, 5, 0], [5, 0x60000, 0, 0, 0],
    [6, 77], [9]], (canTake ((ringed w).queue 5) = true ∧ okB (readPkt (ringed w) 5) = true ∧ ((ringed w).queue 5).pkts = [] ∧
      (match readPkt (ringed w) 5 with | .ok x => pktBad x.2 == decide (w = [9]) && pktType x.2 == w.headD 0 | _ => false) = true) := by decide +kernel
theorem witness_QueueEvents_start : ∃ p h s1 x, pktStart (launching.queue 5) false = some (p, h) ∧ loadLaunch launching loadedReq = .ok (s1, x) ∧ x.hdr.dmode = 0 ∧
    (launching.queue 5).stall = none ∧ (launching.queue 5).writes = [] ∧ (launching.queue 5).halt = false := by
  obtain ⟨⟨s1, x⟩, h⟩ := okOf (x := loadLaunch launching loadedReq) (by decide +kernel)
  refine ⟨_, _, s1, x, rfl, h, ?_, by decide +kernel⟩
  have : (match loadLaunch launching loadedReq with | .ok y => y.2.hdr.dmode == 0 | _ => false) = true := by decide +kernel
  rw [h] at this
  simpa using this
theorem witness_QueueEvents_reject : (match loadLaunch (launching.setByte 0x50014 9) loadedReq with | .error (.reject k) => k == 1 | _ => false) = true ∧
    (launching.queue 5).pkts.find? (fun y => y.idx == 0) = some ⟨0, 0x60000, .start false 0x50000⟩ ∧
    (∃ n, firstPending (headered.modQueue 5 fun q => { q with slot := false }) = some n) ∧
    queuePending (headered.modQueue 5 fun q => { q with slot := false }) 5 = true ∧ (headered.queue 5).slot = true :=
  ⟨by decide +kernel, by decide +kernel, ⟨5, by decide +kernel⟩, by decide +kernel⟩
def held (w : Work) (done : Nat) : State := headered.modQueue 5 fun q => { q with ridx := 1, pkts := [⟨0, done, w⟩] }
theorem witness_QueueEvents_effects : okB (walk (held (.signal 0x60000 5 2) 0) 1 0x60000 .write spaceAny) = true ∧
    okB (devRead (held (.wait 0x60000 0 0xFF 0 false) 0) 1 0x60000 8) = true ∧ okB (devRead (held (.copy 0x50000 0x60000 8 false) 0) 1 0x50000 8) = true ∧
    calmB headered (0x60000 / 64) = true ∧ reachable headered 0x60000 = true := by decide +kernel
/-- A slot's queue that leaves it for queue 6, with no crew left. -/
def leavingQ : State := (headered.modQueue 5 fun q => { q with leaving := true, taker := 6 }).setQueue 6 { headered.queue 5 with slot := false }
/-- Queue 5 is pending with priority 1, and 32 others of priority `n`, which have held their slots for 200 µs, hold every slot. -/
def crammed (n : Nat) : State := let s := headered.modQueue 5 fun q => { q with slot := false, prio := 1 }
  { s with queues := s.queues ++ (List.range 32).map fun i => (100 + i, { headered.queue 5 with slot := true, slotAged := true, slotOrder := (i + 7) % 32, prio := n }) }
theorem witness_QueueEvents_rules : ∀ n ∈ [0, 1], firstPending (crammed n) = some 5 ∧ ((crammed n).queues.filter fun x => x.2.slot).length = 32 ∧
    (∀ y ∈ (crammed n).queues, ¬(y.2.slot = true ∧ y.2.leaving = true ∧ y.2.taker = 5)) ∧ effPrio ((crammed n).queue 5) = 1 ∧
    Claims.loses (crammed n) 125 ((crammed n).queue 125) 1 ∧ queueCrews (crammed n) 125 = [] := by
  simp only [Claims.loses, Claims.loser]; decide +kernel
theorem step_rules : ∀ n ∈ [0, 1], let t := run (.slotGrant 5) (crammed n)
    (t.queue 5).slot = true ∧ (t.queue 125).slot = false ∧ (t.queue 124).slot = true := by decide +kernel
theorem witness_QueueEvents_copy : let s := held (.copy 0x50000 0x60000 8 false) 0
    (match devRead s 1 0x50000 8 with
      | .ok x => okB (devWrite x.1 1 0x60000 x.2)
      | .error _ => false) = true ∧
    (s.queue 5).slot = true ∧ (leavingQ.queue 5).slot = true ∧ (leavingQ.queue 5).leaving = true ∧ queuePending leavingQ 6 = true ∧ queueCrews leavingQ 5 = [] := by decide +kernel
theorem step_leaving : ((run (.slotGrant 5) leavingQ).queue 5).slot = false ∧ ((run (.slotGrant 5) leavingQ).queue 6).slot = true ∧ ((run (.slotGrant 5) leavingQ).queue 5).leaving = false := by decide +kernel
theorem step_queue_events : ((run (.notify 5 0 64 3) headered).queue 5).widx = 3 ∧ ((run (.notify 5 0 64 40) headered).queue 5).errc = 1 ∧
    ((run (.haltClear 5) headered).queue 5).halt = false ∧ ((run (.mark 5) (ringed [6, 77])).queue 5).marks = [77] ∧
    ((run (.badPacket 5) (ringed [9])).queue 5).errc = 2 ∧ ((run (.copy 5) (ringed [3, 0x20000, 0x20100, 4, 0])).queue 5).pkts.length = 1 ∧
    ((run (.wait 5) (ringed [5, 0x60000, 0, 0, 0])).queue 5).pkts = [⟨0, 0, .wait 0x60000 0 0 0 false⟩] ∧
    (run (.signal 5) (ringed [4, 0x60000, 5, 0])).byte 0x60000 = 5 := by decide +kernel
theorem step_queue_effects : (run (.signal 5) ((held (.signal 0x60000 5 2) 0).setByte 0x60000 3)).byte 0x60000 = 8 ∧
    ((run (.waitComplete 5) (held (.wait 0x60000 0 0xFF 0 false) 0)).queue 5).pkts = [] ∧
    run (.waitComplete 5) (held (.wait 0x60000 1 0xFF 0 false) 0) = held (.wait 0x60000 1 0xFF 0 false) 0 ∧
    (run (.copyPacketComplete 5 0) (held (.copy 0x50010 0x60000 8 false) 0x60010)).byte 0x60001 = 0x10 ∧
    (run (.copyPacketComplete 5 0) (held (.copy 0x50010 0x60000 8 false) 0x60010)).byte 0x60010 = 1 ∧
    ((run (.slotGrant 5) (headered.modQueue 5 fun q => { q with slot := false })).queue 5).slot = true ∧
    ((run (.priorityAgeing 5) (headered.modQueue 5 fun q => { q with slot := false })).queue 5).aged = 1 ∧
    ((run (.slotSliceExpire 5) headered).queue 5).slotAged = true := by decide +kernel
/-- The launch that the packet starts, and its first crew placed. -/
def launched : State := run (.launch 5) launching
theorem step_launch : let l := launched.launch launching.fresh
    l.live = true ∧ l.asid = 1 ∧ l.prio = 0 ∧ l.queue = 5 ∧ l.hdr.entry = 0x10000 ∧
    ((run (.launch 5) (launching.setByte 0x50014 9)).queue 5).errc = 3 ∧ (run (.launch 5) (launching.setByte 0x50014 9)).byte 0x60001 = 1 ∧
    (run (.launch 5) (launching.setByte 0x50014 9)).byte 0x60000 = 2 := by decide +kernel

/-- Swapped-out and pending states of the placed crew of bare, with context blocks for its pack. -/
def waitingCrew : State := headered.modPack 0 fun p => { p with wait := ⟨.monitor, 4, []⟩ }
def preempting : State := bare.modCrew 0 fun c => { c with preempt := true }
def swapped : State := run (.preemptWindowExpire 0) preempting
def quantumed : State := (bare.modLaunch 0 fun l => { l with hdr := { l.hdr with quantum := 1 } }).modGang 0 fun g => { g with issues := 65536 }
theorem witness_CrewEvents : checkpointDue atB0 0 = true ∧ (atB0.launch (atB0.crew 0).launch).hdr.dmode = 0 ∧ (atB0.crew 0).isb = [] ∧
    (atB0.crew 0).preempt = false ∧ (atB0.crew 0).packs = [0] ∧ (atB0.pack 0).crew = 0 ∧ (atB0.pack 0).launch = (atB0.crew 0).launch ∧ atB0.spillsOf 0 = [] ∧
    (∃ u < (atB0.pack 0).width, (packThread (atB0.pack 0) u).exited = false) ∧ checkpointDue bare 0 = false ∧ bare.isTrack 0 = false := by
  decide +kernel
theorem witness_CrewEvents_place : swappedFirst launched (launched.launch launching.fresh).prio 0 = false ∧ (launched.launch launching.fresh).hdr.dmode = 0 ∧
    (launched.launch launching.fresh).track.replay = false ∧ (launched.launch launching.fresh).track.pendDivg = none ∧
    nextCrews (launched.launch launching.fresh) = some ([0], 0, []) ∧ (placeNext launched launching.fresh).isSome = true := by decide +kernel
theorem witness_CrewEvents_stop : preempting.isTrack 0 = false ∧ canStop preempting 0 = true ∧ (preempting.crew 0).core < 1024 ∧ (preempting.crew 0).preempt = true ∧
    (preempting.launch 0).track.replay = false ∧ imageFault preempting 0 .write = none ∧ preempting.spillsOf 0 = [] ∧
    returnCrews swapped 0 = [0] ∧ (swapped.pack 0).wait.kind = .none ∧ (returnNow (swapped.modLaunch 0 fun l => { l with queue := 1024 }) 0).isSome = true ∧
    (quantumed.gang 0).live = true ∧ (quantumed.gang 0).cluster = some 0 ∧ quantumDue quantumed 0 = true := by decide +kernel
/-- A replay of a Track launch, at whose gate of quay 3 the pack waits. -/
def gated : State := (bare.modLaunch 0 fun l => { l with hdr := { l.hdr with dmode := 1 }, track := { l.track with replay := true } }).modPack 0 fun p =>
  { p with wait := ⟨.gate [3], 4, []⟩ }
theorem witness_CrewEvents_gate : gated.isTrack 0 = true ∧ (gated.launch 0).track.replay = true ∧ gated.crews.map (·.1) = [0] ∧
    (gated.crew 0).packs = [0] ∧ (gated.pack 0).live = true ∧ gateShut gated 0 (gated.pack 0).lin 3 = false := by decide +kernel
theorem step_crew_events : ((run (.checkpoint 0) atB0).crew 0).ckPacks.map (·.1) = [0] ∧ (barOf (run (.checkpoint 0) atB0) 0 0).cmp = 1 ∧
    ((run (.checkpoint 0) atB0).pack 0).wait = Wait.none ∧ (swapped.crew 0).phase = .pending ∧ (swapped.gang 0).cluster = none ∧
    ((run (.crewReturn 0) (swapped.modLaunch 0 fun l => { l with queue := 1024 })).crew 0).phase = .placed ∧
    ((run (.quantumEnd 0) quantumed).gang 0).issues = 0 ∧ run (.gateAdmit 0 3) bare = bare := by decide +kernel
theorem step_place : ((run (.crewPlace launching.fresh) launched).crews.map fun x => (x.2.launch, x.2.core, x.2.packs.length)) = [(0, 0, 1), (1, 0, 1)] ∧
    ((run (.crewPlace launching.fresh) launched).packs.map fun x => (x.2.width, packPc x.2)) = [(16, 0x10000), (16, 0x10000)] := by decide +kernel

/-- A launch of queue 5, its only packet, with no crew left; a device launch; an open batch. -/
def finishing : State := { headered with crews := [] }.modQueue 5 (fun q => { q with ridx := 1, pkts := [⟨0, 0x60001, .launch 0⟩] }) |>.modLaunch 0 fun l =>
  { l with origin := .packet 5 0 }
def deviced : State := { headered with devLaunches := [⟨5, 1, 0x50000, 0, 2, 0, false, none⟩] }
theorem witness_LaunchEvents : (finishing.launch 0).live = true ∧ (finishing.launch 0).graph.present = false ∧ (finishing.launch 0).gangs ≤ (finishing.launch 0).nextGang ∧
    finishing.crews = [] ∧ finishing.gather = [] ∧ (finishing.launch 0).homeRecs = [] ∧ (finishing.launch 0).hdr.dmode = 0 ∧
    (finishing.queue 5).writes = [] ∧ okB (walk finishing 1 0x60000 .write spaceAny) = true ∧ (nextDevice deviced).map (·.header) = some 0x50000 ∧
    okB (loadLaunch deviced ⟨1, 0x50000, false, some (deviced.queue 5).ctxsz⟩) = true ∧ (graphed.launch 0).live = true ∧
    (graphed.launch 0).graph.nodes[1]? = some ⟨0, 3, 0, [1], 5, 0⟩ ∧ graphQuiet (graphed.modPack 0 fun p => { p with wait := ⟨.record, 4, []⟩ }) 0 = true := by
  decide +kernel
theorem step_launch_events : ((run (.launchComplete 0) finishing).launch 0).live = false ∧ ((run (.launchComplete 0) finishing).queue 5).pkts = [] ∧
    (run .deviceLaunchStart deviced).devLaunches.map (·.id) = [some 1] ∧
    (((run (.batchTimeout 0 1) graphed).launch 0).graph.ready.map fun x => x.2) = [(1, [1])] ∧
    (((run (.batchTimeout 0 1) graphed).launch 0).graph.record 1).state = .delivered ∧ run (.launchComplete 0) bare = bare := by decide +kernel

/-- The management ring at host address 0 holds a command. -/
def commanded (w : List Nat) : State :=
  ({ bare with bar0 := { bare.bar0 with mqCtl := 0x24, mqWidx := 1, rdtBase := 0x70000, eqCtl := 0x24, eqBase := 0x1000 } } : State).wrBytes (2 ^ 50) (w.flatMap fun x => leBytes x 8)
theorem witness_CommandEvents : ∀ w ∈ [[6 + 2 ^ 32 * 9, 2000], [1, 1, 0x20000, 64], [2, 5], [3, 0x50000, 1], [4, 0x50000, 0x3000, 10], [5, 0x3000, 0x4000, 0x5000], [7, 0x3000],
    [8, 5, 1, 0], [8, 5, 2, 0], [99]], (commanded w).cmd = none ∧ (commanded w).gather = [] ∧ (∀ x ∈ (commanded w).launches, x.2.homeRecs = []) ∧
      (match peekCmd (commanded w) with | some b => cmdBad b == decide (w = [99]) && cmdOp b == w.headD 0 % 2 ^ 32 | none => false) = true := by decide +kernel
theorem step_command_events : (run .setCap (commanded [6 + 2 ^ 32 * 9, 2000])).power.cap = 2000 ∧
    (run .setCap (commanded [6 + 2 ^ 32 * 9, 2000])).events = [leBytes 1 1 ++ leBytes 0 3 ++ leBytes 9 4 ++ leBytes 0 8 ++ leBytes 0 16 ++ List.replicate 32 0] ∧
    (run .setCap (commanded [6, 20])).power.cap = 3000 ∧ (run .badCommand (commanded [99])).bar0.mqRidx = 1 ∧ (run .badCommand (commanded [99])).events.length = 1 ∧
    (Tab.get [] (run .invalidate { commanded [1, 1, 0, 0] with utlb := [(0, [⟨1, 0, 2, 0xF⟩, ⟨2, 0, 2, 0xF⟩])] }).utlb 0).map (·.asid) = [2] ∧
    ((run .preempt (commanded [2, 0])).crew 0).preempt = true ∧
    ((run .queueEnable ((commanded [8, 5, 1, 7]).wrBytes 0x70140 (leBytes 0x40000 8 ++ [4, 2, 1, 0, 1]))).queue 5).ridx = 7 ∧
    ((run .queueEnable (commanded [8, 5, 1, 7])).queue 5).errc = 5 ∧ (run .queueDisable (commanded [8, 5, 2, 0])).events.length = 1 ∧
    (run .eventPost { commanded [] with events := [List.replicate 64 3] }).byte (2 ^ 50 + 0x1003) = 3 := by decide +kernel
theorem step_launchSv : let s := headered.wrBytes (2 ^ 50) ([3, 0x50000, 1].flatMap fun x => leBytes x 8)
    let t := run .launchSv { s with bar0 := { s.bar0 with mqCtl := 0x24, mqWidx := 1 } }
    (t.launch headered.fresh).supervisor = true ∧ (t.launch headered.fresh).prio = 3 := by decide +kernel

/-- A link port that has failed seven replays; a peer's requests. -/
def linked : State := { bare with ports := [(2, ⟨true, 4, 7, false⟩)] }
def request (op : LinkOp) : LinkReq := ⟨op, 7, 4, 0x20000, 5, 0, false⟩
theorem witness_PlatformEvents : (portAt linked 2).up = true ∧ (portAt bare 2).up = false ∧ bare.bar0.ready = true ∧ reachable bare 0x20000 = true ∧
    calmB bare (0x20000 / 64) = true ∧ bare.uceAt 0x20000 = none ∧ typeBits 7 = 8 * 4 := by decide +kernel
theorem step_platform_events : (run (.powerOnReset 0 [(3, 17)] 0x100000 []) bare).bar0.asidt = 0x100000 ∧ (run (.powerOnReset 0 [(3, 17)] 0x100000 []) bare).packs = [] ∧
    (run (.powerOnReset 3 [] 0x100000 []) bare).bar0.ready = false ∧ (run .functionLevelReset linked).ports = linked.ports ∧
    (run .functionLevelReset linked).crews = [] ∧ bar0Read (run (.registerWrite 0x208 8 0xFFFF) bare) 0x208 8 = 0x3F ∧
    bar0Read (run (.registerWrite 0x210 8 0xFFFF) bare) 0x210 8 = 0 ∧ (run (.powerCapWindow 3100) bare).power.level = 1 ∧ (run (.powerOnReset 0 [(3, 17)] 0x100000 []) bare).tierTwo = 16 ∧
    (run .thermalTrip bare).power.therm = true ∧ portAt (run (.flitReplay 2 false) linked) 2 = Port.down ∧
    (portAt (run (.flitReplay 2 true) linked) 2).fails = 0 ∧ (run (.linkRequest (request .write)) bare).byte 0x20000 = 5 ∧
    (run (.linkRequest (request (.red 0))) (bare.setByte 0x20000 3)).byte 0x20000 = 8 ∧ (run (.linkRequest (request .read)) bare).mem = bare.mem ∧
    (run (.linkRequest (request (.atom 0))) (bare.setByte 0x20000 3)).linkReply = some (3, false) := by decide +kernel

/-! ### Witnesses of the machine as a whole -/

/-- iadd.i32 v5, v3, v9 stands at the first instruction of the launch. -/
def coded : State := State.reset.withCode (encode (.iadd (pe 9 3 5)))
/-- The word that fetches bring. -/
def fetchedB (s : State) (c : Cand) (i : Instr) : Bool :=
  match fetch (Claims.turning s c) (Claims.turning s c).curCrewId (packPc (Claims.turning s c).curPack) (Claims.turning s c).curPack.sel with
  | .instr j _ => i == j
  | _ => false
theorem fetched {s : State} {c : Cand} {i : Instr} (h : fetchedB s c i = true) : ∃ s2,
    fetch (Claims.turning s c) (Claims.turning s c).curCrewId (packPc (Claims.turning s c).curPack) (Claims.turning s c).curPack.sel = .instr i s2 := by
  unfold fetchedB at h
  split at h
  · rename_i j s2 hj; exact ⟨s2, by rw [hj, beq_iff_eq.mp h]⟩
  · cases h
theorem witness_StepRunsDecoded : ∃ c s2 t, coded.agenda = [] ∧ coded.bar0.ready = true ∧ clocksRun coded = true ∧ coded.tick % 2 = 0 ∧
    chosen coded = some c ∧ (Claims.turning coded c).curPack.deferred = [] ∧
    fetch (Claims.turning coded c) (Claims.turning coded c).curCrewId (packPc (Claims.turning coded c).curPack) (Claims.turning coded c).curPack.sel =
      .instr (.iadd (pe 9 3 5)) s2 ∧ exec (.iadd (pe 9 3 5)) (readyLines (.iadd (pe 9 3 5)) s2) = .next t := by
  obtain ⟨c, hc⟩ := someOf (x := chosen coded) (by decide +kernel)
  have h : (match chosen coded with
      | some c => fetchedB coded c (.iadd (pe 9 3 5)) && (Claims.turning coded c).curPack.deferred.isEmpty
      | none => false) = true := by decide +kernel
  rw [hc, Bool.and_eq_true, List.isEmpty_iff] at h
  obtain ⟨s2, h2⟩ := fetched h.1
  have ht : (match chosen coded with
      | some c => match fetch (Claims.turning coded c) (Claims.turning coded c).curCrewId (packPc (Claims.turning coded c).curPack)
          (Claims.turning coded c).curPack.sel with
        | .instr i s2 => (match exec i (readyLines i s2) with | .next _ => true | _ => false)
        | _ => false
      | none => false) = true := by decide +kernel
  rw [hc] at ht
  simp only [h2] at ht
  split at ht
  · exact ⟨c, s2, _, by decide +kernel, by decide +kernel, by decide +kernel, by decide +kernel, hc, h.2, h2, by assumption⟩
  · cases ht
theorem witness_StepRunsDecoded_agenda : ({ bare with agenda := [.haltClear 5] } : State).agenda = [.haltClear 5] ∧
    clocksRun bare = true ∧ opcodeOf (.haltClear 5) = none ∧ opcodeOf (.exit (pe 0 0 0)) ≠ none ∧
    exec (.haltClear 5) { bare with agenda := [] } = .next (run (.haltClear 5) bare) := by
  refine ⟨rfl, by decide +kernel, by decide +kernel, by decide +kernel, ?_⟩
  have : (match exec (.haltClear 5) { bare with agenda := [] } with | .next t => t == run (.haltClear 5) bare | _ => false) = true := by decide +kernel
  split at this
  · rename_i t ht; rw [ht, beq_iff_eq.mp this]
  · cases this
/-- A thermal trip has stopped the clocks, and a recall is due. -/
def stopped : State := { bare with power := { bare.power with therm := true }, agenda := [.recall 7] }
theorem witness_StepRunsDecoded_stopped : stopped.bar0.ready = true ∧ clocksRun stopped = false ∧ (∀ i ∈ stopped.agenda, alwaysOn i = false) := by
  decide +kernel
theorem witness_StepRunsDecoded_code : WellFormed (.iadd (pe 9 3 5)) = true ∧ (opcodeOf (.iadd (pe 9 3 5))).isSome = true ∧
    Claims.codeAt coded 0 0x10000 (.iadd (pe 9 3 5)) ∧ Tab.get [] coded.utlb (coded.crew 0).core = [] ∧
    Tab.get [] coded.tlb ((coded.crew 0).core / 8) = [] ∧ coded.gather = [] ∧ ∀ x ∈ coded.launches, x.2.homeRecs = [] := by
  refine ⟨by decide +kernel, by decide +kernel, fun j hj => ?_, by decide +kernel⟩
  have hl : (encode (.iadd (pe 9 3 5))).length = 4 := by decide +kernel
  obtain rfl : j = 0 := by omega
  refine ⟨by decide +kernel, by decide +kernel, ?_⟩
  have h : (match walk coded (coded.launch (coded.crew 0).launch).asid (0x10000 + 4 * 0) .fetch 0 with
      | .ok x => (coded.spoiled x.pa).isNone && (List.range 4).all fun k => coded.byte (x.pa + k) == (encode (.iadd (pe 9 3 5))).getD (4 * 0 + k) 0
      | .error _ => false) = true := by decide +kernel
  split at h
  · rename_i x hx
    rw [Bool.and_eq_true, Option.isNone_iff_eq_none, List.all_eq_true] at h
    exact ⟨x, hx, h.1, fun k hk => beq_iff_eq.mp (h.2 k (List.mem_range.mpr hk))⟩
  · cases h
theorem witness_DecodeUndoesEncode : WellFormed (.tdef (xe 10 7 3 { x0 with t := 15, imm := 16 })) = true := by decide +kernel
theorem witness_EncodeUndoesDecode : decode [0x8C, 0x5C, 0x31, 0x24, 7] = some (.iadd (pe 9 3 5), [7]) := by decide +kernel
theorem witness_StepKeepsTables : Safety.tablesWf coded = true ∧ Safety.capInRange coded = true ∧ ∃ t, step coded = .next t := by
  refine ⟨by decide +kernel, by decide +kernel, ?_⟩
  have h : (match step coded with | .next _ => true | _ => false) = true := by decide +kernel
  split at h
  · exact ⟨_, by assumption⟩
  · cases h
theorem witness_ResetState : State.reset.agenda = [] ∧ State.reset.bar0.ready = false ∧ State.reset.bar0.bootErr = 0 := ⟨rfl, rfl, rfl⟩

/-- One step from the placed word adds the registers of every thread (02 R50). -/
theorem step_whole : (match step (coded.modPack 0 (vs [(9, 5), (3, 7)])) with | .next t => rdV (t.pack 0) 5 0 | _ => 0) = 12 := by decide +kernel

end Sys2Proof.Tests
end

section
/-! PROOFS. The events at quays (01 R25, R26; 09 R258; 10 R291, R298, R300, R308): grant windows, grants, the ends of waits, recalls and
acknowledgements. -/

namespace Sys2Proof.Machine

/-! ### Grant windows (01 R25, R26) -/

theorem iter_succ {α : Type} (n : Nat) (f : α → α) (x : α) : iter (n + 1) f x = f (iter n f x) := by
  simp [iter, List.range_succ]

theorem modAt_pred_getD_le (w : List Nat) (k j : Nat) : (modAt (· - 1) w k).getD j 0 ≤ w.getD j 0 := by
  simp only [List.getD_eq_getElem?_getD, modAt_getElem?]
  split
  · cases w[j]? <;> simp
  · exact le_rfl

theorem modAt_pred_sum (w : List Nat) (k : Nat) (h : 0 < w.getD k 0) : (modAt (· - 1) w k).sum = w.sum - 1 := by
  induction w generalizing k with
  | nil => simp at h
  | cons x w ih =>
    cases k with
    | zero => simp only [List.getD_cons_zero] at h; simp only [modAt, List.sum_cons]; omega
    | succ k =>
      have hk : 0 < w.getD k 0 := by simpa using h
      have hs : w.getD k 0 ≤ w.sum := by
        rw [List.getD_eq_getElem?_getD] at hk ⊢
        cases hw : w[k]? with
        | none => simp
        | some y => exact List.single_le_sum (fun _ _ => Nat.zero_le _) y (List.mem_of_getElem? hw)
      simp only [modAt, List.sum_cons, ih k hk]; omega

theorem sum_eq_zero_of_getD (w : List Nat) (h : ∀ j, w.getD j 0 = 0) : w.sum = 0 := by
  refine List.sum_eq_zero fun x hx => ?_
  obtain ⟨j, hj⟩ := List.mem_iff_getElem?.mp hx
  have := h j
  simpa [List.getD_eq_getElem?_getD, hj] using this

/-- A passed grant changes no class, or serves one request of a class that waits. -/
theorem passGrant_cases (c : Nat) (w : List Nat) (hw : w.length ≤ 7) :
    (passGrant c w = w ∧ w.sum = 0) ∨ ∃ k, 0 < w.getD k 0 ∧ passGrant c w = modAt (· - 1) w k := by
  unfold passGrant
  split
  · rename_i k hk
    exact .inr ⟨k, by simpa using List.find?_some hk, rfl⟩
  · rename_i hk
    refine .inl ⟨rfl, sum_eq_zero_of_getD w fun j => ?_⟩
    rw [List.find?_eq_none] at hk
    by_cases hj : j < 7
    · have := hk j (List.mem_map.mpr ⟨(j + 6 * c + 6) % 7, List.mem_range.mpr (Nat.mod_lt _ (by decide)), by omega⟩)
      simpa using this
    · exact List.getD_eq_default _ _ (by omega)

/-- What some passed grants have left of the requests `w`: no class has more, and `n` requests fewer wait. -/
structure Served (w : List Nat) (n : Nat) (r : List Nat) : Prop where
  length : r.length = w.length
  le : ∀ c, r.getD c 0 ≤ w.getD c 0
  sum : r.sum = w.sum - n

theorem Served.refl (w : List Nat) : Served w 0 w := ⟨rfl, fun _ => le_rfl, rfl⟩

theorem Served.passGrant {w r : List Nat} {n : Nat} (h : Served w n r) (hw : w.length ≤ 7) (c : Nat) :
    Served w (n + 1) (passGrant c r) := by
  rcases passGrant_cases c r (h.length ▸ hw) with ⟨he, h0⟩ | ⟨k, hk, he⟩
  · rw [he]; exact ⟨h.length, h.le, by have := h.sum; omega⟩
  · rw [he]
    exact ⟨by rw [modAt_length, h.length], fun j => (modAt_pred_getD_le r k j).trans (h.le j),
      by rw [modAt_pred_sum r k hk, h.sum]; omega⟩

theorem Served.iter {w r : List Nat} {n : Nat} (h : Served w n r) (hw : w.length ≤ 7) (c m : Nat) :
    Served w (n + m) (iter m (Machine.passGrant c) r) := by
  induction m with
  | zero => exact h
  | succ m ih => rw [iter_succ]; exact ih.passGrant hw c

theorem Served.foldl {w r : List Nat} {n : Nat} (h : Served w n r) (hw : w.length ≤ 7) (f : Nat → Nat) (l : List Nat) :
    Served w (n + (l.map f).sum) (l.foldl (fun r c => Machine.iter (f c) (Machine.passGrant c) r) r) := by
  induction l generalizing r n with
  | nil => exact h
  | cons c l ih =>
    have := ih (h.iter hw c (f c))
    rwa [List.map_cons, List.sum_cons, ← Nat.add_assoc]

/-- The unclaimed grants of a window are passed on. -/
theorem grantWindow_served (w : List Nat) : Served (List.zipWith (· - ·) w quayShares)
    ((List.range 7).map fun c => quayShares.getD c 0 - w.getD c 0).sum (grantWindow w) := by
  have := (Served.refl (List.zipWith (· - ·) w quayShares)).foldl (by simp [quayShares])
    (fun c => quayShares.getD c 0 - w.getD c 0) (List.range 7)
  rwa [Nat.zero_add] at this

/-- What one list has above another: both sides are the sum of the greater elements. -/
theorem sum_zipWith_sub (w q : List Nat) (h : w.length = q.length) :
    (List.zipWith (· - ·) w q).sum + q.sum = w.sum + (List.zipWith (· - ·) q w).sum := by
  induction w generalizing q with
  | nil => obtain rfl := List.length_eq_zero_iff.mp h.symm; rfl
  | cons x w ih =>
    match q, h with
    | y :: q, h =>
      have := ih q (Nat.succ.inj h)
      simp only [List.zipWith_cons_cons, List.sum_cons]; omega

/-- Each class loses at least its own grants, and 64 requests are served when as many wait. -/
theorem grantWindow_shares (w : List Nat) (hw : w.length = 7 ∨ w = []) :
    (∀ c < 7, (grantWindow w).getD c 0 ≤ w.getD c 0 - quayShares.getD c 0) ∧ (grantWindow w).sum = w.sum - 64 := by
  have h := grantWindow_served w
  rcases hw with hw | rfl
  · match w, hw with
    | [a, b, c, d, e, f, g], _ =>
      refine ⟨fun i hi => (h.le i).trans ?_, h.sum.trans ?_⟩
      · interval_cases i <;> simp [quayShares]
      · have hs := sum_zipWith_sub [a, b, c, d, e, f, g] quayShares rfl
        have hu : ((List.range 7).map fun i => quayShares.getD i 0 - [a, b, c, d, e, f, g].getD i 0).sum =
            (List.zipWith (· - ·) quayShares [a, b, c, d, e, f, g]).sum := rfl
        have h64 : quayShares.sum = 64 := rfl
        rw [hu]; omega
  · exact ⟨fun i _ => (h.le i).trans (by simp), h.sum.trans (by simp)⟩

/-- The requests that wait at a quay after a window. -/
def windowLeft (w : List Nat) : List Nat := if (grantWindow w).all (· == 0) then [] else grantWindow w

theorem exec_quayGrantWindow (s : State) (q : Nat) :
    exec (.quayGrantWindow q) s = .next { s with waiting := Tab.set [] s.waiting q (windowLeft (Tab.get [] s.waiting q)) } := rfl

theorem windowLeft_shares (w : List Nat) (hw : w.length = 7 ∨ w = []) :
    (∀ c < 7, (windowLeft w).getD c 0 ≤ w.getD c 0 - quayShares.getD c 0) ∧ (windowLeft w).sum = w.sum - 64 := by
  obtain ⟨hle, hsum⟩ := grantWindow_shares w hw
  unfold windowLeft
  split
  · rename_i h0
    have hz : (grantWindow w).sum = 0 := List.sum_eq_zero fun x hx => eq_of_beq (List.all_eq_true.mp h0 x hx)
    exact ⟨fun c _ => Nat.zero_le _, hz.symm.trans hsum⟩
  · exact ⟨hle, hsum⟩

theorem execQuayGrantWindow_spec (s : State) (q : Nat) (hw : (Tab.get [] s.waiting q).length = 7 ∨ Tab.get [] s.waiting q = []) :
    ∃ t, exec (.quayGrantWindow q) s = .next t ∧ t.mem = s.mem ∧ t.packs = s.packs ∧
      (∀ k, k ≠ q → Tab.get [] t.waiting k = Tab.get [] s.waiting k) ∧
      (∀ c < 7, (Tab.get [] t.waiting q).getD c 0 ≤ (Tab.get [] s.waiting q).getD c 0 - quayShares.getD c 0) ∧
      (Tab.get [] t.waiting q).sum = (Tab.get [] s.waiting q).sum - 64 := by
  refine ⟨_, exec_quayGrantWindow s q, rfl, rfl, fun k hk => Tab.get_set_other _ _ _ hk, ?_⟩
  rw [Tab.get_set_same]
  exact windowLeft_shares _ hw

/-! ### What commits and recalls leave alone -/

theorem Tab.get_map_values {β : Type} (d : β) (f : β → β) (hf : f d = d) (l : List (Nat × β)) (k : Nat) :
    Tab.get d (l.map fun x => (x.1, f x.2)) k = f (Tab.get d l k) := by
  induction l with
  | nil => exact hf.symm
  | cons x l ih =>
    obtain ⟨a, b⟩ := x
    simp only [List.map_cons, Tab.get_cons, ih, apply_ite f]

/-- The partials of granule `g` that a cluster holds are combined: its records at home, then its live line (10 R293). -/
def recallCluster (g : Nat) (s : State) (cl : Nat) : State :=
  let s := (homeRecsOf s g cl).foldl (fun s r => combineParts s g r.op r.ty r.parts r.counts) s
  ((Tab.get [] s.gather cl).filter fun l => l.gran == g).foldl (fun s l => combineParts s g l.op l.ty l.parts l.counts) s

/-- The clusters that hold partials, ascending. -/
def gatherClusters (s : State) : List Nat :=
  sortNat (nubNat (s.gather.map (·.1) ++ s.launches.flatMap fun x => x.2.homeRecs.map (·.cluster)))

def recallClusters (s : State) (g : Nat) : State := (gatherClusters s).foldl (recallCluster g) s

/-- A launch without the records of granule `g`. -/
def Launch.dropRecords (g : Nat) (x : Launch) : Launch := { x with homeRecs := x.homeRecs.filter fun r => r.gran != g }

/-- The lines and records of granule `g` are freed. -/
def dropGathered (s : State) (g : Nat) : State :=
  { s with
    gather := (s.gather.map fun x => (x.1, x.2.filter fun l => l.gran != g)).filter fun x => !x.2.isEmpty
    launches := s.launches.map fun x => (x.1, x.2.dropRecords g) }

/-- The stages of a recall: the clusters in turn, then the lines and records go, and USED is written. -/
theorem recallGran_of_gathers (s : State) (g : Nat) (h : gathersNone s g = false) :
    recallGran s g =
      let t := (recallClusters s g).launches.foldl (fun t x => writeUsed t x.2 g) (dropGathered (recallClusters s g) g)
      if peerPa (g * 64) then t else t.count ctrQyRecall (homeQuay (g * 64)) 1 := by
  unfold recallGran
  unfold gathersNone at h
  rw [if_pos (by simpa only [Bool.not_eq_false'] using h)]
  rfl

/-- Every pack's wait, every disarmed monitor and every mooring is as it was. -/
structure KeepsWaits (s t : State) : Prop where
  wait : ∀ k, (t.pack k).wait = (s.pack k).wait
  monitor : ∀ k, (s.pack k).monitor = none → (t.pack k).monitor = none
  moors : ∀ l, (t.launch l).moors = (s.launch l).moors

namespace KeepsWaits

variable {s t u : State}

theorem refl (s : State) : KeepsWaits s s := ⟨fun _ => rfl, fun _ h => h, fun _ => rfl⟩

theorem trans (h : KeepsWaits s t) (h' : KeepsWaits t u) : KeepsWaits s u :=
  ⟨fun k => (h'.wait k).trans (h.wait k), fun k hk => h'.monitor k (h.monitor k hk), fun l => (h'.moors l).trans (h.moors l)⟩

/-- A change outside the tables of packs and launches. -/
theorem tables (h : KeepsWaits s t) (hp : u.packs = t.packs) (hl : u.launches = t.launches) : KeepsWaits s u := by
  have hpack (k : Nat) : u.pack k = t.pack k := by unfold State.pack; rw [hp]
  have hlaunch (l : Nat) : u.launch l = t.launch l := by unfold State.launch; rw [hl]
  exact h.trans ⟨fun k => by rw [hpack], fun k hk => by rwa [hpack], fun l => by rw [hlaunch]⟩

/-- A change of one pack that leaves its wait, and its monitor if disarmed. -/
theorem modPack (h : KeepsWaits s t) (n : Nat) {f : Pack → Pack} (hw : ∀ p, (f p).wait = p.wait)
    (hm : ∀ p, p.monitor = none → (f p).monitor = none) : KeepsWaits s (t.modPack n f) := by
  refine h.trans ?_
  have hp (k : Nat) : (t.modPack n f).pack k = if k = n then f (t.pack n) else t.pack k := Tab.get_set ..
  refine ⟨fun k => ?_, fun k hk => ?_, fun l => rfl⟩
  · rw [hp]; split
    · rename_i h; rw [hw, h]
    · rfl
  · rw [hp]; split
    · rename_i h; exact hm _ (h ▸ hk)
    · exact hk

/-- The same change of every pack. -/
theorem mapPacks (h : KeepsWaits s t) (f : Pack → Pack) (hb : f Pack.blank = Pack.blank) (hw : ∀ p, (f p).wait = p.wait)
    (hm : ∀ p, p.monitor = none → (f p).monitor = none) :
    KeepsWaits s { t with packs := t.packs.map fun x => (x.1, f x.2) } := by
  have hp (k : Nat) : Tab.get Pack.blank (t.packs.map fun x => (x.1, f x.2)) k = f (t.pack k) := Tab.get_map_values _ f hb _ _
  exact h.trans ⟨fun k => (congrArg _ (hp k)).trans (hw _), fun k hk => (congrArg _ (hp k)).trans (hm _ hk), fun l => rfl⟩

/-- A change of one launch that leaves its moorings. -/
theorem modLaunch (h : KeepsWaits s t) (n : Nat) {f : Launch → Launch} (hf : ∀ l, (f l).moors = l.moors) :
    KeepsWaits s (t.modLaunch n f) := by
  refine h.trans ⟨fun k => rfl, fun k hk => hk, fun l => ?_⟩
  rw [show (t.modLaunch n f).launch l = if l = n then f (t.launch n) else t.launch l from Tab.get_set ..]
  split
  · rename_i h; rw [hf, h]
  · rfl

theorem modTrack (h : KeepsWaits s t) (n : Nat) (f : TrackRun → TrackRun) : KeepsWaits s (Machine.modTrack t n f) :=
  h.modLaunch n fun _ => rfl

theorem ite {c : Prop} [Decidable c] (h : c → KeepsWaits s t) (h' : ¬c → KeepsWaits s u) : KeepsWaits s (if c then t else u) := by
  split
  · exact h ‹_›
  · exact h' ‹_›

/-! #### Writes at their homes -/

theorem clearResv (h : KeepsWaits s t) (g : Nat) : KeepsWaits s (Machine.clearResv t g) :=
  h.mapPacks (fun p => if (p.resv.map (·.1)) = some g then { p with resv := none } else p) rfl
    (fun p => by split <;> rfl) (fun p hp => by split <;> exact hp)

/-- What a write to granule `g` makes of a pack's monitor. -/
def fired (s : State) (g : Nat) (p : Pack) : Pack :=
  match p.monitor with
  | some m =>
    if m.pa / 64 = g && !m.poll && m.holds (s.rdNat m.pa m.size) then { p with monitor := some { m with hit := true } } else p
  | none => p

theorem fireMonitors (h : KeepsWaits s t) (g : Nat) : KeepsWaits s (Machine.fireMonitors t g) := by
  refine h.mapPacks (fired t g) rfl (fun p => ?_) (fun p hp => ?_)
  · unfold fired; split
    · split <;> rfl
    · rfl
  · unfold fired; rw [hp]; exact hp

theorem pushSubs (h : KeepsWaits s t) (g : Nat) (num : Sub → Nat) (tch : Nat → Bool) :
    KeepsWaits s (Machine.pushSubs t g num tch) := by
  unfold Machine.pushSubs
  refine foldl_keeps (KeepsWaits s) _ (fun u x h => ?_) _ _ h
  split
  · refine ite (fun _ => ite (fun _ => h.tables rfl rfl) fun _ => ?_) fun _ => h
    refine tables (t := if _ then u.count _ _ _ else u) ?_ rfl rfl
    exact ite (fun _ => h.tables rfl rfl) fun _ => h
  · exact h

theorem noteWrite (h : KeepsWaits s t) (g : Nat) (num : Sub → Nat) (tch : Nat → Bool) :
    KeepsWaits s (Machine.noteWrite t g num tch) :=
  ((h.clearResv g).fireMonitors g).pushSubs g num tch

theorem wrBytes (h : KeepsWaits s t) (pa : Nat) (l : List Byte) : KeepsWaits s (t.wrBytes pa l) := by
  obtain ⟨m, hm⟩ := t.wrBytes_fields pa l
  rw [hm]; exact h.tables rfl rfl

theorem combineParts (h : KeepsWaits s t) (g op ty : Nat) (ps : Tab W64) (cs : List (List Nat)) :
    KeepsWaits s (Machine.combineParts t g op ty ps cs) := by
  unfold Machine.combineParts
  refine ite (fun _ => h.tables rfl rfl) fun _ => noteWrite ?_ _ _ _
  exact (foldl_keeps (KeepsWaits s) _ (fun u x h => h.wrBytes _ _) ps t h).tables rfl rfl

theorem writeUsed (h : KeepsWaits s t) (l : Launch) (g : Nat) : KeepsWaits s (Machine.writeUsed t l g) :=
  ite (fun _ => h.wrBytes _ _) fun _ => h

theorem dropGathered (h : KeepsWaits s t) (g : Nat) : KeepsWaits s (Machine.dropGathered t g) :=
  h.trans ⟨fun _ => rfl, fun _ hk => hk, fun l => by
    rw [show (Machine.dropGathered t g).launch l = (t.launch l).dropRecords g from
      Tab.get_map_values Launch.blank (Launch.dropRecords g) rfl t.launches l]
    rfl⟩

theorem recallGran (h : KeepsWaits s t) (g : Nat) : KeepsWaits s (Machine.recallGran t g) := by
  have hc (u : State) (cl : Nat) (h : KeepsWaits s u) : KeepsWaits s (recallCluster g u cl) :=
    foldl_keeps (KeepsWaits s) _ (fun u l h => h.combineParts _ _ _ _ _) _ _
      (foldl_keeps (KeepsWaits s) _ (fun u r h => h.combineParts _ _ _ _ _) _ _ h)
  cases hg : gathersNone t g with
  | true => rw [recallGran_none t g hg]; exact h
  | false =>
    rw [recallGran_of_gathers t g hg]
    have h3 := foldl_keeps (KeepsWaits s) _ (fun u (x : Nat × Launch) h => h.writeUsed x.2 g) (recallClusters t g).launches _
      (dropGathered (foldl_keeps (KeepsWaits s) _ hc (gatherClusters t) t h) g)
    exact ite (fun _ => h3) fun _ => h3.tables rfl rfl

theorem landPieces (h : KeepsWaits s t) (ps : List Piece) : KeepsWaits s (Machine.landPieces t ps) :=
  foldl_keeps (KeepsWaits s) _ (fun _ p h => (h.wrBytes p.pa p.bytes).tables rfl rfl) ps t h

theorem codeBlocks (h : KeepsWaits s t) (ps : List Piece) : KeepsWaits s (Machine.codeBlocks t ps) := by
  unfold Machine.codeBlocks
  refine foldl_keeps (KeepsWaits s) _ (fun u b h => ?_) _ _ h
  exact ite (fun _ => ite (fun _ => h.tables rfl rfl) fun _ => h.tables rfl rfl) fun _ => h.tables rfl rfl

theorem performPieces (h : KeepsWaits s t) (ps : List Piece) : KeepsWaits s (Machine.performPieces t ps) := by
  unfold Machine.performPieces
  simp only
  refine foldl_keeps (KeepsWaits s) _ (fun u g h => ?_) _ _ ?_
  · refine noteWrite ?_ _ _ _
    exact h.tables rfl rfl
  refine codeBlocks (landPieces (foldl_keeps (KeepsWaits s) _ (fun u g h => h.recallGran g) _ _ ?_) _) _
  exact ite (fun _ => h) fun _ => h.tables rfl rfl

theorem wrSpad (h : KeepsWaits s t) (l : Loc) (bs : List Byte) (tag : Option Bool) : KeepsWaits s (t.wrSpad l bs tag) := by
  cases l
  case phys => exact h
  all_goals exact h.tables rfl rfl

theorem countPartial (h : KeepsWaits s t) (cl : Nat) (l : List (Loc × Nat)) : KeepsWaits s (Machine.countPartial t cl l) :=
  ite (fun _ => h) fun _ => h.tables rfl rfl

theorem performStores (h : KeepsWaits s t) (l : List IStore) : KeepsWaits s (Machine.performStores t l) := by
  have hw (u : State) (h : KeepsWaits s u) :
      KeepsWaits s (l.foldl (fun s x => if x.loc.isPhys then s else s.wrSpad x.loc x.bytes x.tag) u) :=
    foldl_keeps (KeepsWaits s) _ (fun u x h => ite (fun _ => h) fun _ => h.wrSpad _ _ _) l u h
  unfold Machine.performStores
  cases l with
  | nil => exact hw t h
  | cons x l =>
    have hx := hw _ (h.countPartial (t.clusterOf (t.pack x.pack).crew) ((x :: l).map fun x => (x.loc, x.bytes.length)))
    exact ite (fun _ => hx) fun _ => hx.performPieces _

/-! #### Gates and records of Track mode -/

/-- An event that goes on, or that a gate holds back, leaves the waits alone; `out` is the state of its answer. -/
def OnAnswer {α : Type} (s : State) (out : α → State) : Except Stop α → Prop
  | .ok a => KeepsWaits s (out a)
  | .error (.gate _ t) => KeepsWaits s t
  | .error _ => True

variable {α β : Type} {out : α → State} {out' : β → State}

/-- What follows an answer keeps the waits where the answer does; a stop is passed on. -/
theorem OnAnswer.cases {r : Except Stop α} {f : Except Stop α → Except Stop β} (h : OnAnswer s out r)
    (hok : ∀ a, KeepsWaits s (out a) → OnAnswer s out' (f (.ok a))) (herr : ∀ e, f (.error e) = .error e) :
    OnAnswer s out' (f r) := by
  cases r with
  | ok a => exact hok a h
  | error e => rw [herr]; cases e <;> exact h

theorem OnAnswer.error {e : Stop} (h : OnAnswer s out (.error e)) : OnAnswer s out' (.error e) := by
  cases e <;> exact h

theorem OnAnswer.bind {r : Except Stop α} {f : α → Except Stop β} (h : OnAnswer s out r)
    (hf : ∀ a, KeepsWaits s (out a) → OnAnswer s out' (f a)) : OnAnswer s out' (r.bind f) :=
  h.cases (f := (Except.bind · f)) hf fun _ => rfl

theorem OnAnswer.map {r : Except Stop α} {f : α → β} (h : OnAnswer s out r)
    (hf : ∀ a, KeepsWaits s (out a) → KeepsWaits s (out' (f a))) : OnAnswer s out' (r.map f) :=
  h.cases (f := (Except.map f ·)) hf fun _ => rfl

theorem regionWrite (h : KeepsWaits s t) {lid va x n : Nat} (hr : Machine.regionWrite t lid va x n = some u) : KeepsWaits s u := by
  unfold Machine.regionWrite at hr
  obtain ⟨pa, -, rfl⟩ := Option.map_eq_some_iff.mp hr
  exact h.performPieces _

theorem recordAdmission (h : KeepsWaits s t) (lid lin q : Nat) : OnAnswer s id (Machine.recordAdmission t lid lin q) := by
  unfold Machine.recordAdmission
  simp only
  split
  · trivial
  · split
    · split
      · exact h.regionWrite ‹_›
      · trivial
    · split
      · trivial
      · split
        · rename_i hb
          obtain ⟨u, hu, hv⟩ := Option.bind_eq_some_iff.mp hb
          exact ((h.regionWrite hu).regionWrite hv).modTrack _ _
        · trivial

theorem replayAdmission (h : KeepsWaits s t) (lid lin q : Nat) : OnAnswer s id (Machine.replayAdmission t lid lin q) := by
  unfold Machine.replayAdmission
  simp only
  split
  · trivial
  · split
    · trivial
    · split
      · exact h.modTrack _ _
      · split
        · exact h
        · trivial

theorem recordAll_cons (s : State) (lid lin : Nat) (a : Nat × Bool) (l : List (Nat × Bool)) :
    Machine.recordAll s lid lin (a :: l) =
      (Machine.recordAdmission s lid lin (homeQuay (a.1 * 64))).bind fun s => Machine.recordAll s lid lin l := by
  rw [Machine.recordAll]; split <;> rename_i h <;> rw [h] <;> rfl

theorem recordAll (h : KeepsWaits s t) (lid lin : Nat) (l : List (Nat × Bool)) : OnAnswer s id (Machine.recordAll t lid lin l) := by
  induction l generalizing t with
  | nil => exact h
  | cons a l ih => rw [recordAll_cons]; exact (h.recordAdmission lid lin _).bind fun u hu => ih hu

theorem replayEach (h : KeepsWaits s t) (lid lin op : Nat) (l : List (Nat × Bool)) (wait : List Nat) :
    OnAnswer s Prod.fst (Machine.replayEach lid lin op l wait t) := by
  induction l generalizing t wait with
  | nil => exact h
  | cons a l ih =>
    have ha := h.replayAdmission lid lin (homeQuay (a.1 * 64))
    unfold Machine.replayEach
    split <;> rename_i hr <;> rw [hr] at ha
    · exact ih (KeepsWaits.modTrack ha _ _) _
    · exact ih ha _
    · exact ha.error

theorem replayAll (h : KeepsWaits s t) (lid lin op : Nat) (l : List (Nat × Bool)) :
    OnAnswer s id (Machine.replayAll t lid lin op l) := by
  have ha := h.replayEach lid lin op (l.filter fun a => !(t.launch lid).track.made.contains (lin, op, a.1, a.2)) []
  unfold Machine.replayAll
  simp only
  split <;> rename_i hr <;> rw [hr] at ha
  · exact ha.error
  · exact ite (fun _ => ha) fun _ => KeepsWaits.modTrack ha _ _
  · exact ha

theorem admitAll (h : KeepsWaits s t) (lid lin op : Nat) (l : List (Nat × Bool)) :
    OnAnswer s id (Machine.admitAll t lid lin op l) := by
  unfold Machine.admitAll
  split
  · exact h.replayAll _ _ _ _
  · exact h.recordAll _ _ _

theorem admitRecall (h : KeepsWaits s t) (lid lin g : Nat) : OnAnswer s id (Machine.admitRecall t lid lin g) := by
  unfold Machine.admitRecall
  split
  · exact h.replayAdmission _ _ _
  · exact h.recordAdmission _ _ _

theorem admitRecalls (h : KeepsWaits s t) (lid : Nat) (l wait : List Nat) :
    OnAnswer s id (Machine.admitRecalls lid l wait t) := by
  induction l generalizing t wait with
  | nil => cases wait <;> exact h
  | cons g l ih =>
    unfold Machine.admitRecalls
    split
    · exact ih h _
    · rename_i lin _
      have ha := h.admitRecall lid lin g
      split <;> rename_i hr <;> rw [hr] at ha
      · exact ih (KeepsWaits.recallGran ha g) _
      · exact ih ha _
      · exact ha

theorem passGates (h : KeepsWaits s t) (lid lin op : Nat) (l : List (Nat × Bool)) :
    OnAnswer s id (Machine.passGates t lid lin op l) := by
  unfold Machine.passGates
  split
  · exact (h.admitRecalls _ _ _).bind fun u hu => KeepsWaits.admitAll hu _ _ _ _
  · exact h

theorem gateStores (h : KeepsWaits s t) (lid lin : Nat) (l held qs : List Nat) :
    OnAnswer s Prod.fst (Machine.gateStores lid lin l held qs t) := by
  induction l generalizing t held qs with
  | nil => exact h
  | cons g l ih =>
    have ha : OnAnswer s id ((Machine.admitRecalls lid [g] [] t).bind fun s =>
        Machine.replayAdmission s lid lin (homeQuay (g * 64))) :=
      (h.admitRecalls lid [g] []).bind fun _ hu => KeepsWaits.replayAdmission hu _ _ _
    unfold Machine.gateStores
    split <;> rename_i hr <;> rw [hr] at ha
    · exact ih ha _ _
    · exact ih ha _ _
    · exact ha.error

/-! #### A crew loses containment (15 R457) -/

theorem performGroup (h : KeepsWaits s t) (lid : Nat) (g : List IStore) : OnAnswer s Prod.fst (Machine.performGroup t lid g) := by
  unfold Machine.performGroup
  simp only
  split
  · exact h.performStores g
  · split
    · have ha := h.gateStores lid (t.pack ((g.head?.map (·.pack)).getD 0)).lin (nubNat ((storeAdmissions g).map (·.1))) [] []
      split <;> rename_i hr <;> rw [hr] at ha
      · exact ha.error
      · exact ite (fun _ => ha) fun _ => KeepsWaits.performStores ha _
    · exact (h.passGates _ _ _ _).map fun u hu => KeepsWaits.performStores hu g

theorem performGated (h : KeepsWaits s t) (lid : Nat) (l : List (List IStore)) :
    OnAnswer s Prod.fst (Machine.performGated lid l t) := by
  induction l generalizing t with
  | nil => exact h
  | cons g l ih =>
    have ha := h.performGroup lid g
    unfold Machine.performGated
    split <;> rename_i hr <;> rw [hr] at ha
    · exact ha
    · exact ih ha
    · exact ha

theorem performDue (h : KeepsWaits s t) (crew : Nat) (due : List IStore) : OnAnswer s id (Machine.performDue t crew due) := by
  have ha := h.performGated (t.crew crew).launch (splitIns due)
  unfold Machine.performDue
  split <;> rename_i hr <;> rw [hr] at ha
  · exact ha.error
  · simp only
    split <;> exact ha.tables rfl rfl

theorem setSflag (h : KeepsWaits s t) (crew : Nat) (m : W32) : KeepsWaits s (Machine.setSflag t crew m) := by
  unfold Machine.setSflag
  refine foldl_keeps (KeepsWaits s) _ (fun u p h => ?_) _ _ h
  exact h.modPack p (fun _ => rfl) fun _ h => h

theorem loseContainment (h : KeepsWaits s t) (crew : Nat) (m : W32) : KeepsWaits s (Machine.loseContainment t crew m) := by
  have ha := h.performDue crew (t.crew crew).isb
  have hlost (u : State) (hu : KeepsWaits s u) :
      KeepsWaits s ((Machine.setSflag (u.modCrew crew fun c => { c with lost := true }) crew (0x40 ||| m)).count ctrCkLost
        (t.crew crew).core 1) := by
    have hc : KeepsWaits s (u.modCrew crew fun c => { c with lost := true }) := hu.tables rfl rfl
    exact (hc.setSflag crew (0x40 ||| m)).tables rfl rfl
  unfold Machine.loseContainment
  refine hlost _ ?_
  split <;> rename_i hr <;> rw [hr] at ha
  · exact ha
  · exact ha
  · exact h

theorem denCheck (h : KeepsWaits s t) (crew : Nat) : KeepsWaits s (Machine.denCheck t crew) := by
  unfold Machine.denCheck
  exact ite (fun _ => h) fun _ => ite (fun _ => h.loseContainment _ _) fun _ => h

theorem countIssue (h : KeepsWaits s t) (crew : Nat) : KeepsWaits s (Machine.countIssue t crew) := h.tables rfl rfl

end KeepsWaits

/-! ### A wait ends (04 R100) -/

/-- What the completion of an instruction leaves of a pack: its wait and monitor, and which of its threads have exited. -/
structure SameThreads (p q : Pack) : Prop where
  wait : q.wait = p.wait
  monitor : q.monitor = p.monitor
  width : q.width = p.width
  exited : ∀ u, (packThread q u).exited = (packThread p u).exited

namespace SameThreads

variable {p q r : Pack}

theorem refl (p : Pack) : SameThreads p p := ⟨rfl, rfl, rfl, fun _ => rfl⟩

theorem trans (h : SameThreads p q) (h' : SameThreads q r) : SameThreads p r :=
  ⟨h'.wait.trans h.wait, h'.monitor.trans h.monitor, h'.width.trans h.width, fun u => (h'.exited u).trans (h.exited u)⟩

/-- A change of other fields. -/
theorem fields (h : SameThreads p q) (hw : r.wait = q.wait) (hm : r.monitor = q.monitor) (hn : r.width = q.width)
    (ht : r.threads = q.threads) : SameThreads p r :=
  h.trans ⟨hw, hm, hn, fun u => by unfold packThread; rw [ht]⟩

theorem modThread (h : SameThreads p q) (t : Nat) {f : Thread → Thread} (hf : ∀ th, (f th).exited = th.exited) :
    SameThreads p (packModThread q t f) := by
  refine h.trans ⟨rfl, rfl, rfl, fun u => ?_⟩
  rw [packThread_packModThread]
  split
  · rename_i hu; rw [hf, hu.1]
  · rfl

theorem modThreads (h : SameThreads p q) (l : List Nat) {f : Thread → Thread} (hf : ∀ th, (f th).exited = th.exited) :
    SameThreads p (Machine.modThreads q l f) := by
  unfold Machine.modThreads
  induction l generalizing q with
  | nil => exact h
  | cons t l ih => exact ih (h.modThread t hf)

theorem continueThreads (h : SameThreads p q) (l : List Nat) (pc : W64) (size : Nat) :
    SameThreads p (Machine.continueThreads q l pc size) := by
  unfold Machine.continueThreads
  split
  · exact h
  · refine modThreads ?_ l ?_
    · exact h.fields rfl rfl rfl rfl
    · intro th; rfl

theorem stepAges (h : SameThreads p q) (run : List Nat) (sel : BitVec 64) : SameThreads p (Machine.stepAges q run sel) := by
  unfold Machine.stepAges
  induction run generalizing q with
  | nil => exact h
  | cons t l ih => exact ih (h.modThread t fun _ => rfl)

theorem leaveHandler (h : SameThreads p q) : SameThreads p (Machine.leaveHandler q) := by
  unfold Machine.leaveHandler
  split
  · exact h.fields rfl rfl rfl rfl
  · exact h

theorem releaseConv (h : SameThreads p q) : SameThreads p (Machine.releaseConv q) := by
  unfold Machine.releaseConv
  simp only
  split
  · exact h
  · split
    · exact h
    · exact (h.modThreads _ (by intro; rfl)).continueThreads _ _ _

theorem reselect (h : SameThreads p q) : SameThreads p (Machine.reselect q) := h.releaseConv.fields rfl rfl rfl rfl

theorem finishPack (h : SameThreads p q) (p0 : Pack) (pc : W64) (size : Nat) (left : BitVec 64) :
    SameThreads p (Machine.finishPack p0 q pc size left) := by
  have h1 := (h.continueThreads ((lanesOf (p0.sel &&& ~~~left) q.width).filter fun t => !(packThread q t).exited) pc size).stepAges
    (runThreads p0) p0.sel
  refine reselect (leaveHandler ?_)
  exact h1.fields rfl rfl rfl rfl

theorem applyDead (h : SameThreads p q) (s : State) (pc : W64) : SameThreads p (Machine.applyDead s q pc) := by
  unfold Machine.applyDead
  split
  · exact h
  · rename_i x _
    have h1 := h.modThreads (lanesOf q.sel q.width) (f := fun th => { th with vdead := th.vdead ||| ~~~x.vmask }) fun _ => rfl
    simp only
    split
    · exact h1.fields rfl rfl rfl rfl
    · exact h1

/-- Some thread of the pack has not exited, so the pack does not end. -/
theorem notEnded (h : SameThreads p q) (hu : ∃ u < p.width, (packThread p u).exited = false) : allExited q = false := by
  obtain ⟨u, hlt, hu⟩ := hu
  refine Bool.eq_false_iff.mpr fun ha => ?_
  have := List.all_eq_true.mp ha u (List.mem_range.mpr (h.width ▸ hlt))
  rw [h.exited, hu] at this
  cases this

end SameThreads

theorem KeepsWaits.modSame {s t : State} (h : KeepsWaits s t) (n : Nat) {f : Pack → Pack} (hf : ∀ p, SameThreads p (f p)) :
    KeepsWaits s (t.modPack n f) :=
  h.modPack n (fun p => (hf p).wait) fun p hp => (hf p).monitor.trans hp

@[simp] theorem State.modPack_pack_same (s : State) (n : Nat) (f : Pack → Pack) : (s.modPack n f).pack n = f (s.pack n) :=
  State.setPack_pack_same _ _ _

@[simp] theorem countIssue_pack (s : State) (crew k : Nat) : (countIssue s crew).pack k = s.pack k := rfl

/-- An instruction completes, and its pack goes on. -/
theorem KeepsWaits.finishAt {s t : State} (h : KeepsWaits s t) (k : Nat) (p0 : Pack) (pc : W64) (size : Nat) (left : BitVec 64)
    (hu : ∃ u < (t.pack k).width, (packThread (t.pack k) u).exited = false) :
    KeepsWaits s (Machine.finishAt t k p0 pc size left) := by
  have hf (p : Pack) : SameThreads p (finishPack p0 p pc size left) := (SameThreads.refl p).finishPack p0 pc size left
  unfold Machine.finishAt
  simp only [countIssue_pack, State.modPack_pack_same, (hf (t.pack k)).notEnded hu, Bool.false_eq_true, if_false]
  exact ((h.modSame k hf).countIssue _).denCheck _

/-- The state in which a wait of a pack has ended. -/
def woken (s : State) (k : Nat) : State := s.modPack k fun p => { p with wait := Wait.none, monitor := none }

@[simp] theorem woken_pack (s : State) (k : Nat) : (woken s k).pack k = { s.pack k with wait := Wait.none, monitor := none } :=
  State.modPack_pack_same _ _ _

/-- A wait ends on the core: the waiting pack's instruction completes, and nothing else of the waits and moorings changes. -/
theorem completeWait_placed (s : State) (k : Nat) (hc : (s.crew (s.pack k).crew).phase = .placed)
    (hu : ∃ u < (s.pack k).width, (packThread (s.pack k) u).exited = false) : KeepsWaits (woken s k) (completeWait s k) := by
  have hd : KeepsWaits (woken s k) (setDead (woken s k) k) :=
    (KeepsWaits.refl _).modSame k fun p => (SameThreads.refl p).applyDead _ _
  have hs : SameThreads ((woken s k).pack k) ((setDead (woken s k) k).pack k) := by
    unfold setDead
    rw [State.modPack_pack_same]
    exact (SameThreads.refl _).applyDead _ _
  have hu' : ∃ u < ((setDead (woken s k) k).pack k).width, (packThread ((setDead (woken s k) k).pack k) u).exited = false := by
    obtain ⟨u, hlt, hx⟩ := hu
    rw [woken_pack] at hs
    exact ⟨u, hs.width ▸ hlt, (hs.exited u).trans hx⟩
  unfold completeWait
  simp only [hc, bne_self_eq_false, Bool.false_eq_true, if_false]
  exact hd.finishAt k _ _ _ _ hu'

/-- A wait of R100 ends: at once on the core, else at the return (13 R400). -/
theorem completeWait_wait (s : State) (k : Nat) (hu : ∃ u < (s.pack k).width, (packThread (s.pack k) u).exited = false) :
    ((completeWait s k).pack k).monitor = none ∧
      ((completeWait s k).pack k).wait.kind = if (s.crew (s.pack k).crew).phase = .placed then .none else .ended := by
  by_cases hc : (s.crew (s.pack k).crew).phase = .placed
  · have h := completeWait_placed s k hc hu
    refine ⟨h.monitor k (by rw [woken_pack]), ?_⟩
    rw [h.wait k, woken_pack, if_pos hc]
    rfl
  · have he : completeWait s k = s.modPack k fun p => { p with wait := { p.wait with kind := .ended }, monitor := none } := by
      unfold completeWait
      exact if_pos (by simpa using hc)
    rw [he, State.modPack_pack_same, if_neg hc]
    exact ⟨rfl, rfl⟩

/-! ### Monitors (10 R298, R300) -/

theorem exec_monitorWake (s : State) (k : Nat) (m : Monitor) (hm : (s.pack k).monitor = some m) (hh : m.hit = true)
    (hl : (s.pack k).live = true) : exec (.monitorWake k) s = .next (completeWait s k) := by
  show execMonitorWake k s = _
  unfold execMonitorWake
  simp [hm, hh, hl]

theorem gathersNone_of_noPartials {s : State} {g : Nat} (h : Claims.noPartials s g) : gathersNone s g = true := by
  obtain ⟨hl, hr⟩ := h
  unfold gathersNone
  simp only [Bool.not_or, Bool.and_eq_true, Bool.not_eq_true', List.any_eq_false]
  exact ⟨fun x hx => by simpa using hl x hx, fun x hx => by simpa using hr x hx⟩

/-- A recall of a granule of which nothing is gathered changes nothing. -/
theorem recallNow_none {s : State} {g : Nat} (h : Claims.noPartials s g) : recallNow s g = s := by
  obtain ⟨hl, hr⟩ := h
  have h1 : (s.gather.flatMap fun x => x.2.filter fun l => l.gran == g) = [] := by
    simpa [List.flatMap_eq_nil_iff] using fun a b hx => hl (a, b) hx
  have h2 : (s.launches.flatMap fun x => x.2.homeRecs.filter fun r => r.gran == g) = [] := by
    simpa [List.flatMap_eq_nil_iff] using fun a b hx => hr (a, b) hx
  unfold recallNow
  simp only [h1, h2]

theorem gathered_eq (s : State) (g : Nat) : gathered s g = !gathersNone s g := by
  unfold gathered gathersNone; rw [Bool.not_not]

theorem repollOne_of_noPartials {s : State} {k q : Nat} {m : Monitor} (hm : (s.pack k).monitor = some m) (hp : m.poll = true)
    (hq : m.quay = q) (hn : Claims.noPartials s (m.pa / 64)) :
    repollOne s q k = if m.holds (s.rdNat m.pa m.size) = true then completeWait s k else s := by
  unfold repollOne
  simp only [hm, hp, hq, and_self, if_true, recallNow_none hn, gathered_eq, gathersNone_of_noPartials hn, Bool.not_true,
    Bool.not_false, Bool.true_and]

theorem exec_repoll (s : State) (k q : Nat) (hk : s.packs.map (·.1) = [k]) : exec (.repoll q) s = .next (repollOne s q k) := by
  show execRepoll q s = _
  unfold execRepoll
  rw [hk]; rfl

/-! ### Grants (09 R258) -/

theorem modMoor_eq (s : State) (lid m : Nat) (x : Mooring) (f : Mooring → Mooring) (h : launchMoor (s.launch lid) m = some x) :
    launchMoor ((modMoor s lid m f).launch lid) m = some (f x) := by
  unfold launchMoor at h
  unfold modMoor State.modLaunch launchMoor
  simp only [State.setLaunch_launch_same, h, Tab.get_set_same]

/-- While a mooring is held in exclusive mode, no plain request is granted. -/
theorem grantScan_exclusive (owner : Nat → W32) (l : List Waiter) (b : Bool) (x : Mooring) (hm : x.mode = .exclusive)
    (hh : x.holders ≠ []) (hl : ∀ v ∈ l, v.kind = .plainX ∨ v.kind = .plainSh) : grantScan owner l b x = (x, []) := by
  induction l generalizing b with
  | nil => rfl
  | cons v l ih =>
    have hv : x.grants b v = false := by
      unfold Mooring.grants
      rcases hl v (by simp) with h | h <;> simp [h, hm, hh]
    unfold grantScan
    rw [hv]
    exact ih _ fun w hw => hl w (List.mem_cons_of_mem _ hw)

/-- The mooring once a pack holds it alone, by a plain request that stood first. -/
def heldBy (s : State) (x : Mooring) (k : Nat) (l : List Waiter) : Mooring :=
  { x with mode := .exclusive, holders := [k], owner := ownerCode s k, waiters := l }

theorem grantScan_first (owner : Nat → W32) (w : Waiter) (l : List Waiter) (x : Mooring) (hx : x.holders = [])
    (hw : w.kind = .plainX) (hl : ∀ v ∈ l, v.kind = .plainX ∨ v.kind = .plainSh) :
    grantScan owner (w :: l) false x =
      ({ x with mode := .exclusive, holders := [w.pack], owner := owner w.pack }, [w]) := by
  have hg : x.grants false w = true := by simp [Mooring.grants, hw, hx]
  have hh : x.hold w (owner w.pack) = { x with mode := .exclusive, holders := [w.pack], owner := owner w.pack } := by
    simp [Mooring.hold, ReqKind.isShared, hw, hx]
  unfold grantScan
  rw [if_pos hg, hh, grantScan_exclusive _ l false _ rfl (by simp) hl]

/-- The first plain request of a mooring that nobody holds is granted, and no other plain one. -/
theorem grantPass_first {s : State} {lid m : Nat} {x : Mooring} {w : Waiter} {l : List Waiter}
    (hm : launchMoor (s.launch lid) m = some x) (hx : x.holders = []) (hs : x.waiters = w :: l) (hw : w.kind = .plainX)
    (hl : ∀ v ∈ l, v.kind = .plainX ∨ v.kind = .plainSh) (hp : ∀ v ∈ l, v.pack ≠ w.pack) :
    grantPass s lid m = (modMoor s lid m fun _ => heldBy s x w.pack l, [w.pack]) := by
  have hf : (w :: l).filter (fun v => !([w.pack].contains v.pack)) = l := by
    rw [List.filter_cons_of_neg (by simp)]
    exact List.filter_eq_self.mpr fun v hv => by simpa using hp v hv
  unfold grantPass
  simp only [hm, hs, grantScan_first _ w l x hx hw hl, List.map_cons, List.map_nil, List.foldl_cons, List.foldl_nil, orderGrant,
    hw, ReqKind.isPlain, hf]
  rfl

theorem grantOthers_first {s : State} {lid m : Nat} {x : Mooring} {w : Waiter} {l : List Waiter}
    (hm : launchMoor (s.launch lid) m = some x) (hx : x.holders = []) (hs : x.waiters = w :: l) (hw : w.kind = .plainX)
    (hl : ∀ v ∈ l, v.kind = .plainX ∨ v.kind = .plainSh) (hp : ∀ v ∈ l, v.pack ≠ w.pack) :
    grantOthers s lid m = completeWait (modMoor s lid m fun _ => heldBy s x w.pack l) w.pack := by
  unfold grantOthers
  rw [grantPass_first hm hx hs hw hl hp]
  rfl

/-- A quay grants the first request of a mooring that nobody holds: its pack goes on, and holds it alone. -/
theorem mooringGrant_first {s : State} {lid m : Nat} {x : Mooring} {w : Waiter} {l : List Waiter}
    (hm : launchMoor (s.launch lid) m = some x) (hx : x.holders = []) (hs : x.waiters = w :: l) (hw : w.kind = .plainX)
    (hl : ∀ v ∈ l, v.kind = .plainX ∨ v.kind = .plainSh) (hp : ∀ v ∈ l, v.pack ≠ w.pack)
    (hc : onCore s (s.pack w.pack).crew = true)
    (hu : ∃ u < (s.pack w.pack).width, (packThread (s.pack w.pack) u).exited = false) :
    ((grantOthers s lid m).pack w.pack).wait = Wait.none ∧
      launchMoor ((grantOthers s lid m).launch lid) m = some (heldBy s x w.pack l) := by
  have hplaced : (s.crew (s.pack w.pack).crew).phase = .placed := by
    unfold onCore at hc
    simpa using (Bool.and_eq_true_iff.mp hc).2
  have h := completeWait_placed (modMoor s lid m fun _ => heldBy s x w.pack l) w.pack hplaced hu
  rw [grantOthers_first hm hx hs hw hl hp]
  refine ⟨(h.wait _).trans (by rw [woken_pack]), ?_⟩
  unfold launchMoor
  rw [h.moors lid]
  exact modMoor_eq s lid m x _ hm

/-! ### Recalls (10 R291 to R293) -/

theorem pushSubs_gather_launches (s : State) (g : Nat) (num : Sub → Nat) (tch : Nat → Bool) :
    (pushSubs s g num tch).gather = s.gather ∧ (pushSubs s g num tch).launches = s.launches := by
  unfold pushSubs
  refine foldl_keeps (fun u => u.gather = s.gather ∧ u.launches = s.launches) _ (fun u x h => ?_) _ s ⟨rfl, rfl⟩
  split
  · split
    · split
      · exact h
      · simp only; split <;> exact h
    · exact h
  · exact h

/-- The partials that a recall combines leave the buffers and the launches as they were. -/
theorem combineParts_gather_launches (s : State) (g op ty : Nat) (ps : Tab W64) (cs : List (List Nat)) :
    (combineParts s g op ty ps cs).gather = s.gather ∧ (combineParts s g op ty ps cs).launches = s.launches := by
  unfold combineParts
  simp only
  split
  · exact ⟨rfl, rfl⟩
  · have hw (u : State) (h : u.gather = s.gather ∧ u.launches = s.launches) (pa : Nat) (l : List Byte) :
        (u.wrBytes pa l).gather = s.gather ∧ (u.wrBytes pa l).launches = s.launches := by
      obtain ⟨m, hm⟩ := u.wrBytes_fields pa l
      rw [hm]; exact h
    have hf := foldl_keeps (fun u => u.gather = s.gather ∧ u.launches = s.launches)
      (fun s (x : Nat × W64) => s.wrBytes (g * 64 + x.1)
        (leBytes (atomCombine ty op (s.rdNat (g * 64 + x.1) (typeBits ty / 8)) (x.2.toNat % 2 ^ (8 * (typeBits ty / 8))))
          (typeBits ty / 8))) (fun u x h => hw u h _ _) ps s ⟨rfl, rfl⟩
    obtain ⟨hg, hl⟩ := pushSubs_gather_launches (fireMonitors (clearResv _ g) g) g _ _
    exact ⟨hg.trans hf.1, hl.trans hf.2⟩

/-- The model's operation of atom and red is the stated one. -/
theorem atomCombine_eq (ty op old x : Nat) : atomCombine ty op old x = Claims.combined ty op old x := by
  unfold atomCombine Claims.combined Claims.num
  cases laneFmt ty with
  | some f =>
    match op with
    | 0 | 1 | 2 | _ + 3 => rfl
  | none =>
    match op with
    | 0 | 3 | 4 | 5 | _ + 6 => rfl
    | 1 => cases typeSigned ty <;> simp
    | 2 => cases typeSigned ty <;> simp

theorem typeBits_whole (ty : Nat) (h : 0 < typeBits ty / 8) : 8 * (typeBits ty / 8) = typeBits ty := by
  revert h
  unfold typeBits
  split <;> decide

/-- A granule lies at one place as a whole. -/
theorem reachable_granule (s : State) (g o : Nat) (ho : o < 64) : reachable s (g * 64 + o) = reachable s (g * 64) := by
  have hp : peerPa (g * 64 + o) = peerPa (g * 64) := by
    unfold peerPa
    rw [Bool.eq_iff_iff]
    simp only [Bool.and_eq_true, decide_eq_true_eq]
    omega
  have hq : peerOf (g * 64 + o) = peerOf (g * 64) := by
    unfold peerOf; omega
  unfold reachable
  rw [hp, hq]

/-- One partial is combined into its item, and every other byte is as it was. -/
theorem combineParts_one_byte (s : State) (g op ty o : Nat) (x : W64) (cs : List (List Nat)) (hr : reachable s (g * 64) = true)
    (hn : 0 < typeBits ty / 8) (a : Nat) :
    (combineParts s g op ty [(o, x)] cs).byte a = Claims.put s.byte (g * 64 + o)
      (leBytes (Claims.combined ty op (Claims.itemAt s.byte (g * 64 + o) (typeBits ty / 8)) (x.toNat % 2 ^ typeBits ty))
        (typeBits ty / 8)) a := by
  have hm : (combineParts s g op ty [(o, x)] cs).mem = (s.wrBytes (g * 64 + o)
      (leBytes (atomCombine ty op (s.rdNat (g * 64 + o) (typeBits ty / 8)) (x.toNat % 2 ^ (8 * (typeBits ty / 8))))
        (typeBits ty / 8))).mem := by
    unfold combineParts
    simp only [hr, Bool.not_true, Bool.false_eq_true, if_false, noteWrite_mem, List.foldl_cons, List.foldl_nil]
  unfold State.byte at hm ⊢
  rw [hm, typeBits_whole ty hn, atomCombine_eq]
  exact s.wrBytes_byte _ _ a

theorem writeUsed_none (s : State) (l : Launch) (g : Nat) (h : l.homeRecs = []) : writeUsed s l g = s := by
  unfold writeUsed; simp [h]

theorem foldl_writeUsed_none (l : List (Nat × Launch)) (s : State) (g : Nat) (h : ∀ y ∈ l, y.2.homeRecs = []) :
    l.foldl (fun t x => writeUsed t x.2 g) s = s := by
  induction l with
  | nil => rfl
  | cons y l ih =>
    rw [List.foldl_cons, writeUsed_none _ _ _ (h y (by simp))]
    exact ih fun z hz => h z (List.mem_cons_of_mem _ hz)

section
variable {s : State} {g cl : Nat} {line : GatherLine}

theorem gatherClusters_one (hs : s.gather = [(cl, [line])]) (hr : ∀ y ∈ s.launches, y.2.homeRecs = []) :
    gatherClusters s = [cl] := by
  have h : (s.launches.flatMap fun x => x.2.homeRecs.map (·.cluster)) = [] := by
    rw [List.flatMap_eq_nil_iff]
    exact fun y hy => by rw [hr y hy]; rfl
  unfold gatherClusters
  rw [hs, h]; rfl

theorem recallClusters_one (hs : s.gather = [(cl, [line])]) (hg : line.gran = g) (hr : ∀ y ∈ s.launches, y.2.homeRecs = []) :
    recallClusters s g = combineParts s g line.op line.ty line.parts line.counts := by
  have hh : homeRecsOf s g cl = [] := by
    unfold homeRecsOf
    rw [List.flatMap_eq_nil_iff]
    exact fun y hy => by rw [hr y hy]; rfl
  unfold recallClusters
  rw [gatherClusters_one hs hr]
  simp [recallCluster, hh, hs, hg]

/-- The recall of the one line that is gathered combines its partials and frees it. -/
theorem recallGran_one (hs : s.gather = [(cl, [line])]) (hg : line.gran = g) (hr : ∀ y ∈ s.launches, y.2.homeRecs = []) :
    (recallGran s g).gather = [] ∧ (recallGran s g).mem = (combineParts s g line.op line.ty line.parts line.counts).mem := by
  have hn : gathersNone s g = false := by
    unfold gathersNone; simp [hs, hg]
  obtain ⟨hcg, hcl⟩ := combineParts_gather_launches s g line.op line.ty line.parts line.counts
  rw [recallGran_of_gathers s g hn, recallClusters_one hs hg hr, hcl, foldl_writeUsed_none _ _ _ hr]
  have hd : (dropGathered (combineParts s g line.op line.ty line.parts line.counts) g).gather = [] := by
    unfold dropGathered
    simp [hcg, hs, hg]
  simp only
  split
  · exact ⟨hd, rfl⟩
  · exact ⟨hd, rfl⟩

/-- Outside Track mode a recall that no instruction causes passes no gate. -/
theorem recallNow_one (hs : s.gather = [(cl, [line])]) (hg : line.gran = g)
    (ht : (s.launch line.launch).hdr.dmode = 0) :
    recallNow s g = recallGran s g := by
  have hl : (s.gather.flatMap fun x => x.2.filter fun l => l.gran == g) = [line] := by simp [hs, hg]
  have hf : recallFor s line.launch g = .ok (recallGran s g) := by
    unfold recallFor State.isTrack
    rw [ht]; rfl
  unfold recallNow
  simp only [hl, hf]

end

/-- A recall combines the one partial of a granule into its item (10 R291). -/
theorem recallNow_one_byte {s : State} {g cl : Nat} {line : GatherLine} {o : Nat} {x : W64} (hs : s.gather = [(cl, [line])])
    (hg : line.gran = g) (hp : line.parts = [(o, x)]) (hr : ∀ y ∈ s.launches, y.2.homeRecs = [])
    (ht : (s.launch line.launch).hdr.dmode = 0) (ha : reachable s (g * 64 + o) = true) (hn : 0 < typeBits line.ty / 8)
    (ho : o + typeBits line.ty / 8 ≤ 64) :
    (recallNow s g).gather = [] ∧ ∀ a, (recallNow s g).byte a = Claims.put s.byte (g * 64 + o)
      (leBytes (Claims.combined line.ty line.op (Claims.itemAt s.byte (g * 64 + o) (typeBits line.ty / 8))
        (x.toNat % 2 ^ typeBits line.ty)) (typeBits line.ty / 8)) a := by
  obtain ⟨hgather, hmem⟩ := recallGran_one hs hg hr
  rw [recallNow_one hs hg ht]
  refine ⟨hgather, fun a => ?_⟩
  rw [reachable_granule s g o (by omega)] at ha
  rw [← combineParts_one_byte s g line.op line.ty o x line.counts ha hn, ← hp]
  unfold State.byte
  rw [hmem]

/-- Where a subscription watches a granule, its recall in time is a recall. -/
theorem exec_recallTimeout_watched (s : State) (g : Nat) (h : ∃ k b, (k, some b) ∈ s.subs ∧ b.pa / 64 = g) :
    exec (.recallTimeout g) s = .next (recallNow s g) := by
  obtain ⟨k, b, hb, hg⟩ := h
  show execRecallTimeout g s = _
  unfold execRecallTimeout
  refine congrArg _ (if_pos (List.any_eq_true.mpr ⟨(k, some b), hb, ?_⟩))
  exact beq_iff_eq.mpr hg

theorem noPartials_of_empty {s : State} (g : Nat) (hs : s.gather = []) (hr : ∀ y ∈ s.launches, y.2.homeRecs = []) :
    Claims.noPartials s g :=
  ⟨by simp [hs], fun y hy => by simp [hr y hy]⟩

theorem exec_recall_none {s : State} {g : Nat} (h : Claims.noPartials s g) :
    exec (.recall g) s = .next s ∧ exec (.recallTimeout g) s = .next s := by
  constructor
  · show execRecall g s = _
    unfold execRecall
    rw [recallNow_none h]
  · show execRecallTimeout g s = _
    unfold execRecallTimeout
    simp only [recallNow_none h, ite_self]

/-- The quay acknowledges an ended subscription none of whose pushes is on its way (10 R308). -/
theorem exec_unstandAck (s : State) (id : Nat) (b : Sub) (hb : s.sub id = some b) (he : b.ending = true) (hf : b.flight = none)
    (hp : b.pending = none) : exec (.unstandAck id) s = .next (s.setSub id (some { b with acked := true })) := by
  show execUnstandAck id s = _
  unfold execUnstandAck
  simp [hb, he, hf, hp]

end Sys2Proof.Machine

namespace Sys2Proof
open Machine

/-- Settles O46: each event of a quay has the effect that its rule states (01 R25, R26; 09 R258; 10 R291, R298, R300, R308). -/
theorem quayEvents : Obligations.QuayEvents := by
  refine ⟨fun s q hw => execQuayGrantWindow_spec s q hw, ?_, ?_, ?_, ?_, ?_, ?_⟩
  · intro s lid m x w l hm hx hs hw hl hp hc hu
    exact ⟨_, rfl, mooringGrant_first hm hx hs hw hl hp hc hu⟩
  · intro s k m hm hh hl hu
    exact ⟨_, exec_monitorWake s k m hm hh hl, completeWait_wait s k hu⟩
  · intro s k q m hm hp hq hk hn hu
    refine ⟨_, exec_repoll s k q hk, ?_⟩
    rw [repollOne_of_noPartials hm hp hq hn]
    split
    · exact completeWait_wait s k hu
    · rfl
  · intro s g cl line o x hs hg hp hr ht ha _ n hn ho _ i hi
    have hrecall := recallNow_one_byte hs hg hp hr ht ha hn ho
    rcases hi with rfl | ⟨rfl, hsub⟩
    · exact ⟨_, rfl, hrecall⟩
    · exact ⟨_, exec_recallTimeout_watched s g hsub, hrecall⟩
  · intro s g hs hr
    exact exec_recall_none (noPartials_of_empty g hs hr)
  · intro s id b hb he hf hp
    exact exec_unstandAck s id b hb he hf hp

end Sys2Proof

end

section
/-! PROOFS. Encoding and decoding undo each other (02 R32 to R55). -/

namespace Sys2Proof

/-! ### The opcode map (02 R55) -/

/-- The opcode of a well-formed instruction is a byte, of which the map makes the instruction again. -/
theorem ofOp_of_opcodeOf {i : Instr} {op : Nat} {e : Enc} (hw : WellFormed i = true) (h : opcodeOf i = some (op, e)) :
    op < 256 ∧ ofOp op e = i := by
  cases i
  case unassignedOpcode c _ =>
    cases h
    exact ⟨c.isLt, Laws.RoundTrip.ofOp_unassigned c e hw⟩
  all_goals
    cases h
  all_goals
    exact ⟨by decide, rfl⟩

/-- What the map makes of a byte is well formed and has that byte as its opcode. -/
theorem opcodeOf_ofOp (op : Nat) (e : Enc) (h : op < 256) :
    WellFormed (ofOp op e) = true ∧ opcodeOf (ofOp op e) = some (op, e) := by
  interval_cases op
  all_goals
    exact ⟨rfl, rfl⟩

theorem roundTrip (i : Instr) : Laws.RoundTrip.Statement i := by
  by_cases h : opcodeOf i = none
  · exact Laws.RoundTrip.of_event i h
  · obtain ⟨⟨op, e⟩, h⟩ := Option.ne_none_iff_exists'.mp h
    intro hw
    obtain ⟨hop, hi⟩ := ofOp_of_opcodeOf hw h
    exact Laws.RoundTrip.of_opcode i op e h hop hi hw

/-- Settles O54: an instruction's bytes decode to it by its opcode's row of the map, and an event has none. -/
theorem decodeUndoesEncode : Obligations.DecodeUndoesEncode :=
  fun i rest hw => roundTrip i hw rest

/-! ### Words as their fields (02 R35, R38, R39) -/

theorem bit_flag (w lo : Nat) : bit (flag w lo) = w / 2 ^ lo % 2 ^ 1 := by
  unfold flag
  rcases Nat.mod_two_eq_zero_or_one (w / 2 ^ lo) with h | h <;> rw [pow_one, h] <;> rfl

theorem toNat_ofNat_field (w lo n : Nat) : (BitVec.ofNat n (field w lo n)).toNat = w / 2 ^ lo % 2 ^ n := by
  simp [field]

/-- The low bits of a word are a field and the bits below it. -/
theorem mod_field (w lo n : Nat) : w % 2 ^ (lo + n) = w / 2 ^ lo % 2 ^ n * 2 ^ lo + w % 2 ^ lo := by
  rw [pow_add, Nat.mod_mul, Nat.add_comm, Nat.mul_comm]

theorem encodeFirst_decodeEnc (w : Nat) (hw : w < 2 ^ 32) (x : Option Ext) (l : Option W64)
    (hl : (decodeEnc w x l).len = w % 4) : encodeFirst (field w 2 8) (decodeEnc w x l) = w := by
  unfold encodeFirst
  rw [hl]
  simp only [decodeEnc, toNat_ofNat_field, bit_flag]
  have h26 := mod_field w 26 6; have h20 := mod_field w 20 6; have h14 := mod_field w 14 6; have h13 := mod_field w 13 1
  have h10 := mod_field w 10 3; have h2 := mod_field w 2 8; have h0 := Nat.mod_eq_of_lt hw
  simp only [Nat.reduceAdd, Nat.reducePow, field] at *
  linarith

theorem encodeW1_decodeExt (w1 w2 : Nat) (h : w1 < 2 ^ 32) : encodeW1 (decodeExt w1 w2) = w1 := by
  simp only [encodeW1, decodeExt, toNat_ofNat_field, bit_flag]
  have h26 := mod_field w1 26 6; have h25 := mod_field w1 25 1; have h24 := mod_field w1 24 1; have h23 := mod_field w1 23 1
  have h22 := mod_field w1 22 1; have h19 := mod_field w1 19 3; have h14 := mod_field w1 14 5; have h6 := mod_field w1 6 8
  have h4 := mod_field w1 4 2; have h2 := mod_field w1 2 2; have h0 := Nat.mod_eq_of_lt h
  simp only [Nat.reduceAdd, Nat.reducePow, Nat.div_one] at *
  linarith

theorem encodeW2_decodeExt (w1 w2 : Nat) (h : w2 < 2 ^ 32) : encodeW2 (decodeExt w1 w2) = w2 := by
  simp only [encodeW2, decodeExt, toNat_ofNat_field, bit_flag]
  have h16 := mod_field w2 16 16; have h15 := mod_field w2 15 1; have h14 := mod_field w2 14 1; have h13 := mod_field w2 13 1
  have h12 := mod_field w2 12 1; have h10 := mod_field w2 10 2; have h8 := mod_field w2 8 2; have h6 := mod_field w2 6 2
  have h3 := mod_field w2 3 3; have h0 := Nat.mod_eq_of_lt h
  simp only [Nat.reduceAdd, Nat.reducePow, Nat.div_one] at *
  linarith

/-! ### Bytes as words (00 R7) -/

theorem takeWord_of_length_lt {bs : List Byte} (h : bs.length < 4) : takeWord bs = none := by
  match bs, h with
  | [], _ => rfl
  | [_], _ => rfl
  | [_, _], _ => rfl
  | [_, _, _], _ => rfl

/-- Four bytes are a word. -/
theorem exists_wordBytes {bs : List Byte} (h : 4 ≤ bs.length) :
    ∃ w r, w < 2 ^ 32 ∧ bs = wordBytes w ++ r ∧ bs.length = r.length + 4 := by
  match bs, h with
  | b0 :: b1 :: b2 :: b3 :: r, _ =>
    have h0 := b0.isLt; have h1 := b1.isLt; have h2 := b2.isLt; have h3 := b3.isLt
    refine ⟨b0.toNat + 256 * b1.toNat + 65536 * b2.toNat + 16777216 * b3.toNat, r, by omega, ?_, rfl⟩
    simp only [wordBytes, List.cons_append, List.nil_append, List.cons.injEq, and_true]
    refine ⟨?_, ?_, ?_, ?_⟩ <;> (apply BitVec.eq_of_toNat_eq; rw [BitVec.toNat_ofNat]; omega)

theorem takeWord_length {bs r : List Byte} {w : Nat} (h : takeWord bs = some (w, r)) : bs.length = r.length + 4 := by
  unfold takeWord at h
  split at h
  · cases h; rfl
  · cases h

theorem wordBytes_first (w : Nat) (r : List Byte) : ((wordBytes w ++ r).getD 0 0).toNat % 4 = w % 4 := by
  simp only [wordBytes, List.cons_append, List.getD_cons_zero, BitVec.toNat_ofNat]
  omega

theorem takeWord_first {bs r : List Byte} {w : Nat} (h : takeWord bs = some (w, r)) : (bs.getD 0 0).toNat % 4 = w % 4 := by
  unfold takeWord at h
  split at h
  · cases h
    simp only [List.getD_cons_zero]
    omega
  · cases h

/-! ### The length of an instruction (02 R32) -/

theorem encodeOp_length (op : Nat) (e : Enc) : (encodeOp op e).length = e.size := by
  obtain ⟨b, a, d, gn, g, ext, lit⟩ := e
  cases ext <;> cases lit <;> rfl

theorem encodeOp_first (op : Nat) (e : Enc) (r : List Byte) : ((encodeOp op e ++ r).getD 0 0).toNat % 4 = e.len := by
  unfold encodeOp
  rw [List.append_assoc, List.append_assoc, wordBytes_first, first_len]

theorem lengths_getD (n : Nat) : [4, 12, 12, 20].getD (n % 4) 0 = sizeOfL (n % 4) := by
  have h := Nat.mod_lt n (by decide : 4 > 0)
  interval_cases n % 4 <;> rfl

theorem sizeOfL_ge (n : Nat) : 4 ≤ sizeOfL n := by
  unfold sizeOfL
  split <;> decide

theorem sizeOfL_le (n : Nat) : sizeOfL n ≤ 20 := by
  unfold sizeOfL
  split <;> decide

/-- What decodes is as long as its first word says. -/
theorem length_of_decode {bs rest : List Byte} {i : Instr} (h : decode bs = some (i, rest)) :
    sizeOfL ((bs.getD 0 0).toNat % 4) ≤ bs.length := by
  unfold decode at h
  simp only [Option.bind_eq_bind, Option.bind_eq_some_iff, Prod.exists] at h
  obtain ⟨w, r0, hw, h⟩ := h
  rw [takeWord_first hw, takeWord_length hw]
  split at h
  case h_1 hl => rw [show w % 4 = 0 from hl]; exact Nat.le_add_left _ _
  case h_2 hl =>
    simp only [Option.bind_eq_some_iff, Prod.exists] at h
    obtain ⟨_, r1, h1, _, r2, h2, _⟩ := h
    rw [show w % 4 = 1 from hl, takeWord_length h1, takeWord_length h2]
    exact Nat.le_add_left _ _
  case h_3 hl =>
    simp only [Option.bind_eq_some_iff, Prod.exists] at h
    obtain ⟨_, r1, h1, _, r2, h2, _⟩ := h
    rw [show w % 4 = 2 from hl, takeWord_length h1, takeWord_length h2]
    exact Nat.le_add_left _ _
  case h_4 =>
    simp only [Option.bind_eq_some_iff, Prod.exists] at h
    obtain ⟨_, r1, h1, _, r2, h2, _, r3, h3, _, r4, h4, _⟩ := h
    rw [takeWord_length h1, takeWord_length h2, takeWord_length h3, takeWord_length h4]
    exact (sizeOfL_le _).trans (Nat.le_add_left _ _)

/-- Eight bytes are the words 1 and 2 of an extended form (R38, R39). -/
theorem exists_extBytes {bs : List Byte} (h : 8 ≤ bs.length) :
    ∃ x r, bs = wordBytes (encodeW1 x) ++ wordBytes (encodeW2 x) ++ r ∧ bs.length = r.length + 8 := by
  obtain ⟨w1, r1, h1, rfl, hr1⟩ := exists_wordBytes (by omega : 4 ≤ bs.length)
  obtain ⟨w2, r2, h2, rfl, hr2⟩ := exists_wordBytes (by omega : 4 ≤ r1.length)
  refine ⟨decodeExt w1 w2, r2, ?_, by omega⟩
  rw [encodeW1_decodeExt w1 w2 h1, encodeW2_decodeExt w1 w2 h2, List.append_assoc]

/-- Eight bytes are the two words of a literal. -/
theorem exists_litBytes {bs : List Byte} (h : 8 ≤ bs.length) :
    ∃ (l : W64) (r : List Byte),
      bs = wordBytes (l.toNat % 4294967296) ++ wordBytes (l.toNat / 4294967296) ++ r ∧ bs.length = r.length + 8 := by
  obtain ⟨w1, r1, h1, rfl, hr1⟩ := exists_wordBytes (by omega : 4 ≤ bs.length)
  obtain ⟨w2, r2, h2, rfl, hr2⟩ := exists_wordBytes (by omega : 4 ≤ r1.length)
  have hl : (BitVec.ofNat 64 (w1 + 4294967296 * w2)).toNat = w1 + 4294967296 * w2 := by
    rw [BitVec.toNat_ofNat]; omega
  refine ⟨BitVec.ofNat 64 (w1 + 4294967296 * w2), r2, ?_, by omega⟩
  have hlow : (w1 + 4294967296 * w2) % 4294967296 = w1 := by omega
  have hhigh : (w1 + 4294967296 * w2) / 4294967296 = w2 := by omega
  rw [hl, hlow, hhigh, List.append_assoc]

/-- Bytes as long as their first word says begin with the encoding of an opcode and its fields. -/
theorem exists_encodeOp {bs : List Byte} (h : sizeOfL ((bs.getD 0 0).toNat % 4) ≤ bs.length) :
    ∃ op e rest, op < 256 ∧ bs = encodeOp op e ++ rest := by
  obtain ⟨w, r, hw, rfl, hr⟩ := exists_wordBytes ((sizeOfL_ge _).trans h)
  rw [wordBytes_first, hr] at h
  have hop : field w 2 8 < 256 := Nat.mod_lt _ (by decide)
  have hfirst (x : Option Ext) (l : Option W64) (hl : (decodeEnc w x l).len = w % 4) := encodeFirst_decodeEnc w hw x l hl
  match hl : w % 4, Nat.mod_lt w (by decide : 4 > 0) with
  | 0, _ =>
    refine ⟨_, decodeEnc w none none, r, hop, ?_⟩
    unfold encodeOp
    rw [hfirst none none hl.symm]
    simp [decodeEnc]
  | 1, _ =>
    rw [hl] at h
    obtain ⟨x, r1, rfl, _⟩ := exists_extBytes (by simp only [sizeOfL] at h; omega : 8 ≤ r.length)
    refine ⟨_, decodeEnc w (some x) none, r1, hop, ?_⟩
    unfold encodeOp
    rw [hfirst (some x) none hl.symm]
    simp [decodeEnc]
  | 2, _ =>
    rw [hl] at h
    obtain ⟨l, r1, rfl, _⟩ := exists_litBytes (by simp only [sizeOfL] at h; omega : 8 ≤ r.length)
    refine ⟨_, decodeEnc w none (some l), r1, hop, ?_⟩
    unfold encodeOp
    rw [hfirst none (some l) hl.symm]
    simp [decodeEnc]
  | 3, _ =>
    rw [hl] at h
    have h16 : 16 ≤ r.length := by simp only [sizeOfL] at h; omega
    obtain ⟨x, r1, rfl, h1⟩ := exists_extBytes (by omega : 8 ≤ r.length)
    obtain ⟨l, r2, rfl, _⟩ := exists_litBytes (by omega : 8 ≤ r1.length)
    refine ⟨_, decodeEnc w (some x) (some l), r2, hop, ?_⟩
    unfold encodeOp
    rw [hfirst (some x) (some l) hl.symm]
    simp [decodeEnc]

theorem encode_ofOp (op : Nat) (e : Enc) (h : op < 256) : encode (ofOp op e) = encodeOp op e := by
  unfold encode
  rw [(opcodeOf_ofOp op e h).2]

/-- What decodes is of one opcode, whose encoding the bytes begin with. -/
theorem decode_some {bs rest : List Byte} {i : Instr} (h : decode bs = some (i, rest)) :
    ∃ op e, op < 256 ∧ i = ofOp op e ∧ bs = encodeOp op e ++ rest := by
  obtain ⟨op, e, r, hop, rfl⟩ := exists_encodeOp (length_of_decode h)
  rw [decode_encodeOp op e hop] at h
  cases h
  exact ⟨op, e, hop, rfl, rfl⟩

/-- Settles O55: bytes as long as their first word says are an encoding, of which O54's round trip says what decodes. -/
theorem encodeUndoesDecode : Obligations.EncodeUndoesDecode := by
  refine ⟨fun bs rest i h => ?_, fun bs => ?_⟩
  · obtain ⟨op, e, hop, rfl, rfl⟩ := decode_some h
    obtain ⟨hw, ho⟩ := opcodeOf_ofOp op e hop
    rw [lengths_getD, encodeOp_first, encode_ofOp op e hop, encodeOp_length, ho]
    exact ⟨hw, rfl, rfl, rfl⟩
  · rw [lengths_getD]
    have hge := sizeOfL_ge ((bs.getD 0 0).toNat % 4)
    cases hd : decode bs with
    | some x =>
      have := length_of_decode hd
      simp only [reduceCtorEq, false_iff]
      omega
    | none =>
      simp only [true_iff]
      by_contra hlong
      obtain ⟨op, e, r, hop, rfl⟩ := exists_encodeOp (bs := bs) (by omega)
      rw [decode_encodeOp op e hop] at hd
      cases hd

end Sys2Proof
end

section
/-! PROOFS. Illegal encodings, in packs and in the fox slot (02 R57; 11 R343, R344), and what stops the machine. -/

namespace Sys2Proof.Machine

variable {i : Instr} {op : Nat} {e : Enc} {s : State}

/-- Every instruction that has an encoding issues through the one wrapper. -/
theorem exec_issue (h : opcodeOf i = some (op, e)) (s : State) : ∃ body, exec i s = issue i e body s := by
  cases i
  all_goals
    cases h
  all_goals
    exact ⟨_, rfl⟩

/-- The wrapper in a fox slot, for an instruction that the fox slot does not accept (11 R343, R344). -/
theorem issue_foxReject {body : Ctx → State → Res} {k : Nat} (hf : s.isFox = true) (hl : s.curPack.live = true)
    (hi : illopSub s.curPack.width i = none) (hk : foxSub i = some k) :
    issue i e body s = .next (foxFault s (s.cur - foxBase) ⟨clsIllop, k, 0, execMask s.curPack e⟩) := by
  unfold issue issueFox
  simp only [hf, hl, hi, hk, if_true, ite_self]

/-- An instruction whose encoding breaks a check of 02 R57 traps, whichever it is. -/
theorem exec_illop {k : Nat} (h : opcodeOf i = some (op, e)) (hf : s.isFox = false) (hl : (s.pack s.cur).live = true)
    (hr : statusPending s s.cur (s.pack s.cur).width i = false) (hk : illopSub (s.pack s.cur).width i = some k)
    (hm : issueMask s e ≠ 0 ∨ guardBreach i = true) :
    exec i s = .next (trapped s e ⟨clsIllop, k, BitVec.ofNat 64 (encodeFirst op e), issueMask s e⟩) := by
  obtain ⟨body, hb⟩ := exec_issue h s
  rw [hb, issue_illop hf hl hr hk hm, h]
  rfl

/-- A fox slot that is named as the issuer while it does not run (11 R342). -/
def idleFox : State := { State.reset with cur := foxBase }

theorem exec_idleFox (e : Enc) : exec (.nop e) idleFox = .fault .noIssuingPack := by
  have hl : idleFox.curPack.live = false := rfl
  show issue (.nop e) e (fun _ s => .done s 0) idleFox = _
  unfold issue
  simp only [hl, Bool.false_eq_true, if_false]
  rfl

end Sys2Proof.Machine

namespace Sys2Proof
open Machine

/-- Settles O13: every encoded instruction issues through one wrapper, which makes the checks of R57 and those of the fox slot first. -/
theorem illegalInstructions : Obligations.IllegalInstructions := by
  refine ⟨fun i op e s k ho hf hl hr hk hm => exec_illop ho hf hl hr hk hm, fun op e s hf hl hr hm => ?_,
    fun i op e s k ho hf hl hi hk => ?_⟩
  · exact exec_illop rfl hf hl hr rfl (.inl hm)
  · obtain ⟨body, hb⟩ := exec_issue ho s
    rw [hb, issue_foxReject hf hl hi hk]

/-- Refutes O60: an instruction also faults in a state that names, as the issuer, a fox slot that is not running; no step issues in such a
state, since it chooses among the running fox slots (11 R342). -/
theorem not_nothingRefused : ¬ Obligations.NothingRefused := by
  intro ⟨h, _⟩
  have hnop := h (.nop (Claims.plainEnc 0 0 0)) idleFox
  rw [exec_idleFox] at hnop
  obtain ⟨_, hfox, _⟩ := hnop
  exact absurd hfox (by decide)

end Sys2Proof
end

section
/-! PROOFS. What a step runs: the next event of the agenda, or the instruction that is fetched for the pack or fox slot chosen (02 R32 to
R34; 04 R99; 05 R134; 08 R227; 17 R501, R504). -/

namespace Sys2Proof.Machine

/-! ### The turn -/

section
variable {s : State} {i : Instr} {rest : List Instr}

theorem nextEvent_first (ha : s.agenda = i :: rest) (h : clocksRun s = true ∨ alwaysOn i = true) : nextEvent s = some (i, rest) := by
  unfold nextEvent
  have hi : (clocksRun s || alwaysOn i) = true := by simpa using h
  rw [ha, List.find?_cons, hi]
  simp

theorem nextEvent_none (h : ∀ i ∈ s.agenda, (clocksRun s || alwaysOn i) = false) : nextEvent s = none := by
  unfold nextEvent
  rw [List.find?_eq_none.mpr fun i hi => by rw [h i hi]; decide]

theorem step_event (h : nextEvent s = some (i, rest)) (ho : opcodeOf i = none) :
    step s = settleStalls s (exec i { s with agenda := rest }) := by
  unfold step
  rw [h]
  simp only [ho, Option.isSome_none, Bool.false_eq_true, if_false]

theorem step_encoded (h : nextEvent s = some (i, rest)) (ho : opcodeOf i ≠ none) : step s = ownStep { s with agenda := rest } := by
  unfold step
  rw [h]
  simp only [Option.isSome_iff_ne_none.mpr ho, if_true]

theorem step_own (h : nextEvent s = none) : step s = ownStep s := by
  unfold step
  rw [h]

theorem ownStep_stopped (hr : s.bar0.ready = true) (hc : clocksRun s = false) : ownStep s = .next (idle s) := by
  unfold ownStep
  simp [hr, hc]

/-- The packs' turn comes at even ticks, and where the engines have nothing to do. -/
theorem ownStep_issues (hr : s.bar0.ready = true) (hc : clocksRun s = true) (ht : s.tick % 2 = 0 ∨ engineStep s = none) :
    ownStep s = issueStep s := by
  unfold ownStep
  simp only [hr, hc, not_true_eq_false, if_false]
  split
  · rfl
  · rename_i hodd
    rw [ht.resolve_left hodd]

/-- A deferred trap that may be delivered comes before the fetch; otherwise what is fetched runs (02 R33; 15 R445). -/
theorem issueStep_fetched {s2 : State} {c : Cand} (h : chosen s = some c)
    (hd : (Claims.turning s c).isFox = true ∨ (Claims.turning s c).curPack.deferred = [] ∨
      (Claims.turning s c).curPack.save.inHandler = true ∨ (Claims.turning s c).curPack.progress.sent = true)
    (hf : fetch (Claims.turning s c) (Claims.turning s c).curCrewId (packPc (Claims.turning s c).curPack)
      (Claims.turning s c).curPack.sel = .instr i s2) :
    issueStep s = settleStalls s (exec i (readyLines i s2)) := by
  unfold issueStep
  rw [h]
  have hrun (run : Instr → State → Host.Outcome State Fault Refusal) :
      issueNext run { s with tick := s.tick + 1 } c = run i s2 := by
    unfold issueNext
    rw [show ({ s with tick := s.tick + 1, cur := c.id, turn := c.core + 1 } : State) = Claims.turning s c from rfl]
    simp only [hf]
    rw [if_neg (by tauto)]
  simp only [hrun]

end

/-! ### Register lines (05 R134) -/

theorem mem_of_mem_nubNat {l : List Nat} {x : Nat} (h : x ∈ nubNat l) : x ∈ l := by
  have hfold (a : List Nat) (hx : x ∈ l.foldl (fun a x => if a.contains x then a else a ++ [x]) a) : x ∈ a ∨ x ∈ l := by
    clear h
    induction l generalizing a with
    | nil => exact .inl hx
    | cons y l ih =>
      rcases ih _ hx with h | h
      · beta_reduce at h
        split at h
        · exact .inl h
        · simp only [List.mem_append, List.mem_singleton] at h
          exact h.imp id fun h => by simp [h]
      · exact .inr (List.mem_cons_of_mem _ h)
  simpa using hfold [] h

theorem missing_nubNat {s : State} {core pid : Nat} {rows : List Nat} (h : missing s core pid rows = []) :
    missing s core pid (nubNat rows) = [] := by
  unfold missing at h ⊢
  rw [List.filter_eq_nil_iff] at h ⊢
  exact fun r hr => h r (mem_of_mem_nubNat hr)

theorem readyLines_none {s : State} {i : Instr} (h : s.isFox = true ∨ instrRows s.curPack i = ([], [])) : readyLines i s = s := by
  unfold readyLines
  rcases h with h | h
  · simp only [h, if_true]
  · simp only [h, List.isEmpty_nil, Bool.and_self, if_true, ite_self]

theorem bringRows_present {s : State} {pid : Nat} {rows : List Nat × List Nat} (whole stalls : Bool)
    (h : missing s (s.coreOf (s.pack pid).crew) pid (rows.1 ++ rows.2) = []) : bringRows s pid rows whole stalls = s := by
  unfold bringRows
  simp only [missing_nubNat h, List.isEmpty_nil, if_true]

/-- Where no row lacks its line, only the order and the marks of the lines change. -/
theorem readyLines_present {s : State} {i : Instr}
    (h : missing s (s.coreOf s.curPack.crew) s.cur ((instrRows s.curPack i).1 ++ (instrRows s.curPack i).2) = []) :
    ∃ rf, readyLines i s = { s with rf := rf } := by
  unfold readyLines
  split
  · exact ⟨s.rf, rfl⟩
  · rename_i hf
    simp only
    split
    · exact ⟨s.rf, rfl⟩
    · rw [bringRows_present _ _ (by rwa [State.curPack_pack s (by simpa using hf)] at h ⊢)]
      exact ⟨_, rfl⟩

/-! ### Fetch (02 R33; 08 R227) -/

/-- States that differ at most in what translations note. -/
theorem exists_of_sansXlate {s t : State} (h : Claims.sansXlate t = Claims.sansXlate s) :
    ∃ u l k, t = { s with utlb := u, tlb := l, counters := k } := by
  refine ⟨t.utlb, t.tlb, t.counters, ?_⟩
  calc t = { Claims.sansXlate t with utlb := t.utlb, tlb := t.tlb, counters := t.counters } := rfl
    _ = _ := by rw [h]; rfl

theorem noPartials_of_sansXlate {s t : State} (h : Claims.sansXlate t = Claims.sansXlate s) (hn : ∀ g, Claims.noPartials s g) (g : Nat) :
    Claims.noPartials t g := by
  obtain ⟨_, _, _, rfl⟩ := exists_of_sansXlate h
  exact hn g

theorem sansXlate_count (s : State) (id unit n : Nat) : Claims.sansXlate (s.count id unit n) = Claims.sansXlate s := rfl

theorem sansXlate_caches (s : State) (u l : Tab (List TlbEntry)) :
    Claims.sansXlate { s with utlb := u, tlb := l } = Claims.sansXlate s := rfl

@[simp] theorem noteXlate_sansXlate (s : State) (core asid va : Nat) (x : Xl) :
    Claims.sansXlate (noteXlate s core asid va x) = Claims.sansXlate s := by
  unfold noteXlate
  rw [sansXlate_caches]
  simp only [apply_ite Claims.sansXlate, sansXlate_count, ite_self]

/-- The entry that a translation leaves in the caches. -/
def xlEntry (asid va : Nat) (x : Xl) : TlbEntry := ⟨asid, x.level, va / 2 ^ pageBits x.level, BitVec.ofNat 64 x.pte⟩

theorem noteXlate_utlb (s : State) (core asid va : Nat) (x : Xl) : (noteXlate s core asid va x).utlb =
    Tab.set [] s.utlb core (lruPut 64 (xlEntry asid va x) (Tab.get [] s.utlb core)) := by
  unfold noteXlate
  simp only [apply_ite State.utlb, State.count_utlb, ite_self]
  rfl

theorem noteXlate_tlb (s : State) (core asid va : Nat) (x : Xl) : (noteXlate s core asid va x).tlb =
    Tab.set [] s.tlb (clusterOfCore core) (lruPut 4096 (xlEntry asid va x) (Tab.get [] s.tlb (clusterOfCore core))) := by
  unfold noteXlate
  simp only [apply_ite State.tlb, State.count_tlb, ite_self]
  rfl

theorem recallGran_noteXlate {s : State} (hn : ∀ g, Claims.noPartials s g) (core asid va g : Nat) (x : Xl) :
    recallGran (noteXlate s core asid va x) g = noteXlate s core asid va x :=
  recallGran_none _ _ (gathersNone_of_noPartials (noPartials_of_sansXlate (noteXlate_sansXlate s core asid va x) hn g))

/-- What fetching words answers: a state that differs in what translations note alone, or a failure. -/
def FetchesFrom (s : State) : Except Fetched (State × List Byte) → Prop
  | .ok (t, _) => Claims.sansXlate t = Claims.sansXlate s
  | .error f => ∀ i t, f ≠ .instr i t

theorem fetchWord_from {s : State} (hn : ∀ g, Claims.noPartials s g) (crew va : Nat) : FetchesFrom s (fetchWord s crew va) := by
  unfold fetchWord
  simp only
  split
  · exact fun _ _ h => by cases h
  · split
    · split <;> exact fun _ _ h => by cases h
    · split
      · exact fun _ _ h => by cases h
      · rw [recallGran_noteXlate hn]
        exact noteXlate_sansXlate s _ _ _ _

theorem fetchWords_from {s : State} (hn : ∀ g, Claims.noPartials s g) (crew n va : Nat) : FetchesFrom s (fetchWords s crew n va) := by
  induction n generalizing s va with
  | zero => exact rfl
  | succ n ih =>
    have hw := fetchWord_from hn crew va
    unfold fetchWords
    cases h : fetchWord s crew va with
    | error e => rw [h] at hw; exact hw
    | ok x =>
      obtain ⟨t, a⟩ := x
      rw [h] at hw
      have hws := ih (noPartials_of_sansXlate hw hn) (va + 4)
      simp only
      cases h' : fetchWords t crew n (va + 4) with
      | error e => rw [h'] at hws; exact hws
      | ok y =>
        obtain ⟨u, b⟩ := y
        rw [h'] at hws
        exact hws.trans hw

theorem Fetched.at_ne_instr {f : Fetched} (h : ∀ i t, f ≠ .instr i t) (pc : W64) (m : BitVec 64) (n : Nat) (i : Instr) (t : State) :
    f.at pc m n ≠ .instr i t := by
  cases f with
  | instr j u => exact absurd rfl (h j u)
  | trap _ _ => exact fun h => by cases h
  | pages _ => exact fun h => by cases h
  | uce _ => exact fun h => by cases h

/-- A fetch that brings an instruction leaves a trace in what translations note, and nowhere else. -/
theorem fetch_sansXlate {s t : State} {crew : Nat} {pc m : W64} {i : Instr} (hn : ∀ g, Claims.noPartials s g)
    (h : fetch s crew pc m = .instr i t) : Claims.sansXlate t = Claims.sansXlate s := by
  unfold fetch at h
  have h1 := fetchWords_from hn crew 1 pc.toNat
  cases hb : fetchWords s crew 1 pc.toNat with
  | error e =>
    rw [hb] at h h1
    exact absurd h (Fetched.at_ne_instr h1 _ _ _ _ _)
  | ok x =>
    obtain ⟨_, b0⟩ := x
    rw [hb] at h
    simp only at h
    have h2 := fetchWords_from hn crew (sizeOfL (leNat b0 % 4) / 4) pc.toNat
    cases hs : fetchWords s crew (sizeOfL (leNat b0 % 4) / 4) pc.toNat with
    | error e =>
      rw [hs] at h h2
      exact absurd h (Fetched.at_ne_instr h2 _ _ _ _ _)
    | ok y =>
      obtain ⟨u, bs⟩ := y
      rw [hs] at h h2
      simp only at h
      split at h
      · cases h; exact h2
      · cases h

/-! ### Walks and the entries that they leave in the caches (08 R231, R232) -/

/-- A walk ends at the entry of its table that the address picks, or goes on in the table that it names. -/
theorem walkFrom_ok {s : State} {va lvl tab : Nat} {kind : XKind} {space : Nat} {x : Xl}
    (h : walkFrom s va kind space lvl tab = .ok x) :
    let pte := s.rdNat (tab + 8 * levelIndex va lvl) 8
    (bitAt pte 1 = true ∧ x.pte = pte ∧ x.level = lvl ∧ leafPa s.tierTwo pte lvl va kind space = .ok x.pa) ∨
      (bitAt pte 1 = false ∧ ∃ l, lvl = l + 1 ∧ walkFrom s va kind space l (bits pte 16 40 * 65536) = .ok x) := by
  intro pte
  rw [walkFrom.eq_def] at h
  simp only at h
  split at h
  · cases h
  split at h
  · cases h
  split at h
  · rename_i hleaf
    split at h
    · cases h
    · rename_i pa hpa
      cases h
      exact .inl ⟨hleaf, rfl, rfl, hpa⟩
  · rename_i hnext
    split at h
    · cases h
    · split at h
      · cases h
      · exact .inr ⟨by simpa using hnext, _, rfl, h⟩

theorem leNat_lt (l : List Byte) : leNat l < 2 ^ (8 * l.length) := by
  induction l with
  | nil => decide
  | cons b l ih =>
    have := b.isLt
    simp only [leNat, List.length_cons, Nat.mul_add, Nat.mul_one, pow_add]
    omega

theorem State.rdNat_lt (s : State) (pa n : Nat) : s.rdNat pa n < 2 ^ (8 * n) := by
  simpa [State.rdNat, State.rdBytes] using leNat_lt (s.rdBytes pa n)

/-- The leaf that a walk finds gives the address. -/
theorem walkFrom_leaf {s : State} {va lvl tab : Nat} {kind : XKind} {space : Nat} {x : Xl}
    (h : walkFrom s va kind space lvl tab = .ok x) :
    x.level ≤ lvl ∧ x.pte < 2 ^ 64 ∧ leafPa s.tierTwo x.pte x.level va kind space = .ok x.pa := by
  induction lvl generalizing tab with
  | zero =>
    obtain ⟨_, hp, hl, ha⟩ | ⟨_, _, hl, _⟩ := walkFrom_ok h
    · rw [hp, hl]; exact ⟨le_rfl, s.rdNat_lt _ 8, ha⟩
    · cases hl
  | succ lvl ih =>
    obtain ⟨_, hp, hl, ha⟩ | ⟨_, _, hl, hnext⟩ := walkFrom_ok h
    · rw [hp, hl]; exact ⟨le_rfl, s.rdNat_lt _ 8, ha⟩
    · cases hl
      obtain ⟨hle, hrest⟩ := ih hnext
      exact ⟨Nat.le_succ_of_le hle, hrest⟩

theorem levelIndex_congr {va va' lvl n : Nat} (h : va / 2 ^ pageBits n = va' / 2 ^ pageBits n) (hn : n ≤ lvl) (hl : lvl ≤ 3) :
    levelIndex va lvl = levelIndex va' lvl := by
  interval_cases lvl <;> interval_cases n <;> simp only [levelIndex, bits, pageBits] at h ⊢ <;> omega

/-- Two addresses of one page find the same leaf. -/
theorem walkFrom_samePage {s : State} {va va' lvl tab : Nat} {kind : XKind} {space : Nat} {x x' : Xl} (hl : lvl ≤ 3)
    (h : walkFrom s va kind space lvl tab = .ok x) (h' : walkFrom s va' kind space lvl tab = .ok x')
    (hp : va / 2 ^ pageBits x.level = va' / 2 ^ pageBits x.level) : x'.pte = x.pte ∧ x'.level = x.level := by
  induction lvl generalizing tab with
  | zero =>
    have hi := levelIndex_congr hp (walkFrom_leaf h).1 hl
    obtain ⟨_, hpte, hlev, _⟩ | ⟨_, _, hz, _⟩ := walkFrom_ok h
    · obtain ⟨_, hpte', hlev', _⟩ | ⟨_, _, hz, _⟩ := walkFrom_ok h'
      · rw [hpte, hlev, hpte', hlev', hi]; exact ⟨rfl, rfl⟩
      · cases hz
    · cases hz
  | succ lvl ih =>
    have hi := levelIndex_congr hp (walkFrom_leaf h).1 hl
    obtain ⟨hb, hpte, hlev, _⟩ | ⟨hb, _, hz, hnext⟩ := walkFrom_ok h
    · obtain ⟨_, hpte', hlev', _⟩ | ⟨hb', _⟩ := walkFrom_ok h'
      · rw [hpte, hlev, hpte', hlev', hi]; exact ⟨rfl, rfl⟩
      · rw [hi, hb'] at hb; cases hb
    · obtain ⟨hb', _⟩ | ⟨_, _, hz', hnext'⟩ := walkFrom_ok h'
      · rw [hi, hb'] at hb; cases hb
      · cases hz
        cases hz'
        rw [hi] at hnext
        exact ih (Nat.le_of_succ_le hl) hnext hnext'

theorem walk_ok {s : State} {asid va : Nat} {kind : XKind} {space : Nat} {x : Xl} (h : walk s asid va kind space = .ok x) :
    walkFrom s va kind space 3 (bits (s.rdNat (s.bar0.asidt.toNat + 16 * asid) 16) 21 35 * 2 ^ 21) = .ok x := by
  unfold walk at h
  simp only at h
  split at h
  · cases h
  · split at h
    · cases h
    · exact h

theorem walkFrom_sansXlate {s t : State} (h : Claims.sansXlate t = Claims.sansXlate s) (va : Nat) (kind : XKind) (space lvl tab : Nat) :
    walkFrom t va kind space lvl tab = walkFrom s va kind space lvl tab := by
  obtain ⟨_, _, _, rfl⟩ := exists_of_sansXlate h
  induction lvl generalizing tab with
  | zero => rfl
  | succ lvl ih =>
    rw [walkFrom.eq_def, walkFrom.eq_def]
    simp only [ih]
    rfl

theorem walk_sansXlate {s t : State} (h : Claims.sansXlate t = Claims.sansXlate s) (asid va : Nat) (kind : XKind) (space : Nat) :
    walk t asid va kind space = walk s asid va kind space := by
  unfold walk
  simp only [walkFrom_sansXlate h]
  obtain ⟨_, _, _, rfl⟩ := exists_of_sansXlate h
  rfl

/-- The caches that fetches of a core look into hold leaves that walks find. -/
def CachesWalks (s : State) (core : Nat) : Prop :=
  ∀ e ∈ Tab.get [] s.utlb core ++ Tab.get [] s.tlb (clusterOfCore core),
    ∃ va x, walk s e.asid va .fetch 0 = .ok x ∧ e = xlEntry e.asid va x

theorem tlbFind_some {l : List TlbEntry} {asid va : Nat} {e : TlbEntry} (h : tlbFind l asid va = some e) :
    e ∈ l ∧ e.asid = asid ∧ e.page = va / 2 ^ pageBits e.level := by
  have hp := List.find?_some h
  simp only [Bool.and_eq_true, beq_iff_eq] at hp
  exact ⟨List.mem_of_find?_eq_some h, hp⟩

/-- A cached leaf gives what the walk would. -/
theorem leafPa_cached {s : State} {core asid va : Nat} {x : Xl} {e : TlbEntry} (hc : CachesWalks s core)
    (h : walk s asid va .fetch 0 = .ok x) (he : e ∈ Tab.get [] s.utlb core ++ Tab.get [] s.tlb (clusterOfCore core))
    (ha : e.asid = asid) (hp : e.page = va / 2 ^ pageBits e.level) :
    leafPa s.tierTwo e.pte.toNat e.level va .fetch 0 = .ok x.pa ∧ e.pte.toNat = x.pte ∧ e.level = x.level := by
  obtain ⟨va0, x0, h0, he0⟩ := hc e he
  rw [ha] at h0 he0
  subst he0
  obtain ⟨hpte, hlev⟩ := walkFrom_samePage le_rfl (walk_ok h0) (walk_ok h) hp
  obtain ⟨_, hlt, hleaf⟩ := walkFrom_leaf (walk_ok h)
  have hx : (xlEntry asid va0 x0).pte.toNat = x.pte := by
    simp only [xlEntry, ← hpte, BitVec.toNat_ofNat, Nat.mod_eq_of_lt hlt]
  have hl : (xlEntry asid va0 x0).level = x.level := hlev.symm
  rw [hx, hl]
  exact ⟨hleaf, rfl, rfl⟩

theorem xlate_of_walk {s : State} {core asid va : Nat} {x : Xl} (hc : CachesWalks s core) (h : walk s asid va .fetch 0 = .ok x) :
    xlate s core asid va .fetch 0 = .ok x := by
  unfold xlate
  simp only
  split
  · rename_i e hit
    have he : e ∈ Tab.get [] s.utlb core ++ Tab.get [] s.tlb (clusterOfCore core) ∧ e.asid = asid ∧
        e.page = va / 2 ^ pageBits e.level := by
      rw [Option.orElse_eq_or, Option.or_eq_some_iff] at hit
      rcases hit with hit | ⟨_, hit⟩
      · obtain ⟨hm, hp⟩ := tlbFind_some hit
        exact ⟨List.mem_append_left _ hm, hp⟩
      · obtain ⟨hm, hp⟩ := tlbFind_some hit
        exact ⟨List.mem_append_right _ hm, hp⟩
    obtain ⟨hm, ha, hp⟩ := he
    obtain ⟨hleaf, hpte, hlev⟩ := leafPa_cached hc h hm ha hp
    rw [hleaf, hpte, hlev]
  · exact h

theorem mem_lruPut {n : Nat} {x e : TlbEntry} {l : List TlbEntry} (h : e ∈ lruPut n x l) : e = x ∨ e ∈ l := by
  rcases List.mem_cons.mp (List.mem_of_mem_take h) with h | h
  · exact .inl h
  · exact .inr (List.mem_of_mem_filter h)

theorem CachesWalks.noteXlate {s : State} {core asid va : Nat} {x : Xl} (hc : CachesWalks s core)
    (h : walk s asid va .fetch 0 = .ok x) : CachesWalks (noteXlate s core asid va x) core := by
  intro e he
  rw [noteXlate_utlb, noteXlate_tlb, Tab.get_set_same, Tab.get_set_same, List.mem_append] at he
  simp only [walk_sansXlate (noteXlate_sansXlate s core asid va x)]
  have hnew : e = xlEntry asid va x ∨ e ∈ Tab.get [] s.utlb core ++ Tab.get [] s.tlb (clusterOfCore core) := by
    rcases he with he | he
    · exact (mem_lruPut he).imp_right (List.mem_append_left _)
    · exact (mem_lruPut he).imp_right (List.mem_append_right _)
  rcases hnew with rfl | hold
  · exact ⟨va, x, h, rfl⟩
  · exact hc e hold

/-! ### The code at the program counter -/

/-- A word of the code stands at `va`: it lies in .text, and its page may be fetched, gives no error and holds the bytes `f`. -/
def WordAt (s : State) (crew va : Nat) (f : Nat → Byte) : Prop :=
  let l := s.launch (s.crew crew).launch
  l.hdr.text ≤ va ∧ va + 4 ≤ l.hdr.text + l.hdr.textsz ∧
    ∃ x, walk s l.asid va .fetch 0 = .ok x ∧ s.spoiled x.pa = none ∧ ∀ k < 4, s.byte (x.pa + k) = f k

theorem WordAt.sansXlate {s t : State} {crew va : Nat} {f : Nat → Byte} (h : Claims.sansXlate t = Claims.sansXlate s)
    (hw : WordAt s crew va f) : WordAt t crew va f := by
  unfold WordAt
  simp only [walk_sansXlate h]
  obtain ⟨_, _, _, rfl⟩ := exists_of_sansXlate h
  exact hw

theorem fetchWord_of_wordAt {s : State} {crew va : Nat} {f : Nat → Byte} (hn : ∀ g, Claims.noPartials s g)
    (hc : CachesWalks s (s.crew crew).core) (hw : WordAt s crew va f) :
    ∃ t, fetchWord s crew va = .ok (t, (List.range 4).map f) ∧ Claims.sansXlate t = Claims.sansXlate s ∧
      CachesWalks t (s.crew crew).core := by
  obtain ⟨hlo, hhi, x, hx, hsp, hb⟩ := hw
  have hs := noteXlate_sansXlate s (s.crew crew).core (s.launch (s.crew crew).launch).asid va x
  refine ⟨_, ?_, hs, hc.noteXlate hx⟩
  unfold fetchWord
  simp only [xlate_of_walk hc hx, hsp, recallGran_noteXlate hn]
  rw [if_neg (by omega)]
  have hbytes : (noteXlate s (s.crew crew).core (s.launch (s.crew crew).launch).asid va x).rdBytes x.pa 4 = (List.range 4).map f := by
    obtain ⟨_, _, _, ht⟩ := exists_of_sansXlate hs
    rw [ht]
    exact List.map_congr_left fun k hk => hb k (List.mem_range.mp hk)
  rw [hbytes]

theorem fetchWords_of_wordsAt {s : State} {crew : Nat} (n va : Nat) {f : Nat → Byte} (hn : ∀ g, Claims.noPartials s g)
    (hc : CachesWalks s (s.crew crew).core) (hw : ∀ j < n, WordAt s crew (va + 4 * j) fun k => f (4 * j + k)) :
    ∃ t, fetchWords s crew n va = .ok (t, (List.range (4 * n)).map f) := by
  induction n generalizing s va f with
  | zero => exact ⟨s, rfl⟩
  | succ n ih =>
    obtain ⟨t, ht, hst, hct⟩ := fetchWord_of_wordAt hn hc (by simpa using hw 0 (Nat.succ_pos n))
    have hcrew : t.crew crew = s.crew crew := by
      obtain ⟨_, _, _, rfl⟩ := exists_of_sansXlate hst
      rfl
    have hrest (j : Nat) (hj : j < n) : WordAt t crew (va + 4 + 4 * j) fun k => f (4 + (4 * j + k)) := by
      have hj := (hw (j + 1) (Nat.succ_lt_succ hj)).sansXlate hst
      rw [show va + 4 + 4 * j = va + 4 * (j + 1) by omega]
      simpa only [Nat.mul_add, Nat.mul_one, Nat.add_comm, Nat.add_left_comm, Nat.add_assoc] using hj
    obtain ⟨u, hu⟩ := ih (va + 4) (f := fun k => f (4 + k)) (noPartials_of_sansXlate hst hn) (by rwa [hcrew]) hrest
    refine ⟨u, ?_⟩
    unfold fetchWords
    simp only [ht, hu]
    rw [Nat.mul_succ, Nat.add_comm (4 * n), List.range_add, List.map_append, List.map_map]
    rfl

theorem map_getD_range (l : List Byte) : (List.range l.length).map (fun k => l.getD k 0) = l := by
  refine List.ext_getElem (by simp) fun k h1 h2 => ?_
  simp [h2]

/-- The fetch reads the first word, then the instruction's words, and decodes them. -/
theorem fetch_of_codeAt {s : State} {crew : Nat} {pc m : W64} {i : Instr} (hw : WellFormed i = true) (ho : (opcodeOf i).isSome = true)
    (hcode : Claims.codeAt s crew pc.toNat i) (hn : ∀ g, Claims.noPartials s g) (hc : CachesWalks s (s.crew crew).core) :
    ∃ t, fetch s crew pc m = .instr i t := by
  obtain ⟨⟨op, e⟩, h⟩ := Option.isSome_iff_exists.mp ho
  have henc : encode i = encodeOp op e := by unfold encode; rw [h]
  have hlen : (encode i).length = e.size := by rw [henc, encodeOp_length]
  have hsize : 4 * (e.size / 4) = e.size ∧ 1 ≤ e.size / 4 := by
    unfold Enc.size sizeOfL
    split <;> decide
  have hwords (n : Nat) (hle : n ≤ e.size / 4) : ∃ t, fetchWords s crew n pc.toNat =
      .ok (t, (List.range (4 * n)).map fun k => (encode i).getD k 0) :=
    fetchWords_of_wordsAt n pc.toNat hn hc fun j hj => hcode j (by omega)
  obtain ⟨_, h1⟩ := hwords 1 hsize.2
  obtain ⟨t, h2⟩ := hwords (e.size / 4) le_rfl
  rw [hsize.1, ← hlen, map_getD_range] at h2
  have hfirst : sizeOfL (leNat ((List.range (4 * 1)).map fun k => (encode i).getD k 0) % 4) = e.size := by
    have hb := encodeOp_first op e []
    rw [List.append_nil, ← henc] at hb
    unfold Enc.size
    rw [← hb]
    congr 1
    simp only [Nat.mul_one, List.range_succ_eq_map, List.map_cons, leNat]
    omega
  have hdecode : decode (encode i) = some (i, []) := by
    obtain ⟨hop, hi⟩ := ofOp_of_opcodeOf hw h
    have := decode_encodeOp op e hop []
    rwa [List.append_nil, hi, ← henc] at this
  refine ⟨t, ?_⟩
  unfold fetch
  simp only [h1, hfirst, hlen ▸ h2, hdecode]

end Sys2Proof.Machine

namespace Sys2Proof
open Machine

/-- Settles O56: the agenda comes first, then the turn; nothing that a fetch does before its instruction changes what a program reads, and
the caches that it fills give the later words of an instruction the walk's own addresses. -/
theorem stepRunsDecoded : Obligations.StepRunsDecoded := by
  refine ⟨fun s t i rest ha hc => ⟨fun ho ht => ?_, fun ho => ?_⟩, fun s hr hc ha => ?_, fun s s2 t c i ha hr hc ht hch => ?_,
    fun s i => ⟨readyLines_none, fun hm => ?_⟩, fun s s2 crew pc m i hn h => fetch_sansXlate hn h,
    fun s crew pc m i hw ho hcode hn hu hl => fetch_of_codeAt hw ho hcode hn ?_⟩
  · rw [step_event (nextEvent_first ha hc) ho, ht]
    rfl
  · exact step_encoded (nextEvent_first ha hc) ho
  · have hnone := nextEvent_none fun i hi => by rw [hc, ha i hi]; rfl
    exact ⟨idle s, by rw [step_own hnone, ownStep_stopped hr hc], rfl, rfl, rfl, rfl⟩
  · intro s1 hd hf hx
    have hnone : nextEvent s = none := nextEvent_none fun i hi => by rw [ha] at hi; cases hi
    rw [step_own hnone, ownStep_issues hr hc ht, issueStep_fetched hch hd hf, hx]
    rfl
  · obtain ⟨rf, hrf⟩ := readyLines_present hm
    simp only [hrf, and_self]
  · intro e he
    rw [hu, show Tab.get [] s.tlb (clusterOfCore (s.crew crew).core) = [] from hl] at he
    cases he

end Sys2Proof
end

section
/-! PROOFS. A lane instruction whose body is `laneOp` over the function of a claim's row completes with that row; and the conversions are
such (03 R85 to R90; 06 R170, R185 to R193). -/

namespace Sys2Proof.Machine

/-! ### Lane operations -/

section
variable {c : Ctx} {n d : Nat} {signed : Bool} {f g : Job → List Nat → Nat × Fl} {p q : Pack}

/-- Threads that raise no enabled flag take no FPE trap (06 R170). -/
theorem fpeTrap_none {fl : List (Nat × Fl)} (h : ∀ x ∈ fl, x.2 &&& enabledFlags p = 0) : fpeTrap p fl = none := by
  have hbad : fl.filter (fun x => x.2 &&& enabledFlags p ≠ 0) = [] :=
    List.filter_eq_nil_iff.mpr fun x hx => by simpa using h x hx
  unfold fpeTrap
  simp only [hbad, List.isEmpty_nil, if_true]

/-- Where no thread of the mask raises an enabled flag, the operation completes. -/
theorem laneOp_quiet (h : ∀ u ∈ lanesOf c.m p.width, laneFlags c d f p u &&& enabledFlags p = 0) :
    ∃ q, laneOp c n signed d f p = .ok q := by
  have hnone : fpeTrap p (jobFlags c p (laneOut c d f p)) = none := by
    rw [jobFlags_eq]
    exact fpeTrap_none (List.forall_mem_map.mpr h)
  rw [laneOp_eq, hnone]
  exact ⟨_, rfl⟩

/-- Only what the function says of the instruction's own elements counts. -/
theorem laneOut_congr (h : ∀ j ∈ jobsOf c p, ∀ u, f j u = g j u) : laneOut c d f p = laneOut c d g p :=
  List.map_congr_left fun x hx => by rw [h x.1 (List.fst_mem_of_mem_zipIdx hx)]

theorem laneOp_congr (h : ∀ j ∈ jobsOf c p, ∀ u, f j u = g j u) : laneOp c n signed d f p = laneOp c n signed d g p := by
  rw [laneOp_eq, laneOp_eq, laneOut_congr h]

theorem LaneDone.launch (h : LaneDone c n signed d f p q) : q.launch = p.launch := (congrArg Pack.launch h.rest :)
theorem LaneDone.lin (h : LaneDone c n signed d f p q) : q.lin = p.lin := (congrArg Pack.lin h.rest :)

/-- Without a block every element stands at the anchor. -/
theorem jobsOf_anchor (h : blockElems c.e = [(0, 0)]) {j : Job} (hj : j ∈ jobsOf c p) : ∃ t, j = ⟨t, 0, 0⟩ := by
  unfold jobsOf at hj
  rw [h] at hj
  split at hj
  · exact ⟨0, List.mem_singleton.mp hj⟩
  · obtain ⟨t, -, ht⟩ := List.mem_flatMap.mp hj
    exact ⟨t, List.mem_singleton.mp ht⟩

end

/-! ### Instructions that run a row -/

section
variable {i : Instr} {e : Enc} {s : State}

/-- A legal instruction of a form with registers, whose row of R57 admits no block, has one element in each thread. -/
theorem legal_single {w o : Nat} {r : Row} (h : illopSub w i = none) (ho : opcodeOf i = some (o, e)) (hr : rowOf w i = some r)
    (hb : r.block = false) (hf : r.form = .rr ∨ r.form = .ri ∨ r.form = .xe) : blockElems e = [(0, 0)] := by
  have hsubs := legal_row h ho hr
  unfold rowSubs at hsubs
  have hreg : (decide (r.form = .rr) || decide (r.form = .ri) || decide (r.form = .xe) || decide (r.form = .mm)) = true := by
    rcases hf with h | h | h <;> simp [h]
  simp only [hreg, if_true, List.append_eq_nil_iff] at hsubs
  have hblock : blockSubs r e = [] := by tauto
  exact blockElems_of_blockSubs hb hblock

/-- An instruction issues with a lane operation on the row's function, and its destination block fits the registers. -/
structure RunsRow (i : Instr) (e : Enc) (r : Claims.LaneRow) (s : State) : Prop where
  issues : ∃ f : Ctx → Pack → Except Trap Pack, exec i s = issue i e (onPack f) s ∧
    f (issueCtx s e) (issuing s) = laneOp (issueCtx s e) r.bits r.signed r.draws (r.val (issuing s)) (issuing s)
  fits : (encX e).kd = false → BlockFits e r.bits

/-- An instruction that runs a row completes with its results where no thread raises an enabled flag (06 R167, R170). -/
theorem RunsRow.result {r : Claims.LaneRow} (hrun : RunsRow i e r s) (h : Issuable i s)
    (hq : Claims.quiet (issueCtx s e) r (issuing s)) : Claims.LaneResult i e r s := by
  obtain ⟨⟨f, hexec, hf⟩, hfits⟩ := hrun
  obtain ⟨q, hok⟩ := laneOp_quiet hq
  have hdone := laneOp_done _ _ _ _ _ _ _ hfits hok
  exact ⟨q, hexec.trans (issue_onPack_done h (hf.trans hok) (hdone.launch.trans (issuing_launch s))
    (hdone.lin.trans (issuing_lin s))), hdone⟩

end

/-! ### The conversions (06 R185 to R193) -/

section
variable {e : Enc} {s : State}

/-- The types between which f2f widens (06 R187; log entry 14). -/
theorem widens_iff (src dst : Nat) : widens src dst = true ↔ dst = 0x0E ∨ (dst = 0x0D ∧ src ≠ 0x0E) := by
  simp [widens]

theorem f2i_runs (h : Issuable (.f2i e) s) {r : Claims.LaneRow} (hr : Claims.convertRow (.f2i e) = some (e, r)) :
    RunsRow (.f2i e) e r s := by
  cases hr
  exact ⟨⟨f2iBody, rfl, rfl⟩, legal_fits h.legal rfl rfl (.inl rfl) (.inl rfl)⟩

theorem i2f_runs (h : Issuable (.i2f e) s) {r : Claims.LaneRow} (hr : Claims.convertRow (.i2f e) = some (e, r)) :
    RunsRow (.i2f e) e r s := by
  cases hr
  exact ⟨⟨i2fBody, rfl, rfl⟩, legal_fits h.legal rfl rfl (.inl rfl) (.inl rfl)⟩

theorem f2f_runs (h : Issuable (.f2f e) s) {r : Claims.LaneRow} (hr : Claims.convertRow (.f2f e) = some (e, r)) :
    RunsRow (.f2f e) e r s := by
  cases hr
  refine ⟨⟨f2fBody, rfl, laneOp_congr fun j _ u => ?_⟩, legal_fits h.legal rfl rfl (.inl rfl) (.inl rfl)⟩
  simp only [widens_iff]
  rfl

/-- An element takes draws only under the stochastic mode (03 R90). -/
theorem drawsOf_drawsAt (e : Enc) (k : Nat) : (if drawsOf e = 0 then 0 else k) = Claims.drawsAt e k := by
  unfold drawsOf Claims.drawsAt
  split <;> rfl

/-- cvtpk packs two elements of 16 bits, four of 4 bits into half of its register, or four bytes (06 R188). -/
theorem cvtpkBody_eq {c : Ctx} {r : Claims.LaneRow} (hr : Claims.convertRow (.cvtpk c.e) = some (c.e, r)) (p : Pack) :
    cvtpkBody c p = laneOp c r.bits r.signed r.draws (r.val p) p := by
  cases hr
  simp only [cvtpkBody, drawsOf_drawsAt]
  refine laneOp_congr fun j _ u => ?_
  by_cases h16 : typeBits (encTy c.e 0) = 16
  · simp only [cvtpkSources, h16, if_true]
    rfl
  · by_cases h4 : typeBits (encTy c.e 0) = 4
    · simp only [cvtpkSources, h4, if_true]
      split <;> rfl
    · simp only [cvtpkSources, h16, h4, if_false]
      rfl

theorem cvtpk_runs (h : Issuable (.cvtpk e) s) {r : Claims.LaneRow} (hr : Claims.convertRow (.cvtpk e) = some (e, r)) :
    RunsRow (.cvtpk e) e r s := by
  refine ⟨⟨cvtpkBody, rfl, cvtpkBody_eq hr (issuing s)⟩, ?_⟩
  cases hr
  refine legal_fits h.legal rfl rfl ?_ (.inr (.inr rfl))
  split
  · exact .inl rfl
  · exact .inr rfl

theorem qscl_runs (h : Issuable (.qscl e) s) {r : Claims.LaneRow} (hr : Claims.convertRow (.qscl e) = some (e, r)) :
    RunsRow (.qscl e) e r s := by
  cases hr
  have hone := legal_single h.legal rfl rfl rfl (.inr (.inr rfl))
  refine ⟨⟨qsclBody, rfl, laneOp_congr fun j hj u => ?_⟩, legal_fits h.legal rfl rfl (.inl rfl) (.inr (.inr rfl))⟩
  obtain ⟨t, rfl⟩ := jobsOf_anchor hone hj
  rfl

theorem slres_runs (h : Issuable (.slres e) s) {r : Claims.LaneRow} (hr : Claims.convertRow (.slres e) = some (e, r)) :
    RunsRow (.slres e) e r s := by
  cases hr
  have hone := legal_single h.legal rfl rfl rfl (.inr (.inr rfl))
  refine ⟨⟨slresBody, rfl, laneOp_congr fun j hj u => ?_⟩, legal_fits h.legal rfl rfl (.inl rfl) (.inr (.inr rfl))⟩
  obtain ⟨t, rfl⟩ := jobsOf_anchor hone hj
  rfl

/-- Every conversion with one result runs its row. -/
theorem convertRow_runs {i : Instr} {r : Claims.LaneRow} (hr : Claims.convertRow i = some (e, r)) (h : Issuable i s) :
    RunsRow i e r s := by
  have hr' := hr
  unfold Claims.convertRow at hr'
  split at hr'
  next => cases hr'; exact f2i_runs h hr
  next => cases hr'; exact i2f_runs h hr
  next => cases hr'; exact f2f_runs h hr
  next => cases hr'; exact cvtpk_runs h hr
  next => cases hr'; exact qscl_runs h hr
  next => cases hr'; exact slres_runs h hr
  next => cases hr'

end

end Sys2Proof.Machine

namespace Sys2Proof
open Machine

/-- Settles O3: each conversion runs the lane operation of its row, which completes where the flags it raises are not enabled. -/
theorem conversions : Obligations.Conversions := fun _ _ _ _ hr h hq => (convertRow_runs hr h).result h hq

end Sys2Proof
end

section
/-! PROOFS. Instructions with a predicate result (04 R122 to R124, R129; 05 R159; 06 R179; 08 R252). -/

namespace Sys2Proof.Machine

@[simp] theorem issueCtx_e (s : State) (e : Enc) : (issueCtx s e).e = e := rfl
@[simp] theorem issueCtx_m (s : State) (e : Enc) : (issueCtx s e).m = issueMask s e := rfl
@[simp] theorem issueCtx_pc (s : State) (e : Enc) : (issueCtx s e).pc = issuePc s := rfl

/-! ### What a legal instruction's fields are -/

/-- The field checks that a legal instruction with register fields passes. -/
theorem legal_fields {w o : Nat} {i : Instr} {e : Enc} {r : Row} (h : illopSub w i = none) (ho : opcodeOf i = some (o, e))
    (hr : rowOf w i = some r) (hf : r.form = .rr ∨ r.form = .ri ∨ r.form = .xe) :
    fldSubs (if r.block then blockElems e else [(0, 0)]) r.d (encD e) (encX e).kd 0 = [] ∧
      fldSubs (if r.block then blockElems e else [(0, 0)]) r.a (encA e) (encX e).ka (encX e).ma.toNat = [] ∧
      blockSubs r e = [] ∧ r.modOk = true := by
  have hsubs := legal_row h ho hr
  unfold rowSubs at hsubs
  have hreg : (decide (r.form = .rr) || decide (r.form = .ri) || decide (r.form = .xe) || decide (r.form = .mm)) = true := by
    rcases hf with h | h | h <;> simp [h]
  have hmm : decide (r.form ≠ .mm) = true := by rcases hf with h | h | h <;> simp [h]
  simp only [hreg, hmm, Bool.and_true, if_true, List.append_eq_nil_iff, sub_nil, Bool.not_eq_false'] at hsubs
  tauto

/-- A field of uniform registers or predicates names one of the first 64. -/
theorem field_lt {f : Fld} {blk : List (Nat × Nat)} {n : Nat} {k : Bool} {m : Nat} (hf : f = .uni ∨ f = .pred) (h : fldSubs blk f n k m = []) :
    n < 64 := by
  rcases hf with rfl | rfl <;> simp [fldSubs, sub_nil] at h <;> omega

/-- A destination number below 64 has no high bits. -/
theorem encD_low {e : Enc} (h : encD e < 64) : encD e = e.d.toNat := by
  unfold encD at *
  omega

/-! ### Writes of one predicate in several threads -/

/-- A thread but for its predicates. -/
def Thread.sansP (t : Thread) : Thread := { t with preds := 0 }

theorem wrP_threads (p : Pack) (n t : Nat) (b : Bool) : ∃ ths, wrP p n t b = { p with threads := ths } := by
  unfold wrP
  split
  · exact ⟨p.threads, rfl⟩
  · exact ⟨_, rfl⟩

theorem wrP_length (p : Pack) (n t : Nat) (b : Bool) : (wrP p n t b).threads.length = p.threads.length := by
  unfold wrP
  split
  · rfl
  · simp [packModThread]

theorem wrP_sansP (p : Pack) (n t u : Nat) (b : Bool) : (packThread (wrP p n t b) u).sansP = (packThread p u).sansP := by
  unfold wrP
  split
  · rfl
  · rw [packThread_packModThread]
    split
    · rename_i h; rw [h.1]; rfl
    · rfl

/-- The threads of `l` each take the value of `f` in p`d`. -/
def wrPreds (d : Nat) (f : Nat → Bool) (l : List Nat) (p : Pack) : Pack := l.foldl (fun q t => wrP q d t (f t)) p

section
variable {d : Nat} {f : Nat → Bool} {l : List Nat} {p : Pack}

theorem wrPreds_cons (t : Nat) : wrPreds d f (t :: l) p = wrPreds d f l (wrP p d t (f t)) := rfl

theorem wrPreds_threads : ∃ ths, wrPreds d f l p = { p with threads := ths } := by
  induction l generalizing p with
  | nil => exact ⟨p.threads, rfl⟩
  | cons t l ih =>
    obtain ⟨ths, h⟩ := wrP_threads p d t (f t)
    rw [wrPreds_cons, h]
    exact ih

theorem wrPreds_length : (wrPreds d f l p).threads.length = p.threads.length := by
  induction l generalizing p with
  | nil => rfl
  | cons t l ih => rw [wrPreds_cons, ih, wrP_length]

theorem wrPreds_sansP (u : Nat) : (packThread (wrPreds d f l p) u).sansP = (packThread p u).sansP := by
  induction l generalizing p with
  | nil => rfl
  | cons t l ih => rw [wrPreds_cons, ih, wrP_sansP]

theorem rdP_wrPreds_other {m u : Nat} (h : m ≠ d ∨ u ∉ l ∨ d = 7) : rdP (wrPreds d f l p) m u = rdP p m u := by
  induction l generalizing p with
  | nil => rfl
  | cons t l ih =>
    rw [wrPreds_cons, ih (h.imp_right (Or.imp_left fun hu => List.not_mem_of_not_mem_cons hu))]
    rcases h with h | h | h
    · exact rdP_wrP_other _ _ fun hc => h hc.1
    · exact rdP_wrP_other _ _ fun hc => h (hc.2 ▸ List.mem_cons_self)
    · subst h; rfl

theorem rdP_wrPreds_mem (hn : l.Nodup) {t : Nat} (ht : t ∈ l) (hlt : t < p.threads.length) (hd : d < 16) (h7 : d ≠ 7) :
    rdP (wrPreds d f l p) d t = f t := by
  induction l generalizing p with
  | nil => cases ht
  | cons x l ih =>
    obtain ⟨hx, hn⟩ := List.nodup_cons.mp hn
    rw [wrPreds_cons]
    rcases List.mem_cons.mp ht with rfl | ht
    · rw [rdP_wrPreds_other (.inr (.inl hx)), rdP_wrP_same p d t _ hd h7 hlt]
    · exact ih hn ht (by rwa [wrP_length])

end

/-! ### Predicate results -/

section
variable {c : Ctx} {f g : Nat → Bool × Fl} {p : Pack}

/-- What a predicate result of the threads of a mask leaves, with the flags that they raise. -/
def predOut (c : Ctx) (f : Nat → Bool × Fl) (p : Pack) : Pack :=
  raiseFlags (wrPreds (encD c.e) (fun t => (f t).1) (lanesOf c.m p.width) p) ((lanesOf c.m p.width).map fun t => (t, (f t).2))

theorem predOut_threads (c : Ctx) (f : Nat → Bool × Fl) (p : Pack) : ∃ ths, predOut c f p = { p with threads := ths } := by
  obtain ⟨ths, h⟩ := wrPreds_threads (d := encD c.e) (f := fun t => (f t).1) (l := lanesOf c.m p.width) (p := p)
  unfold predOut
  rw [h]
  exact raiseFlags_eq _ _

theorem raiseFlags_rdP (p : Pack) (l : List (Nat × Fl)) (m u : Nat) : rdP (raiseFlags p l) m u = rdP p m u := by
  have h := congrArg Thread.preds (raiseFlags_thread p l u)
  simp only at h
  unfold rdP
  rw [h]

theorem predOut_done (c : Ctx) (f : Nat → Bool × Fl) (p : Pack) :
    PredDone (encD c.e) (lanesOf c.m p.width) (fun t => (f t).1) p (predOut c f p) where
  result t ht hlt hd h7 := by
    rw [predOut, raiseFlags_rdP]
    exact rdP_wrPreds_mem (lanesOf_nodup _ _) ht hlt hd h7
  others m u h := by rw [predOut, raiseFlags_rdP, rdP_wrPreds_other h]
  threads u := by
    have h1 := raiseFlags_thread (wrPreds (encD c.e) (fun t => (f t).1) (lanesOf c.m p.width) p)
      ((lanesOf c.m p.width).map fun t => (t, (f t).2)) u
    have h2 := wrPreds_sansP (d := encD c.e) (f := fun t => (f t).1) (l := lanesOf c.m p.width) (p := p) u
    calc (packThread (predOut c f p) u).sansPreds
        = (packThread (wrPreds (encD c.e) (fun t => (f t).1) (lanesOf c.m p.width) p) u).sansPreds := congrArg Thread.sansP h1
      _ = (packThread p u).sansPreds := congrArg (fun t : Thread => { t with fflags := 0 }) h2
  rest := by
    obtain ⟨ths, h⟩ := predOut_threads c f p
    rw [h]
    rfl

/-- Each thread of the mask keeps its sticky flags and takes those that it raises (06 R166). -/
theorem predOut_fflags (c : Ctx) (f : Nat → Bool × Fl) (p : Pack) {u : Nat} (hu : u < p.threads.length) :
    (packThread (predOut c f p) u).fflags =
      if u ∈ lanesOf c.m p.width then (packThread p u).fflags ||| (f u).2 else (packThread p u).fflags := by
  have hsame := congrArg Thread.fflags (wrPreds_sansP (d := encD c.e) (f := fun t => (f t).1) (l := lanesOf c.m p.width) (p := p) u)
  rw [predOut, raiseFlags_fflags _ _ _ (by rwa [wrPreds_length]), foldl_flags_mapped _ _ _ _ (lanesOf_nodup _ _)]
  simp only [Thread.sansP] at hsame
  rw [hsame]

/-- Where no thread raises an enabled flag, a comparison writes its predicate (06 R170). -/
theorem lanePred_quiet (hd : encD c.e = c.e.d.toNat) (h : ∀ t ∈ lanesOf c.m p.width, (f t).2 &&& enabledFlags p = 0) :
    lanePred c f p = .ok (predOut c f p) := by
  unfold lanePred
  simp only [List.map_map, Function.comp_def]
  rw [fpeTrap_none (List.forall_mem_map.mpr h), predOut, wrPreds, List.foldl_map, hd]

theorem modAt_id {α : Type} {h : α → α} (hid : ∀ x, h x = x) (l : List α) (i : Nat) : modAt h l i = l := by
  induction l generalizing i with
  | nil => rfl
  | cons x l ih => cases i <;> simp [modAt, hid, ih]

theorem raiseFlags_zero (p : Pack) (l : List Nat) : raiseFlags p (l.map fun t => (t, 0)) = p := by
  induction l with
  | nil => rfl
  | cons t l ih =>
    have hid : packModThread p t (fun th => { th with fflags := th.fflags ||| 0 }) = p := by
      unfold packModThread
      rw [modAt_id fun th => by simp]
    show raiseFlags (packModThread p t fun th => { th with fflags := th.fflags ||| 0 }) (l.map fun t => (t, 0)) = p
    rw [hid, ih]

/-- Votes and predicate functions raise no flag. -/
theorem wrPAll_eq (c : Ctx) (p : Pack) (f : Nat → Bool) : wrPAll c p f = predOut c (fun t => (f t, 0)) p := by
  rw [predOut, raiseFlags_zero, wrPAll, List.foldl_map]
  rfl

/-- Only what the function says of the mask's threads counts. -/
theorem predOut_congr (h : ∀ t ∈ lanesOf c.m p.width, f t = g t) : predOut c f p = predOut c g p := by
  have hw : ∀ l : List Nat, (∀ t ∈ l, f t = g t) → ∀ q, wrPreds (encD c.e) (fun t => (f t).1) l q = wrPreds (encD c.e) (fun t => (g t).1) l q := by
    intro l
    induction l with
    | nil => exact fun _ _ => rfl
    | cons t l ih =>
      intro hl q
      rw [wrPreds_cons, wrPreds_cons, hl t List.mem_cons_self]
      exact ih (fun u hu => hl u (List.mem_cons_of_mem _ hu)) _
  rw [predOut, predOut, hw _ h]
  congr 1
  exact List.map_congr_left fun t ht => by rw [h t ht]

end

/-! ### Instructions that run a predicate row -/

section
variable {i : Instr} {e : Enc} {s : State} {f : Pack → Nat → Bool × Fl}

/-- An instruction issues with a body that writes its row's predicates, where no thread raises an enabled flag. -/
def RunsPred (i : Instr) (e : Enc) (f : Pack → Nat → Bool × Fl) (s : State) : Prop :=
  ∃ g : Ctx → Pack → Except Trap Pack, exec i s = issue i e (onPack g) s ∧
    ((∀ t ∈ lanesOf (issueMask s e) (issuing s).width, (f (issuing s) t).2 &&& enabledFlags (issuing s) = 0) →
      g (issueCtx s e) (issuing s) = .ok (predOut (issueCtx s e) (f (issuing s)) (issuing s)))

/-- An instruction that runs a predicate row completes with its predicates (04 R113). -/
theorem RunsPred.result (hrun : RunsPred i e f s) (h : Issuable i s)
    (hq : ∀ t ∈ lanesOf (issueMask s e) (issuing s).width, (f (issuing s) t).2 &&& enabledFlags (issuing s) = 0) :
    exec i s = .next (completedPack s (predOut (issueCtx s e) (f (issuing s)) (issuing s)) e 0) := by
  obtain ⟨g, hexec, hg⟩ := hrun
  obtain ⟨ths, hths⟩ := predOut_threads (issueCtx s e) (f (issuing s)) (issuing s)
  exact hexec.trans (issue_onPack_done h (hg hq) (by rw [hths]; exact issuing_launch s) (by rw [hths]; exact issuing_lin s))

/-- The number of a legal instruction's predicate destination has no high bits. -/
theorem legal_predD {w o : Nat} {r : Row} (h : illopSub w i = none) (ho : opcodeOf i = some (o, e)) (hr : rowOf w i = some r)
    (hf : r.form = .rr ∨ r.form = .ri ∨ r.form = .xe) (hd : r.d = .pred) : encD e = e.d.toNat := by
  have hfield := (legal_fields h ho hr hf).1
  rw [hd] at hfield
  exact encD_low (field_lt (.inr rfl) hfield)

/-- The widths of the types of 02 R41. -/
theorem typeBits_widths (ty : Nat) : 0 < typeBits ty ∧ (typeBits ty ≤ 32 ∨ typeBits ty = 64) := by
  unfold typeBits
  split <;> decide

theorem rdV64_lt (p : Pack) (n t : Nat) : rdV64 p n t < 2 ^ 64 := by
  have h0 := rdV_lt p n t
  have h1 := rdV_lt p (n + 1) t
  unfold rdV64
  omega

theorem ofI_lt (n : Nat) (x : Int) : ofI n x < 2 ^ n := by
  have hpos : (0 : Int) < (2 ^ n : Nat) := by exact_mod_cast Nat.two_pow_pos n
  have := Int.emod_lt_of_pos x hpos
  have := Int.emod_nonneg x hpos.ne'
  unfold ofI
  omega

/-- A source operand of a type has the type's width. -/
theorem rdSrc_lt (p : Pack) (src : Src) (ty t i j : Nat) : rdSrc p src (typeBits ty) t i j < 2 ^ typeBits ty := by
  obtain ⟨-, hw⟩ := typeBits_widths ty
  cases src with
  | vec a m =>
    unfold rdSrc
    by_cases h : typeBits ty ≤ 32
    · simp only [h, if_true]
      exact Nat.mod_lt _ (Nat.two_pow_pos _)
    · simp only [hw.resolve_left h, Nat.reduceLeDiff, if_false, le_refl, if_true]
      exact rdV64_lt _ _ _
  | uni r => exact Nat.mod_lt _ (Nat.two_pow_pos _)
  | imm x => exact ofI_lt _ _

/-- Patterns of a width are told apart by their numbers. -/
theorem toS_inj {n a b : Nat} (ha : a < 2 ^ n) (hb : b < 2 ^ n) (h : toS n a = toS n b) : a = b := by
  unfold toS at h
  rw [Nat.mod_eq_of_lt ha, Nat.mod_eq_of_lt hb] at h
  split at h <;> split at h <;> omega

theorem num_inj {ty a b : Nat} (ha : a < 2 ^ typeBits ty) (hb : b < 2 ^ typeBits ty) (h : Claims.num ty a = Claims.num ty b) :
    a = b := by
  unfold Claims.num at h
  split at h
  · exact toS_inj ha hb h
  · exact Int.ofNat_inj.mp h

theorem num_lt (ty a b : Nat) : Claims.num ty a < Claims.num ty b ↔
    (if typeSigned ty then decide (toS (typeBits ty) a < toS (typeBits ty) b) else decide (a < b)) = true := by
  unfold Claims.num
  split <;> simp

/-- The codes of a comparison compare the numbers of the type (05 R159). -/
theorem compareCode_eq {ty a b : Nat} (code : Nat) (ha : a < 2 ^ typeBits ty) (hb : b < 2 ^ typeBits ty) :
    compareCode code (typeSigned ty) (typeBits ty) a b = Claims.compares code (Claims.num ty a) (Claims.num ty b) := by
  have heq : (a == b) = (Claims.num ty a == Claims.num ty b) := by
    rw [Bool.eq_iff_iff, beq_iff_eq, beq_iff_eq]
    exact ⟨fun h => h ▸ rfl, num_inj ha hb⟩
  have hlt : (if typeSigned ty then decide (toS (typeBits ty) a < toS (typeBits ty) b) else decide (a < b)) =
      decide (Claims.num ty a < Claims.num ty b) := by
    rw [Bool.eq_iff_iff, decide_eq_true_iff]
    exact (num_lt ty a b).symm
  unfold compareCode
  simp only [heq, hlt, bne]
  generalize Claims.num ty a = x
  generalize Claims.num ty b = y
  unfold Claims.compares
  split <;> grind

variable {m : BitVec 64}

theorem icmp_runs (h : Issuable (.icmp e) s) (hr : Claims.predRow m (.icmp e) = some (e, f)) : RunsPred (.icmp e) e f s := by
  cases hr
  have hd := legal_predD h.legal rfl rfl (.inl rfl) rfl
  refine ⟨icmpBody srcB, rfl, fun hq => ?_⟩
  unfold icmpBody
  simp only [compareCode_eq _ (rdSrc_lt _ _ _ _ _ _) (rdSrc_lt _ _ _ _ _ _)]
  exact lanePred_quiet hd hq

theorem icmpImm_runs (h : Issuable (.icmpImm e) s) (hr : Claims.predRow m (.icmpImm e) = some (e, f)) :
    RunsPred (.icmpImm e) e f s := by
  cases hr
  have hd := legal_predD h.legal rfl rfl (.inr (.inl rfl)) rfl
  refine ⟨icmpBody srcImmS, rfl, fun hq => ?_⟩
  unfold icmpBody
  simp only [compareCode_eq _ (rdSrc_lt _ _ _ _ _ _) (rdSrc_lt _ _ _ _ _ _)]
  exact lanePred_quiet hd hq

theorem fcmp_runs (h : Issuable (.fcmp e) s) (hr : Claims.predRow m (.fcmp e) = some (e, f)) : RunsPred (.fcmp e) e f s := by
  cases hr
  have hd := legal_predD h.legal rfl rfl (.inl rfl) rfl
  exact ⟨fcmpBody, rfl, fun hq => lanePred_quiet hd hq⟩

theorem ctst_runs (h : Issuable (.ctst e) s) (hr : Claims.predRow m (.ctst e) = some (e, f)) : RunsPred (.ctst e) e f s := by
  cases hr
  have hd := legal_predD h.legal rfl rfl (.inl rfl) rfl
  refine ⟨_, rfl, fun hq => ?_⟩
  exact lanePred_quiet hd hq

/-- A body that writes its predicates in every thread, without flags. -/
theorem runsPred_of_all {i : Instr} {b : Ctx → Pack → Nat → Bool}
    (hexec : exec i s = issue i e (onPack fun c p => .ok (wrPAll c p (b c p))) s)
    (hb : ∀ t ∈ lanesOf (issueMask s e) (issuing s).width, f (issuing s) t = (b (issueCtx s e) (issuing s) t, 0)) :
    RunsPred i e f s := by
  refine ⟨_, hexec, fun _ => ?_⟩
  have hsame := predOut_congr (c := issueCtx s e) (p := issuing s) hb
  rw [wrPAll_eq, hsame]

theorem voteAll_runs (hr : Claims.predRow (issueMask s e) (.voteAll e) = some (e, f)) : RunsPred (.voteAll e) e f s := by
  cases hr
  refine runsPred_of_all rfl fun t _ => ?_
  have hall : ∀ l : List Nat, ∀ g : Nat → Bool, l.all g = ((l.filter g).length == l.length) := fun l g => by
    rw [Bool.eq_iff_iff, beq_iff_eq, List.length_filter_eq_length_iff, List.all_eq_true]
  rw [hall]
  rfl

theorem voteAny_runs (hr : Claims.predRow (issueMask s e) (.voteAny e) = some (e, f)) : RunsPred (.voteAny e) e f s := by
  cases hr
  refine runsPred_of_all rfl fun t _ => ?_
  have hany : ∀ l : List Nat, ∀ g : Nat → Bool, l.any g = !(l.filter g).isEmpty := fun l g => by
    rw [Bool.eq_iff_iff, List.any_eq_true, Bool.not_eq_true', List.isEmpty_eq_false_iff_exists_mem]
    simp [List.mem_filter]
  rw [hany]
  rfl

/-- A truth table of three predicates picks the bit that they number (04 R123). -/
theorem pfn_runs (hr : Claims.predRow m (.pfn e) = some (e, f)) : RunsPred (.pfn e) e f s := by
  cases hr
  refine runsPred_of_all rfl fun t _ => ?_
  rw [Nat.testBit_eq_decide_div_mod_eq]
  rfl

theorem pmov_runs (hr : Claims.predRow m (.pmov e) = some (e, f)) : RunsPred (.pmov e) e f s := by
  simp only [Claims.predRow] at hr
  split at hr
  · rename_i hmod
    cases hr
    refine ⟨pmovBody, rfl, fun _ => ?_⟩
    unfold pmovBody
    rw [show encMod (issueCtx s e).e = 0 from hmod]
    simp only [wrPAll_eq]
    rfl
  · cases hr

/-- All values agree where each agrees with the first (04 R129). -/
theorem matchAll_runs (hr : Claims.predRow (issueMask s e) (.matchAll e) = some (e, f)) : RunsPred (.matchAll e) e f s := by
  cases hr
  refine runsPred_of_all rfl fun t _ => ?_
  have hall : ∀ l : List Nat, ∀ g : Nat → Nat, (l.all fun t => l.all fun u => g t == g u) = ((l.map g).all fun v => v == (l.map g).headD 0) := by
    intro l g
    cases l with
    | nil => rfl
    | cons x l =>
      rw [Bool.eq_iff_iff]
      simp only [List.all_eq_true, beq_iff_eq, List.forall_mem_map]
      exact ⟨fun h t ht => h t ht x List.mem_cons_self, fun h t ht u hu => (h t ht).trans (h u hu).symm⟩
  simp only [hall]
  rfl

/-- Every instruction with a predicate result runs its row. -/
theorem predRow_runs (hr : Claims.predRow (issueMask s e) i = some (e, f)) (h : Issuable i s) : RunsPred i e f s := by
  have hr' := hr
  unfold Claims.predRow at hr'
  split at hr'
  next => cases hr'; exact icmp_runs h hr
  next => cases hr'; exact icmpImm_runs h hr
  next => cases hr'; exact fcmp_runs h hr
  next => cases hr'; exact ctst_runs h hr
  next => cases hr'; exact voteAll_runs hr
  next => cases hr'; exact voteAny_runs hr
  next => cases hr'; exact pfn_runs hr
  next =>
    split at hr'
    · cases hr'; exact pmov_runs hr
    · cases hr'
  next => cases hr'; exact matchAll_runs hr
  next => cases hr'

end

end Sys2Proof.Machine

namespace Sys2Proof
open Machine

/-- Settles O4: each instruction of a predicate row writes it in the threads of its mask, where the flags it raises are not enabled. -/
theorem predicateResults : Obligations.PredicateResults := by
  intro i e f s hr h p l hq
  exact ⟨predOut (issueCtx s e) (f p) p, (predRow_runs hr h).result h hq, predOut_done (issueCtx s e) (f p) p,
    fun _ hu => predOut_fflags (issueCtx s e) (f p) p hu⟩

end Sys2Proof
end

section
/-! PROOFS. Instructions with one uniform result, and the reductions over floating-point types (04 R122, R127, R130; 05 R150; 16 R491). -/

namespace Sys2Proof.Machine

/-! ### One uniform result -/

section
variable {i : Instr} {e : Enc} {s : State} {f : Pack → Option W64}

/-- What a uniform result leaves: nothing where there is none. -/
def uniOut (n : Nat) (p : Pack) : Option W64 → Pack
  | some x => wrS p n x
  | none => p

theorem uniOut_fields (n : Nat) (p : Pack) (x : Option W64) : ∃ ss sd, uniOut n p x = { p with s := ss, sdead := sd } := by
  cases x
  · exact ⟨p.s, p.sdead, rfl⟩
  · exact ⟨_, _, rfl⟩

/-- An instruction issues with a body that leaves its row's uniform result. -/
def RunsUni (i : Instr) (e : Enc) (f : Pack → Option W64) (s : State) : Prop :=
  ∃ g : Ctx → Pack → Except Trap Pack, exec i s = issue i e (onPack g) s ∧
    g (issueCtx s e) (issuing s) = .ok (uniOut e.d.toNat (issuing s) (f (issuing s)))

theorem RunsUni.result (hrun : RunsUni i e f s) (h : Issuable i s) :
    exec i s = .next (completedPack s (uniOut e.d.toNat (issuing s) (f (issuing s))) e 0) := by
  obtain ⟨g, hexec, hg⟩ := hrun
  obtain ⟨ss, sd, hs⟩ := uniOut_fields e.d.toNat (issuing s) (f (issuing s))
  exact hexec.trans (issue_onPack_done h hg (by rw [hs]; exact issuing_launch s) (by rw [hs]; exact issuing_lin s))

theorem movs_runs (hr : Claims.uniformRow (issueMask s e) (.movs e) = some (e, f)) : RunsUni (.movs e) e f s := by
  cases hr
  refine ⟨movsBody, rfl, ?_⟩
  unfold movsBody
  simp only [issueCtx]
  cases lanesOf (issueMask s e) (issuing s).width <;> rfl

theorem voteBallot_runs (hr : Claims.uniformRow (issueMask s e) (.voteBallot e) = some (e, f)) : RunsUni (.voteBallot e) e f s := by
  cases hr
  exact ⟨_, rfl, rfl⟩

theorem actv_runs {m : BitVec 64} (hr : Claims.uniformRow m (.actv e) = some (e, f)) : RunsUni (.actv e) e f s := by
  cases hr
  exact ⟨_, rfl, rfl⟩

theorem dhash_runs {m : BitVec 64} (hr : Claims.uniformRow m (.dhash e) = some (e, f)) : RunsUni (.dhash e) e f s := by
  refine ⟨dhashBody, rfl, ?_⟩
  unfold dhashBody
  simp only [Claims.uniformRow] at hr
  split at hr
  · rename_i hmod
    cases hr
    rw [show encMod (issueCtx s e).e = 0 from hmod]
    rfl
  · split at hr
    · rename_i hmod
      cases hr
      rw [show encMod (issueCtx s e).e = 1 from hmod]
      rfl
    · cases hr

/-! ### Reductions (R127) -/

/-- A reduction over integers folds the mask's values in lane order. -/
theorem lredInt_eq {c : Ctx} (d : Nat) (g : Nat → Nat → Nat → Nat → Nat) (p : Pack) :
    lredInt d g c p = .ok (uniOut c.e.d.toNat p (Claims.reduced (encTy c.e d) (g (encTy c.e d) (typeBits (encTy c.e d)))
      ((lanesOf c.m p.width).map fun t => Claims.opA c.e (typeBits (encTy c.e d)) p ⟨t, 0, 0⟩))) := by
  simp only [lredInt]
  rw [show maskVals c p (typeBits (encTy c.e d)) =
    (lanesOf c.m p.width).map fun t => Claims.opA c.e (typeBits (encTy c.e d)) p ⟨t, 0, 0⟩ from rfl]
  cases (lanesOf c.m p.width).map fun t => Claims.opA c.e (typeBits (encTy c.e d)) p ⟨t, 0, 0⟩ <;> rfl

theorem reduced_congr {ty : Nat} {g h : Nat → Nat → Nat} {l : List Nat} (hl : ∀ x ∈ l, x < 2 ^ typeBits ty)
    (hg : ∀ a b, a < 2 ^ typeBits ty → b < 2 ^ typeBits ty → g a b = h a b ∧ g a b < 2 ^ typeBits ty) :
    Claims.reduced ty g l = Claims.reduced ty h l := by
  cases l with
  | nil => rfl
  | cons x l =>
    have hfold : ∀ l : List Nat, (∀ y ∈ l, y < 2 ^ typeBits ty) → ∀ a < 2 ^ typeBits ty, l.foldl g a = l.foldl h a := by
      intro l
      induction l with
      | nil => exact fun _ _ _ => rfl
      | cons b l ih =>
        intro hl a ha
        obtain ⟨heq, hlt⟩ := hg a b ha (hl b List.mem_cons_self)
        rw [List.foldl_cons, List.foldl_cons, ← heq]
        exact ih (fun y hy => hl y (List.mem_cons_of_mem _ hy)) _ hlt
    simp only [Claims.reduced]
    rw [hfold l (fun y hy => hl y (List.mem_cons_of_mem _ hy)) x (hl x List.mem_cons_self)]

/-- The model's choice between two values of lred.min or lred.max, by their numbers. -/
theorem pick_eq {ty a b : Nat} (greatest : Bool) (ha : a < 2 ^ typeBits ty) (hb : b < 2 ^ typeBits ty) :
    (if (if typeSigned ty then decide (toS (typeBits ty) a ≤ toS (typeBits ty) b) else decide (a ≤ b)) == greatest then b else a) =
      if greatest then (if Claims.num ty a < Claims.num ty b then b else a) else if Claims.num ty b < Claims.num ty a then b else a := by
  have hle : (if typeSigned ty then decide (toS (typeBits ty) a ≤ toS (typeBits ty) b) else decide (a ≤ b)) =
      decide (Claims.num ty a ≤ Claims.num ty b) := by
    unfold Claims.num
    split <;> simp
  have hinj := num_inj ha hb
  rw [hle]
  cases greatest <;> grind

theorem lred_runs {i : Instr} {d : Nat} {g : Nat → Nat → Nat → Nat → Nat} (hexec : exec i s = issue i e (onPack (lredInt d g)) s)
    (hf : f (issuing s) = Claims.reduced (encTy e d) (g (encTy e d) (typeBits (encTy e d)))
      ((lanesOf (issueMask s e) (issuing s).width).map fun t => Claims.opA e (typeBits (encTy e d)) (issuing s) ⟨t, 0, 0⟩)) :
    RunsUni i e f s := by
  refine ⟨_, hexec, ?_⟩
  rw [hf]
  exact lredInt_eq d g _

/-- lred.min and lred.max over an integer type pick by the numbers of the type. -/
theorem lredMinMax_int {c : Ctx} (greatest : Bool) (p : Pack) (hty : laneFmt (encTy c.e 3) = none) :
    lredMinMax greatest c p = .ok (uniOut c.e.d.toNat p (Claims.reduced (encTy c.e 3)
      (fun a b => if greatest then (if Claims.num (encTy c.e 3) a < Claims.num (encTy c.e 3) b then b else a)
        else if Claims.num (encTy c.e 3) b < Claims.num (encTy c.e 3) a then b else a)
      ((lanesOf c.m p.width).map fun t => Claims.opA c.e (typeBits (encTy c.e 3)) p ⟨t, 0, 0⟩))) := by
  unfold lredMinMax
  simp only [hty, lredInt_eq]
  congr 2
  refine reduced_congr (List.forall_mem_map.mpr fun t _ => rdSrc_lt _ _ _ _ _ _) fun a b ha hb => ?_
  have hpick := pick_eq greatest ha hb
  refine ⟨hpick, ?_⟩
  generalize ((if typeSigned (encTy c.e 3) then _ else _) == greatest) = first
  cases first
  · exact ha
  · exact hb

/-- Every instruction with a uniform result runs its row. -/
theorem uniformRow_runs (hr : Claims.uniformRow (issueMask s e) i = some (e, f)) : RunsUni i e f s := by
  have hr' := hr
  unfold Claims.uniformRow at hr'
  split at hr'
  next => cases hr'; exact movs_runs hr
  next => cases hr'; exact voteBallot_runs hr
  next => cases hr'; exact actv_runs hr
  next => cases hr'; exact lred_runs rfl rfl
  next => cases hr'; exact lred_runs rfl rfl
  next => cases hr'; exact lred_runs rfl rfl
  next => cases hr'; exact lred_runs rfl rfl
  next =>
    split at hr'
    · cases hr'
    · rename_i hty
      cases hr'
      exact ⟨lredMinMax false, rfl, lredMinMax_int false _ (Option.not_isSome_iff_eq_none.mp hty)⟩
  next =>
    split at hr'
    · cases hr'
    · rename_i hty
      cases hr'
      exact ⟨lredMinMax true, rfl, lredMinMax_int true _ (Option.not_isSome_iff_eq_none.mp hty)⟩
  next =>
    split at hr'
    · cases hr'; exact dhash_runs hr
    · split at hr'
      · cases hr'; exact dhash_runs hr
      · cases hr'
  next => cases hr'

end

/-! ### Reductions over floating-point types -/

section
variable {c : Ctx} {g : Fmt} {p : Pack}

/-- The flags that a reduction over floating-point values raises: invalid where one of them signals. -/
def redFlags (g : Fmt) (vals : List Nat) : Fl := if vals.any fun v => (g.read v).isSig then NV else 0

/-- What lred.min and lred.max over a floating-point type leave of the pack. -/
def lredFloatOut (greatest : Bool) (g : Fmt) (c : Ctx) (p : Pack) : Pack :=
  match maskVals c p (typeBits (encTy c.e 3)) with
  | [] => p
  | x :: l => raiseFlags (wrS p c.e.d.toNat (BitVec.ofNat 64 (l.foldl (fun a b => (fMinMax g greatest (encModBit c.e 0) a b).1) x)))
      ((lanesOf c.m p.width).map fun t => (t, redFlags g (x :: l)))

theorem lredMinMax_float (greatest : Bool) (hty : laneFmt (encTy c.e 3) = some g)
    (hq : redFlags g (maskVals c p (typeBits (encTy c.e 3))) &&& enabledFlags p = 0) :
    lredMinMax greatest c p = .ok (lredFloatOut greatest g c p) := by
  unfold lredMinMax lredFloatOut
  simp only [hty]
  cases hv : maskVals c p (typeBits (encTy c.e 3)) with
  | nil => rfl
  | cons x l =>
    rw [hv] at hq
    have hnone := fpeTrap_none (p := p) (fl := (lanesOf c.m p.width).map fun t => (t, redFlags g (x :: l)))
      (List.forall_mem_map.mpr fun _ _ => hq)
    unfold redFlags at hnone ⊢
    simp only [hnone]

/-- Registers, flags and threads that a reduction over floating-point values leaves. -/
structure RedDone (n : Nat) (l : List Nat) (x : W64) (fl : Fl) (p q : Pack) : Prop where
  result : rdS q n = x
  uniform : ∀ k, k ≠ n → rdS q k = rdS p k
  vector : ∀ k t, rdV q k t = rdV p k t
  flags : ∀ u < p.threads.length, (packThread q u).fflags = if u ∈ l then (packThread p u).fflags ||| fl else (packThread p u).fflags
  threads : ∀ u, (packThread q u).sansFl = (packThread p u).sansFl
  launch : q.launch = p.launch
  lin : q.lin = p.lin

theorem raiseFlags_wrS_done (n : Nat) (l : List Nat) (hn : l.Nodup) (x : W64) (fl : Fl) (p : Pack) :
    RedDone n l x fl p (raiseFlags (wrS p n x) (l.map fun t => (t, fl))) where
  result := by rw [raiseFlags_rdS, rdS_wrS_same]
  uniform k hk := by rw [raiseFlags_rdS, rdS_wrS_other _ _ hk]
  vector k t := by rw [raiseFlags_rdV, rdV_wrS]
  flags u hu := by rw [raiseFlags_fflags (wrS p n x) _ _ hu, foldl_flags_mapped _ (fun _ => fl) _ _ hn, packThread_wrS]
  threads u := congrArg (fun t : Thread => { t with vdead := 0 }) (raiseFlags_thread (wrS p n x) (l.map fun t => (t, fl)) u)
  launch := by obtain ⟨ths, h⟩ := raiseFlags_eq (wrS p n x) (l.map fun t => (t, fl)); rw [h]; rfl
  lin := by obtain ⟨ths, h⟩ := raiseFlags_eq (wrS p n x) (l.map fun t => (t, fl)); rw [h]; rfl

end

end Sys2Proof.Machine

namespace Sys2Proof
open Machine

theorem uniformResults_claim : Claims.UniformResults := by
  intro i e f s hr h
  rw [(uniformRow_runs hr).result h]
  cases f (issuing s) <;> rfl

theorem floatReductions_claim : Claims.FloatReductions := by
  intro e greatest g s i p l vals signals hty h hq
  have hrun : exec i s = issue i e (onPack (lredMinMax greatest)) s := by
    cases greatest <;> rfl
  have hvals : maskVals (issueCtx s e) p (typeBits (encTy e 3)) = vals := rfl
  have hfl : redFlags g vals = if signals then NV else 0 := rfl
  have hquiet : redFlags g vals &&& enabledFlags p = 0 := by
    rw [hfl]
    cases hs : signals
    · simp
    · rw [BitVec.and_comm]
      simpa using hq hs
  have hok := lredMinMax_float (c := issueCtx s e) greatest hty hquiet
  cases hv : vals with
  | nil =>
    have hout : lredFloatOut greatest g (issueCtx s e) p = p := by
      unfold lredFloatOut
      rw [show maskVals (issueCtx s e) p (typeBits (encTy (issueCtx s e).e 3)) = [] from hv]
    have hnil : l = [] := List.map_eq_nil_iff.mp hv
    have hdone := hrun.trans (issue_onPack_done h (hok.trans (congrArg _ hout)) (issuing_launch s) (issuing_lin s))
    exact ⟨p, hdone, nofun, fun _ => rfl, fun _ _ => rfl, fun _ _ => rfl, fun u _ => by simp [hnil], fun _ => rfl⟩
  | cons x r =>
    have hout : lredFloatOut greatest g (issueCtx s e) p =
        raiseFlags (wrS p e.d.toNat (BitVec.ofNat 64 (r.foldl (fun a b => (fMinMax g greatest (encModBit e 0) a b).1) x)))
          (l.map fun t => (t, redFlags g vals)) := by
      unfold lredFloatOut
      rw [show maskVals (issueCtx s e) p (typeBits (encTy (issueCtx s e).e 3)) = x :: r from hv, hv]
      rfl
    have hred := raiseFlags_wrS_done e.d.toNat l (lanesOf_nodup _ _)
      (BitVec.ofNat 64 (r.foldl (fun a b => (fMinMax g greatest (encModBit e 0) a b).1) x)) (redFlags g vals) p
    have hdone := hrun.trans (issue_onPack_done h (hok.trans (congrArg _ hout)) (hred.launch.trans (issuing_launch s))
      (hred.lin.trans (issuing_lin s)))
    refine ⟨_, hdone, fun y k hyk => ?_, nofun, hred.uniform, hred.vector, fun u hu => ?_, hred.threads⟩
    · cases hyk
      exact hred.result
    · rw [hred.flags u hu, hfl]
      by_cases hul : u ∈ l <;> cases signals <;> simp [hul]

/-- Settles O5: a row's result goes to the uniform register; a reduction over floating-point values folds them and raises invalid at a
signalling NaN. -/
theorem uniformResults : Obligations.UniformResults := ⟨uniformResults_claim, floatReductions_claim⟩

end Sys2Proof
end

section
/-! PROOFS. Cross-lane moves, and instructions that write named vector registers of each thread (04 R124 to R126, R128, R129; 06 R190;
14 R441). -/

namespace Sys2Proof.Machine

/-! ### Lane results without flags -/

section
variable {i : Instr} {e : Enc} {s : State} {r : Claims.LaneRow} {c : Ctx} {d : Nat} {f : Job → List Nat → Nat × Fl} {p : Pack}

theorem laneFlags_zero (hf : ∀ j u, (f j u).2 = 0) (u : Nat) : laneFlags c d f p u = 0 := by
  have hz : ∀ x ∈ laneOut c d f p, x.2.2 = 0 := by
    intro x hx
    obtain ⟨y, -, rfl⟩ := List.mem_map.mp hx
    exact hf _ _
  unfold laneFlags
  generalize laneOut c d f p = out at hz
  induction out with
  | nil => rfl
  | cons x out ih =>
    rw [List.foldl_cons, hz x List.mem_cons_self, show (0 : Fl) ||| 0 = 0 from rfl, ite_self]
    exact ih fun y hy => hz y (List.mem_cons_of_mem _ hy)

/-- An instruction that runs a row without flags completes with its results. -/
theorem RunsRow.result_noFlags (hrun : RunsRow i e r s) (h : Issuable i s) (hr : ∀ p j u, (r.val p j u).2 = 0) : Claims.LaneResult i e r s :=
  hrun.result h fun u _ => by rw [laneFlags_zero (hr _)]; exact BitVec.zero_and

/-! ### Shuffles and broadcasts (R125, R126) -/

/-- The row of a shuffle or broadcast. -/
def shuffleRow (i : Instr) (m : BitVec 64) (e : Enc) : Claims.LaneRow := Claims.bitRow e fun n p j => Claims.shuffled i m e n p j

theorem shuffled_named {m : BitVec 64} {n t i' j' : Nat} {k : Int} (h : Claims.laneNamed p t i = some (e, k)) :
    Claims.shuffled i m e n p ⟨t, i', j'⟩ = rdSrc p (srcA e) n
      (if 0 ≤ toS 64 (ofI 64 k) ∧ toS 64 (ofI 64 k) < p.width ∧ m.getLsbD (toS 64 (ofI 64 k)).toNat then (toS 64 (ofI 64 k)).toNat else t)
      0 0 := by
  unfold Claims.shuffled
  rw [h]

/-- An instruction that shuffles by the lanes that the claim names runs its row. -/
theorem shuffle_runs {src : Ctx → Pack → Nat → Int} (hexec : exec i s = issue i e (onPack fun c p => shuffle c p (src c p)) s)
    (hsrc : ∀ p t, Claims.laneNamed p t i = some (e, src (issueCtx s e) p t))
    (hfit : (encX e).kd = false → BlockFits e (typeBits (encTy e 9))) : RunsRow i e (shuffleRow i (issueMask s e) e) s where
  issues := by
    refine ⟨_, hexec, laneOp_congr fun j _ u => ?_⟩
    exact congrArg (fun x : Nat => (x, (0 : Fl))) (shuffled_named (hsrc (issuing s) j.t)).symm
  fits := hfit

/-- The destination of a legal shuffle fits the register grid. -/
theorem shfl_fits {w o : Nat} {form : Form} {b : Fld} (h : illopSub w i = none) (ho : opcodeOf i = some (o, e))
    (hr : rowOf w i = some (rowShfl e form b)) (hf : form = .rr ∨ form = .ri) (hk : (encX e).kd = false) :
    BlockFits e (typeBits (encTy e 9)) :=
  legal_fits h ho hr (.inl rfl) (hf.imp id .inl) hk

/-- Every instruction for which the claim names a lane shuffles by it. -/
theorem laneNamed_runs {k : Int} (hn : Claims.laneNamed Pack.blank 0 i = some (e, k)) (h : Issuable i s) :
    RunsRow i e (shuffleRow i (issueMask s e) e) s := by
  unfold Claims.laneNamed at hn
  split at hn
  next => cases hn; exact shuffle_runs rfl (fun _ _ => rfl) (shfl_fits h.legal rfl rfl (.inl rfl))
  next => cases hn; exact shuffle_runs rfl (fun _ _ => rfl) (shfl_fits h.legal rfl rfl (.inr rfl))
  next => cases hn; exact shuffle_runs rfl (fun _ _ => rfl) (shfl_fits h.legal rfl rfl (.inl rfl))
  next => cases hn; exact shuffle_runs rfl (fun _ _ => rfl) (shfl_fits h.legal rfl rfl (.inr rfl))
  next => cases hn; exact shuffle_runs rfl (fun _ _ => rfl) (shfl_fits h.legal rfl rfl (.inl rfl))
  next => cases hn; exact shuffle_runs rfl (fun _ _ => rfl) (shfl_fits h.legal rfl rfl (.inr rfl))
  next => cases hn; exact shuffle_runs rfl (fun _ _ => rfl) (shfl_fits h.legal rfl rfl (.inl rfl))
  next => cases hn; exact shuffle_runs rfl (fun _ _ => rfl) (shfl_fits h.legal rfl rfl (.inr rfl))
  next => cases hn; exact shuffle_runs rfl (fun _ _ => rfl) (shfl_fits h.legal rfl rfl (.inl rfl))
  next => cases hn; exact shuffle_runs rfl (fun _ _ => rfl) (shfl_fits h.legal rfl rfl (.inr rfl))
  next => cases hn

theorem matchAny_runs (h : Issuable (.matchAny e) s) (hr : Claims.crossRow (issueMask s e) (.matchAny e) = some (e, r)) :
    RunsRow (.matchAny e) e r s := by
  cases hr
  refine ⟨⟨_, rfl, laneOp_congr fun j _ u => ?_⟩, legal_fits h.legal rfl rfl (.inl rfl) (.inl rfl)⟩
  simp only [← beq_eq_decide]
  rfl

/-- Every cross-lane instruction completes with its row. -/
theorem crossRow_result (hr : Claims.crossRow (issueMask s e) i = some (e, r)) (h : Issuable i s) : Claims.LaneResult i e r s := by
  have hr' := hr
  unfold Claims.crossRow at hr'
  split at hr'
  next hn =>
    cases hr'
    exact (laneNamed_runs hn h).result_noFlags h fun _ _ _ => rfl
  next =>
    split at hr'
    next =>
      cases hr'
      exact (matchAny_runs h hr).result_noFlags h fun _ _ _ => rfl
    next => cases hr'

end

/-! ### Registers of each thread -/

section
variable {l : List Nat} {f g : Nat → List (Nat × Nat)} {p : Pack}

/-- The writes of registers of each thread, as one list: register, thread and value. -/
def regCells (l : List Nat) (f : Nat → List (Nat × Nat)) : List (Nat × Nat × Nat) :=
  l.flatMap fun t => (f t).map fun x => (x.1, t, x.2)

theorem mem_regCells {x : Nat × Nat × Nat} : x ∈ regCells l f ↔ x.2.1 ∈ l ∧ (x.1, x.2.2) ∈ f x.2.1 := by
  obtain ⟨n, t, v⟩ := x
  simp only [regCells, List.mem_flatMap, List.mem_map, Prod.mk.injEq]
  constructor
  · rintro ⟨u, hu, y, hy, rfl, rfl, rfl⟩
    exact ⟨hu, hy⟩
  · rintro ⟨ht, hv⟩
    exact ⟨t, ht, (n, v), hv, rfl, rfl, rfl⟩

theorem laneRegs_eq (c : Ctx) (f : Nat → List (Nat × Nat)) (p : Pack) : laneRegs c f p = wrAll p (regCells (lanesOf c.m p.width) f) := by
  have hrow : ∀ (t : Nat) (k : List (Nat × Nat)) (q : Pack),
      k.foldl (fun q y => wrV q y.1 t y.2) q = wrAll q (k.map fun x => (x.1, t, x.2)) := by
    intro t k q
    rw [wrAll, List.foldl_map]
  unfold laneRegs
  rw [List.foldl_map]
  generalize lanesOf c.m p.width = l
  induction l generalizing p with
  | nil => rfl
  | cons t l ih =>
    rw [List.foldl_cons, ih, hrow]
    exact (wrAll_append p _ _).symm

/-- Threads' registers that are distinct are written apart. -/
theorem regCells_pairwise (hl : l.Nodup) (hf : ∀ t ∈ l, ((f t).map (·.1)).Nodup) :
    (regCells l f).Pairwise fun a b => ¬(a.1 = b.1 ∧ a.2.1 = b.2.1) := by
  induction l with
  | nil => exact List.Pairwise.nil
  | cons t l ih =>
    obtain ⟨ht, hl⟩ := List.nodup_cons.mp hl
    refine List.pairwise_append.mpr ⟨?_, ih hl fun u hu => hf u (List.mem_cons_of_mem _ hu), ?_⟩
    · refine List.pairwise_map.mpr ((List.pairwise_map.mp (hf t List.mem_cons_self)).imp ?_)
      exact fun hne hc => hne hc.1
    · intro a ha b hb hc
      obtain ⟨x, -, rfl⟩ := List.mem_map.mp ha
      have hmem := (mem_regCells.mp hb).1
      rw [← hc.2] at hmem
      exact ht hmem

/-- What the writes of registers of each thread leave, with the flags that the threads raise. -/
def vecOut (c : Ctx) (f : Nat → List (Nat × Nat) × Fl) (p : Pack) : Pack :=
  raiseFlags (laneRegs c (fun t => (f t).1) p) ((lanesOf c.m p.width).map fun t => (t, (f t).2))

theorem laneRegs_lt (c : Ctx) (f : Nat → List (Nat × Nat)) (p : Pack) : ∀ x ∈ regCells (lanesOf c.m p.width) f, x.2.1 < 64 :=
  fun _ hx => lanesOf_lt (mem_regCells.mp hx).1

theorem sansVec_of_sansV {p q : Pack} (h : p.sansV = q.sansV) : p.sansVec = q.sansVec := h

theorem vecOut_rest (c : Ctx) (f : Nat → List (Nat × Nat) × Fl) (p : Pack) : (vecOut c f p).sansVec = p.sansVec := by
  obtain ⟨ths, h⟩ := raiseFlags_eq (laneRegs c (fun t => (f t).1) p) ((lanesOf c.m p.width).map fun t => (t, (f t).2))
  rw [vecOut, h, laneRegs_eq]
  exact sansVec_of_sansV (wrAll_sansV (regCells (lanesOf c.m p.width) fun t => (f t).1) p)

theorem vecOut_done (c : Ctx) (f : Nat → List (Nat × Nat) × Fl) (p : Pack)
    (hf : ∀ t ∈ lanesOf c.m p.width, ((f t).1.map (·.1)).Nodup) :
    VecDone (lanesOf c.m p.width) (fun t => (f t).1) p (vecOut c f p) where
  result t ht x hx := by
    rw [vecOut, raiseFlags_rdV, laneRegs_eq]
    exact rdV_wrAll_mem _ p (laneRegs_lt c _ p) (regCells_pairwise (lanesOf_nodup _ _) hf) (x.1, t, x.2) (mem_regCells.mpr ⟨ht, hx⟩)
  others m u hu h := by
    rw [vecOut, raiseFlags_rdV, laneRegs_eq]
    refine rdV_wrAll_other _ p m u hu (laneRegs_lt c _ p) fun x hx hc => ?_
    obtain ⟨hxl, hxf⟩ := mem_regCells.mp hx
    rw [← hc.2] at hxl hxf
    exact h hxl _ hxf hc.1.symm
  threads u := by
    have h1 := raiseFlags_thread (laneRegs c (fun t => (f t).1) p) ((lanesOf c.m p.width).map fun t => (t, (f t).2)) u
    have h2 := wrAll_sansDead (regCells (lanesOf c.m p.width) fun t => (f t).1) p u
    rw [← laneRegs_eq] at h2
    calc (packThread (vecOut c f p) u).sansFl
        = (packThread (laneRegs c (fun t => (f t).1) p) u).sansFl := congrArg Thread.sansDead h1
      _ = (packThread p u).sansFl := congrArg (fun t : Thread => { t with fflags := 0 }) h2
  rest := vecOut_rest c f p

theorem vecOut_fflags (c : Ctx) (f : Nat → List (Nat × Nat) × Fl) (p : Pack) {u : Nat} (hu : u < p.threads.length) :
    (packThread (vecOut c f p) u).fflags =
      if u ∈ lanesOf c.m p.width then (packThread p u).fflags ||| (f u).2 else (packThread p u).fflags := by
  have hsame := congrArg Thread.fflags (wrAll_sansDead (regCells (lanesOf c.m p.width) fun t => (f t).1) p u)
  rw [← laneRegs_eq] at hsame
  simp only [Thread.sansDead] at hsame
  rw [vecOut, raiseFlags_fflags _ _ _ (by rw [laneRegs_eq, wrAll_length]; exact hu), foldl_flags_mapped _ _ _ _ (lanesOf_nodup _ _), hsame]

/-- Where no thread raises an enabled flag, the registers are written (06 R170). -/
theorem laneRegsFl_quiet {c : Ctx} {f : Nat → List (Nat × Nat) × Fl} (h : ∀ t ∈ lanesOf c.m p.width, (f t).2 &&& enabledFlags p = 0) :
    laneRegsFl c f p = .ok (vecOut c f p) := by
  have hnone : fpeTrap p ((lanesOf c.m p.width).map fun t => (t, (f t).2)) = none := fpeTrap_none (List.forall_mem_map.mpr h)
  unfold laneRegsFl
  simp only [hnone]
  rfl

theorem laneRegs_noFlags (c : Ctx) (f : Nat → List (Nat × Nat)) (p : Pack) : laneRegs c f p = vecOut c (fun t => (f t, 0)) p := by
  rw [vecOut, raiseFlags_zero]

end

/-! ### Instructions that run a vector row -/

section
variable {i : Instr} {e : Enc} {s : State} {m : BitVec 64} {f : Pack → Nat → List (Nat × Nat) × Fl}

/-- An instruction issues with a body that writes its row's registers, distinct in each thread, where no thread raises an enabled flag. -/
structure RunsVec (i : Instr) (e : Enc) (f : Pack → Nat → List (Nat × Nat) × Fl) (s : State) : Prop where
  issues : ∃ g : Ctx → Pack → Except Trap Pack, exec i s = issue i e (onPack g) s ∧
    ((∀ t ∈ lanesOf (issueMask s e) (issuing s).width, (f (issuing s) t).2 &&& enabledFlags (issuing s) = 0) →
      g (issueCtx s e) (issuing s) = .ok (vecOut (issueCtx s e) (f (issuing s)) (issuing s)))
  distinct : ∀ t, ((f (issuing s) t).1.map (·.1)).Nodup

theorem RunsVec.result (hrun : RunsVec i e f s) (h : Issuable i s)
    (hq : ∀ t ∈ lanesOf (issueMask s e) (issuing s).width, (f (issuing s) t).2 &&& enabledFlags (issuing s) = 0) :
    exec i s = .next (completedPack s (vecOut (issueCtx s e) (f (issuing s)) (issuing s)) e 0) := by
  obtain ⟨g, hexec, hg⟩ := hrun.issues
  have hrest := vecOut_rest (issueCtx s e) (f (issuing s)) (issuing s)
  exact hexec.trans (issue_onPack_done h (hg hq) ((congrArg Pack.launch hrest).trans (issuing_launch s))
    ((congrArg Pack.lin hrest).trans (issuing_lin s)))

theorem pmovUnpack_runs (hr : Claims.vectorRow m (.pmov e) = some (e, f)) : RunsVec (.pmov e) e f s := by
  simp only [Claims.vectorRow] at hr
  split at hr
  · rename_i hmod
    cases hr
    refine ⟨⟨pmovBody, rfl, fun _ => ?_⟩, fun _ => List.nodup_singleton _⟩
    unfold pmovBody
    rw [show encMod (issueCtx s e).e = 1 from hmod]
    simp only [laneRegs_noFlags]
    rfl
  · cases hr

theorem zipIdx_eq_range {α : Type} (l : List α) (d : α) : l.zipIdx = (List.range l.length).map fun k => (l.getD k d, k) := by
  refine List.ext_getElem (by simp) fun k h1 h2 => ?_
  simp at h1
  simp [h1]

theorem cvtup_runs (hr : Claims.vectorRow m (.cvtup e) = some (e, f)) : RunsVec (.cvtup e) e f s := by
  cases hr
  refine ⟨⟨cvtupBody, rfl, fun hq => ?_⟩, fun t => ?_⟩
  · refine Eq.trans ?_ (laneRegsFl_quiet hq)
    simp only [zipIdx_eq_range _ ((0 : Nat), (0 : Fl)), List.map_map]
    rfl
  · simp only [List.map_map]
    rw [zipIdx_eq_range _ ((0 : Nat), (0 : Fl)), List.map_map]
    exact List.nodup_range.map fun a b h => by simpa using h

/-- The accumulation chains take the lanes that their rule names (04 R128). -/
theorem chain_runs {sel : Nat → Nat → Bool} (hexec : exec i s = issue i e (onPack (chainBody sel)) s)
    (hf : ∀ t, f (issuing s) t =
      ([(encD e, (laneChain (rdV (issuing s) (encA e)) ((lanesOf (issueMask s e) (issuing s).width).filter (sel t))).1)],
        (laneChain (rdV (issuing s) (encA e)) ((lanesOf (issueMask s e) (issuing s).width).filter (sel t))).2)) :
    RunsVec i e f s := by
  refine ⟨⟨_, hexec, fun hq => ?_⟩, fun t => by rw [hf]; exact List.nodup_singleton _⟩
  rw [funext hf] at hq ⊢
  exact laneRegsFl_quiet hq

theorem visd_runs (hr : Claims.vectorRow m (.visd e) = some (e, f)) : RunsVec (.visd e) e f s := by
  cases hr
  refine ⟨⟨visdBody, rfl, fun _ => ?_⟩, fun t => by simp⟩
  unfold visdBody
  have hw : ∀ t, rdV64 (issuing s) (encA e) t / 2 ^ 32 % 2 ^ 32 = rdV64 (issuing s) (encA e) t / 2 ^ 32 := fun t => by
    have := rdV64_lt (issuing s) (encA e) t
    omega
  simp only [laneRegs_noFlags, bits, pow_zero, Nat.div_one, issueCtx, hw]

/-- Every instruction with named registers runs its row. -/
theorem vectorRow_runs (hr : Claims.vectorRow (issueMask s e) i = some (e, f)) : RunsVec i e f s := by
  have hr' := hr
  unfold Claims.vectorRow at hr'
  split at hr'
  next =>
    split at hr'
    · cases hr'; exact pmovUnpack_runs hr
    · cases hr'
  next => cases hr'; exact cvtup_runs hr
  next => cases hr'; exact chain_runs (sel := fun _ _ => true) rfl fun t => by rw [List.filter_true]
  next => cases hr'; exact chain_runs rfl fun _ => rfl
  next => cases hr'; exact chain_runs rfl fun _ => rfl
  next => cases hr'; exact visd_runs hr
  next => cases hr'

end

end Sys2Proof.Machine

namespace Sys2Proof
open Machine

theorem crossLanes_claim : Claims.CrossLanes := fun _ _ _ _ hr h => crossRow_result hr h

theorem vectorResults_claim : Claims.VectorResults := by
  intro i e f s hr h p l hq
  have hrun := vectorRow_runs hr
  exact ⟨vecOut (issueCtx s e) (f p) p, hrun.result h hq, vecOut_done (issueCtx s e) (f p) p fun t _ => hrun.distinct t,
    fun _ hu => vecOut_fflags (issueCtx s e) (f p) p hu⟩

/-- Settles O6: each cross-lane instruction runs the lane operation of its row, and each instruction with named registers writes them in the
threads of its mask. -/
theorem vectorResults : Obligations.VectorResults := ⟨crossLanes_claim, vectorResults_claim⟩

end Sys2Proof
end

section
/-! PROOFS. Special registers (04 R120, R121). -/

namespace Sys2Proof.Machine

/-! ### Instructions that keep the pack's place in the order of the launch -/

section
variable {i : Instr} {e : Enc} {s t : State} {body : Ctx → State → Res} {left : BitVec 64}

/-- No admission is kept for an instruction that begins, where neither its launch's record nor its pack's number has changed (16 R478). -/
theorem madeHere_begins (h : Issuable i s) (hs : (t.pack s.cur).launch = (s.pack s.cur).launch) (hn : (t.pack s.cur).lin = (s.pack s.cur).lin)
    (hl : t.launches = s.launches) (ht : s.isTrack (s.pack s.cur).launch = true) : madeHere t s.cur = false := by
  have hu := h.begins ht
  unfold untouched at hu
  rw [Bool.and_eq_true, Bool.not_eq_true'] at hu
  have hsame : madeHere t s.cur = madeHere s s.cur := by
    unfold madeHere State.launch
    simp only [hs, hn, hl]
  exact hsame.trans hu.2

/-- A body that is done at once completes, where the launches stay as they are and the pack stays of its launch. -/
theorem issue_done_keeps (h : Issuable i s) (hb : body (issueCtx s e) (issued s) = .done t left)
    (hs : (t.pack s.cur).launch = (s.pack s.cur).launch) (hn : (t.pack s.cur).lin = (s.pack s.cur).lin)
    (hl : t.launches = s.launches) : issue i e body s = .next (completed s t e left) :=
  issue_done h hb (madeHere_begins h hs hn hl)

end

/-! ### srd -/

section
variable {e : Enc} {s : State}

/-- The registers that srd of a per-thread special register writes in a thread (04 R120). -/
def srdRegs (e : Enc) (p : Pack) (t : Nat) : List (Nat × Nat) :=
  if e.b.toNat = 0 then [(encD e, (p.wid.toNat + t) % 2 ^ 32), (encD e + 1, (p.wid.toNat + t) % 2 ^ 64 / 2 ^ 32)]
  else if e.b.toNat = 1 then [(encD e, t)] else [(encD e, (packThread p t).fflags.toNat)]

theorem srdRegs_distinct (e : Enc) (p : Pack) (t : Nat) : ((srdRegs e p t).map (·.1)).Nodup := by
  unfold srdRegs
  split
  · simp
  · split <;> exact List.nodup_singleton _

/-- What a thread reads is written to its register or pair. -/
theorem srd_write (e : Enc) (p q : Pack) (t : Nat) (hn : e.b.toNat = 0 ∨ e.b.toNat = 1 ∨ e.b.toNat = 4) :
    (if srWide e.b.toNat then wrV64 q (encD e) t (srThreadVal p e.b.toNat t) else wrV q (encD e) t (srThreadVal p e.b.toNat t)) =
      (srdRegs e p t).foldl (fun q y => wrV q y.1 t y.2) q := by
  unfold srdRegs
  rcases hn with hn | hn | hn <;> rw [hn]
  · have hlow : (p.wid.toNat + t) % 2 ^ 64 % 4294967296 = (p.wid.toNat + t) % 2 ^ 32 := by omega
    simp only [srWide, srThreadVal, wrV64, hlow]
    rfl
  · rfl
  · rfl

theorem srd_thread (h : Issuable (.srd e) s) (hn : e.b.toNat = 0 ∨ e.b.toNat = 1 ∨ e.b.toNat = 4) :
    exec (.srd e) s = .next (completedPack s (laneRegs (issueCtx s e) (srdRegs e (issuing s)) (issuing s)) e 0) := by
  have hrest : (laneRegs (issueCtx s e) (srdRegs e (issuing s)) (issuing s)).sansV = (issuing s).sansV := by
    rw [laneRegs_eq, wrAll_sansV]
  have hbody : srdBody (issueCtx s e) (issued s) =
      .done (s.setPack s.cur (laneRegs (issueCtx s e) (srdRegs e (issuing s)) (issuing s))) 0 := by
    have hst : srThread e.b.toNat = true := by rcases hn with hn | hn | hn <;> rw [hn] <;> rfl
    have hmat : ¬((e.b.toNat = 7 ∨ e.b.toNat = 8) ∧ packMatBusy (issued s) (issued s).cur = true) := by omega
    unfold srdBody
    simp only [issued_curPack s h.pack, issueCtx, hmat, hst, if_true, if_false, issued_setCur s h.pack, laneRegs, List.foldl_map,
      srd_write _ _ _ _ hn]
  refine issue_done_keeps h hbody ?_ ?_ rfl
  · rw [State.setPack_pack_same]; exact (congrArg Pack.launch hrest).trans (issuing_launch s)
  · rw [State.setPack_pack_same]; exact (congrArg Pack.lin hrest).trans (issuing_lin s)

/-- The per-pack special registers read as the claim says. -/
theorem srPackVal_special {t : State} {p : Pack} {n : Nat} (hl : t.launch p.launch = s.launch p.launch)
    (hf : n = 11 → t.fresh = s.fresh + 1) (hn : ¬(n = 0 ∨ n = 1 ∨ n = 4)) : srPackVal t p n = Claims.special s p n := by
  unfold srPackVal clockVal Claims.special
  rw [hl]
  split
  case h_9 => rw [hf rfl]; rfl
  case h_15 => simp_all
  all_goals rfl

/-- The state after a reading of special register `n`: that of %clock takes a fresh value (04 R121). -/
def clocked (s : State) (n : Nat) : State := { s with fresh := if n = 11 then s.fresh + 1 else s.fresh }

theorem srdBody_pack {c : Ctx} (hst : srThread c.e.b.toNat = false)
    (hfree : ¬((c.e.b.toNat = 7 ∨ c.e.b.toNat = 8) ∧ packMatBusy s s.cur = true)) :
    srdBody c s = .done ((clocked s c.e.b.toNat).setCur
      (wrS s.curPack c.e.d.toNat (srPackVal (clocked s c.e.b.toNat) s.curPack c.e.b.toNat))) 0 := by
  unfold srdBody clocked
  simp only [hfree, hst, Bool.false_eq_true, if_false]
  split <;> rfl

theorem srd_pack (h : Issuable (.srd e) s) (hn : ¬(e.b.toNat = 0 ∨ e.b.toNat = 1 ∨ e.b.toNat = 4))
    (hmat : (e.b.toNat = 7 ∨ e.b.toNat = 8) → packMatBusy s s.cur = false) :
    exec (.srd e) s = .next (completed s ((clocked s e.b.toNat).setPack s.cur
      (wrS (issuing s) e.d.toNat (Claims.special s (issuing s) e.b.toNat))) e 0) := by
  have hst : srThread e.b.toNat = false := by
    unfold srThread
    simp only [Bool.or_eq_false_iff, beq_eq_false_iff_ne]
    omega
  have hfree : ¬((e.b.toNat = 7 ∨ e.b.toNat = 8) ∧ packMatBusy (issued s) (issued s).cur = true) := fun hc =>
    Bool.false_ne_true ((hmat hc.1).symm.trans hc.2)
  have hbody : srdBody (issueCtx s e) (issued s) =
      .done ((clocked s e.b.toNat).setPack s.cur
        (wrS (issuing s) e.d.toNat (Claims.special s (issuing s) e.b.toNat))) 0 := by
    rw [srdBody_pack (c := issueCtx s e) hst hfree, issueCtx_e, issued_curPack s h.pack,
      srPackVal_special (s := s) (t := clocked (issued s) e.b.toNat) rfl (fun h11 => if_pos h11) hn,
      State.setCur_pack (clocked (issued s) e.b.toNat) h.pack]
    exact congrArg (Res.done · 0) (State.setPack_setPack (clocked s e.b.toNat) s.cur _ _)
  refine issue_done_keeps h hbody ?_ ?_ rfl
  · rw [State.setPack_pack_same]; exact issuing_launch s
  · rw [State.setPack_pack_same]; exact issuing_lin s

/-! ### swr -/

/-- The range of %fenv (04 R120; 06 R167). -/
theorem swrOk_fenv (v : Nat) : swrOk 5 v = true ↔ v < 2048 ∧ v / 32 % 8 = 0 ∧ v / 256 % 8 ≤ 4 := by
  have h : swrOk 5 v = (v / 32 % 8 == 0 && v / 2048 == 0 && decide (v / 256 % 8 ≤ 4)) := rfl
  rw [h]
  simp only [Bool.and_eq_true, beq_iff_eq, decide_eq_true_eq]
  omega

theorem swrOk_rm (v : Nat) : swrOk 6 v = true ↔ v ≤ 4 := by simp [swrOk]

/-- A uniform special register takes its value where that is in range. -/
def swrUni (n : Nat) (v : W64) (p : Pack) : Pack :=
  match n with
  | 5 => { p with fenv := v.setWidth 32 }
  | 6 => { p with rm := v.setWidth 32 }
  | _ => { p with rng := rngNonzero v }

theorem swrUni_keeps (n : Nat) (v : W64) (p : Pack) : (swrUni n v p).launch = p.launch ∧ (swrUni n v p).lin = p.lin := by
  unfold swrUni
  split <;> exact ⟨rfl, rfl⟩

theorem swrBody_uni {c : Ctx} {p : Pack} (hn : c.e.b.toNat = 5 ∨ c.e.b.toNat = 6 ∨ c.e.b.toNat = 17)
    (hok : swrOk c.e.b.toNat (rdS p (encA c.e)).toNat = true) :
    swrBody c p = .ok (swrUni c.e.b.toNat (rdS p (encA c.e)) p) := by
  unfold swrBody
  rcases hn with hn | hn | hn <;> rw [hn] at hok ⊢ <;> simp only [hok, Bool.not_true, Bool.false_eq_true, if_false] <;> rfl

theorem swr_uni (h : Issuable (.swr e) s) (hn : e.b.toNat = 5 ∨ e.b.toNat = 6 ∨ e.b.toNat = 17)
    (hok : swrOk e.b.toNat (rdS (issuing s) (encA e)).toNat = true) :
    exec (.swr e) s = .next (completedPack s (swrUni e.b.toNat (rdS (issuing s) (encA e)) (issuing s)) e 0) := by
  obtain ⟨hlaunch, hlin⟩ := swrUni_keeps e.b.toNat (rdS (issuing s) (encA e)) (issuing s)
  exact issue_onPack_done h (swrBody_uni (c := issueCtx s e) hn hok) (hlaunch.trans (issuing_launch s)) (hlin.trans (issuing_lin s))

theorem swr_uni_trap (h : Issuable (.swr e) s) (h4 : e.b.toNat ≠ 4) (hm : issueMask s e ≠ 0)
    (hok : swrOk e.b.toNat (rdS (issuing s) (encA e)).toNat = false) :
    exec (.swr e) s = .next (trapped s e ((issueCtx s e).openTrap clsIllop 13 (rdS (issuing s) (encA e)))) := by
  refine issue_onPack_trap h ?_ hm
  unfold swrBody
  rw [if_neg (show (issueCtx s e).e.b.toNat ≠ 4 from h4)]
  simp only [issueCtx, hok, Bool.not_false, if_true]

/-- Changes of several threads, each once. -/
theorem packThread_modList {l : List Nat} (hn : l.Nodup) (g : Nat → Thread → Thread) (p : Pack) {u : Nat} (hu : u < p.threads.length) :
    packThread (l.foldl (fun q t => packModThread q t (g t)) p) u = if u ∈ l then g u (packThread p u) else packThread p u := by
  induction l generalizing p with
  | nil => rfl
  | cons t l ih =>
    obtain ⟨ht, hn⟩ := List.nodup_cons.mp hn
    rw [List.foldl_cons, ih hn _ (by simpa [packModThread] using hu), packThread_packModThread]
    by_cases hut : u = t
    · subst hut; simp [ht, hu]
    · simp [hut]

theorem modList_fields (l : List Nat) (g : Nat → Thread → Thread) (p : Pack) :
    ∃ ths, l.foldl (fun q t => packModThread q t (g t)) p = { p with threads := ths } := by
  induction l generalizing p with
  | nil => exact ⟨p.threads, rfl⟩
  | cons t l ih =>
    obtain ⟨ths, h⟩ := ih (packModThread p t (g t))
    exact ⟨ths, h⟩

/-- A thread takes its sticky flags from a vector register. -/
def fflagsFrom (e : Enc) (p : Pack) (t : Nat) (th : Thread) : Thread := { th with fflags := BitVec.ofNat 5 (rdV p (encA e) t) }

theorem swrBody_fflags {c : Ctx} {p : Pack} (h4 : c.e.b.toNat = 4) (hv : ∀ t ∈ lanesOf c.m p.width, rdV p (encA c.e) t < 32) :
    swrBody c p = .ok ((lanesOf c.m p.width).foldl (fun q t => packModThread q t (fflagsFrom c.e p t)) p) := by
  have hnone : ((lanesOf c.m p.width).map fun t => (t, rdV p (encA c.e) t)).find? (fun x => !swrOk 4 x.2) = none :=
    List.find?_eq_none.mpr (List.forall_mem_map.mpr fun t ht => by simp [swrOk, hv t ht])
  unfold swrBody
  simp only [h4, if_true, hnone, List.foldl_map]
  rfl

theorem swrBody_fflags_trap {c : Ctx} {p : Pack} (h4 : c.e.b.toNat = 4) (hv : ∃ t ∈ lanesOf c.m p.width, 32 ≤ rdV p (encA c.e) t) :
    ∃ x, swrBody c p = .error (c.openTrap clsIllop 13 x) := by
  obtain ⟨t, ht, hlt⟩ := hv
  have hsome : (((lanesOf c.m p.width).map fun t => (t, rdV p (encA c.e) t)).find? (fun x => !swrOk 4 x.2)).isSome = true :=
    List.find?_isSome.mpr ⟨_, List.mem_map_of_mem ht, by simpa [swrOk] using hlt⟩
  obtain ⟨x, hx⟩ := Option.isSome_iff_exists.mp hsome
  unfold swrBody
  simp only [h4, if_true, hx]
  exact ⟨_, rfl⟩

end

end Sys2Proof.Machine

namespace Sys2Proof
open Machine

theorem specialReads_claim : Claims.SpecialReads := by
  intro e s h hmat p n l
  split
  · rename_i hn
    have hvec := laneRegs_noFlags (issueCtx s e) (srdRegs e p) p
    have hdone := vecOut_done (issueCtx s e) (fun t => (srdRegs e p t, 0)) p fun t _ => srdRegs_distinct e p t
    rw [← hvec] at hdone
    refine ⟨_, srd_thread h hn, hdone, fun u => ?_⟩
    have hsame := congrArg Thread.fflags (wrAll_sansDead (regCells (lanesOf (issueCtx s e).m p.width) (srdRegs e p)) p u)
    rw [← laneRegs_eq] at hsame
    exact hsame
  · rename_i hn
    exact srd_pack h hn hmat

theorem specialWrites_claim : Claims.SpecialWrites := by
  intro e s h p v l
  refine ⟨fun hn hv => ?_, fun hn hv => ?_, fun hn => ?_, fun hn hv => ?_, fun hm hbad => ?_⟩
  · have hdone := swr_uni h (.inl hn) (by rw [hn]; exact (swrOk_fenv v.toNat).mpr hv)
    rw [hn] at hdone
    exact hdone
  · have hdone := swr_uni h (.inr (.inl hn)) (by rw [hn]; exact (swrOk_rm v.toNat).mpr hv)
    rw [hn] at hdone
    exact hdone
  · have hdone := swr_uni h (.inr (.inr hn)) (by rw [hn]; rfl)
    rw [hn] at hdone
    exact hdone
  · obtain ⟨ths, hths⟩ := modList_fields l (fflagsFrom e p) p
    have hdone := issue_onPack_done h (swrBody_fflags (c := issueCtx s e) hn hv) ((congrArg Pack.launch hths).trans (issuing_launch s))
      ((congrArg Pack.lin hths).trans (issuing_lin s))
    have hrest : (l.foldl (fun q t => packModThread q t (fflagsFrom e p t)) p).sansThreads = p.sansThreads := by rw [hths]; rfl
    exact ⟨_, hdone, hrest, fun u hu => packThread_modList (lanesOf_nodup _ _) (fflagsFrom e p) p hu⟩
  · rcases hbad with ⟨hn, hv⟩ | ⟨hn, hv⟩ | ⟨hn, hv⟩
    · have hok : swrOk 6 v.toNat = false := by rw [← Bool.not_eq_true, swrOk_rm]; omega
      exact ⟨_, swr_uni_trap h (by omega) hm (by rw [hn]; exact hok)⟩
    · have hok : swrOk 5 v.toNat = false := by rw [← Bool.not_eq_true, swrOk_fenv]; exact hv
      exact ⟨_, swr_uni_trap h (by omega) hm (by rw [hn]; exact hok)⟩
    · obtain ⟨x, hx⟩ := swrBody_fflags_trap (c := issueCtx s e) hn hv
      exact ⟨_, issue_onPack_trap h hx hm⟩

/-- Settles O7: srd reads each special register by its number, and swr writes those that may be written where the value is in range. -/
theorem specialRegisters : Obligations.SpecialRegisters := ⟨specialReads_claim, specialWrites_claim⟩

end Sys2Proof
end

section
/-! PROOFS. Control transfer, loops and software traps (04 R104, R108 to R111, R116 to R119; 09 R265, R279; 15 R450). -/

namespace Sys2Proof.Machine

/-! ### Changes of several threads -/

section
variable {l : List Nat} {g : Nat → Thread → Thread} {p : Pack}

theorem packThread_modList_other (p : Pack) {u : Nat} (hu : u ∉ l) :
    packThread (l.foldl (fun q t => packModThread q t (g t)) p) u = packThread p u := by
  induction l generalizing p with
  | nil => rfl
  | cons t l ih =>
    rw [List.foldl_cons, ih _ (List.not_mem_of_not_mem_cons hu), packThread_packModThread,
      if_neg fun hc => List.ne_of_not_mem_cons hu hc.1]

/-- Threads that change, each once, and a loop stack: what a transfer leaves. -/
theorem moved_modList (hn : l.Nodup) (g : Nat → Thread → Thread) (loops : List LoopEntry) (rows : Tab Bool) (p : Pack) :
    Claims.Moved l g loops p { l.foldl (fun q t => packModThread q t (g t)) p with loops := loops, denRows := rows } where
  moved t ht hlt := (packThread_modList hn g p hlt).trans (if_pos ht)
  others t ht := packThread_modList_other p ht
  stack := rfl
  rest := by
    obtain ⟨ths, h⟩ := modList_fields l g p
    rw [h]

theorem moved_modThreads (hn : l.Nodup) (f : Thread → Thread) (p : Pack) : Claims.Moved l (fun _ => f) p.loops p (modThreads p l f) := by
  obtain ⟨ths, h⟩ := modThreads_fields p l f
  have hmoved := moved_modList hn (fun _ => f) p.loops p.denRows p
  have hsame : ({ modThreads p l f with loops := p.loops, denRows := p.denRows } : Pack) = modThreads p l f := by rw [h]
  rwa [show l.foldl (fun q t => packModThread q t f) p = modThreads p l f from rfl, hsame] at hmoved

theorem moved_launch {loops : List LoopEntry} {q : Pack} (h : Claims.Moved l g loops p q) : q.launch = p.launch :=
  (congrArg Pack.launch h.rest :)

theorem moved_lin {loops : List LoopEntry} {q : Pack} (h : Claims.Moved l g loops p q) : q.lin = p.lin :=
  (congrArg Pack.lin h.rest :)

end

/-! ### Instructions that move threads -/

section
variable {i : Instr} {e : Enc} {s : State} {body : Ctx → State → Res} {left : BitVec 64}

/-- A body that leaves the pack alone changed, of its launch and place, completes. -/
theorem issue_moved {l : List Nat} {g : Nat → Thread → Thread} {loops : List LoopEntry} {q : Pack} (h : Issuable i s)
    (hb : body (issueCtx s e) (issued s) = .done ((issued s).setCur q) left) (hq : Claims.Moved l g loops (issuing s) q) :
    issue i e body s = .next (completedPack s q e left) := by
  rw [issued_setCur s h.pack] at hb
  refine issue_done_keeps h hb ?_ ?_ rfl
  · rw [State.setPack_pack_same]; exact (moved_launch hq).trans (issuing_launch s)
  · rw [State.setPack_pack_same]; exact (moved_lin hq).trans (issuing_lin s)

/-! ### Branches and calls (R110, R116) -/

theorem popOutside_eq (tgts : List Nat) (loops : List LoopEntry) :
    popOutside tgts loops = loops.dropWhile fun x => !(tgts.all fun a => x.start.toNat ≤ a && a ≤ x.stop.toNat) := by
  induction loops with
  | nil => rfl
  | cons x loops ih =>
    unfold popOutside
    rw [List.dropWhile_cons]
    cases tgts.all fun a => x.start.toNat ≤ a && a ≤ x.stop.toNat
    · exact ih
    · rfl

/-- A thread at its target; a call pushes the return address. -/
def Thread.goTo (link : Option W64) (tgt : W64) (th : Thread) : Thread :=
  { th with pc := tgt, calls := match link with
      | some a => a :: th.calls
      | none => th.calls }

/-- One thread's transfer, with the rows that the den copies for a call entry (15 R455). -/
def transferOne (link : Option W64) (tgt : Nat → W64) (q : Pack) (t : Nat) : Pack :=
  packModThread
    (match link with
      | some _ => noteRow (noteRow q (320 + 2 * (packThread q t).calls.length)) (321 + 2 * (packThread q t).calls.length)
      | none => q) t (Thread.goTo link (tgt t))

theorem transferOne_rows (link : Option W64) (tgt : Nat → W64) (q : Pack) (t : Nat) :
    ∃ rows, transferOne link tgt q t = { packModThread q t (Thread.goTo link (tgt t)) with denRows := rows } := by
  cases link
  · exact ⟨q.denRows, rfl⟩
  · exact ⟨_, rfl⟩

theorem modList_denRows (l : List Nat) (g : Nat → Thread → Thread) (p : Pack) (rows : Tab Bool) :
    l.foldl (fun q t => packModThread q t (g t)) { p with denRows := rows } =
      { l.foldl (fun q t => packModThread q t (g t)) p with denRows := rows } := by
  induction l generalizing p with
  | nil => rfl
  | cons t l ih => exact ih (packModThread p t (g t))

theorem transferAll_eq (link : Option W64) (tgt : Nat → W64) (l : List Nat) (p : Pack) :
    ∃ rows, l.foldl (transferOne link tgt) p =
      { l.foldl (fun q t => packModThread q t (Thread.goTo link (tgt t))) p with denRows := rows } := by
  induction l generalizing p with
  | nil => exact ⟨p.denRows, rfl⟩
  | cons t l ih =>
    obtain ⟨rows, h⟩ := transferOne_rows link tgt p t
    obtain ⟨rows', h'⟩ := ih (transferOne link tgt p t)
    refine ⟨rows', ?_⟩
    rw [List.foldl_cons, h', h, modList_denRows]
    rfl

/-- The loop stack after a transfer: a branch pops the entries that do not hold its targets. -/
def loopsAfter (link : Option W64) (tgt : Nat → W64) (l : List Nat) (loops : List LoopEntry) : List LoopEntry :=
  if link.isSome || l.isEmpty then loops else popOutside (l.map fun t => (tgt t).toNat) loops

/-- What a transfer answers: a full call stack first, then a misaligned target, else the threads go. -/
theorem transfer_eq (c : Ctx) (s : State) (link : Option W64) (tgt : Nat → W64) : transfer c s link tgt =
    if (link.isSome && (lanesOf c.m s.curPack.width).any fun t => 1024 ≤ (packThread s.curPack t).calls.length) = true then
      .trap (c.trap clsIllop 12 2)
    else match (lanesOf c.m s.curPack.width).filter fun t => (tgt t).toNat % 4 ≠ 0 with
      | t :: r => .trap ⟨clsAlign, 0, tgt t, maskOf (t :: r)⟩
      | [] => .done (s.setCur { (lanesOf c.m s.curPack.width).foldl (transferOne link tgt) s.curPack with
          loops := loopsAfter link tgt (lanesOf c.m s.curPack.width)
            ((lanesOf c.m s.curPack.width).foldl (transferOne link tgt) s.curPack).loops }) c.m := by
  simp only [transfer]
  cases (lanesOf c.m s.curPack.width).filter fun t => (tgt t).toNat % 4 ≠ 0 <;> rfl

theorem callRoom {link : Option W64} {l : List Nat} {p : Pack}
    (hfull : link.isSome = true → ∀ t ∈ l, (packThread p t).calls.length < 1024) :
    (link.isSome && l.any fun t => 1024 ≤ (packThread p t).calls.length) = false := by
  cases hl : link.isSome
  · rfl
  · exact List.any_eq_false.mpr fun t ht => by simpa using hfull hl t ht

theorem transfer_moves (c : Ctx) (s : State) (link : Option W64) (tgt : Nat → W64)
    (hfull : link.isSome = true → ∀ t ∈ lanesOf c.m s.curPack.width, (packThread s.curPack t).calls.length < 1024)
    (hal : ∀ t ∈ lanesOf c.m s.curPack.width, (tgt t).toNat % 4 = 0) :
    ∃ q, transfer c s link tgt = .done (s.setCur q) c.m ∧
      Claims.Moved (lanesOf c.m s.curPack.width) (fun t => Thread.goTo link (tgt t))
        (loopsAfter link tgt (lanesOf c.m s.curPack.width) s.curPack.loops) s.curPack q := by
  have hnone : (lanesOf c.m s.curPack.width).filter (fun t => (tgt t).toNat % 4 ≠ 0) = [] :=
    List.filter_eq_nil_iff.mpr fun t ht => by simp [hal t ht]
  have hroom := callRoom hfull
  obtain ⟨rows, hrows⟩ := transferAll_eq link tgt (lanesOf c.m s.curPack.width) s.curPack
  obtain ⟨ths, hths⟩ := modList_fields (lanesOf c.m s.curPack.width) (fun t => Thread.goTo link (tgt t)) s.curPack
  have hloops : ((lanesOf c.m s.curPack.width).foldl (transferOne link tgt) s.curPack).loops = s.curPack.loops := by rw [hrows, hths]
  refine ⟨_, ?_, moved_modList (lanesOf_nodup _ _) _ _ rows _⟩
  rw [transfer_eq, hroom, hnone, hloops, hrows]
  rfl

theorem transfer_full (c : Ctx) (s : State) (a : W64) (tgt : Nat → W64)
    (h : ∃ t ∈ lanesOf c.m s.curPack.width, 1024 ≤ (packThread s.curPack t).calls.length) :
    transfer c s (some a) tgt = .trap (c.trap clsIllop 12 2) := by
  rw [transfer_eq, if_pos]
  obtain ⟨t, ht, hlen⟩ := h
  exact List.any_eq_true.mpr ⟨t, ht, by simpa using hlen⟩

theorem transfer_misaligned (c : Ctx) (s : State) (link : Option W64) (tgt : Nat → W64) {t : Nat} {r : List Nat}
    (hfull : link.isSome = true → ∀ t ∈ lanesOf c.m s.curPack.width, (packThread s.curPack t).calls.length < 1024)
    (h : (lanesOf c.m s.curPack.width).filter (fun t => (tgt t).toNat % 4 ≠ 0) = t :: r) :
    transfer c s link tgt = .trap ⟨clsAlign, 0, tgt t, maskOf (t :: r)⟩ := by
  have hroom := callRoom hfull
  rw [transfer_eq, hroom, h]
  rfl

/-- The return address of a call, and none of a branch. -/
def linkOf (s : State) (e : Enc) (link : Bool) : Option W64 := if link then some (issuePc s + BitVec.ofNat 64 e.size) else none

theorem linkOf_isSome (s : State) (e : Enc) (link : Bool) : (linkOf s e link).isSome = link := by cases link <;> rfl

section
variable {i : Instr} {e : Enc} {s : State} {link : Bool} {tgt : Nat → W64}

/-- A branch or call issues with a transfer to the targets that the claim names. -/
theorem branchRow_runs (hr : Claims.branchRow s i = some (e, link, tgt)) (h : Issuable i s) : ∃ body, exec i s = issue i e body s ∧
    body (issueCtx s e) (issued s) = transfer (issueCtx s e) (issued s) (linkOf s e link) tgt := by
  have hp := issued_curPack s h.pack
  unfold Claims.branchRow at hr
  split at hr
  next =>
    cases hr
    refine ⟨braBody, rfl, ?_⟩
    unfold braBody
    rw [issued_isFox, h.pack]
    rfl
  next =>
    cases hr
    refine ⟨_, rfl, ?_⟩
    simp only [hp]
    rfl
  next =>
    cases hr
    exact ⟨_, rfl, rfl⟩
  next =>
    cases hr
    refine ⟨_, rfl, ?_⟩
    simp only [hp]
    rfl
  next => cases hr

/-- A branch that is taken pops the entries whose range does not hold its targets (R110). -/
theorem loopsAfter_eq (l : List Nat) (loops : List LoopEntry) : loopsAfter (linkOf s e link) tgt l loops =
    if link ∨ l = [] then loops else loops.dropWhile fun x => !(l.all fun t => Claims.holdsAddr x (tgt t)) := by
  unfold loopsAfter
  rw [linkOf_isSome, popOutside_eq]
  simp only [List.all_map]
  cases link <;> cases l <;> rfl

theorem goTo_linkOf (a : W64) : Thread.goTo (linkOf s e link) a = fun th =>
    { th with pc := a, calls := if link then (issuePc s + BitVec.ofNat 64 e.size) :: th.calls else th.calls } := by
  cases link <;> rfl

theorem branch_moves (hr : Claims.branchRow s i = some (e, link, tgt)) (h : Issuable i s)
    (hfull : link = true → ∀ t ∈ lanesOf (issueMask s e) (issuing s).width, (packThread (issuing s) t).calls.length < 1024)
    (hal : ∀ t ∈ lanesOf (issueMask s e) (issuing s).width, (tgt t).toNat % 4 = 0) :
    ∃ q, exec i s = .next (completedPack s q e (issueMask s e)) ∧
      Claims.Moved (lanesOf (issueMask s e) (issuing s).width) (fun t => Thread.goTo (linkOf s e link) (tgt t))
        (loopsAfter (linkOf s e link) tgt (lanesOf (issueMask s e) (issuing s).width) (issuing s).loops) (issuing s) q := by
  obtain ⟨body, hexec, hbody⟩ := branchRow_runs hr h
  have htr := transfer_moves (issueCtx s e) (issued s) (linkOf s e link) tgt
  rw [issued_curPack s h.pack] at htr
  obtain ⟨q, hq, hmoved⟩ := htr (by rwa [linkOf_isSome]) hal
  exact ⟨q, hexec.trans (issue_moved h (hbody.trans hq) hmoved), hmoved⟩

/-- Some thread of the mask makes it nonzero. -/
theorem issueMask_ne_zero {t w : Nat} (h : t ∈ lanesOf (issueMask s e) w) : issueMask s e ≠ 0 := by
  intro h0
  rw [h0] at h
  simp [mem_lanesOf] at h

theorem branch_misaligned (hr : Claims.branchRow s i = some (e, link, tgt)) (h : Issuable i s)
    (hfull : link = true → ∀ t ∈ lanesOf (issueMask s e) (issuing s).width, (packThread (issuing s) t).calls.length < 1024)
    {t : Nat} {r : List Nat} (hbad : (lanesOf (issueMask s e) (issuing s).width).filter (fun t => (tgt t).toNat % 4 ≠ 0) = t :: r) :
    exec i s = .next (trapped s e ⟨clsAlign, 0, tgt t, maskOf (t :: r)⟩) := by
  obtain ⟨body, hexec, hbody⟩ := branchRow_runs hr h
  have htr := transfer_misaligned (issueCtx s e) (issued s) (linkOf s e link) tgt (t := t) (r := r)
  rw [issued_curPack s h.pack] at htr
  have hm : issueMask s e ≠ 0 := issueMask_ne_zero (List.mem_of_mem_filter (hbad ▸ List.mem_cons_self : t ∈ List.filter _ _))
  exact hexec.trans (issue_trap h (hbody.trans (htr (by rwa [linkOf_isSome]) hbad)) hm)

theorem call_full (hr : Claims.branchRow s i = some (e, true, tgt)) (h : Issuable i s)
    (hfull : ∃ t ∈ lanesOf (issueMask s e) (issuing s).width, 1024 ≤ (packThread (issuing s) t).calls.length) :
    exec i s = .next (trapped s e ⟨clsIllop, 12, 2, issueMask s e⟩) := by
  obtain ⟨body, hexec, hbody⟩ := branchRow_runs hr h
  have htr := transfer_full (issueCtx s e) (issued s) (issuePc s + BitVec.ofNat 64 e.size) tgt
  rw [issued_curPack s h.pack] at htr
  have hm : issueMask s e ≠ 0 := hfull.elim fun _ ht => issueMask_ne_zero ht.1
  exact hexec.trans (issue_trap h (hbody.trans (htr hfull)) hm)

/-! ### ret, conv, exit, yield (R104, R116 to R118) -/

theorem ret_moves (h : Issuable (.ret e) s) (hc : ∀ t ∈ lanesOf (issueMask s e) (issuing s).width, (packThread (issuing s) t).calls ≠ []) :
    ∃ q, exec (.ret e) s = .next (completedPack s q e (issueMask s e)) ∧
      Claims.Moved (lanesOf (issueMask s e) (issuing s).width) (fun _ th => { th with pc := th.calls.headD 0, calls := th.calls.tail })
        (issuing s).loops (issuing s) q := by
  have hnone : ((lanesOf (issueMask s e) (issuing s).width).any fun t => (packThread (issuing s) t).calls.isEmpty) = false :=
    List.any_eq_false.mpr fun t ht => by simpa using hc t ht
  have hmoved := moved_modThreads (lanesOf_nodup (issueMask s e) (issuing s).width)
    (fun th => { th with pc := th.calls.headD 0, calls := th.calls.tail }) (issuing s)
  refine ⟨_, issue_moved h ?_ hmoved, hmoved⟩
  unfold retBody
  simp only [issued_curPack s h.pack, issueCtx_m, hnone, Bool.false_eq_true, if_false]

theorem ret_empty (h : Issuable (.ret e) s) (hc : ∃ t ∈ lanesOf (issueMask s e) (issuing s).width, (packThread (issuing s) t).calls = []) :
    exec (.ret e) s = .next (trapped s e ⟨clsIllop, 12, 3, issueMask s e⟩) := by
  obtain ⟨t, ht, hcalls⟩ := hc
  have hsome : ((lanesOf (issueMask s e) (issuing s).width).any fun t => (packThread (issuing s) t).calls.isEmpty) = true :=
    List.any_eq_true.mpr ⟨t, ht, by simp [hcalls]⟩
  refine issue_trap h ?_ (issueMask_ne_zero ht)
  unfold retBody
  simp only [issued_curPack s h.pack, issueCtx_m, hsome, if_true]
  rfl

theorem conv_moves (h : Issuable (.conv e) s) : ∃ q, exec (.conv e) s = .next (completedPack s q e (issueMask s e)) ∧
    Claims.Moved (lanesOf (issueMask s e) (issuing s).width) (fun _ th => { th with held := true, holdSize := e.size })
      (issuing s).loops (issuing s) q := by
  have hmoved := moved_modThreads (lanesOf_nodup (issueMask s e) (issuing s).width)
    (fun th => { th with held := true, holdSize := e.size }) (issuing s)
  refine ⟨_, issue_moved h ?_ hmoved, hmoved⟩
  unfold convBody
  simp only [issued_curPack s h.pack, issueCtx_m, issueCtx_e]

/-- An exit that does not end a pack with moorings ends its threads and nothing else (R117; 09 R257). -/
theorem exit_moves (h : Issuable (.exit e) s)
    (hp : (∃ t < (issuing s).width, (packThread (issuing s) t).exited = false ∧ t ∉ lanesOf (issueMask s e) (issuing s).width) ∨
      holdsOf s (s.pack s.cur).launch s.cur = []) :
    ∃ q, exec (.exit e) s = .next (completedPack s q e (issueMask s e)) ∧
      Claims.Moved (lanesOf (issueMask s e) (issuing s).width) (fun _ => Thread.exit) (issuing s).loops (issuing s) q := by
  have hmoved := moved_modThreads (lanesOf_nodup (issueMask s e) (issuing s).width) Thread.exit (issuing s)
  refine ⟨_, issue_moved h ?_ hmoved, hmoved⟩
  have hends : (allExited (modThreads (issuing s) (lanesOf (issueMask s e) (issuing s).width) Thread.exit) &&
      !(holdsOf (issued s) (modThreads (issuing s) (lanesOf (issueMask s e) (issuing s).width) Thread.exit).launch s.cur).isEmpty) = false := by
    rcases hp with ⟨t, ht, hlive, hout⟩ | hnone
    · have hw : (modThreads (issuing s) (lanesOf (issueMask s e) (issuing s).width) Thread.exit).width = (issuing s).width :=
        (congrArg Pack.width hmoved.rest :)
      rw [Bool.and_eq_false_iff]
      left
      unfold allExited
      refine List.all_eq_false.mpr ⟨t, List.mem_range.mpr (lt_of_lt_of_eq ht hw.symm), ?_⟩
      rw [hmoved.others t hout, hlive]
      exact Bool.false_ne_true
    · rw [moved_launch hmoved, issuing_launch, show holdsOf (issued s) = holdsOf s from rfl, hnone]
      exact Bool.and_false _
  unfold exitBody
  simp only [issued_isFox, h.pack, Bool.false_eq_true, if_false, issued_curPack s h.pack, issueCtx_m, issued_cur, hends]

theorem nop_completes (h : Issuable (.nop e) s) : exec (.nop e) s = .next (completedPack s (issuing s) e 0) := by
  refine issue_done_keeps (t := issued s) h rfl ?_ ?_ rfl
  · rw [issued_pack]; exact issuing_launch s
  · rw [issued_pack]; exact issuing_lin s

theorem yield_completes (h : Issuable (.yield e) s) :
    exec (.yield e) s = .next (completed s { issued s with yields := (s.cur, true) :: s.yields } e 0) := by
  refine issue_done_keeps (t := { issued s with yields := (s.cur, true) :: s.yields }) h rfl ?_ ?_ rfl
  · exact (congrArg Pack.launch (issued_pack s)).trans (issuing_launch s)
  · exact (congrArg Pack.lin (issued_pack s)).trans (issuing_lin s)

/-! ### fence (09 R264 to R266, R279) -/

/-- Orders joined to what a pack sees change nothing else. -/
theorem seeOrder_fields (s : State) (k : Nat) (v : Tab Nat) : ∃ x, seeOrder s k v = { s with sight := x } := by
  unfold seeOrder
  split
  · exact ⟨s.sight, rfl⟩
  · exact ⟨_, rfl⟩

theorem fenceAcquire_fields (s : State) (k : Nat) (l : List Nat) : ∃ x, fenceAcquire s k l = { s with sight := x } := by
  unfold fenceAcquire
  induction l generalizing s with
  | nil => exact ⟨s.sight, rfl⟩
  | cons q l ih =>
    rw [List.foldl_cons]
    split
    · rename_i r _
      obtain ⟨x, hx⟩ := seeOrder_fields s k (Tab.set 0 r.2 q r.1)
      rw [hx]
      exact ih _
    · exact ih s

/-- Where a core's table holds no spill of a pack, there is nothing to drain. -/
theorem drainPack_none {core k n : Nat} (h : ∀ x ∈ s.spillsOf core, x.pack ≠ k) : drainPack s core k n = .ok s := by
  cases n with
  | zero => rfl
  | succ n =>
    have hnone : ((s.spillsOf core).any fun x => x.pack == k) = false := List.any_eq_false.mpr fun x hx => by simpa using h x hx
    unfold drainPack
    rw [hnone]
    rfl

/-- The release that a fence makes, if it makes one. -/
def fenceFirst (e : Enc) (s : State) : State :=
  if (bits (encO18 e) 0 3 ≠ 0 && bits (encO18 e) 5 6 == 0 && bitAt (encO18 e) 4) = true then
    fenceRelease (if 1 < bits (encO18 e) 0 3 then carryAll s s.cur else s) s.cur
  else s

/-- Then the acquire. -/
def fenceNext (e : Enc) (s t : State) : State :=
  if (bits (encO18 e) 0 3 ≠ 0 && bits (encO18 e) 5 6 == 0 && bitAt (encO18 e) 3) = true then
    fenceAcquire t s.cur (s.curCrew.packs.filter (· != s.cur))
  else t

theorem carryAll_fields (s : State) (k : Nat) : ∃ x, carryAll s k = { s with sight := { s.sight with carries := x } } := by
  unfold carryAll
  simp only
  split
  · exact ⟨s.sight.carries, rfl⟩
  · exact ⟨_, rfl⟩

theorem carryAll_issued_sight (s : State) : (carryAll (issued s) s.cur).sight = (carryAll s s.cur).sight := by
  unfold carryAll
  rw [show (issued s).seenBy s.cur = s.seenBy s.cur from rfl]
  cases hv : (s.seenBy s.cur).isEmpty <;> simp only [hv, if_true, Bool.false_eq_true, if_false] <;> rfl

/-- A release beyond the crew is one more order of the pack's, besides what it carries. -/
theorem fenceRelease_carryAll (s : State) (k : Nat) : (fenceRelease (carryAll s k) k).sight =
    { (carryAll s k).sight with rels := Tab.set [] s.sight.rels k ((s.fresh, s.seenBy k) :: Tab.get [] s.sight.rels k) } := by
  obtain ⟨x, hx⟩ := carryAll_fields s k
  rw [hx]
  rfl

theorem fenceFirst_fields (e : Enc) (s : State) : ∃ x, fenceFirst e s = { s with sight := x } := by
  unfold fenceFirst
  split
  · obtain ⟨x, hx⟩ := carryAll_fields s s.cur
    split
    · rw [hx]
      exact ⟨_, rfl⟩
    · exact ⟨_, rfl⟩
  · exact ⟨s.sight, rfl⟩

theorem fenceNext_fields (e : Enc) (s t : State) : ∃ x, fenceNext e s t = { t with sight := x } := by
  unfold fenceNext
  split
  · exact fenceAcquire_fields _ _ _
  · exact ⟨t.sight, rfl⟩

theorem fenceBody_eq {c : Ctx} (h : ∀ x ∈ s.spillsOf s.curCrew.core, x.pack ≠ s.cur) :
    fenceBody c s = .done (fenceNext c.e s (fenceFirst c.e s)) 0 := by
  unfold fenceBody fenceNext fenceFirst
  simp only [drainPack_none h]
  cases (bits (encO18 c.e) 0 3 ≠ 0 && bits (encO18 c.e) 5 6 == 0 : Bool) <;> cases bitAt (encO18 c.e) 4 <;> rfl

theorem fence_completes (h : Issuable (.fence e) s) (hn : ∀ x ∈ s.spillsOf (s.crew (s.pack s.cur).crew).core, x.pack ≠ s.cur) :
    exec (.fence e) s = .next (completed s (fenceNext e (issued s) (fenceFirst e (issued s))) e 0) := by
  have hcrew : (issued s).curCrew = s.crew (s.pack s.cur).crew := by
    unfold State.curCrew
    rw [State.curCrewId_pack (issued s) h.pack, issued_cur, issued_pack, issuing_crew]
    rfl
  have hb := fenceBody_eq (c := issueCtx s e) (s := issued s) (by rw [hcrew]; exact hn)
  obtain ⟨x, hx⟩ := fenceFirst_fields e (issued s)
  obtain ⟨y, hy⟩ := fenceNext_fields e (issued s) (fenceFirst e (issued s))
  have hpack : (fenceNext e (issued s) (fenceFirst e (issued s))).pack s.cur = issuing s := by
    rw [hy, hx]
    exact issued_pack s
  refine issue_done_keeps h hb ?_ ?_ ?_
  · rw [hpack]; exact issuing_launch s
  · rw [hpack]; exact issuing_lin s
  · rw [hy, hx]; rfl

/-- A fence without a class or scope, or of engine classes, changes no order; a release alone is one more order of the pack's, which beyond
the crew its next commit carries. -/
theorem fence_fenced (e : Enc) (s : State) : Claims.fenced e s (fenceNext e (issued s) (fenceFirst e (issued s))) := by
  obtain ⟨x, hx⟩ := fenceFirst_fields e (issued s)
  obtain ⟨y, hy⟩ := fenceNext_fields e (issued s) (fenceFirst e (issued s))
  refine ⟨by rw [hy, hx]; rfl, fun hno => ?_, fun h4 h3 hscope hclass => ?_⟩
  · have hoff : (bits (encO18 e) 0 3 ≠ 0 && bits (encO18 e) 5 6 == 0 : Bool) = false := by
      rcases hno with h | h <;> simp [h]
    unfold fenceNext fenceFirst
    simp only [hoff, Bool.false_and, Bool.false_eq_true, if_false]
    rfl
  · have hon : (bits (encO18 e) 0 3 ≠ 0 && bits (encO18 e) 5 6 == 0 : Bool) = true := by simp [hscope, hclass]
    unfold fenceNext fenceFirst
    simp only [hon, h3, h4, Bool.and_true, Bool.and_false, Bool.false_eq_true, if_false, if_true]
    split
    · rw [issued_cur, fenceRelease_carryAll, carryAll_issued_sight]
      rfl
    · rfl

/-! ### Loops (R108, R111) -/

/-- Threads that move under another loop stack. -/
theorem moved_withLoops {l : List Nat} (hn : l.Nodup) (f : Thread → Thread) (loops : List LoopEntry) (p : Pack) :
    Claims.Moved l (fun _ => f) loops p (modThreads { p with loops := loops } l f) where
  moved := (moved_modThreads hn f { p with loops := loops }).moved
  others := (moved_modThreads hn f { p with loops := loops }).others
  stack := (moved_modThreads hn f { p with loops := loops }).stack
  rest := (moved_modThreads hn f { p with loops := loops }).rest

/-- The instruction after a loop's, and the address that ends the loop (02 R53). -/
def loopStop (s : State) (e : Enc) : W64 := issuePc s + BitVec.ofNat 64 (4 * (e.b.toNat * 64 + e.d.toNat))

section
variable {n : W64}

theorem loop_pushes (h : Issuable i s) (hexec : exec i s = issue i e body s) (hbody : body (issueCtx s e) (issued s) = loopBody n (issueCtx s e) (issued s))
    (hn : n ≠ 0) (hroom : (issuing s).loops.length < 4) :
    ∃ q, exec i s = .next (completedPack s q e (issuing s).sel) ∧
      Claims.Moved (lanesOf (issuing s).sel (issuing s).width) (fun _ th => { th with pc := issuePc s + 4 })
        (⟨issuePc s + 4, loopStop s e, n⟩ :: (issuing s).loops) (issuing s) q := by
  have hmoved := moved_withLoops (lanesOf_nodup (issuing s).sel (issuing s).width) (fun th => { th with pc := issuePc s + 4 })
    (⟨issuePc s + 4, loopStop s e, n⟩ :: (issuing s).loops) (issuing s)
  refine ⟨_, hexec.trans (issue_moved h (hbody.trans ?_) hmoved), hmoved⟩
  unfold loopBody
  simp only [issued_curPack s h.pack, Nat.not_le.mpr hroom, hn, if_false]
  rfl

theorem loop_passes (h : Issuable i s) (hexec : exec i s = issue i e body s) (hbody : body (issueCtx s e) (issued s) = loopBody n (issueCtx s e) (issued s))
    {size : Nat} (hn : n = 0) (hroom : (issuing s).loops.length < 4) (hend : endSize (issued s) (loopStop s e) = .ok size) :
    ∃ q, exec i s = .next (completedPack s q e (issuing s).sel) ∧
      Claims.Moved (lanesOf (issuing s).sel (issuing s).width) (fun _ th => { th with pc := loopStop s e + BitVec.ofNat 64 size })
        (issuing s).loops (issuing s) q := by
  have hmoved := moved_modThreads (lanesOf_nodup (issuing s).sel (issuing s).width)
    (fun th => { th with pc := loopStop s e + BitVec.ofNat 64 size }) (issuing s)
  refine ⟨_, hexec.trans (issue_moved h (hbody.trans ?_) hmoved), hmoved⟩
  have hstop : (issueCtx s e).pc + BitVec.ofNat 64 (4 * lpOff e) = loopStop s e := rfl
  unfold loopBody
  simp only [issued_curPack s h.pack, Nat.not_le.mpr hroom, hn, issueCtx_e, hstop, hend, if_false, if_true]

theorem loop_full (h : Issuable i s) (hexec : exec i s = issue i e body s) (hbody : body (issueCtx s e) (issued s) = loopBody n (issueCtx s e) (issued s))
    (hfull : 4 ≤ (issuing s).loops.length) (hm : issueMask s e ≠ 0) : exec i s = .next (trapped s e ⟨clsIllop, 12, 1, issueMask s e⟩) := by
  refine hexec.trans (issue_trap h (hbody.trans ?_) hm)
  unfold loopBody
  simp only [issued_curPack s h.pack, hfull, if_true]
  rfl

end

theorem lbrk_pops (h : Issuable (.lbrk e) s) :
    exec (.lbrk e) s = .next (completedPack s { issuing s with loops := (issuing s).loops.tail } e 0) :=
  issue_onPack_done (q := { issuing s with loops := (issuing s).loops.tail }) h rfl (issuing_launch s) (issuing_lin s)

/-! ### trap and tret (R119; 15 R450) -/

/-- A body that only traps: under an all-zero mask a skip (R112). -/
theorem issue_traps (h : Issuable i s) {t : Trap} (hb : body (issueCtx s e) (issued s) = .trap t) :
    issue i e body s = .next (if issueMask s e = 0 then completed s (issued s) e 0 else trapped s e t) := by
  split
  · rename_i hm
    exact issue_skip h hb hm
  · rename_i hm
    exact issue_trap h hb hm

/-- Where the issuing subset goes on after a return, and the loop stack. -/
def returnTest (e : Enc) (p : Pack) : Option W64 × List LoopEntry :=
  if e.b.toNat = 1 then loopTest p.tepc p.save.loops else (none, p.save.loops)

theorem leaveTrap_eq (e : Enc) (p : Pack) (tgt : W64) : leaveTrap p tgt (e.b.toNat == 1) =
    { modThreads p (lanesOf p.sel p.width) fun th => { th with pc := (returnTest e p).1.getD tgt } with
      loops := (returnTest e p).2, save := { p.save with inHandler := false } } := by
  have htest : (if (e.b.toNat == 1) = true then loopTest p.tepc p.save.loops else (none, p.save.loops)) = returnTest e p := by
    unfold returnTest
    simp only [beq_iff_eq]
  unfold leaveTrap
  rw [htest]

theorem leaveTrap_moved (e : Enc) (p : Pack) (tgt : W64) :
    Claims.Moved (lanesOf p.sel p.width) (fun _ th => { th with pc := (returnTest e p).1.getD tgt }) (returnTest e p).2
      { p with save := { p.save with inHandler := false } } (leaveTrap p tgt (e.b.toNat == 1)) := by
  obtain ⟨ths, h⟩ := modThreads_fields p (lanesOf p.sel p.width) fun th => { th with pc := (returnTest e p).1.getD tgt }
  have hmoved := moved_modThreads (lanesOf_nodup p.sel p.width) (fun th => { th with pc := (returnTest e p).1.getD tgt }) p
  rw [leaveTrap_eq]
  exact ⟨hmoved.moved, hmoved.others, rfl, by rw [h]⟩

theorem tret_returns (h : Issuable (.tret e) s) {tgt : W64} (ht : tretTarget (issueCtx s e) (issuing s) = .ok tgt) :
    ∃ q, exec (.tret e) s = .next (completedPack s q e (issuing s).sel) ∧
      Claims.Moved (lanesOf (issuing s).sel (issuing s).width) (fun _ th => { th with pc := (returnTest e (issuing s)).1.getD tgt })
        (returnTest e (issuing s)).2 { issuing s with save := { (issuing s).save with inHandler := false } } q := by
  have hmoved := leaveTrap_moved e (issuing s) tgt
  have hb : tretBody (issueCtx s e) (issued s) = .done (s.setPack s.cur (leaveTrap (issuing s) tgt (e.b.toNat == 1))) (issuing s).sel := by
    unfold tretBody
    simp only [issued_curPack s h.pack, ht, issued_setCur s h.pack, issueCtx_e]
  refine ⟨_, issue_done_keeps h hb ?_ ?_ rfl, hmoved⟩
  · rw [State.setPack_pack_same]; exact (moved_launch hmoved).trans (issuing_launch s)
  · rw [State.setPack_pack_same]; exact (moved_lin hmoved).trans (issuing_lin s)

theorem tret_traps (h : Issuable (.tret e) s) {t : Trap} (ht : tretTarget (issueCtx s e) (issuing s) = .error t) (hm : issueMask s e ≠ 0) :
    exec (.tret e) s = .next (trapped s e t) := by
  refine issue_trap h ?_ hm
  unfold tretBody
  simp only [issued_curPack s h.pack, ht]

/-- Where tret goes in a handler. -/
theorem tretTarget_ok {c : Ctx} {p : Pack} (hk : c.e.b.toNat ≤ 2) (hin : p.save.inHandler = true)
    (hal : c.e.b.toNat = 2 → (rdS p (encA c.e)).toNat % 4 = 0) :
    tretTarget c p = .ok (if c.e.b.toNat = 0 then p.tepc else if c.e.b.toNat = 1 then p.save.next else rdS p (encA c.e)) := by
  unfold tretTarget
  simp only [Nat.not_lt.mpr hk, hin, if_false, Bool.not_true, Bool.false_eq_true]
  by_cases h0 : c.e.b.toNat = 0
  · simp only [h0, if_true]
  · by_cases h1 : c.e.b.toNat = 1
    · simp only [h1, if_true, one_ne_zero, if_false]
    · simp only [h0, h1, if_false, hal (by omega), ne_eq, not_true_eq_false]

end

end

end Sys2Proof.Machine

namespace Sys2Proof
open Machine

theorem branches_claim : Claims.Branches := by
  intro i e link tgt s hr h p l hfull
  refine ⟨fun hal => ?_, fun t r hbad => branch_misaligned hr h hfull hbad⟩
  obtain ⟨q, hexec, hmoved⟩ := branch_moves hr h hfull hal
  rw [loopsAfter_eq] at hmoved
  simp only [goTo_linkOf] at hmoved
  exact ⟨q, hexec, hmoved⟩

theorem threadControl_claim : Claims.ThreadControl :=
  ⟨fun _ _ h => ⟨ret_moves h, ret_empty h⟩, fun _ _ h => conv_moves h, fun _ _ h hp => exit_moves h hp, fun _ _ h => nop_completes h,
    fun e s h hn => ⟨_, fence_completes h hn, fence_fenced e s⟩, fun _ _ h => yield_completes h,
    fun e s i hi h hfull => by rcases hi with rfl | rfl <;> exact call_full rfl h hfull⟩

theorem loops_claim : Claims.Loops := by
  refine ⟨?_, fun e s h => lbrk_pops h⟩
  intro e imm s i p n stop h
  have hrun : ∃ body, exec i s = issue i e body s ∧ body (issueCtx s e) (issued s) = loopBody n (issueCtx s e) (issued s) := by
    cases imm
    · refine ⟨_, rfl, ?_⟩
      simp only [issued_curPack s h.pack]
      rfl
    · exact ⟨_, rfl, rfl⟩
  obtain ⟨body, hexec, hbody⟩ := hrun
  exact ⟨loop_pushes h hexec hbody, loop_full h hexec hbody, fun size hn hroom hend => loop_passes h hexec hbody hn hroom hend⟩

/-- Settles O9: transfers, calls and returns move the threads of their mask, and fence changes only the orders that a crew's packs see. -/
theorem controlFlow : Obligations.ControlFlow := ⟨branches_claim, threadControl_claim, loops_claim⟩

theorem softwareTraps_claim : Claims.SoftwareTraps := by
  refine ⟨fun e s h => issue_traps h rfl, fun e s h => issue_traps h ?_⟩
  simp only [issued_curPack s h.pack]
  rfl

theorem trapReturn_claim : Claims.TrapReturn := by
  intro e s h p k target test
  refine ⟨fun hk hin hal => ?_, fun hk hin hm => tret_traps h ?_ hm, fun hk hin hal hm => tret_traps h ?_ hm⟩
  · refine tret_returns h (tretTarget_ok (c := issueCtx s e) hk hin fun h2 => ?_)
    have hal2 := hal h2
    simp only [target, show k = 2 from h2] at hal2
    exact hal2
  · have hk2 : ¬2 < (issueCtx s e).e.b.toNat := Nat.not_lt.mpr hk
    unfold tretTarget
    simp only [hk2, show (issuing s).save.inHandler = false from hin, if_false, Bool.not_false, if_true]
    rfl
  · simp only [target, hk] at hal
    unfold tretTarget
    simp only [issueCtx_e, show e.b.toNat = 2 from hk, show (issuing s).save.inHandler = true from hin]
    simp only [target, hk]
    exact if_pos hal

/-- Settles O11: trap takes SWTRAP unless its mask is zero, and tret leaves the handler for the address that its form names. -/
theorem softwareTraps : Obligations.SoftwareTraps := ⟨softwareTraps_claim, trapReturn_claim⟩

end Sys2Proof
end

section
/-! PROOFS. What the completion of an instruction leaves (04 R101, R109; 13 R403; 15 R450; 16 R476). -/

namespace Sys2Proof.Machine

/-! ### The pack's own fields -/

section
variable {p : Pack}

theorem continueThreads_fields (p : Pack) (l : List Nat) (pc : W64) (size : Nat) :
    ∃ ths ls, continueThreads p l pc size = { p with threads := ths, loops := ls } := by
  unfold continueThreads
  split
  · exact ⟨p.threads, p.loops, rfl⟩
  · obtain ⟨ths, h⟩ := modThreads_fields { p with loops := (loopTest pc p.loops).2 } l fun th =>
      { th with pc := (loopTest pc p.loops).1.getD (pc + BitVec.ofNat 64 size) }
    exact ⟨ths, _, h⟩

theorem stepAges_fields (p : Pack) (run : List Nat) (sel : BitVec 64) : ∃ ths, stepAges p run sel = { p with threads := ths } :=
  modList_fields run (fun t th => { th with age := if sel.getLsbD t then 0 else th.age + 1 }) p

theorem releaseConv_fields (p : Pack) : ∃ ths ls, releaseConv p = { p with threads := ths, loops := ls } := by
  unfold releaseConv
  simp only
  split
  · exact ⟨p.threads, p.loops, rfl⟩
  · split
    · exact ⟨p.threads, p.loops, rfl⟩
    · rename_i x _ _
      generalize (((List.range p.width).filter _).filter _).filter _ = go
      obtain ⟨ths, h⟩ := modThreads_fields p go fun th => { th with held := false, holdSize := 0 }
      obtain ⟨ths', ls, h'⟩ := continueThreads_fields (modThreads p go fun th => { th with held := false, holdSize := 0 }) go
        (BitVec.ofNat 64 x) ((go.head?.map fun t => (packThread p t).holdSize).getD 4)
      exact ⟨ths', ls, by rw [h', h]⟩

theorem leaveHandler_fields (p : Pack) : ∃ ls sv, leaveHandler p = { p with loops := ls, save := sv } := by
  unfold leaveHandler
  split
  · exact ⟨_, _, rfl⟩
  · exact ⟨p.loops, p.save, rfl⟩

/-- The pack after its threads have gone on, with the issue counted, before the next selection. -/
def finished (p0 p : Pack) (pc : W64) (size : Nat) (left : BitVec 64) : Pack :=
  let cont := (lanesOf (p0.sel &&& ~~~left) p.width).filter fun t => !(packThread p t).exited
  let q := stepAges (continueThreads p cont pc size) (runThreads p0) p0.sel
  { q with issues := q.issues + 1, starved := false }

theorem finishPack_eq (p0 p : Pack) (pc : W64) (size : Nat) (left : BitVec 64) :
    finishPack p0 p pc size left = reselect (leaveHandler (finished p0 p pc size left)) := rfl

theorem finished_fields (p0 p : Pack) (pc : W64) (size : Nat) (left : BitVec 64) : ∃ ths ls,
    finished p0 p pc size left = { p with threads := ths, loops := ls, issues := p.issues + 1, starved := false } := by
  obtain ⟨ths, ls, h⟩ := continueThreads_fields p ((lanesOf (p0.sel &&& ~~~left) p.width).filter fun t => !(packThread p t).exited) pc size
  obtain ⟨ths', h'⟩ := stepAges_fields (continueThreads p
    ((lanesOf (p0.sel &&& ~~~left) p.width).filter fun t => !(packThread p t).exited) pc size) (runThreads p0) p0.sel
  refine ⟨ths', ls, ?_⟩
  simp only [finished]
  rw [h'] at *
  simp only [h]

theorem finishPack_fields (p0 p : Pack) (pc : W64) (size : Nat) (left : BitVec 64) : ∃ ths ls sv sel,
    finishPack p0 p pc size left =
      { p with threads := ths, loops := ls, save := sv, sel := sel, issues := p.issues + 1, starved := false } := by
  obtain ⟨ths, ls, h⟩ := finished_fields p0 p pc size left
  obtain ⟨ls', sv, h'⟩ := leaveHandler_fields (finished p0 p pc size left)
  obtain ⟨ths'', ls'', h''⟩ := releaseConv_fields (leaveHandler (finished p0 p pc size left))
  refine ⟨ths'', ls'', sv, selectSubset (releaseConv (leaveHandler (finished p0 p pc size left))), ?_⟩
  rw [finishPack_eq]
  generalize finished p0 p pc size left = f at *
  subst h
  generalize leaveHandler _ = g at *
  subst h'
  simp only [reselect]
  rw [h'']

/-! ### What a thread keeps -/

/-- A thread but for its place in the pack's turn. -/
def Thread.sansTurn (t : Thread) : Thread := { t with pc := 0, held := false, holdSize := 0, age := 0 }

/-- Each thread is as it was but for its place in the turn. -/
def SameTurn (p q : Pack) : Prop := ∀ u, (packThread q u).sansTurn = (packThread p u).sansTurn

namespace SameTurn
variable {p q r : Pack}

theorem refl (p : Pack) : SameTurn p p := fun _ => rfl

theorem fields (h : SameTurn p q) (ht : r.threads = q.threads) : SameTurn p r := fun u => by
  unfold packThread
  rw [ht]
  exact h u

theorem modThread (h : SameTurn p q) (t : Nat) {f : Thread → Thread} (hf : ∀ th, (f th).sansTurn = th.sansTurn) :
    SameTurn p (packModThread q t f) := fun u => by
  rw [packThread_packModThread]
  split
  · rename_i hu
    rw [hf, hu.1]
    exact h t
  · exact h u

theorem modList (h : SameTurn p q) (l : List Nat) {g : Nat → Thread → Thread} (hg : ∀ t th, (g t th).sansTurn = th.sansTurn) :
    SameTurn p (l.foldl (fun q t => packModThread q t (g t)) q) := by
  induction l generalizing q with
  | nil => exact h
  | cons t l ih => exact ih (h.modThread t (hg t))

theorem modThreads (h : SameTurn p q) (l : List Nat) {f : Thread → Thread} (hf : ∀ th, (f th).sansTurn = th.sansTurn) :
    SameTurn p (Machine.modThreads q l f) := h.modList l fun _ => hf

theorem continueThreads (h : SameTurn p q) (l : List Nat) (pc : W64) (size : Nat) :
    SameTurn p (Machine.continueThreads q l pc size) := by
  unfold Machine.continueThreads
  split
  · exact h
  · refine SameTurn.modThreads ?_ l ?_
    · exact h.fields rfl
    · intro th; rfl

theorem stepAges (h : SameTurn p q) (run : List Nat) (sel : BitVec 64) : SameTurn p (Machine.stepAges q run sel) :=
  h.modList run fun _ _ => rfl

theorem leaveHandler (h : SameTurn p q) : SameTurn p (Machine.leaveHandler q) := by
  obtain ⟨ls, sv, hq⟩ := leaveHandler_fields q
  exact h.fields (by rw [hq])

theorem releaseConv (h : SameTurn p q) : SameTurn p (Machine.releaseConv q) := by
  unfold Machine.releaseConv
  simp only
  split
  · exact h
  · split
    · exact h
    · exact (h.modThreads _ (by intro; rfl)).continueThreads _ _ _

theorem finishPack (h : SameTurn p q) (p0 : Pack) (pc : W64) (size : Nat) (left : BitVec 64) :
    SameTurn p (Machine.finishPack p0 q pc size left) := by
  rw [finishPack_eq]
  have hfin : SameTurn p (finished p0 q pc size left) := ((h.continueThreads _ pc size).stepAges (runThreads p0) p0.sel).fields rfl
  exact hfin.leaveHandler.releaseConv.fields rfl

end SameTurn

/-! ### Where the threads go on (R109) -/

theorem modList_keeps {α : Type} (fld : Thread → α) {g : Nat → Thread → Thread} (hg : ∀ t th, fld (g t th) = fld th) (l : List Nat)
    (p : Pack) (u : Nat) : fld (packThread (l.foldl (fun q t => packModThread q t (g t)) p) u) = fld (packThread p u) := by
  induction l generalizing p with
  | nil => rfl
  | cons t l ih =>
    rw [List.foldl_cons, ih, packThread_packModThread]
    split
    · rename_i hu; rw [hg, hu.1]
    · rfl

theorem continueThreads_loops (p : Pack) (l : List Nat) (pc : W64) (size : Nat) :
    (continueThreads p l pc size).loops = if l = [] then p.loops else (loopTest pc p.loops).2 := by
  unfold continueThreads
  cases l with
  | nil => rfl
  | cons t l =>
    obtain ⟨ths, h⟩ := modThreads_fields { p with loops := (loopTest pc p.loops).2 } (t :: l) fun th =>
      { th with pc := (loopTest pc p.loops).1.getD (pc + BitVec.ofNat 64 size) }
    exact (congrArg Pack.loops h :)

theorem continueThreads_pc {l : List Nat} (hn : l.Nodup) {u : Nat} (hu : u ∈ l) (hlt : u < p.threads.length) (pc : W64) (size : Nat) :
    (packThread (continueThreads p l pc size) u).pc = (loopTest pc p.loops).1.getD (pc + BitVec.ofNat 64 size) := by
  cases l with
  | nil => cases hu
  | cons t l =>
    have hthread := packThread_modList hn (fun _ th => { th with pc := (loopTest pc p.loops).1.getD (pc + BitVec.ofNat 64 size) })
      { p with loops := (loopTest pc p.loops).2 } hlt
    rw [if_pos hu] at hthread
    exact (congrArg Thread.pc hthread :)

theorem continueThreads_held (p : Pack) (l : List Nat) (pc : W64) (size u : Nat) :
    (packThread (continueThreads p l pc size) u).held = (packThread p u).held := by
  unfold continueThreads
  split
  · rfl
  · exact modList_keeps Thread.held (g := fun _ th => { th with pc := (loopTest pc p.loops).1.getD (pc + BitVec.ofNat 64 size) })
      (fun _ _ => rfl) l { p with loops := (loopTest pc p.loops).2 } u

theorem finished_held (p0 p : Pack) (pc : W64) (size : Nat) (left : BitVec 64) (u : Nat) :
    (packThread (finished p0 p pc size left) u).held = (packThread p u).held :=
  (modList_keeps Thread.held (by intro _ _; rfl) _ _ u).trans (continueThreads_held _ _ _ _ _)

theorem finished_pc {p0 : Pack} {pc : W64} {size : Nat} {left : BitVec 64} {u : Nat}
    (hu : u ∈ (lanesOf (p0.sel &&& ~~~left) p.width).filter fun u => !(packThread p u).exited) (hlt : u < p.threads.length) :
    (packThread (finished p0 p pc size left) u).pc = (loopTest pc p.loops).1.getD (pc + BitVec.ofNat 64 size) :=
  (modList_keeps Thread.pc (by intro _ _; rfl) _ _ u).trans (continueThreads_pc ((lanesOf_nodup _ _).filter _) hu hlt _ _)

theorem finished_loops (p0 p : Pack) (pc : W64) (size : Nat) (left : BitVec 64) :
    (finished p0 p pc size left).loops =
      if ((lanesOf (p0.sel &&& ~~~left) p.width).filter fun u => !(packThread p u).exited) = [] then p.loops
      else (loopTest pc p.loops).2 := by
  obtain ⟨ths, h⟩ := stepAges_fields (continueThreads p
    ((lanesOf (p0.sel &&& ~~~left) p.width).filter fun t => !(packThread p t).exited) pc size) (runThreads p0) p0.sel
  exact (congrArg Pack.loops h).trans (continueThreads_loops _ _ _ _)

theorem leaveHandler_loops (p : Pack) :
    (leaveHandler p).loops =
      if p.save.inHandler = true ∧ (∀ u < p.width, p.save.mask.getLsbD u = true → (packThread p u).exited = true) then p.save.loops
      else p.loops := by
  have hiff : (p.save.inHandler && (List.range p.width).all fun t => !p.save.mask.getLsbD t || (packThread p t).exited) = true ↔
      p.save.inHandler = true ∧ (∀ u < p.width, p.save.mask.getLsbD u = true → (packThread p u).exited = true) := by
    simp [imp_iff_not_or]
  unfold leaveHandler
  by_cases hend : p.save.inHandler = true ∧ (∀ u < p.width, p.save.mask.getLsbD u = true → (packThread p u).exited = true)
  · rw [if_pos hend, if_pos (hiff.mpr hend)]
  · rw [if_neg hend, if_neg (mt hiff.mp hend)]

theorem leaveHandler_thread (p : Pack) (u : Nat) : packThread (leaveHandler p) u = packThread p u := by
  obtain ⟨ls, sv, h⟩ := leaveHandler_fields p
  rw [h]
  rfl

/-- With no thread held at a conv there is none to release. -/
theorem releaseConv_none (h : ∀ u < p.width, (packThread p u).held = false) : releaseConv p = p := by
  have hnone : ((List.range p.width).filter fun t => !(packThread p t).exited && inScope p t).filter (fun t => (packThread p t).held) = [] :=
    List.filter_eq_nil_iff.mpr fun t ht => by
      rw [h t (List.mem_range.mp (List.mem_of_mem_filter ht))]
      exact Bool.false_ne_true
  unfold releaseConv
  simp only [hnone]
  rfl

/-- With no thread held at a conv, the next selection is from the pack as its threads went on. -/
theorem finishPack_unheld (h : ∀ u < p.width, (packThread p u).held = false) (p0 : Pack) (pc : W64) (size : Nat) (left : BitVec 64) :
    finishPack p0 p pc size left = { leaveHandler (finished p0 p pc size left) with
      sel := selectSubset (leaveHandler (finished p0 p pc size left)) } := by
  have hwidth : (leaveHandler (finished p0 p pc size left)).width = p.width := by
    obtain ⟨ths, ls, hfin⟩ := finished_fields p0 p pc size left
    obtain ⟨ls', sv, hleave⟩ := leaveHandler_fields (finished p0 p pc size left)
    rw [hleave, hfin]
  rw [finishPack_eq, reselect, releaseConv_none]
  intro u hu
  rw [leaveHandler_thread, finished_held]
  exact h u (hwidth ▸ hu)

theorem finishPack_pc (h : ∀ u < p.width, (packThread p u).held = false) {p0 : Pack} {pc : W64} {size : Nat} {left : BitVec 64} {u : Nat}
    (hu : u ∈ (lanesOf (p0.sel &&& ~~~left) p.width).filter fun u => !(packThread p u).exited) (hlt : u < p.threads.length) :
    (packThread (finishPack p0 p pc size left) u).pc = (loopTest pc p.loops).1.getD (pc + BitVec.ofNat 64 size) := by
  rw [finishPack_unheld h]
  exact (congrArg Thread.pc (leaveHandler_thread _ u)).trans (finished_pc hu hlt)

theorem finishPack_loops (h : ∀ u < p.width, (packThread p u).held = false) (p0 : Pack) (pc : W64) (size : Nat) (left : BitVec 64) :
    (finishPack p0 p pc size left).loops =
      if p.save.inHandler = true ∧ (∀ u < p.width, p.save.mask.getLsbD u = true → (packThread p u).exited = true) then p.save.loops
      else if ((lanesOf (p0.sel &&& ~~~left) p.width).filter fun u => !(packThread p u).exited) = [] then p.loops
      else (loopTest pc p.loops).2 := by
  have hexit (u : Nat) : (packThread (finished p0 p pc size left) u).exited = (packThread p u).exited :=
    (modList_keeps Thread.exited (by intro _ _; rfl) _ _ u).trans (((SameThreads.refl p).continueThreads _ _ _).exited u)
  rw [finishPack_unheld h]
  show (leaveHandler (finished p0 p pc size left)).loops = _
  rw [leaveHandler_loops, finished_loops]
  simp only [hexit]
  obtain ⟨ths, ls, hfin⟩ := finished_fields p0 p pc size left
  rw [hfin]

/-! ### The registers -/

theorem finishPack_rdV (p0 p : Pack) (pc : W64) (size : Nat) (left : BitVec 64) (m u : Nat) :
    rdV (finishPack p0 p pc size left) m u = rdV p m u := by
  have hdead : (packThread (finishPack p0 p pc size left) u).vdead = (packThread p u).vdead :=
    (congrArg Thread.vdead (((SameTurn.refl p).finishPack p0 pc size left) u) :)
  unfold rdV
  rw [hdead]
  obtain ⟨ths, ls, sv, sel, h⟩ := finishPack_fields p0 p pc size left
  rw [h]

theorem finishPack_rdP (p0 p : Pack) (pc : W64) (size : Nat) (left : BitVec 64) (m u : Nat) :
    rdP (finishPack p0 p pc size left) m u = rdP p m u := by
  have hpreds : (packThread (finishPack p0 p pc size left) u).preds = (packThread p u).preds :=
    (congrArg Thread.preds (((SameTurn.refl p).finishPack p0 pc size left) u) :)
  unfold rdP
  rw [hpreds]

theorem finishPack_rdS (p0 p : Pack) (pc : W64) (size : Nat) (left : BitVec 64) (m : Nat) :
    rdS (finishPack p0 p pc size left) m = rdS p m := by
  obtain ⟨ths, ls, sv, sel, h⟩ := finishPack_fields p0 p pc size left
  rw [h]
  rfl

theorem finishPack_rdCap (p0 p : Pack) (pc : W64) (size : Nat) (left : BitVec 64) (m u : Nat) :
    rdCap (finishPack p0 p pc size left) m u = rdCap p m u := by
  obtain ⟨ths, ls, sv, sel, h⟩ := finishPack_fields p0 p pc size left
  rw [h]
  rfl

end

/-! ### The crew and its gang -/

theorem countIssue_crew_same (s : State) (crew : Nat) :
    (countIssue s crew).crew crew = { s.crew crew with issues := (s.crew crew).issues + 1 } :=
  State.setCrew_crew_same (settleYields s (s.coreOf crew)) crew { s.crew crew with issues := (s.crew crew).issues + 1 }

theorem countIssue_mem (s : State) (crew : Nat) : (countIssue s crew).mem = s.mem := rfl
theorem countIssue_tags (s : State) (crew : Nat) : (countIssue s crew).tags = s.tags := rfl
theorem countIssue_launches (s : State) (crew : Nat) : (countIssue s crew).launches = s.launches := rfl
theorem countIssue_troops (s : State) (crew : Nat) : (countIssue s crew).troops = s.troops := rfl

theorem countIssue_st (s : State) (crew k : Nat) : ((countIssue s crew).crew k).st = (s.crew k).st := by
  by_cases h : k = crew
  · subst h
    rw [countIssue_crew_same]
  · exact congrArg Crew.st (State.setCrew_crew_other (settleYields s (s.coreOf crew)) crew _ k h)

theorem modGang_spm2 (s : State) (n k : Nat) {f : Gang → Gang} (hf : ∀ g, (f g).spm2 = g.spm2) :
    ((s.modGang n f).gang k).spm2 = (s.gang k).spm2 := by
  unfold State.modGang
  by_cases h : k = n
  · subst h
    rw [State.setGang_gang_same, hf]
  · rw [State.setGang_gang_other _ _ _ _ h]

theorem countIssue_spm2 (s : State) (crew k : Nat) : ((countIssue s crew).gang k).spm2 = (s.gang k).spm2 :=
  modGang_spm2 ((settleYields s (s.coreOf crew)).modCrew crew fun c => { c with issues := c.issues + 1 }) _ k fun _ => rfl

theorem denCheck_holds {s : State} {crew : Nat} (h : (s.crew crew).lost = true ∨ denUsed s (s.crew crew).core ≤ denRoom) :
    denCheck s crew = s := by
  unfold denCheck
  rcases h with h | h
  · rw [if_pos h]
  · simp only [if_neg (Nat.not_lt.mpr h), ite_self]

/-- An instruction completes where its pack goes on and its crew's containment is lost or its den holds. -/
theorem completed_goesOn {s t : State} {e : Enc} {left : BitVec 64}
    (hu : ∃ u < (t.pack s.cur).width, (packThread (t.pack s.cur) u).exited = false)
    (hden : (t.crew (issuing s).crew).lost = true ∨
      denUsed (countIssue (t.setPack s.cur (finishPack (issuing s) (t.pack s.cur) (issuePc s) e.size left)) (issuing s).crew)
        (t.crew (issuing s).crew).core ≤ denRoom) :
    completed s t e left =
      countIssue (t.setPack s.cur (finishPack (issuing s) (t.pack s.cur) (issuePc s) e.size left)) (issuing s).crew := by
  have hgoes : allExited (finishPack (issuing s) (t.pack s.cur) (issuePc s) e.size left) = false :=
    ((SameThreads.refl _).finishPack (issuing s) (issuePc s) e.size left).notEnded hu
  unfold completed finishAt
  simp only [countIssue_pack, State.modPack_pack_same, hgoes, Bool.false_eq_true, if_false]
  refine denCheck_holds ?_
  rwa [countIssue_crew_same]

end Sys2Proof.Machine

namespace Sys2Proof
open Machine

/-- Settles O10: the issue is counted, and the pack's threads go on. -/
theorem completionFrame : Obligations.CompletionFrame := by
  unfold Obligations.CompletionFrame
  intro s t e left p crew w q hu _ hden
  have hw : w = countIssue (t.setPack s.cur (finishPack p q (issuePc s) e.size left)) crew := completed_goesOn hu hden
  have hpack : w.pack s.cur = finishPack p q (issuePc s) e.size left := by
    rw [hw, countIssue_pack, State.setPack_pack_same]
  have hkept : (w.pack s.cur).issues = q.issues + 1 ∧ (w.pack s.cur).starved = false := by
    obtain ⟨ths, ls, sv, sel, h⟩ := finishPack_fields p q (issuePc s) e.size left
    rw [hpack, h]
    exact ⟨rfl, rfl⟩
  refine ⟨hkept.1, hkept.2, ?_, ?_, ?_, ?_, ?_, ?_, ?_, ?_, ?_, ?_, ?_, ?_, ?_⟩
  · rw [hw, countIssue_crew_same, State.setPack_crew]
  · exact fun m u => hpack ▸ finishPack_rdV p q _ _ _ m u
  · exact fun m u => hpack ▸ finishPack_rdP p q _ _ _ m u
  · exact fun m => hpack ▸ finishPack_rdS p q _ _ _ m
  · exact fun m u => hpack ▸ finishPack_rdCap p q _ _ _ m u
  · intro k hk
    rw [hw, countIssue_pack, State.setPack_pack_other _ _ _ _ hk]
  · rw [hw, countIssue_mem, State.setPack_mem]
  · rw [hw, countIssue_tags, State.setPack_tags]
  · intro k
    rw [hw, countIssue_st, State.setPack_crew]
  · intro k
    rw [hw, countIssue_spm2, State.setPack_gang]
  · rw [hw, countIssue_launches, State.setPack_launches]
  · rw [hw, countIssue_troops, State.setPack_troops]
  · intro test cont hheld
    rw [hpack]
    exact ⟨fun u hc hlt => finishPack_pc hheld hc hlt, finishPack_loops hheld p _ _ left⟩

end Sys2Proof
end

section
/-! PROOFS. What writes at their homes leave of the packs' registers, of the register-file lines and of the count of write-backs (05 R139,
R144; 10 R291; 15 R457; 16 R477, R478). -/

namespace Sys2Proof.Machine

/-- A pack but for what writes at their homes, its own write-backs and the end of its instruction may change. -/
def Pack.sansNotes (p : Pack) : Pack :=
  { p with sflag := 0, denImage := [], imaged := [], monitor := none, resv := none, hash := 0, progress := Progress.none }

/-- The write-backs that a core has counted. -/
def backsOf (s : State) (core : Nat) : W64 := Tab.get 0 s.counters (counterKey ctrRfWback core)

/-- Every pack but for its notes, every register-file line, every count of write-backs, the choice of the issuing pack and the copies are
as they were. -/
structure KeepsRows (s t : State) : Prop where
  packs : ∀ k, (t.pack k).sansNotes = (s.pack k).sansNotes
  lines : t.rf = s.rf
  backs : ∀ core, backsOf t core = backsOf s core
  cur : t.cur = s.cur
  copies : t.copies = s.copies

theorem backsOf_count {id : Nat} (hid : id % 65536 ≠ ctrRfWback) (s : State) (unit n core : Nat) :
    backsOf (s.count id unit n) core = backsOf s core := by
  refine Tab.get_set_other _ _ _ ?_
  unfold counterKey ctrRfWback at *
  omega

theorem backsOf_count_same (s : State) (core n : Nat) : backsOf (s.count ctrRfWback core n) core = backsOf s core + BitVec.ofNat 64 n :=
  Tab.get_set_same _ _ _ _

/-- The state in which the den has copied what the image holds of a row. -/
def imageKept (s : State) (x : RfLine) (old : List (Nat × List Byte)) : State :=
  s.modPack x.pack fun p => { p with denImage := (x.row, old) :: p.denImage }

/-- What an image at `base` holds of a row. -/
def imageOld (s : State) (x : RfLine) (base : Nat) : List (Nat × List Byte) :=
  (rowPieces (s.pack x.pack) x.row).map fun y => (y.1, (List.range y.2.length).map fun i => ctxByte s (base + y.1 + i))

theorem denImageRow_eq (s : State) (x : RfLine) (base : Nat) : denImageRow s x base =
    if (s.crew (s.pack x.pack).crew).lost || (s.pack x.pack).denImage.any fun y => y.1 == x.row then s
    else if denRoom < denUsed (imageKept s x (imageOld s x base)) (s.crew (s.pack x.pack).crew).core then
      loseContainment s (s.pack x.pack).crew sflagDenx
    else imageKept s x (imageOld s x base) := rfl

namespace KeepsRows

variable {s t u : State}

theorem refl (s : State) : KeepsRows s s := ⟨fun _ => rfl, rfl, fun _ => rfl, rfl, rfl⟩

theorem trans (h : KeepsRows s t) (h' : KeepsRows t u) : KeepsRows s u :=
  ⟨fun k => (h'.packs k).trans (h.packs k), h'.lines.trans h.lines, fun c => (h'.backs c).trans (h.backs c),
    h'.cur.trans h.cur, h'.copies.trans h.copies⟩

/-- A change outside the tables of packs, lines and counters. -/
theorem tables (h : KeepsRows s t) (hp : u.packs = t.packs) (hr : u.rf = t.rf) (hc : u.counters = t.counters)
    (hcur : u.cur = t.cur) (hcopies : u.copies = t.copies) : KeepsRows s u :=
  h.trans ⟨fun k => by unfold State.pack; rw [hp], hr, fun c => by unfold backsOf; rw [hc], hcur, hcopies⟩

theorem count (h : KeepsRows s t) {id : Nat} (hid : id % 65536 ≠ ctrRfWback) (unit n : Nat) : KeepsRows s (t.count id unit n) :=
  h.trans ⟨fun _ => rfl, rfl, backsOf_count hid t unit n, rfl, rfl⟩

theorem modPack (h : KeepsRows s t) (n : Nat) {f : Pack → Pack} (hf : ∀ p, (f p).sansNotes = p.sansNotes) :
    KeepsRows s (t.modPack n f) := by
  refine h.trans ⟨fun k => ?_, rfl, fun _ => rfl, rfl, rfl⟩
  rw [show (t.modPack n f).pack k = if k = n then f (t.pack n) else t.pack k from Tab.get_set ..]
  split
  · rename_i hk; rw [hf, hk]
  · rfl

/-- The same change of every pack. -/
theorem mapPacks (h : KeepsRows s t) (f : Pack → Pack) (hb : f Pack.blank = Pack.blank) (hf : ∀ p, (f p).sansNotes = p.sansNotes) :
    KeepsRows s { t with packs := t.packs.map fun x => (x.1, f x.2) } := by
  have hp (k : Nat) : Tab.get Pack.blank (t.packs.map fun x => (x.1, f x.2)) k = f (t.pack k) := Tab.get_map_values _ f hb _ _
  exact h.trans ⟨fun k => (congrArg _ (hp k)).trans (hf _), rfl, fun _ => rfl, rfl, rfl⟩

theorem ite {c : Prop} [Decidable c] (h : c → KeepsRows s t) (h' : ¬c → KeepsRows s u) : KeepsRows s (if c then t else u) := by
  split
  · exact h ‹_›
  · exact h' ‹_›

/-! ### Writes at their homes -/

theorem clearResv (h : KeepsRows s t) (g : Nat) : KeepsRows s (Machine.clearResv t g) :=
  h.mapPacks (fun p => if (p.resv.map (·.1)) = some g then { p with resv := none } else p) rfl fun p => by split <;> rfl

theorem fireMonitors (h : KeepsRows s t) (g : Nat) : KeepsRows s (Machine.fireMonitors t g) := by
  refine h.mapPacks (KeepsWaits.fired t g) rfl fun p => ?_
  unfold KeepsWaits.fired
  split
  · split <;> rfl
  · rfl

theorem pushSubs (h : KeepsRows s t) (g : Nat) (num : Sub → Nat) (tch : Nat → Bool) : KeepsRows s (Machine.pushSubs t g num tch) := by
  unfold Machine.pushSubs
  refine foldl_keeps (KeepsRows s) _ (fun u x h => ?_) _ _ h
  split
  · refine ite (fun _ => ite (fun _ => h.tables rfl rfl rfl rfl rfl) fun _ => ?_) fun _ => h
    refine tables (t := if _ then u.count _ _ _ else u) ?_ rfl rfl rfl rfl rfl
    exact ite (fun _ => h.count (by decide) _ _) fun _ => h
  · exact h

theorem noteWrite (h : KeepsRows s t) (g : Nat) (num : Sub → Nat) (tch : Nat → Bool) : KeepsRows s (Machine.noteWrite t g num tch) :=
  ((h.clearResv g).fireMonitors g).pushSubs g num tch

theorem wrBytes (h : KeepsRows s t) (pa : Nat) (l : List Byte) : KeepsRows s (t.wrBytes pa l) := by
  obtain ⟨m, hm⟩ := t.wrBytes_fields pa l
  rw [hm]; exact h.tables rfl rfl rfl rfl rfl

theorem combineParts (h : KeepsRows s t) (g op ty : Nat) (ps : Tab W64) (cs : List (List Nat)) :
    KeepsRows s (Machine.combineParts t g op ty ps cs) := by
  unfold Machine.combineParts
  refine ite (fun _ => h.count (by decide) _ _) fun _ => noteWrite ?_ _ _ _
  exact (foldl_keeps (KeepsRows s) _ (fun u x h => h.wrBytes _ _) ps t h).tables rfl rfl rfl rfl rfl

theorem writeUsed (h : KeepsRows s t) (l : Launch) (g : Nat) : KeepsRows s (Machine.writeUsed t l g) :=
  ite (fun _ => h.wrBytes _ _) fun _ => h

theorem recallGran (h : KeepsRows s t) (g : Nat) : KeepsRows s (Machine.recallGran t g) := by
  have hc (u : State) (cl : Nat) (h : KeepsRows s u) : KeepsRows s (recallCluster g u cl) :=
    foldl_keeps (KeepsRows s) _ (fun u l h => h.combineParts _ _ _ _ _) _ _
      (foldl_keeps (KeepsRows s) _ (fun u r h => h.combineParts _ _ _ _ _) _ _ h)
  cases hg : gathersNone t g with
  | true => rw [recallGran_none t g hg]; exact h
  | false =>
    rw [recallGran_of_gathers t g hg]
    have hdrop : KeepsRows s (Machine.dropGathered (recallClusters t g) g) :=
      (foldl_keeps (KeepsRows s) _ hc (gatherClusters t) t h).tables rfl rfl rfl rfl rfl
    have hused := foldl_keeps (KeepsRows s) _ (fun u (x : Nat × Launch) h => h.writeUsed x.2 g) (recallClusters t g).launches _ hdrop
    exact ite (fun _ => hused) fun _ => hused.count (by decide) _ _

theorem landPieces (h : KeepsRows s t) (ps : List Piece) : KeepsRows s (Machine.landPieces t ps) :=
  foldl_keeps (KeepsRows s) _ (fun _ p h => (h.wrBytes p.pa p.bytes).tables rfl rfl rfl rfl rfl) ps t h

theorem setDetail (h : KeepsRows s t) (b n : Nat) : KeepsRows s (Machine.setDetail t b n) := h.tables rfl rfl rfl rfl rfl

theorem codeBlocks (h : KeepsRows s t) (ps : List Piece) : KeepsRows s (Machine.codeBlocks t ps) := by
  unfold Machine.codeBlocks
  refine foldl_keeps (KeepsRows s) _ (fun u b h => ?_) _ _ h
  exact ite (fun _ => ite (fun _ => (h.setDetail _ _).count (by decide) _ _) fun _ => h.setDetail _ _) fun _ => h.setDetail _ _

theorem performPieces (h : KeepsRows s t) (ps : List Piece) : KeepsRows s (Machine.performPieces t ps) := by
  unfold Machine.performPieces
  simp only
  refine foldl_keeps (KeepsRows s) _ (fun u g h => ?_) _ _ ?_
  · refine noteWrite ?_ _ _ _
    exact h.tables rfl rfl rfl rfl rfl
  refine codeBlocks (landPieces (foldl_keeps (KeepsRows s) _ (fun u g h => h.recallGran g) _ _ ?_) _) _
  exact ite (fun _ => h) fun _ => h.count (by decide) _ _

theorem wrSpad (h : KeepsRows s t) (l : Loc) (bs : List Byte) (tag : Option Bool) : KeepsRows s (t.wrSpad l bs tag) := by
  cases l
  case phys => exact h
  all_goals exact h.tables rfl rfl rfl rfl rfl

theorem countPartial (h : KeepsRows s t) (cl : Nat) (l : List (Loc × Nat)) : KeepsRows s (Machine.countPartial t cl l) :=
  ite (fun _ => h) fun _ => h.count (by decide) _ _

theorem performStores (h : KeepsRows s t) (l : List IStore) : KeepsRows s (Machine.performStores t l) := by
  have hw (u : State) (h : KeepsRows s u) :
      KeepsRows s (l.foldl (fun s x => if x.loc.isPhys then s else s.wrSpad x.loc x.bytes x.tag) u) :=
    foldl_keeps (KeepsRows s) _ (fun u x h => ite (fun _ => h) fun _ => h.wrSpad _ _ _) l u h
  unfold Machine.performStores
  cases l with
  | nil => exact hw t h
  | cons x l =>
    have hx := hw _ (h.countPartial (t.clusterOf (t.pack x.pack).crew) ((x :: l).map fun x => (x.loc, x.bytes.length)))
    exact ite (fun _ => hx) fun _ => hx.performPieces _

theorem ctxWrite (h : KeepsRows s t) (va : Nat) (bs : List Byte) : KeepsRows s (Machine.ctxWrite t va bs) := by
  unfold Machine.ctxWrite
  simp only
  split
  · exact h.performPieces _
  · exact h

/-! ### Gates and records of Track mode -/

theorem modTrack (h : KeepsRows s t) (n : Nat) (f : TrackRun → TrackRun) : KeepsRows s (Machine.modTrack t n f) := h.tables rfl rfl rfl rfl rfl

/-- An event that goes on, or that a gate holds back, keeps the rows; `out` is the state of its answer. -/
def OnAnswer {α : Type} (s : State) (out : α → State) : Except Stop α → Prop
  | .ok a => KeepsRows s (out a)
  | .error (.gate _ t) => KeepsRows s t
  | .error _ => True

variable {α β : Type} {out : α → State} {out' : β → State}

theorem OnAnswer.error {e : Stop} (h : OnAnswer s out (.error e)) : OnAnswer s out' (.error e) := by
  cases e <;> exact h

theorem OnAnswer.bind {r : Except Stop α} {f : α → Except Stop β} (h : OnAnswer s out r)
    (hf : ∀ a, KeepsRows s (out a) → OnAnswer s out' (f a)) : OnAnswer s out' (r.bind f) := by
  cases r with
  | ok a => exact hf a h
  | error e => exact h.error

theorem OnAnswer.map {r : Except Stop α} {f : α → β} (h : OnAnswer s out r)
    (hf : ∀ a, KeepsRows s (out a) → KeepsRows s (out' (f a))) : OnAnswer s out' (r.map f) := by
  cases r with
  | ok a => exact hf a h
  | error e => exact h.error

theorem regionWrite (h : KeepsRows s t) {lid va x n : Nat} (hr : Machine.regionWrite t lid va x n = some u) : KeepsRows s u := by
  unfold Machine.regionWrite at hr
  obtain ⟨pa, -, rfl⟩ := Option.map_eq_some_iff.mp hr
  exact h.performPieces _

theorem recordAdmission (h : KeepsRows s t) (lid lin q : Nat) : OnAnswer s id (Machine.recordAdmission t lid lin q) := by
  unfold Machine.recordAdmission
  simp only
  split
  · trivial
  · split
    · split
      · exact h.regionWrite ‹_›
      · trivial
    · split
      · trivial
      · split
        · rename_i hb
          obtain ⟨u, hu, hv⟩ := Option.bind_eq_some_iff.mp hb
          exact ((h.regionWrite hu).regionWrite hv).modTrack _ _
        · trivial

theorem replayAdmission (h : KeepsRows s t) (lid lin q : Nat) : OnAnswer s id (Machine.replayAdmission t lid lin q) := by
  unfold Machine.replayAdmission
  simp only
  split
  · trivial
  · split
    · trivial
    · split
      · exact h.modTrack _ _
      · split
        · exact h
        · trivial

theorem recordAll (h : KeepsRows s t) (lid lin : Nat) (l : List (Nat × Bool)) : OnAnswer s id (Machine.recordAll t lid lin l) := by
  induction l generalizing t with
  | nil => exact h
  | cons a l ih => rw [KeepsWaits.recordAll_cons]; exact (h.recordAdmission lid lin _).bind fun u hu => ih hu

theorem replayEach (h : KeepsRows s t) (lid lin op : Nat) (l : List (Nat × Bool)) (wait : List Nat) :
    OnAnswer s Prod.fst (Machine.replayEach lid lin op l wait t) := by
  induction l generalizing t wait with
  | nil => exact h
  | cons a l ih =>
    have ha := h.replayAdmission lid lin (homeQuay (a.1 * 64))
    unfold Machine.replayEach
    split <;> rename_i hr <;> rw [hr] at ha
    · exact ih (KeepsRows.modTrack ha _ _) _
    · exact ih ha _
    · exact ha.error

theorem replayAll (h : KeepsRows s t) (lid lin op : Nat) (l : List (Nat × Bool)) : OnAnswer s id (Machine.replayAll t lid lin op l) := by
  have ha := h.replayEach lid lin op (l.filter fun a => !(t.launch lid).track.made.contains (lin, op, a.1, a.2)) []
  unfold Machine.replayAll
  simp only
  split <;> rename_i hr <;> rw [hr] at ha
  · exact ha.error
  · exact ite (fun _ => ha) fun _ => KeepsRows.modTrack ha _ _
  · exact ha

theorem admitAll (h : KeepsRows s t) (lid lin op : Nat) (l : List (Nat × Bool)) : OnAnswer s id (Machine.admitAll t lid lin op l) := by
  unfold Machine.admitAll
  split
  · exact h.replayAll _ _ _ _
  · exact h.recordAll _ _ _

theorem admitRecall (h : KeepsRows s t) (lid lin g : Nat) : OnAnswer s id (Machine.admitRecall t lid lin g) := by
  unfold Machine.admitRecall
  split
  · exact h.replayAdmission _ _ _
  · exact h.recordAdmission _ _ _

theorem admitRecalls (h : KeepsRows s t) (lid : Nat) (l wait : List Nat) : OnAnswer s id (Machine.admitRecalls lid l wait t) := by
  induction l generalizing t wait with
  | nil => cases wait <;> exact h
  | cons g l ih =>
    unfold Machine.admitRecalls
    split
    · exact ih h _
    · rename_i lin _
      have ha := h.admitRecall lid lin g
      split <;> rename_i hr <;> rw [hr] at ha
      · exact ih (KeepsRows.recallGran ha g) _
      · exact ih ha _
      · exact ha

theorem passGates (h : KeepsRows s t) (lid lin op : Nat) (l : List (Nat × Bool)) : OnAnswer s id (Machine.passGates t lid lin op l) := by
  unfold Machine.passGates
  split
  · exact (h.admitRecalls _ _ _).bind fun u hu => KeepsRows.admitAll hu _ _ _ _
  · exact h

theorem gateStores (h : KeepsRows s t) (lid lin : Nat) (l held qs : List Nat) :
    OnAnswer s Prod.fst (Machine.gateStores lid lin l held qs t) := by
  induction l generalizing t held qs with
  | nil => exact h
  | cons g l ih =>
    have ha : OnAnswer s id ((Machine.admitRecalls lid [g] [] t).bind fun s =>
        Machine.replayAdmission s lid lin (homeQuay (g * 64))) :=
      (h.admitRecalls lid [g] []).bind fun _ hu => KeepsRows.replayAdmission hu _ _ _
    unfold Machine.gateStores
    split <;> rename_i hr <;> rw [hr] at ha
    · exact ih ha _ _
    · exact ih ha _ _
    · exact ha.error

/-! ### A crew loses containment (15 R457) -/

theorem performGroup (h : KeepsRows s t) (lid : Nat) (g : List IStore) : OnAnswer s Prod.fst (Machine.performGroup t lid g) := by
  unfold Machine.performGroup
  simp only
  split
  · exact h.performStores g
  · split
    · have ha := h.gateStores lid (t.pack ((g.head?.map (·.pack)).getD 0)).lin (nubNat ((storeAdmissions g).map (·.1))) [] []
      split <;> rename_i hr <;> rw [hr] at ha
      · exact ha.error
      · exact ite (fun _ => ha) fun _ => KeepsRows.performStores ha _
    · exact (h.passGates _ _ _ _).map fun u hu => KeepsRows.performStores hu g

theorem performGated (h : KeepsRows s t) (lid : Nat) (l : List (List IStore)) : OnAnswer s Prod.fst (Machine.performGated lid l t) := by
  induction l generalizing t with
  | nil => exact h
  | cons g l ih =>
    have ha := h.performGroup lid g
    unfold Machine.performGated
    split <;> rename_i hr <;> rw [hr] at ha
    · exact ha
    · exact ih ha
    · exact ha

theorem performDue (h : KeepsRows s t) (crew : Nat) (due : List IStore) : OnAnswer s id (Machine.performDue t crew due) := by
  have ha := h.performGated (t.crew crew).launch (splitIns due)
  unfold Machine.performDue
  split <;> rename_i hr <;> rw [hr] at ha
  · exact ha.error
  · simp only
    split <;> exact ha.tables rfl rfl rfl rfl rfl

theorem setSflag (h : KeepsRows s t) (crew : Nat) (m : W32) : KeepsRows s (Machine.setSflag t crew m) := by
  unfold Machine.setSflag
  refine foldl_keeps (KeepsRows s) _ (fun u p h => ?_) _ _ h
  exact h.modPack p fun _ => rfl

theorem loseContainment (h : KeepsRows s t) (crew : Nat) (m : W32) : KeepsRows s (Machine.loseContainment t crew m) := by
  have ha := h.performDue crew (t.crew crew).isb
  have hlost (u : State) (hu : KeepsRows s u) :
      KeepsRows s ((Machine.setSflag (u.modCrew crew fun c => { c with lost := true }) crew (0x40 ||| m)).count ctrCkLost
        (t.crew crew).core 1) := by
    have hc : KeepsRows s (u.modCrew crew fun c => { c with lost := true }) := hu.tables rfl rfl rfl rfl rfl
    exact (hc.setSflag crew (0x40 ||| m)).count (by decide) _ _
  unfold Machine.loseContainment
  refine hlost _ ?_
  split <;> rename_i hr <;> rw [hr] at ha
  · exact ha
  · exact ha
  · exact h

/-! ### Write-backs (05 R139, R144) -/

theorem imageKept (h : KeepsRows s t) (x : RfLine) (old : List (Nat × List Byte)) : KeepsRows s (Machine.imageKept t x old) :=
  h.modPack x.pack fun _ => rfl

theorem denImageRow (h : KeepsRows s t) (x : RfLine) (base : Nat) : KeepsRows s (Machine.denImageRow t x base) := by
  rw [denImageRow_eq]
  exact ite (fun _ => h) fun _ => ite (fun _ => h.loseContainment _ _) fun _ => h.imageKept _ _

theorem denCheck (h : KeepsRows s t) (crew : Nat) : KeepsRows s (Machine.denCheck t crew) := by
  unfold Machine.denCheck
  exact ite (fun _ => h) fun _ => ite (fun _ => h.loseContainment _ _) fun _ => h

theorem setImaged (h : KeepsRows s t) (pid row : Nat) (held : Bool) : KeepsRows s (Machine.setImaged t pid row held) :=
  h.modPack pid fun _ => rfl

end KeepsRows

end Sys2Proof.Machine
end

section
/-! PROOFS. Flags, modes, predicates and the register-context hints (04 R124; 05 R162, R163; 06 R194, R195; 16 R491). -/

namespace Sys2Proof.Machine

/-! ### fflg -/

section
variable {e : Enc} {s : State}

/-- A legal fflg is .rd, .clr or .set. -/
theorem fflg_mod {w : Nat} (h : illopSub w (.fflg e) = none) : encMod e % 4 = encMod e := by
  obtain ⟨_, _, _, hmod⟩ := legal_fields (o := 0x5D) (r := _) h rfl rfl (.inl rfl)
  have hle : encMod e ≤ 2 := of_decide_eq_true hmod
  omega

/-- Flags and a register of one thread are written apart. -/
theorem packModThread_wrV (q : Pack) (n t x u : Nat) (fl : Fl) :
    packModThread (wrV q n t x) u (fun th => { th with fflags := fl }) = wrV (packModThread q u fun th => { th with fflags := fl }) n t x := by
  have hthreads : modAt (fun th : Thread => { th with fflags := fl }) (modAt (fun th : Thread =>
        { th with vdead := th.vdead &&& ~~~(1#256 <<< n) }) q.threads t) u =
      modAt (fun th : Thread => { th with vdead := th.vdead &&& ~~~(1#256 <<< n) })
        (modAt (fun th : Thread => { th with fflags := fl }) q.threads u) t := by
    refine List.ext_getElem? fun k => ?_
    simp only [modAt_getElem?]
    by_cases hu : k = u
    · by_cases ht : k = t
      · simp only [if_pos hu, if_pos ht, Option.map_map]
        rfl
      · simp only [if_pos hu, if_neg ht]
    · simp only [if_neg hu]
  unfold packModThread wrV
  simp only [hthreads]
  rfl

/-- The flags that fflg leaves in a thread (06 R194). -/
def fflgFlags (e : Enc) (p : Pack) (t : Nat) : Fl :=
  fflgNew (encMod e) (packThread p t).fflags (BitVec.ofNat 5 (Claims.opB e 32 p ⟨t, 0, 0⟩))

/-- The flags are read into the registers first, and then changed. -/
theorem fflgBody_eq (c : Ctx) (p : Pack) (hmod : encMod c.e % 4 = encMod c.e) :
    fflgBody c p = .ok ((lanesOf c.m p.width).foldl (fun q t => packModThread q t fun th => { th with fflags := fflgFlags c.e p t })
      (laneRegs c (fun t => [(encD c.e, (packThread p t).fflags.toNat)]) p)) := by
  have hsplit (l : List Nat) (q : Pack) :
      l.foldl (fun q t => packModThread (wrV q (encD c.e) t (packThread p t).fflags.toNat) t
        fun th => { th with fflags := fflgFlags c.e p t }) q =
      l.foldl (fun q t => packModThread q t fun th => { th with fflags := fflgFlags c.e p t })
        (l.foldl (fun q t => wrV q (encD c.e) t (packThread p t).fflags.toNat) q) := by
    induction l generalizing q with
    | nil => rfl
    | cons t l ih =>
      rw [List.foldl_cons, ih, List.foldl_cons, List.foldl_cons]
      congr 1
      exact List.foldl_hom (fun q => packModThread q t fun th => { th with fflags := fflgFlags c.e p t })
        fun q u => (packModThread_wrV q (encD c.e) u _ t _).symm
  unfold fflgBody laneRegs
  simp only [List.foldl_map, hmod]
  exact congrArg Except.ok (hsplit (lanesOf c.m p.width) p)

/-- The threads `l` of a pack with their flags as `g` gives them. -/
def setFlags (g : Nat → Fl) (l : List Nat) (p : Pack) : Pack := l.foldl (fun q t => packModThread q t fun th => { th with fflags := g t }) p

theorem setFlags_fields (g : Nat → Fl) (l : List Nat) (p : Pack) : ∃ ths, setFlags g l p = { p with threads := ths } :=
  modList_fields l (fun t th => { th with fflags := g t }) p

theorem setFlags_rdV (g : Nat → Fl) (l : List Nat) (p : Pack) (m u : Nat) : rdV (setFlags g l p) m u = rdV p m u := by
  have hdead : (packThread (setFlags g l p) u).vdead = (packThread p u).vdead :=
    modList_keeps Thread.vdead (g := fun t th => { th with fflags := g t }) (fun _ _ => rfl) l p u
  obtain ⟨ths, h⟩ := setFlags_fields g l p
  unfold rdV
  rw [hdead, h]

/-- Registers that have been written stay as they are when flags change. -/
theorem vecDone_setFlags {l : List Nat} {f : Nat → List (Nat × Nat)} {p q : Pack} (h : VecDone l f p q) (g : Nat → Fl) (l' : List Nat) :
    VecDone l f p (setFlags g l' q) where
  result t ht x hx := (setFlags_rdV g l' q x.1 t).trans (h.result t ht x hx)
  others m u hu hm := (setFlags_rdV g l' q m u).trans (h.others m u hu hm)
  threads u := (modList_keeps Thread.sansFl (g := fun t th => { th with fflags := g t }) (fun _ _ => rfl) l' q u).trans (h.threads u)
  rest := by
    obtain ⟨ths, hq⟩ := setFlags_fields g l' q
    rw [hq]
    exact h.rest

/-- What fflg leaves. -/
def fflgOut (c : Ctx) (p : Pack) : Pack :=
  setFlags (fflgFlags c.e p) (lanesOf c.m p.width) (laneRegs c (fun t => [(encD c.e, (packThread p t).fflags.toNat)]) p)

theorem fflgOut_done (c : Ctx) (p : Pack) :
    VecDone (lanesOf c.m p.width) (fun t => [(encD c.e, (packThread p t).fflags.toNat)]) p (fflgOut c p) := by
  unfold fflgOut
  rw [laneRegs_noFlags]
  exact vecDone_setFlags (vecOut_done c (fun t => ([(encD c.e, (packThread p t).fflags.toNat)], 0)) p
    fun _ _ => List.nodup_singleton _) _ _

theorem laneRegs_fflags (c : Ctx) (f : Nat → List (Nat × Nat)) (p : Pack) (u : Nat) :
    (packThread (laneRegs c f p) u).fflags = (packThread p u).fflags := by
  rw [laneRegs_eq]
  exact (congrArg Thread.fflags (wrAll_sansDead (regCells (lanesOf c.m p.width) f) p u) :)

theorem fflgOut_fflags (c : Ctx) (p : Pack) {u : Nat} (hu : u < p.threads.length) :
    (packThread (fflgOut c p) u).fflags = if u ∈ lanesOf c.m p.width then fflgFlags c.e p u else (packThread p u).fflags := by
  have hlen : u < (laneRegs c (fun t => [(encD c.e, (packThread p t).fflags.toNat)]) p).threads.length := by
    rwa [laneRegs_eq, wrAll_length]
  have hthread := packThread_modList (lanesOf_nodup c.m p.width) (fun t th => { th with fflags := fflgFlags c.e p t }) _ hlen
  refine (congrArg Thread.fflags hthread).trans ?_
  rw [apply_ite Thread.fflags, laneRegs_fflags]

theorem exec_fflg (h : Issuable (.fflg e) s) :
    exec (.fflg e) s = .next (completedPack s (fflgOut (issueCtx s e) (issuing s)) e 0) := by
  have hrest : (fflgOut (issueCtx s e) (issuing s)).sansVec = (issuing s).sansVec := (fflgOut_done (issueCtx s e) (issuing s)).rest
  have hlaunch : (fflgOut (issueCtx s e) (issuing s)).launch = (issuing s).launch := (congrArg Pack.launch hrest :)
  have hlin : (fflgOut (issueCtx s e) (issuing s)).lin = (issuing s).lin := (congrArg Pack.lin hrest :)
  exact issue_onPack_done h (fflgBody_eq (issueCtx s e) (issuing s) (fflg_mod h.legal)) (hlaunch.trans (issuing_launch s))
    (hlin.trans (issuing_lin s))

theorem fflgFlags_eq (e : Enc) (p : Pack) (t : Nat) : fflgFlags e p t =
    let old := (packThread p t).fflags
    let b : Fl := BitVec.ofNat 5 (Claims.opB e 32 p ⟨t, 0, 0⟩)
    if encMod e = 1 then old &&& ~~~b else if encMod e = 2 then old ||| b else old := by
  unfold fflgFlags fflgNew
  split
  · rename_i h1
    simp only [h1, if_true]
  · rename_i h2
    simp only [h2, if_true]
    rfl
  · rename_i h1 h2
    simp only [if_neg h1, if_neg h2]

/-! ### frm -/

/-- What frm leaves for a mode in range (06 R195). -/
def frmSet (e : Enc) (p : Pack) : Pack :=
  if encModBit e 0 then
    { wrS p e.d.toNat (BitVec.ofNat 64 (p.fenv.toNat / 256 % 8)) with
      fenv := BitVec.ofNat 32 (p.fenv.toNat - p.fenv.toNat / 256 % 8 * 256 + e.b.toNat * 256) }
  else { wrS p e.d.toNat (p.rm.setWidth 64) with rm := BitVec.ofNat 32 e.b.toNat }

theorem frmSet_keeps (e : Enc) (p : Pack) : (frmSet e p).launch = p.launch ∧ (frmSet e p).lin = p.lin := by
  unfold frmSet
  split <;> exact ⟨rfl, rfl⟩

theorem putBits_mode {k : Nat} (h : k ≤ 4) (x : Nat) : putBits x 8 3 k = x - x / 256 % 8 * 256 + k * 256 := by
  have hk : k % 2 ^ 3 = k := Nat.mod_eq_of_lt (by omega)
  unfold putBits bits
  rw [hk]
  norm_num

theorem frmBody_sets {c : Ctx} (h : c.e.b.toNat ≤ 4) (p : Pack) : frmBody c p = .ok (frmSet c.e p) := by
  unfold frmBody frmSet
  simp only [if_neg (Nat.not_lt.mpr h), putBits_mode h, BitVec.ofNat_toNat]
  split <;> rfl

theorem exec_frm (h : Issuable (.frm e) s) (hb : e.b.toNat ≤ 4) :
    exec (.frm e) s = .next (completedPack s (frmSet e (issuing s)) e 0) :=
  issue_onPack_done h (frmBody_sets (c := issueCtx s e) hb _) ((frmSet_keeps e (issuing s)).1.trans (issuing_launch s))
    ((frmSet_keeps e (issuing s)).2.trans (issuing_lin s))

theorem frmBody_trap {c : Ctx} (h : 4 < c.e.b.toNat) (p : Pack) :
    frmBody c p = .error (c.openTrap clsIllop 13 (BitVec.ofNat 64 c.e.b.toNat)) := by
  unfold frmBody
  exact if_pos h

/-! ### pmov.2 -/

/-- What pmov.2 makes of a thread (04 R124). -/
def packPreds (e : Enc) (p : Pack) (t : Nat) (th : Thread) : Thread := { th with preds := BitVec.ofNat 16 (rdV p (encA e) t) ||| 0x80 }

theorem pmovBody_pack {c : Ctx} (h : encMod c.e = 2) (p : Pack) :
    pmovBody c p = .ok ((lanesOf c.m p.width).foldl (fun q t => packModThread q t (packPreds c.e p t)) p) := by
  unfold pmovBody
  rw [h]
  simp only [List.foldl_map]
  rfl

theorem exec_pmov_pack (h : Issuable (.pmov e) s) (hmod : encMod e = 2) :
    exec (.pmov e) s = .next (completedPack s
      ((lanesOf (issueMask s e) (issuing s).width).foldl (fun q t => packModThread q t (packPreds e (issuing s) t)) (issuing s)) e 0) := by
  obtain ⟨ths, hq⟩ := modList_fields (lanesOf (issueMask s e) (issuing s).width) (packPreds e (issuing s)) (issuing s)
  refine issue_onPack_done h (pmovBody_pack (c := issueCtx s e) hmod (issuing s)) ?_ ?_
  · exact (congrArg Pack.launch hq).trans (issuing_launch s)
  · exact (congrArg Pack.lin hq).trans (issuing_lin s)

/-! ### rkeep and dhash.mix -/

/-- A pack with its kept marks as given. -/
def Pack.withKept (p : Pack) (k : BitVec 256) : Pack := { p with kept := k }

theorem exec_rkeep (h : Issuable (.rkeep e) s) :
    exec (.rkeep e) s = .next (completedPack s
      ((issuing s).withKept (keepRegs (namedRegs (issueCtx s e) (issuing s)) (issuing s).kept)) e 0) :=
  issue_onPack_done h rfl (issuing_launch s) (issuing_lin s)

/-- A pack with its store hash as given. -/
def Pack.withHash (p : Pack) (x : W64) : Pack := { p with hash := x }

theorem withHash_launch (p : Pack) (x : W64) : (p.withHash x).launch = p.launch := rfl
theorem withHash_lin (p : Pack) (x : W64) : (p.withHash x).lin = p.lin := rfl

theorem dhashBody_mix {c : Ctx} (he : c.e = e) (h : encMod e = 2) (p : Pack) :
    dhashBody c p = .ok (p.withHash ((leBytes (rdS p (encA e)).toNat 8).foldl (fun h b => hashByte h (2 ^ 54 - 1) b) p.hash)) := by
  subst he
  unfold dhashBody mixBytes mixAddr
  rw [h]
  rfl

theorem exec_dhash_mix (h : Issuable (.dhash e) s) (hmod : encMod e = 2) :
    exec (.dhash e) s = .next (completedPack s ((issuing s).withHash
      ((leBytes (rdS (issuing s) (encA e)).toNat 8).foldl (fun h b => hashByte h (2 ^ 54 - 1) b) (issuing s).hash)) e 0) :=
  issue_onPack_done h (dhashBody_mix (c := issueCtx s e) rfl hmod _) ((withHash_launch _ _).trans (issuing_launch s))
    ((withHash_lin _ _).trans (issuing_lin s))

end

end Sys2Proof.Machine
end

section
/-! PROOFS. rflush: the named registers' lines are written back and freed (05 R144, R163). -/

namespace Sys2Proof.Machine

/-! ### One write-back -/

section
variable {s t : State} {core : Nat} {x : RfLine}

/-- What a pack's registers and marks are, from what write-backs leave. -/
theorem rdV_sansNotes {p q : Pack} (h : q.sansNotes = p.sansNotes) (m u : Nat) : rdV q m u = rdV p m u :=
  (congrArg (fun p : Pack => rdV p m u) h :)

theorem rdS_sansNotes {p q : Pack} (h : q.sansNotes = p.sansNotes) (m : Nat) : rdS q m = rdS p m :=
  (congrArg (fun p : Pack => rdS p m) h :)

theorem lineDead_keeps (h : ∀ k, (t.pack k).sansNotes = (s.pack k).sansNotes) (x : RfLine) : lineDead t x = lineDead s x := by
  have hpack := h x.pack
  have hwidth : (t.pack x.pack).width = (s.pack x.pack).width := (congrArg Pack.width hpack :)
  have hthread (u : Nat) : packThread (t.pack x.pack) u = packThread (s.pack x.pack) u :=
    (congrArg (fun p : Pack => packThread p u) hpack :)
  unfold lineDead
  simp only [hwidth, hthread]

/-- A row whose image translates is written back, and counted. -/
theorem writeBack_written {b : Nat} {pas : List Nat} (hb : imageBase s x.pack = some b)
    (hp : rowPlaces s b (s.pack x.pack) x.row .write = some pas) : KeepsRows (s.count ctrRfWback core 1) (writeBack s core x) := by
  unfold writeBack
  simp only [hb, hp]
  refine (foldl_keeps (KeepsRows (s.count ctrRfWback core 1)) _ (fun u pa h => ?_) pas _ ?_).setImaged _ _ _
  · exact h.tables rfl rfl rfl rfl rfl
  · exact foldl_keeps (KeepsRows (s.count ctrRfWback core 1)) _ (fun u y h => h.ctxWrite _ _) _ _ ((KeepsRows.refl _).denImageRow x b)

/-- One whose image does not translate keeps its bytes. -/
theorem writeBack_keeps (h : ∀ b, imageBase s x.pack = some b → rowPlaces s b (s.pack x.pack) x.row .write = none) :
    KeepsRows s (writeBack s core x) := by
  unfold writeBack
  split
  · exact KeepsRows.refl s
  · rename_i b hb
    simp only [h b hb]
    exact (KeepsRows.refl s).setImaged _ _ _

end

/-! ### Lines that are freed -/

/-- The state with other register-file lines. -/
def State.withLines (s : State) (r : List (Nat × List RfLine)) : State := { s with rf := r }

section
variable (s : State) (r : List (Nat × List RfLine))

theorem backsOf_withLines (core : Nat) : backsOf (s.withLines r) core = backsOf s core := rfl
theorem withLines_pack (k : Nat) : (s.withLines r).pack k = s.pack k := rfl

theorem walk_withLines (asid va : Nat) (kind : XKind) (space : Nat) : walk (s.withLines r) asid va kind space = walk s asid va kind space := by
  have hfrom (lvl tab : Nat) : walkFrom (s.withLines r) va kind space lvl tab = walkFrom s va kind space lvl tab := by
    induction lvl generalizing tab with
    | zero => rfl
    | succ lvl ih =>
      rw [walkFrom.eq_def, walkFrom.eq_def]
      simp only [ih]
      rfl
  unfold walk
  simp only [hfrom]
  rfl

theorem devPlaces_withLines (asid : Nat) (kind : XKind) (space : Nat) (l : List (Nat × Nat)) :
    devPlaces (s.withLines r) asid kind space l = devPlaces s asid kind space l := by
  induction l with
  | nil => rfl
  | cons x l ih =>
    unfold devPlaces
    simp only [ih, walk_withLines]

theorem rowPlaces_withLines (b : Nat) (p : Pack) (row : Nat) (kind : XKind) :
    rowPlaces (s.withLines r) b p row kind = rowPlaces s b p row kind := by
  unfold rowPlaces
  simp only [devPlaces_withLines]

end

/-- A line of a core is freed. -/
def dropLine (core : Nat) (s : State) (x : RfLine) : State :=
  s.withLines (Tab.upd [] s.rf core fun l => l.filter fun y => !(y.pack == x.pack && y.row == x.row))

/-- Whether rflush writes a line back. -/
def needsBack (s : State) (x : RfLine) : Bool := x.dirty && !lineDead s x

/-- A line is written back where it must be, and freed (05 R163). -/
def flushRow (core : Nat) (s : State) (x : RfLine) : State :=
  dropLine core (if needsBack s x then writeBack s core x else s) x

theorem dropLine_lines (core : Nat) (s : State) (x : RfLine) : Tab.get [] (dropLine core s x).rf core =
    (Tab.get [] s.rf core).filter fun y => !(y.pack == x.pack && y.row == x.row) := Tab.get_set_same _ _ _ _

theorem needsBack_keeps {s t : State} (h : ∀ k, (t.pack k).sansNotes = (s.pack k).sansNotes) : needsBack t = needsBack s :=
  funext fun x => by rw [needsBack, needsBack, lineDead_keeps h]

/-- What flushing some lines of a core leaves. -/
structure Flushed (core : Nat) (xs : List RfLine) (s t : State) : Prop where
  packs : ∀ k, (t.pack k).sansNotes = (s.pack k).sansNotes
  lines : Tab.get [] t.rf core = (Tab.get [] s.rf core).filter fun y => !xs.any fun x => y.pack == x.pack && y.row == x.row
  backs : ∃ n ≤ (xs.filter (needsBack s)).length, backsOf t core = backsOf s core + BitVec.ofNat 64 n
  cur : t.cur = s.cur

section
variable {s : State} {core b : Nat} {x : RfLine} {xs : List RfLine}

/-- A write-back is counted, or it is not. -/
theorem writeBack_cases (s : State) (core : Nat) (x : RfLine) :
    KeepsRows (s.count ctrRfWback core 1) (writeBack s core x) ∨ KeepsRows s (writeBack s core x) := by
  by_cases h : ∃ b pas, imageBase s x.pack = some b ∧ rowPlaces s b (s.pack x.pack) x.row .write = some pas
  · obtain ⟨b, pas, hb, hp⟩ := h
    exact .inl (writeBack_written hb hp)
  · refine .inr (writeBack_keeps fun b hb => ?_)
    cases hp : rowPlaces s b (s.pack x.pack) x.row .write with
    | none => rfl
    | some pas => exact absurd ⟨b, pas, hb, hp⟩ h

theorem flushRow_back (h : needsBack s x = true) : flushRow core s x = dropLine core (writeBack s core x) x := by
  rw [flushRow, if_pos h]

theorem flushRow_free (h : needsBack s x = false) : flushRow core s x = dropLine core s x := by
  rw [flushRow, if_neg (ne_true_of_eq_false h)]

theorem flushed_one (s : State) (core : Nat) (x : RfLine) : Flushed core [x] s (flushRow core s x) := by
  have hmatch (y : RfLine) : ([x].any fun x => y.pack == x.pack && y.row == x.row) = (y.pack == x.pack && y.row == x.row) := by simp
  cases hx : needsBack s x with
  | false =>
    rw [flushRow_free hx]
    exact ⟨fun _ => rfl, by simp only [hmatch, dropLine_lines], ⟨0, Nat.zero_le _, (BitVec.add_zero _).symm⟩, rfl⟩
  | true =>
    have hone : ([x].filter (needsBack s)).length = 1 := by rw [List.filter_singleton, hx]; rfl
    rw [flushRow_back hx]
    rcases writeBack_cases s core x with h | h
    · refine ⟨h.packs, ?_, ⟨1, hone.ge, ?_⟩, h.cur⟩
      · simp only [hmatch, dropLine_lines, h.lines]
        rfl
      · exact (h.backs core).trans (backsOf_count_same s core 1)
    · refine ⟨h.packs, ?_, ⟨0, Nat.zero_le _, ?_⟩, h.cur⟩
      · simp only [hmatch, dropLine_lines, h.lines]
      · exact (h.backs core).trans (BitVec.add_zero _).symm

theorem flushed_foldl (xs : List RfLine) (s : State) (core : Nat) : Flushed core xs s (xs.foldl (flushRow core) s) := by
  induction xs generalizing s with
  | nil => exact ⟨fun _ => rfl, by simp, ⟨0, Nat.zero_le _, (BitVec.add_zero _).symm⟩, rfl⟩
  | cons x xs ih =>
    obtain ⟨hpacks, hlines, ⟨n, hn, hbacks⟩, hcur⟩ := flushed_one s core x
    obtain ⟨hpacks', hlines', ⟨n', hn', hbacks'⟩, hcur'⟩ := ih (flushRow core s x)
    rw [needsBack_keeps hpacks] at hn'
    refine ⟨fun k => (hpacks' k).trans (hpacks k), ?_, ⟨n + n', ?_, ?_⟩, hcur'.trans hcur⟩
    · rw [List.foldl_cons, hlines', hlines, List.filter_filter]
      refine List.filter_congr fun y _ => ?_
      simp [Bool.and_comm]
    · have hcons : (x :: xs).filter (needsBack s) = [x].filter (needsBack s) ++ xs.filter (needsBack s) := by
        rw [← List.filter_append]; rfl
      rw [hcons, List.length_append]
      exact Nat.add_le_add hn hn'
    · rw [List.foldl_cons, hbacks', hbacks, BitVec.add_assoc, ← BitVec.ofNat_add]

/-- Where no line must be written back, lines are freed and nothing else changes. -/
theorem flush_quiet (h : xs.filter (needsBack s) = []) : ∃ r, xs.foldl (flushRow core) s = s.withLines r := by
  induction xs generalizing s with
  | nil => exact ⟨s.rf, rfl⟩
  | cons x xs ih =>
    cases hx : needsBack s x with
    | true => rw [List.filter_cons_of_pos hx] at h; cases h
    | false =>
      rw [List.filter_cons_of_neg (ne_true_of_eq_false hx)] at h
      rw [List.foldl_cons, flushRow_free hx]
      obtain ⟨r, hr⟩ := ih (s := dropLine core s x) h
      exact ⟨r, hr⟩

/-- Where one line must be written back, and its image translates, one is counted. -/
theorem flush_single (h : xs.filter (needsBack s) = [x]) (hb : imageBase s x.pack = some b)
    (hp : (rowPlaces s b (s.pack x.pack) x.row .write).isSome = true) :
    backsOf (xs.foldl (flushRow core) s) core = backsOf s core + 1 := by
  induction xs generalizing s with
  | nil => cases h
  | cons y ys ih =>
    rw [List.foldl_cons]
    cases hy : needsBack s y with
    | false =>
      rw [List.filter_cons_of_neg (ne_true_of_eq_false hy)] at h
      rw [flushRow_free hy]
      exact ih (s := dropLine core s y) h hb (by rwa [dropLine, rowPlaces_withLines])
    | true =>
      rw [List.filter_cons_of_pos hy] at h
      obtain ⟨rfl, hys⟩ := List.cons_eq_cons.mp h
      obtain ⟨pas, hpas⟩ := Option.isSome_iff_exists.mp hp
      have hwrite := writeBack_written (core := core) hb hpas
      have hdrop : ∀ k, ((dropLine core (writeBack s core y) y).pack k).sansNotes = (s.pack k).sansNotes := hwrite.packs
      rw [flushRow_back hy]
      obtain ⟨r, hr⟩ := flush_quiet (s := dropLine core (writeBack s core y) y) (core := core) (needsBack_keeps hdrop ▸ hys)
      rw [hr, backsOf_withLines]
      exact (hwrite.backs core).trans (backsOf_count_same s core 1)

end

/-! ### The end of an instruction that may have kept admissions -/

theorem settled_keeps (s : State) (k : Nat) : KeepsRows s (settled s k) := by
  have hpack : KeepsRows s (s.modPack k fun p => { p with hash := p.progress.hash.getD p.hash, progress := Progress.none }) :=
    (KeepsRows.refl s).modPack k fun _ => rfl
  exact KeepsRows.ite (fun _ => hpack.modTrack _ _) fun _ => KeepsRows.refl s

/-- A body that is done at once completes, and what it kept of admissions is dropped. -/
theorem issue_done_settles {i : Instr} {e : Enc} {s t : State} {body : Ctx → State → Res} {left : BitVec 64} (h : Issuable i s)
    (hb : body (issueCtx s e) (issued s) = .done t left) :
    ∃ t', issue i e body s = .next (completed s t' e left) ∧ KeepsRows t t' := by
  have hattempt : ∃ t', attempt i body (issueCtx s e) (issued s) = .done t' left ∧ KeepsRows t t' := by
    rcases attempt_begins (e := e) (body := body) h with h1 | ⟨-, hp, h1⟩
    · exact ⟨t, h1.trans hb, KeepsRows.refl t⟩
    · rw [h1]
      unfold trackBody
      simp only [hp, Progress.none, List.isEmpty_nil, if_true, hb, issued_cur]
      exact ⟨_, rfl, KeepsRows.ite (fun _ => KeepsRows.refl t) fun _ => settled_keeps t s.cur⟩
  obtain ⟨t', hdone, hkeeps⟩ := hattempt
  exact ⟨t', by rw [issue_legal h, hdone], hkeeps⟩

/-! ### rflush -/

section
variable {e : Enc} {s : State}

/-- The core of the issuing pack. -/
def issueCore (s : State) : Nat := (s.crew (issuing s).crew).core

/-- The lines of the registers that rflush names. -/
def namedLine (s : State) (e : Enc) (x : RfLine) : Bool := x.pack == s.cur && (namedRegs (issueCtx s e) (issuing s)).contains x.row

/-- The lines that it writes back (05 R163). -/
def backLines (s : State) (e : Enc) : List RfLine :=
  (Tab.get [] s.rf (issueCore s)).filter fun x => namedLine s e x && x.dirty && !lineDead (issued s) x

/-- The kept marks that stay. -/
def flushMarks (s : State) (e : Enc) : BitVec 256 :=
  (issuing s).kept &&& ~~~((namedRegs (issueCtx s e) (issuing s)).foldl (fun m r => m ||| (1#256 <<< r)) 0#256)

/-- The state after its lines are freed. -/
def flushed (s : State) (e : Enc) : State :=
  ((Tab.get [] s.rf (issueCore s)).filter (namedLine s e)).foldl (flushRow (issueCore s)) (issued s)

/-- And the state with the marks gone. -/
def unmarked (s : State) (e : Enc) : State :=
  (flushed s e).modPack s.cur fun p =>
    { p with kept := p.kept &&& ~~~((namedRegs (issueCtx s e) (issuing s)).foldl (fun m r => m ||| (1#256 <<< r)) 0#256) }

theorem flushed_spec (s : State) (e : Enc) :
    Flushed (issueCore s) ((Tab.get [] s.rf (issueCore s)).filter (namedLine s e)) (issued s) (flushed s e) := flushed_foldl _ _ _

theorem backLines_eq (s : State) (e : Enc) :
    ((Tab.get [] s.rf (issueCore s)).filter (namedLine s e)).filter (needsBack (issued s)) = backLines s e := by
  rw [List.filter_filter]
  refine List.filter_congr fun x _ => ?_
  unfold needsBack
  rw [Bool.and_comm, Bool.and_assoc]

theorem rflushBody_eq (c : Ctx) (s : State) : rflushBody c s =
    let rs := namedRegs c s.curPack
    let u := ((Tab.get [] s.rf s.curCrew.core).filter fun x => x.pack == s.cur && rs.contains x.row).foldl (flushRow s.curCrew.core) s
    .done (u.modPack u.cur fun p => { p with kept := p.kept &&& ~~~(rs.foldl (fun m r => m ||| (1#256 <<< r)) 0#256) }) 0 := rfl

theorem rflushBody_done (hs : s.isFox = false) (e : Enc) : rflushBody (issueCtx s e) (issued s) = .done (unmarked s e) 0 := by
  have hcrew : (issued s).curCrew.core = issueCore s := by
    unfold State.curCrew State.curCrewId
    simp only [issued_isFox, hs, Bool.false_eq_true, if_false, issued_cur, issued_pack]
    rfl
  have hcur : (flushed s e).cur = s.cur := (flushed_spec s e).cur
  rw [rflushBody_eq, issued_curPack s hs, hcrew]
  unfold unmarked
  rw [← hcur]
  rfl

theorem flushed_pack (s : State) (e : Enc) : ((flushed s e).pack s.cur).sansNotes = (issuing s).sansNotes := by
  rw [(flushed_spec s e).packs, issued_pack]

theorem unmarked_pack (s : State) (e : Enc) : ((unmarked s e).pack s.cur).sansNotes = ((issuing s).withKept (flushMarks s e)).sansNotes := by
  have hkept : ((flushed s e).pack s.cur).kept = (issuing s).kept := (congrArg Pack.kept (flushed_pack s e) :)
  unfold unmarked
  rw [State.modPack_pack_same, hkept]
  exact (congrArg (fun p : Pack => p.withKept (flushMarks s e)) (flushed_pack s e) :)

theorem unmarked_lines (s : State) (e : Enc) : Tab.get [] (unmarked s e).rf (issueCore s) =
    (Tab.get [] s.rf (issueCore s)).filter fun x => !namedLine s e x := by
  refine (flushed_spec s e).lines.trans (List.filter_congr fun y hy => congrArg (!·) ?_)
  refine Bool.eq_iff_iff.mpr ⟨fun h => ?_, fun h => ?_⟩
  · obtain ⟨x, hx, hsame⟩ := List.any_eq_true.mp h
    obtain ⟨hpack, hrow⟩ := Bool.and_eq_true_iff.mp hsame
    have hnamed := (List.mem_filter.mp hx).2
    unfold namedLine at hnamed ⊢
    rwa [eq_of_beq hpack, eq_of_beq hrow]
  · exact List.any_eq_true.mpr ⟨y, List.mem_filter.mpr ⟨hy, h⟩, by simp⟩

theorem unmarked_backs (s : State) (e : Enc) : ∃ n ≤ (backLines s e).length,
    backsOf (unmarked s e) (issueCore s) = backsOf s (issueCore s) + BitVec.ofNat 64 n := by
  obtain ⟨n, hn, hbacks⟩ := (flushed_spec s e).backs
  exact ⟨n, backLines_eq s e ▸ hn, hbacks⟩

theorem unmarked_single {x : RfLine} {b : Nat} (h : backLines s e = [x]) (hb : imageBase (issued s) s.cur = some b)
    (hp : (rowPlaces (issued s) b (issuing s) x.row .write).isSome = true) :
    backsOf (unmarked s e) (issueCore s) = backsOf s (issueCore s) + 1 := by
  have hmem : x ∈ backLines s e := h ▸ List.mem_singleton_self x
  have hpack : x.pack = s.cur := by
    have hnamed := (List.mem_filter.mp hmem).2
    unfold namedLine at hnamed
    simp only [Bool.and_eq_true, beq_iff_eq] at hnamed
    exact hnamed.1.1.1
  exact flush_single ((backLines_eq s e).trans h) (hpack ▸ hb) (by rwa [hpack, issued_pack])

theorem unmarked_quiet (h : backLines s e = []) : ∃ r, flushed s e = (issued s).withLines r :=
  flush_quiet ((backLines_eq s e).trans h)

/-- rflush completes, with its lines freed and what it kept of admissions dropped; where it writes none back, nothing was kept. -/
theorem exec_rflush (h : Issuable (.rflush e) s) :
    ∃ t, exec (.rflush e) s = .next (completed s t e 0) ∧ KeepsRows (unmarked s e) t ∧ (backLines s e = [] → t = unmarked s e) := by
  have hbody := rflushBody_done h.pack e
  by_cases hback : backLines s e = []
  · obtain ⟨r, hr⟩ := unmarked_quiet hback
    have hpack := unmarked_pack s e
    have hlaunch : ((unmarked s e).pack s.cur).launch = (issuing s).launch := (congrArg Pack.launch hpack :)
    have hlin : ((unmarked s e).pack s.cur).lin = (issuing s).lin := (congrArg Pack.lin hpack :)
    refine ⟨unmarked s e, ?_, KeepsRows.refl _, fun _ => rfl⟩
    refine issue_done_keeps h hbody (hlaunch.trans (issuing_launch s)) (hlin.trans (issuing_lin s)) ?_
    unfold unmarked
    rw [hr]
    rfl
  · obtain ⟨t, hexec, hkeeps⟩ := issue_done_settles h hbody
    exact ⟨t, hexec, hkeeps, fun hb => absurd hb hback⟩

theorem unmarked_pack_quiet (h : backLines s e = []) : (unmarked s e).pack s.cur = (issuing s).withKept (flushMarks s e) := by
  obtain ⟨r, hr⟩ := unmarked_quiet h
  unfold unmarked
  rw [State.modPack_pack_same, hr, withLines_pack, issued_pack]
  rfl

theorem unmarked_mem_quiet (h : backLines s e = []) : (unmarked s e).mem = s.mem := by
  obtain ⟨r, hr⟩ := unmarked_quiet h
  unfold unmarked
  rw [hr]
  rfl

theorem unmarked_others_quiet (h : backLines s e = []) {k : Nat} (hk : k ≠ s.cur) : (unmarked s e).pack k = s.pack k := by
  obtain ⟨r, hr⟩ := unmarked_quiet h
  unfold unmarked State.modPack
  rw [State.setPack_pack_other _ _ _ _ hk, hr, withLines_pack]
  exact State.setPack_pack_other _ _ _ _ hk

theorem rflush_spec (h : Issuable (.rflush e) s) :
    ∃ t, exec (.rflush e) s = .next (completed s t e 0) ∧ (t.pack s.cur).kept = flushMarks s e ∧
      (∀ m u, rdV (t.pack s.cur) m u = rdV (issuing s) m u) ∧ (∀ m, rdS (t.pack s.cur) m = rdS (issuing s) m) ∧
      Tab.get [] t.rf (issueCore s) = (Tab.get [] s.rf (issueCore s)).filter (fun x => !namedLine s e x) ∧
      (∃ n ≤ (backLines s e).length, backsOf t (issueCore s) = backsOf s (issueCore s) + BitVec.ofNat 64 n) ∧
      (∀ x b, backLines s e = [x] → imageBase (issued s) s.cur = some b →
        (rowPlaces (issued s) b (issuing s) x.row .write).isSome = true →
        backsOf t (issueCore s) = backsOf s (issueCore s) + 1) ∧
      (backLines s e = [] → t.pack s.cur = (issuing s).withKept (flushMarks s e) ∧ t.mem = s.mem ∧
        ∀ k, k ≠ s.cur → t.pack k = s.pack k) := by
  obtain ⟨t, hexec, hkeeps, hquiet⟩ := exec_rflush h
  have hpack : (t.pack s.cur).sansNotes = ((issuing s).withKept (flushMarks s e)).sansNotes := (hkeeps.packs s.cur).trans (unmarked_pack s e)
  refine ⟨t, hexec, (congrArg Pack.kept hpack :), ?_, ?_, ?_, ?_, ?_, ?_⟩
  · exact fun m u => (rdV_sansNotes hpack m u).trans rfl
  · exact fun m => (rdS_sansNotes hpack m).trans rfl
  · rw [hkeeps.lines, unmarked_lines]
  · rw [hkeeps.backs]
    exact unmarked_backs s e
  · intro x b hx hb hp
    rw [hkeeps.backs]
    exact unmarked_single hx hb hp
  · intro hb
    rw [hquiet hb]
    exact ⟨unmarked_pack_quiet hb, unmarked_mem_quiet hb, fun k hk => unmarked_others_quiet hb hk⟩

end

end Sys2Proof.Machine

namespace Sys2Proof
open Machine

/-- Settles O8, an instruction at a time. -/
theorem flagsAndModes : Obligations.FlagsAndModes := by
  unfold Obligations.FlagsAndModes
  refine ⟨fun e s h => ?_, fun e s h hb => exec_frm h hb, fun e s h hb hm => ?_, fun e s h hmod => ?_, fun e s h => exec_rkeep h,
    fun e s h => rflush_spec h, fun e s h hmod => exec_dhash_mix h hmod⟩
  · exact ⟨_, exec_fflg h, fflgOut_done (issueCtx s e) (issuing s), fun u hu =>
      (fflgOut_fflags (issueCtx s e) (issuing s) hu).trans (by rw [fflgFlags_eq]; rfl)⟩
  · exact ⟨_, issue_onPack_trap h (frmBody_trap (c := issueCtx s e) hb (issuing s)) hm⟩
  · obtain ⟨ths, hq⟩ := modList_fields (lanesOf (issueMask s e) (issuing s).width) (packPreds e (issuing s)) (issuing s)
    exact ⟨_, exec_pmov_pack h hmod, (congrArg Pack.sansThreads hq).trans rfl, fun u hu =>
      packThread_modList (lanesOf_nodup _ _) (packPreds e (issuing s)) (issuing s) hu⟩

end Sys2Proof
end

section
/-! PROOFS. Events of a pack: deferred traps, selection, the watchdog, register lines and spills (04 R99, R101; 05 R134, R140; 15 R445, R464). -/

namespace Sys2Proof.Machine

/-! ### A trap is taken (15 R444, R447, R448) -/

section
variable {s : State} {k : Nat}

theorem reselect_fields (p : Pack) : ∃ ths ls sel, reselect p = { p with threads := ths, loops := ls, sel := sel } := by
  obtain ⟨ths, ls, h⟩ := releaseConv_fields p
  refine ⟨ths, ls, selectSubset (releaseConv p), ?_⟩
  unfold reselect
  rw [h]

/-- The pack that enters its handler, before the next selection. -/
def entering (p : Pack) (pc : W64) (size : Nat) (t : Trap) : Pack :=
  let p := stepAges p (runThreads p) p.sel
  { p with
    tepc := pc, tcause := causeWord t.cls t.sub, tmask := t.mask, tval := t.val
    save := ⟨p.loops, true, p.sel, pc + BitVec.ofNat 64 size⟩
    loops := [], wait := Wait.none, monitor := none, starved := false, issues := p.issues + 1 }

theorem enterHandler_eq (p : Pack) (pc : W64) (size : Nat) (t : Trap) (handler : W64) :
    enterHandler p pc size t handler =
      reselect (modThreads (entering p pc size t) (lanesOf (entering p pc size t).sel (entering p pc size t).width)
        fun th => { th with pc := handler }) := rfl

/-- What a trap sets in its pack. -/
theorem enterHandler_sets (p : Pack) (pc : W64) (size : Nat) (t : Trap) (handler : W64) :
    let q := enterHandler p pc size t handler
    q.tepc = pc ∧ q.tcause = causeWord t.cls t.sub ∧ q.tmask = t.mask ∧ q.tval = t.val ∧ q.save.inHandler = true ∧ q.wait = Wait.none ∧
      q.deferred = p.deferred := by
  obtain ⟨ths, hages⟩ := stepAges_fields p (runThreads p) p.sel
  have hdeferred : (entering p pc size t).deferred = p.deferred := (congrArg Pack.deferred hages :)
  obtain ⟨ths', hmod⟩ := modThreads_fields (entering p pc size t) (lanesOf (entering p pc size t).sel (entering p pc size t).width)
    fun th => { th with pc := handler }
  obtain ⟨ths'', ls, sel, hsel⟩ := reselect_fields (modThreads (entering p pc size t)
    (lanesOf (entering p pc size t).sel (entering p pc size t).width) fun th => { th with pc := handler })
  rw [hmod] at hsel
  rw [enterHandler_eq, hmod, hsel]
  exact ⟨rfl, rfl, rfl, rfl, rfl, rfl, hdeferred⟩

/-- A pack that may take a trap takes it. -/
theorem takeTrap_taken {pc : W64} {size : Nat} {t : Trap} (htrap : (s.launch (s.pack k).launch).hdr.trap ≠ 0)
    (hin : (s.pack k).save.inHandler = false) :
    takeTrap s k pc size t = countIssue ((s.modPack k fun p => enterHandler p pc size t
      (BitVec.ofNat 64 (s.launch (s.pack k).launch).hdr.trap)).count ctrTrapN (s.coreOf (s.pack k).crew) 1) (s.pack k).crew := by
  unfold takeTrap
  simp only [htrap, hin, Bool.false_eq_true, if_false]

theorem modPack_mem (s : State) (k : Nat) (f : Pack → Pack) : (s.modPack k f).mem = s.mem := rfl

theorem modPack_other (s : State) {j k : Nat} (hj : j ≠ k) (f : Pack → Pack) : (s.modPack k f).pack j = s.pack j :=
  State.setPack_pack_other s k (f (s.pack k)) j hj

/-- What is left of the pack, of memory and of the other packs. -/
theorem takeTrap_leaves {pc : W64} {size : Nat} {t : Trap} (htrap : (s.launch (s.pack k).launch).hdr.trap ≠ 0)
    (hin : (s.pack k).save.inHandler = false) :
    (∃ handler, (takeTrap s k pc size t).pack k = enterHandler (s.pack k) pc size t handler) ∧ (takeTrap s k pc size t).mem = s.mem ∧
      ∀ j, j ≠ k → (takeTrap s k pc size t).pack j = s.pack j := by
  rw [takeTrap_taken htrap hin]
  refine ⟨⟨BitVec.ofNat 64 (s.launch (s.pack k).launch).hdr.trap, ?_⟩, ?_, fun j hj => ?_⟩
  · rw [countIssue_pack, State.count_pack, State.modPack_pack_same]
  · rw [countIssue_mem, State.count_mem, modPack_mem]
  · rw [countIssue_pack, State.count_pack, modPack_other _ hj]

theorem enterHandler_trapped (p q : Pack) (size : Nat) (t : Trap) (handler : W64) :
    Claims.Trapped (enterHandler p (packPc q) size t handler) q t.cls t.sub t.mask := by
  obtain ⟨hepc, hcause, hmask, -, hin, hwait, -⟩ := enterHandler_sets p (packPc q) size t handler
  exact ⟨hepc, hcause, hmask, hin, hwait⟩

/-! ### Deferred traps (15 R445) -/

theorem exec_deferredTrapDelivery {t : Trap} {l : List Trap} (h : Claims.mayTrap s k) (hwait : (s.pack k).wait.kind = .none)
    (hsel : (s.pack k).sel ≠ 0) (hdef : (s.pack k).deferred = t :: l) (hsent : (s.pack k).progress.sent = false) :
    exec (.deferredTrapDelivery k) s = .next (takeTrap (s.setPack k { s.pack k with deferred := l }) k (packPc (s.pack k))
      (nextInstr s k).1 { t with mask := (s.pack k).sel }) := by
  obtain ⟨hlive, hcore, -, hin⟩ := h
  have hgo : ((s.pack k).live && onCore s (s.pack k).crew && (s.pack k).wait.kind == .none && (s.pack k).sel ≠ 0 &&
      !(s.pack k).save.inHandler && !(s.pack k).progress.sent) = true := by
    simp only [hlive, hcore, hwait, hin, hsent, decide_eq_true hsel]
    rfl
  show execDeferredTrapDelivery k s = _
  unfold execDeferredTrapDelivery
  simp only [hdef]
  exact if_pos hgo

theorem deferredTrap_delivered {t : Trap} {l : List Trap} (h : Claims.mayTrap s k) (hwait : (s.pack k).wait.kind = .none)
    (hsel : (s.pack k).sel ≠ 0) (hdef : (s.pack k).deferred = t :: l) (hsent : (s.pack k).progress.sent = false) :
    ∃ s', exec (.deferredTrapDelivery k) s = .next s' ∧ Claims.Trapped (s'.pack k) (s.pack k) t.cls t.sub (s.pack k).sel ∧
      (s'.pack k).deferred = l ∧ (s'.pack k).tval = t.val ∧ s'.mem = s.mem ∧ ∀ j, j ≠ k → s'.pack j = s.pack j := by
  have hpack : (s.setPack k { s.pack k with deferred := l }).pack k = { s.pack k with deferred := l } := State.setPack_pack_same _ _ _
  obtain ⟨⟨handler, hq⟩, hmem, hothers⟩ := takeTrap_leaves (s := s.setPack k { s.pack k with deferred := l }) (k := k)
    (pc := packPc (s.pack k)) (size := (nextInstr s k).1) (t := { t with mask := (s.pack k).sel })
    (by rw [hpack]; exact h.2.2.1) (by rw [hpack]; exact h.2.2.2)
  refine ⟨_, exec_deferredTrapDelivery h hwait hsel hdef hsent, ?_, ?_, ?_, hmem, fun j hj => (hothers j hj).trans ?_⟩
  · rw [hq]
    exact enterHandler_trapped _ _ _ _ _
  · rw [hq, hpack]
    obtain ⟨-, -, -, -, -, -, hdeferred⟩ := enterHandler_sets { s.pack k with deferred := l } (packPc (s.pack k)) (nextInstr s k).1
      { t with mask := (s.pack k).sel } handler
    exact hdeferred
  · rw [hq]
    obtain ⟨-, -, -, hval, -, -, -⟩ := enterHandler_sets ((s.setPack k { s.pack k with deferred := l }).pack k) (packPc (s.pack k))
      (nextInstr s k).1 { t with mask := (s.pack k).sel } handler
    exact hval
  · exact State.setPack_pack_other _ _ _ _ hj

end

/-! ### Selection (04 R99, R101) -/

section

theorem getLsbD_maskOf (l : List Nat) {u : Nat} (hu : u < 64) : (maskOf l).getLsbD u = true ↔ u ∈ l := by
  have hfold (m : BitVec 64) : (l.foldl (fun m t => m ||| (1#64 <<< t)) m).getLsbD u = true ↔ m.getLsbD u = true ∨ u ∈ l := by
    induction l generalizing m with
    | nil => simp
    | cons t l ih =>
      rw [List.foldl_cons, ih, BitVec.getLsbD_or, BitVec.getLsbD_shiftLeft, List.mem_cons]
      simp only [hu, decide_true, Bool.true_and, BitVec.getLsbD_one, Bool.or_eq_true, Bool.and_eq_true, decide_eq_true_eq,
        Bool.not_eq_true', decide_eq_false_iff_not]
      constructor
      · rintro ((hm | ⟨h1, h2⟩) | hl)
        · exact .inl hm
        · exact .inr (.inl (by omega))
        · exact .inr (.inr hl)
      · rintro (hm | rfl | hl)
        · exact .inl (.inl hm)
        · exact .inl (.inr ⟨by omega, by omega⟩)
        · exact .inr hl
  rw [maskOf, hfold]
  simp

theorem minNat_none {l : List Nat} : minNat l = none ↔ l = [] := by
  cases l with
  | nil => exact iff_of_true rfl rfl
  | cons x l =>
    refine iff_of_false ?_ (List.cons_ne_nil x l)
    unfold minNat
    split <;> exact Option.some_ne_none _

theorem minNat_some {l : List Nat} {y : Nat} (h : minNat l = some y) : y ∈ l ∧ ∀ x ∈ l, y ≤ x := by
  induction l generalizing y with
  | nil => cases h
  | cons x l ih =>
    unfold minNat at h
    split at h
    · rename_i hl
      cases h
      rw [minNat_none.mp hl]
      exact ⟨List.mem_singleton_self x, by simp⟩
    · rename_i z hz
      cases h
      obtain ⟨hmem, hle⟩ := ih hz
      refine ⟨?_, fun w hw => ?_⟩
      · rcases min_choice x z with hx | hx <;> rw [hx]
        · exact List.mem_cons_self
        · exact List.mem_cons_of_mem _ hmem
      · rcases List.mem_cons.mp hw with rfl | hw
        · exact Nat.min_le_left _ _
        · exact (Nat.min_le_right _ _).trans (hle w hw)

/-- The greatest of some numbers. -/
theorem foldl_max {α : Type} (f : α → Nat) (l : List α) (a : Nat) :
    a ≤ l.foldl (fun a t => max a (f t)) a ∧ (∀ t ∈ l, f t ≤ l.foldl (fun a t => max a (f t)) a) ∧
      (l.foldl (fun a t => max a (f t)) a = a ∨ ∃ t ∈ l, l.foldl (fun a t => max a (f t)) a = f t) := by
  induction l generalizing a with
  | nil => exact ⟨le_rfl, by simp, .inl rfl⟩
  | cons x l ih =>
    obtain ⟨hle, hall, hone⟩ := ih (max a (f x))
    refine ⟨(le_max_left _ _).trans hle, fun t ht => ?_, ?_⟩
    · rcases List.mem_cons.mp ht with rfl | ht
      · exact (le_max_right _ _).trans hle
      · exact hall t ht
    · rcases hone with h | ⟨t, ht, h⟩
      · rcases max_choice a (f x) with hx | hx
        · exact .inl (h.trans hx)
        · exact .inr ⟨x, List.mem_cons_self, h.trans hx⟩
      · exact .inr ⟨t, List.mem_cons_of_mem _ ht, h⟩

variable (p : Pack)

/-- The threads among which the selection is made: those of the greatest age of 1,024 or more, else all that can run. -/
def candidates : List Nat :=
  let old := (runThreads p).filter fun t => 1024 ≤ (packThread p t).age
  if old.isEmpty then runThreads p
  else old.filter fun t => (packThread p t).age == old.foldl (fun a t => max a (packThread p t).age) 0

theorem selectSubset_eq : selectSubset p =
    match minNat ((candidates p).map fun t => (packThread p t).pc.toNat) with
    | none => 0
    | some x => maskOf ((runThreads p).filter fun t => (packThread p t).pc.toNat == x) := rfl

/-- Which threads are candidates. -/
theorem mem_candidates {u : Nat} : u ∈ candidates p ↔ u ∈ runThreads p ∧
    ((∃ v ∈ runThreads p, 1024 ≤ (packThread p v).age) → 1024 ≤ (packThread p u).age ∧
      ∀ v ∈ runThreads p, (packThread p v).age ≤ (packThread p u).age) := by
  unfold candidates
  generalize hold : (runThreads p).filter (fun t => decide (1024 ≤ (packThread p t).age)) = old
  have hmem (v : Nat) : v ∈ old ↔ v ∈ runThreads p ∧ 1024 ≤ (packThread p v).age := by
    rw [← hold, List.mem_filter, decide_eq_true_iff]
  obtain ⟨-, hall, hone⟩ := foldl_max (fun t => (packThread p t).age) old 0
  by_cases hempty : old = []
  · have hnone : ¬∃ v ∈ runThreads p, 1024 ≤ (packThread p v).age := by
      rintro ⟨v, hv, hage⟩
      have := (hmem v).mpr ⟨hv, hage⟩
      rw [hempty] at this
      cases this
    simp only [hempty, List.isEmpty_nil, if_true, hnone, false_implies, and_true]
  · obtain ⟨v, hv⟩ := List.exists_mem_of_ne_nil old hempty
    have hsome : ∃ v ∈ runThreads p, 1024 ≤ (packThread p v).age := ⟨v, (hmem v).mp hv⟩
    have hfalse : old.isEmpty = false := by rwa [← Bool.not_eq_true, List.isEmpty_iff]
    simp only [hfalse, Bool.false_eq_true, if_false, List.mem_filter, beq_iff_eq, hmem, hsome, true_implies]
    constructor
    · rintro ⟨⟨hrun, hage⟩, htop⟩
      refine ⟨hrun, hage, fun w hw => ?_⟩
      by_cases hw' : 1024 ≤ (packThread p w).age
      · exact htop ▸ hall w ((hmem w).mpr ⟨hw, hw'⟩)
      · omega
    · rintro ⟨hrun, hage, hmax⟩
      refine ⟨⟨hrun, hage⟩, Nat.le_antisymm (hall u ((hmem u).mpr ⟨hrun, hage⟩)) ?_⟩
      rcases hone with h | ⟨t, ht, h⟩
      · rw [h]; exact Nat.zero_le _
      · rw [h]; exact hmax t ((hmem t).mp ht).1

theorem candidates_nil (h : candidates p = []) : runThreads p = [] := by
  by_contra hrun
  obtain ⟨u, hu⟩ := List.exists_mem_of_ne_nil _ hrun
  obtain ⟨-, hall, hone⟩ := foldl_max (fun t => (packThread p t).age) (runThreads p) 0
  have hnot (v : Nat) : v ∉ candidates p := by rw [h]; exact List.not_mem_nil
  rcases hone with h0 | ⟨t, ht, h0⟩
  · refine hnot u ((mem_candidates p).mpr ⟨hu, ?_⟩)
    rintro ⟨v, hv, hage⟩
    have := hall v hv
    omega
  · refine hnot t ((mem_candidates p).mpr ⟨ht, fun ⟨v, hv, hage⟩ => ?_⟩)
    have := hall v hv
    exact ⟨by omega, fun w hw => h0 ▸ hall w hw⟩

/-- What a selection is (04 R101). -/
theorem selectSubset_spec : ∃ x,
    (∀ u < 64, (selectSubset p).getLsbD u = true ↔ u ∈ runThreads p ∧ (packThread p u).pc.toNat = x) ∧
    (runThreads p ≠ [] → ∃ u ∈ runThreads p, (packThread p u).pc.toNat = x ∧
      (if ∃ v ∈ runThreads p, 1024 ≤ (packThread p v).age then
        1024 ≤ (packThread p u).age ∧ (∀ v ∈ runThreads p, (packThread p v).age ≤ (packThread p u).age) ∧
          ∀ v ∈ runThreads p, (packThread p v).age = (packThread p u).age → x ≤ (packThread p v).pc.toNat
       else ∀ v ∈ runThreads p, x ≤ (packThread p v).pc.toNat)) := by
  rw [selectSubset_eq]
  cases hmin : minNat ((candidates p).map fun t => (packThread p t).pc.toNat) with
  | none =>
    have hrun := candidates_nil p (List.map_eq_nil_iff.mp (minNat_none.mp hmin))
    refine ⟨0, fun u _ => ?_, fun h => absurd hrun h⟩
    rw [hrun]
    simp
  | some x =>
    obtain ⟨hmem, hle⟩ := minNat_some hmin
    obtain ⟨u, hu, hpc⟩ := List.mem_map.mp hmem
    obtain ⟨hrun, hold⟩ := (mem_candidates p).mp hu
    have hleast (v : Nat) (hv : v ∈ candidates p) : x ≤ (packThread p v).pc.toNat := hle _ (List.mem_map_of_mem hv)
    refine ⟨x, fun v hv => ?_, fun _ => ⟨u, hrun, hpc, ?_⟩⟩
    · simp only [getLsbD_maskOf _ hv, List.mem_filter, beq_iff_eq]
    · split
      · rename_i hsome
        obtain ⟨hage, hmax⟩ := hold hsome
        refine ⟨hage, hmax, fun v hv hsame => hleast v ((mem_candidates p).mpr ⟨hv, fun _ => ?_⟩)⟩
        rw [hsame]
        exact ⟨hage, hmax⟩
      · rename_i hnone
        exact fun v hv => hleast v ((mem_candidates p).mpr ⟨hv, fun h => absurd h hnone⟩)

end

/-- A pack on its core that waits for nothing takes a selection event. -/
theorem mayIssue_of {s : State} {k : Nat} (hlive : (s.pack k).live = true) (hon : onCore s (s.pack k).crew = true)
    (hwait : (s.pack k).wait.kind = .none) :
    ((s.pack k).live && onCore s (s.pack k).crew && (s.pack k).wait.kind == .none) = true := by
  rw [hlive, hon, hwait]
  rfl

theorem exec_issueStarvation {s : State} {k : Nat} (hlive : (s.pack k).live = true) (hon : onCore s (s.pack k).crew = true)
    (hwait : (s.pack k).wait.kind = .none) : exec (.issueStarvation k) s = .next (s.setPack k { s.pack k with starved := true }) :=
  congrArg Host.Outcome.next (if_pos (mayIssue_of hlive hon hwait))

theorem exec_subsetAgeLimit {s : State} {k : Nat} (hlive : (s.pack k).live = true) (hon : onCore s (s.pack k).crew = true)
    (hwait : (s.pack k).wait.kind = .none) :
    exec (.subsetAgeLimit k) s = .next (s.setPack k { s.pack k with sel := selectSubset (s.pack k) }) :=
  congrArg Host.Outcome.next (if_pos (mayIssue_of hlive hon hwait))

/-! ### The watchdog (15 R464) -/

section
variable {s t : State} {k : Nat}

/-- What a wait that is withdrawn leaves of the rest: memory, the other packs, where the crews are, the headers of launches, and of the
pack all but its clock and arrival. -/
structure Withdrawn (s t : State) (k : Nat) : Prop where
  mem : t.mem = s.mem
  others : ∀ j, j ≠ k → t.pack j = s.pack j
  pack : ∃ vc a, t.pack k = { s.pack k with vc := vc, arrival := a }
  onCore : ∀ c, onCore t c = onCore s c
  hdr : ∀ l, (t.launch l).hdr = (s.launch l).hdr

theorem onCore_modSt (s : State) (n : Nat) (f : CrewState → CrewState) (c : Nat) : onCore (s.modSt n f) c = onCore s c := by
  unfold onCore State.modSt State.modCrew
  by_cases h : c = n
  · subst h; rw [State.setCrew_crew_same]
  · rw [State.setCrew_crew_other _ _ _ _ h]

namespace Withdrawn
variable {u : State}

theorem refl (s : State) (k : Nat) : Withdrawn s s k :=
  ⟨rfl, fun _ _ => rfl, ⟨(s.pack k).vc, (s.pack k).arrival, rfl⟩, fun _ => rfl, fun _ => rfl⟩

/-- A change outside memory and the tables of packs, crews and launches. -/
theorem tables (h : Withdrawn s t k) (hmem : u.mem = t.mem) (hpacks : u.packs = t.packs) (hcrews : u.crews = t.crews)
    (hl : u.launches = t.launches) : Withdrawn s u k := by
  have hpack (j : Nat) : u.pack j = t.pack j := by unfold State.pack; rw [hpacks]
  refine ⟨hmem.trans h.mem, fun j hj => (hpack j).trans (h.others j hj), ?_, fun c => ?_, fun l => ?_⟩
  · rw [hpack]; exact h.pack
  · rw [← h.onCore]; unfold Machine.onCore State.crew; rw [hcrews]
  · rw [← h.hdr]; unfold State.launch; rw [hl]

theorem modSt (h : Withdrawn s t k) (n : Nat) (f : CrewState → CrewState) : Withdrawn s (t.modSt n f) k :=
  ⟨h.mem, h.others, h.pack, fun c => (onCore_modSt t n f c).trans (h.onCore c), h.hdr⟩

theorem setBar (h : Withdrawn s t k) (n b : Nat) (x : Barrier) : Withdrawn s (Machine.setBar t n b x) k := h.modSt n _

theorem modClock (h : Withdrawn s t k) (vc : Tab Nat) (a : Option Arrival) :
    Withdrawn s (t.modPack k fun p => { p with vc := vc, arrival := a }) k := by
  obtain ⟨vc', a', hpack⟩ := h.pack
  refine ⟨h.mem, fun j hj => (modPack_other t hj _).trans (h.others j hj), ⟨vc, a, ?_⟩, h.onCore, h.hdr⟩
  rw [State.modPack_pack_same, hpack]

end Withdrawn

theorem keepSub_withdrawn (s : State) (k : Nat) : Withdrawn s (keepSub s k) k := by
  have hkeeps : ∃ subs, keepSub s k = { s with subs := subs } := by
    unfold keepSub
    refine foldl_keeps (fun u => ∃ subs, u = { s with subs := subs }) _ (fun u x hu => ?_) s.subs s ⟨s.subs, rfl⟩
    obtain ⟨subs, rfl⟩ := hu
    split
    · split
      · exact ⟨_, rfl⟩
      · exact ⟨subs, rfl⟩
    · exact ⟨subs, rfl⟩
  obtain ⟨subs, h⟩ := hkeeps
  rw [h]
  exact (Withdrawn.refl s k).tables rfl rfl rfl rfl

theorem withdrawAcq_withdrawn (s : State) (lid k : Nat) : Withdrawn s (withdrawAcq s lid k) k where
  mem := rfl
  others _ _ := rfl
  pack := ⟨(s.pack k).vc, (s.pack k).arrival, rfl⟩
  onCore _ := rfl
  hdr l := by
    unfold withdrawAcq State.modLaunch
    by_cases h : l = lid
    · subst h; rw [State.setLaunch_launch_same]
    · rw [State.setLaunch_launch_other _ _ _ _ h]

theorem withdrawArrival_withdrawn (s : State) (k b : Nat) : Withdrawn s (withdrawArrival s k b) k := by
  unfold withdrawArrival
  simp only
  split
  · exact (Withdrawn.refl s k).modSt _ _
  · refine Withdrawn.modClock (Withdrawn.modSt ?_ _ _) _ _
    exact Withdrawn.tables ((Withdrawn.refl s k).setBar _ _ _) rfl rfl rfl rfl

theorem withdrawWait_withdrawn (s : State) (k : Nat) (barx : Bool) : Withdrawn s (withdrawWait s k barx) k := by
  unfold withdrawWait
  simp only
  split
  · split
    · exact withdrawArrival_withdrawn s k _
    · exact Withdrawn.refl s k
  · exact withdrawAcq_withdrawn s _ k
  · exact keepSub_withdrawn s k

/-- A pack that stalls or waits at an instruction, as the watchdog sees it. -/
def isIdle (s : State) (k : Nat) : Bool :=
  match (s.pack k).wait.kind with
  | .none => s.stalled.contains k
  | .ended => false
  | .due _ _ _ _ => false
  | _ => true

theorem isIdle_of (h : waitsR100 (s.pack k) = true ∨ (s.pack k).wait.kind = .none ∧ k ∈ s.stalled ∨
    ∃ a v, (s.pack k).wait.kind = .fault a v) : isIdle s k = true := by
  unfold isIdle
  rcases h with h | ⟨h, hs⟩ | ⟨a, v, h⟩
  · unfold waitsR100 at h
    split at h <;> simp_all
  · rw [h]; simpa using hs
  · rw [h]

/-- The state in which a pack takes WDOG. -/
def unwaited (s : State) (k : Nat) : State :=
  ((withdrawWait s k (((nextInstr s k).2.map isBarx).getD false)).modPack k fun p => { p with monitor := none }).count ctrWdogN
    (((withdrawWait s k (((nextInstr s k).2.map isBarx).getD false)).modPack k fun p => { p with monitor := none }).coreOf
      (s.pack k).crew) 1

theorem exec_watchdogExpire (hlive : (s.pack k).live = true) (hlim : s.wdogLim ≠ 0) (hclock : clocksRun s = true) (hidle : isIdle s k = true) :
    exec (.watchdogExpire k) s = .next (trapWaiting (unwaited s k) k (nextInstr s k).1
      ⟨clsWdog, if waitsR100 (s.pack k) then 2 else 1, Config.trapVal clsWdog (if waitsR100 (s.pack k) then 2 else 1) (packPc (s.pack k)),
        (s.pack k).sel⟩) := by
  have hset : (s.wdogLim != 0) = true := bne_iff_ne.mpr hlim
  have hgo : (!((s.pack k).live && isIdle s k && s.wdogLim != 0 && clocksRun s)) = false := by
    rw [hlive, hclock, hidle, hset]
    rfl
  show execWatchdogExpire k s = _
  unfold execWatchdogExpire
  exact if_neg (ne_true_of_eq_false hgo)

/-- Of the pack that takes WDOG, all but its clock, arrival and monitor is as it was. -/
theorem unwaited_pack (s : State) (k : Nat) :
    ∃ vc a, (unwaited s k).pack k = { s.pack k with vc := vc, arrival := a, monitor := none } := by
  obtain ⟨vc, a, h⟩ := (withdrawWait_withdrawn s k (((nextInstr s k).2.map isBarx).getD false)).pack
  refine ⟨vc, a, ?_⟩
  unfold unwaited
  rw [State.count_pack, State.modPack_pack_same, h]

theorem watchdog_traps (h : Claims.mayTrap s k) (hlim : s.wdogLim ≠ 0) (hclock : clocksRun s = true)
    (hidle : isIdle s k = true) :
    ∃ s', exec (.watchdogExpire k) s = .next s' ∧
      Claims.Trapped (s'.pack k) (s.pack k) clsWdog (if waitsR100 (s.pack k) = true then 2 else 1) (s.pack k).sel ∧
      s'.mem = s.mem ∧ ∀ j, j ≠ k → s'.pack j = s.pack j := by
  obtain ⟨hlive, hcore, htrap, hin⟩ := h
  have hw := withdrawWait_withdrawn s k (((nextInstr s k).2.map isBarx).getD false)
  obtain ⟨vc, a, hpack⟩ := unwaited_pack s k
  have hon : onCore (unwaited s k) ((unwaited s k).pack k).crew = true := by
    rw [hpack]
    exact (hw.onCore _).trans hcore
  have hhdr : ((unwaited s k).launch ((unwaited s k).pack k).launch).hdr.trap ≠ 0 := by
    rw [hpack]
    exact (congrArg Header.trap (hw.hdr (s.pack k).launch)).symm ▸ htrap
  have hpc : packPc ((unwaited s k).pack k) = packPc (s.pack k) := by rw [hpack]; rfl
  refine ⟨_, exec_watchdogExpire hlive hlim hclock hidle, ?_⟩
  unfold trapWaiting
  simp only [hon, if_true, hpc]
  obtain ⟨⟨handler, hq⟩, hmem, hothers⟩ := takeTrap_leaves (s := unwaited s k) (k := k) (pc := packPc (s.pack k)) (size := (nextInstr s k).1)
    (t := ⟨clsWdog, if waitsR100 (s.pack k) then 2 else 1, Config.trapVal clsWdog (if waitsR100 (s.pack k) then 2 else 1)
      (packPc (s.pack k)), (s.pack k).sel⟩) hhdr (by rw [hpack]; exact hin)
  refine ⟨?_, hmem.trans ?_, fun j hj => (hothers j hj).trans ?_⟩
  · rw [hq]
    exact enterHandler_trapped _ _ _ _ _
  · exact hw.mem
  · unfold unwaited
    rw [State.count_pack, modPack_other _ hj]
    exact hw.others j hj

end

end Sys2Proof.Machine
end

section
/-! PROOFS. Events of a pack: register lines arrive, and spills drain (05 R134, R140). -/

namespace Sys2Proof.Machine

/-! ### Lists of distinct numbers -/

theorem nubNat_spec (l : List Nat) : (nubNat l).Nodup ∧ ∀ x, x ∈ nubNat l ↔ x ∈ l := by
  have hfold (a : List Nat) (ha : a.Nodup) : (l.foldl (fun a x => if a.contains x then a else a ++ [x]) a).Nodup ∧
      ∀ x, x ∈ l.foldl (fun a x => if a.contains x then a else a ++ [x]) a ↔ x ∈ a ∨ x ∈ l := by
    induction l generalizing a with
    | nil => exact ⟨ha, fun x => by simp⟩
    | cons y l ih =>
      rw [List.foldl_cons]
      by_cases hy : y ∈ a
      · rw [if_pos (List.contains_iff_mem.mpr hy)]
        obtain ⟨hnodup, hmem⟩ := ih a ha
        refine ⟨hnodup, fun x => (hmem x).trans ?_⟩
        rw [List.mem_cons]
        constructor
        · rintro (h | h)
          · exact .inl h
          · exact .inr (.inr h)
        · rintro (h | rfl | h)
          · exact .inl h
          · exact .inl hy
          · exact .inr h
      · rw [if_neg (mt List.contains_iff_mem.mp hy)]
        obtain ⟨hnodup, hmem⟩ := ih (a ++ [y]) (List.nodup_append.mpr ⟨ha, List.nodup_singleton y, by
          rintro x hx z hz rfl
          exact hy (List.mem_singleton.mp hz ▸ hx)⟩)
        refine ⟨hnodup, fun x => (hmem x).trans ?_⟩
        rw [List.mem_append, List.mem_singleton, List.mem_cons, or_assoc]
  obtain ⟨hnodup, hmem⟩ := hfold [] List.nodup_nil
  exact ⟨hnodup, fun x => (hmem x).trans (by simp)⟩

theorem mem_nubNat {l : List Nat} {x : Nat} : x ∈ nubNat l ↔ x ∈ l := (nubNat_spec l).2 x

/-! ### A missing line arrives (05 R134) -/

section
variable {s : State} {core k row : Nat}

/-- A row of a pack has a line. -/
def hasLine (s : State) (core k row : Nat) : Prop := ∃ x ∈ Tab.get [] s.rf core, x.pack = k ∧ x.row = row

theorem mem_missing {rows : List Nat} {r : Nat} : r ∈ missing s core k rows ↔ r ∈ rows ∧ ¬hasLine s core k r := by
  unfold missing hasLine
  rw [List.mem_filter, Bool.not_eq_true', ← Bool.not_eq_true, List.any_eq_true]
  simp only [Bool.and_eq_true, beq_iff_eq]

/-- The rows of an instruction. -/
def ownRows (s : State) (k : Nat) (i : Instr) : List Nat := (instrRows (s.pack k) i).1 ++ (instrRows (s.pack k) i).2

/-- What a line's arrival does to a pack that can issue an instruction. -/
theorem exec_lineRefill_instr {i : Instr} (hlive : (s.pack k).live = true) (hon : onCore s (s.pack k).crew = true)
    (hi : (nextInstr s k).2 = some i) : exec (.lineRefill k row) s = .next
      (if (missing s (s.coreOf (s.pack k).crew) k (nubNat (ownRows s k i))).contains row then
        bringRows s k (instrRows (s.pack k) i) false false else s) := by
  show execLineRefill k row s = _
  unfold execLineRefill
  simp only [hlive, hon, hi, Bool.and_self]
  exact (apply_ite Host.Outcome.next _ _ _).symm

/-- No line arrives for a pack that issues nothing. -/
theorem exec_lineRefill_none (h : (s.pack k).live = false ∨ onCore s (s.pack k).crew = false ∨ (nextInstr s k).2 = none) :
    exec (.lineRefill k row) s = .next s := by
  show execLineRefill k row s = _
  unfold execLineRefill
  simp only
  split
  · rename_i i hgo hi
    obtain ⟨hlive, hon⟩ := Bool.and_eq_true_iff.mp hgo
    rcases h with h | h | h
    · rw [h] at hlive; cases hlive
    · rw [h] at hon; cases hon
    · rw [h] at hi; cases hi
  · rfl

/-- Nor for a row that the instruction does not need, or that has its line. -/
theorem exec_lineRefill_there {i : Instr} (hi : (nextInstr s k).2 = some i)
    (h : row ∉ ownRows s k i ∨ hasLine s (s.coreOf (s.pack k).crew) k row) : exec (.lineRefill k row) s = .next s := by
  by_cases hgo : (s.pack k).live = true ∧ onCore s (s.pack k).crew = true
  · rw [exec_lineRefill_instr hgo.1 hgo.2 hi, if_neg]
    rw [List.contains_iff_mem, mem_missing, mem_nubNat]
    rintro ⟨hrow, hline⟩
    rcases h with h | h
    · exact h hrow
    · exact hline h
  · refine exec_lineRefill_none ?_
    rw [not_and_or, Bool.not_eq_true, Bool.not_eq_true] at hgo
    exact hgo.imp_right .inl

theorem makeRoom_free {q n : Nat} (h : (freeSector (Tab.get [] s.rf core) q n).isSome = true) (own : List Nat) (m : Nat) :
    makeRoom s core k q n own m = s := by
  cases m with
  | zero => rfl
  | succ m => unfold makeRoom; exact if_pos h

theorem requests_fields (s : State) (pas : List Nat) : ∃ w, pas.foldl (fun s pa => s.request 0 pa) s = { s with waiting := w } := by
  refine foldl_keeps (fun u => ∃ w, u = { s with waiting := w }) _ (fun u pa hu => ?_) pas s ⟨s.waiting, rfl⟩
  obtain ⟨w, rfl⟩ := hu
  exact ⟨_, rfl⟩

/-- What a refill leaves alone; of a row that the image does not hold, the packs too. -/
theorem refill_keeps (s : State) (k row : Nat) : (refill s k row).rf = s.rf ∧ (refill s k row).counters = s.counters ∧
    (refill s k row).mem = s.mem ∧ ((s.pack k).imaged.contains row = false → (refill s k row).packs = s.packs) := by
  unfold refill
  split
  · exact ⟨rfl, rfl, rfl, fun _ => rfl⟩
  · simp only
    split
    · exact ⟨rfl, rfl, rfl, fun _ => rfl⟩
    · rename_i pas _
      obtain ⟨w, hw⟩ := requests_fields s pas
      rw [hw]
      split
      · rename_i himaged
        exact ⟨rfl, rfl, rfl, fun h => absurd (h.symm.trans himaged) (by decide)⟩
      · exact ⟨rfl, rfl, rfl, fun _ => rfl⟩

/-- A row of a pack is refilled and gets its line, where a sector is free. -/
theorem allotLine_free {sec : Nat} {own : List Nat} {refilled : Nat → Bool}
    (hsec : freeSector (Tab.get [] s.rf core) (packQuads (s.pack k)).1 (packQuads (s.pack k)).2 = some sec) (hr : refilled row = true) :
    allotLine own refilled core k s row = (refill s k row).withLines (Tab.upd [] (refill s k row).rf core fun l =>
      ⟨k, row, (packQuads (s.pack k)).1, (packQuads (s.pack k)).2, sec, false⟩ :: l) := by
  unfold allotLine
  simp only [makeRoom_free (k := k) (Option.isSome_of_eq_some hsec), hsec, hr, if_true]
  rfl

/-- The one row without a line. -/
theorem missing_one {i : Instr} (hrow : row ∈ ownRows s k i) (hothers : ∀ r ∈ ownRows s k i, r ≠ row → hasLine s core k r)
    (hline : ¬hasLine s core k row) : missing s core k (nubNat (ownRows s k i)) = [row] := by
  have hnodup : (missing s core k (nubNat (ownRows s k i))).Nodup := (nubNat_spec _).1.filter _
  refine List.perm_singleton.mp ((List.perm_ext_iff_of_nodup hnodup (List.nodup_singleton row)).mpr fun r => ?_)
  rw [mem_missing, mem_nubNat, List.mem_singleton]
  refine ⟨fun ⟨hr, hnone⟩ => ?_, fun h => h ▸ ⟨hrow, hline⟩⟩
  by_contra hne
  exact hnone (hothers r hr hne)

theorem lineRefill_arrives {i : Instr} {sec : Nat} (hlive : (s.pack k).live = true) (hon : onCore s (s.pack k).crew = true)
    (hi : (nextInstr s k).2 = some i) (hrow : row ∈ ownRows s k i)
    (hothers : ∀ r ∈ ownRows s k i, r ≠ row → hasLine s (s.coreOf (s.pack k).crew) k r)
    (hline : ¬hasLine s (s.coreOf (s.pack k).crew) k row)
    (hsec : freeSector (Tab.get [] s.rf (s.coreOf (s.pack k).crew)) (packQuads (s.pack k)).1 (packQuads (s.pack k)).2 = some sec) :
    ∃ s', exec (.lineRefill k row) s = .next s' ∧
      Tab.get [] s'.rf (s.coreOf (s.pack k).crew) = ⟨k, row, (packQuads (s.pack k)).1, (packQuads (s.pack k)).2, sec, false⟩ ::
        Tab.get [] s.rf (s.coreOf (s.pack k).crew) ∧
      s'.counters = s.counters ∧ s'.mem = s.mem ∧ ((s.pack k).imaged.contains row = false → s'.packs = s.packs) := by
  have hnew := missing_one hrow hothers hline
  obtain ⟨hrf, hcounters, hmem, hpacks⟩ := refill_keeps s k row
  have hbring : bringRows s k (instrRows (s.pack k) i) false false = (refill s k row).withLines (Tab.upd [] (refill s k row).rf
      (s.coreOf (s.pack k).crew) fun l => ⟨k, row, (packQuads (s.pack k)).1, (packQuads (s.pack k)).2, sec, false⟩ :: l) := by
    unfold ownRows at hnew
    unfold bringRows
    simp only [hnew, List.isEmpty_cons, Bool.false_eq_true, if_false, List.foldl_cons, List.foldl_nil]
    exact allotLine_free hsec (Bool.or_true _)
  refine ⟨_, exec_lineRefill_instr hlive hon hi, ?_⟩
  rw [hnew, if_pos (by simp), hbring]
  refine ⟨?_, hcounters, hmem, hpacks⟩
  rw [← hrf]
  unfold State.withLines Tab.upd
  rw [Tab.get_set_same]

end

/-! ### A spill drains (05 R140) -/

section
variable {s : State} {core crew : Nat}

/-- Whether a store goes to SPM1. -/
def IStore.toSpm1 (x : IStore) : Bool :=
  match x.loc with
  | .spm1 .. => true
  | _ => false

theorem toSpm1_phys {x : IStore} (h : x.loc.isPhys = true) : x.toSpm1 = false := by
  unfold IStore.toSpm1
  split
  · rename_i hloc; rw [hloc] at h; cases h
  · rfl

/-- The cases of lane stores, those to SPM1 apart (15 R454, R457). -/
theorem issueStores_eq (s : State) (crew : Nat) (l : List IStore) : issueStores s crew l =
    let own := l.filter IStore.toSpm1
    let out := l.filter fun x => !x.toSpm1
    let s := own.foldl (fun s x => noteWriter (writeSpm1 s crew x.loc.off x.bytes x.tag) crew x) s
    if out.isEmpty then .ok s
    else
      let c := s.crew crew
      let now (s' : State) : Except Stop State :=
        (passGates s' c.launch (s.pack ((out.head?.map (·.pack)).getD 0)).lin 0 (storeAdmissions out)).map fun s => performBuffered s out
      if c.lost then (performDue s crew c.isb).bind now
      else if isbRoom < isbUsed s c.core + isbItems out [] then
        (performDue s crew c.isb).bind fun s => now (loseContainment s crew sflagIsbx)
      else .ok (s.modCrew crew fun c => { c with isb := c.isb ++ out }) := by
  have hout : (fun x : IStore => match x.loc with | .spm1 .. => false | _ => true) = fun x => !x.toSpm1 := by
    funext x
    unfold IStore.toSpm1
    cases x.loc <;> rfl
  unfold issueStores
  rw [← hout]
  simp only [decide_eq_true_eq]
  rfl

/-- Some stores join the interval store buffer of a crew. -/
def buffer (s : State) (crew : Nat) (l : List IStore) : State := s.modCrew crew fun c => { c with isb := c.isb ++ l }

/-- Stores to physical memory go to the interval store buffer of a crew that has containment, while it has room. -/
theorem issueStores_buffered {l : List IStore} (hphys : ∀ x ∈ l, x.loc.isPhys = true) (hlost : (s.crew crew).lost = false)
    (hroom : isbUsed s (s.crew crew).core + isbItems l [] ≤ isbRoom) :
    issueStores s crew l = .ok (if l.isEmpty then s else buffer s crew l) := by
  have hown : l.filter IStore.toSpm1 = [] :=
    List.filter_eq_nil_iff.mpr fun x hx => ne_true_of_eq_false (toSpm1_phys (hphys x hx))
  have hout : l.filter (fun x => !x.toSpm1) = l :=
    List.filter_eq_self.mpr fun x hx => by rw [toSpm1_phys (hphys x hx)]; rfl
  rw [issueStores_eq]
  simp only [hown, hout, List.foldl_nil]
  split
  · rfl
  · rw [if_neg (ne_true_of_eq_false hlost), if_neg (Nat.not_lt.mpr hroom)]
    rfl

theorem buffer_isb (s : State) (crew : Nat) (l : List IStore) : ((buffer s crew l).crew crew).isb = (s.crew crew).isb ++ l := by
  unfold buffer State.modCrew
  rw [State.setCrew_crew_same]

theorem spillDrain_buffers {e : Spill} {l : List Spill} (hspill : s.spillsOf core = e :: l) (hphys : ∀ x ∈ e.items, x.2.loc.isPhys = true)
    (hlost : (s.crew (s.pack e.pack).crew).lost = false)
    (hroom : isbUsed s (s.crew (s.pack e.pack).crew).core + isbItems (e.items.map (·.2)).eraseDups [] ≤ isbRoom) :
    ∃ s', exec (.spillDrain core) s = .next s' ∧ s'.spillsOf core = l ∧
      (s'.crew (s.pack e.pack).crew).isb = (s.crew (s.pack e.pack).crew).isb ++ (e.items.map (·.2)).eraseDups ∧
      s'.mem = s.mem ∧ s'.packs = s.packs := by
  have hitems : ∀ x ∈ (e.items.map (·.2)).eraseDups, x.loc.isPhys = true := fun x hx => by
    obtain ⟨y, hy, rfl⟩ := List.mem_map.mp (List.mem_eraseDups.mp hx)
    exact hphys y hy
  have hissue := issueStores_buffered (s := s.setSpills core l) (crew := (s.pack e.pack).crew) hitems hlost hroom
  have hspills : (s.setSpills core l).spillsOf core = l := Tab.get_set_same _ _ _ _
  have hexec : exec (.spillDrain core) s = .next (if ((e.items.map (·.2)).eraseDups).isEmpty then s.setSpills core l else
      buffer (s.setSpills core l) (s.pack e.pack).crew (e.items.map (·.2)).eraseDups) := by
    show execSpillDrain core s = _
    unfold execSpillDrain drainSpill
    simp only [hspill, hissue]
  rw [hexec]
  refine ⟨_, rfl, ?_⟩
  split
  · rename_i hempty
    rw [List.isEmpty_iff.mp hempty, List.append_nil]
    exact ⟨hspills, rfl, rfl, rfl⟩
  · exact ⟨hspills, buffer_isb _ _ _, rfl, rfl⟩

end

end Sys2Proof.Machine

namespace Sys2Proof
open Machine

/-- Settles O44, an event at a time. -/
theorem packEvents : Obligations.PackEvents := by
  unfold Obligations.PackEvents
  refine ⟨fun s k t l h hwait hsel hdef hsent => deferredTrap_delivered h hwait hsel hdef hsent, fun s k hlive hon hwait => ?_,
    fun s k h hlim hclock hidle => watchdog_traps h hlim hclock (isIdle_of hidle), fun s k row => ⟨fun h => ?_, fun hlive hon i sec hi hrow
      hothers hline hsec => lineRefill_arrives hlive hon hi hrow hothers hline hsec⟩,
    fun s core e l hspill hphys hlost hroom => spillDrain_buffers hspill hphys hlost hroom⟩
  · obtain ⟨x, hsel, hleast⟩ := selectSubset_spec (s.pack k)
    exact ⟨exec_issueStarvation hlive hon hwait, selectSubset (s.pack k), x, exec_subsetAgeLimit hlive hon hwait, hsel, hleast⟩
  · rcases h with h | h | h | ⟨i, hi, h⟩
    · exact exec_lineRefill_none (.inl h)
    · exact exec_lineRefill_none (.inr (.inl h))
    · exact exec_lineRefill_none (.inr (.inr h))
    · exact exec_lineRefill_there hi h

end Sys2Proof
end

section
/-! PROOFS. A copy that takes its slot keeps the producer's order (11 R311; 16 R484, R485). -/

namespace Sys2Proof.Machine

theorem denCheck_copies (s : State) (crew : Nat) : (denCheck s crew).copies = s.copies := ((KeepsRows.refl s).denCheck crew).copies
theorem countIssue_copies (s : State) (crew : Nat) : (countIssue s crew).copies = s.copies := rfl
theorem modPack_copies (s : State) (k : Nat) (f : Pack → Pack) : (s.modPack k f).copies = s.copies := rfl

/-- The end of an instruction whose pack goes on leaves the copies in flight. -/
theorem completed_copies {s t : State} {e : Enc} {left : BitVec 64}
    (hu : ∃ u < (t.pack s.cur).width, (packThread (t.pack s.cur) u).exited = false) : (completed s t e left).copies = t.copies := by
  have hgoes : allExited (finishPack (issuing s) (t.pack s.cur) (issuePc s) e.size left) = false :=
    ((SameThreads.refl _).finishPack (issuing s) (issuePc s) e.size left).notEnded hu
  unfold completed finishAt
  simp only [countIssue_pack, State.modPack_pack_same, hgoes, Bool.false_eq_true, if_false]
  rw [denCheck_copies, countIssue_copies, modPack_copies]

/-- cpyq of the descriptor at s16, from y0 into queue 1. -/
def queueCopy : Enc := { Claims.plainEnc 16 0 1 with ext := some Ext.zero }

/-- A pack that may copy one element of 4 bytes from HBM: y0 a capability of 4 KiB with the copy-source permission, s16 to s31 the
descriptor. -/
def queueCopier (p : Pack) : Pack :=
  { wrS (wrS p 16 0x100) 18 1 with y := p.y.set 0 (mkCap 0x20000 0x20000 0x21000 pmCopySrc 0 0) }

/-- One pack at an instruction, the producer of a launch with stream resources. -/
def queueCopyState : State :=
  ((State.reset.withCode []).modLaunch 0 fun l => { l with hdr := { l.hdr with stream := true, prod := 0 } }).modPack 0 queueCopier

theorem queueCopy_issuable : Issuable (.cpyq queueCopy) queueCopyState where
  pack := by decide +kernel
  live := by decide +kernel
  legal := by decide +kernel
  ready := by decide +kernel
  begins := by decide +kernel

/-- The state in which the copy takes its slot. -/
def queueCopyBegun : State :=
  { issued queueCopyState with fresh := queueCopyState.fresh + 1 }.setPack queueCopyState.cur (observeTiles (issuing queueCopyState) [])

/-- The order that the copy of a number keeps after a step. -/
def keptOrder (n : Nat) : Host.Outcome State Fault Refusal → Tab Nat
  | .next t => (t.copyAt n).vc
  | _ => []

/-- The copy keeps the epoch of its producer, pack 0. -/
theorem queueCopy_keptOrder : keptOrder queueCopyState.fresh (exec (.cpyq queueCopy) queueCopyState) = [(0, 1)] := by decide +kernel

end Sys2Proof.Machine

namespace Sys2Proof
open Machine

/-- Refutes O34: a copy that takes its slot keeps its producer's order in every mode, with at least the producer's own epoch, while the
claim has an empty one in its record; here a queue copy of one element, with the order [(0, 1)]. -/
theorem not_copyIssue : ¬ Obligations.CopyIssue := by
  rintro ⟨hissue, -⟩
  obtain ⟨-, -, htakes⟩ := hissue (.cpyq queueCopy) queueCopy (.queue 1 false) none true queueCopyState rfl queueCopy_issuable
    (by decide +kernel) (fun _ => by decide +kernel)
  obtain ⟨-, hslot⟩ := htakes none queueCopyBegun (by decide +kernel) (by decide +kernel) ⟨by decide +kernel, by decide +kernel⟩ rfl
    (by decide +kernel) (by decide +kernel) (if_neg (by decide +kernel)) (by decide +kernel) (by decide +kernel) (by decide +kernel)
  obtain ⟨t, hexec, -, hpacks, hcopy, -⟩ := hslot (by decide +kernel)
  have hgoes : ∃ u < (t.pack queueCopyState.cur).width, (packThread (t.pack queueCopyState.cur) u).exited = false := by
    unfold State.pack
    rw [hpacks]
    exact ⟨0, by decide +kernel, by decide +kernel⟩
  have hkept := queueCopy_keptOrder
  rw [hexec] at hkept
  unfold keptOrder State.copyAt at hkept
  simp only [completed_copies hgoes] at hkept
  unfold State.copyAt at hcopy
  rw [hcopy] at hkept
  cases hkept

end Sys2Proof
end

section
/-! PROOFS. Integer patterns and their numbers (03 R74), and the model's integer operations in exact arithmetic (05 R151 to R158). -/

namespace Sys2Proof.Machine

/-! ### Patterns and numbers (03 R74) -/

section
variable {n a b ty : Nat}

theorem ofI_natCast (n x : Nat) : ofI n (x : Int) = x % 2 ^ n := by
  unfold ofI
  rw [← Int.natCast_emod, Int.toNat_natCast]

theorem ofI_of_lt (h : a < 2 ^ n) : ofI n (a : Int) = a := by rw [ofI_natCast, Nat.mod_eq_of_lt h]

/-- Numbers that agree modulo 2^n have one pattern. -/
theorem ofI_congr {x y : Int} (h : x ≡ y [ZMOD (2 ^ n : Nat)]) : ofI n x = ofI n y := congrArg Int.toNat h

/-- A pattern agrees with its number modulo 2^n. -/
theorem toS_modEq (n a : Nat) : toS n a ≡ a [ZMOD (2 ^ n : Nat)] := by
  unfold toS
  split
  · rw [Int.natCast_mod]
    exact Int.mod_modEq _ _
  · refine (Int.modEq_sub_modulus_iff.mpr ?_).symm
    rw [Int.natCast_mod]
    exact (Int.mod_modEq _ _).symm

theorem num_modEq (ty a : Nat) : Claims.num ty a ≡ a [ZMOD (2 ^ typeBits ty : Nat)] := by
  unfold Claims.num
  split
  · exact toS_modEq _ a
  · exact Int.ModEq.refl _

theorem ofI_toS (h : a < 2 ^ n) : ofI n (toS n a) = a := (ofI_congr (toS_modEq n a)).trans (ofI_of_lt h)

theorem ofI_num (h : a < 2 ^ typeBits ty) : ofI (typeBits ty) (Claims.num ty a) = a := (ofI_congr (num_modEq ty a)).trans (ofI_of_lt h)

/-- Only the pattern 0 has the number 0. -/
theorem num_eq_zero (h : a < 2 ^ typeBits ty) : Claims.num ty a = 0 ↔ a = 0 := by
  have hzero : Claims.num ty 0 = 0 := by
    unfold Claims.num toS
    simp
  exact ⟨fun ha => num_inj h (Nat.two_pow_pos _) (ha.trans hzero.symm), fun ha => ha ▸ hzero⟩

/-- The least number of n bits is that of the pattern 2^(n-1). -/
theorem toS_eq_least (hn : 0 < n) (h : a < 2 ^ n) : toS n a = -((2 ^ (n - 1) : Nat) : Int) ↔ a = 2 ^ (n - 1) := by
  have hpow : 2 ^ n = 2 ^ (n - 1) + 2 ^ (n - 1) := by rw [← Nat.two_mul, Nat.mul_comm, Nat.two_pow_pred_mul_two hn]
  unfold toS
  rw [Nat.mod_eq_of_lt h]
  split <;> omega

theorem toS_range (n a : Nat) : -((2 ^ n : Nat) : Int) ≤ toS n a ∧ toS n a < (2 ^ n : Nat) := by
  have := Nat.mod_lt a (Nat.two_pow_pos n)
  unfold toS
  split <;> omega

theorem bitAt_eq_testBit (a k : Nat) : bitAt a k = a.testBit k := by
  rw [Nat.testBit_eq_decide_div_mod_eq]
  rfl

/-! ### Add and subtract (05 R151) -/

/-- Without saturation a sum or difference wraps, and the carry or borrow out says whether it did. -/
theorem addSub_wraps {cin : Nat} (sub signed : Bool) (hb : b < 2 ^ n) (hc : cin ≤ 1) :
    addSub sub false signed n a b cin =
      (if sub then ofI n ((a : Int) - b - cin) else (a + b + cin) % 2 ^ n,
        if sub then decide (a < b + cin) else decide (2 ^ n ≤ a + b + cin)) := by
  cases sub with
  | false => rfl
  | true =>
    have hsum : ((a + (2 ^ n - 1 - b) + 1 - cin : Nat) : Int) = (a : Int) - b - cin + (2 ^ n : Nat) := by omega
    have hval : (a + (2 ^ n - 1 - b) + 1 - cin) % 2 ^ n = ofI n ((a : Int) - b - cin) := by
      rw [← ofI_natCast, hsum]
      exact ofI_congr (Int.modEq_add_modulus_iff.mpr (Int.ModEq.refl _)).symm
    have hcarry : (!decide (2 ^ n ≤ a + (2 ^ n - 1 - b) + 1 - cin)) = decide (a < b + cin) := by
      rw [← decide_not]
      exact decide_eq_decide.mpr (by omega)
    exact Prod.ext hval hcarry

/-- A sum or difference of the type's numbers, modulo 2^n or with .sat the nearest number of the type. -/
theorem addSub_eq (e : Enc) (sub : Bool) (hb : b < 2 ^ typeBits ty) :
    (addSub sub (encModBit e 0) (typeSigned ty) (typeBits ty) a b 0).1 =
      ofI (typeBits ty) (Claims.satOr e ty (if sub then Claims.num ty a - Claims.num ty b else Claims.num ty a + Claims.num ty b)) := by
  unfold Claims.satOr
  cases hsat : encModBit e 0 with
  | true => rfl
  | false =>
    rw [addSub_wraps sub _ hb (Nat.zero_le 1)]
    cases sub with
    | true => exact ofI_congr (by simpa using (Int.ModEq.sub (num_modEq ty a) (num_modEq ty b)).symm)
    | false =>
      have hsum := ofI_congr (Int.ModEq.add (num_modEq ty a) (num_modEq ty b))
      rw [← Int.natCast_add, ofI_natCast] at hsum
      exact hsum.symm

/-! ### Multiply, divide, minimum, maximum, negation (05 R152 to R154) -/

theorem mulVal_eq (hi : Bool) (ty a b : Nat) :
    mulVal hi ty (typeBits ty) a b = ofI (typeBits ty)
      (if hi then Claims.num ty a * Claims.num ty b / (2 ^ typeBits ty : Nat) else Claims.num ty a * Claims.num ty b) := by
  cases hi with
  | true => rfl
  | false =>
    have hprod := ofI_congr (Int.ModEq.mul (num_modEq ty a) (num_modEq ty b))
    rw [← Int.natCast_mul, ofI_natCast] at hprod
    exact hprod.symm

theorem ofI_neg_one (n : Nat) : ofI n (-1) = 2 ^ n - 1 := by
  have hpow := Nat.two_pow_pos n
  have hlast : ((2 ^ n - 1 : Nat) : Int) = -1 + (2 ^ n : Nat) := by omega
  calc ofI n (-1) = ofI n ((2 ^ n - 1 : Nat) : Int) := by
        rw [hlast]
        exact ofI_congr (Int.modEq_add_modulus_iff.mpr (Int.ModEq.refl _))
    _ = 2 ^ n - 1 := ofI_of_lt (by omega)

theorem divVal_eq (e : Enc) (ha : a < 2 ^ typeBits ty) (hb : b < 2 ^ typeBits ty) :
    divVal (encModBit e 0) ty (typeBits ty) a b = ofI (typeBits ty) (Claims.divide e (Claims.num ty a) (Claims.num ty b)) := by
  unfold divVal Claims.divide
  simp only [num_eq_zero hb]
  by_cases hzero : b = 0
  · simp only [hzero, if_true]
    split
    · exact (ofI_num ha).symm
    · exact (ofI_neg_one _).symm
  · simp only [hzero, if_false]
    split <;> rfl

theorem minVal_eq (ha : a < 2 ^ typeBits ty) (hb : b < 2 ^ typeBits ty) :
    minVal ty (typeBits ty) a b = ofI (typeBits ty) (min (Claims.num ty a) (Claims.num ty b)) := by
  rw [min_def, apply_ite (ofI _), ofI_num ha, ofI_num hb]
  rfl

theorem maxVal_eq (ha : a < 2 ^ typeBits ty) (hb : b < 2 ^ typeBits ty) :
    maxVal ty (typeBits ty) a b = ofI (typeBits ty) (max (Claims.num ty a) (Claims.num ty b)) := by
  rw [max_def, apply_ite (ofI _), ofI_num ha, ofI_num hb]
  rfl

theorem negVal_eq (e : Enc) (ha : a < 2 ^ typeBits ty) :
    negVal (encModBit e 0) (typeBits ty) a = ofI (typeBits ty) (Claims.negate e ty (toS (typeBits ty) a)) := by
  have hpos := (typeBits_widths ty).1
  have hleast : (a == 2 ^ (typeBits ty - 1)) = (toS (typeBits ty) a == -((2 ^ (typeBits ty - 1) : Nat) : Int)) := by
    rw [Bool.eq_iff_iff, beq_iff_eq, beq_iff_eq]
    exact (toS_eq_least hpos ha).symm
  unfold negVal Claims.negate
  simp only [hleast]
  split
  · have hhalf := Nat.two_pow_pos (typeBits ty - 1)
    have hlt : 2 ^ (typeBits ty - 1) < 2 ^ typeBits ty := Nat.pow_lt_pow_right (by omega) (by omega)
    rw [← Nat.cast_pred hhalf, ofI_of_lt (by omega)]
  · have hsub : ((2 ^ typeBits ty - a : Nat) : Int) = -(a : Int) + (2 ^ typeBits ty : Nat) := by omega
    rw [← ofI_natCast, hsub]
    exact ofI_congr ((Int.modEq_add_modulus_iff.mpr (Int.ModEq.refl _)).symm.trans (toS_modEq _ a).neg.symm)

theorem absVal_eq (e : Enc) (ha : a < 2 ^ typeBits ty) :
    absVal (encModBit e 0) (typeBits ty) a = ofI (typeBits ty)
      (if toS (typeBits ty) a < 0 then Claims.negate e ty (toS (typeBits ty) a) else toS (typeBits ty) a) := by
  rw [apply_ite (ofI _), ← negVal_eq e ha, ofI_toS ha]
  rfl

/-! ### Bits (05 R155 to R158) -/

/-- The function of three sources, bit by bit: the row of a bit is below 8, so only the low 8 bits of the table count. -/
theorem tableBits_eq (f a b c n : Nat) : tableBits (f % 256) a b c n = (List.range n).foldl (fun x k =>
    x + if f.testBit (bit (a.testBit k) + 2 * bit (b.testBit k) + 4 * bit (c.testBit k)) then 2 ^ k else 0) 0 := by
  induction n with
  | zero => rfl
  | succ n ih =>
    have hrow : bit (a.testBit n) + 2 * bit (b.testBit n) + 4 * bit (c.testBit n) < 8 := by
      have := bit_le (a.testBit n); have := bit_le (b.testBit n); have := bit_le (c.testBit n)
      omega
    have htable := Nat.testBit_mod_two_pow f 8 (bit (a.testBit n) + 2 * bit (b.testBit n) + 4 * bit (c.testBit n))
    rw [decide_eq_true hrow, Bool.true_and] at htable
    rw [tableBits, ih, List.range_succ, List.foldl_append]
    simp only [bitAt_eq_testBit, List.foldl_cons, List.foldl_nil]
    rw [show f % 256 = f % 2 ^ 8 from rfl, htable]

/-- A shift by at least the width is a shift by the width, of a number of that width. -/
theorem toS_div_two_pow_min (n a k : Nat) : toS n a / (2 ^ min k n : Nat) = toS n a / (2 ^ k : Nat) := by
  by_cases hk : k ≤ n
  · rw [min_eq_left hk]
  · obtain ⟨hlow, hhigh⟩ := toS_range n a
    have hpow : 2 ^ n ≤ 2 ^ k := Nat.pow_le_pow_right (by decide) (by omega)
    have hn := Nat.two_pow_pos n
    rw [min_eq_right (by omega)]
    generalize 2 ^ n = N at *
    generalize 2 ^ k = K at *
    by_cases hneg : toS n a < 0
    · rw [Int.ediv_eq_neg_one_of_neg_of_le hneg (by omega), Int.ediv_eq_neg_one_of_neg_of_le hneg (by omega)]
    · rw [Int.ediv_eq_zero_of_lt (by omega) (by omega), Int.ediv_eq_zero_of_lt (by omega) (by omega)]

/-- The two parts of a rotation stand side by side. -/
theorem rotate_eq {r : Nat} (hr : r ≤ n) (ha : a < 2 ^ n) :
    a * 2 ^ r % 2 ^ n + a / 2 ^ (n - r) = a * 2 ^ r % 2 ^ n ||| a / 2 ^ (n - r) := by
  have hpow : 2 ^ n = 2 ^ r * 2 ^ (n - r) := by rw [← Nat.pow_add, Nat.add_sub_cancel' hr]
  have hlow : a / 2 ^ (n - r) < 2 ^ r := Nat.div_lt_of_lt_mul (by rwa [Nat.mul_comm, ← hpow])
  rw [hpow, Nat.mul_comm a, Nat.mul_mod_mul_left]
  exact Nat.two_pow_add_eq_or_of_lt hlow _

theorem shiftVal_eq (form k : Nat) (hn : 0 < n) (ha : a < 2 ^ n) : shiftVal form n a k = Claims.shifted form n a k := by
  match form with
  | 0 =>
    show (if k < n then a * 2 ^ k % 2 ^ n else 0) = a * 2 ^ k % 2 ^ n
    split
    · rfl
    · rename_i hk
      exact (Nat.mod_eq_zero_of_dvd (Dvd.dvd.mul_left (Nat.pow_dvd_pow 2 (Nat.le_of_not_lt hk)) a)).symm
  | 1 =>
    show (if k < n then a / 2 ^ k else 0) = a / 2 ^ k
    split
    · rfl
    · rename_i hk
      exact (Nat.div_eq_of_lt (ha.trans_le (Nat.pow_le_pow_right (by decide) (Nat.le_of_not_lt hk)))).symm
  | 2 => exact congrArg (ofI n) (toS_div_two_pow_min n a k)
  | _ + 3 =>
    show a * 2 ^ (k % n) % 2 ^ n + a / 2 ^ (n - k % n) = ((BitVec.ofNat n a).rotateLeft k).toNat
    rw [BitVec.toNat_rotateLeft, BitVec.toNat_ofNat, Nat.mod_eq_of_lt ha, Nat.shiftLeft_eq, Nat.shiftRight_eq_div_pow]
    exact rotate_eq (Nat.mod_lt k hn).le ha

theorem fieldSpec_eq (c : Ctx) (p : Pack) (j : Job) : fieldSpec c p j = Claims.fieldAt c.e p j := by
  unfold fieldSpec Claims.fieldAt bits
  simp only [Nat.pow_zero, Nat.div_one]
  rfl

/-- The clipped length of a field (R157). -/
theorem fieldWidth_eq (n pos len : Nat) : fieldWidth n pos len = Claims.clipped n (pos, len) := by
  unfold fieldWidth Claims.clipped
  simp only [Bool.or_eq_true, decide_eq_true_eq]
  split <;> omega

/-- A field read is below its width, so that only its sign is left to extend. -/
theorem extract_eq (signed : Bool) (n a : Nat) (f : Nat × Nat) :
    (if Claims.clipped n f = 0 then 0
      else if signed then ofI n (toS (Claims.clipped n f) (bits a f.1 (Claims.clipped n f))) else bits a f.1 (Claims.clipped n f)) =
    ofI n (if Claims.clipped n f = 0 then 0
      else if signed then toS (Claims.clipped n f) (bits a f.1 (Claims.clipped n f)) else (bits a f.1 (Claims.clipped n f) : Nat)) := by
  have hwidth : Claims.clipped n f ≤ n := by
    unfold Claims.clipped
    omega
  have hlt : bits a f.1 (Claims.clipped n f) < 2 ^ n :=
    (Nat.mod_lt _ (Nat.two_pow_pos _)).trans_le (Nat.pow_le_pow_right (by decide) hwidth)
  rw [apply_ite (ofI n), apply_ite (ofI n), ofI_of_lt hlt]
  split
  · exact (ofI_of_lt (Nat.two_pow_pos n)).symm
  · rfl

/-- A number around a field of it. -/
theorem around_field (a pos w : Nat) : a / 2 ^ (pos + w) * 2 ^ (pos + w) + bits a pos w * 2 ^ pos + a % 2 ^ pos = a := by
  have hlow := Nat.div_add_mod a (2 ^ pos)
  have hhigh := Nat.div_add_mod (a / 2 ^ pos) (2 ^ w)
  rw [Nat.div_div_eq_div_mul, ← Nat.pow_add] at hhigh
  unfold bits
  calc a / 2 ^ (pos + w) * 2 ^ (pos + w) + a / 2 ^ pos % 2 ^ w * 2 ^ pos + a % 2 ^ pos
      = 2 ^ pos * (2 ^ w * (a / 2 ^ (pos + w)) + a / 2 ^ pos % 2 ^ w) + a % 2 ^ pos := by rw [Nat.pow_add]; ring
    _ = a := by rw [hhigh, hlow]

/-- An insertion keeps what stands above and below the field. -/
theorem insert_eq (a b pos w : Nat) : (if w = 0 then a else a - bits a pos w * 2 ^ pos + b % 2 ^ w * 2 ^ pos) =
    a / 2 ^ (pos + w) * 2 ^ (pos + w) + b % 2 ^ w * 2 ^ pos + a % 2 ^ pos := by
  have hsplit := around_field a pos w
  split
  · rename_i hw
    subst hw
    simpa only [bits, Nat.pow_zero, Nat.mod_one] using hsplit.symm
  · omega

theorem popcount_eq (a n : Nat) : popcount a n = (List.range n).countP a.testBit := by
  induction n with
  | zero => rfl
  | succ n ih =>
    rw [popcount, ih, List.range_succ, List.countP_append, List.countP_singleton, bitAt_eq_testBit]
    rfl

theorem clzVal_eq (n a : Nat) : clzVal n a = n - Nat.size a := by
  unfold clzVal
  split
  · rename_i h
    rw [h]
    rfl
  · rename_i h
    have hsize : Nat.size a = Nat.log2 a + 1 :=
      le_antisymm (Nat.size_le.mpr ((Nat.log2_lt h).mp (Nat.lt_succ_self _))) (Nat.lt_size.mpr (Nat.log2_self_le h))
    omega

theorem reverse_succ (n a : Nat) : (BitVec.ofNat (n + 1) a).reverse.toNat = 2 * (BitVec.ofNat n a).reverse.toNat + bit (a.testBit n) := by
  have hmsb : (BitVec.ofNat (n + 1) a).msb = a.testBit n := by
    rw [BitVec.msb_eq_getLsbD_last, BitVec.getLsbD_ofNat]
    simp
  rw [BitVec.reverse, BitVec.toNat_concat, BitVec.truncate_eq_setWidth, BitVec.setWidth_ofNat_of_le (Nat.le_succ n), hmsb, Nat.mul_comm]
  cases a.testBit n <;> rfl

/-- The bits moved so far stand at the top, in reversed order. -/
theorem revBits_upto (a : Nat) {n m : Nat} (h : m ≤ n) :
    (List.range m).foldl (fun x k => if bitAt a k then x + 2 ^ (n - 1 - k) else x) 0 = 2 ^ (n - m) * (BitVec.ofNat m a).reverse.toNat := by
  induction m with
  | zero => rw [BitVec.eq_nil (BitVec.ofNat 0 a).reverse]; rfl
  | succ m ih =>
    have hpow : 2 ^ (n - m) = 2 * 2 ^ (n - (m + 1)) := by rw [← Nat.pow_succ', show (n - (m + 1)).succ = n - m by omega]
    rw [List.range_succ, List.foldl_append, ih (by omega), reverse_succ, hpow, show n - (m + 1) = n - 1 - m by omega]
    simp only [List.foldl_cons, List.foldl_nil, bitAt_eq_testBit, bit]
    split <;> ring

theorem revBits_eq (n a : Nat) : revBits n a = (BitVec.ofNat n a).reverse.toNat := by
  rw [revBits, revBits_upto a le_rfl, Nat.sub_self, Nat.pow_zero, Nat.one_mul]

end

end Sys2Proof.Machine
end

section
/-! PROOFS. Each integer lane instruction but for the carry forms completes with the row of the claim (05 R149 to R161; 08 R250). -/

namespace Sys2Proof.Machine

/-! ### The type of a legal instruction (05 R145) -/

/-- A legal instruction of a form with registers has its default type or one that its row accepts. -/
theorem legal_type {w o : Nat} {i : Instr} {e : Enc} {r : Row} (d : Nat) (h : illopSub w i = none) (ho : opcodeOf i = some (o, e))
    (hr : rowOf w i = some r) (hf : r.form = .rr ∨ r.form = .ri ∨ r.form = .xe) : encTy e d = d ∨ encTy e d ∈ r.types := by
  have hsubs := legal_row h ho hr
  unfold rowSubs at hsubs
  have hreg : (decide (r.form = .rr) || decide (r.form = .ri) || decide (r.form = .xe) || decide (r.form = .mm)) = true := by
    rcases hf with h | h | h <;> simp [h]
  simp only [hreg, if_true, List.append_eq_nil_iff, sub_nil] at hsubs
  have htype : (if (encX e).t = 0 then !r.dflt else !r.types.contains (encX e).t.toNat) = false := by tauto
  unfold encTy
  split
  · exact .inl rfl
  · rename_i ht
    rw [if_neg ht, Bool.not_eq_false', List.contains_iff_mem] at htype
    exact .inr htype

/-- The bit-pattern types are unsigned. -/
theorem bits_unsigned {ty : Nat} (h : ty = 9 ∨ ty ∈ tBits) : typeSigned ty = false := by
  have hty : ty = 9 ∨ ty = 10 := by simpa [tBits] using h
  rcases hty with rfl | rfl <;> rfl

/-- The checks of R57 take the width of lea's destination from its type: 64 bits, that of its result, for both types that it accepts. -/
theorem leaType_bits {ty : Nat} (h : ty = 8 ∨ ty ∈ [8, 4]) : typeBits ty = 64 := by
  have hty : ty = 8 ∨ ty = 4 := by simpa using h
  rcases hty with rfl | rfl <;> rfl

/-! ### Instructions of one and two operands -/

section
variable {i : Instr} {e : Enc} {s : State} {r : Claims.LaneRow}

/-- A body without flags whose values are the row's. -/
theorem laneInt_result (h : Issuable i s) {f : Ctx → Pack → Except Trap Pack} {n : Nat} {signed : Bool} {v : Job → Nat}
    {g : Pack → Job → Nat} (hexec : exec i s = issue i e (onPack f) s)
    (hf : f (issueCtx s e) (issuing s) = laneInt (issueCtx s e) n signed v (issuing s)) (hv : ∀ j, v j = g (issuing s) j)
    (hfit : (encX e).kd = false → BlockFits e n) :
    Claims.LaneResult i e ⟨n, signed, 0, fun p j _ => (g p j, 0)⟩ s :=
  have hrun : RunsRow i e ⟨n, signed, 0, fun p j _ => (g p j, 0)⟩ s :=
    ⟨⟨f, hexec, hf.trans (laneOp_congr fun j _ _ => congrArg (·, (0 : Fl)) (hv j))⟩, hfit⟩
  hrun.result_noFlags h fun _ _ _ => rfl

/-- A two-source body whose result is that of the operands' numbers. -/
theorem intOp2_result (h : Issuable i s) {f : Ctx → Pack → Except Trap Pack} {src : Enc → Src}
    {b : Enc → Nat → Pack → Job → Nat} {v : Nat → Nat → Nat → Nat → Nat} {g : Nat → Int → Int → Int} (hexec : exec i s = issue i e (onPack f) s)
    (hf : f (issueCtx s e) (issuing s) = intOp2 src 3 v (issueCtx s e) (issuing s))
    (hb : b = fun e n p j => rdSrc p (src e) n j.t j.i j.j)
    (hv : ∀ x y, x < 2 ^ typeBits (encTy e 3) → y < 2 ^ typeBits (encTy e 3) → v (encTy e 3) (typeBits (encTy e 3)) x y =
      ofI (typeBits (encTy e 3)) (g (encTy e 3) (Claims.num (encTy e 3) x) (Claims.num (encTy e 3) y)))
    (hfit : (encX e).kd = false → BlockFits e (typeBits (encTy e 3))) :
    Claims.LaneResult i e (Claims.intRow e 3 fun ty p j => Claims.two e b (g ty) ty p j) s := by
  subst hb
  exact laneInt_result h hexec hf (fun j => hv _ _ (rdSrc_lt _ _ _ _ _ _) (rdSrc_lt _ _ _ _ _ _)) hfit

/-- A one-source body over a type's element. -/
theorem intOp1_result (h : Issuable i s) {f : Ctx → Pack → Except Trap Pack} {d : Nat} {m : Nat → Nat}
    {v : Nat → Nat → Nat → Nat} {signed : Bool} {g : Nat → Nat} (hexec : exec i s = issue i e (onPack f) s)
    (hf : f (issueCtx s e) (issuing s) = intOp1 d m v (issueCtx s e) (issuing s)) (hsigned : typeSigned (encTy e d) = signed)
    (hv : ∀ x < 2 ^ typeBits (encTy e d), v (encTy e d) (typeBits (encTy e d)) x = g x)
    (hfit : (encX e).kd = false → BlockFits e (m (typeBits (encTy e d)))) :
    Claims.LaneResult i e ⟨m (typeBits (encTy e d)), signed, 0, fun p j _ => (g (Claims.opA e (typeBits (encTy e d)) p j), 0)⟩ s := by
  subst hsigned
  exact laneInt_result h hexec hf (fun j => hv _ (rdSrc_lt _ _ _ _ _ _)) hfit

/-! ### Add and subtract without carries (05 R151) -/

/-- The body of iadd and isub is that of a two-source instruction where no carry form is named. -/
theorem addBody_plain (sub : Bool) (b : Enc → Src) (c : Ctx) (p : Pack) (hm : ¬1 < encMod c.e) :
    addBody sub b c p = intOp2 b 3 (fun ty n x y => (addSub sub (encModBit c.e 0) (typeSigned ty) n x y 0).1) c p := by
  have hform : encMod c.e / 2 = 0 := by omega
  unfold addBody intOp2
  simp only [hform]
  show (match laneInt c _ _ _ p with
    | .error t => .error t
    | .ok q => .ok q) = laneInt c _ _ _ p
  split
  · rename_i h; exact h.symm
  · rename_i h; exact h.symm

/-- iadd and isub in their plain and saturating forms. -/
theorem addBody_result {e' : Enc} {o : Nat} {form : Form} {src : Enc → Src} {b : Enc → Nat → Pack → Job → Nat} (sub : Bool)
    (h : Issuable i s) (ho : opcodeOf i = some (o, e)) (hrow : rowOf (s.pack s.cur).width i = some (rowIadd e form))
    (hform : form = .rr ∨ form = .ri) (hexec : exec i s = issue i e (onPack (addBody sub src)) s)
    (hb : b = fun e n p j => rdSrc p (src e) n j.t j.i j.j)
    (hr : (if 1 < encMod e then none else some (e, Claims.intRow e 3 fun ty p j =>
      Claims.satOr e ty (Claims.two e b (fun x y => if sub then x - y else x + y) ty p j))) = some (e', r)) :
    Claims.LaneResult i e' r s := by
  split at hr
  · cases hr
  · rename_i hm
    cases hr
    exact intOp2_result h (g := fun ty x y => Claims.satOr e ty (if sub then x - y else x + y)) hexec (addBody_plain sub src _ _ hm) hb
      (fun _ _ _ hy => addSub_eq e sub hy) (legal_fits h.legal ho hrow (.inl rfl) (hform.imp_right .inl))

/-! ### Absolute value and negation (05 R154) -/

theorem iabs_result (h : Issuable (.iabs e) s) (hr : Claims.integerRow (.iabs e) = some (e, r)) : Claims.LaneResult (.iabs e) e r s := by
  cases hr
  exact intOp1_result h (d := 3) (m := id) (v := fun _ => absVal (encModBit e 0)) (g := fun x =>
    ofI (typeBits (encTy e 3)) (if toS (typeBits (encTy e 3)) x < 0 then Claims.negate e (encTy e 3) (toS (typeBits (encTy e 3)) x)
      else toS (typeBits (encTy e 3)) x)) rfl rfl rfl (fun _ => absVal_eq e)
    (legal_fits h.legal rfl rfl (.inl rfl) (.inl rfl))

theorem ineg_result (h : Issuable (.ineg e) s) (hr : Claims.integerRow (.ineg e) = some (e, r)) : Claims.LaneResult (.ineg e) e r s := by
  cases hr
  exact intOp1_result h (d := 3) (m := id) (v := fun _ => negVal (encModBit e 0)) (g := fun x =>
    ofI (typeBits (encTy e 3)) (Claims.negate e (encTy e 3) (toS (typeBits (encTy e 3)) x))) rfl rfl rfl (fun _ => negVal_eq e)
    (legal_fits h.legal rfl rfl (.inl rfl) (.inl rfl))

/-! ### Bits (05 R155 to R158) -/

theorem bfn_result (h : Issuable (.bfn e) s) (hr : Claims.integerRow (.bfn e) = some (e, r)) : Claims.LaneResult (.bfn e) e r s := by
  cases hr
  exact laneInt_result h (f := bfnBody) rfl rfl (fun j => tableBits_eq _ _ _ _ _) (legal_fits h.legal rfl rfl (.inl rfl) (.inr (.inr rfl)))

theorem shf_result (h : Issuable (.shf e) s) (hr : Claims.integerRow (.shf e) = some (e, r)) : Claims.LaneResult (.shf e) e r s := by
  cases hr
  exact laneInt_result h (f := shfBody srcB) rfl rfl (fun j => shiftVal_eq _ _ (typeBits_widths _).1 (rdSrc_lt _ _ _ _ _ _))
    (legal_fits h.legal rfl rfl (.inl rfl) (.inl rfl))

theorem shfImm_result (h : Issuable (.shfImm e) s) (hr : Claims.integerRow (.shfImm e) = some (e, r)) :
    Claims.LaneResult (.shfImm e) e r s := by
  cases hr
  refine laneInt_result h (f := shfBody srcImmZ) rfl rfl (fun j => ?_) (legal_fits h.legal rfl rfl (.inl rfl) (.inr (.inl rfl)))
  have hamount : rdSrc (issuing s) (srcImmZ e) 32 j.t j.i j.j = e.b.toNat := ofI_of_lt (e.b.isLt.trans (by decide))
  exact (congrArg _ hamount).trans (shiftVal_eq _ _ (typeBits_widths _).1 (rdSrc_lt _ _ _ _ _ _))

theorem bfx_result (h : Issuable (.bfx e) s) (hr : Claims.integerRow (.bfx e) = some (e, r)) : Claims.LaneResult (.bfx e) e r s := by
  cases hr
  refine laneInt_result h (f := bfxBody) rfl rfl (fun j => ?_) (legal_fits h.legal rfl rfl (.inl rfl) (.inr (.inr rfl)))
  simp only [fieldSpec_eq, fieldWidth_eq]
  exact extract_eq (typeSigned (encTy e 3)) (typeBits (encTy e 3)) (Claims.opA e (typeBits (encTy e 3)) (issuing s) j)
    (Claims.fieldAt e (issuing s) j)

theorem bfi_result (h : Issuable (.bfi e) s) (hr : Claims.integerRow (.bfi e) = some (e, r)) : Claims.LaneResult (.bfi e) e r s := by
  cases hr
  refine laneInt_result h (f := bfiBody) rfl rfl (fun j => ?_) (legal_fits h.legal rfl rfl (.inl rfl) (.inr (.inr rfl)))
  simp only [fieldSpec_eq, fieldWidth_eq]
  exact insert_eq (Claims.opA e (typeBits (encTy e 9)) (issuing s) j) (Claims.opB e (typeBits (encTy e 9)) (issuing s) j)
    (Claims.fieldAt e (issuing s) j).1 _

theorem popc_result (h : Issuable (.popc e) s) (hr : Claims.integerRow (.popc e) = some (e, r)) : Claims.LaneResult (.popc e) e r s := by
  cases hr
  exact intOp1_result h (m := fun _ => 32) (v := fun _ n a => popcount a n) rfl rfl
    (bits_unsigned (legal_type 9 h.legal rfl rfl (.inl rfl))) (fun _ _ => popcount_eq _ _) (legal_fits h.legal rfl rfl (.inl rfl) (.inl rfl))

theorem clz_result (h : Issuable (.clz e) s) (hr : Claims.integerRow (.clz e) = some (e, r)) : Claims.LaneResult (.clz e) e r s := by
  cases hr
  exact intOp1_result h (m := fun _ => 32) (v := fun _ => clzVal) rfl rfl (bits_unsigned (legal_type 9 h.legal rfl rfl (.inl rfl)))
    (fun _ _ => clzVal_eq _ _) (legal_fits h.legal rfl rfl (.inl rfl) (.inl rfl))

theorem brev_result (h : Issuable (.brev e) s) (hr : Claims.integerRow (.brev e) = some (e, r)) : Claims.LaneResult (.brev e) e r s := by
  cases hr
  exact intOp1_result h (m := id) (v := fun _ => revBits) rfl rfl (bits_unsigned (legal_type 9 h.legal rfl rfl (.inl rfl)))
    (fun _ _ => revBits_eq _ _) (legal_fits h.legal rfl rfl (.inl rfl) (.inl rfl))

/-! ### Addresses (05 R161) -/

theorem lea_result (h : Issuable (.lea e) s) (hr : Claims.integerRow (.lea e) = some (e, r)) : Claims.LaneResult (.lea e) e r s := by
  cases hr
  have hwidth := leaType_bits (legal_type 8 h.legal rfl rfl (.inl rfl))
  exact laneInt_result h rfl rfl (fun _ => rfl) (legal_fits h.legal rfl rfl (.inl (congrArg Fld.vec hwidth)) (.inl rfl))

theorem leaImm_result (h : Issuable (.leaImm e) s) (hr : Claims.integerRow (.leaImm e) = some (e, r)) :
    Claims.LaneResult (.leaImm e) e r s := by
  cases hr
  have hwidth := leaType_bits (legal_type 8 h.legal rfl rfl (.inr (.inl rfl)))
  exact laneInt_result h rfl rfl (fun _ => rfl) (legal_fits h.legal rfl rfl (.inl (congrArg Fld.vec hwidth)) (.inr (.inl rfl)))

/-! ### All of them -/

/-- Every integer lane instruction completes with its row. -/
theorem integerRow_result (hr : Claims.integerRow i = some (e, r)) (h : Issuable i s) : Claims.LaneResult i e r s := by
  have hr' := hr
  unfold Claims.integerRow at hr'
  split at hr'
  next => cases hr'; exact laneInt_result h rfl rfl (fun _ => rfl) (legal_fits h.legal rfl rfl (.inl rfl) (.inl rfl))
  next => cases hr'; exact laneInt_result h rfl rfl (fun _ => rfl) (legal_fits h.legal rfl rfl (.inl rfl) (.inr (.inl rfl)))
  next => exact addBody_result false h rfl rfl (.inl rfl) rfl rfl hr'
  next => exact addBody_result false h rfl rfl (.inr rfl) rfl rfl hr'
  next => exact addBody_result true h rfl rfl (.inl rfl) rfl rfl hr'
  next => exact addBody_result true h rfl rfl (.inr rfl) rfl rfl hr'
  next =>
    cases hr'
    exact intOp2_result h rfl rfl rfl (fun _ _ _ _ => mulVal_eq _ _ _ _) (legal_fits h.legal rfl rfl (.inl rfl) (.inl rfl))
  next =>
    cases hr'
    exact intOp2_result h rfl rfl rfl (fun _ _ _ _ => mulVal_eq _ _ _ _) (legal_fits h.legal rfl rfl (.inl rfl) (.inr (.inl rfl)))
  next => cases hr'; exact laneInt_result h rfl rfl (fun _ => rfl) (legal_fits h.legal rfl rfl (.inl rfl) (.inr (.inr rfl)))
  next =>
    cases hr'
    exact intOp2_result h (g := fun _ => Claims.divide e) rfl rfl rfl (fun _ _ => divVal_eq e)
      (legal_fits h.legal rfl rfl (.inl rfl) (.inl rfl))
  next =>
    cases hr'
    exact intOp2_result h (g := fun _ => min) rfl rfl rfl (fun _ _ => minVal_eq) (legal_fits h.legal rfl rfl (.inl rfl) (.inl rfl))
  next =>
    cases hr'
    exact intOp2_result h (g := fun _ => min) rfl rfl rfl (fun _ _ => minVal_eq) (legal_fits h.legal rfl rfl (.inl rfl) (.inr (.inl rfl)))
  next =>
    cases hr'
    exact intOp2_result h (g := fun _ => max) rfl rfl rfl (fun _ _ => maxVal_eq) (legal_fits h.legal rfl rfl (.inl rfl) (.inl rfl))
  next =>
    cases hr'
    exact intOp2_result h (g := fun _ => max) rfl rfl rfl (fun _ _ => maxVal_eq) (legal_fits h.legal rfl rfl (.inl rfl) (.inr (.inl rfl)))
  next => cases hr'; exact iabs_result h hr
  next => cases hr'; exact ineg_result h hr
  next => cases hr'; exact bfn_result h hr
  next => cases hr'; exact shf_result h hr
  next => cases hr'; exact shfImm_result h hr
  next => cases hr'; exact bfx_result h hr
  next => cases hr'; exact bfi_result h hr
  next => cases hr'; exact popc_result h hr
  next => cases hr'; exact clz_result h hr
  next => cases hr'; exact brev_result h hr
  next => cases hr'; exact laneInt_result h rfl rfl (fun _ => rfl) (legal_fits h.legal rfl rfl (.inl rfl) (.inr (.inr rfl)))
  next => cases hr'; exact lea_result h hr
  next => cases hr'; exact leaImm_result h hr
  next => cases hr'; exact laneInt_result h rfl rfl (fun _ => rfl) (legal_fits h.legal rfl rfl (.inl rfl) (.inl rfl))
  next => cases hr'

end

end Sys2Proof.Machine
end

section
/-! PROOFS. The carry forms of iadd and isub: the lane operation writes the sums, and then each thread's predicate the carry out
(05 R151). -/

namespace Sys2Proof.Machine

/-- Predicates written in several threads, each of them once. -/
theorem wrPreds_done {d : Nat} {f : Nat → Bool} {l : List Nat} (hn : l.Nodup) (p : Pack) : PredDone d l f p (wrPreds d f l p) where
  result _ ht hlt hd h7 := rdP_wrPreds_mem hn ht hlt hd h7
  others _ _ h := rdP_wrPreds_other h
  threads u := congrArg (fun t : Thread => { t with fflags := 0 }) (wrPreds_sansP u)
  rest := by
    obtain ⟨ths, h⟩ := wrPreds_threads (d := d) (f := f) (l := l) (p := p)
    rw [h]
    rfl

section
variable {i : Instr} {e : Enc} {s : State} {p : Pack} {c : Ctx}

/-- The sum or difference that a carry form has in a thread, and the carry or borrow out: .ci takes a carry in from pC. -/
def carrySum (sub : Bool) (e : Enc) (b : Enc → Nat → Pack → Job → Nat) (p : Pack) (t : Nat) : Nat × Bool :=
  let n := typeBits (encTy e 3)
  let x := Claims.opA e n p ⟨t, 0, 0⟩
  let y := b e n p ⟨t, 0, 0⟩
  let cin : Nat := if encMod e = 4 ∧ rdP p (encC e) t then 1 else 0
  (if sub then ofI n ((x : Int) - y - cin) else (x + y + cin) % 2 ^ n, if sub then decide (x < y + cin) else decide (2 ^ n ≤ x + y + cin))

/-- A legal carry form is .co or .ci, and has one element in each thread. -/
theorem carry_fields {w o : Nat} {form : Form} (h : illopSub w i = none) (ho : opcodeOf i = some (o, e))
    (hr : rowOf w i = some (rowIadd e form)) (hf : form = .rr ∨ form = .ri) (hm : 1 < encMod e) :
    (encMod e = 2 ∨ encMod e = 4) ∧ blockElems e = [(0, 0)] := by
  have hform : (rowIadd e form).form = .rr ∨ (rowIadd e form).form = .ri ∨ (rowIadd e form).form = .xe := hf.imp_right .inl
  obtain ⟨-, -, -, hok⟩ := legal_fields h ho hr hform
  have hmod : encMod e = 2 ∨ encMod e = 4 := by
    simp only [rowIadd, Bool.or_eq_true, decide_eq_true_eq, beq_iff_eq] at hok
    omega
  refine ⟨hmod, legal_single h ho hr ?_ hform⟩
  rcases hmod with hmod | hmod <;> simp [rowIadd, hmod]

/-- What the model's add and subtract give a thread under a carry form. -/
theorem addSub_carry (sub : Bool) {src : Enc → Src} {b : Enc → Nat → Pack → Job → Nat}
    (hb : b = fun e n p j => rdSrc p (src e) n j.t j.i j.j) (hm : encMod e = 2 ∨ encMod e = 4) (t : Nat) :
    addSub sub (bitAt (encMod e) 0) (typeSigned (encTy e 3)) (typeBits (encTy e 3)) (rdSrc p (srcA e) (typeBits (encTy e 3)) t 0 0)
      (rdSrc p (src e) (typeBits (encTy e 3)) t 0 0) (if encMod e / 2 % 4 == 2 && rdP p (encC e) t then 1 else 0) =
    carrySum sub e b p t := by
  have hsat : bitAt (encMod e) 0 = false := by rcases hm with hm | hm <;> rw [hm] <;> rfl
  have hin : (if encMod e / 2 % 4 == 2 && rdP p (encC e) t then 1 else 0) = if encMod e = 4 ∧ rdP p (encC e) t then 1 else 0 := by
    rcases hm with hm | hm <;> simp [hm]
  rw [hsat, hin]
  subst hb
  exact addSub_wraps sub _ (rdSrc_lt _ _ _ _ _ _) (by split <;> decide)

/-- The body of a carry form: the lane operation on the sums, and then the carries. -/
theorem addBody_carry (sub : Bool) {src : Enc → Src} {b : Enc → Nat → Pack → Job → Nat} {q : Pack}
    (hb : b = fun e n p j => rdSrc p (src e) n j.t j.i j.j) (hm : encMod c.e = 2 ∨ encMod c.e = 4) (hone : blockElems c.e = [(0, 0)])
    (hq : laneInt c (typeBits (encTy c.e 3)) (typeSigned (encTy c.e 3)) (fun j => (carrySum sub c.e b p j.t).1) p = .ok q) :
    addBody sub src c p = .ok (wrPreds (encC c.e) (fun t => (carrySum sub c.e b p t).2) (lanesOf c.m p.width) q) := by
  have hsum := addSub_carry (p := p) sub hb hm
  have hform : (encMod c.e / 2 % 4 == 1 || encMod c.e / 2 % 4 == 2) = true := by
    rcases hm with hm | hm <;> simp [hm]
  have hlane : laneInt c (typeBits (encTy c.e 3)) (typeSigned (encTy c.e 3)) (fun j =>
      (addSub sub (bitAt (encMod c.e) 0) (typeSigned (encTy c.e 3)) (typeBits (encTy c.e 3))
        (rdSrc p (srcA c.e) (typeBits (encTy c.e 3)) j.t j.i j.j) (rdSrc p (src c.e) (typeBits (encTy c.e 3)) j.t j.i j.j)
        (if encMod c.e / 2 % 4 == 2 && rdP p (encC c.e) j.t then 1 else 0)).1) p = .ok q := by
    refine (laneOp_congr fun j hj _ => ?_).trans hq
    obtain ⟨t, rfl⟩ := jobsOf_anchor hone hj
    exact congrArg (fun x => (x.1, (0 : Fl))) (hsum t)
  unfold addBody
  simp only [hform, hlane, hsum, if_true]
  rw [List.foldl_map]
  rfl

/-- A carry form completes with its sums and its carries. -/
theorem addBody_carry_done {o : Nat} {form : Form} {src : Enc → Src} {b : Enc → Nat → Pack → Job → Nat} (sub : Bool)
    (h : Issuable i s) (ho : opcodeOf i = some (o, e)) (hrow : rowOf (s.pack s.cur).width i = some (rowIadd e form))
    (hform : form = .rr ∨ form = .ri) (hexec : exec i s = issue i e (onPack (addBody sub src)) s)
    (hb : b = fun e n p j => rdSrc p (src e) n j.t j.i j.j) (hm : 1 < encMod e) :
    ∃ p1 q, exec i s = .next (completedPack s q e 0) ∧
      LaneDone (issueCtx s e) (typeBits (encTy e 3)) (typeSigned (encTy e 3)) 0 (fun j _ => ((carrySum sub e b (issuing s) j.t).1, 0))
        (issuing s) p1 ∧
      PredDone (encC e) (lanesOf (issueMask s e) (issuing s).width) (fun t => (carrySum sub e b (issuing s) t).2) p1 q := by
  obtain ⟨hmod, hone⟩ := carry_fields h.legal ho hrow hform hm
  obtain ⟨p1, hp1⟩ := laneOp_quiet (c := issueCtx s e) (n := typeBits (encTy e 3)) (signed := typeSigned (encTy e 3)) (d := 0)
    (f := fun j _ => ((carrySum sub e b (issuing s) j.t).1, 0)) (p := issuing s)
    fun u _ => by rw [laneFlags_zero fun _ _ => rfl]; exact BitVec.zero_and
  have hlane := laneOp_done _ _ _ _ _ _ _ (legal_fits h.legal ho hrow (.inl rfl) (hform.imp_right .inl)) hp1
  obtain ⟨ths, hths⟩ := wrPreds_threads (d := encC e) (f := fun t => (carrySum sub e b (issuing s) t).2)
    (l := lanesOf (issueMask s e) (issuing s).width) (p := p1)
  refine ⟨p1, _, hexec.trans (issue_onPack_done h (addBody_carry sub hb hmod hone hp1) ?_ ?_), hlane,
    wrPreds_done (lanesOf_nodup _ _) p1⟩
  · exact (congrArg Pack.launch hths).trans (hlane.launch.trans (issuing_launch s))
  · exact (congrArg Pack.lin hths).trans (hlane.lin.trans (issuing_lin s))

end

end Sys2Proof.Machine

namespace Sys2Proof
open Machine

theorem carryForms_claim : Claims.CarryForms := by
  intro i e subtract b s hi hm h
  rcases hi with ⟨rfl, rfl, rfl⟩ | ⟨rfl, rfl, rfl⟩ | ⟨rfl, rfl, rfl⟩ | ⟨rfl, rfl, rfl⟩
  · exact addBody_carry_done false h rfl rfl (.inl rfl) rfl rfl hm
  · exact addBody_carry_done false h rfl rfl (.inr rfl) rfl rfl hm
  · exact addBody_carry_done true h rfl rfl (.inl rfl) rfl rfl hm
  · exact addBody_carry_done true h rfl rfl (.inr rfl) rfl rfl hm

/-- Settles O1: each instruction runs the lane operation of its row, whose values come from the operands' numbers, and a carry form then
writes its carries. -/
theorem integerLanes : Obligations.IntegerLanes := ⟨fun _ _ _ _ => integerRow_result, carryForms_claim⟩

end Sys2Proof
end

section
/-! PROOFS. The floating-point lane instructions: each runs the lane operation of its row, which completes, or traps FPE where a thread
raises an enabled flag (06 R170, R175 to R184). -/

namespace Sys2Proof.Machine

/-! ### Traps of enabled flags (06 R170) -/

/-- The FPE trap of threads that raise the flags `fl`: the enabled flags raised, all flags of the threads that raise one, and those
threads. -/
def flagTrap (p : Pack) (l : List Nat) (fl : Nat → Fl) : Trap :=
  let bad := l.filter fun u => fl u &&& enabledFlags p ≠ 0
  let all := bad.foldl (fun a u => a ||| fl u) 0
  ⟨clsFpe, (all &&& enabledFlags p).toNat, BitVec.ofNat 64 all.toNat, maskOf bad⟩

section
variable {c : Ctx} {p : Pack} {l : List Nat} {fl : Nat → Fl}

theorem fpeTrap_raised (h : ∃ u ∈ l, fl u &&& enabledFlags p ≠ 0) : fpeTrap p (l.map fun t => (t, fl t)) = some (flagTrap p l fl) := by
  have hbad : (l.map fun t => (t, fl t)).filter (fun x => decide (x.2 &&& enabledFlags p ≠ 0)) =
      (l.filter fun u => decide (fl u &&& enabledFlags p ≠ 0)).map fun t => (t, fl t) := List.filter_map
  have hsome : (l.filter fun u => decide (fl u &&& enabledFlags p ≠ 0)).isEmpty = false := by
    obtain ⟨u, hu, hf⟩ := h
    exact List.isEmpty_eq_false_iff_exists_mem.mpr ⟨u, List.mem_filter.mpr ⟨hu, decide_eq_true hf⟩⟩
  unfold fpeTrap flagTrap
  simp only [hbad, List.isEmpty_map, hsome, List.foldl_map, List.map_map, Function.comp_def, List.map_id', Bool.false_eq_true, if_false]

/-- A thread that raises an enabled flag makes a lane operation trap. -/
theorem laneOp_raises {n d : Nat} {signed : Bool} {f : Job → List Nat → Nat × Fl}
    (h : ∃ u ∈ lanesOf c.m p.width, laneFlags c d f p u &&& enabledFlags p ≠ 0) :
    laneOp c n signed d f p = .error (flagTrap p (lanesOf c.m p.width) (laneFlags c d f p)) := by
  rw [laneOp_eq, jobFlags_eq, fpeTrap_raised h]

/-- The same of an operation with a predicate result. -/
theorem lanePred_raises {f : Nat → Bool × Fl} (h : ∃ t ∈ lanesOf c.m p.width, (f t).2 &&& enabledFlags p ≠ 0) :
    lanePred c f p = .error (flagTrap p (lanesOf c.m p.width) fun t => (f t).2) := by
  unfold lanePred
  simp only [List.map_map, Function.comp_def, fpeTrap_raised h]

end

section
variable {i : Instr} {e : Enc} {s : State} {r : Claims.LaneRow}

/-- An instruction that runs a row traps where some thread raises an enabled flag. -/
theorem RunsRow.fpe (hrun : RunsRow i e r s) (h : Issuable i s) (hq : ¬Claims.quiet (issueCtx s e) r (issuing s)) :
    exec i s = .next (trapped s e (flagTrap (issuing s) (lanesOf (issueMask s e) (issuing s).width)
      (laneFlags (issueCtx s e) r.draws (r.val (issuing s)) (issuing s)))) := by
  obtain ⟨⟨f, hexec, hf⟩, -⟩ := hrun
  have hraised : ∃ u ∈ lanesOf (issueMask s e) (issuing s).width,
      laneFlags (issueCtx s e) r.draws (r.val (issuing s)) (issuing s) u &&& enabledFlags (issuing s) ≠ 0 := by
    simpa [Claims.quiet] using hq
  obtain ⟨u, hu, -⟩ := id hraised
  exact hexec.trans (issue_onPack_trap h (hf.trans (laneOp_raises hraised)) (issueMask_ne_zero hu))

/-! ### Arithmetic, selection and classification (06 R175 to R184) -/

/-- A row of R57 whose destination has the row's width, and a body that is the row's lane operation. -/
theorem runsRow_of_body {f : Ctx → Pack → Except Trap Pack} {o : Nat} {w : Row} (h : Issuable i s) (ho : opcodeOf i = some (o, e))
    (hrow : rowOf (s.pack s.cur).width i = some w) (hd : w.d = .vec r.bits) (hform : w.form = .rr)
    (hexec : exec i s = issue i e (onPack f) s)
    (hf : f (issueCtx s e) (issuing s) = laneOp (issueCtx s e) r.bits r.signed r.draws (r.val (issuing s)) (issuing s)) :
    RunsRow i e r s :=
  ⟨⟨f, hexec, hf⟩, legal_fits h.legal ho hrow (.inl hd) (.inl hform)⟩

/-- The addend of ffma is the row's third operand (06 R172). -/
theorem rdSrc_srcAddend (e : Enc) (n : Nat) (p : Pack) (j : Job) : rdSrc p (srcAddend e) n j.t j.i j.j = Claims.opAdd e n p j := by
  unfold srcAddend Claims.opAdd
  split <;> rfl

theorem fmaBody_eq (d : Nat) (c : Ctx) (p : Pack) :
    fmaBody d c p = laneOp c (typeBits (encTy c.e d)) false 0 (fun j _ => fFma (fmtOf c.e d) (rmOf p c.e)
      (Claims.opA c.e (typeBits (encTy c.e d)) p j) (Claims.opB c.e (typeBits (encTy c.e d)) p j)
      (Claims.opAdd c.e (typeBits (encTy c.e d)) p j)) p := by
  simp only [← rdSrc_srcAddend]
  rfl

theorem fcsg_runs (h : Issuable (.fcsg e) s) (hr : Claims.arithRow (.fcsg e) = some (e, r)) : RunsRow (.fcsg e) e r s := by
  cases hr
  refine runsRow_of_body h rfl rfl rfl rfl rfl (laneOp_congr fun j _ _ => ?_)
  simp only [bitAt_eq_testBit]
  rfl

/-- Every instruction of the arithmetic rows runs its row. -/
theorem arithRow_runs (hr : Claims.arithRow i = some (e, r)) (h : Issuable i s) : RunsRow i e r s := by
  unfold Claims.arithRow at hr
  split at hr
  -- The fifth and sixth row are those of ffma, the nineteenth that of fcsg; the bodies of the others are their rows' as they stand.
  case h_5 => cases hr; exact runsRow_of_body h rfl rfl rfl rfl rfl (fmaBody_eq 0x0D _ _)
  case h_6 => cases hr; exact runsRow_of_body h rfl rfl rfl rfl rfl (fmaBody_eq 0x0E _ _)
  case h_19 => cases hr; exact fcsg_runs h rfl
  case h_20 => cases hr
  all_goals cases hr; exact runsRow_of_body h rfl rfl rfl rfl rfl rfl

/-! ### Sine and cosine (06 R177) -/

/-- A body that answers as work on the pack alone does, in the state where it begins, issues as that work. -/
theorem issue_onPack_congr {body : Ctx → State → Res} {f : Ctx → Pack → Except Trap Pack} (h : Issuable i s)
    (hb : body (issueCtx s e) (issued s) = onPack f (issueCtx s e) (issued s)) : issue i e body s = issue i e (onPack f) s := by
  have hattempt : attempt i body (issueCtx s e) (issued s) = attempt i (onPack f) (issueCtx s e) (issued s) := by
    unfold attempt
    split
    · rename_i htrack
      have hprog : (issued s).curPack.progress = Progress.none := by
        have hun := h.begins (by simpa [issued_curPack s h.pack] using htrack)
        unfold untouched at hun
        simp only [Bool.and_eq_true, decide_eq_true_eq] at hun
        rw [issued_curPack s h.pack, issuing_progress]
        exact hun.1
      unfold trackBody
      simp only [hprog, Progress.none, List.isEmpty_nil, if_true, hb]
      unfold onPack
      cases f (issueCtx s e) (issued s).curPack <;> rfl
    · exact hb
  rw [issue_legal h, issue_legal h, hattempt]

/-- The instruction, the tables and the function of sine, or of cosine. -/
def sineInstr (cosine : Bool) (e : Enc) : Instr := if cosine then .fcos e else .fsin e
def sineTable (cosine : Bool) : W32 → BitVec 4 := if cosine then Config.fcosV2 else Config.fsinV2
def sineFun (cosine : Bool) : RMode → Nat → Nat × Fl := if cosine then fCosM else fSinM

/-- The row of sine or cosine under a behaviour version. -/
def versionRow (bver : Nat) (e : Enc) (cosine : Bool) : Claims.LaneRow :=
  Claims.floatRow e 0x0D 0 fun _ _ _ _ a => versioned bver (sineTable cosine) (sineFun cosine) a

/-- A finite nonzero input takes the table's value under version 2. -/
theorem versioned_eq (bver : Nat) (tab : W32 → BitVec 4) (f : RMode → Nat → Nat × Fl) (a : Nat) : versioned bver tab f a =
    match f32.read a with
    | .num _ m _ => if bver = 2 ∧ m ≠ 0 then tableValue (tab (BitVec.ofNat 32 a)) (f .rdn a).1 (f .rup a).1 else f .rne a
    | _ => f .rne a := by
  unfold versioned
  cases f32.read a with
  | nan n q fr => simp [FVal.isNan]
  | inf n => simp [FVal.isInf]
  | num n m x => cases m <;> simp [FVal.isNan, FVal.isInf, FVal.isZero]

/-- The claim's row takes the behaviour version of the pack's launch. -/
theorem sineRow_eq (s : State) (e : Enc) (cosine : Bool) :
    Claims.sineRow s e cosine = versionRow (s.launch (s.pack s.cur).launch).hdr.bver e cosine := by
  unfold versionRow
  simp only [versioned_eq]
  rfl

/-- The work of sine or cosine on a pack, under a behaviour version. -/
def sineBody (bver : Nat) (cosine : Bool) : Ctx → Pack → Except Trap Pack :=
  fp1 0x0D 0 fun _ _ a => versioned bver (sineTable cosine) (sineFun cosine) a

/-- The model takes the behaviour version of the launch of the pack's crew. -/
theorem sine_runs {cosine : Bool} (h : Issuable (sineInstr cosine e) s) :
    RunsRow (sineInstr cosine e) e (versionRow (s.launch (s.crew (s.pack s.cur).crew).launch).hdr.bver e cosine) s := by
  have hver : (issued s).curLaunch.hdr.bver = (s.launch (s.crew (s.pack s.cur).crew).launch).hdr.bver := by
    unfold State.curLaunch State.curCrew
    rw [State.curCrewId_pack (issued s) h.pack]
    simp
  have hexec : exec (sineInstr cosine e) s = issue (sineInstr cosine e) e
      (fun c t => onPack (sineBody t.curLaunch.hdr.bver cosine) c t) s := by cases cosine <;> rfl
  have hrow : rowOf (s.pack s.cur).width (sineInstr cosine e) = some { rowFp e [0x0D] false with round := 0 } := by cases cosine <;> rfl
  have ho : ∃ o, opcodeOf (sineInstr cosine e) = some (o, e) := by cases cosine <;> exact ⟨_, rfl⟩
  obtain ⟨o, ho⟩ := ho
  exact runsRow_of_body h ho hrow rfl rfl (hexec.trans (issue_onPack_congr h (by rw [hver]))) rfl

/-- Where the pack's launch is its crew's, the model runs the claim's row. -/
theorem sine_runs_sineRow {cosine : Bool} (h : Issuable (sineInstr cosine e) s)
    (hl : (s.crew (s.pack s.cur).crew).launch = (s.pack s.cur).launch) :
    RunsRow (sineInstr cosine e) e (Claims.sineRow s e cosine) s := by
  rw [sineRow_eq, ← hl]
  exact sine_runs h

/-- What a completed instruction leaves in the vector registers of a pack that goes on. -/
theorem completedPack_rdV {q : Pack} (hu : ∃ u < q.width, (packThread q u).exited = false) (m u : Nat) :
    rdV ((completedPack s q e 0).pack s.cur) m u = rdV q m u := by
  have hgoes : allExited (finishPack (issuing s) q (issuePc s) e.size 0) = false :=
    ((SameThreads.refl q).finishPack (issuing s) (issuePc s) e.size 0).notEnded hu
  have hkept (t : State) (crew : Nat) : rdV ((denCheck t crew).pack s.cur) m u = rdV (t.pack s.cur) m u := by
    have hsame := ((KeepsRows.refl t).denCheck crew).packs s.cur
    have hv : ((denCheck t crew).pack s.cur).v = (t.pack s.cur).v := (congrArg Pack.v hsame :)
    have hths : ((denCheck t crew).pack s.cur).threads = (t.pack s.cur).threads := (congrArg Pack.threads hsame :)
    unfold rdV packThread
    rw [hv, hths]
  unfold completedPack completed finishAt
  simp only [countIssue_pack, State.modPack_pack_same, State.setPack_pack_same, hgoes, Bool.false_eq_true, if_false]
  rw [hkept, countIssue_pack, State.modPack_pack_same, State.setPack_pack_same, finishPack_rdV]

end

end Sys2Proof.Machine

namespace Sys2Proof
open Machine

/-! ### The parts of the claim -/

theorem floatLanes_claim : Claims.FloatLanes := fun _ _ _ _ hr h hq => (arithRow_runs hr h).result h hq

theorem compareTraps_claim : Claims.CompareTraps := by
  intro e s h p n fl bad all hbad
  obtain ⟨u, hu⟩ := List.exists_mem_of_ne_nil bad hbad
  obtain ⟨hmem, hraised⟩ := List.mem_filter.mp hu
  have herror : fcmpBody (issueCtx s e) p = .error (flagTrap p (lanesOf (issueMask s e) p.width) fl) :=
    lanePred_raises ⟨u, hmem, of_decide_eq_true hraised⟩
  exact issue_onPack_trap h herror (issueMask_ne_zero hmem)

/-- Sine and cosine in a state whose issuing pack has the launch of its crew: they complete with the claim's row, and else trap FPE. -/
theorem sine_ofCrew {e : Enc} {cosine : Bool} {s : State} (h : Issuable (sineInstr cosine e) s)
    (hl : (s.crew (s.pack s.cur).crew).launch = (s.pack s.cur).launch) :
    let r := Claims.sineRow s e cosine
    (Claims.quiet (issueCtx s e) r (issuing s) → Claims.LaneResult (sineInstr cosine e) e r s) ∧
      (¬Claims.quiet (issueCtx s e) r (issuing s) → exec (sineInstr cosine e) s = .next (trapped s e
        (flagTrap (issuing s) (lanesOf (issueMask s e) (issuing s).width)
          (laneFlags (issueCtx s e) r.draws (r.val (issuing s)) (issuing s))))) :=
  ⟨(sine_runs_sineRow h hl).result h, (sine_runs_sineRow h hl).fpe h⟩

/-- All that the claim leaves open is whether sine and cosine run its row in every state. -/
theorem floatLanes_of_sineRow
    (hsine : ∀ e cosine s, Issuable (sineInstr cosine e) s → RunsRow (sineInstr cosine e) e (Claims.sineRow s e cosine) s) :
    Obligations.FloatLanes := by
  refine ⟨floatLanes_claim, fun e cosine s h hq => (hsine e cosine s h).result h hq, ?_, compareTraps_claim⟩
  intro i e r s hr h hq
  have hrun : RunsRow i e r s := by
    rcases hr with hr | hr | ⟨rfl, rfl⟩ | ⟨rfl, rfl⟩
    · exact arithRow_runs hr h
    · exact convertRow_runs hr h
    · exact hsine e false s h
    · exact hsine e true s h
  exact hrun.fpe h hq

/-! ### What the claim says of the open tables

The claim takes the behaviour version of sine and cosine from the launch of the issuing pack, the model from the launch of that pack's
crew, and a state may name two launches there.  So in all states together the claim says that the tables of version 2, which are open
constants, hold the rounded values: it is true of such tables, and false of others. -/

/-- The claim holds of tables with the rounded values. -/
theorem floatLanes_of_tables
    (htab : ∀ cosine bver a, versioned bver (sineTable cosine) (sineFun cosine) a = sineFun cosine .rne a) : Obligations.FloatLanes := by
  have hrow (b b' : Nat) (e : Enc) (cosine : Bool) : versionRow b e cosine = versionRow b' e cosine := by
    unfold versionRow
    simp only [htab]
  refine floatLanes_of_sineRow fun e cosine s h => ?_
  rw [sineRow_eq, hrow _ (s.launch (s.crew (s.pack s.cur).crew).launch).hdr.bver]
  exact sine_runs h

/-! ### A pack whose launch is not its crew's -/

/-- Launch 1 runs under behaviour version 2; launch 0, that of the only crew, under version 3. -/
def twoLaunches : State := (State.reset.withCode []).modLaunch 1 fun l => { l with hdr := { l.hdr with bver := 2 } }

/-- The crew's pack names launch 1, and v2 of its thread 0 holds `a`. -/
def astrayPack (a : W32) : Pack := { wrV (twoLaunches.pack 0) 2 0 a.toNat with launch := 1 }
def astray (a : W32) : State := twoLaunches.setPack 0 (astrayPack a)

/-- fsin v4, v2. -/
def astrayEnc : Enc := Claims.plainEnc 0 2 4

section
variable (a : W32)

theorem twoLaunches_cur : twoLaunches.cur = 0 := by decide +kernel

theorem astray_cur : (astray a).cur = 0 := (State.setPack_cur _ _ _).trans twoLaunches_cur
theorem astray_pack : (astray a).pack 0 = astrayPack a := State.setPack_pack_same _ _ _
theorem astray_launch (k : Nat) : (astray a).launch k = twoLaunches.launch k := State.setPack_launch _ _ _ _
theorem astray_crew (k : Nat) : (astray a).crew k = twoLaunches.crew k := State.setPack_crew _ _ _ _
theorem astrayPack_launch : (astrayPack a).launch = 1 := rfl
theorem astrayPack_crew : (astrayPack a).crew = (twoLaunches.pack 0).crew := rfl
theorem astrayPack_width : (astrayPack a).width = (twoLaunches.pack 0).width := rfl
theorem astrayPack_live : (astrayPack a).live = (twoLaunches.pack 0).live := rfl
theorem astrayPack_fenv : (astrayPack a).fenv = (twoLaunches.pack 0).fenv := rfl

theorem astray_issuable : Issuable (.fsin astrayEnc) (astray a) where
  pack := by
    unfold State.isFox
    rw [astray_cur]
    rfl
  live := by
    rw [astray_cur, astray_pack, astrayPack_live]
    decide +kernel
  legal := by
    rw [astray_cur, astray_pack, astrayPack_width]
    decide +kernel
  ready := by
    have hnone : (astray a).geos = [] := (State.setPack_geos _ _ _).trans (by decide +kernel)
    unfold statusPending
    rw [hnone]
    rfl
  begins := by
    have hfree : (astray a).isTrack 1 = false := by
      unfold State.isTrack
      rw [astray_launch]
      decide +kernel
    intro ht
    rw [astray_cur, astray_pack, astrayPack_launch, hfree] at ht
    cases ht

theorem astray_issuing : issuing (astray a) = astrayPack a := by
  have hlive : (twoLaunches.launch 1).liveTab = [] := by decide +kernel
  unfold issuing applyDead
  rw [astray_cur, astray_pack, astray_launch, astrayPack_launch, hlive]
  rfl

end

/-- The job of thread 0. -/
theorem astray_job (a : W32) : (⟨0, 0, 0⟩ : Job) ∈ jobsOf (issueCtx (astray a) astrayEnc) (issuing (astray a)) := by
  refine (jobsOf_vector _ _ rfl _).mpr ⟨?_, List.mem_singleton.mpr rfl⟩
  have hmask : issueMask (astray a) astrayEnc = maskOf (lanesOf (twoLaunches.pack 0).sel (twoLaunches.pack 0).width) := by
    unfold issueMask execMask
    rw [astray_cur, astray_pack]
    exact congrArg maskOf (List.filter_true _)
  rw [issueCtx_m, hmask, astray_issuing, astrayPack_width]
  decide +kernel

/-- fsin reads `a` there. -/
theorem astray_source (a : W32) : Claims.opA astrayEnc 32 (issuing (astray a)) ⟨0, 0, 0⟩ = a.toNat := by
  have hread : rdV (astrayPack a) 2 0 = a.toNat := (rdV_wrV_same (twoLaunches.pack 0) 2 0 a.toNat).trans (Nat.mod_eq_of_lt a.isLt)
  rw [astray_issuing]
  show rdV (astrayPack a) 2 0 % 2 ^ 32 = a.toNat
  rw [hread, Nat.mod_eq_of_lt a.isLt]

theorem astray_dest {q : Pack} {x : Nat} (h : destHolds q astrayEnc false 32 ⟨0, 0, 0⟩ x) : rdV q 4 0 = x % 2 ^ 32 := by
  unfold destHolds at h
  rwa [if_neg (by decide), if_pos le_rfl] at h

/-- What fsin leaves in v4 of thread 0, under the row of a behaviour version. -/
theorem astray_result {a : W32} {b : Nat} (h : Claims.LaneResult (.fsin astrayEnc) astrayEnc (versionRow b astrayEnc false) (astray a)) :
    ∃ q, exec (.fsin astrayEnc) (astray a) = .next (completedPack (astray a) q astrayEnc 0) ∧
      rdV ((completedPack (astray a) q astrayEnc 0).pack 0) 4 0 = (versioned b Config.fsinV2 fSinM a.toNat).1 % 2 ^ 32 := by
  obtain ⟨q, hexec, hdone⟩ := h
  have hgoes : ∃ u < q.width, (packThread q u).exited = false := by
    have hwidth : q.width = (twoLaunches.pack 0).width :=
      (congrArg Pack.width hdone.rest).trans ((congrArg Pack.width (astray_issuing a)).trans (astrayPack_width a))
    have hthread : (packThread q 1).exited = (packThread (twoLaunches.pack 0) 1).exited := by
      have hkept := congrArg Thread.exited (hdone.threads 1)
      rw [astray_issuing] at hkept
      exact hkept
    rw [hwidth]
    exact ⟨1, by decide +kernel, hthread.trans (by decide +kernel)⟩
  have hvalue : rdV q 4 0 = (versioned b Config.fsinV2 fSinM a.toNat).1 % 2 ^ 32 := by
    have hmem := astray_job a
    rw [← laneOut_map_fst _ 0 ((versionRow b astrayEnc false).val (issuing (astray a)))] at hmem
    obtain ⟨x, hx, hjob⟩ := List.mem_map.mp hmem
    have hheld := hdone.result x hx
    obtain ⟨y, -, rfl⟩ := List.mem_map.mp hx
    dsimp only at hjob
    rw [hjob] at hheld
    rw [← astray_source a]
    exact astray_dest hheld
  have hread := completedPack_rdV (s := astray a) (e := astrayEnc) hgoes 4 0
  rw [astray_cur] at hread
  exact ⟨q, hexec, hread.trans hvalue⟩

/-- The claim holds only of a table of sines with the rounded values. -/
theorem sineTable_rounds_of_floatLanes (h : Obligations.FloatLanes) (a : W32) :
    (versioned 2 Config.fsinV2 fSinM a.toNat).1 % 2 ^ 32 = (fSinM .rne a.toNat).1 % 2 ^ 32 := by
  obtain ⟨-, hsine, -, -⟩ := h
  have hissue := astray_issuable a
  have hquiet (r : Claims.LaneRow) : Claims.quiet (issueCtx (astray a) astrayEnc) r (issuing (astray a)) := by
    have hfenv : enabledFlags (issuing (astray a)) = 0 := by
      unfold enabledFlags
      rw [astray_issuing, astrayPack_fenv]
      decide +kernel
    intro u _
    rw [hfenv]
    exact BitVec.and_zero
  have hclaim : Claims.LaneResult (.fsin astrayEnc) astrayEnc (versionRow 2 astrayEnc false) (astray a) := by
    have hver : ((astray a).launch ((astray a).pack (astray a).cur).launch).hdr.bver = 2 := by
      rw [astray_cur, astray_pack, astray_launch]
      show (twoLaunches.launch 1).hdr.bver = 2
      decide +kernel
    have hres := hsine astrayEnc false (astray a) hissue (hquiet _)
    rwa [sineRow_eq, hver] at hres
  have hmodel : Claims.LaneResult (.fsin astrayEnc) astrayEnc (versionRow 3 astrayEnc false) (astray a) := by
    have hver : ((astray a).launch ((astray a).crew ((astray a).pack (astray a).cur).crew).launch).hdr.bver = 3 := by
      rw [astray_cur, astray_pack, astray_launch, astray_crew, astrayPack_crew]
      decide +kernel
    have hrun := sine_runs (cosine := false) hissue
    rw [hver] at hrun
    exact hrun.result hissue (hquiet _)
  obtain ⟨q, hexec, hq⟩ := astray_result hclaim
  obtain ⟨q', hexec', hq'⟩ := astray_result hmodel
  have hsame : completedPack (astray a) q astrayEnc 0 = completedPack (astray a) q' astrayEnc 0 := by
    rw [hexec] at hexec'
    exact Host.Outcome.next.inj hexec'
  rw [← hq, hsame, hq']
  rfl

end Sys2Proof
end

section
/-! PROOFS. The tile table: what a write of an entry leaves, what an instruction whose body stalls leaves, and the geometry word (07 R204 to
R212, R219). -/

namespace Sys2Proof.Machine

/-! ### Instructions that stall -/

section
variable {i : Instr} {e : Enc} {s t : State} {body : Ctx → State → Res}

/-- A body that stalls, and leaves the pack as it issues, is the attempt. -/
theorem attempt_stall (h : Issuable i s) (hb : body (issueCtx s e) (issued s) = .stall t) (hp : t.curPack = issuing s) :
    attempt i body (issueCtx s e) (issued s) = .stall t := by
  rcases attempt_begins (e := e) (body := body) h with h1 | ⟨-, hnone, h1⟩
  · rw [h1, hb]
  · rw [issued_curPack s h.pack] at hnone
    rw [h1]
    unfold trackBody
    simp only [issued_curPack s h.pack, hnone, Progress.none, List.isEmpty_nil, if_true, hb, hp, Bool.false_and, Bool.false_eq_true, if_false]

/-- A stall that is counted leaves nothing else. -/
theorem issue_stall_counted (h : Issuable i s) {id unit : Nat}
    (hb : body (issueCtx s e) (issued s) = .stall ((issued s).count id unit 1)) :
    issue i e body s = .next (stalledIn s ((issued s).count id unit 1)) := by
  have hcur : ((issued s).count id unit 1).curPack = issuing s := issued_curPack s h.pack
  rw [issue_legal h, attempt_stall h hb hcur]
  rfl

end

/-! ### The issuing pack's crew -/

section
variable {i : Instr} {s : State}

theorem issued_curCrewId (h : s.isFox = false) : (issued s).curCrewId = (issuing s).crew := by
  rw [State.curCrewId_pack (issued s) h, issued_cur, issued_pack]

theorem issued_curCrew (h : s.isFox = false) : (issued s).curCrew = s.crew (issuing s).crew := by
  unfold State.curCrew
  rw [issued_curCrewId h, issued_crew]

theorem issued_curLaunch (h : s.isFox = false) : (issued s).curLaunch = s.launch (s.crew (issuing s).crew).launch := by
  unfold State.curLaunch
  rw [issued_curCrew h, issued_launch]

theorem issued_curSv (h : s.isFox = false) : (issued s).curSv = Claims.supervisor s := by
  unfold State.curSv Claims.supervisor
  rw [issued_curLaunch h, issuing_crew]

@[simp] theorem issued_isStrict (s : State) (k : Nat) : (issued s).isStrict k = s.isStrict k := rfl

theorem setPack_curPack (h : s.isFox = false) (p : Pack) : (s.setPack s.cur p).curPack = p := by
  rw [State.curPack_pack (s.setPack s.cur p) h]
  exact State.setPack_pack_same s s.cur p

/-! ### New numbers -/

theorem newId_curPack (h : s.isFox = false) : (issued s).newId.2.curPack = issuing s := issued_curPack s h

theorem newId_setCur (h : s.isFox = false) (p : Pack) : (issued s).newId.2.setCur p = s.newId.2.setPack s.cur p := by
  rw [State.setCur_pack (issued s).newId.2 h]
  exact State.setPack_setPack s.newId.2 s.cur _ p

/-- In Free and Track mode accesses are not stamped (16 R485). -/
theorem strict_free {s : State} {k : Nat} (h : s.isStrict (s.pack k).launch = false) (n colour : Nat) (l : List SAcc) :
    strict s k n colour l = .ok s := if_neg (Bool.eq_false_iff.mp h)

/-! ### Observed completions -/

@[simp] theorem observeTiles_rdS (p : Pack) (hs : List Nat) (n : Nat) : rdS (observeTiles p hs) n = rdS p n := rfl

end

/-! ### Updates of a crew's state -/

section
variable (s : State) (n k : Nat) (f : CrewState → CrewState)

theorem modSt_crew_same : (s.modSt n f).crew n = { s.crew n with st := f (s.crew n).st } := State.setCrew_crew_same ..

theorem modSt_crew_other {n k : Nat} (h : k ≠ n) : (s.modSt n f).crew k = s.crew k := State.setCrew_crew_other _ _ _ _ h

/-- The update leaves the crews but for their states. -/
theorem modSt_crew_keeps {α : Type} (fld : Crew → α) (hf : ∀ c st, fld { c with st := st } = fld c) :
    fld ((s.modSt n f).crew k) = fld (s.crew k) := by
  by_cases h : k = n
  · subst h; rw [modSt_crew_same]; exact hf _ _
  · rw [modSt_crew_other s f h]

@[simp] theorem modSt_packs : ((s.modSt n f).crew k).packs = (s.crew k).packs := modSt_crew_keeps s n k f Crew.packs fun _ _ => rfl
@[simp] theorem modSt_gang : ((s.modSt n f).crew k).gang = (s.crew k).gang := modSt_crew_keeps s n k f Crew.gang fun _ _ => rfl

/-- A field of the crews' states that the update keeps. -/
theorem modSt_st_keeps {α : Type} (fld : CrewState → α) (hf : ∀ st, fld (f st) = fld st) : fld ((s.modSt n f).crew k).st = fld (s.crew k).st := by
  by_cases h : k = n
  · subst h; rw [modSt_crew_same]; exact hf _
  · rw [modSt_crew_other s f h]

end

/-! ### Entries of the tile table -/

section
variable (s : State) (crew h k : Nat) (x : Tile)

@[simp] theorem tileAt_setPack (n : Nat) (p : Pack) : tileAt (s.setPack n p) crew h = tileAt s crew h := rfl

theorem tileAt_setTile : tileAt (setTile s crew h x) crew k = if k = h then x else tileAt s crew k := by
  unfold tileAt setTile
  rw [modSt_crew_same]
  exact Tab.get_set _ _ _ _ _

@[simp] theorem tileAt_setTile_same : tileAt (setTile s crew h x) crew h = x := (tileAt_setTile ..).trans (if_pos rfl)

theorem tileAt_setTile_other {h k : Nat} (hk : k ≠ h) : tileAt (setTile s crew h x) crew k = tileAt s crew k :=
  (tileAt_setTile ..).trans (if_neg hk)

@[simp] theorem setTile_mem : (setTile s crew h x).mem = s.mem := rfl
@[simp] theorem setTile_pack : (setTile s crew h x).pack k = s.pack k := rfl
@[simp] theorem setTile_gangs : (setTile s crew h x).gangs = s.gangs := rfl
@[simp] theorem setTile_troops : (setTile s crew h x).troops = s.troops := rfl
@[simp] theorem setTile_launches : (setTile s crew h x).launches = s.launches := rfl

@[simp] theorem setTile_spm1 : ((setTile s crew h x).crew k).st.spm1 = (s.crew k).st.spm1 :=
  modSt_st_keeps s crew k _ CrewState.spm1 fun _ => rfl

@[simp] theorem setTile_tfills : ((setTile s crew h x).crew k).st.tfills = (s.crew k).st.tfills :=
  modSt_st_keeps s crew k _ CrewState.tfills fun _ => rfl

theorem setTile_setPack_pack (n : Nat) (p : Pack) : (setTile (s.setPack n p) crew h x).pack n = p := State.setPack_pack_same s n p

theorem setTile_crew_other {crew k : Nat} (hk : k ≠ crew) : (setTile s crew h x).crew k = s.crew k := modSt_crew_other s _ hk

theorem issued_setTile_setCur (hf : s.isFox = false) (p : Pack) :
    (setTile (issued s) crew h x).setCur p = setTile (s.setPack s.cur p) crew h x := by
  rw [State.setCur_pack (setTile (issued s) crew h x) hf]
  exact congrArg (setTile · crew h x) (State.setPack_setPack s s.cur _ p)

/-- The tile that a handle names for the issuing pack (R204). -/
def ownTile : Tile := tileAt s (issuing s).crew h

theorem tileAt_issued : tileAt (issued s) (issuing s).crew h = ownTile s h := rfl

/-- A write of one entry, beside a change of the issuing pack, is all that `TileDone` says. -/
theorem tileDone_setTile (p : Pack) : Claims.TileDone s (setTile (s.setPack s.cur p) crew h x) crew h x p where
  entry := tileAt_setTile_same ..
  others _ hk := tileAt_setTile_other _ _ _ hk
  pack := setTile_setPack_pack ..
  packs _ hk := State.setPack_pack_other _ _ _ _ hk
  mem := rfl
  pads := ⟨setTile_spm1 .., rfl, rfl⟩
  crews _ hk := setTile_crew_other _ _ _ hk

end

/-! ### Instructions that change entries of the tile table -/

/-- A body that is done at once completes, where the launches stay as they are and the issuing pack is `p`, of its launch. -/
theorem issue_done_pack {i : Instr} {e : Enc} {s t : State} {body : Ctx → State → Res} (h : Issuable i s) {p : Pack}
    (hb : body (issueCtx s e) (issued s) = .done t 0) (hp : t.pack s.cur = p) (hl : p.launch = (issuing s).launch)
    (hn : p.lin = (issuing s).lin) (ht : t.launches = s.launches) : issue i e body s = .next (completed s t e 0) :=
  issue_done_keeps h hb (by rw [hp, hl, issuing_launch]) (by rw [hp, hn, issuing_lin]) ht

/-! ### The geometry word (R211, R212) -/

theorem geomOk_iff (g : W64) : geomOk g.toNat = true ↔ Claims.geometry g.toNat := by
  have hg := g.isLt
  simp only [geomOk, Bool.and_eq_true, decide_eq_true_eq, beq_iff_eq, and_assoc]
  unfold bits Claims.geometry
  omega

theorem tile_extent (t : Tile) : t.extent = Claims.extentOf t.geom.toNat := by
  simp only [Tile.extent, Tile.rows, Tile.pitch, Tile.rowBytes, Tile.rowGran, Claims.extentOf, bits, pow_zero, Nat.div_one]

theorem tile_rows (t : Tile) : t.rows = t.geom.toNat % 2 ^ 16 := by simp only [Tile.rows, bits, pow_zero, Nat.div_one]
theorem tile_rowBytes (t : Tile) : t.rowBytes = t.geom.toNat / 2 ^ 16 % 2 ^ 12 * 64 := rfl
theorem tile_rowOff (t : Tile) (i : Nat) : t.rowOff i = t.base + i * (t.geom.toNat / 2 ^ 32 % 2 ^ 24 * 64) := by
  simp only [Tile.rowOff, Tile.pitch, bits, Nat.mul_assoc]

theorem tile_isReady (t : Tile) : t.isReady = true ↔ t.fill = 0 ∧ t.drain = 0 := by simp [Tile.isReady]

end Sys2Proof.Machine
end

section
/-! PROOFS. tdef, tmov, twait, tstat, trel and tfill as they issue (07 R206, R209 to R218). -/

namespace Sys2Proof.Machine

section
variable {e : Enc} {s : State}

/-- A stall on the state of a tile is counted for the core (07 R219). -/
theorem issue_tileStall {i : Instr} {body : Ctx → State → Res} (h : Issuable i s)
    (hb : body (issueCtx s e) (issued s) = tileStall (issued s)) :
    issue i e body s = .next (stalledIn s ((issued s).count ctrTileStall (s.crew (issuing s).crew).core 1)) := by
  refine issue_stall_counted h (hb.trans ?_)
  unfold tileStall
  rw [issued_curCrew h.pack]

/-- A TILE trap with the handle in %tval (07 R209). -/
theorem issue_tileTrap {i : Instr} {body : Ctx → State → Res} (h : Issuable i s) {sub k : Nat}
    (hb : body (issueCtx s e) (issued s) = tileTrap (issueCtx s e) sub k) (hm : issueMask s e ≠ 0) :
    issue i e body s = .next (trapped s e ⟨clsTile, sub, BitVec.ofNat 64 k, issueMask s e⟩) :=
  issue_trap h hb hm

/-- A TILE trap for which no handle is named: the low byte of %tval is free, and the rest of it 0. -/
theorem issue_tileTrapOpen {i : Instr} {body : Ctx → State → Res} (h : Issuable i s) {sub : Nat} {x : W64}
    (hb : body (issueCtx s e) (issued s) = tileTrapOpen (issueCtx s e) sub x) (hm : issueMask s e ≠ 0) :
    ∃ v : W64, v.toNat < 256 ∧ issue i e body s = .next (trapped s e ⟨clsTile, sub, v, issueMask s e⟩) := by
  refine ⟨_, ?_, issue_trap h hb hm⟩
  rw [BitVec.toNat_ofNat]
  exact (Nat.mod_le _ _).trans_lt (Nat.mod_lt _ (by decide))

/-! ### tdef (R211, R212) -/

/-- The base that tdef gives the tile (R211). -/
def tdefBase (e : Enc) (p : Pack) : Nat := (rdY p e.a.toNat).cursor + encImm e * 64

/-- The entry that tdef writes (R211). -/
def tdefTile (e : Enc) (p : Pack) : Tile :=
  ⟨true, 0, 0, false, (rdY p e.a.toNat).space, tdefBase e p, rdS p (encB e), encTy e 9, (rdY p e.a.toNat).perm, (rdY p e.a.toNat).colour, 0, []⟩

/-- The geometry word is allowed and the region lies in the capability's bounds (R211, R212). -/
def tdefFits (e : Enc) (p : Pack) : Prop :=
  Claims.geometry (rdS p (encB e)).toNat ∧ (rdY p e.a.toNat).base ≤ tdefBase e p ∧
    tdefBase e p + Claims.extentOf (rdS p (encB e)).toNat ≤ (rdY p e.a.toNat).top

/-- The model's test of the same. -/
def tdefBad (e : Enc) (p : Pack) : Bool :=
  !geomOk (rdS p (encB e)).toNat || tdefBase e p < (rdY p e.a.toNat).base || (rdY p e.a.toNat).top < tdefBase e p + (tdefTile e p).extent

theorem tdefBad_iff (e : Enc) (p : Pack) : tdefBad e p = true ↔ ¬tdefFits e p := by
  have hgeom := geomOk_iff (rdS p (encB e))
  simp only [tdefBad, tdefFits, tile_extent, Bool.or_eq_true, Bool.not_eq_true', decide_eq_true_eq, ← hgeom, not_and_or, not_le,
    Bool.not_eq_true, or_assoc]
  rfl

/-- The checks that tdef makes of its capability before it looks at the tile table (R211). -/
structure TdefCap (e : Enc) (s : State) : Prop where
  tag : (rdY (issuing s) e.a.toNat).tag = true
  window : (rdY (issuing s) e.a.toNat).space = 2 ∨ (rdY (issuing s) e.a.toNat).space = 3 ∨ (rdY (issuing s) e.a.toNat).space = 4
  allowed : Claims.supervisor s = true ∨ (rdY (issuing s) e.a.toNat).has pmSuper = false
  aligned : tdefBase e (issuing s) % 64 = 0

/-- Where the checks of the capability pass, tdef.any takes the lowest empty handle and tdef the one that D names (R211). -/
def tdefRest (e : Enc) (s : State) : Res :=
  let p := issuing s
  if encModBit e 0 then
    match lowestEmpty (s.crew p.crew).st with
    | none => tileTrapOpen (issueCtx s e) 2 (rdS p (encB e))
    | some h =>
      if tdefBad e p then tileTrapOpen (issueCtx s e) 3 (rdS p (encB e))
      else if s.isStrict p.launch then .trap ((issueCtx s e).openTrap clsRace 2 (rdS p (encB e)))
      else .done (setTile (s.setPack s.cur (wrS p e.d.toNat (BitVec.ofNat 64 h))) p.crew h (tdefTile e p)) 0
  else if (ownTile s e.d.toNat).defined then tileTrap (issueCtx s e) 1 e.d.toNat
  else if tdefBad e p then tileTrap (issueCtx s e) 3 e.d.toNat
  else .done (setTile (s.setPack s.cur p) p.crew e.d.toNat (tdefTile e p)) 0

theorem tdefBody_rest (hf : s.isFox = false) (hc : TdefCap e s) : tdefBody (issueCtx s e) (issued s) = tdefRest e s := by
  have hcap : tdefCap (Claims.supervisor s) (rdY (issuing s) e.a.toNat) = none := by
    have hwindow : isWindow (rdY (issuing s) e.a.toNat).space = true := by
      unfold isWindow
      rcases hc.window with h | h | h <;> rw [h] <;> rfl
    have hsuper : (!Claims.supervisor s && (rdY (issuing s) e.a.toNat).has pmSuper) = false := by
      rcases hc.allowed with h | h <;> simp [h]
    simp [tdefCap, hc.tag, hwindow, hsuper]
  have haligned : ((rdY (issuing s) e.a.toNat).cursor + encImm e * 64) % 64 = 0 := hc.aligned
  unfold tdefBody
  simp only [issued_curPack s hf, issued_curCrewId hf, issued_curSv hf, issueCtx_e, hcap, haligned, ne_eq, not_true_eq_false, if_false,
    issued_setTile_setCur _ _ _ _ hf]
  rfl

theorem lowestEmpty_none {st : CrewState} : lowestEmpty st = none ↔ ∀ k < 64, (crewTile st k).defined = true := by
  simp [lowestEmpty, List.find?_eq_none]

theorem lowestEmpty_some {st : CrewState} {h : Nat} :
    lowestEmpty st = some h ↔ (crewTile st h).defined = false ∧ h < 64 ∧ ∀ k < h, (crewTile st k).defined = true := by
  simp [lowestEmpty, List.find?_range_eq_some]

/-- tdef of an empty handle (R211). -/
theorem tdef_at (h : Issuable (.tdef e) s) (hc : TdefCap e s) (hany : encModBit e 0 = false)
    (hd : (ownTile s e.d.toNat).defined = false) (hfits : tdefFits e (issuing s)) :
    exec (.tdef e) s = .next (completed s (setTile (s.setPack s.cur (issuing s)) (issuing s).crew e.d.toNat (tdefTile e (issuing s))) e 0) := by
  refine issue_done_pack h ((tdefBody_rest h.pack hc).trans ?_) (setTile_setPack_pack ..) rfl rfl rfl
  have hok : tdefBad e (issuing s) = false := Bool.eq_false_iff.mpr fun hbad => (tdefBad_iff e _).mp hbad hfits
  simp only [tdefRest, hany, hd, hok, Bool.false_eq_true, if_false]

/-- tdef.any takes the lowest empty handle, and leaves its number in the register that D names (R211). -/
theorem tdef_any (h : Issuable (.tdef e) s) (hc : TdefCap e s) (hany : encModBit e 0 = true) {k : Nat}
    (hk : lowestEmpty (s.crew (issuing s).crew).st = some k) (hfits : tdefFits e (issuing s)) (hfree : s.isStrict (issuing s).launch = false) :
    exec (.tdef e) s = .next (completed s
      (setTile (s.setPack s.cur (wrS (issuing s) e.d.toNat (BitVec.ofNat 64 k))) (issuing s).crew k (tdefTile e (issuing s))) e 0) := by
  refine issue_done_pack h ((tdefBody_rest h.pack hc).trans ?_) (setTile_setPack_pack ..) rfl rfl rfl
  have hok : tdefBad e (issuing s) = false := Bool.eq_false_iff.mpr fun hbad => (tdefBad_iff e _).mp hbad hfits
  simp only [tdefRest, hany, hk, hok, hfree, Bool.false_eq_true, if_false, if_true]

theorem tdef_defined (h : Issuable (.tdef e) s) (hc : TdefCap e s) (hany : encModBit e 0 = false) (hm : issueMask s e ≠ 0)
    (hd : (ownTile s e.d.toNat).defined = true) :
    exec (.tdef e) s = .next (trapped s e ⟨clsTile, 1, BitVec.ofNat 64 e.d.toNat, issueMask s e⟩) := by
  refine issue_tileTrap h ((tdefBody_rest h.pack hc).trans ?_) hm
  simp only [tdefRest, hany, hd, Bool.false_eq_true, if_false, if_true]

theorem tdef_unfit (h : Issuable (.tdef e) s) (hc : TdefCap e s) (hany : encModBit e 0 = false) (hm : issueMask s e ≠ 0)
    (hd : (ownTile s e.d.toNat).defined = false) (hfits : ¬tdefFits e (issuing s)) :
    exec (.tdef e) s = .next (trapped s e ⟨clsTile, 3, BitVec.ofNat 64 e.d.toNat, issueMask s e⟩) := by
  refine issue_tileTrap h ((tdefBody_rest h.pack hc).trans ?_) hm
  simp only [tdefRest, hany, hd, (tdefBad_iff e _).mpr hfits, Bool.false_eq_true, if_false, if_true]

theorem tdef_full (h : Issuable (.tdef e) s) (hc : TdefCap e s) (hany : encModBit e 0 = true) (hm : issueMask s e ≠ 0)
    (hfull : lowestEmpty (s.crew (issuing s).crew).st = none) :
    ∃ v : W64, v.toNat < 256 ∧ exec (.tdef e) s = .next (trapped s e ⟨clsTile, 2, v, issueMask s e⟩) := by
  refine issue_tileTrapOpen (x := rdS (issuing s) (encB e)) h ((tdefBody_rest h.pack hc).trans ?_) hm
  simp only [tdefRest, hany, hfull, if_true]

theorem tdef_any_unfit (h : Issuable (.tdef e) s) (hc : TdefCap e s) (hany : encModBit e 0 = true) (hm : issueMask s e ≠ 0) {k : Nat}
    (hk : lowestEmpty (s.crew (issuing s).crew).st = some k) (hfits : ¬tdefFits e (issuing s)) :
    ∃ v : W64, v.toNat < 256 ∧ exec (.tdef e) s = .next (trapped s e ⟨clsTile, 3, v, issueMask s e⟩) := by
  refine issue_tileTrapOpen (x := rdS (issuing s) (encB e)) h ((tdefBody_rest h.pack hc).trans ?_) hm
  simp only [tdefRest, hany, hk, (tdefBad_iff e _).mpr hfits, if_true]

end

/-! ### tmov (R213, R214) -/

section
variable {e : Enc} {s : State}

/-- The window of rows that tmov.view defines, `w` being its view word (R214). -/
def viewTile (x : Tile) (w : Nat) : Tile :=
  { x with
    base := x.rowOff (w % 2 ^ 16)
    geom := BitVec.ofNat 64 (putBits x.geom.toNat 0 16 (w / 2 ^ 16))
    fill := 0
    drain := 0
    replay := false
    mfill := [] }

/-- The view word names rows of the tile (R214). -/
def viewFits (x : Tile) (w : Nat) : Prop := w < 2 ^ 32 ∧ 1 ≤ w / 2 ^ 16 ∧ w % 2 ^ 16 + w / 2 ^ 16 ≤ x.geom.toNat % 2 ^ 16

/-- The model's test of the view word. -/
theorem viewBad_iff (x : Tile) (w : W64) :
    (bits w.toNat 32 32 ≠ 0 ∨ bits w.toNat 16 16 = 0 ∨ x.rows < bits w.toNat 0 16 + bits w.toNat 16 16) ↔ ¬viewFits x w.toNat := by
  have hw := w.isLt
  rw [tile_rows]
  unfold bits viewFits
  omega

theorem tmov_empty (h : Issuable (.tmov e) s) (hd : (ownTile s e.a.toNat).defined = false) (hm : issueMask s e ≠ 0) :
    exec (.tmov e) s = .next (trapped s e ⟨clsTile, 4, BitVec.ofNat 64 e.a.toNat, issueMask s e⟩) := by
  refine issue_tileTrap h ?_ hm
  simp only [tmovBody, issued_curCrewId h.pack, tileAt_issued, issueCtx_e, hd, Bool.not_false, if_true]

/-- The state that tmov leaves: the entry has a new handle, unless it keeps its own (R213). -/
def tileMoved (e : Enc) (s : State) : State :=
  let t := s.setPack s.cur (observeTiles (issuing s) [e.a.toNat])
  if e.a = e.d then t
  else setTile (setTile t (issuing s).crew e.d.toNat (ownTile s e.a.toNat)) (issuing s).crew e.a.toNat Tile.blank

/-- The body of tmov without .view, of a tile that is defined. -/
theorem tmovBody_move (hf : s.isFox = false) (hview : encModBit e 0 = false) (hx : (ownTile s e.a.toNat).defined = true) :
    tmovBody (issueCtx s e) (issued s) =
      if e.a ≠ e.d ∧ (ownTile s e.d.toNat).defined = true then tileTrap (issueCtx s e) 5 e.d.toNat
      else if !(ownTile s e.a.toNat).isReady then tileStall (issued s)
      else .done (tileMoved e s) 0 := by
  simp only [tmovBody, issued_curPack s hf, issued_curCrewId hf, tileAt_issued, issueCtx_e, hx, hview, Bool.not_true, Bool.false_eq_true, if_false,
    issued_setCur s hf, BitVec.toNat_inj, ne_eq, tileMoved]

/-- The body of tmov.view, of a tile that is defined. -/
theorem tmovBody_view (hf : s.isFox = false) (hview : encModBit e 0 = true) (hx : (ownTile s e.a.toNat).defined = true) :
    tmovBody (issueCtx s e) (issued s) =
      let x := ownTile s e.a.toNat
      let w := (rdS (issuing s) (encB e)).toNat
      if (ownTile s e.d.toNat).defined then tileTrap (issueCtx s e) 5 e.d.toNat
      else if bits w 32 32 ≠ 0 ∨ bits w 16 16 = 0 ∨ x.rows < bits w 0 16 + bits w 16 16 then tileTrapOpen (issueCtx s e) 6 (BitVec.ofNat 64 w)
      else if x.fill ≠ 0 then tileStall (issued s)
      else .done (setTile (s.setPack s.cur (observeTiles (issuing s) [e.a.toNat])) (issuing s).crew e.d.toNat (viewTile x w)) 0 := by
  have hrow (w : Nat) : bits w 0 16 = w % 2 ^ 16 := congrArg (· % 2 ^ 16) (Nat.div_one w)
  have hgeom (g w : Nat) : putBits g 0 16 (bits w 16 16) = putBits g 0 16 (w / 2 ^ 16) := by
    unfold putBits bits
    rw [Nat.mod_mod]
  simp only [tmovBody, issued_curPack s hf, issued_curCrewId hf, tileAt_issued, issueCtx_e, hx, hview, Bool.not_true, Bool.false_eq_true, if_false,
    if_true, issued_setTile_setCur _ _ _ _ hf, hrow, hgeom, viewTile]

theorem tileMoved_pack (e : Enc) (s : State) : (tileMoved e s).pack s.cur = observeTiles (issuing s) [e.a.toNat] := by
  unfold tileMoved
  dsimp only
  split
  · exact State.setPack_pack_same s s.cur _
  · rw [setTile_pack, setTile_setPack_pack]

theorem tileMoved_launches (e : Enc) (s : State) : (tileMoved e s).launches = s.launches := by
  unfold tileMoved
  dsimp only
  split
  · rfl
  · rw [setTile_launches, setTile_launches, State.setPack_launches]

/-- tmov of a ready tile to an empty handle, or to its own (R213). -/
theorem tmov_moves (h : Issuable (.tmov e) s) (hview : encModBit e 0 = false) (hx : (ownTile s e.a.toNat).defined = true)
    (hready : (ownTile s e.a.toNat).isReady = true) (hd : e.a = e.d ∨ (ownTile s e.d.toNat).defined = false) :
    exec (.tmov e) s = .next (completed s (tileMoved e s) e 0) := by
  have hfree : ¬(e.a ≠ e.d ∧ (ownTile s e.d.toNat).defined = true) := by
    rcases hd with hd | hd <;> simp [hd]
  refine issue_done_pack h ((tmovBody_move h.pack hview hx).trans ?_) (tileMoved_pack e s) rfl rfl (tileMoved_launches e s)
  rw [if_neg hfree, hready]
  rfl

theorem tmov_views (h : Issuable (.tmov e) s) (hview : encModBit e 0 = true) (hx : (ownTile s e.a.toNat).defined = true)
    (hfill : (ownTile s e.a.toNat).fill = 0) (hd : (ownTile s e.d.toNat).defined = false)
    (hfits : viewFits (ownTile s e.a.toNat) (rdS (issuing s) (encB e)).toNat) :
    exec (.tmov e) s = .next (completed s (setTile (s.setPack s.cur (observeTiles (issuing s) [e.a.toNat])) (issuing s).crew e.d.toNat
      (viewTile (ownTile s e.a.toNat) (rdS (issuing s) (encB e)).toNat)) e 0) := by
  refine issue_done_pack h ((tmovBody_view h.pack hview hx).trans ?_) (setTile_setPack_pack ..) rfl rfl rfl
  simp only [hd, (viewBad_iff _ _), not_not_intro hfits, hfill, ne_eq, not_true_eq_false, Bool.false_eq_true, if_false]

theorem tmov_taken (h : Issuable (.tmov e) s) (hx : (ownTile s e.a.toNat).defined = true) (ha : e.a ≠ e.d)
    (hd : (ownTile s e.d.toNat).defined = true) (hm : issueMask s e ≠ 0) :
    exec (.tmov e) s = .next (trapped s e ⟨clsTile, 5, BitVec.ofNat 64 e.d.toNat, issueMask s e⟩) := by
  refine issue_tileTrap h ?_ hm
  cases hview : encModBit e 0
  · rw [tmovBody_move h.pack hview hx, if_pos ⟨ha, hd⟩]
  · simp only [tmovBody_view h.pack hview hx, hd, if_true]

theorem tmov_badView (h : Issuable (.tmov e) s) (hview : encModBit e 0 = true) (hx : (ownTile s e.a.toNat).defined = true)
    (hd : (ownTile s e.d.toNat).defined = false)
    (hfits : ¬viewFits (ownTile s e.a.toNat) (rdS (issuing s) (encB e)).toNat) (hm : issueMask s e ≠ 0) :
    ∃ v : W64, v.toNat < 256 ∧ exec (.tmov e) s = .next (trapped s e ⟨clsTile, 6, v, issueMask s e⟩) := by
  refine issue_tileTrapOpen (x := BitVec.ofNat 64 (rdS (issuing s) (encB e)).toNat) h ((tmovBody_view h.pack hview hx).trans ?_) hm
  simp only [hd, (viewBad_iff _ _).mpr hfits, Bool.false_eq_true, if_false, if_true]

theorem tmov_stalls (h : Issuable (.tmov e) s) (hview : encModBit e 0 = false) (hx : (ownTile s e.a.toNat).defined = true)
    (hready : (ownTile s e.a.toNat).isReady = false)
    (hd : e.a = e.d ∨ (ownTile s e.d.toNat).defined = false) :
    exec (.tmov e) s = .next (stalledIn s ((issued s).count ctrTileStall (s.crew (issuing s).crew).core 1)) := by
  have hfree : ¬(e.a ≠ e.d ∧ (ownTile s e.d.toNat).defined = true) := by
    rcases hd with hd | hd <;> simp [hd]
  refine issue_tileStall h ((tmovBody_move h.pack hview hx).trans ?_)
  rw [if_neg hfree, hready]
  rfl

theorem tmov_view_stalls (h : Issuable (.tmov e) s) (hview : encModBit e 0 = true) (hx : (ownTile s e.a.toNat).defined = true)
    (hfill : (ownTile s e.a.toNat).fill ≠ 0) (hd : (ownTile s e.d.toNat).defined = false)
    (hfits : viewFits (ownTile s e.a.toNat) (rdS (issuing s) (encB e)).toNat) :
    exec (.tmov e) s = .next (stalledIn s ((issued s).count ctrTileStall (s.crew (issuing s).crew).core 1)) := by
  refine issue_tileStall h ((tmovBody_view h.pack hview hx).trans ?_)
  simp only [hd, (viewBad_iff _ _), not_not_intro hfits, hfill, ne_eq, not_false_eq_true, Bool.false_eq_true, if_false, if_true]

/-- The view has the rows that its word names and the geometry of the tile else (R214). -/
theorem viewTile_geom {x : Tile} {w : Nat} (h : viewFits x w) :
    (viewTile x w).geom.toNat % 2 ^ 16 = w / 2 ^ 16 ∧ (viewTile x w).geom.toNat / 2 ^ 16 = x.geom.toNat / 2 ^ 16 := by
  have hg := x.geom.isLt
  obtain ⟨hw, -, -⟩ := h
  unfold viewTile putBits bits
  rw [BitVec.toNat_ofNat]
  omega

end

/-! ### twait, tstat and trel (R215 to R217) -/

section
variable {e : Enc} {s : State}

theorem twait_completes (h : Issuable (.twait e) s) (hx : (ownTile s e.b.toNat).defined = false ∨
      (ownTile s e.b.toNat).fill = 0 ∧ (encModBit e 0 = true ∨ (ownTile s e.b.toNat).drain = 0)) :
    exec (.twait e) s = .next (completedPack s (observeTiles (issuing s) [e.b.toNat]) e 0) := by
  refine issue_done_pack h ?_ (State.setPack_pack_same ..) rfl rfl rfl
  have hgo : (!(ownTile s e.b.toNat).defined) = true ∨ (if encModBit e 0 then (ownTile s e.b.toNat).fill = 0
      else (ownTile s e.b.toNat).isReady = true) := by
    rw [tile_isReady]
    rcases hx with hx | ⟨hfill, hx | hx⟩ <;> simp [*]
  simp only [twaitBody, issued_curPack s h.pack, issued_curCrewId h.pack, tileAt_issued, issueCtx_e, issued_setCur s h.pack]
  rw [if_pos hgo]

theorem twait_stalls (h : Issuable (.twait e) s) (hx : ¬((ownTile s e.b.toNat).defined = false ∨
      (ownTile s e.b.toNat).fill = 0 ∧ (encModBit e 0 = true ∨ (ownTile s e.b.toNat).drain = 0))) :
    exec (.twait e) s = .next (stalledIn s ((issued s).count ctrTileStall (s.crew (issuing s).crew).core 1)) := by
  refine issue_tileStall h ?_
  have hgo : ¬((!(ownTile s e.b.toNat).defined) = true ∨ (if encModBit e 0 then (ownTile s e.b.toNat).fill = 0
      else (ownTile s e.b.toNat).isReady = true)) := by
    rw [tile_isReady]
    cases hview : encModBit e 0 <;> simp_all
  simp only [twaitBody, issued_curCrewId h.pack, tileAt_issued, issueCtx_e]
  rw [if_neg hgo]

/-- The word that tstat reads of an entry (R216). -/
theorem tileWord_eq (x : Tile) (n : Nat) : tileWord x (n % 4) =
    if x.defined = false then 0
    else match n % 4 with
      | 0 => (if x.fill ≠ 0 then 2 else if x.drain ≠ 0 then 3 else 1) + 2 ^ 2 * x.fill + 2 ^ 8 * x.drain + 2 ^ 14 * bit x.replay +
          2 ^ 15 * x.ty + 2 ^ 20 * x.space
      | 1 => x.geom.toNat
      | 2 => x.base % 2 ^ 54
      | _ => x.perm := by
  cases hd : x.defined
  · simp only [tileWord, hd, Bool.not_false, if_true]
  · simp only [tileWord, tileStatus, Tile.state, hd, Bool.not_true, Bool.true_eq_false, Bool.false_eq_true, if_false, if_true, Nat.mul_comm]
      <;> rfl

theorem tstat_reads (h : Issuable (.tstat e) s) (hfree : encMod e % 4 = 0 → s.isStrict (issuing s).launch = false) :
    exec (.tstat e) s = .next (completedPack s (wrS (issuing s) e.d.toNat (BitVec.ofNat 64 (tileWord (ownTile s e.b.toNat) (encMod e % 4)))) e 0) := by
  refine issue_done_pack h ?_ (State.setPack_pack_same ..) rfl rfl rfl
  have hgo : ¬(encMod e % 4 = 0 ∧ s.isStrict (issuing s).launch = true) := by
    rintro ⟨hmod, hstrict⟩
    rw [hfree hmod] at hstrict
    cases hstrict
  simp only [tstatBody, issued_curPack s h.pack, issued_curCrewId h.pack, tileAt_issued, issueCtx_e, issued_setCur s h.pack, issued_isStrict]
  rw [if_neg hgo]

/-- trel of an empty handle changes nothing (R217). -/
theorem trel_empty (h : Issuable (.trel e) s) (hx : (ownTile s e.b.toNat).defined = false) :
    exec (.trel e) s = .next (completed s (issued s) e 0) := by
  refine issue_done_pack h ?_ (issued_pack s) rfl rfl rfl
  simp only [trelBody, issued_curCrewId h.pack, tileAt_issued, issueCtx_e, hx, Bool.not_false, if_true]

theorem trel_empties (h : Issuable (.trel e) s) (hx : (ownTile s e.b.toNat).defined = true) (hready : (ownTile s e.b.toNat).isReady = true) :
    exec (.trel e) s = .next (completed s
      (setTile (s.setPack s.cur (observeTiles (issuing s) [e.b.toNat])) (issuing s).crew e.b.toNat Tile.blank) e 0) := by
  refine issue_done_pack h ?_ (setTile_setPack_pack ..) rfl rfl rfl
  simp only [trelBody, issued_curPack s h.pack, issued_curCrewId h.pack, tileAt_issued, issueCtx_e, hx, hready, Bool.not_true, Bool.false_eq_true,
    if_false, if_true, issued_setCur s h.pack]

theorem trel_stalls (h : Issuable (.trel e) s) (hx : (ownTile s e.b.toNat).defined = true) (hready : (ownTile s e.b.toNat).isReady = false) :
    exec (.trel e) s = .next (stalledIn s ((issued s).count ctrTileStall (s.crew (issuing s).crew).core 1)) := by
  refine issue_tileStall h ?_
  simp only [trelBody, issued_curCrewId h.pack, tileAt_issued, issueCtx_e, hx, hready, Bool.not_true, Bool.false_eq_true, if_false]

end

/-! ### tfill as it issues (R218) -/

section
variable (s : State) (crew k : Nat) (f : TileFill)

/-- A tfill in flight is the crew's last. -/
def queueFill : State := s.modSt crew fun st => { st with tfills := st.tfills ++ [f] }

@[simp] theorem queueFill_mem : (queueFill s crew f).mem = s.mem := rfl
@[simp] theorem queueFill_pack : (queueFill s crew f).pack k = s.pack k := rfl
@[simp] theorem queueFill_gangs : (queueFill s crew f).gangs = s.gangs := rfl
@[simp] theorem queueFill_troops : (queueFill s crew f).troops = s.troops := rfl
@[simp] theorem queueFill_launches : (queueFill s crew f).launches = s.launches := rfl

@[simp] theorem queueFill_spm1 : ((queueFill s crew f).crew k).st.spm1 = (s.crew k).st.spm1 :=
  modSt_st_keeps s crew k _ CrewState.spm1 fun _ => rfl

@[simp] theorem tileAt_queueFill (h : Nat) : tileAt (queueFill s crew f) k h = tileAt s k h :=
  modSt_st_keeps s crew k _ (crewTile · h) fun _ => rfl

@[simp] theorem queueFill_tfills : ((queueFill s crew f).crew crew).st.tfills = (s.crew crew).st.tfills ++ [f] := by
  unfold queueFill
  rw [modSt_crew_same]

end

section
variable {e : Enc} {s : State}

/-- The rows that a tfill has still to write. -/
def tfillOf (e : Enc) (s : State) : TileFill :=
  ⟨s.cur, s.fresh + 1, e.d.toNat,
    patternBytes (typeBits (encTy e 9)) (rdS (issuing s) e.a.toNat).toNat (ownTile s e.d.toNat).rowBytes⟩

/-- The state that tfill leaves as it issues: the tile fills, and the rows are written later. -/
def tfilling (e : Enc) (s : State) : State :=
  queueFill (setTile (s.newId.2.setPack s.cur (observeTiles (issuing s) [e.d.toNat])) (issuing s).crew e.d.toNat
    ((ownTile s e.d.toNat).startFill otherFiller)) (issuing s).crew (tfillOf e s)

/-- tfill changes no byte: the entry fills, and its rows wait (R218). -/
theorem tfilling_frame (e : Enc) (s : State) :
    (tfilling e s).mem = s.mem ∧ (tfilling e s).pack s.cur = observeTiles (issuing s) [e.d.toNat] ∧
      (∀ k, k ≠ s.cur → (tfilling e s).pack k = s.pack k) ∧
      tileAt (tfilling e s) (issuing s).crew e.d.toNat = (ownTile s e.d.toNat).startFill otherFiller ∧
      (∀ k, k ≠ e.d.toNat → tileAt (tfilling e s) (issuing s).crew k = ownTile s k) ∧
      ((tfilling e s).crew (issuing s).crew).st.spm1 = (s.crew (issuing s).crew).st.spm1 ∧ (tfilling e s).gangs = s.gangs ∧
      (tfilling e s).troops = s.troops ∧
      ((tfilling e s).crew (issuing s).crew).st.tfills = (s.crew (issuing s).crew).st.tfills ++ [tfillOf e s] := by
  unfold tfilling
  refine ⟨?_, ?_, fun k hk => ?_, ?_, fun k hk => ?_, ?_, ?_, ?_, ?_⟩
  · rw [queueFill_mem, setTile_mem, State.setPack_mem, State.newId]
  · rw [queueFill_pack, setTile_setPack_pack]
  · rw [queueFill_pack, setTile_pack, State.setPack_pack_other _ _ _ _ hk]
    rfl
  · rw [tileAt_queueFill, tileAt_setTile_same]
  · rw [tileAt_queueFill, tileAt_setTile_other _ _ _ hk]
    rfl
  · rw [queueFill_spm1, setTile_spm1]
    rfl
  · rw [queueFill_gangs, setTile_gangs, State.setPack_gangs, State.newId]
  · rw [queueFill_troops, setTile_troops, State.setPack_troops, State.newId]
  · rw [queueFill_tfills, setTile_tfills]
    rfl

theorem tfillBody_issues (hf : s.isFox = false) (hfree : s.isStrict (issuing s).launch = false) (hx : (ownTile s e.d.toNat).defined = true)
    (hready : (ownTile s e.d.toNat).isReady = true) : tfillBody (issueCtx s e) (issued s) = .done (tfilling e s) 0 := by
  have hstrict : ∀ n colour l, strict (s.newId.2.setPack s.cur (observeTiles (issuing s) [e.d.toNat])) s.cur n colour l =
      .ok (s.newId.2.setPack s.cur (observeTiles (issuing s) [e.d.toNat])) := strict_free (by rw [State.setPack_pack_same]; exact hfree)
  have hcur : (s.newId.2.setPack s.cur (observeTiles (issuing s) [e.d.toNat])).curPack = observeTiles (issuing s) [e.d.toNat] :=
    setPack_curPack (s := s.newId.2) hf _
  unfold tfillBody
  simp only [issued_curCrewId hf, tileAt_issued, issueCtx_e, hx, hready, Bool.not_true, Bool.false_eq_true, if_false, newId_curPack hf,
    newId_setCur hf, issued_cur, hstrict, hcur, observeTiles_rdS]
  rfl

theorem tfill_issues (h : Issuable (.tfill e) s) (hfree : s.isStrict (issuing s).launch = false) (hx : (ownTile s e.d.toNat).defined = true)
    (hready : (ownTile s e.d.toNat).isReady = true) : exec (.tfill e) s = .next (completed s (tfilling e s) e 0) :=
  issue_done_pack h (p := observeTiles (issuing s) [e.d.toNat]) (tfillBody_issues h.pack hfree hx hready)
    (by rw [tfilling, queueFill_pack, setTile_setPack_pack]) rfl rfl (by rw [tfilling, queueFill_launches, setTile_launches]; rfl)

theorem tfill_empty (h : Issuable (.tfill e) s) (hx : (ownTile s e.d.toNat).defined = false) (hm : issueMask s e ≠ 0) :
    exec (.tfill e) s = .next (trapped s e ⟨clsTile, 4, BitVec.ofNat 64 e.d.toNat, issueMask s e⟩) := by
  refine issue_tileTrap h ?_ hm
  simp only [tfillBody, issued_curCrewId h.pack, tileAt_issued, issueCtx_e, hx, Bool.not_false, if_true]

theorem tfill_stalls (h : Issuable (.tfill e) s) (hx : (ownTile s e.d.toNat).defined = true) (hready : (ownTile s e.d.toNat).isReady = false) :
    exec (.tfill e) s = .next (stalledIn s ((issued s).count ctrTileStall (s.crew (issuing s).crew).core 1)) := by
  refine issue_tileStall h ?_
  simp only [tfillBody, issued_curCrewId h.pack, tileAt_issued, issueCtx_e, hx, hready, Bool.not_true, Bool.not_false, Bool.false_eq_true, if_false,
    if_true]

end

end Sys2Proof.Machine
end

section
/-! PROOFS. The bytes of a fill pattern and of a window's rows, and the landing of a tfill (07 R202, R218; 08 R228; 15 R454, R455). -/

namespace Sys2Proof.Machine

/-! ### Patterns (R218) -/

/-- The bytes of a number hold its bits. -/
theorem leBytes_testBit (x : Nat) {n k i : Nat} (hk : k < n) (hi : i < 8) : ((leBytes x n).getD k 0).toNat.testBit i = x.testBit (8 * k + i) := by
  induction n generalizing x k with
  | zero => omega
  | succ n ih =>
    cases k with
    | zero =>
      rw [leBytes, List.getD_cons_zero, BitVec.toNat_ofNat, Nat.testBit_mod_two_pow, Nat.mul_zero, Nat.zero_add]
      simp [hi]
    | succ k =>
      have hdiv : x / 256 = x >>> 8 := (Nat.shiftRight_eq_div_pow x 8).symm
      rw [leBytes, List.getD_cons_succ, ih (x / 256) (Nat.lt_of_succ_lt_succ hk), hdiv, Nat.testBit_shiftRight]
      congr 1
      omega

/-- `m` copies of a pattern of `w` bits, each above the one before. -/
def copies (w pat m : Nat) : Nat := (List.range m).foldl (fun x i => x + pat % 2 ^ w * 2 ^ (w * i)) 0

theorem copies_succ (w pat m : Nat) : copies w pat (m + 1) = 2 ^ (w * m) * (pat % 2 ^ w) + copies w pat m := by
  unfold copies
  rw [List.range_succ, List.foldl_append, List.foldl_cons, List.foldl_nil, Nat.add_comm, Nat.mul_comm]

theorem copies_lt (w pat m : Nat) : copies w pat m < 2 ^ (w * m) := by
  induction m with
  | zero => exact Nat.one_pos
  | succ m ih =>
    rw [copies_succ, Nat.mul_succ, Nat.pow_add]
    calc 2 ^ (w * m) * (pat % 2 ^ w) + copies w pat m < 2 ^ (w * m) * (pat % 2 ^ w) + 2 ^ (w * m) := Nat.add_lt_add_left ih _
      _ = 2 ^ (w * m) * (pat % 2 ^ w + 1) := (Nat.mul_succ _ _).symm
      _ ≤ 2 ^ (w * m) * 2 ^ w := Nat.mul_le_mul_left _ (Nat.mod_lt _ (Nat.two_pow_pos w))

theorem copies_testBit (pat : Nat) {w m j : Nat} (hj : j < w * m) : (copies w pat m).testBit j = pat.testBit (j % w) := by
  induction m with
  | zero => omega
  | succ m ih =>
    rw [copies_succ, Nat.testBit_two_pow_mul_add _ (copies_lt w pat m)]
    split
    next hlow => exact ih hlow
    next hhigh =>
      have hw : j - w * m < w := by rw [Nat.mul_succ] at hj; omega
      have hmod : j % w = j - w * m := by
        rw [← Nat.mod_eq_of_lt hw]
        conv_lhs => rw [← Nat.sub_add_cancel (Nat.le_of_not_lt hhigh), Nat.add_mul_mod_self_left]
      rw [hmod, Nat.testBit_mod_two_pow, decide_eq_true hw, Bool.true_and]

theorem patternBytes_length (w pat n : Nat) : (patternBytes w pat n).length = n := by
  unfold patternBytes
  rw [List.length_map, List.length_range]

/-- The bytes of a pattern spell its low bits over and over (R218). -/
theorem patternBytes_testBit (pat : Nat) {w n j : Nat} (hw : 0 < w) (hj : j < 8 * n) :
    ((patternBytes w pat n).getD (j / 8) 0).toNat.testBit (j % 8) = pat.testBit (j % w) := by
  have hper : 8 * (Nat.lcm w 8 / 8) = Nat.lcm w 8 := Nat.mul_div_cancel' (Nat.dvd_lcm_right w 8)
  have hpos : 0 < Nat.lcm w 8 := Nat.lcm_pos hw (by decide)
  have hbyte : j / 8 % (Nat.lcm w 8 / 8) < Nat.lcm w 8 / 8 := Nat.mod_lt _ (by omega)
  have hplace : 8 * (j / 8 % (Nat.lcm w 8 / 8)) + j % 8 = j % Nat.lcm w 8 := by
    conv_rhs => rw [← hper, Nat.mod_mul]
    exact Nat.add_comm _ _
  have hone : w * (Nat.lcm w 8 / 8 * 8 / w) = Nat.lcm w 8 := by
    rw [Nat.mul_comm _ 8, hper]
    exact Nat.mul_div_cancel' (Nat.dvd_lcm_left w 8)
  unfold patternBytes
  rw [List.getD_eq_getElem _ _ (by simpa using (by omega : j / 8 < n)), List.getElem_map, List.getElem_range,
    leBytes_testBit _ hbyte (Nat.mod_lt _ (by decide)), hplace]
  exact (copies_testBit pat (hone.symm ▸ Nat.mod_lt _ hpos)).trans (congrArg pat.testBit (Nat.mod_mod_of_dvd j (Nat.dvd_lcm_left w 8)))

/-! ### Writes into a window (R202) -/

theorem Tab.get_foldl_set {β γ : Type} [DecidableEq β] (d v : β) (l : List γ) (key : γ → Nat) (t : List (Nat × β)) (k : Nat) :
    Tab.get d (l.foldl (fun t x => Tab.set d t (key x) v) t) k = if k ∈ l.map key then v else Tab.get d t k := by
  induction l generalizing t with
  | nil => simp
  | cons x l ih =>
    rw [List.foldl_cons, ih, Tab.get_set, List.map_cons]
    by_cases h1 : k ∈ l.map key <;> by_cases h2 : k = key x <;> simp [h1, h2]

/-- A run of bytes written from an offset on. -/
theorem get_setBytes (bs : List Byte) (t : List Host.Cell) (off a : Nat) :
    Tab.get 0 (bs.foldl (fun (x : List Host.Cell × Nat) b => (Tab.set 0 x.1 x.2 b, x.2 + 1)) (t, off)).1 a =
      if off ≤ a ∧ a < off + bs.length then bs.getD (a - off) 0 else Tab.get 0 t a := by
  induction bs generalizing t off with
  | nil => simp
  | cons b bs ih =>
    rw [List.foldl_cons, ih, Tab.get_set, List.length_cons]
    rcases Nat.lt_trichotomy a off with h | rfl | h
    · rw [if_neg (by omega), if_neg (by omega), if_neg (by omega)]
    · rw [if_neg (by omega), if_pos rfl, if_pos (by omega), Nat.sub_self, List.getD_cons_zero]
    · obtain ⟨k, rfl⟩ : ∃ k, a = off + 1 + k := ⟨a - (off + 1), by omega⟩
      have hsub : off + 1 + k - off = k + 1 := by omega
      by_cases hk : k < bs.length
      · rw [if_pos (by omega), if_pos (by omega), hsub, List.getD_cons_succ, Nat.add_sub_cancel_left]
      · rw [if_neg (by omega), if_neg (by omega), if_neg (by omega)]

theorem Spad.wr_byte (w : Spad) (off a : Nat) (bs : List Byte) (tag : Option Bool) :
    (w.wr off bs tag).byte a = if off ≤ a ∧ a < off + bs.length then bs.getD (a - off) 0 else w.byte a :=
  get_setBytes bs w.bytes off a

/-- A write without a tag clears the tags that it touches, and sets none (08 R228). -/
theorem Spad.wr_tagAt {w : Spad} {off a : Nat} {bs : List Byte} (h : off ≤ a ∧ a < off + bs.length ∨ w.tagAt a = false) :
    (w.wr off bs none).tagAt a = false := by
  have hget : (w.wr off bs none).tagAt a =
      if a / 16 ∈ ((Piece.mk off bs none false true).units 16).map id then false else w.tagAt a :=
    Tab.get_foldl_set false _ _ id w.tags (a / 16)
  rw [hget, List.map_id]
  split
  next => rfl
  next hunit =>
    refine h.resolve_left fun ⟨hlow, hhigh⟩ => hunit ?_
    have hbs : bs.isEmpty = false := by cases bs <;> simp_all; omega
    simp only [Piece.units, hbs, Bool.false_eq_true, if_false, List.mem_map, List.mem_range]
    exact ⟨a / 16 - off / 16, by omega, by omega⟩

/-- The window of a tile after its rows are written with the same bytes. -/
def writeAll (x : Tile) (bs : List Byte) (n : Nat) (w : Spad) : Spad := (List.range n).foldl (fun w i => w.wr (x.rowOff i) bs none) w

theorem writeAll_succ (x : Tile) (bs : List Byte) (n : Nat) (w : Spad) :
    writeAll x bs (n + 1) w = (writeAll x bs n w).wr (x.rowOff n) bs none := by
  unfold writeAll
  rw [List.range_succ, List.foldl_append]
  rfl

section
variable {x : Tile} {bs : List Byte} {w : Spad}

theorem writeAll_other {n a : Nat} (h : ∀ i < n, ¬(x.rowOff i ≤ a ∧ a < x.rowOff i + bs.length)) : (writeAll x bs n w).byte a = w.byte a := by
  induction n with
  | zero => rfl
  | succ n ih => rw [writeAll_succ, Spad.wr_byte, if_neg (h n n.lt_succ_self), ih fun i hi => h i (Nat.lt_succ_of_lt hi)]

/-- Rows that do not overlap hold the bytes. -/
theorem writeAll_row (hlen : bs.length ≤ x.pitch * 64) {n i k : Nat} (hi : i < n) (hk : k < bs.length) :
    (writeAll x bs n w).byte (x.rowOff i + k) = bs.getD k 0 := by
  induction n with
  | zero => omega
  | succ n ih =>
    rw [writeAll_succ, Spad.wr_byte]
    rcases Nat.lt_succ_iff_lt_or_eq.mp hi with hlt | rfl
    · have habove : x.rowOff i + x.pitch * 64 ≤ x.rowOff n := by
        unfold Tile.rowOff
        have := Nat.mul_le_mul_right (x.pitch * 64) (Nat.succ_le_of_lt hlt)
        rw [Nat.succ_mul] at this
        simp only [Nat.mul_assoc]
        omega
      rw [if_neg (by omega), ih hlt]
    · rw [if_pos (by omega), Nat.add_sub_cancel_left]

theorem writeAll_tag {n i k : Nat} (hi : i < n) (hk : k < bs.length) : (writeAll x bs n w).tagAt (x.rowOff i + k) = false := by
  induction n with
  | zero => omega
  | succ n ih =>
    rw [writeAll_succ]
    rcases Nat.lt_succ_iff_lt_or_eq.mp hi with hlt | rfl
    · exact Spad.wr_tagAt (.inr (ih hlt))
    · exact Spad.wr_tagAt (.inl (by omega))

end

end Sys2Proof.Machine
end

section
/-! PROOFS. A write of an engine into a window, and the landing of a tfill (07 R218; 15 R454, R455). -/

namespace Sys2Proof.Machine

/-! ### Sums over a table -/

section
variable {β : Type} (g : Nat × β → Nat)

theorem Tab.sum_insert (l : List (Nat × β)) (k : Nat) (v : β) : ((Tab.insert l k v).map g).sum = (l.map g).sum + g (k, v) := by
  induction l with
  | nil => simp [Tab.insert]
  | cons x l ih =>
    obtain ⟨a, b⟩ := x
    unfold Tab.insert
    split
    · simp only [List.map_cons, List.sum_cons]; omega
    · simp only [List.map_cons, List.sum_cons, ih]; omega

theorem Tab.sum_erase_le (l : List (Nat × β)) (k : Nat) : ((Tab.erase l k).map g).sum ≤ (l.map g).sum :=
  ((Tab.erase_sublist l k).map g).sum_le_sum fun _ _ => Nat.zero_le _

/-- The entry that a key reads is among those that its erasure drops. -/
theorem Tab.sum_erase_get {d : β} {l : List (Nat × β)} {k : Nat} (h : Tab.get d l k ≠ d) :
    ((Tab.erase l k).map g).sum + g (k, Tab.get d l k) ≤ (l.map g).sum := by
  induction l with
  | nil => exact absurd rfl h
  | cons x l ih =>
    obtain ⟨a, b⟩ := x
    unfold Tab.erase
    rw [Tab.get_cons] at h ⊢
    simp only [List.map_cons, List.sum_cons]
    split
    next hak =>
      have := Tab.sum_erase_le g l k
      subst hak
      omega
    next hak =>
      rw [if_neg hak] at h
      have := ih h
      simp only [List.map_cons, List.sum_cons]
      omega

theorem Tab.sum_set_le [DecidableEq β] (d : β) (l : List (Nat × β)) (k : Nat) (v : β) :
    ((Tab.set d l k v).map g).sum ≤ ((Tab.erase l k).map g).sum + g (k, v) := by
  unfold Tab.set
  split
  · exact Nat.le_add_right _ _
  · exact (Tab.sum_insert g _ k v).le

end

/-- A crew but for its SPM1 window and the den. -/
def Crew.sansPad (c : Crew) : Crew := { c with st := { c.st with spm1 := Spad.blank }, den := [] }

/-- A gang but for its SPM2 window. -/
def Gang.sansPad (g : Gang) : Gang := { g with spm2 := Spad.blank }

/-- A crew with granules that the den has copied besides. -/
def Crew.copied (new : List Nat) (c : Crew) : Crew := { c with den := c.den ++ new }

/-! ### Items of the den (15 R457) -/

/-- The items that a crew keeps in the den. -/
def denOf (s : State) (c : Nat) : Nat :=
  if (s.crew c).lost then 0
  else (s.crew c).den.length + (s.crew c).packs.foldl (fun k p => k + (s.pack p).denRows.length + (s.pack p).denImage.length) 0

/-- The items that an entry of the crews' table accounts for in the den of a core. -/
def denShare (s : State) (core : Nat) (x : Nat × Crew) : Nat :=
  if x.2.live && x.2.phase == .placed && x.2.core == core then denOf s x.1 else 0

theorem denUsed_eq (s : State) (core : Nat) : denUsed s core = (s.crews.map (denShare s core)).sum := by
  have hfold (l : List Nat) (n : Nat) : l.foldl (fun n c =>
      if (s.crew c).lost then n else n + (s.crew c).den.length +
        (s.crew c).packs.foldl (fun k p => k + (s.pack p).denRows.length + (s.pack p).denImage.length) 0) n = n + (l.map (denOf s)).sum := by
    induction l generalizing n with
    | nil => rfl
    | cons c l ih =>
      rw [List.foldl_cons, ih, List.map_cons, List.sum_cons]
      unfold denOf
      split <;> omega
  have hfilter (l : List (Nat × Crew)) :
      (((l.filter fun x => x.2.live && x.2.phase == .placed && x.2.core == core).map (·.1)).map (denOf s)).sum = (l.map (denShare s core)).sum := by
    induction l with
    | nil => rfl
    | cons x l ih =>
      rw [List.filter_cons, List.map_cons (f := denShare s core), List.sum_cons, ← ih]
      unfold denShare
      split
      · rfl
      · exact (Nat.zero_add _).symm
  exact (hfold _ 0).trans ((Nat.zero_add _).trans (hfilter s.crews))

/-- A crew that comes to hold `n` more granules in the den adds no more to the den of any core. -/
theorem denUsed_modCrew (s : State) (crew core n : Nat) {f : Crew → Crew} (hf : ∀ c, (f c).sansPad = c.sansPad)
    (hn : ∀ c, (f c).den.length ≤ c.den.length + n) : denUsed (s.modCrew crew f) core ≤ denUsed s core + n := by
  have hkeep := hf (s.crew crew)
  have hlive : (f (s.crew crew)).live = (s.crew crew).live := (congrArg Crew.live hkeep :)
  have hphase : (f (s.crew crew)).phase = (s.crew crew).phase := (congrArg Crew.phase hkeep :)
  have hcore : (f (s.crew crew)).core = (s.crew crew).core := (congrArg Crew.core hkeep :)
  have hlost : (f (s.crew crew)).lost = (s.crew crew).lost := (congrArg Crew.lost hkeep :)
  have hpacks : (f (s.crew crew)).packs = (s.crew crew).packs := (congrArg Crew.packs hkeep :)
  have hother (x : Nat × Crew) (hx : x ∈ Tab.erase s.crews crew) : denShare (s.modCrew crew f) core x = denShare s core x := by
    unfold denShare denOf
    rw [show (s.modCrew crew f).crew x.1 = s.crew x.1 from State.setCrew_crew_other _ _ _ _ (Tab.not_mem_erase _ _ x hx)]
    rfl
  have hsame : denOf (s.modCrew crew f) crew ≤ denOf s crew + n := by
    unfold denOf
    rw [show (s.modCrew crew f).crew crew = f (s.crew crew) from State.setCrew_crew_same .., hlost, hpacks]
    split
    · exact Nat.zero_le _
    · exact (Nat.add_le_add_right (hn _) _).trans (Nat.add_right_comm _ _ _).le
  rw [denUsed_eq, denUsed_eq]
  calc ((s.modCrew crew f).crews.map (denShare (s.modCrew crew f) core)).sum
      ≤ ((Tab.erase s.crews crew).map (denShare (s.modCrew crew f) core)).sum + denShare (s.modCrew crew f) core (crew, f (s.crew crew)) :=
        Tab.sum_set_le _ _ _ _ _
    _ = ((Tab.erase s.crews crew).map (denShare s core)).sum + denShare (s.modCrew crew f) core (crew, f (s.crew crew)) := by
        rw [List.map_congr_left hother]
    _ ≤ (s.crews.map (denShare s core)).sum + n := by
        by_cases hon : ((s.crew crew).live && (s.crew crew).phase == .placed && (s.crew crew).core == core) = true
        · have hthere : Tab.get Crew.blank s.crews crew ≠ Crew.blank := fun h => by
            rw [show s.crew crew = Crew.blank from h] at hon
            cases hon
          have hsum : ((Tab.erase s.crews crew).map (denShare s core)).sum + denShare s core (crew, s.crew crew) ≤
            (s.crews.map (denShare s core)).sum := Tab.sum_erase_get (denShare s core) hthere
          unfold denShare at hsum ⊢
          simp only [hlive, hphase, hcore, hon, if_true] at hsum ⊢
          omega
        · have hsum := Tab.sum_erase_le (denShare s core) s.crews crew
          unfold denShare at hsum ⊢
          simp only [hlive, hphase, hcore, hon, Bool.false_eq_true, if_false] at hsum ⊢
          omega

/-! ### What a write of a window leaves alone -/

/-- Only windows and the den have changed. -/
structure PadsOnly (s t : State) : Prop where
  mem : t.mem = s.mem
  packs : t.packs = s.packs
  crews : ∀ k, (t.crew k).sansPad = (s.crew k).sansPad
  gangs : ∀ k, (t.gang k).sansPad = (s.gang k).sansPad

namespace PadsOnly
variable {s t u : State}

theorem refl (s : State) : PadsOnly s s := ⟨rfl, rfl, fun _ => rfl, fun _ => rfl⟩

theorem trans (h : PadsOnly s t) (h' : PadsOnly t u) : PadsOnly s u :=
  ⟨h'.mem.trans h.mem, h'.packs.trans h.packs, fun k => (h'.crews k).trans (h.crews k), fun k => (h'.gangs k).trans (h.gangs k)⟩

theorem modCrew (s : State) (n : Nat) {f : Crew → Crew} (hf : ∀ c, (f c).sansPad = c.sansPad) : PadsOnly s (s.modCrew n f) where
  mem := rfl
  packs := rfl
  crews k := by
    unfold State.modCrew
    by_cases hk : k = n
    · subst hk; rw [State.setCrew_crew_same]; exact hf _
    · rw [State.setCrew_crew_other _ _ _ _ hk]
  gangs _ := rfl

theorem modGang (s : State) (n : Nat) {f : Gang → Gang} (hf : ∀ g, (f g).sansPad = g.sansPad) : PadsOnly s (s.modGang n f) where
  mem := rfl
  packs := rfl
  crews _ := rfl
  gangs k := by
    unfold State.modGang
    by_cases hk : k = n
    · subst hk; rw [State.setGang_gang_same]; exact hf _
    · rw [State.setGang_gang_other _ _ _ _ hk]

theorem wrSpad (s : State) (l : Loc) (bs : List Byte) (tag : Option Bool) : PadsOnly s (s.wrSpad l bs tag) := by
  unfold State.wrSpad
  split
  · exact refl s
  · exact modCrew s _ fun _ => rfl
  · exact modGang s _ fun _ => rfl
  · exact ⟨rfl, rfl, fun _ => rfl, fun _ => rfl⟩

theorem countPartial (s : State) (cl : Nat) (l : List (Loc × Nat)) : PadsOnly s (Machine.countPartial s cl l) := by
  unfold Machine.countPartial
  dsimp only
  split
  · exact refl s
  · exact ⟨rfl, rfl, fun _ => rfl, fun _ => rfl⟩

theorem pack (h : PadsOnly s t) (k : Nat) : t.pack k = s.pack k := by unfold State.pack; rw [h.packs]
theorem live (h : PadsOnly s t) (k : Nat) : (t.crew k).live = (s.crew k).live := (congrArg Crew.live (h.crews k) :)
theorem lost (h : PadsOnly s t) (k : Nat) : (t.crew k).lost = (s.crew k).lost := (congrArg Crew.lost (h.crews k) :)
theorem core (h : PadsOnly s t) (k : Nat) : (t.crew k).core = (s.crew k).core := (congrArg Crew.core (h.crews k) :)
theorem crewPacks (h : PadsOnly s t) (k : Nat) : (t.crew k).packs = (s.crew k).packs := (congrArg Crew.packs (h.crews k) :)
theorem tfills (h : PadsOnly s t) (k : Nat) : (t.crew k).st.tfills = (s.crew k).st.tfills := (congrArg (fun c : Crew => c.st.tfills) (h.crews k) :)
theorem tile (h : PadsOnly s t) (k n : Nat) : tileAt t k n = tileAt s k n := (congrArg (fun c : Crew => crewTile c.st n) (h.crews k) :)

theorem windowLoc (h : PadsOnly s t) (k space off : Nat) : Machine.windowLoc t k space off = Machine.windowLoc s k space off := by
  have hgang : (t.crew k).gang = (s.crew k).gang := (congrArg Crew.gang (h.crews k) :)
  have htroop (n : Nat) : (t.gang n).troop = (s.gang n).troop := (congrArg Gang.troop (h.gangs n) :)
  unfold Machine.windowLoc
  rw [hgang, htroop]

end PadsOnly

/-! ### Writes of an engine -/

theorem units_length (off : Nat) (bs : List Byte) : ((Piece.mk off bs none false false).units 64).length ≤ bs.length / 64 + 2 := by
  unfold Piece.units
  split
  · exact Nat.zero_le _
  · rw [List.length_map, List.length_range]
    dsimp only
    omega

theorem nubNat_length_le (l : List Nat) : (nubNat l).length ≤ l.length :=
  ((nubNat_spec l).1.subperm fun x hx => ((nubNat_spec l).2 x).mp hx).length_le

/-- There is room in the den for `n` more granules of a crew, where it needs any: only writes of SPM1 do, and only of a crew with
containment (15 R455, R457). -/
def denRoomFor (s : State) (crew space n : Nat) : Prop :=
  space = 2 → (s.crew crew).lost = true ∨ denUsed s (s.crew crew).core + n ≤ denRoom

/-- Where there is room, the den takes the granules that it has not copied, and the crew keeps its containment. -/
theorem denNote_room {s : State} {crew n : Nat} {grans : List Nat} (hn : grans.length ≤ n) (hroom : denRoomFor s crew 2 n) :
    denNote s crew grans = s ∨
      ∃ new : List Nat, new.length ≤ n ∧ denNote s crew grans = s.modCrew crew (Crew.copied new) := by
  have hnew : ((nubNat grans).filter fun g => !(s.crew crew).den.contains g).length ≤ n :=
    List.length_filter_le .. |>.trans (nubNat_length_le grans) |>.trans hn
  unfold denNote
  dsimp only
  by_cases hlost : (s.crew crew).lost = true
  · exact .inl (if_pos hlost)
  · rw [if_neg hlost]
    split
    next => exact .inl rfl
    next =>
      have := (hroom rfl).resolve_left hlost
      rw [if_neg (by omega)]
      exact .inr ⟨_, hnew, rfl⟩

section
variable {s : State} {crew space off n : Nat} {bs : List Byte}

theorem window_eq {t : State} (h : PadsOnly s t) : Claims.window t crew space = t.spad (windowLoc s crew space 0) := by
  unfold Claims.window
  rw [h.windowLoc]

theorem wrSpad_window (hs : space = 2 ∨ space = 3 ∨ space = 4) (bs : List Byte) (tag : Option Bool) :
    Claims.window (s.wrSpad (windowLoc s crew space off) bs tag) crew space = (Claims.window s crew space).wr off bs tag := by
  rw [window_eq (PadsOnly.wrSpad ..)]
  unfold Claims.window
  rcases hs with rfl | rfl | rfl
  · exact congrArg (fun c : Crew => c.st.spm1) (State.setCrew_crew_same ..)
  · exact congrArg Gang.spm2 (State.setGang_gang_same ..)
  · exact congrArg Troop.spm3 (State.setTroop_troop_same ..)

/-- The room that is left after a change of the crew that puts `k` granules into the den. -/
theorem denRoomFor_modCrew {k : Nat} {f : Crew → Crew} (hf : ∀ c, (f c).sansPad = c.sansPad) (hk : ∀ c, (f c).den.length ≤ c.den.length + k)
    (h : denRoomFor s crew 2 (n + k)) : denRoomFor (s.modCrew crew f) crew 2 n := by
  have hrest := PadsOnly.modCrew s crew hf
  intro _
  rw [hrest.lost, hrest.core]
  refine (h rfl).imp_right fun hroom => ?_
  have := denUsed_modCrew s crew (s.crew crew).core k hf hk
  omega

theorem window_modCrew {f : Crew → Crew} (hf : ∀ c, (f c).st = c.st) : Claims.window (s.modCrew crew f) crew 2 = Claims.window s crew 2 := by
  show ((s.modCrew crew f).crew crew).st.spm1 = (s.crew crew).st.spm1
  rw [show (s.modCrew crew f).crew crew = f (s.crew crew) from State.setCrew_crew_same .., hf]

/-- An engine's write: the window's bytes, and nothing but windows and the den; `n` more granules then still have room. -/
structure EngineWritten (s t : State) (crew space off n : Nat) (bs : List Byte) : Prop where
  window : Claims.window t crew space = (Claims.window s crew space).wr off bs none
  rest : PadsOnly s t
  room : denRoomFor t crew space n

theorem wrSpad_written (h : denRoomFor s crew 2 n) (bs : List Byte) :
    EngineWritten s (s.wrSpad (windowLoc s crew 2 off) bs none) crew 2 off n bs where
  window := wrSpad_window (.inl rfl) bs none
  rest := PadsOnly.wrSpad ..
  room := denRoomFor_modCrew (k := 0) (fun _ => rfl) (fun _ => le_rfl) h

theorem engineWrite_spm1 (hroom : denRoomFor s crew 2 (n + (bs.length / 64 + 2))) :
    EngineWritten s (engineWrite s crew 2 off bs) crew 2 off n bs := by
  have hfits : denRoomFor s crew 2 (bs.length / 64 + 2) := fun h2 => (hroom h2).imp_right fun h => by omega
  have hwrite : engineWrite s crew 2 off bs =
      (denNote s crew ((Piece.mk off bs none false false).units 64)).wrSpad (windowLoc s crew 2 off) bs none := rfl
  rw [hwrite]
  rcases denNote_room (units_length off bs) hfits with hnote | ⟨new, hnew, hnote⟩
  · rw [hnote]
    exact wrSpad_written (fun h2 => (hroom h2).imp_right fun h => by omega) bs
  · rw [hnote]
    have hden (c : Crew) : (c.copied new).den.length ≤ c.den.length + (bs.length / 64 + 2) := by
      rw [Crew.copied, List.length_append]
      exact Nat.add_le_add_left hnew _
    have hcopied : ∀ c : Crew, (c.copied new).sansPad = c.sansPad := fun _ => rfl
    obtain ⟨hwindow, hrest, hleft⟩ := wrSpad_written (off := off) (denRoomFor_modCrew hcopied hden hroom) bs
    exact ⟨hwindow.trans (congrArg (fun w : Spad => w.wr off bs none) (window_modCrew fun _ => rfl)),
      (PadsOnly.modCrew s crew hcopied).trans hrest, hleft⟩

theorem engineWrite_written (hs : space = 2 ∨ space = 3 ∨ space = 4) (hroom : denRoomFor s crew space (n + (bs.length / 64 + 2))) :
    EngineWritten s (engineWrite s crew space off bs) crew space off n bs := by
  by_cases h2 : space = 2
  · subst h2
    exact engineWrite_spm1 hroom
  · have hwrite : engineWrite s crew space off bs =
        (countPartial s (s.clusterOf crew) [(windowLoc s crew space off, bs.length)]).wrSpad (windowLoc s crew space off) bs none := if_neg h2
    have hcount := PadsOnly.countPartial s (s.clusterOf crew) [(windowLoc s crew space off, bs.length)]
    have hwindow : Claims.window (countPartial s (s.clusterOf crew) [(windowLoc s crew space off, bs.length)]) crew space =
        Claims.window s crew space := by
      rw [window_eq hcount]
      unfold countPartial Claims.window
      dsimp only
      split <;> rfl
    rw [hwrite]
    generalize countPartial s (s.clusterOf crew) [(windowLoc s crew space off, bs.length)] = t at hcount hwindow ⊢
    rw [← hcount.windowLoc]
    exact ⟨(wrSpad_window hs bs none).trans (congrArg (fun w : Spad => w.wr off bs none) hwindow), hcount.trans (PadsOnly.wrSpad ..),
      fun h => absurd h h2⟩

/-- The rows of a tile are written (R218). -/
theorem engineWrites_written {x : Tile} (hs : x.space = 2 ∨ x.space = 3 ∨ x.space = 4) (l : List Nat)
    (hroom : denRoomFor s crew x.space (l.length * (bs.length / 64 + 2))) :
    let t := l.foldl (fun s i => engineWrite s crew x.space (x.rowOff i) bs) s
    Claims.window t crew x.space = l.foldl (fun w i => w.wr (x.rowOff i) bs none) (Claims.window s crew x.space) ∧ PadsOnly s t := by
  induction l generalizing s with
  | nil => exact ⟨rfl, PadsOnly.refl s⟩
  | cons i l ih =>
    rw [List.length_cons, Nat.succ_mul] at hroom
    obtain ⟨hwindow, hrest, hleft⟩ := engineWrite_written (off := x.rowOff i) hs hroom
    obtain ⟨hwindows, hrests⟩ := ih hleft
    exact ⟨by rw [List.foldl_cons, List.foldl_cons, hwindows, hwindow], hrest.trans hrests⟩

theorem fillRows_written {x : Tile} (hs : x.space = 2 ∨ x.space = 3 ∨ x.space = 4)
    (hroom : denRoomFor s crew x.space (x.rows * (bs.length / 64 + 2))) :
    Claims.window (fillRows s crew x bs) crew x.space = writeAll x bs x.rows (Claims.window s crew x.space) ∧ PadsOnly s (fillRows s crew x bs) :=
  engineWrites_written hs (List.range x.rows) (by rwa [List.length_range])

end

/-! ### A tfill lands (R218) -/

section
variable {s : State} {crew : Nat}

/-- A crew that has a pack left goes on. -/
theorem settleCrew_goesOn (h : ∃ q ∈ (s.crew crew).packs, (s.pack q).live = true) : settleCrew s crew = s := by
  have hany : ((s.crew crew).packs.any fun q => (s.pack q).live) = true := List.any_eq_true.mpr h
  unfold settleCrew
  simp only [hany, Bool.not_true, Bool.and_false, Bool.false_and, Bool.false_eq_true, if_false]

/-- What noting a completion for its pack keeps (16 R484). -/
theorem noteDone_keeps (s : State) (k op : Nat) (l : List (Nat × Nat)) :
    ∃ ps, noteDone s k op l = { s with packs := ps } ∧ ∀ q, ((noteDone s k op l).pack q).live = (s.pack q).live := by
  unfold noteDone
  dsimp only
  split
  · refine ⟨_, rfl, fun q => ?_⟩
    by_cases hq : q = k
    · subst hq; rw [State.modPack_pack_same]
    · rw [modPack_other s hq]
  · exact ⟨s.packs, rfl, fun _ => rfl⟩

/-- The state after the oldest tfill has landed, but for what its pack notes. -/
def landed (s : State) (crew : Nat) (f : TileFill) (l : List TileFill) : State :=
  (setTile (fillRows s crew (tileAt s crew f.tile) f.bytes) crew f.tile ((tileAt s crew f.tile).endFill otherFiller)).modSt crew
    fun st => { st with tfills := l }

/-- What a landed tfill leaves, where its rows have room: the entry, the bytes and the crew's other tfills. -/
structure Landed (s t : State) (crew : Nat) (f : TileFill) (l : List TileFill) : Prop where
  mem : t.mem = s.mem
  tfills : (t.crew crew).st.tfills = l
  tiles : ∀ k, tileAt t crew k = if k = f.tile then (tileAt s crew f.tile).endFill otherFiller else tileAt s crew k
  window : Claims.window t crew (tileAt s crew f.tile).space =
    writeAll (tileAt s crew f.tile) f.bytes (tileAt s crew f.tile).rows (Claims.window s crew (tileAt s crew f.tile).space)

theorem Landed.withPacks {t : State} {f : TileFill} {l : List TileFill} (h : Landed s t crew f l) (ps : Tab Pack) :
    Landed s { t with packs := ps } crew f l := ⟨h.mem, h.tfills, h.tiles, h.window⟩

/-- The tile table and the tfills in flight are in no window. -/
theorem window_modSt {space n : Nat} {f : CrewState → CrewState} (hf : ∀ st, (f st).spm1 = st.spm1) :
    Claims.window (s.modSt n f) crew space = Claims.window s crew space := by
  have hloc : windowLoc (s.modSt n f) crew space 0 = windowLoc s crew space 0 := by
    unfold windowLoc
    rw [modSt_gang]
    rfl
  unfold Claims.window
  rw [hloc]
  unfold windowLoc
  split
  · exact modSt_st_keeps s n crew f CrewState.spm1 hf
  · rfl
  · rfl

theorem window_setTile (s : State) (c h : Nat) (x : Tile) (space : Nat) : Claims.window (setTile s c h x) crew space = Claims.window s crew space :=
  window_modSt fun _ => rfl

section
variable {f : TileFill} (l : List TileFill)
  (hs : (tileAt s crew f.tile).space = 2 ∨ (tileAt s crew f.tile).space = 3 ∨ (tileAt s crew f.tile).space = 4)
  (hroom : denRoomFor s crew (tileAt s crew f.tile).space ((tileAt s crew f.tile).rows * (f.bytes.length / 64 + 2)))
include hs hroom

theorem landed_spec : Landed s (landed s crew f l) crew f l := by
  obtain ⟨hwindow, hrest⟩ := fillRows_written hs hroom
  refine ⟨hrest.mem, ?_, fun k => ?_, ?_⟩
  · rw [landed, modSt_crew_same]
  · have htile (t : State) : tileAt (t.modSt crew fun st => { st with tfills := l }) crew k = tileAt t crew k :=
      modSt_st_keeps t crew crew _ (crewTile · k) fun _ => rfl
    rw [landed, htile, tileAt_setTile, hrest.tile]
  · have hmod (t : State) : Claims.window (t.modSt crew fun st => { st with tfills := l }) crew (tileAt s crew f.tile).space =
        Claims.window t crew (tileAt s crew f.tile).space := window_modSt fun _ => rfl
    rw [landed, hmod, window_setTile, hwindow]

/-- A crew that has a pack left still has it. -/
theorem landed_pack (hpack : ∃ q ∈ (s.crew crew).packs, (s.pack q).live = true) :
    ∃ q ∈ ((landed s crew f l).crew crew).packs, ((landed s crew f l).pack q).live = true := by
  obtain ⟨-, hrest⟩ := fillRows_written hs hroom
  obtain ⟨q, hq, hlive⟩ := hpack
  refine ⟨q, ?_, ?_⟩
  · rwa [landed, modSt_packs, setTile, modSt_packs, hrest.crewPacks]
  · exact (congrArg Pack.live (hrest.pack q)).trans hlive

end

/-- The pack of a completed operation notes it, and its crew goes on where it has a pack left (16 R484). -/
theorem noteDone_goesOn {t : State} (k op : Nat) (l : List (Nat × Nat)) (hpack : ∃ q ∈ (t.crew crew).packs, (t.pack q).live = true) :
    ∃ ps, settleCrew (noteDone t k op l) crew = { t with packs := ps } := by
  obtain ⟨ps, hps, hlives⟩ := noteDone_keeps t k op l
  obtain ⟨q, hq, hqlive⟩ := hpack
  have hmember : q ∈ ((noteDone t k op l).crew crew).packs := by rwa [hps]
  exact ⟨ps, (settleCrew_goesOn ⟨q, hmember, (hlives q).trans hqlive⟩).trans hps⟩

/-- The oldest tfill of a crew that has a pack left lands. -/
theorem landFill_lands {f : TileFill} {l : List TileFill} (hf : (s.crew crew).st.tfills = f :: l) (hlive : (s.crew crew).live = true)
    (hpack : ∃ q ∈ (s.crew crew).packs, (s.pack q).live = true)
    (hs : (tileAt s crew f.tile).space = 2 ∨ (tileAt s crew f.tile).space = 3 ∨ (tileAt s crew f.tile).space = 4)
    (hroom : denRoomFor s crew (tileAt s crew f.tile).space ((tileAt s crew f.tile).rows * (f.bytes.length / 64 + 2))) :
    ∃ t, landFill crew s = .next t ∧ Landed s t crew f l := by
  obtain ⟨-, hrest⟩ := fillRows_written hs hroom
  obtain ⟨ps, hps⟩ := noteDone_goesOn f.pack f.op [(0, f.tile)] (landed_pack l hs hroom hpack)
  refine ⟨_, ?_, (landed_spec l hs hroom).withPacks ps⟩
  unfold landFill
  simp only [hf, hrest.live, hlive, Bool.not_true, Bool.false_eq_true, if_false, modTile, hrest.tile]
  exact congrArg Host.Outcome.next hps

/-! ### The bytes and tags of the rows -/

section
variable {t : State} {f : TileFill} {l : List TileFill}

theorem Landed.rowBit (h : Landed s t crew f l) (hlen : f.bytes.length ≤ (tileAt s crew f.tile).pitch * 64) {i j : Nat}
    (hi : i < (tileAt s crew f.tile).rows) (hj : j < 8 * f.bytes.length) :
    Claims.rowBit (Claims.window t crew (tileAt s crew f.tile).space) ((tileAt s crew f.tile).rowOff i) j =
      (f.bytes.getD (j / 8) 0).toNat.testBit (j % 8) := by
  unfold Claims.rowBit
  rw [h.window, writeAll_row hlen hi (by omega)]

theorem Landed.tag (h : Landed s t crew f l) {i j : Nat} (hi : i < (tileAt s crew f.tile).rows) (hj : j < f.bytes.length) :
    (Claims.window t crew (tileAt s crew f.tile).space).tagAt ((tileAt s crew f.tile).rowOff i + j) = false := by
  rw [h.window, writeAll_tag hi hj]

theorem Landed.other (h : Landed s t crew f l) {a : Nat} (ha : ∀ i < (tileAt s crew f.tile).rows,
      ¬((tileAt s crew f.tile).rowOff i ≤ a ∧ a < (tileAt s crew f.tile).rowOff i + f.bytes.length)) :
    (Claims.window t crew (tileAt s crew f.tile).space).byte a = (Claims.window s crew (tileAt s crew f.tile).space).byte a := by
  rw [h.window, writeAll_other ha]

end

end

end Sys2Proof.Machine
end

section
/-! PROOFS. The claims about tiles (07 R206, R209 to R218). -/

namespace Sys2Proof
open Machine

/-- tmov moves the entry and changes no other, and no byte (07 R213). -/
theorem tileMoved_frame (e : Enc) (s : State) :
    tileAt (tileMoved e s) (issuing s).crew e.d.toNat = tileAt s (issuing s).crew e.a.toNat ∧
      (e.a ≠ e.d → (tileAt (tileMoved e s) (issuing s).crew e.a.toNat).defined = false) ∧
      (∀ k, k ≠ e.a.toNat → k ≠ e.d.toNat → tileAt (tileMoved e s) (issuing s).crew k = tileAt s (issuing s).crew k) ∧
      (tileMoved e s).mem = s.mem ∧ ((tileMoved e s).crew (issuing s).crew).st.spm1 = (s.crew (issuing s).crew).st.spm1 ∧
      (tileMoved e s).gangs = s.gangs ∧ (tileMoved e s).troops = s.troops ∧
      (∀ k, k ≠ (issuing s).crew → (tileMoved e s).crew k = s.crew k) ∧ ∀ k, k ≠ s.cur → (tileMoved e s).pack k = s.pack k := by
  unfold tileMoved
  dsimp only
  split
  next ha =>
    exact ⟨by rw [← ha, tileAt_setPack], fun h => absurd ha h, fun _ _ _ => rfl, rfl, rfl, rfl, rfl, fun _ _ => rfl,
      fun k hk => State.setPack_pack_other _ _ _ _ hk⟩
  next ha =>
    have hne : e.d.toNat ≠ e.a.toNat := fun h => ha (BitVec.eq_of_toNat_eq h.symm)
    refine ⟨?_, fun _ => ?_, fun k hka hkd => ?_, ?_, ?_, ?_, ?_, fun k hk => ?_, fun k hk => ?_⟩
    · rw [tileAt_setTile_other _ _ _ hne, tileAt_setTile_same, ownTile]
    · rw [tileAt_setTile_same]
      rfl
    · rw [tileAt_setTile_other _ _ _ hka, tileAt_setTile_other _ _ _ hkd, tileAt_setPack]
    · rw [setTile_mem, setTile_mem, State.setPack_mem]
    · rw [setTile_spm1, setTile_spm1, State.setPack_crew]
    · rw [setTile_gangs, setTile_gangs, State.setPack_gangs]
    · rw [setTile_troops, setTile_troops, State.setPack_troops]
    · rw [setTile_crew_other _ _ _ hk, setTile_crew_other _ _ _ hk, State.setPack_crew]
    · rw [setTile_pack, setTile_pack, State.setPack_pack_other _ _ _ _ hk]

/-- Settles O31: each form writes one entry of the tile table, or moves one. -/
theorem tileDefinition : Obligations.TileDefinition := by
  refine ⟨?_, ?_, ?_⟩
  · intro e h s p c g base hissue htag hspace hallowed hbase hgeom hlow hhigh hd
    have hcap : TdefCap e s := ⟨htag, hspace, hallowed, hbase⟩
    have hfits : tdefFits e p := ⟨hgeom, hlow, hhigh⟩
    split at hd
    next hany =>
      obtain ⟨hlt, hempty, hbelow, hfree⟩ := hd
      refine ⟨_, tdef_any hissue hcap hany (lowestEmpty_some.mpr ⟨hempty, hlt, hbelow⟩) hfits hfree, ?_⟩
      rw [if_pos hany]
      exact tileDone_setTile ..
    next hany =>
      obtain ⟨rfl, hempty⟩ := hd
      refine ⟨_, tdef_at hissue hcap (Bool.eq_false_iff.mpr hany) hempty hfits, ?_⟩
      rw [if_neg hany]
      exact tileDone_setTile ..
  · intro e s p x hissue hview hx hfill hdrain hd
    have hexec := tmov_moves hissue hview hx ((tile_isReady x).mpr ⟨hfill, hdrain⟩) hd
    obtain ⟨hentry, hleft, hothers, hmem, hspm1, hgangs, htroops, hcrews, hpacks⟩ := tileMoved_frame e s
    exact ⟨_, hexec, hentry, hleft, hothers, hmem, hspm1, hgangs, htroops, hcrews, tileMoved_pack e s, hpacks⟩
  · intro e s p x w first n hissue hview hx hfill hd hn hpos hrows
    have hfits : viewFits x w := ⟨by omega, hpos, hrows⟩
    obtain ⟨hgeom, hpitch⟩ := viewTile_geom hfits
    refine ⟨_, viewTile x w, tmov_views hissue hview hx hfill hd hfits, tileDone_setTile .., ?_, hgeom, hpitch⟩
    rw [viewTile, tile_rowOff]

/-! ### twait, tstat, trel and tfill -/

/-- A tile that fills or drains is not ready. -/
theorem notReady_of_busy {x : Tile} (h : x.fill ≠ 0 ∨ x.drain ≠ 0) : x.isReady = false :=
  Bool.eq_false_iff.mpr fun hready => by
    obtain ⟨hfill, hdrain⟩ := (tile_isReady x).mp hready
    exact h.elim (absurd hfill) (absurd hdrain)

theorem tileInstructions_claim : Claims.TileInstructions := by
  refine ⟨?_, ?_, ?_, ?_, ?_, ?_⟩
  · intro e s p x hissue
    split
    next hgo => exact twait_completes hissue hgo
    next hgo => exact twait_stalls hissue hgo
  · intro e s p x hissue hfree
    exact (tstat_reads hissue hfree).trans
      (congrArg (fun w => Host.Outcome.next (completedPack s (wrS p e.d.toNat (BitVec.ofNat 64 w)) e 0)) (tileWord_eq x (encMod e)))
  · intro e s p x hissue hready
    cases hx : x.defined
    · exact ⟨_, trel_empty hissue hx, hx, fun _ _ => rfl, rfl, by rw [if_neg Bool.false_ne_true]; exact issued_pack s,
        fun k hk => State.setPack_pack_other _ _ _ _ hk, rfl, rfl, rfl⟩
    · obtain ⟨hentry, hothers, hpack, hpacks, hmem, ⟨hspm1, hgangs, htroops⟩, -⟩ :=
        tileDone_setTile s p.crew e.b.toNat Tile.blank (observeTiles p [e.b.toNat])
      exact ⟨_, trel_empties hissue hx ((tile_isReady x).mpr (hready hx)), by rw [hentry]; rfl, hothers, hmem, hpack, hpacks, hspm1, hgangs, htroops⟩
  · intro i e h s p x view word hi hissue hx hbusy
    have hnot : ¬(i = .tmov e ∧ view = true) → x.isReady = false := fun hmov => notReady_of_busy (hbusy.imp_right And.left)
    rcases hi with ⟨rfl, rfl⟩ | ⟨rfl, rfl⟩ | ⟨rfl, rfl, ⟨hview, hd⟩ | ⟨hview, hd, hword, hpos, hrows⟩⟩
    · exact trel_stalls hissue hx (hnot (by rintro ⟨⟨⟩, -⟩))
    · exact tfill_stalls hissue hx (hnot (by rintro ⟨⟨⟩, -⟩))
    · exact tmov_stalls hissue hview hx (hnot (by rintro ⟨-, h⟩; cases hview.symm.trans h)) hd
    · exact tmov_view_stalls hissue hview hx (hbusy.resolve_right fun h => h.2 ⟨rfl, hview⟩) hd ⟨hword, hpos, hrows⟩
  · intro e s p h x w hissue hfree hx hfill hdrain hw
    obtain ⟨hmem, hpack, hpacks, hentry, hothers, hspm1, hgangs, htroops, htfills⟩ := tfilling_frame e s
    have hbytes : (tfillOf e s).bytes.length = x.rowBytes := patternBytes_length ..
    have hexec := tfill_issues hissue hfree hx ((tile_isReady x).mpr ⟨hfill, hdrain⟩)
    refine ⟨tfilling e s, tfillOf e s, hexec, hmem, hpack, hpacks, ?_, hothers, hspm1, hgangs,
      htroops, htfills, rfl, hbytes, fun j hj => ?_⟩
    · rw [hentry, Tile.startFill, show (ownTile s e.d.toNat).fill = 0 from hfill]
      rfl
    · rw [hbytes] at hj
      exact patternBytes_testBit _ hw hj
  · intro crew s f l x rows len pitch hf hlive hpack hs hlen hroom
    have hroomFor : denRoomFor s crew x.space (x.rows * (f.bytes.length / 64 + 2)) := by rwa [tile_rows]
    obtain ⟨t, hland, hlanded⟩ := landFill_lands hf hlive hpack hs hroomFor
    have hrows : rows = x.rows := (tile_rows x).symm
    have hoff (i : Nat) : x.base + i * pitch = x.rowOff i := (tile_rowOff x i).symm
    refine ⟨t, hland, hlanded.mem, hlanded.tfills, ?_, ?_, ?_, ?_, ?_⟩
    · rw [hlanded.tiles, if_pos rfl]
      rfl
    · intro k hk
      rw [hlanded.tiles, if_neg hk]
    · intro i hi j hj
      rw [hoff]
      exact hlanded.rowBit hlen (hrows ▸ hi) hj
    · intro i hi j hj
      rw [hoff]
      exact hlanded.tag (hrows ▸ hi) hj
    · intro a ha
      refine hlanded.other fun i hi => ?_
      rw [← hoff]
      exact ha i (hrows ▸ hi)

theorem tileTraps_claim : Claims.TileTraps := by
  refine ⟨?_, ?_, ?_, ?_, ?_⟩
  · rintro i e h s (⟨rfl, rfl⟩ | ⟨rfl, rfl⟩) hissue hempty hm
    · exact tmov_empty hissue hempty hm
    · exact tfill_empty hissue hempty hm
  · intro e s c hissue hany htag hspace hsuper hbase hd hm
    exact tdef_defined hissue ⟨htag, hspace, .inr hsuper, hbase⟩ hany hm hd
  · intro e s hissue ha hx hd hm
    exact tmov_taken hissue hx ha hd hm
  · intro e s p c g base any full hissue htag hspace hsuper hbase hm
    have hcap : TdefCap e s := ⟨htag, hspace, .inr hsuper, hbase⟩
    refine ⟨fun hany hfull => tdef_full hissue hcap hany hm (lowestEmpty_none.mpr hfull), fun hfits => ⟨fun hany hroom => ?_, fun hany hd => ?_⟩⟩
    · obtain ⟨k, hk⟩ := Option.ne_none_iff_exists'.mp (mt lowestEmpty_none.mp hroom)
      exact tdef_any_unfit hissue hcap hany hm hk hfits
    · exact tdef_unfit hissue hcap hany hm hd hfits
  · intro e s p x w hissue hview hx hd hbad hm
    refine tmov_badView hissue hview hx hd (fun ⟨hword, hpos, hrows⟩ => ?_) hm
    rcases hbad with hbad | hbad | hbad
    · exact absurd hbad (Nat.not_le_of_lt hword)
    · exact absurd hbad (Nat.one_le_iff_ne_zero.mp hpos)
    · exact absurd hrows (Nat.not_le_of_lt hbad)

/-- Settles O32: each instruction's effect, stall or trap, and the landing of a tfill. -/
theorem tileInstructions : Obligations.TileInstructions := ⟨tileInstructions_claim, tileTraps_claim⟩

end Sys2Proof
end

section
/-! PROOFS. What enters a core's matrix sequencer, and what stalls (07 R205, R206; 12 R357, R367). -/

namespace Sys2Proof.Machine

/-! ### The counts of the tiles (R205) -/

section
variable (s : State) (crew who k : Nat) (f : Tile → Tile) (l fills drains : List Nat)

/-- A tile that is named n times takes a change n times, and the others stay. -/
theorem tileAt_modTiles :
    tileAt (l.foldl (fun s h => modTile s crew h f) s) crew k = f^[l.count k] (tileAt s crew k) := by
  induction l generalizing s with
  | nil => rfl
  | cons h l ih =>
    rw [List.foldl_cons, ih, modTile, tileAt_setTile, List.count_cons]
    by_cases hk : k = h
    · rw [if_pos hk, hk, beq_self_eq_true, if_pos rfl, Function.iterate_succ_apply]
    · rw [if_neg hk, if_neg (fun h' => hk (beq_iff_eq.mp h').symm), Nat.add_zero]

theorem startDrain_iterate (n : Nat) (t : Tile) : Tile.startDrain^[n] t = { t with drain := t.drain + n } := by
  induction n with
  | zero => rfl
  | succ n ih => rw [Function.iterate_succ_apply', ih]; rfl

theorem startFill_iterate (n : Nat) (t : Tile) :
    (fun t : Tile => t.startFill who)^[n] t = { t with fill := t.fill + n, mfill := List.replicate n who ++ t.mfill } := by
  induction n with
  | zero => rfl
  | succ n ih => rw [Function.iterate_succ_apply', ih]; rfl

theorem tileAt_raiseTiles : tileAt (raiseTiles s crew who fills drains) crew k =
    { tileAt s crew k with
      fill := (tileAt s crew k).fill + fills.count k
      drain := (tileAt s crew k).drain + drains.count k
      mfill := List.replicate (fills.count k) who ++ (tileAt s crew k).mfill } := by
  unfold raiseTiles
  rw [tileAt_modTiles, tileAt_modTiles, startFill_iterate, startDrain_iterate]

/-- What writes of the tile table keep, the counts' rise keeps. -/
theorem raiseTiles_keeps {α : Type} (fld : State → α) (hf : ∀ s h x, fld (setTile s crew h x) = fld s) :
    fld (raiseTiles s crew who fills drains) = fld s := by
  have hfold : ∀ (g : Tile → Tile) (l : List Nat) (s : State), fld (l.foldl (fun s h => modTile s crew h g) s) = fld s := fun g l => by
    induction l with
    | nil => exact fun _ => rfl
    | cons h l ih => exact fun s => (ih _).trans (hf s h _)
  exact (hfold _ _ _).trans (hfold _ _ _)

end

/-! ### A plan -/

section
variable {s : State} {c : Ctx} {crew : Nat} {l : List TileUse}

/-- A tile that serves a use is of its type, in its place and large enough (12 R359). -/
theorem fits_of_serves {x : Tile} {u : TileUse} (h : Claims.serves x u) : u.fits x = true := by
  obtain ⟨-, -, hty, hspm, hrows, hbytes⟩ := h
  have hspace : (!u.spm1 || x.space == 2) = true := by
    cases hu : u.spm1
    · rfl
    · simp [hspm hu]
  have htype : (u.types.isEmpty || u.types.contains x.ty) = true := by
    rcases hty with hty | hty
    · simp [hty]
    · simp [hty]
  rw [← tile_rows] at hrows
  rw [← tile_rowBytes] at hbytes
  rw [TileUse.fits, htype, hspace, decide_eq_true hrows, decide_eq_true hbytes]
  rfl

/-- Tiles that serve their uses trap nothing (12 R359). -/
theorem tileUseTrap_serves (h : ∀ u ∈ l, Claims.serves (tileAt s crew u.h) u) : tileUseTrap c s crew l = none := by
  have hperm : (l.find? fun u => (tileAt s crew u.h).defined && (tileAt s crew u.h).perm &&& pmMatrix == 0) = none := by
    simp only [List.find?_eq_none, Bool.and_eq_true, beq_iff_eq, not_and]
    exact fun u hu _ => (h u hu).2.1
  have hdef : (l.find? fun u => !(tileAt s crew u.h).defined) = none := by
    simp only [List.find?_eq_none, Bool.not_eq_true', Bool.not_eq_false]
    exact fun u hu => (h u hu).1
  have hfits : (l.find? fun u => !u.fits (tileAt s crew u.h)) = none := by
    simp only [List.find?_eq_none, Bool.not_eq_true', Bool.not_eq_false]
    exact fun u hu => fits_of_serves (h u hu)
  simp only [tileUseTrap, hperm, hdef, hfits, Option.map_none]

theorem mem_fillsOf {h : Nat} : h ∈ Claims.fillsOf l ↔ ∃ u ∈ l, u.write = true ∧ u.h = h := by
  simp [Claims.fillsOf, mem_nubNat, and_assoc]

theorem mem_drainsOf {h : Nat} : h ∈ Claims.drainsOf l ↔ ∃ u ∈ l, u.write = false ∧ u.h = h := by
  simp [Claims.drainsOf, mem_nubNat, and_assoc]

/-- A plan uses the tiles, as an accumulator too, and is of the kind that an instruction asks for. -/
structure Planned (q : Claims.MatAsk) (m : MatPlan) : Prop where
  kind : m.kind = q.kind
  fills : m.fills = Claims.fillsOf q.uses
  reads : m.reads = Claims.drainsOf q.uses
  acc : m.acc = q.acc

/-- The model's test of the tiles' states is that of R206. -/
theorem tilesReady_iff {q : Claims.MatAsk} {m : MatPlan} (hm : Planned q m) :
    m.tilesReady (issued s) (issuing s).crew s.cur = true ↔ Claims.allOpen s q.uses q.acc := by
  have hwritten (x : Tile) (h : Nat) :
      (if q.acc = some h then x.canAccumulate s.cur else x.isReady) = true ↔
        x.drain = 0 ∧ (x.fill = 0 ∨ q.acc = some h ∧ x.fill < 63 ∧ ∀ p ∈ x.mfill, p = s.cur) := by
    split
    next hacc => simp [Tile.canAccumulate, hacc]
    next hacc => simp [Tile.isReady, hacc, and_comm]
  have hread (x : Tile) (h : Nat) : ((Claims.fillsOf q.uses).contains h || x.canRead) = true ↔
      h ∈ Claims.fillsOf q.uses ∨ x.fill = 0 ∧ x.drain < 63 := by
    simp [Tile.canRead]
  simp only [MatPlan.tilesReady, hm.fills, hm.reads, hm.acc, Bool.and_eq_true, List.all_eq_true, hwritten, hread, tileAt_issued,
    Claims.allOpen, Claims.open_, decide_eq_true_eq]
  rw [← issuing_crew]
  constructor
  · rintro ⟨hr, hw⟩ u hu
    split
    next hwrite => exact hw u.h (mem_fillsOf.mpr ⟨u, hu, hwrite, rfl⟩)
    next hwrite => exact hr u.h (mem_drainsOf.mpr ⟨u, hu, Bool.eq_false_iff.mpr hwrite, rfl⟩)
  · intro hall
    refine ⟨fun h hh => ?_, fun h hh => ?_⟩
    · obtain ⟨u, hu, hwrite, rfl⟩ := mem_drainsOf.mp hh
      have hopen := hall u hu
      rwa [if_neg (Bool.eq_false_iff.mp hwrite)] at hopen
    · obtain ⟨u, hu, hwrite, rfl⟩ := mem_fillsOf.mp hh
      have hopen := hall u hu
      rwa [if_pos hwrite] at hopen

end

/-! ### A plan as it issues -/

section
variable {s : State} {i : Instr} {e : Enc} {m : MatPlan} {body : Ctx → State → Res}

/-- In Free mode an operation's uses are not stamped (16 R485). -/
theorem strictUses_free {k : Nat} (h : s.isStrict (s.pack k).launch = false) (op crew : Nat) (l : List TileUse) :
    strictUses s k op crew l = .ok s := by
  induction l with
  | nil => rfl
  | cons u l ih => simp only [strictUses, strict_free h, ih]

/-- The core of the issuing pack. -/
def ownCore (s : State) : Nat := (s.crew (issuing s).crew).core

/-- The instruction that a plan puts into the queue (R367). -/
def queuedOp (s : State) (m : MatPlan) : MatOp :=
  ⟨(issuing s).crew, s.cur, issuePc s, m.kind, m.fills, m.reads, 0, none, matOp + s.fresh + 1⟩

/-- The state with the counts raised, before the instruction enters the queue (R205). -/
def raised (s : State) (m : MatPlan) : State :=
  raiseTiles (s.newId.2.setPack s.cur (observeTiles (issuing s) (m.fills ++ m.reads))) (issuing s).crew s.cur m.fills m.reads

/-- The state that a plan leaves as it issues. -/
def queued (s : State) (m : MatPlan) : State := (raised s m).setSeq (ownCore s) (s.seq (ownCore s) ++ [queuedOp s m])

theorem raised_keeps {α : Type} (fld : State → α) (m : MatPlan) (hf : ∀ s k h x, fld (setTile s k h x) = fld s) :
    fld (raised s m) = fld (s.newId.2.setPack s.cur (observeTiles (issuing s) (m.fills ++ m.reads))) :=
  raiseTiles_keeps _ _ _ _ _ fld fun s => hf s _

theorem seqIssue_queued (hf : s.isFox = false) (hfree : s.isStrict (issuing s).launch = false)
    (hready : m.tilesReady (issued s) (issuing s).crew s.cur = true) (hroom : (s.seq (ownCore s)).length < 16) :
    seqIssue (issueCtx s e) (issued s) m = .done (queued s m) 0 := by
  have hstrict : strictUses (s.newId.2.setPack s.cur (observeTiles (issuing s) (m.fills ++ m.reads))) s.cur (matOp + s.fresh + 1)
      (issuing s).crew m.uses = .ok (s.newId.2.setPack s.cur (observeTiles (issuing s) (m.fills ++ m.reads))) :=
    strictUses_free (by rw [State.setPack_pack_same]; exact hfree) ..
  have hseq : (raised s m).seq (ownCore s) = s.seq (ownCore s) := raised_keeps (State.seq · (ownCore s)) m fun _ _ _ _ => rfl
  have hcur : (raised s m).cur = s.cur := raised_keeps State.cur m fun _ _ _ _ => rfl
  have hnum : (issued s).newId.1 = s.fresh := rfl
  have hfull : ¬16 ≤ (s.seq (ownCore s)).length := Nat.not_le_of_lt hroom
  unfold seqIssue
  simp only [issued_curCrewId hf, issued_curCrew hf, issued_cur, hready, Bool.not_true, Bool.false_eq_true, if_false]
  rw [if_neg (show ¬seqRoom ≤ ((issued s).seq (s.crew (issuing s).crew).core).length from hfull)]
  simp only [newId_curPack hf, newId_setCur hf, hnum, hstrict]
  change Res.done ((raised s m).setSeq (ownCore s)
    ((raised s m).seq (ownCore s) ++ [{ queuedOp s m with pack := (raised s m).cur }])) 0 = .done (queued s m) 0
  rw [hseq, hcur]
  rfl

/-- The instruction enters the queue (R367). -/
theorem issue_queued (h : Issuable i s) (hb : body (issueCtx s e) (issued s) = seqIssue (issueCtx s e) (issued s) m)
    (hfree : s.isStrict (issuing s).launch = false) (hready : m.tilesReady (issued s) (issuing s).crew s.cur = true)
    (hroom : (s.seq (ownCore s)).length < 16) : issue i e body s = .next (completed s (queued s m) e 0) := by
  refine issue_done_pack h (p := observeTiles (issuing s) (m.fills ++ m.reads))
    (hb.trans (seqIssue_queued h.pack hfree hready hroom)) ?_ rfl rfl ?_
  · rw [queued, State.setSeq_pack, raised_keeps (State.pack · s.cur) m fun _ _ _ _ => rfl, State.setPack_pack_same]
  · rw [queued, State.setSeq_launches, raised_keeps State.launches m fun _ _ _ _ => rfl]
    rfl

/-- A full queue stalls the pack (R367). -/
theorem issue_queueFull (h : Issuable i s) (hb : body (issueCtx s e) (issued s) = seqIssue (issueCtx s e) (issued s) m)
    (hready : m.tilesReady (issued s) (issuing s).crew s.cur = true) (hfull : 16 ≤ (s.seq (ownCore s)).length) :
    issue i e body s = .next (stalledIn s ((issued s).count ctrMxQfull (ownCore s) 1)) := by
  refine issue_stall_counted h (hb.trans ?_)
  unfold seqIssue
  simp only [issued_curCrewId h.pack, issued_curCrew h.pack, issued_cur, hready, Bool.not_true, Bool.false_eq_true, if_false]
  exact if_pos hfull

/-- A tile whose state does not allow its use stalls the pack (R206). -/
theorem issue_tilesBusy (h : Issuable i s) (hb : body (issueCtx s e) (issued s) = seqIssue (issueCtx s e) (issued s) m)
    (hbusy : m.tilesReady (issued s) (issuing s).crew s.cur = false) :
    issue i e body s = .next (stalledIn s ((issued s).count ctrTileStall (ownCore s) 1)) := by
  refine issue_tileStall h (hb.trans ?_)
  unfold seqIssue
  simp only [issued_curCrewId h.pack, issued_cur, hbusy, Bool.not_false, if_true]

/-- What the queue, the tiles, the packs and the bytes are after the instruction has entered the queue. -/
theorem queued_spec {q : Claims.MatAsk} (hm : Planned q m) : Claims.Queued s (queued s m) q.kind q.uses where
  queue := by
    rw [← issuing_crew, ← hm.kind, ← hm.fills, ← hm.reads]
    exact State.setSeq_seq_same ..
  queues k hk := by
    rw [← issuing_crew] at hk
    exact (State.setSeq_seq_other _ _ _ k hk).trans (raised_keeps (State.seq · k) m fun _ _ _ _ => rfl)
  tiles h := by
    rw [← issuing_crew, ← hm.fills, ← hm.reads]
    have htile : tileAt (queued s m) (issuing s).crew h = _ := tileAt_raiseTiles ..
    rw [htile]
    exact ⟨rfl, rfl, rfl⟩
  mem := raised_keeps State.mem m fun _ _ _ _ => rfl
  pack := by
    rw [← hm.fills, ← hm.reads]
    exact (raised_keeps (State.pack · s.cur) m fun _ _ _ _ => rfl).trans (State.setPack_pack_same ..)
  packs k hk := (raised_keeps (State.pack · k) m fun _ _ _ _ => rfl).trans (State.setPack_pack_other _ _ _ _ hk)
  pads k := raised_keeps (fun t => (t.crew k).st.spm1) m fun _ _ _ _ => setTile_spm1 ..
  regions := ⟨raised_keeps State.gangs m fun _ _ _ _ => rfl, raised_keeps State.troops m fun _ _ _ _ => rfl⟩

end

end Sys2Proof.Machine
end

section
/-! PROOFS. The plan of each matrix instruction where its operands pass the checks of 12 R359 (12 R357, R363 to R378). -/

namespace Sys2Proof.Machine

/-! ### The words that the plans are made of -/

theorem encModBit_eq_testBit (e : Enc) (k : Nat) : encModBit e k = (encMod e).testBit k := bitAt_eq_testBit ..

theorem shapeM_eq (w : Nat) : shapeM w = Claims.dimM w := by simp only [shapeM, shapeMg, bits, Claims.dimM, pow_zero, Nat.div_one]; rfl
theorem shapeN_eq (w : Nat) : shapeN w = Claims.dimN w := rfl
theorem shapeK_eq (w : Nat) : shapeK w = Claims.dimK w := rfl

theorem shapeBad_of_fits {w : Nat} (h : Claims.shapeFits w) : shapeBad w = false := by
  obtain ⟨hlow, hhigh⟩ := h
  have hbits : bits w 48 16 = 0 ∧ bits w 13 3 = 0 := ⟨by rw [bits, hhigh]; rfl, hlow⟩
  simp [shapeBad, hbits]

theorem scaleBytes_ne_zero (ty : Nat) : scaleBytes ty ≠ 0 ↔ (typeMx ty || typeDxb ty) = true := by
  unfold scaleBytes
  cases typeDxb ty <;> cases typeMx ty <;> decide

/-- A block format has the scale tile of R83. -/
theorem scaleTile_eq (ty h rows blocks : Nat) (write : Bool) (hb : (typeMx ty || typeDxb ty) = true) :
    Claims.scales ty h rows blocks write = [⟨h, [scaleTy ty], false, rows, blocks * scaleBytes ty, write⟩] := by
  unfold Claims.scales scaleTy scaleBytes
  rw [if_pos hb]
  cases hd : typeDxb ty
  · rw [hd, Bool.or_false] at hb
    simp [hb]
  · rfl

theorem scaleUse_eq (ty h rows blocks : Nat) : scaleUse ty h rows blocks = Claims.scales ty h rows blocks false := by
  unfold scaleUse
  split
  next hno => exact (if_neg fun hb => (scaleBytes_ne_zero ty).mpr hb hno).symm
  next hb => exact (scaleTile_eq ty h rows blocks false ((scaleBytes_ne_zero ty).mp hb)).symm

theorem mmaUses_eq (acc a scale ta tb w : Nat) : mmaUses acc a scale ta tb w =
    [⟨acc, [if (ta == 1 || ta == 0x1C) && (tb == 1 || tb == 0x1C) then 3 else 0x0D], true, Claims.dimM w, 4 * Claims.dimN w, true⟩,
      ⟨a, [ta], false, Claims.dimM w, Claims.dimK w * typeBits ta / 8, false⟩] ++ Claims.scales ta scale (Claims.dimM w) (Claims.dimK w / 32) false := by
  have hblocks : 2 * shapeVecs w = Claims.dimK w / 32 := by
    rw [← shapeK_eq, shapeK]
    omega
  have htype : accType ta tb = if (ta == 1 || ta == 0x1C) && (tb == 1 || tb == 0x1C) then 3 else 0x0D := by
    simp [accType]
  rw [mmaUses, scaleUse_eq, hblocks, htype, shapeM_eq, shapeN_eq, shapeK_eq]

theorem mmsUses_eq (out a ty w : Nat) : mmsUses out a ty w =
    [⟨out, [ty], true, Claims.dimM w, Claims.dimN w * typeBits ty / 8, true⟩,
      ⟨a, [ty], false, Claims.dimM w, Claims.dimK w * typeBits ty / 8, false⟩] := by
  rw [mmsUses, shapeM_eq, shapeN_eq, shapeK_eq]

section
variable {s : State} {c : Ctx} {m0 ty sl w : Nat}

/-- A group that fits passes the checks of R359. -/
theorem groupCheck_fits (hf : s.isFox = false) (h : Claims.groupFits s m0 ty sl w) :
    groupCheck c (issued s) m0 ty sl w = .ok (crewMacro (s.crew (issuing s).crew).st m0) := by
  unfold Claims.groupFits at h
  rw [← issuing_crew] at h
  obtain ⟨hlimit, hloaded, hbase, hty, hs, hkv, hng⟩ := h
  have hroom : ¬macroLimit (issued s) ≤ m0 := by
    rw [macroLimit, issued_curLaunch hf, issuing_crew]
    exact Nat.not_le_of_lt hlimit
  have hkv' : (crewMacro (s.crew (issuing s).crew).st m0).kv = shapeKv w := hkv
  have hng' : (crewMacro (s.crew (issuing s).crew).st m0).ng = shapeNg w := hng
  simp only [groupCheck, issued_curCrew hf, hroom, hloaded, hbase, hty, hs, hkv', hng', ne_eq, not_true_eq_false, decide_false, Bool.not_true,
    Bool.or_self, Bool.false_eq_true, if_false]

/-- Only Strict mode looks at the order of a group's load (R354). -/
theorem groupRace_free (hf : s.isFox = false) (hfree : s.isStrict (issuing s).launch = false) (g : MacroRec) : groupRace c (issued s) g = none := by
  simp only [groupRace, issued_curPack s hf, issued_isStrict, hfree, Bool.false_and, Bool.false_eq_true, if_false]

/-- Scale blocks that begin alike trap nothing (R365). -/
theorem scaleTrap_alike {ta tb : Nat} {g : MacroRec} (ha : (typeMx ta || typeDxb ta) = true → w / 2 ^ 32 % 2 ^ 4 = w / 2 ^ 16 % 2 ^ 4)
    (hb : (typeMx tb || typeDxb tb) = true → g.kb0b % 2 ^ 4 = w / 2 ^ 16 % 2 ^ 4) : scaleTrap c ta tb w g = none := by
  have hlow (x : Nat) : x % 2 ^ 16 % 16 = x % 2 ^ 4 := by omega
  have ha' : ¬(scaleBytes ta ≠ 0 ∧ shapeKs w % 16 ≠ shapeKb0 w % 16) := fun ⟨hs, hne⟩ => hne (by
    rw [shapeKs, shapeKb0, bits, bits, hlow, hlow]
    exact ha ((scaleBytes_ne_zero ta).mp hs))
  have hb' : ¬(scaleBytes tb ≠ 0 ∧ g.kb0b % 16 ≠ shapeKb0 w % 16) := fun ⟨hs, hne⟩ => hne (by
    rw [shapeKb0, bits, hlow]
    exact hb ((scaleBytes_ne_zero tb).mp hs))
  unfold scaleTrap
  simp only [Bool.and_eq_true, decide_eq_true_eq]
  rw [if_neg ha', if_neg hb']

end

/-! ### The plans -/

/-- The plan with just what is asked for. -/
def askedPlan (q : Claims.MatAsk) : MatPlan := ⟨q.kind, q.uses, q.acc⟩

theorem askedPlan_planned (q : Claims.MatAsk) : Planned q (askedPlan q) := ⟨rfl, rfl, rfl, rfl⟩

/-- Where the checks pass, the body of the instruction issues a plan with the tiles and the kind asked for. -/
def Plans (i : Instr) (q : Claims.MatAsk) (s : State) : Prop :=
  ∃ body m, exec i s = issue i q.e body s ∧ body (issueCtx s q.e) (issued s) = seqIssue (issueCtx s q.e) (issued s) m ∧ Planned q m

/-- What is known of a pack whose operands pass the checks (R359). -/
structure Passes (q : Claims.MatAsk) (s : State) : Prop where
  pack : s.isFox = false
  free : s.isStrict (issuing s).launch = false
  ok : q.ok
  serves : ∀ u ∈ q.uses, Claims.serves (ownTile s u.h) u

section
variable {s : State} {e : Enc} {i : Instr} {q : Claims.MatAsk}

theorem Passes.noTrap (h : Passes q s) (c : Ctx) : tileUseTrap c (issued s) (issuing s).crew q.uses = none := tileUseTrap_serves h.serves

/-- mma and mms make a plan of their operands and issue it. -/
theorem plans_of_plan {plan : Ctx → State → Except Trap MatPlan} (hexec : exec i s = issue i q.e (planBody plan) s)
    (hplan : plan (issueCtx s q.e) (issued s) = .ok (askedPlan q)) : Plans i q s :=
  ⟨_, _, hexec, by simp only [planBody, hplan], askedPlan_planned q⟩

theorem shapeOf_issued (hf : s.isFox = false) : shapeOf (issueCtx s e) (issued s) = (rdS (issuing s) (encB e)).toNat := by
  rw [shapeOf, issued_curPack s hf, issueCtx_e]

theorem mmaPlan_passes (hq : Claims.matAsk s (.mmaInt e) = some q) (h : Passes q s) (word : Nat) :
    mmaPlan (issueCtx s e) (issued s) word e (shapeOf (issueCtx s e) (issued s)) = .ok (askedPlan q) := by
  cases hq
  obtain ⟨hzp, hshape, hgroup, hscaleA, hscaleB⟩ := h.ok
  have hanchor : ((encMod e).testBit 5 && decide (255 < encImm e % 256 + (Claims.dimM (rdS (issuing s) (encB e)).toNat + (issuing s).width - 1) /
      (issuing s).width - 1)) = false := by
    rw [Bool.and_eq_false_imp]
    exact fun hset => decide_eq_false (by have := hzp hset; omega)
  have hm0 : bits (encImm e) 8 3 = encImm e / 2 ^ 8 % 8 := rfl
  have hgroup := groupCheck_fits (c := issueCtx s e) h.pack hgroup
  have hscale := scaleTrap_alike (c := issueCtx s e) hscaleA hscaleB
  simp only [mmaPlan, shapeOf_issued h.pack, issued_curPack s h.pack, issued_curCrewId h.pack, issued_curLaunch h.pack, encModBit_eq_testBit,
    bitAt_eq_testBit, shapeM_eq, mmaUses_eq, hanchor, shapeBad_of_fits hshape, hm0, hgroup, hscale, groupRace_free h.pack h.free,
    Option.orElse_none, Bool.false_eq_true, if_false]
  rw [h.noTrap, issuing_crew]
  rfl

theorem mms_plans (hq : Claims.matAsk s (.mms e) = some q) (h : Passes q s) : Plans (.mms e) q s := by
  cases hq
  obtain ⟨hshape, hgroup⟩ := h.ok
  have hm0 : bits (encImm e) 8 3 = encImm e / 2 ^ 8 % 8 := rfl
  have hgroup := groupCheck_fits (c := issueCtx s e) h.pack hgroup
  refine plans_of_plan rfl ?_
  simp only [mmsPlan, shapeOf_issued h.pack, issueCtx_e, issued_curPack s h.pack, issued_curCrewId h.pack, encModBit_eq_testBit, mmsUses_eq,
    shapeBad_of_fits hshape, hm0, hgroup, groupRace_free h.pack h.free, Bool.false_eq_true, if_false]
  rw [h.noTrap]
  rfl

theorem mmaInt_plans (hq : Claims.matAsk s (.mmaInt e) = some q) (h : Passes q s) : Plans (.mmaInt e) q s := by
  have hplan := mmaPlan_passes hq h (encodeFirst 0xC2 e)
  cases hq
  exact plans_of_plan rfl hplan

theorem mmaFloat_plans (hq : Claims.matAsk s (.mmaFloat e) = some q) (h : Passes q s) : Plans (.mmaFloat e) q s := by
  have hplan := mmaPlan_passes hq h (encodeFirst 0xC3 e)
  cases hq
  exact plans_of_plan rfl hplan

/-- mzero, mxq, mxdq and mtr check their tiles and issue. -/
def tilesThenIssue (c : Ctx) (s : State) (m : MatPlan) : Res :=
  match tileUseTrap c s s.curCrewId m.uses with
  | some t => .trap t
  | none => seqIssue c s m

theorem plans_of_tiles {body : Ctx → State → Res} (h : Passes q s) (hexec : exec i s = issue i q.e body s)
    (hbody : body (issueCtx s q.e) (issued s) = tilesThenIssue (issueCtx s q.e) (issued s) (askedPlan q)) : Plans i q s := by
  refine ⟨_, _, hexec, hbody.trans ?_, askedPlan_planned q⟩
  simp only [tilesThenIssue, issued_curCrewId h.pack, askedPlan, h.noTrap]

theorem mzero_plans (hq : Claims.matAsk s (.mzero e) = some q) (h : Passes q s) : Plans (.mzero e) q s := by
  cases hq
  refine plans_of_tiles h rfl ?_
  simp only [mzeroBody, tilesThenIssue, issued_curCrewId h.pack]
  rfl

theorem mtr_plans (hq : Claims.matAsk s (.mtr e) = some q) (h : Passes q s) : Plans (.mtr e) q s := by
  cases hq
  refine plans_of_tiles h rfl ?_
  simp only [mtrBody, tilesThenIssue, issued_curCrewId h.pack]
  rfl

theorem mxq_plans (hq : Claims.matAsk s (.mxq e) = some q) (h : Passes q s) : Plans (.mxq e) q s := by
  cases hq
  have hblock : (typeMx (encTy e 0) || typeDxb (encTy e 0)) = true := (Bool.or_eq_true _ _).mpr h.ok
  refine plans_of_tiles h rfl ?_
  simp only [mxqBody, tilesThenIssue, askedPlan, issued_curCrewId h.pack, issued_curPack s h.pack, issueCtx_e, encModBit_eq_testBit,
    scaleTile_eq _ _ _ _ _ hblock]
  rfl

theorem mxdq_plans (hq : Claims.matAsk s (.mxdq e) = some q) (h : Passes q s) : Plans (.mxdq e) q s := by
  cases hq
  have hblock : (typeMx (encMod e % 32) || typeDxb (encMod e % 32)) = true := (Bool.or_eq_true _ _).mpr h.ok
  refine plans_of_tiles h rfl ?_
  simp only [mxdqBody, tilesThenIssue, askedPlan, issued_curCrewId h.pack, issued_curPack s h.pack, issueCtx_e, encModBit_eq_testBit,
    scaleTile_eq _ _ _ _ _ hblock]
  rfl

/-- The destination as macc uses it: the rows of the source, with its elements converted (12 R373). -/
def maccDest (e : Enc) (s : State) (types : List Nat) : TileUse :=
  ⟨encD e, types, false, (ownTile s (encA e)).rows, (ownTile s (encA e)).rowBytes / 4 * typeBits (encTy e 0) / 8, true⟩

/-- The plan that macc issues once the types have been checked. -/
def maccPlan (e : Enc) (s : State) (kind : MatKind) : MatPlan :=
  ⟨kind, [⟨encA e, [], true, (ownTile s (encA e)).rows, 4 * ((ownTile s (encA e)).rowBytes / 4), false⟩, maccDest e s []], none⟩

/-- macc into a tile checks the type of its source and the size of its destination, waits for the source, and looks for an element that
takes the bound's trap action before it issues (12 R373, R375). -/
theorem maccTile_plans (hq : Claims.matAsk s (.maccTile e) = some q) (h : Passes q s) : Plans (.maccTile e) q s := by
  have hbound : maccBound (issued s) e = if (encMod e).testBit 1 then
      some (Tab.get BoundEntry.unused (s.launch (s.crew (issuing s).crew).launch).bounds (encC e)) else none := by
    rw [maccBound, encModBit_eq_testBit, issued_curLaunch h.pack]
  cases hq
  obtain ⟨hfill, hdrain, htrap⟩ := h.ok
  have hready : (ownTile s (encA e)).isReady = true := (tile_isReady _).mpr ⟨hfill, hdrain⟩
  have hnone : (maccBound (issued s) e).bind (boundTrapAt (issued s) (issuing s).crew (ownTile s (encA e)) e (rmOf (issuing s) e)) = none := by
    rw [hbound, Option.bind_eq_none_iff]
    exact htrap
  have htiles : tileUseTrap (issueCtx s e) (issued s) (issuing s).crew
      [⟨encA e, [3, 0x0D], true, 0, 0, false⟩, maccDest e s [encTy e 0]] = none := by
    obtain ⟨hsrc, hdst⟩ := List.forall_mem_cons.mp h.serves
    obtain ⟨hdef, hperm, htype, hspace, -, -⟩ := hsrc
    exact tileUseTrap_serves (List.forall_mem_cons.mpr ⟨⟨hdef, hperm, htype, hspace, Nat.zero_le _, Nat.zero_le _⟩, hdst⟩)
  refine ⟨maccTileBody, maccPlan e s _, rfl, ?_, ⟨rfl, rfl, rfl, rfl⟩⟩
  simp only [maccTileBody, issued_curCrewId h.pack, issued_curPack s h.pack, issueCtx_e, tileAt_issued, encModBit_eq_testBit, hready, Bool.not_true,
    Bool.false_eq_true, if_false, hnone]
  rw [maccDest] at htiles
  rw [hbound, htiles]
  rfl

/-- Each matrix instruction that goes to the sequencer issues the plan asked for (R367). -/
theorem matAsk_plans (hq : Claims.matAsk s i = some q) (h : Passes q s) : Plans i q s := by
  have hq' := hq
  unfold Claims.matAsk at hq'
  split at hq'
  next => exact mmaInt_plans hq h
  next => exact mmaFloat_plans hq h
  next => exact mms_plans hq h
  next => exact maccTile_plans hq h
  next => exact mzero_plans hq h
  next => exact mxq_plans hq h
  next => exact mxdq_plans hq h
  next => exact mtr_plans hq h
  next => cases hq'

end

end Sys2Proof.Machine

namespace Sys2Proof
open Machine

/-- Settles O36: the instruction issues the plan asked for, and the sequencer takes it or the pack stalls. -/
theorem matrixIssue : Obligations.MatrixIssue := by
  intro i q s hq h hfree p core hok hserves
  have hstrict : s.isStrict (issuing s).launch = false := by
    rw [State.isStrict, issuing_launch, hfree.1]
    rfl
  obtain ⟨body, m, hexec, hbody, hm⟩ := matAsk_plans hq ⟨h.pack, hstrict, hok, hserves⟩
  rw [hexec, ← tilesReady_iff hm]
  refine ⟨fun hready hroom => ?_, fun hready hfull => ?_, fun hbusy => ?_⟩
  · exact ⟨queued s m, issue_queued h hbody hstrict hready hroom, queued_spec hm⟩
  · exact issue_queueFull h hbody hready hfull
  · exact issue_tilesBusy h hbody (Bool.eq_false_iff.mpr hbusy)

end Sys2Proof
end
